-- ==== Sys2Proof/Word.lean ====
section
/-! DEFINITION. The word types of the JX4 and the plain sparse table in which State keeps what is addressed by number. -/

namespace Sys2Proof

/-- A lane, instruction word or 32-bit register (R40, R115). -/
abbrev Word := BitVec 32

/-- A generator or uniform register, or a management doubleword (R71, R117). -/
abbrev DWord := BitVec 64

/-- One byte of memory. -/
abbrev Byte := BitVec 8

/-- A birth stamp of 24 bits (R23). -/
abbrev Stamp := BitVec 24

/-- R23: older than any bound. -/
def ancient : Stamp := 0

/-- R23: no time ancestry. -/
def ageless : Stamp := 0xFFFFFF

/-- A 64-bit value with its stamp (R22): a g, h or uniform register, or a mailbox. -/
structure SVal where
  val : DWord
  stamp : Stamp
  deriving DecidableEq, Repr

/-- What a register of a fresh thread or gang holds (R22, R71). -/
def SVal.zero : SVal := ⟨0, ageless⟩

/-- A vector register: 32 lanes and one stamp a slice (R115, R116). -/
structure VReg where
  lanes : Vector Word 32
  stamps : Vector Stamp 8
  deriving DecidableEq, Repr

/-- A vector register of a newly dispatched gang (R22). -/
def VReg.zero : VReg := ⟨Vector.replicate 32 0, Vector.replicate 8 ageless⟩

/-- Sparse data by number: keys rising, an absent key stands for the table's default. -/
abbrev Tbl (α : Type) := List (Nat × α)

/-- The entry of key `k`, if listed. -/
def Tbl.get? {α : Type} (t : Tbl α) (k : Nat) : Option α :=
  match t with
  | [] => none
  | (j, x) :: r => if j = k then some x else Tbl.get? r k

/-- The entry of key `k`, or the table's default. -/
def Tbl.getD {α : Type} (t : Tbl α) (k : Nat) (d : α) : α :=
  match Tbl.get? t k with
  | some x => x
  | none => d

/-- `t` with `x` at key `k`. -/
def Tbl.set {α : Type} (t : Tbl α) (k : Nat) (x : α) : Tbl α :=
  match t with
  | [] => [(k, x)]
  | (j, y) :: r => if k < j then (k, x) :: (j, y) :: r else if k = j then (k, x) :: r else (j, y) :: Tbl.set r k x

/-- `t` without key `k`. -/
def Tbl.erase {α : Type} (t : Tbl α) (k : Nat) : Tbl α :=
  match t with
  | [] => []
  | (j, y) :: r => if k = j then r else (j, y) :: Tbl.erase r k

end Sys2Proof
end

