-- ==== Sys2Proof/Config.lean ====
section
/-! DEFINITION. The free values: what the manual leaves open, as constants without a body. Each is applied to the
counter State.fresh (or to the data it depends on), so that nothing can be proved of which value it takes. Log 8. -/

namespace Sys2Proof.Config

/-- A choice between two outcomes the manual allows (old or new contents of a sector, R276, R278, R300; old or new
word, R74, R101; old or new translation, R210). DESIGN CHOICE, log 8: free. -/
opaque freeBit : Nat → Bool

/-- Data the manual calls undefined (a poisoned sector that a copy writes, R277). DESIGN CHOICE, log 8: free. -/
opaque freeByte : Nat → Byte

/-- Size in 4 KiB units, beyond the first, of the saved state of a block of the given gangs, registers, flume words and
scratchpad bytes (R331 does not lay it out), below 2^20. DESIGN CHOICE, log 11: free. -/
opaque saveUnits : Nat → Nat → Nat → Nat → BitVec 20

/-- Whether a part of the firmware verifies under Falcon-1024 with the key it presents (R368). DESIGN CHOICE, log 14. -/
opaque falconVerifies : List Byte → List Byte → List Byte → Bool

/-- SHAKE256 to 64 bytes (R368, R369), not defined by the manual. DESIGN CHOICE, log 14: free. -/
opaque shake256 : List Byte → List Byte

/-- The digest of Hexven's root public key in the lagoon's fuses (R368). DESIGN CHOICE, log 14: free. -/
opaque rootKeyDigest : List Byte

/-- The identity certificate of the package (R369). DESIGN CHOICE, log 14: free. -/
opaque certificate : List Byte

/-- The identity key's Falcon-1024 signature over a report (R369). DESIGN CHOICE, log 14: free. -/
opaque falconSign : List Byte → List Byte

end Sys2Proof.Config
end

