-- ==== Sys2Proof/Syntax.lean ====
section
/-! DEFINITION. Syntax, whole: one constructor of Instr for each row of spec/opcode_table.json. The rows with an
encoding are the words of gangs and generator threads; the rows without one are the other engines' steps, whose
arguments name the place of the step and whatever the outside supplies to it. -/

namespace Sys2Proof

/-- Register format (R41). `b` = 127 takes the b operand from the trailing literal `lit`; otherwise `lit` is 0. -/
structure RegOp where
  s : Bool
  c : Bool
  d : BitVec 7
  a : BitVec 7
  b : BitVec 7
  t : Bool
  lit : Word
  deriving DecidableEq, Repr

/-- Register format, unary opcodes (R41, mark u of R59). -/
structure UnOp where
  s : Bool
  c : Bool
  d : BitVec 7
  a : BitVec 7
  t : Bool
  deriving DecidableEq, Repr

/-- Compares: `d` names a mask register (R45, mark kd of R59). -/
structure CmpOp where
  s : Bool
  c : Bool
  d : BitVec 7
  a : BitVec 7
  b : BitVec 7
  lit : Word
  deriving DecidableEq, Repr

/-- Mask logic: all three fields name mask registers (R155). -/
structure KOp where
  s : Bool
  c : Bool
  d : BitVec 7
  a : BitVec 7
  b : BitVec 7
  deriving DecidableEq, Repr

/-- Conversions: the control field of R41 as part index, FP8 format and saturation (R147). -/
structure CvtOp where
  s : Bool
  c : Bool
  d : BitVec 7
  a : BitVec 7
  p : BitVec 2
  fmt : Bool
  sat : Bool
  t : Bool
  deriving DecidableEq, Repr

/-- VDOT8: format `f` (0 E4M3, 1 E5M2) and scale half `h` come from the opcode (R150). -/
structure DotOp where
  s : Bool
  c : Bool
  f : Bool
  h : Bool
  d : BitVec 7
  a : BitVec 7
  b : BitVec 7
  t : Bool
  deriving DecidableEq, Repr

/-- Immediate format (R42): an immediate or a constant-bank index. -/
structure ImmOp where
  s : Bool
  c : Bool
  d : BitVec 7
  a : BitVec 7
  i : BitVec 9
  deriving DecidableEq, Repr

/-- Adopt forms of the immediate format (R140). -/
structure AdoptOp where
  s : Bool
  c : Bool
  d : BitVec 7
  a : BitVec 7
  b : BitVec 7
  deriving DecidableEq, Repr

/-- Float format (R43). -/
structure FltOp where
  s : Bool
  c : Bool
  d : BitVec 7
  i : BitVec 20
  deriving DecidableEq, Repr

/-- Memory subclass with its extension word (R44, R51). -/
structure MemOp where
  s : Bool
  c : Bool
  d : BitVec 7
  voff : BitVec 7
  wsel : BitVec 4
  bnd : BitVec 4
  ord : BitVec 2
  scope : BitVec 3
  size : BitVec 3
  aop : BitVec 4
  policy : BitVec 2
  mode : BitVec 2
  off : BitVec 16
  deriving DecidableEq, Repr

/-- FERRY with its extension word (R267, R268). -/
structure FerryOp where
  s : Bool
  c : Bool
  tag : BitVec 6
  bnd : BitVec 4
  ord : BitVec 2
  scope : BitVec 3
  vdst : BitVec 7
  vsrc : BitVec 7
  dsel : BitVec 4
  ssel : BitVec 4
  deriving DecidableEq, Repr

/-- FEED, register form (R310). -/
structure FeedRegOp where
  s : Bool
  c : Bool
  va : BitVec 7
  vo : BitVec 7
  bnd : BitVec 4
  scope : BitVec 3
  arr : Bool
  dw : Bool
  deriving DecidableEq, Repr

/-- FEED, memory form (R310). -/
structure FeedMemOp where
  s : Bool
  c : Bool
  va : BitVec 7
  vo : BitVec 7
  bnd : BitVec 4
  ord : BitVec 2
  scope : BitVec 3
  ssel : BitVec 4
  len : BitVec 15
  arr : Bool
  dw : Bool
  deriving DecidableEq, Repr

/-- DRAIN (cube), register form (R311). -/
structure DrainRegOp where
  s : Bool
  c : Bool
  vd : BitVec 7
  bnd : BitVec 4
  scope : BitVec 3
  row : BitVec 7
  seg : BitVec 2
  arr : Bool
  deriving DecidableEq, Repr

/-- DRAIN (cube), memory form (R311). -/
structure DrainMemOp where
  s : Bool
  c : Bool
  vd : BitVec 7
  dsel : BitVec 4
  bnd : BitVec 4
  ord : BitVec 2
  scope : BitVec 3
  row : BitVec 7
  nrm1 : BitVec 7
  fmt : BitVec 3
  sat : Bool
  arr : Bool
  deriving DecidableEq, Repr

/-- Layout GR of generator words (R57). -/
structure GrOp where
  d : BitVec 5
  a : BitVec 5
  b : BitVec 5
  deriving DecidableEq, Repr

/-- Layout GI of generator words (R57). -/
structure GiOp where
  d : BitVec 5
  a : BitVec 5
  i : BitVec 16
  deriving DecidableEq, Repr

/-- Layout GB of generator words (R57). -/
structure GbOp where
  a : BitVec 5
  b : BitVec 5
  j : BitVec 16
  deriving DecidableEq, Repr

/-- GLD and GST (R96). -/
structure GMemOp where
  d : BitVec 5
  a : BitVec 5
  b : BitVec 5
  ord : BitVec 2
  scope : BitVec 3
  size : BitVec 2
  bnd : BitVec 4
  deriving DecidableEq, Repr

/-- GATOM (R97). -/
structure GAtomOp where
  d : BitVec 5
  a : BitVec 5
  b : BitVec 5
  ord : BitVec 2
  scope : BitVec 3
  size : Bool
  aop : BitVec 4
  adopt : Bool
  deriving DecidableEq, Repr

/-- CUBE.LDB (R302, R304). -/
structure LdbOp where
  d : BitVec 5
  a : BitVec 5
  b : BitVec 5
  plane : Bool
  size : Bool
  acq : Bool
  scope : BitVec 3
  bnd : BitVec 4
  deriving DecidableEq, Repr

/-- CUBE.SCALE (R302, R305). -/
structure ScaleOp where
  d : BitVec 5
  a : BitVec 5
  b : BitVec 5
  which : BitVec 2
  acq : Bool
  scope : BitVec 3
  bnd : BitVec 4
  deriving DecidableEq, Repr

/-- CUBE.WIN (R295, R302). -/
structure WinOp where
  a : BitVec 5
  en : Bool
  dil : Bool
  str : Bool
  kw : BitVec 3
  kh : BitVec 3
  deriving DecidableEq, Repr

/-- CUBE.MUL (R302, R306). -/
structure CubeMulOp where
  d : BitVec 5
  a : BitVec 5
  b : BitVec 5
  fin : BitVec 2
  rel : Bool
  scope : BitVec 3
  bnd : BitVec 4
  deriving DecidableEq, Repr

/-- Who made a write whose acknowledgements are counted (R233). -/
inductive Issuer where
  | gang (core slot gang : Nat)
  | thread (core slot : Nat)
  deriving DecidableEq, Repr

/-- The four acknowledgement classes (R233). -/
inductive AckClass where
  | core | die | package | system
  deriving DecidableEq, Repr

/-- The request kinds of the directory table (R198). -/
inductive DirKind where
  | read | write | atomic
  deriving DecidableEq, Repr

/-- What a DRAM or bus access met (R216, R218, R219). `pstuck n` is a parity error that `n` retries did not clear
(n from 1 to 3: retry n succeeded; 4: all four failed and the lane test found `lane`, or none). -/
inductive DramEvent where
  | ok
  | corrected
  | uncorrectable
  | retried (n : Nat)
  | allFailed (lane : Option Nat) (finalOk : Bool)
  | tableReload (shadowOk : Bool)
  deriving DecidableEq, Repr

/-- The flit kinds of R370. -/
inductive FlitKind where
  | data | launch | ack | dropNotice | tide | barrierArrival | barrierCompletion
  deriving DecidableEq, Repr

/-- A flit of the Svaxizu link (R370), without its CRC. `body` is bytes 16 to 207. -/
structure Flit where
  kind : FlitKind
  seq : BitVec 12
  src : BitVec 9
  dst : BitVec 9
  ctx : BitVec 12
  addr : BitVec 57
  count : BitVec 8
  body : List Byte
  stamps : List Stamp
  poison : BitVec 8
  /-- The piggybacked acknowledgement: every flit of the other direction up to this one has been received. -/
  ack : Option (BitVec 12) := none
  deriving DecidableEq, Repr

/-- A place that holds a stamp, for scrubbing (R27). -/
inductive StampPlace where
  | memory (sector : Nat)
  | scratch (core slot sector : Nat)
  | greg (core slot : Nat) (handler : Bool) (r : BitVec 5)
  | wreg (core slot gang : Nat) (r : BitVec 4)
  | vreg (core slot gang reg : Nat) (slice : BitVec 3)
  | spill (core slot gang frame : Nat) (slice : BitVec 3)
  | mailbox (core slot : Nat) (mb : BitVec 4)
  /-- A transient result in the window: the number of its instruction. -/
  | transient (core slot gang num : Nat) (slice : BitVec 3)
  /-- An open variable-latency result: its number and the place of the stamp in it. -/
  | result (core slot gang id place : Nat)
  /-- A scratchpad sector as engines may still read it (R236). -/
  | oldSector (core slot sector : Nat)
  | l1 (core line : Nat) (sector : BitVec 2)
  | obuf (cluster sector : Nat)
  | stratum (cluster sector : Nat)
  | scale (cluster sector : Nat)
  | bank (cluster : Nat) (bank : Bool)
  deriving DecidableEq, Repr

/-- The three ring consumers of the fault unit and its DONE ring (R215). -/
inductive RingName where
  | free64 | free2m | victim | done
  deriving DecidableEq, Repr

/-- The context counters (R317, R341, R346 to R348, R354). -/
inductive CtxCounter where
  | launchBad | launchDrop | aclDeny | evictGang | evictBlock | saveFull | wheelDiscard | doneFail
  | dbgDrop | dumpDrop | containUnwind | brkIgnored | bpHit
  deriving DecidableEq, Repr

/-- The registers of management space (R5, R374). -/
inductive MReg where
  | ready
  | fwstat
  | attgo
  | attdone
  | ctxroot (ctx : Nat)
  | ctxsave (ctx : Nat)
  | toffset (ctx : Nat)
  | tnow (ctx : Nat)
  | corecfg (core : Nat)
  | ctxctl (ctx : Nat)
  | tcfg (ctx : Nat)
  | abent (ctx n : Nat)
  | absticky (ctx : Nat)
  | abcount (ctx n : Nat)
  | prod (ctx n : Nat)
  | cubecfg (ctx : Nat)
  | wdcfg (ctx : Nat)
  | dumpcfg (ctx : Nat)
  | dbgring (ctx : Nat)
  | bp (ctx n : Nat)
  | dbgval (ctx : Nat)
  | dbgcmd (ctx : Nat)
  | lqd (ctx q : Nat)
  | lqw (ctx q dw : Nat)
  | lerr (ctx : Nat)
  | ctxCounter (ctx : Nat) (c : CtxCounter)
  | unitCounter (offset : Nat)
  | baseLog (die log n : Nat)
  | invva
  | invctl
  | fownset
  | ring (r : RingName)
  | acl (n : Nat)
  | pwrctl
  | attnonce
  | attaddr
  | lccfg (core : Nat)
  | lcrange (core n : Nat)
  | lccnt (core bin cls : Nat)
  | lcidle (core : Nat)
  /-- A doubleword of BAR 0 by its offset (R374). -/
  | bar (offset : Nat)
  deriving DecidableEq, Repr

/-- What management asks to reset (R367). -/
inductive ResetTarget where
  | package
  | isle (i : Nat)
  | base (d : Nat)
  deriving DecidableEq, Repr

/-- A firmware image of one unit as it is presented at bring-up (R368). -/
structure FwImage where
  code : List Byte
  digest : List Byte
  key : List Byte
  sig : List Byte
  deriving DecidableEq, Repr

/-- A timer of the watchdogs (R352): kinds 0 to 6 of R353 with their index and phase, and the progress timers. -/
inductive TimerKey where
  | regang (gang : Nat) (pc : BitVec 32)
  | block (b : Nat) (phase : Bool)
  | quad (b : Nat) (phase : Bool)
  | net (level b : Nat) (phase : Bool)
  | object (off : Nat)
  | gangProgress (gang : Nat)
  | threadProgress
  deriving DecidableEq, Repr

/-- Why a word is no instruction: each raises illegal-word (R66). -/
inductive Reject where
  | unassignedOpcode        -- its opcode is marked — in R59 to R64, or its func value is unassigned
  | reservedSubclass        -- class 11 with subclass 11 (R44)
  | zeroField               -- a field marked zero is not (R46, R141)
  | badExtension            -- an extension-word combination of R52, R268, R270, R310, R311
  | badOperand              -- an operand value the map calls illegal-word (R42, R62, R63, R64, R302)
  | wrongProcessor          -- a generator opcode on the wrong kind of processor (R65)
  deriving DecidableEq, Repr

/-- The encoded form of an instruction: a wide word with or without its trailing word (R50), a generator word, or
none (the steps of the other engines). -/
inductive Enc where
  | wide (w : Word) (trail : Option Word)
  | gen (w : Word)
  | event
  deriving DecidableEq, Repr

/-- The instructions and steps of the JX4-2304L, one constructor for each row of spec/opcode_table.json. -/
inductive Instr where
  -- wide, register format
  | iadd (o : RegOp) | isub (o : RegOp) | imul (o : RegOp) | imulh (o : RegOp) | imad (o : RegOp)
  | imin (o : RegOp) | imax (o : RegOp) | umin (o : RegOp) | umax (o : RegOp)
  | iand (o : RegOp) | ior (o : RegOp) | ixor (o : RegOp)
  | ishl (o : RegOp) | ishr (o : RegOp) | isar (o : RegOp)
  | fadd (o : RegOp) | fsub (o : RegOp) | fmul (o : RegOp) | ffma (o : RegOp) | fnma (o : RegOp)
  | fmin (o : RegOp) | fmax (o : RegOp)
  | frcp (o : UnOp) | frsq (o : UnOp) | fsqrt (o : UnOp) | fexp2 (o : UnOp) | flog2 (o : UnOp)
  | fcmpeq (o : CmpOp) | fcmplt (o : CmpOp) | fcmple (o : CmpOp)
  | fabs (o : UnOp)
  | hadd (o : RegOp) | hmul (o : RegOp) | hfma (o : RegOp) | hmax (o : RegOp)
  | badd (o : RegOp) | bmul (o : RegOp) | bfma (o : RegOp) | bmax (o : RegOp)
  | cvtfi (o : CvtOp) | cvtif (o : CvtOp) | cvtfh (o : CvtOp) | cvthf (o : CvtOp)
  | cvtfb (o : CvtOp) | cvtbf (o : CvtOp) | cvtf8 (o : CvtOp) | cvt8f (o : CvtOp)
  | vdot8 (o : DotOp)
  | lshfl (o : RegOp) | lxor (o : RegOp) | sel (o : RegOp)
  | kand (o : KOp) | kor (o : KOp) | kxor (o : KOp) | kandn (o : KOp)
  | icmpeq (o : CmpOp) | icmplt (o : CmpOp) | icmpltu (o : CmpOp) | icmpne (o : CmpOp)
  -- wide, immediate format
  | iaddImm (o : ImmOp) | imulImm (o : ImmOp) | iandImm (o : ImmOp) | iorImm (o : ImmOp) | ixorImm (o : ImmOp)
  | ishlImm (o : ImmOp) | ishrImm (o : ImmOp) | isarImm (o : ImmOp) | iminImm (o : ImmOp) | imaxImm (o : ImmOp)
  | icmpeqImm (o : ImmOp) | icmpltImm (o : ImmOp)
  | iaddKc (o : ImmOp) | imulKc (o : ImmOp) | faddKc (o : ImmOp) | fsubKc (o : ImmOp)
  | fmulKc (o : ImmOp) | ffmaKc (o : ImmOp) | fminKc (o : ImmOp) | fmaxKc (o : ImmOp)
  | faddAdopt (o : AdoptOp) | fsubAdopt (o : AdoptOp) | fmulAdopt (o : AdoptOp) | ffmaAdopt (o : AdoptOp)
  | fnmaAdopt (o : AdoptOp) | iaddAdopt (o : AdoptOp) | hfmaAdopt (o : AdoptOp) | bfmaAdopt (o : AdoptOp)
  -- wide, float format
  | faddf (o : FltOp) | fmovf (o : FltOp)
  -- wide, control subclass
  | nop (s c : Bool)
  | jmp (s c : Bool) (j : BitVec 21)
  | brAny (s c : Bool) (k : BitVec 3) (j : BitVec 18)
  | brAll (s c : Bool) (k : BitVec 3) (j : BitVec 18)
  | brUz (s c : Bool) (w : BitVec 4) (j : BitVec 17)
  | brUnz (s c : Bool) (w : BitVec 4) (j : BitVec 17)
  | regang (s c : Bool) (m : BitVec 8)
  | exit (s c : Bool)
  | pause (s c : Bool) (n : BitVec 12)
  | dmsave (s c : Bool) (k : BitVec 3)
  | dmset (s c : Bool) (k : BitVec 3)
  | dmand (s c : Bool) (k : BitVec 3)
  | dmandn (s c : Bool) (k : BitVec 3)
  | pmsave (s c : Bool) (k : BitVec 3)
  | pmset (s c : Bool) (k : BitVec 3)
  | pmand (s c : Bool) (k : BitVec 3)
  -- wide, memory subclass
  | ldx (o : MemOp) | stx (o : MemOp) | atom (o : MemOp) | ldw (o : MemOp)
  | pref (o : MemOp) | stflush (o : MemOp) | stunmap (o : MemOp)
  -- wide, engine and system subclass
  | ferryG2s (o : FerryOp) | ferryS2g (o : FerryOp) | ferryG2g (o : FerryOp)
  | ferryS2s (o : FerryOp) | ferryEgh (o : FerryOp) | ferryEgp (o : FerryOp)
  | tagwaitAny (s c : Bool) (w : BitVec 4)
  | tagwaitAll (s c : Bool) (w : BitVec 4)
  | tagfind (s c : Bool) (d w : BitVec 4)
  | tagclr (s c : Bool) (w : BitVec 4)
  | tagrd (s c : Bool) (x : Bool) (d : BitVec 4)
  | stget (s c : Bool) (d a : BitVec 7)
  | stset (s c : Bool) (d a : BitVec 7)
  | stnow (s c : Bool) (d : BitVec 7)
  | stage (s c : Bool) (d a : BitVec 7)
  | stageless (s c : Bool) (d : BitVec 7)
  | stold (s c : Bool) (d a : BitVec 7) (b : BitVec 6)
  | mbwr (s c : Bool) (m w : BitVec 4)
  | mbrd (s c : Bool) (m d : BitVec 4)
  | mbpeek (s c : Bool) (m d : BitVec 4)
  | bar (s c : Bool) (b : BitVec 4)
  | bara (s c : Bool) (b : BitVec 4)
  | barw (s c : Bool) (b : BitVec 4)
  | fill (s c : Bool) (n : BitVec 2)
  | drain (s c : Bool) (n : BitVec 2)
  | qbar (s c : Bool) (b : BitVec 4)
  | nbar (s c : Bool) (l : BitVec 2) (b : BitVec 4)
  | bowait (s c : Bool) (w : BitVec 4)
  | containOpen (s c : Bool) (j : BitVec 20)
  | containClose (s c : Bool)
  | step (s c : Bool) (n : BitVec 16)
  | trap (s c : Bool) (n : BitVec 16)
  | brk (s c : Bool) (n : BitVec 16)
  | srd (s c : Bool) (d : BitVec 7) (r : BitVec 6)
  | pushm (s c : Bool) (a b : BitVec 7)
  | popm (s c : Bool) (a b : BitVec 7)
  | fence (s c : Bool) (kind : BitVec 2) (scope : BitVec 3)
  | wmov (s c : Bool) (d : BitVec 4) (a : BitVec 7) (l : BitVec 5)
  | vbcast (s c : Bool) (d : BitVec 7) (h : Bool) (w : BitVec 4)
  | waddi (s c : Bool) (d w : BitVec 4) (i : BitVec 12)
  | feedRegisterForm (o : FeedRegOp)
  | feedMemoryForm (o : FeedMemOp)
  | drainCubeRegisterForm (o : DrainRegOp)
  | drainCubeMemoryForm (o : DrainMemOp)
  -- generator, arithmetic
  | add (o : GrOp) | sub (o : GrOp) | mul (o : GrOp) | mulhu (o : GrOp) | divu (o : GrOp) | remu (o : GrOp)
  | and (o : GrOp) | or (o : GrOp) | xor (o : GrOp) | shl (o : GrOp) | shr (o : GrOp) | sar (o : GrOp)
  | slt (o : GrOp) | sltu (o : GrOp)
  | jr (a : BitVec 5)
  | addi (o : GiOp) | andi (o : GiOp) | ori (o : GiOp) | xori (o : GiOp)
  | shli (d a : BitVec 5) (i : BitVec 6)
  | shri (d a : BitVec 5) (i : BitVec 6)
  | sari (d a : BitVec 5) (i : BitVec 6)
  | slti (o : GiOp)
  | lui (d : BitVec 5) (i : BitVec 16)
  | ldkc (o : GiOp)
  -- generator, memory
  | gld (o : GMemOp) | gst (o : GMemOp) | gatom (o : GAtomOp) | gldi (o : GiOp) | gsti (o : GiOp)
  | gfence (kind : BitVec 2) (scope : BitVec 3)
  -- generator, control flow
  | beq (o : GbOp) | bne (o : GbOp) | blt (o : GbOp) | bge (o : GbOp) | bltu (o : GbOp) | bgeu (o : GbOp)
  | j (j : BitVec 26)
  | jal (j : BitVec 26)
  -- generator, flume and gangs
  | emit (o : GrOp) (kind : BitVec 2)
  | emitb (d : BitVec 5) (i : BitVec 14)
  | emitp (d a : BitVec 5) (i : BitVec 14)
  | reclaim (a : BitVec 5) (i : BitVec 16)
  | gstart (a : BitVec 5) (m : BitVec 16)
  | gsteer (a : BitVec 5) (g : BitVec 4) (sl : BitVec 8)
  | gjoin (m : BitVec 16)
  | gmbwr (a : BitVec 5) (m : BitVec 4)
  | gmbrd (d : BitVec 5) (m : BitVec 4)
  | gmbpeek (d : BitVec 5) (m : BitVec 4)
  | gwset (a : BitVec 5) (g w : BitVec 4)
  | glaunch (a : BitVec 5) (q : BitVec 6)
  | glaunchPeer (d a : BitVec 5) (q : BitVec 6)
  -- generator, system
  | gstget (d a : BitVec 5)
  | gstset (d a : BitVec 5)
  | gsrd (d : BitVec 5) (r : BitVec 6)
  | gtrap (n : BitVec 16)
  | gdbgRdg (o : GrOp) | gdbgWrg (o : GrOp) | gdbgRdv (o : GrOp) | gdbgWrv (o : GrOp)
  | gdbgRdw (o : GrOp) | gdbgWrw (o : GrOp) | gdbgRds (o : GrOp) | gdbgWrs (o : GrOp)
  | gdbgRdx (o : GrOp) | gdbgPushm (o : GrOp) | gdbgPopm (o : GrOp) | gdbgRdf (o : GrOp) | gdbgDump (o : GrOp)
  | gpause (n : BitVec 12)
  -- cube
  | cubeShape (o : GrOp)
  | cubeMode (a : BitVec 5) (m : BitVec 13)
  | cubeLdb (o : LdbOp)
  | cubeScale (o : ScaleOp)
  | cubeWin (o : WinOp)
  | cubeMul (o : CubeMulOp)
  | cubeWait (a : BitVec 5)
  | cubeStat (d : BitVec 5)
  -- steps the machine's own agenda takes
  | illegalWord (w : Word)
  | variableLatencyResultReturn (core slot gang id : Nat)
  | handlerEntry (core slot : Nat)
  | preciseStop (core slot gang : Nat)
  | breakpointMatch (core slot gang : Nat) (group : BitVec 8)
  | pauseExpiry (core slot gang : Nat)
  | gpauseExpiry (core slot : Nat)
  | memorySetRecompute (core : Nat)
  | barrierWatchdog (core slot : Nat) (t : TimerKey)
  | progressWatchdog (core slot : Nat) (t : TimerKey)
  | ferryAdmission (core slot gang : Nat) (group : BitVec 8)
  | ferryCompletion (core id : Nat)
  | ferryStall (core id : Nat)
  | feedCompletion (core id : Nat)
  | drainCompletion (core id : Nat)
  | sequencerOperationStart (cluster : Nat)
  | cubeMulStep (cluster : Nat)
  | imageDrainCompletion (cluster : Nat)
  | cubeLoadCompletion (cluster : Nat)
  | blockDispatch (isle : Nat)
  | cubeNodeDispatch (isle : Nat)
  | blockEnd (core slot : Nat)
  | gangEviction (isle : Nat)
  | blockEviction (isle : Nat)
  | gangRestore (core : Nat)
  | blockRestore (isle : Nat)
  | cutComplete (ctx : Nat)
  -- steps of a core
  -- graph engine
  | stagingWindowAppend (ctx q : Nat) (v : DWord)
  | launchFlit (cape : Nat) (f : Flit)
  | create (ctx : Nat)
  | stop (ctx : Nat)
  | resume (ctx : Nat)
  | terminate (ctx : Nat)
  | release (ctx : Nat)
  | isleLost (isle : Nat)
  | isleReset (isle : Nat)
  -- tide
  | holdSet (ctx : Nat)
  | holdClear (ctx : Nat)
  | tideStep (ctx : Nat)
  | shiftWrite (ctx : Nat) (v : BitVec 5)
  | toffsetWrite (ctx : Nat) (v : DWord)
  | fownsetGo (v : DWord)
  | scrub (p : StampPlace)
  -- memory engine
  | shootdown (v : DWord)
  | pageMigration (ctx : Nat) (va : DWord)
  | directoryRequest (isle pa : Nat) (k : DirKind)
  | apertureWrite (off : Nat) (bytes : List Byte)
  | apertureRead (off n : Nat)
  | gatherPacket (isle base : Nat) (offs : List Nat) (evs : List DramEvent)
  | baseDieInitialisation (d : Nat)
  -- host, bring-up, power
  | functionReady (bit : Nat)
  | firmwareVerification (u : Nat) (img : FwImage)
  | managementResetRequest (t : ResetTarget)
  | clockStep (powerw : BitVec 14) (tjmax : BitVec 8)
  | corecfgWrite (core : Nat) (v : DWord)
  | ctxrootWrite (ctx : Nat) (save : Bool) (v : BitVec 128)
  -- debugger
  | halt (ctx : Nat) (v : DWord)
  | debugResume (ctx : Nat) (v : DWord)
  | debugStep (ctx : Nat) (v : DWord)
  | ghalt (ctx : Nat) (v : DWord)
  | gstep (ctx : Nat) (v : DWord)
  | gresume (ctx : Nat) (v : DWord)
  | readv (ctx : Nat) (v : DWord)
  | writev (ctx : Nat) (v : DWord)
  | dump (ctx : Nat) (v : DWord)
  -- Svaxizu link
  | dataFlit (cape : Nat) (f : Flit)
  | ack (cape : Nat) (seq : BitVec 12) (refused : Bool)
  | negativeAcknowledgement (cape : Nat) (seq : BitVec 12)
  | flitDrop (cape : Nat)
  | dropNotice (cape : Nat) (f : Flit)
  | tideFlit (cape : Nat) (f : Flit)
  | tideFlitSend (cape : Nat)
  | capeTraining (cape : Nat) (peer : BitVec 9) (delay : DWord) (heard : DWord)
  | barrierArrivalFlit (cape : Nat) (f : Flit)
  | barrierCompletionFlit (cape : Nat) (f : Flit)
  -- the rest
  | registerWrite (r : MReg) (v : BitVec 256)
  | writeAcknowledgement (who : Issuer) (n : Nat) (cls : AckClass)
  | badCrcOrSequenceGap (cape : Nat) (f : Flit)
  -- without operands
  | epad
  | seal
  | gend
  | greth
  | cubeZero
  | packetConsume
  | harbourEntry
  | successorCompletion
  | shootdownCompletion
  | powerUp
  | attgo
  deriving DecidableEq, Repr

end Sys2Proof
end

