-- ==== Sys2Proof/WellFormed.lean ====
section
/-! DEFINITION. What the decoder refuses beyond the choice of the opcode: field values that the manual calls
illegal-word (R42, R46, R52, R62 to R64, R141, R147, R187, R270, R302, R310, R311), and the plain well-formedness
of the syntax (a trailing literal stands exactly where vb is 127). -/

namespace Sys2Proof

/-- R50: the literal is 0 where there is no trailing word. -/
def RegOp.wf (o : RegOp) : Bool := o.b == 127 || o.lit == 0

def CmpOp.wf (o : CmpOp) : Bool := o.b == 127 || o.lit == 0

/-- R147: part index of CVTFI and CVTIF 00 or 01, format 0, saturation 0; also CVTHF and CVTBF. -/
def CvtOp.wfHalf (o : CvtOp) : Bool := !o.p.getLsbD 1 && !o.fmt && !o.sat

/-- R147: CVTFH and CVTFB use bit 0 of the part index and the saturation bit. -/
def CvtOp.wfHalfSat (o : CvtOp) : Bool := !o.p.getLsbD 1 && !o.fmt

/-- R147: CVT8F uses the part index and the format. -/
def CvtOp.wf8 (o : CvtOp) : Bool := !o.sat

/-- R42, R142: an immediate shift amount of 32 or more is illegal-word. -/
def ImmOp.wfShift (o : ImmOp) : Bool := o.i.toNat < 32

/-- R51: reserved sizes, atomic ops and stamp modes. -/
def MemOp.wfBase (o : MemOp) : Bool := o.size.toNat ≤ 4 && o.aop.toNat ≤ 10 && o.mode.toNat ≤ 2

/-- R52, LDX: ordering relaxed or acquire, atomic op 0, normal stamps. -/
def MemOp.wfLdx (o : MemOp) : Bool := o.wfBase && o.ord.toNat ≤ 1 && o.aop == 0 && o.mode == 0

/-- R52, STX: ordering relaxed or release, atomic op 0. -/
def MemOp.wfStx (o : MemOp) : Bool := o.wfBase && (o.ord == 0 || o.ord == 2) && o.aop == 0

/-- R52, ATOM: size 32 or 64 bits, FADD on 32 bits only. -/
def MemOp.wfAtom (o : MemOp) : Bool := o.wfBase && (o.size == 2 || (o.size == 3 && o.aop != 3))

/-- R52, R186, LDW: size 32 or 64 bits, voff 126. -/
def MemOp.wfLdw (o : MemOp) : Bool := o.wfLdx && (o.size == 2 || o.size == 3) && o.voff == 126

/-- R52, R187, PREF and its stash forms: vd 126, bnd 0, relaxed; `stash` tells which policies (R187). -/
def MemOp.wfPref (o : MemOp) (lo hi : Nat) : Bool :=
  o.wfBase && o.ord == 0 && o.aop == 0 && o.mode == 0 && o.d == 126 && o.bnd == 0 &&
    lo ≤ o.policy.toNat && o.policy.toNat ≤ hi

/-- R270: the selector values each kind accepts. -/
def FerryOp.wf (o : FerryOp) (kind : Nat) : Bool :=
  match kind with
  | 0 => o.ssel.toNat ≤ 13 && 14 ≤ o.dsel.toNat
  | 1 => 14 ≤ o.ssel.toNat && o.dsel.toNat ≤ 13
  | 2 => o.ssel.toNat ≤ 13 && o.dsel.toNat ≤ 13
  | 3 => 14 ≤ o.ssel.toNat && o.dsel.toNat ≤ 13
  | _ => o.dsel.toNat ≤ 13

/-- R310: ARR needs DW 1. -/
def FeedRegOp.wf (o : FeedRegOp) : Bool := !o.arr || o.dw

/-- R310: ordering relaxed or acquire, ARR needs DW 1. -/
def FeedMemOp.wf (o : FeedMemOp) : Bool := o.ord.toNat ≤ 1 && (!o.arr || o.dw)

/-- R311: ordering relaxed or release, FMT 000 to 100, ROW + NRM1 at most 127. -/
def DrainMemOp.wf (o : DrainMemOp) : Bool :=
  (o.ord == 0 || o.ord == 2) && o.fmt.toNat ≤ 4 && o.row.toNat + o.nrm1.toNat ≤ 127

/-- R96: GLD is relaxed or acquire. -/
def GMemOp.wfLd (o : GMemOp) : Bool := o.ord.toNat ≤ 1

/-- R96: GST is relaxed or release. -/
def GMemOp.wfSt (o : GMemOp) : Bool := o.ord == 0 || o.ord == 2

/-- R97: reserved atomic ops, and FADD with size 1. -/
def GAtomOp.wf (o : GAtomOp) : Bool := o.aop.toNat ≤ 10 && !(o.aop == 3 && o.size)

/-- R302: a scope that is not zero needs ACQ. -/
def LdbOp.wf (o : LdbOp) : Bool := o.acq || o.scope == 0

def ScaleOp.wf (o : ScaleOp) : Bool := (o.acq || o.scope == 0) && o.which != 3

/-- R295: KW and KH of 7 are illegal-word. -/
def WinOp.wf (o : WinOp) : Bool := o.kw != 7 && o.kh != 7

/-- R302, R306: END 11, REL outside .img, a scope without REL, and a gd field with END 00 are illegal-word. -/
def CubeMulOp.wf (o : CubeMulOp) : Bool :=
  o.fin != 3 && (!o.rel || o.fin == 2) && (o.rel || o.scope == 0) && (o.fin != 0 || o.d == 0)

/-- R288: format codes 11, and KR outside GKN. -/
def cubeModeWf (m : BitVec 13) : Bool :=
  m.extractLsb' 7 2 != 3 && m.extractLsb' 5 2 != 3 && m.extractLsb' 3 2 != 3 &&
    (!m.getLsbD 2 || m.extractLsb' 0 2 == 1)

/-- R118: the special registers of SRD. -/
def srdWf (r : BitVec 6) : Bool := r.toNat ≤ 0x0A || (0x0B ≤ r.toNat && r.toNat ≤ 0x0D)

/-- R103: the special registers of GSRD. -/
def gsrdWf (r : BitVec 6) : Bool := r.toNat ≤ 0x12

/-- The field values under which an instruction's encoding is an instruction. -/
def Instr.wf (i : Instr) : Bool :=
  match i with
  | .iadd o => o.wf
  | .isub o => o.wf
  | .imul o => o.wf
  | .imulh o => o.wf
  | .imad o => o.wf
  | .imin o => o.wf
  | .imax o => o.wf
  | .umin o => o.wf
  | .umax o => o.wf
  | .iand o => o.wf
  | .ior o => o.wf
  | .ixor o => o.wf
  | .ishl o => o.wf
  | .ishr o => o.wf
  | .isar o => o.wf
  | .fadd o => o.wf
  | .fsub o => o.wf
  | .fmul o => o.wf
  | .ffma o => o.wf
  | .fnma o => o.wf
  | .fmin o => o.wf
  | .fmax o => o.wf
  | .hadd o => o.wf
  | .hmul o => o.wf
  | .hfma o => o.wf
  | .hmax o => o.wf
  | .badd o => o.wf
  | .bmul o => o.wf
  | .bfma o => o.wf
  | .bmax o => o.wf
  | .lshfl o => o.wf
  | .lxor o => o.wf
  | .sel o => o.wf
  | .frcp _ => true
  | .frsq _ => true
  | .fsqrt _ => true
  | .fexp2 _ => true
  | .flog2 _ => true
  | .fabs _ => true
  | .fcmpeq o => o.wf
  | .fcmplt o => o.wf
  | .fcmple o => o.wf
  | .icmpeq o => o.wf
  | .icmplt o => o.wf
  | .icmpltu o => o.wf
  | .icmpne o => o.wf
  | .kand _ => true
  | .kor _ => true
  | .kxor _ => true
  | .kandn _ => true
  | .cvtfi o => o.wfHalf
  | .cvtif o => o.wfHalf
  | .cvtfh o => o.wfHalfSat
  | .cvthf o => o.wfHalf
  | .cvtfb o => o.wfHalfSat
  | .cvtbf o => o.wfHalf
  | .cvtf8 _ => true
  | .cvt8f o => o.wf8
  | .vdot8 _ => true
  | .iaddImm _ => true
  | .imulImm _ => true
  | .iandImm _ => true
  | .iorImm _ => true
  | .ixorImm _ => true
  | .iminImm _ => true
  | .imaxImm _ => true
  | .icmpeqImm _ => true
  | .icmpltImm _ => true
  | .iaddKc _ => true
  | .imulKc _ => true
  | .faddKc _ => true
  | .fsubKc _ => true
  | .fmulKc _ => true
  | .ffmaKc _ => true
  | .fminKc _ => true
  | .fmaxKc _ => true
  | .ishlImm o => o.wfShift
  | .ishrImm o => o.wfShift
  | .isarImm o => o.wfShift
  | .faddAdopt _ => true
  | .fsubAdopt _ => true
  | .fmulAdopt _ => true
  | .ffmaAdopt _ => true
  | .fnmaAdopt _ => true
  | .iaddAdopt _ => true
  | .hfmaAdopt _ => true
  | .bfmaAdopt _ => true
  | .faddf _ | .fmovf _ => true
  | .nop _ _ | .jmp _ _ _ | .brAny _ _ _ _ | .brAll _ _ _ _ | .brUz _ _ _ _ | .brUnz _ _ _ _ => true
  | .regang _ _ _ | .exit _ _ => true
  | .pause _ _ n => n != 0
  | .dmsave _ _ _ | .dmset _ _ _ | .dmand _ _ _ | .dmandn _ _ _ | .pmsave _ _ _ | .pmset _ _ _ | .pmand _ _ _ => true
  | .ldx o => o.wfLdx
  | .stx o => o.wfStx
  | .atom o => o.wfAtom
  | .ldw o => o.wfLdw
  | .pref o => o.wfPref 0 1
  | .stflush o => o.wfPref 2 2
  | .stunmap o => o.wfPref 3 3
  | .ferryG2s o => o.wf 0
  | .ferryS2g o => o.wf 1
  | .ferryG2g o => o.wf 2
  | .ferryS2s o => o.wf 3
  | .ferryEgh o => o.wf 4
  | .ferryEgp o => o.wf 5
  | .tagwaitAny _ _ _ | .tagwaitAll _ _ _ | .tagfind _ _ _ _ | .tagclr _ _ _ | .tagrd _ _ _ _ => true
  | .stget _ _ _ _ | .stset _ _ _ _ | .stnow _ _ _ | .stage _ _ _ _ | .stageless _ _ _ | .stold _ _ _ _ _ => true
  | .mbwr _ _ _ _ | .mbrd _ _ _ _ | .mbpeek _ _ _ _ => true
  | .bar _ _ _ | .bara _ _ _ | .barw _ _ _ | .fill _ _ _ | .drain _ _ _ | .qbar _ _ _ => true
  | .nbar _ _ l _ => l != 3
  | .bowait _ _ _ | .containOpen _ _ _ | .containClose _ _ | .step _ _ _ | .trap _ _ _ | .brk _ _ _ => true
  | .srd _ _ _ r => srdWf r
  | .pushm _ _ a b => a.toNat ≤ b.toNat
  | .popm _ _ a b => a.toNat ≤ b.toNat
  | .fence _ _ _ _ | .wmov _ _ _ _ _ | .vbcast _ _ _ _ _ | .waddi _ _ _ _ _ => true
  | .feedRegisterForm o => o.wf
  | .feedMemoryForm o => o.wf
  | .drainCubeRegisterForm _ => true
  | .drainCubeMemoryForm o => o.wf
  | .add _ => true
  | .sub _ => true
  | .mul _ => true
  | .mulhu _ => true
  | .divu _ => true
  | .remu _ => true
  | .and _ => true
  | .or _ => true
  | .xor _ => true
  | .shl _ => true
  | .shr _ => true
  | .sar _ => true
  | .slt _ => true
  | .sltu _ => true
  | .jr _ => true
  | .addi _ => true
  | .andi _ => true
  | .ori _ => true
  | .xori _ => true
  | .shli _ _ _ | .shri _ _ _ | .sari _ _ _ => true
  | .slti _ | .lui _ _ | .ldkc _ => true
  | .gld o => o.wfLd
  | .gst o => o.wfSt
  | .gatom o => o.wf
  | .gldi _ | .gsti _ => true
  | .gfence k _ => k != 1
  | .beq _ | .bne _ | .blt _ | .bge _ | .bltu _ | .bgeu _ | .j _ | .jal _ => true
  | .emit o k => k.getLsbD 1 || o.b == 0
  | .emitb _ _ | .emitp _ _ _ | .epad | .seal | .reclaim _ _ | .gstart _ _ | .gsteer _ _ _ | .gjoin _ | .gend => true
  | .gmbwr _ _ | .gmbrd _ _ | .gmbpeek _ _ | .gwset _ _ _ | .glaunch _ _ => true
  | .glaunchPeer d _ _ => d != 0
  | .gstget _ _ | .gstset _ _ => true
  | .gsrd _ r => gsrdWf r
  | .gtrap _ | .greth => true
  | .gdbgRdg _ | .gdbgWrg _ | .gdbgRdv _ | .gdbgWrv _ | .gdbgRdw _ | .gdbgWrw _ | .gdbgRds _ | .gdbgWrs _ => true
  | .gdbgRdx _ | .gdbgPushm _ | .gdbgPopm _ | .gdbgRdf _ | .gdbgDump _ => true
  | .gpause n => n != 0
  | .cubeShape _ => true
  | .cubeMode _ m => cubeModeWf m
  | .cubeLdb o => o.wf
  | .cubeScale o => o.wf
  | .cubeWin o => o.wf
  | .cubeMul o => o.wf
  | .cubeZero | .cubeWait _ | .cubeStat _ => true
  | .variableLatencyResultReturn _ _ _ _ => true
  | .handlerEntry _ _ => true
  | .preciseStop _ _ _ => true
  | .breakpointMatch _ _ _ _ => true
  | .pauseExpiry _ _ _ => true
  | .gpauseExpiry _ _ => true
  | .memorySetRecompute _ => true
  | .barrierWatchdog _ _ _ => true
  | .progressWatchdog _ _ _ => true
  | .ferryAdmission _ _ _ _ => true
  | .ferryCompletion _ _ => true
  | .ferryStall _ _ => true
  | .feedCompletion _ _ => true
  | .drainCompletion _ _ => true
  | .sequencerOperationStart _ => true
  | .cubeMulStep _ => true
  | .imageDrainCompletion _ => true
  | .stagingWindowAppend _ _ _ => true
  | .launchFlit _ _ => true
  | .packetConsume => true
  | .harbourEntry => true
  | .blockDispatch _ => true
  | .cubeNodeDispatch _ => true
  | .blockEnd _ _ => true
  | .successorCompletion => true
  | .gangEviction _ => true
  | .blockEviction _ => true
  | .gangRestore _ => true
  | .blockRestore _ => true
  | .create _ => true
  | .stop _ => true
  | .cutComplete _ => true
  | .resume _ => true
  | .terminate _ => true
  | .release _ => true
  | .isleLost _ => true
  | .isleReset _ => true
  | .holdSet _ => true
  | .holdClear _ => true
  | .tideStep _ => true
  | .shiftWrite _ _ => true
  | .toffsetWrite _ _ => true
  | .fownsetGo _ => true
  | .scrub _ => true
  | .shootdown _ => true
  | .shootdownCompletion => true
  | .pageMigration _ _ => true
  | .directoryRequest _ _ _ => true
  | .apertureWrite _ _ => true
  | .apertureRead _ _ => true
  | .gatherPacket _ _ _ _ => true
  | .baseDieInitialisation _ => true
  | .functionReady _ => true
  | .firmwareVerification _ _ => true
  | .attgo => true
  | .managementResetRequest _ => true
  | .clockStep _ _ => true
  | .corecfgWrite _ _ => true
  | .ctxrootWrite _ _ _ => true
  | .halt _ _ => true
  | .debugResume _ _ => true
  | .debugStep _ _ => true
  | .ghalt _ _ => true
  | .gstep _ _ => true
  | .gresume _ _ => true
  | .readv _ _ => true
  | .writev _ _ => true
  | .dump _ _ => true
  | .dataFlit _ _ => true
  | .ack _ _ _ => true
  | .negativeAcknowledgement _ _ => true
  | .flitDrop _ => true
  | .dropNotice _ _ => true
  | .tideFlit _ _ => true
  | .tideFlitSend _ => true
  | .capeTraining _ _ _ _ => true
  | .barrierArrivalFlit _ _ => true
  | .barrierCompletionFlit _ _ => true
  | .registerWrite _ _ => true
  | .writeAcknowledgement _ _ _ => true
  | .cubeLoadCompletion _ => true
  | .powerUp => true
  | .badCrcOrSequenceGap _ _ => true
  | .illegalWord _ => true

end Sys2Proof
end

