-- ==== Sys2Proof/Decode.lean ====
section
/-! DEFINITION. The decoder, total on any word, and after it the encoder, both from the encoding tables R40 to R64. -/

namespace Sys2Proof

/-- R40: the S mark. -/
def sBit (w : Word) : Bool := w.getLsbD 31

/-- R40: the C mark. -/
def cBit (w : Word) : Bool := w.getLsbD 30

/-- The opcode field of the register format (R41). -/
def regOpcode (w : Word) : BitVec 6 := w.extractLsb' 22 6

/-- The vb field of the register format (R41). -/
def vbField (w : Word) : BitVec 7 := w.extractLsb' 1 7

/-- R50: a register-format opcode whose vb field names the b operand, so that vb = 127 takes a trailing literal: the
assigned opcodes of R59 other than those marked u, c and k, and other than VDOT8. -/
def takesLiteral (op : BitVec 6) : Bool :=
  match op.toNat with
  | 1 | 2 | 3 | 4 | 5 | 6 | 7 | 8 | 9 | 10 | 11 | 12 | 13 | 14 | 15 | 16 | 17 | 18 | 19 | 20 | 21 | 22
  | 28 | 29 | 30 | 32 | 33 | 34 | 35 | 36 | 37 | 38 | 39 | 52 | 53 | 55 | 60 | 61 | 62 | 63 => true
  | _ => false

/-- R50: whether the word has a trailing word in the next slot. -/
def needsTrail (w : Word) : Bool :=
  match (w.extractLsb' 28 2).toNat with
  | 0 => takesLiteral (regOpcode w) && vbField w == 127
  | 3 =>
    match (w.extractLsb' 26 2).toNat with
    | 0 => true
    | 2 => match (w.extractLsb' 20 6).toNat with
      | 1 | 0x38 | 0x39 => true
      | _ => false
    | _ => false
  | _ => false

/-- The fields of a register-format word (R41); `t` is its trailing word. -/
def regFields (w t : Word) : RegOp :=
  { s := sBit w, c := cBit w, d := w.extractLsb' 15 7, a := w.extractLsb' 8 7, b := vbField w, t := w.getLsbD 0
    lit := if vbField w = 127 then t else 0 }

def unFields (w : Word) : UnOp :=
  { s := sBit w, c := cBit w, d := w.extractLsb' 15 7, a := w.extractLsb' 8 7, t := w.getLsbD 0 }

def cmpFields (w t : Word) : CmpOp :=
  { s := sBit w, c := cBit w, d := w.extractLsb' 15 7, a := w.extractLsb' 8 7, b := vbField w
    lit := if vbField w = 127 then t else 0 }

def kFields (w : Word) : KOp :=
  { s := sBit w, c := cBit w, d := w.extractLsb' 15 7, a := w.extractLsb' 8 7, b := vbField w }

def cvtFields (w : Word) : CvtOp :=
  { s := sBit w, c := cBit w, d := w.extractLsb' 15 7, a := w.extractLsb' 8 7, p := w.extractLsb' 1 2
    fmt := w.getLsbD 3, sat := w.getLsbD 4, t := w.getLsbD 0 }

def dotFields (w : Word) : DotOp :=
  { s := sBit w, c := cBit w, f := w.getLsbD 23, h := w.getLsbD 22, d := w.extractLsb' 15 7, a := w.extractLsb' 8 7
    b := vbField w, t := w.getLsbD 0 }

def immFields (w : Word) : ImmOp :=
  { s := sBit w, c := cBit w, d := w.extractLsb' 16 7, a := w.extractLsb' 9 7, i := w.extractLsb' 0 9 }

def adoptFields (w : Word) : AdoptOp :=
  { s := sBit w, c := cBit w, d := w.extractLsb' 16 7, a := w.extractLsb' 9 7, b := w.extractLsb' 0 7 }

def fltFields (w : Word) : FltOp :=
  { s := sBit w, c := cBit w, d := w.extractLsb' 20 7, i := w.extractLsb' 0 20 }

/-- The fields of a memory-subclass word and its extension word (R44, R51). -/
def memFields (w t : Word) : MemOp :=
  { s := sBit w, c := cBit w, d := w.extractLsb' 15 7, voff := w.extractLsb' 8 7, wsel := w.extractLsb' 4 4
    bnd := w.extractLsb' 0 4, ord := t.extractLsb' 30 2, scope := t.extractLsb' 27 3, size := t.extractLsb' 24 3
    aop := t.extractLsb' 20 4, policy := t.extractLsb' 18 2, mode := t.extractLsb' 16 2, off := t.extractLsb' 0 16 }

def ferryFields (w t : Word) : FerryOp :=
  { s := sBit w, c := cBit w, tag := w.extractLsb' 11 6, bnd := w.extractLsb' 7 4, ord := t.extractLsb' 30 2
    scope := t.extractLsb' 27 3, vdst := t.extractLsb' 20 7, vsrc := t.extractLsb' 13 7, dsel := t.extractLsb' 9 4
    ssel := t.extractLsb' 5 4 }

def feedRegFields (w t : Word) : FeedRegOp :=
  { s := sBit w, c := cBit w, va := w.extractLsb' 13 7, vo := w.extractLsb' 6 7, bnd := w.extractLsb' 0 4
    scope := t.extractLsb' 27 3, arr := t.getLsbD 7, dw := t.getLsbD 6 }

def feedMemFields (w t : Word) : FeedMemOp :=
  { s := sBit w, c := cBit w, va := w.extractLsb' 13 7, vo := w.extractLsb' 6 7, bnd := w.extractLsb' 0 4
    ord := t.extractLsb' 30 2, scope := t.extractLsb' 27 3, ssel := t.extractLsb' 23 4, len := t.extractLsb' 8 15
    arr := t.getLsbD 7, dw := t.getLsbD 6 }

def drainRegFields (w t : Word) : DrainRegOp :=
  { s := sBit w, c := cBit w, vd := w.extractLsb' 13 7, bnd := w.extractLsb' 0 4, scope := t.extractLsb' 27 3
    row := t.extractLsb' 20 7, seg := t.extractLsb' 6 2, arr := t.getLsbD 8 }

def drainMemFields (w t : Word) : DrainMemOp :=
  { s := sBit w, c := cBit w, vd := w.extractLsb' 13 7, dsel := w.extractLsb' 9 4, bnd := w.extractLsb' 0 4
    ord := t.extractLsb' 30 2, scope := t.extractLsb' 27 3, row := t.extractLsb' 20 7, nrm1 := t.extractLsb' 13 7
    fmt := t.extractLsb' 10 3, sat := t.getLsbD 9, arr := t.getLsbD 8 }

/-- Accept `i` if well formed, else refuse with the reason `r` (R46, R52, R66). -/
def accept (r : Reject) (i : Instr) : Except Reject Instr :=
  if i.wf then .ok i else .error r

/-- Class 00 (R59). -/
def decodeReg (w t : Word) : Except Reject Instr :=
  match (regOpcode w).toNat with
  | 1 => .ok (.iadd (regFields w t))
  | 2 => .ok (.isub (regFields w t))
  | 3 => .ok (.imul (regFields w t))
  | 4 => .ok (.imulh (regFields w t))
  | 5 => .ok (.imad (regFields w t))
  | 6 => .ok (.imin (regFields w t))
  | 7 => .ok (.imax (regFields w t))
  | 8 => .ok (.umin (regFields w t))
  | 9 => .ok (.umax (regFields w t))
  | 10 => .ok (.iand (regFields w t))
  | 11 => .ok (.ior (regFields w t))
  | 12 => .ok (.ixor (regFields w t))
  | 13 => .ok (.ishl (regFields w t))
  | 14 => .ok (.ishr (regFields w t))
  | 15 => .ok (.isar (regFields w t))
  | 16 => .ok (.fadd (regFields w t))
  | 17 => .ok (.fsub (regFields w t))
  | 18 => .ok (.fmul (regFields w t))
  | 19 => .ok (.ffma (regFields w t))
  | 20 => .ok (.fnma (regFields w t))
  | 21 => .ok (.fmin (regFields w t))
  | 22 => .ok (.fmax (regFields w t))
  | 23 => if vbField w = 0 then .ok (.frcp (unFields w)) else .error .zeroField
  | 24 => if vbField w = 0 then .ok (.frsq (unFields w)) else .error .zeroField
  | 25 => if vbField w = 0 then .ok (.fsqrt (unFields w)) else .error .zeroField
  | 26 => if vbField w = 0 then .ok (.fexp2 (unFields w)) else .error .zeroField
  | 27 => if vbField w = 0 then .ok (.flog2 (unFields w)) else .error .zeroField
  | 28 => if w.getLsbD 0 then .error .zeroField else .ok (.fcmpeq (cmpFields w t))
  | 29 => if w.getLsbD 0 then .error .zeroField else .ok (.fcmplt (cmpFields w t))
  | 30 => if w.getLsbD 0 then .error .zeroField else .ok (.fcmple (cmpFields w t))
  | 31 => if vbField w = 0 then .ok (.fabs (unFields w)) else .error .zeroField
  | 32 => .ok (.hadd (regFields w t))
  | 33 => .ok (.hmul (regFields w t))
  | 34 => .ok (.hfma (regFields w t))
  | 35 => .ok (.hmax (regFields w t))
  | 36 => .ok (.badd (regFields w t))
  | 37 => .ok (.bmul (regFields w t))
  | 38 => .ok (.bfma (regFields w t))
  | 39 => .ok (.bmax (regFields w t))
  | 40 => if w.extractLsb' 5 3 = 0 then accept .zeroField (.cvtfi (cvtFields w)) else .error .zeroField
  | 41 => if w.extractLsb' 5 3 = 0 then accept .zeroField (.cvtif (cvtFields w)) else .error .zeroField
  | 42 => if w.extractLsb' 5 3 = 0 then accept .zeroField (.cvtfh (cvtFields w)) else .error .zeroField
  | 43 => if w.extractLsb' 5 3 = 0 then accept .zeroField (.cvthf (cvtFields w)) else .error .zeroField
  | 44 => if w.extractLsb' 5 3 = 0 then accept .zeroField (.cvtfb (cvtFields w)) else .error .zeroField
  | 45 => if w.extractLsb' 5 3 = 0 then accept .zeroField (.cvtbf (cvtFields w)) else .error .zeroField
  | 46 => if w.extractLsb' 5 3 = 0 then accept .zeroField (.cvtf8 (cvtFields w)) else .error .zeroField
  | 47 => if w.extractLsb' 5 3 = 0 then accept .zeroField (.cvt8f (cvtFields w)) else .error .zeroField
  | 48 => .ok (.vdot8 (dotFields w))
  | 49 => .ok (.vdot8 (dotFields w))
  | 50 => .ok (.vdot8 (dotFields w))
  | 51 => .ok (.vdot8 (dotFields w))
  | 52 => .ok (.lshfl (regFields w t))
  | 53 => .ok (.lxor (regFields w t))
  | 55 => .ok (.sel (regFields w t))
  | 56 => if w.getLsbD 0 then .error .zeroField else .ok (.kand (kFields w))
  | 57 => if w.getLsbD 0 then .error .zeroField else .ok (.kor (kFields w))
  | 58 => if w.getLsbD 0 then .error .zeroField else .ok (.kxor (kFields w))
  | 59 => if w.getLsbD 0 then .error .zeroField else .ok (.kandn (kFields w))
  | 60 => if w.getLsbD 0 then .error .zeroField else .ok (.icmpeq (cmpFields w t))
  | 61 => if w.getLsbD 0 then .error .zeroField else .ok (.icmplt (cmpFields w t))
  | 62 => if w.getLsbD 0 then .error .zeroField else .ok (.icmpltu (cmpFields w t))
  | 63 => if w.getLsbD 0 then .error .zeroField else .ok (.icmpne (cmpFields w t))
  | _ => .error .unassignedOpcode

/-- Class 01 (R60). -/
def decodeImm (w : Word) : Except Reject Instr :=
  match (w.extractLsb' 23 5).toNat with
  | 1 => .ok (.iaddImm (immFields w))
  | 2 => .ok (.imulImm (immFields w))
  | 3 => .ok (.iandImm (immFields w))
  | 4 => .ok (.iorImm (immFields w))
  | 5 => .ok (.ixorImm (immFields w))
  | 6 => accept .badOperand (.ishlImm (immFields w))
  | 7 => accept .badOperand (.ishrImm (immFields w))
  | 8 => accept .badOperand (.isarImm (immFields w))
  | 9 => .ok (.iminImm (immFields w))
  | 10 => .ok (.imaxImm (immFields w))
  | 11 => .ok (.icmpeqImm (immFields w))
  | 12 => .ok (.icmpltImm (immFields w))
  | 16 => .ok (.iaddKc (immFields w))
  | 17 => .ok (.imulKc (immFields w))
  | 18 => .ok (.faddKc (immFields w))
  | 19 => .ok (.fsubKc (immFields w))
  | 20 => .ok (.fmulKc (immFields w))
  | 21 => .ok (.ffmaKc (immFields w))
  | 22 => .ok (.fminKc (immFields w))
  | 23 => .ok (.fmaxKc (immFields w))
  | 24 => if w.extractLsb' 7 2 = 0 then .ok (.faddAdopt (adoptFields w)) else .error .zeroField
  | 25 => if w.extractLsb' 7 2 = 0 then .ok (.fsubAdopt (adoptFields w)) else .error .zeroField
  | 26 => if w.extractLsb' 7 2 = 0 then .ok (.fmulAdopt (adoptFields w)) else .error .zeroField
  | 27 => if w.extractLsb' 7 2 = 0 then .ok (.ffmaAdopt (adoptFields w)) else .error .zeroField
  | 28 => if w.extractLsb' 7 2 = 0 then .ok (.fnmaAdopt (adoptFields w)) else .error .zeroField
  | 29 => if w.extractLsb' 7 2 = 0 then .ok (.iaddAdopt (adoptFields w)) else .error .zeroField
  | 30 => if w.extractLsb' 7 2 = 0 then .ok (.hfmaAdopt (adoptFields w)) else .error .zeroField
  | 31 => if w.extractLsb' 7 2 = 0 then .ok (.bfmaAdopt (adoptFields w)) else .error .zeroField
  | _ => .error .unassignedOpcode

/-- Class 10 (R43). -/
def decodeFlt (w : Word) : Except Reject Instr :=
  if w.getLsbD 27 then .ok (.fmovf (fltFields w)) else .ok (.faddf (fltFields w))

/-- Memory subclass (R61), with the combinations R52 and R187 refuse. -/
def decodeMem (w t : Word) : Except Reject Instr :=
  match (w.extractLsb' 22 4).toNat with
  | 1 => accept .badExtension (.ldx (memFields w t))
  | 2 => accept .badExtension (.stx (memFields w t))
  | 3 => accept .badExtension (.atom (memFields w t))
  | 4 => accept .badExtension (.ldw (memFields w t))
  | 5 =>
    match (memFields w t).policy.toNat with
    | 2 => accept .badExtension (.stflush (memFields w t))
    | 3 => accept .badExtension (.stunmap (memFields w t))
    | _ => accept .badExtension (.pref (memFields w t))
  | _ => .error .unassignedOpcode

/-- Control subclass (R62). Bits not named are zero. -/
def decodeCtl (w : Word) : Except Reject Instr :=
  let s := sBit w
  let c := cBit w
  let k : BitVec 3 := w.extractLsb' 18 3
  let only (b : Bool) (i : Instr) : Except Reject Instr := if b then .ok i else .error .zeroField
  match (w.extractLsb' 21 5).toNat with
  | 0x00 => only (w.extractLsb' 0 21 == 0) (.nop s c)
  | 0x02 => .ok (.jmp s c (w.extractLsb' 0 21))
  | 0x03 => .ok (.brAny s c k (w.extractLsb' 0 18))
  | 0x04 => .ok (.brAll s c k (w.extractLsb' 0 18))
  | 0x05 => .ok (.brUz s c (w.extractLsb' 17 4) (w.extractLsb' 0 17))
  | 0x06 => .ok (.brUnz s c (w.extractLsb' 17 4) (w.extractLsb' 0 17))
  | 0x07 => only (w.extractLsb' 8 13 == 0) (.regang s c (w.extractLsb' 0 8))
  | 0x08 => only (w.extractLsb' 0 21 == 0) (.exit s c)
  | 0x09 => if w.extractLsb' 12 9 = 0 then accept .badOperand (.pause s c (w.extractLsb' 0 12)) else .error .zeroField
  | 0x0A => only (w.extractLsb' 0 18 == 0) (.dmsave s c k)
  | 0x0B => only (w.extractLsb' 0 18 == 0) (.dmset s c k)
  | 0x0C => only (w.extractLsb' 0 18 == 0) (.dmand s c k)
  | 0x0D => only (w.extractLsb' 0 18 == 0) (.dmandn s c k)
  | 0x0E => only (w.extractLsb' 0 18 == 0) (.pmsave s c k)
  | 0x0F => only (w.extractLsb' 0 18 == 0) (.pmset s c k)
  | 0x10 => only (w.extractLsb' 0 18 == 0) (.pmand s c k)
  | _ => .error .unassignedOpcode

/-- FERRY by kind (R63, R266 to R270). -/
def decodeFerry (w t : Word) : Except Reject Instr :=
  let o := ferryFields w t
  if w.extractLsb' 0 7 ≠ 0 then .error .zeroField
  else if t.extractLsb' 0 5 ≠ 0 then .error .zeroField
  else match (w.extractLsb' 17 3).toNat with
    | 0 => accept .badExtension (.ferryG2s o)
    | 1 => accept .badExtension (.ferryS2g o)
    | 2 => accept .badExtension (.ferryG2g o)
    | 3 => accept .badExtension (.ferryS2s o)
    | 4 => accept .badExtension (.ferryEgh o)
    | 5 => accept .badExtension (.ferryEgp o)
    | _ => .error .badOperand

/-- FEED (R310). -/
def decodeFeed (w t : Word) : Except Reject Instr :=
  if w.getLsbD 4 then .error .zeroField
  else if t.extractLsb' 0 6 ≠ 0 then .error .zeroField
  else if w.getLsbD 5 then
    if t.extractLsb' 30 2 = 0 ∧ t.extractLsb' 23 4 = 0 ∧ t.extractLsb' 8 15 = 0 then
      accept .badExtension (.feedRegisterForm (feedRegFields w t))
    else .error .badExtension
  else
    accept .badExtension (.feedMemoryForm (feedMemFields w t))

/-- DRAIN, cube form (R311). -/
def decodeDrain (w t : Word) : Except Reject Instr :=
  if w.extractLsb' 4 4 ≠ 0 then .error .zeroField
  else if t.extractLsb' 0 6 ≠ 0 then .error .zeroField
  else if w.getLsbD 8 then
    if w.extractLsb' 9 4 = 0 ∧ t.extractLsb' 30 2 = 0 ∧ t.extractLsb' 13 7 = 0 ∧ t.extractLsb' 9 4 = 0 then
      .ok (.drainCubeRegisterForm (drainRegFields w t))
    else .error .badExtension
  else if t.extractLsb' 6 2 ≠ 0 then .error .badExtension
  else
    accept .badExtension (.drainCubeMemoryForm (drainMemFields w t))

/-- Engine and system subclass (R63). Fields not named are zero. -/
def decodeEng (w t : Word) : Except Reject Instr :=
  let s := sBit w
  let c := cBit w
  let lo4 : BitVec 4 := w.extractLsb' 0 4
  let m4 : BitVec 4 := w.extractLsb' 4 4
  let d7 : BitVec 7 := w.extractLsb' 13 7
  let a7 : BitVec 7 := w.extractLsb' 6 7
  let only (b : Bool) (i : Instr) : Except Reject Instr := if b then .ok i else .error .zeroField
  match (w.extractLsb' 20 6).toNat with
  | 0x01 => decodeFerry w t
  | 0x02 => only (w.extractLsb' 4 16 == 0) (.tagwaitAny s c lo4)
  | 0x03 => only (w.extractLsb' 4 16 == 0) (.tagwaitAll s c lo4)
  | 0x04 => only (w.extractLsb' 8 12 == 0) (.tagfind s c m4 lo4)
  | 0x05 => only (w.extractLsb' 4 16 == 0) (.tagclr s c lo4)
  | 0x06 => only (w.extractLsb' 9 11 == 0 && lo4 == 0) (.tagrd s c (w.getLsbD 8) m4)
  | 0x10 => only (w.extractLsb' 0 6 == 0) (.stget s c d7 a7)
  | 0x11 => only (w.extractLsb' 0 6 == 0) (.stset s c d7 a7)
  | 0x12 => only (w.extractLsb' 0 13 == 0) (.stnow s c d7)
  | 0x13 => only (w.extractLsb' 0 6 == 0) (.stage s c d7 a7)
  | 0x14 => only (w.extractLsb' 0 13 == 0) (.stageless s c d7)
  | 0x15 => .ok (.stold s c d7 a7 (w.extractLsb' 0 6))
  | 0x18 => only (w.extractLsb' 8 12 == 0) (.mbwr s c m4 lo4)
  | 0x19 => only (w.extractLsb' 8 12 == 0) (.mbrd s c m4 lo4)
  | 0x1A => only (w.extractLsb' 8 12 == 0) (.mbpeek s c m4 lo4)
  | 0x1C => only (w.extractLsb' 4 16 == 0) (.bar s c lo4)
  | 0x1D => only (w.extractLsb' 4 16 == 0) (.bara s c lo4)
  | 0x1E => only (w.extractLsb' 4 16 == 0) (.barw s c lo4)
  | 0x1F => only (w.extractLsb' 2 18 == 0) (.fill s c (w.extractLsb' 0 2))
  | 0x20 => only (w.extractLsb' 2 18 == 0) (.drain s c (w.extractLsb' 0 2))
  | 0x21 => only (w.extractLsb' 4 16 == 0) (.qbar s c lo4)
  | 0x22 =>
    if w.extractLsb' 8 12 = 0 ∧ w.extractLsb' 0 2 = 0 then
      accept .badOperand (.nbar s c (w.extractLsb' 6 2) (w.extractLsb' 2 4)) else .error .zeroField
  | 0x23 => only (w.extractLsb' 4 16 == 0) (.bowait s c lo4)
  | 0x24 => .ok (.containOpen s c (w.extractLsb' 0 20))
  | 0x25 => only (w.extractLsb' 0 20 == 0) (.containClose s c)
  | 0x26 => only (w.extractLsb' 16 4 == 0) (.step s c (w.extractLsb' 0 16))
  | 0x27 => only (w.extractLsb' 16 4 == 0) (.trap s c (w.extractLsb' 0 16))
  | 0x28 => only (w.extractLsb' 16 4 == 0) (.brk s c (w.extractLsb' 0 16))
  | 0x29 => if w.extractLsb' 6 7 = 0 then accept .badOperand (.srd s c d7 (w.extractLsb' 0 6)) else .error .zeroField
  | 0x30 => if w.extractLsb' 0 6 = 0 then accept .badOperand (.pushm s c d7 a7) else .error .zeroField
  | 0x31 => if w.extractLsb' 0 6 = 0 then accept .badOperand (.popm s c d7 a7) else .error .zeroField
  | 0x32 => only (w.extractLsb' 0 15 == 0) (.fence s c (w.extractLsb' 18 2) (w.extractLsb' 15 3))
  | 0x33 => only (w.extractLsb' 5 4 == 0) (.wmov s c (w.extractLsb' 16 4) (w.extractLsb' 9 7) (w.extractLsb' 0 5))
  | 0x34 => only (w.extractLsb' 5 8 == 0) (.vbcast s c d7 (w.getLsbD 4) lo4)
  | 0x35 => .ok (.waddi s c (w.extractLsb' 16 4) (w.extractLsb' 12 4) (w.extractLsb' 0 12))
  | 0x38 => decodeFeed w t
  | 0x39 => decodeDrain w t
  | _ => .error .unassignedOpcode

/-- A wide word and its trailing word (ignored where R50 gives it none). -/
def decodeWide (w t : Word) : Except Reject Instr :=
  match (w.extractLsb' 28 2).toNat with
  | 0 => decodeReg w t
  | 1 => decodeImm w
  | 2 => decodeFlt w
  | _ =>
    match (w.extractLsb' 26 2).toNat with
    | 0 => decodeMem w t
    | 1 => decodeCtl w
    | 2 => decodeEng w t
    | _ => .error .reservedSubclass

def grFields (w : Word) : GrOp := { d := w.extractLsb' 21 5, a := w.extractLsb' 16 5, b := w.extractLsb' 11 5 }
def giFields (w : Word) : GiOp := { d := w.extractLsb' 21 5, a := w.extractLsb' 16 5, i := w.extractLsb' 0 16 }
def gbFields (w : Word) : GbOp := { a := w.extractLsb' 21 5, b := w.extractLsb' 16 5, j := w.extractLsb' 0 16 }

def gmemFields (w : Word) : GMemOp :=
  { d := w.extractLsb' 21 5, a := w.extractLsb' 16 5, b := w.extractLsb' 11 5, ord := w.extractLsb' 9 2
    scope := w.extractLsb' 6 3, size := w.extractLsb' 4 2, bnd := w.extractLsb' 0 4 }

def gatomFields (w : Word) : GAtomOp :=
  { d := w.extractLsb' 21 5, a := w.extractLsb' 16 5, b := w.extractLsb' 11 5, ord := w.extractLsb' 9 2
    scope := w.extractLsb' 6 3, size := w.getLsbD 5, aop := w.extractLsb' 1 4, adopt := w.getLsbD 0 }

def ldbFields (w : Word) : LdbOp :=
  { d := w.extractLsb' 21 5, a := w.extractLsb' 16 5, b := w.extractLsb' 11 5, plane := w.getLsbD 10
    size := w.getLsbD 9, acq := w.getLsbD 7, scope := w.extractLsb' 4 3, bnd := w.extractLsb' 0 4 }

def scaleFields (w : Word) : ScaleOp :=
  { d := w.extractLsb' 21 5, a := w.extractLsb' 16 5, b := w.extractLsb' 11 5, which := w.extractLsb' 9 2
    acq := w.getLsbD 7, scope := w.extractLsb' 4 3, bnd := w.extractLsb' 0 4 }

def winFields (w : Word) : WinOp :=
  { a := w.extractLsb' 16 5, en := w.getLsbD 8, dil := w.getLsbD 7, str := w.getLsbD 6, kw := w.extractLsb' 3 3
    kh := w.extractLsb' 0 3 }

def cubeMulFields (w : Word) : CubeMulOp :=
  { d := w.extractLsb' 21 5, a := w.extractLsb' 16 5, b := w.extractLsb' 11 5, fin := w.extractLsb' 9 2
    rel := w.getLsbD 8, scope := w.extractLsb' 4 3, bnd := w.extractLsb' 0 4 }

/-- GR func values of opcode 0x00 (R64). -/
def decodeGrAlu (w : Word) : Except Reject Instr :=
  match (w.extractLsb' 0 11).toNat with
  | 1 => .ok (.add (grFields w))
  | 2 => .ok (.sub (grFields w))
  | 3 => .ok (.mul (grFields w))
  | 4 => .ok (.mulhu (grFields w))
  | 5 => .ok (.divu (grFields w))
  | 6 => .ok (.remu (grFields w))
  | 7 => .ok (.and (grFields w))
  | 8 => .ok (.or (grFields w))
  | 9 => .ok (.xor (grFields w))
  | 10 => .ok (.shl (grFields w))
  | 11 => .ok (.shr (grFields w))
  | 12 => .ok (.sar (grFields w))
  | 13 => .ok (.slt (grFields w))
  | 14 => .ok (.sltu (grFields w))
  | 15 => if w.extractLsb' 21 5 = 0 ∧ w.extractLsb' 11 5 = 0 then .ok (.jr (w.extractLsb' 16 5)) else .error .zeroField
  | _ => .error .unassignedOpcode

/-- GDBG subcodes (R350). -/
def decodeGdbg (w : Word) : Except Reject Instr :=
  match (w.extractLsb' 0 11).toNat with
  | 1 => .ok (.gdbgRdg (grFields w))
  | 2 => .ok (.gdbgWrg (grFields w))
  | 3 => .ok (.gdbgRdv (grFields w))
  | 4 => .ok (.gdbgWrv (grFields w))
  | 5 => .ok (.gdbgRdw (grFields w))
  | 6 => .ok (.gdbgWrw (grFields w))
  | 7 => .ok (.gdbgRds (grFields w))
  | 8 => .ok (.gdbgWrs (grFields w))
  | 9 => .ok (.gdbgRdx (grFields w))
  | 10 => .ok (.gdbgPushm (grFields w))
  | 11 => .ok (.gdbgPopm (grFields w))
  | 12 => .ok (.gdbgRdf (grFields w))
  | 13 => .ok (.gdbgDump (grFields w))
  | _ => .error .unassignedOpcode

/-- A generator word (R57, R64). `ctl` says that the processor is a control core (R65). -/
def decodeGen (ctl : Bool) (w : Word) : Except Reject Instr :=
  let gd : BitVec 5 := w.extractLsb' 21 5
  let ga : BitVec 5 := w.extractLsb' 16 5
  let i16 : BitVec 16 := w.extractLsb' 0 16
  let only (b : Bool) (i : Instr) : Except Reject Instr := if b then .ok i else .error .zeroField
  let simt (r : Except Reject Instr) : Except Reject Instr := if ctl then .error .wrongProcessor else r
  let cube (r : Except Reject Instr) : Except Reject Instr := if ctl then r else .error .wrongProcessor
  match (w.extractLsb' 26 6).toNat with
  | 0x00 => decodeGrAlu w
  | 0x01 => .ok (.addi (giFields w))
  | 0x02 => .ok (.andi (giFields w))
  | 0x03 => .ok (.ori (giFields w))
  | 0x04 => .ok (.xori (giFields w))
  | 0x05 => if w.extractLsb' 6 10 = 0 then .ok (.shli gd ga (w.extractLsb' 0 6)) else .error .badOperand
  | 0x06 => if w.extractLsb' 6 10 = 0 then .ok (.shri gd ga (w.extractLsb' 0 6)) else .error .badOperand
  | 0x07 => if w.extractLsb' 6 10 = 0 then .ok (.sari gd ga (w.extractLsb' 0 6)) else .error .badOperand
  | 0x08 => .ok (.slti (giFields w))
  | 0x09 => only (ga == 0) (.lui gd i16)
  | 0x0A => .ok (.ldkc (giFields w))
  | 0x10 => accept .badOperand (.gld (gmemFields w))
  | 0x11 => accept .badOperand (.gst (gmemFields w))
  | 0x12 => accept .badOperand (.gatom (gatomFields w))
  | 0x13 => .ok (.gldi (giFields w))
  | 0x14 => .ok (.gsti (giFields w))
  | 0x15 =>
    if w.extractLsb' 5 21 ≠ 0 then .error .zeroField
    else if (w.extractLsb' 3 2 = 2 ∧ ctl = false) then .error .wrongProcessor
    else accept .badOperand (.gfence (w.extractLsb' 3 2) (w.extractLsb' 0 3))
  | 0x18 => .ok (.beq (gbFields w))
  | 0x19 => .ok (.bne (gbFields w))
  | 0x1A => .ok (.blt (gbFields w))
  | 0x1B => .ok (.bge (gbFields w))
  | 0x1C => .ok (.bltu (gbFields w))
  | 0x1D => .ok (.bgeu (gbFields w))
  | 0x1E => .ok (.j (w.extractLsb' 0 26))
  | 0x1F => .ok (.jal (w.extractLsb' 0 26))
  | 0x20 => simt (if w.extractLsb' 2 9 = 0 then accept .zeroField (.emit (grFields w) (w.extractLsb' 0 2))
      else .error .zeroField)
  | 0x21 => simt (only (ga == 0 && w.extractLsb' 14 2 == 0) (.emitb gd (w.extractLsb' 0 14)))
  | 0x22 => simt (only (w.extractLsb' 14 2 == 0) (.emitp gd ga (w.extractLsb' 0 14)))
  | 0x23 => simt (only (w.extractLsb' 0 26 == 0) .epad)
  | 0x24 => simt (only (w.extractLsb' 0 26 == 0) .seal)
  | 0x25 => simt (only (gd == 0) (.reclaim ga i16))
  | 0x28 => simt (only (gd == 0) (.gstart ga i16))
  | 0x29 => simt (only (gd == 0 && w.extractLsb' 0 4 == 0) (.gsteer ga (w.extractLsb' 12 4) (w.extractLsb' 4 8)))
  | 0x2A => simt (only (w.extractLsb' 16 10 == 0) (.gjoin i16))
  | 0x2B => simt (only (w.extractLsb' 0 26 == 0) .gend)
  | 0x2C => simt (only (gd == 0 && w.extractLsb' 4 12 == 0) (.gmbwr ga (w.extractLsb' 0 4)))
  | 0x2D => simt (only (ga == 0 && w.extractLsb' 4 11 == 0)
      (if w.getLsbD 15 then .gmbpeek gd (w.extractLsb' 0 4) else .gmbrd gd (w.extractLsb' 0 4)))
  | 0x2E => simt (only (gd == 0 && w.extractLsb' 8 8 == 0) (.gwset ga (w.extractLsb' 4 4) (w.extractLsb' 0 4)))
  | 0x2F => only (w.extractLsb' 6 10 == 0)
      (if gd = 0 then .glaunch ga (w.extractLsb' 0 6) else .glaunchPeer gd ga (w.extractLsb' 0 6))
  | 0x30 => only (i16 == 0) (.gstget gd ga)
  | 0x31 => only (i16 == 0) (.gstset gd ga)
  | 0x32 => if ga = 0 ∧ w.extractLsb' 6 10 = 0 then accept .badOperand (.gsrd gd (w.extractLsb' 0 6)) else .error .zeroField
  | 0x33 => only (w.extractLsb' 16 10 == 0) (.gtrap i16)
  | 0x34 => only (w.extractLsb' 0 26 == 0) .greth
  | 0x35 => decodeGdbg w
  | 0x36 => if w.extractLsb' 12 14 = 0 then accept .badOperand (.gpause (w.extractLsb' 0 12)) else .error .zeroField
  | 0x38 => cube (only (w.extractLsb' 0 11 == 0) (.cubeShape (grFields w)))
  | 0x39 => cube (if gd = 0 ∧ w.extractLsb' 13 3 = 0 then accept .badOperand (.cubeMode ga (w.extractLsb' 0 13))
      else .error .zeroField)
  | 0x3A => cube (if w.getLsbD 8 then .error .zeroField else accept .badOperand (.cubeLdb (ldbFields w)))
  | 0x3B => cube (if w.getLsbD 8 then .error .zeroField else accept .badOperand (.cubeScale (scaleFields w)))
  | 0x3C => cube (if gd = 0 ∧ w.extractLsb' 9 7 = 0 then accept .badOperand (.cubeWin (winFields w)) else .error .zeroField)
  | 0x3D => cube (if w.getLsbD 7 then .error .zeroField else accept .badOperand (.cubeMul (cubeMulFields w)))
  | 0x3E => cube (
      match (w.extractLsb' 0 11).toNat with
      | 1 => only (w.extractLsb' 11 15 == 0) .cubeZero
      | 2 => only (gd == 0 && w.extractLsb' 11 5 == 0) (.cubeWait ga)
      | 3 => only (w.extractLsb' 11 10 == 0) (.cubeStat gd)
      | _ => .error .unassignedOpcode)
  | _ => .error .unassignedOpcode

/-- Register-format word (R41). -/
def encReg (op : BitVec 6) (s c : Bool) (d a b : BitVec 7) (t : Bool) : Word :=
  BitVec.ofBool s ++ BitVec.ofBool c ++ 0#2 ++ op ++ d ++ a ++ b ++ BitVec.ofBool t

/-- Immediate-format word (R42). -/
def encImm (op : BitVec 5) (s c : Bool) (d a : BitVec 7) (i : BitVec 9) : Word :=
  BitVec.ofBool s ++ BitVec.ofBool c ++ 1#2 ++ op ++ d ++ a ++ i

/-- Float-format word (R43). -/
def encFlt (f s c : Bool) (d : BitVec 7) (i : BitVec 20) : Word :=
  BitVec.ofBool s ++ BitVec.ofBool c ++ 2#2 ++ BitVec.ofBool f ++ d ++ i

/-- Memory-subclass word (R44). -/
def encMem (op : BitVec 4) (o : MemOp) : Word :=
  BitVec.ofBool o.s ++ BitVec.ofBool o.c ++ 12#4 ++ op ++ o.d ++ o.voff ++ o.wsel ++ o.bnd

/-- Extension word of the memory subclass (R51). -/
def encExt (o : MemOp) : Word :=
  o.ord ++ o.scope ++ o.size ++ o.aop ++ o.policy ++ o.mode ++ o.off

/-- Control-subclass word (R62). -/
def encCtl (op : BitVec 5) (s c : Bool) (f : BitVec 21) : Word :=
  BitVec.ofBool s ++ BitVec.ofBool c ++ 13#4 ++ op ++ f

/-- Engine/system word (R63). -/
def encEng (op : BitVec 6) (s c : Bool) (f : BitVec 20) : Word :=
  BitVec.ofBool s ++ BitVec.ofBool c ++ 14#4 ++ op ++ f

/-- FERRY word and extension word (R267, R268). -/
def encFerry (kind : BitVec 3) (o : FerryOp) : Enc :=
  .wide (encEng 1 o.s o.c (kind ++ o.tag ++ o.bnd ++ 0#7))
    (some (o.ord ++ o.scope ++ o.vdst ++ o.vsrc ++ o.dsel ++ o.ssel ++ 0#5))

/-- Generator word of layout GR (R57). -/
def encGr (op : BitVec 6) (d a b : BitVec 5) (f : BitVec 11) : Word := op ++ d ++ a ++ b ++ f

/-- Generator word of layout GI (R57). -/
def encGi (op : BitVec 6) (d a : BitVec 5) (i : BitVec 16) : Word := op ++ d ++ a ++ i

/-- Generator word of layout GB (R57). -/
def encGb (op : BitVec 6) (o : GbOp) : Word := op ++ o.a ++ o.b ++ o.j

/-- The trailing literal of a register-format word (R50). -/
def litOf (b : BitVec 7) (lit : Word) : Option Word := if b = 127 then some lit else none

def encRegOp (op : BitVec 6) (o : RegOp) : Enc := .wide (encReg op o.s o.c o.d o.a o.b o.t) (litOf o.b o.lit)
def encUnOp (op : BitVec 6) (o : UnOp) : Enc := .wide (encReg op o.s o.c o.d o.a 0 o.t) none
def encCmpOp (op : BitVec 6) (o : CmpOp) : Enc := .wide (encReg op o.s o.c o.d o.a o.b false) (litOf o.b o.lit)
def encKOp (op : BitVec 6) (o : KOp) : Enc := .wide (encReg op o.s o.c o.d o.a o.b false) none
def encCvtOp (op : BitVec 6) (o : CvtOp) : Enc :=
  .wide (encReg op o.s o.c o.d o.a (0#3 ++ BitVec.ofBool o.sat ++ BitVec.ofBool o.fmt ++ o.p) o.t) none
def encImmOp (op : BitVec 5) (o : ImmOp) : Enc := .wide (encImm op o.s o.c o.d o.a o.i) none
def encAdoptOp (op : BitVec 5) (o : AdoptOp) : Enc := .wide (encImm op o.s o.c o.d o.a (0#2 ++ o.b)) none
def encMemOp (op : BitVec 4) (o : MemOp) : Enc := .wide (encMem op o) (some (encExt o))
def encGmem (op : BitVec 6) (o : GMemOp) : Enc := .gen (encGr op o.d o.a o.b (o.ord ++ o.scope ++ o.size ++ o.bnd))

/-- The words of an instruction (R40 to R64); the other engines' steps have none. -/
def encode (i : Instr) : Enc :=
  match i with
  | .iadd o => encRegOp 1 o
  | .isub o => encRegOp 2 o
  | .imul o => encRegOp 3 o
  | .imulh o => encRegOp 4 o
  | .imad o => encRegOp 5 o
  | .imin o => encRegOp 6 o
  | .imax o => encRegOp 7 o
  | .umin o => encRegOp 8 o
  | .umax o => encRegOp 9 o
  | .iand o => encRegOp 10 o
  | .ior o => encRegOp 11 o
  | .ixor o => encRegOp 12 o
  | .ishl o => encRegOp 13 o
  | .ishr o => encRegOp 14 o
  | .isar o => encRegOp 15 o
  | .fadd o => encRegOp 16 o
  | .fsub o => encRegOp 17 o
  | .fmul o => encRegOp 18 o
  | .ffma o => encRegOp 19 o
  | .fnma o => encRegOp 20 o
  | .fmin o => encRegOp 21 o
  | .fmax o => encRegOp 22 o
  | .hadd o => encRegOp 32 o
  | .hmul o => encRegOp 33 o
  | .hfma o => encRegOp 34 o
  | .hmax o => encRegOp 35 o
  | .badd o => encRegOp 36 o
  | .bmul o => encRegOp 37 o
  | .bfma o => encRegOp 38 o
  | .bmax o => encRegOp 39 o
  | .lshfl o => encRegOp 52 o
  | .lxor o => encRegOp 53 o
  | .sel o => encRegOp 55 o
  | .frcp o => encUnOp 23 o
  | .frsq o => encUnOp 24 o
  | .fsqrt o => encUnOp 25 o
  | .fexp2 o => encUnOp 26 o
  | .flog2 o => encUnOp 27 o
  | .fabs o => encUnOp 31 o
  | .fcmpeq o => encCmpOp 28 o
  | .fcmplt o => encCmpOp 29 o
  | .fcmple o => encCmpOp 30 o
  | .icmpeq o => encCmpOp 60 o
  | .icmplt o => encCmpOp 61 o
  | .icmpltu o => encCmpOp 62 o
  | .icmpne o => encCmpOp 63 o
  | .kand o => encKOp 56 o
  | .kor o => encKOp 57 o
  | .kxor o => encKOp 58 o
  | .kandn o => encKOp 59 o
  | .cvtfi o => encCvtOp 40 o
  | .cvtif o => encCvtOp 41 o
  | .cvtfh o => encCvtOp 42 o
  | .cvthf o => encCvtOp 43 o
  | .cvtfb o => encCvtOp 44 o
  | .cvtbf o => encCvtOp 45 o
  | .cvtf8 o => encCvtOp 46 o
  | .cvt8f o => encCvtOp 47 o
  | .vdot8 o => .wide (encReg (12#4 ++ BitVec.ofBool o.f ++ BitVec.ofBool o.h) o.s o.c o.d o.a o.b o.t) none
  | .iaddImm o => encImmOp 1 o
  | .imulImm o => encImmOp 2 o
  | .iandImm o => encImmOp 3 o
  | .iorImm o => encImmOp 4 o
  | .ixorImm o => encImmOp 5 o
  | .iminImm o => encImmOp 9 o
  | .imaxImm o => encImmOp 10 o
  | .icmpeqImm o => encImmOp 11 o
  | .icmpltImm o => encImmOp 12 o
  | .iaddKc o => encImmOp 16 o
  | .imulKc o => encImmOp 17 o
  | .faddKc o => encImmOp 18 o
  | .fsubKc o => encImmOp 19 o
  | .fmulKc o => encImmOp 20 o
  | .ffmaKc o => encImmOp 21 o
  | .fminKc o => encImmOp 22 o
  | .fmaxKc o => encImmOp 23 o
  | .ishlImm o => encImmOp 6 o
  | .ishrImm o => encImmOp 7 o
  | .isarImm o => encImmOp 8 o
  | .faddAdopt o => encAdoptOp 24 o
  | .fsubAdopt o => encAdoptOp 25 o
  | .fmulAdopt o => encAdoptOp 26 o
  | .ffmaAdopt o => encAdoptOp 27 o
  | .fnmaAdopt o => encAdoptOp 28 o
  | .iaddAdopt o => encAdoptOp 29 o
  | .hfmaAdopt o => encAdoptOp 30 o
  | .bfmaAdopt o => encAdoptOp 31 o
  | .faddf o => .wide (encFlt false o.s o.c o.d o.i) none
  | .fmovf o => .wide (encFlt true o.s o.c o.d o.i) none
  | .nop s c => .wide (encCtl 0 s c 0) none
  | .jmp s c j => .wide (encCtl 2 s c j) none
  | .brAny s c k j => .wide (encCtl 3 s c (k ++ j)) none
  | .brAll s c k j => .wide (encCtl 4 s c (k ++ j)) none
  | .brUz s c w j => .wide (encCtl 5 s c (w ++ j)) none
  | .brUnz s c w j => .wide (encCtl 6 s c (w ++ j)) none
  | .regang s c m => .wide (encCtl 7 s c (0#13 ++ m)) none
  | .exit s c => .wide (encCtl 8 s c 0) none
  | .pause s c n => .wide (encCtl 9 s c (0#9 ++ n)) none
  | .dmsave s c k => .wide (encCtl 10 s c (k ++ 0#18)) none
  | .dmset s c k => .wide (encCtl 11 s c (k ++ 0#18)) none
  | .dmand s c k => .wide (encCtl 12 s c (k ++ 0#18)) none
  | .dmandn s c k => .wide (encCtl 13 s c (k ++ 0#18)) none
  | .pmsave s c k => .wide (encCtl 14 s c (k ++ 0#18)) none
  | .pmset s c k => .wide (encCtl 15 s c (k ++ 0#18)) none
  | .pmand s c k => .wide (encCtl 16 s c (k ++ 0#18)) none
  | .ldx o => encMemOp 1 o
  | .stx o => encMemOp 2 o
  | .atom o => encMemOp 3 o
  | .ldw o => encMemOp 4 o
  | .pref o => encMemOp 5 o
  | .stflush o => encMemOp 5 o
  | .stunmap o => encMemOp 5 o
  | .ferryG2s o => encFerry 0 o
  | .ferryS2g o => encFerry 1 o
  | .ferryG2g o => encFerry 2 o
  | .ferryS2s o => encFerry 3 o
  | .ferryEgh o => encFerry 4 o
  | .ferryEgp o => encFerry 5 o
  | .tagwaitAny s c w => .wide (encEng 0x02 s c (0#16 ++ w)) none
  | .tagwaitAll s c w => .wide (encEng 0x03 s c (0#16 ++ w)) none
  | .tagfind s c d w => .wide (encEng 0x04 s c (0#12 ++ d ++ w)) none
  | .tagclr s c w => .wide (encEng 0x05 s c (0#16 ++ w)) none
  | .tagrd s c x d => .wide (encEng 0x06 s c (0#11 ++ BitVec.ofBool x ++ d ++ 0#4)) none
  | .stget s c d a => .wide (encEng 0x10 s c (d ++ a ++ 0#6)) none
  | .stset s c d a => .wide (encEng 0x11 s c (d ++ a ++ 0#6)) none
  | .stnow s c d => .wide (encEng 0x12 s c (d ++ 0#13)) none
  | .stage s c d a => .wide (encEng 0x13 s c (d ++ a ++ 0#6)) none
  | .stageless s c d => .wide (encEng 0x14 s c (d ++ 0#13)) none
  | .stold s c d a b => .wide (encEng 0x15 s c (d ++ a ++ b)) none
  | .mbwr s c m w => .wide (encEng 0x18 s c (0#12 ++ m ++ w)) none
  | .mbrd s c m d => .wide (encEng 0x19 s c (0#12 ++ m ++ d)) none
  | .mbpeek s c m d => .wide (encEng 0x1A s c (0#12 ++ m ++ d)) none
  | .bar s c b => .wide (encEng 0x1C s c (0#16 ++ b)) none
  | .bara s c b => .wide (encEng 0x1D s c (0#16 ++ b)) none
  | .barw s c b => .wide (encEng 0x1E s c (0#16 ++ b)) none
  | .fill s c n => .wide (encEng 0x1F s c (0#18 ++ n)) none
  | .drain s c n => .wide (encEng 0x20 s c (0#18 ++ n)) none
  | .qbar s c b => .wide (encEng 0x21 s c (0#16 ++ b)) none
  | .nbar s c l b => .wide (encEng 0x22 s c (0#12 ++ l ++ b ++ 0#2)) none
  | .bowait s c w => .wide (encEng 0x23 s c (0#16 ++ w)) none
  | .containOpen s c j => .wide (encEng 0x24 s c j) none
  | .containClose s c => .wide (encEng 0x25 s c 0) none
  | .step s c n => .wide (encEng 0x26 s c (0#4 ++ n)) none
  | .trap s c n => .wide (encEng 0x27 s c (0#4 ++ n)) none
  | .brk s c n => .wide (encEng 0x28 s c (0#4 ++ n)) none
  | .srd s c d r => .wide (encEng 0x29 s c (d ++ 0#7 ++ r)) none
  | .pushm s c a b => .wide (encEng 0x30 s c (a ++ b ++ 0#6)) none
  | .popm s c a b => .wide (encEng 0x31 s c (a ++ b ++ 0#6)) none
  | .fence s c k p => .wide (encEng 0x32 s c (k ++ p ++ 0#15)) none
  | .wmov s c d a l => .wide (encEng 0x33 s c (d ++ a ++ 0#4 ++ l)) none
  | .vbcast s c d h w => .wide (encEng 0x34 s c (d ++ 0#8 ++ BitVec.ofBool h ++ w)) none
  | .waddi s c d w i => .wide (encEng 0x35 s c (d ++ w ++ i)) none
  | .feedRegisterForm o => .wide (encEng 0x38 o.s o.c (o.va ++ o.vo ++ 1#1 ++ 0#1 ++ o.bnd))
      (some (0#2 ++ o.scope ++ 0#4 ++ 0#15 ++ BitVec.ofBool o.arr ++ BitVec.ofBool o.dw ++ 0#6))
  | .feedMemoryForm o => .wide (encEng 0x38 o.s o.c (o.va ++ o.vo ++ 0#1 ++ 0#1 ++ o.bnd))
      (some (o.ord ++ o.scope ++ o.ssel ++ o.len ++ BitVec.ofBool o.arr ++ BitVec.ofBool o.dw ++ 0#6))
  | .drainCubeRegisterForm o => .wide (encEng 0x39 o.s o.c (o.vd ++ 0#4 ++ 1#1 ++ 0#4 ++ o.bnd))
      (some (0#2 ++ o.scope ++ o.row ++ 0#7 ++ 0#3 ++ 0#1 ++ BitVec.ofBool o.arr ++ o.seg ++ 0#6))
  | .drainCubeMemoryForm o => .wide (encEng 0x39 o.s o.c (o.vd ++ o.dsel ++ 0#1 ++ 0#4 ++ o.bnd))
      (some (o.ord ++ o.scope ++ o.row ++ o.nrm1 ++ o.fmt ++ BitVec.ofBool o.sat ++ BitVec.ofBool o.arr ++ 0#2 ++ 0#6))
  | .add o => .gen (encGr 0 o.d o.a o.b 1)
  | .sub o => .gen (encGr 0 o.d o.a o.b 2)
  | .mul o => .gen (encGr 0 o.d o.a o.b 3)
  | .mulhu o => .gen (encGr 0 o.d o.a o.b 4)
  | .divu o => .gen (encGr 0 o.d o.a o.b 5)
  | .remu o => .gen (encGr 0 o.d o.a o.b 6)
  | .and o => .gen (encGr 0 o.d o.a o.b 7)
  | .or o => .gen (encGr 0 o.d o.a o.b 8)
  | .xor o => .gen (encGr 0 o.d o.a o.b 9)
  | .shl o => .gen (encGr 0 o.d o.a o.b 10)
  | .shr o => .gen (encGr 0 o.d o.a o.b 11)
  | .sar o => .gen (encGr 0 o.d o.a o.b 12)
  | .slt o => .gen (encGr 0 o.d o.a o.b 13)
  | .sltu o => .gen (encGr 0 o.d o.a o.b 14)
  | .jr a => .gen (encGr 0 0 a 0 15)
  | .addi o => .gen (encGi 0x01 o.d o.a o.i)
  | .andi o => .gen (encGi 0x02 o.d o.a o.i)
  | .ori o => .gen (encGi 0x03 o.d o.a o.i)
  | .xori o => .gen (encGi 0x04 o.d o.a o.i)
  | .shli d a i => .gen (encGi 0x05 d a (0#10 ++ i))
  | .shri d a i => .gen (encGi 0x06 d a (0#10 ++ i))
  | .sari d a i => .gen (encGi 0x07 d a (0#10 ++ i))
  | .slti o => .gen (encGi 0x08 o.d o.a o.i)
  | .lui d i => .gen (encGi 0x09 d 0 i)
  | .ldkc o => .gen (encGi 0x0A o.d o.a o.i)
  | .gld o => encGmem 0x10 o
  | .gst o => encGmem 0x11 o
  | .gatom o => .gen (encGr 0x12 o.d o.a o.b
      (o.ord ++ o.scope ++ BitVec.ofBool o.size ++ o.aop ++ BitVec.ofBool o.adopt))
  | .gldi o => .gen (encGi 0x13 o.d o.a o.i)
  | .gsti o => .gen (encGi 0x14 o.d o.a o.i)
  | .gfence k p => .gen (encGi 0x15 0 0 (0#11 ++ k ++ p))
  | .beq o => .gen (encGb 0x18 o)
  | .bne o => .gen (encGb 0x19 o)
  | .blt o => .gen (encGb 0x1A o)
  | .bge o => .gen (encGb 0x1B o)
  | .bltu o => .gen (encGb 0x1C o)
  | .bgeu o => .gen (encGb 0x1D o)
  | .j d => .gen (0x1E#6 ++ d)
  | .jal d => .gen (0x1F#6 ++ d)
  | .emit o k => .gen (encGr 0x20 o.d o.a o.b (0#9 ++ k))
  | .emitb d i => .gen (encGi 0x21 d 0 (0#2 ++ i))
  | .emitp d a i => .gen (encGi 0x22 d a (0#2 ++ i))
  | .epad => .gen (encGi 0x23 0 0 0)
  | .seal => .gen (encGi 0x24 0 0 0)
  | .reclaim a i => .gen (encGi 0x25 0 a i)
  | .gstart a m => .gen (encGi 0x28 0 a m)
  | .gsteer a g sl => .gen (encGi 0x29 0 a (g ++ sl ++ 0#4))
  | .gjoin m => .gen (encGi 0x2A 0 0 m)
  | .gend => .gen (encGi 0x2B 0 0 0)
  | .gmbwr a m => .gen (encGi 0x2C 0 a (0#12 ++ m))
  | .gmbrd d m => .gen (encGi 0x2D d 0 (0#12 ++ m))
  | .gmbpeek d m => .gen (encGi 0x2D d 0 (1#1 ++ 0#11 ++ m))
  | .gwset a g w => .gen (encGi 0x2E 0 a (0#8 ++ g ++ w))
  | .glaunch a q => .gen (encGi 0x2F 0 a (0#10 ++ q))
  | .glaunchPeer d a q => .gen (encGi 0x2F d a (0#10 ++ q))
  | .gstget d a => .gen (encGi 0x30 d a 0)
  | .gstset d a => .gen (encGi 0x31 d a 0)
  | .gsrd d r => .gen (encGi 0x32 d 0 (0#10 ++ r))
  | .gtrap n => .gen (encGi 0x33 0 0 n)
  | .greth => .gen (encGi 0x34 0 0 0)
  | .gdbgRdg o => .gen (encGr 0x35 o.d o.a o.b 1)
  | .gdbgWrg o => .gen (encGr 0x35 o.d o.a o.b 2)
  | .gdbgRdv o => .gen (encGr 0x35 o.d o.a o.b 3)
  | .gdbgWrv o => .gen (encGr 0x35 o.d o.a o.b 4)
  | .gdbgRdw o => .gen (encGr 0x35 o.d o.a o.b 5)
  | .gdbgWrw o => .gen (encGr 0x35 o.d o.a o.b 6)
  | .gdbgRds o => .gen (encGr 0x35 o.d o.a o.b 7)
  | .gdbgWrs o => .gen (encGr 0x35 o.d o.a o.b 8)
  | .gdbgRdx o => .gen (encGr 0x35 o.d o.a o.b 9)
  | .gdbgPushm o => .gen (encGr 0x35 o.d o.a o.b 10)
  | .gdbgPopm o => .gen (encGr 0x35 o.d o.a o.b 11)
  | .gdbgRdf o => .gen (encGr 0x35 o.d o.a o.b 12)
  | .gdbgDump o => .gen (encGr 0x35 o.d o.a o.b 13)
  | .gpause n => .gen (encGi 0x36 0 0 (0#4 ++ n))
  | .cubeShape o => .gen (encGr 0x38 o.d o.a o.b 0)
  | .cubeMode a m => .gen (encGi 0x39 0 a (0#3 ++ m))
  | .cubeLdb o => .gen (encGr 0x3A o.d o.a o.b
      (BitVec.ofBool o.plane ++ BitVec.ofBool o.size ++ 0#1 ++ BitVec.ofBool o.acq ++ o.scope ++ o.bnd))
  | .cubeScale o => .gen (encGr 0x3B o.d o.a o.b (o.which ++ 0#1 ++ BitVec.ofBool o.acq ++ o.scope ++ o.bnd))
  | .cubeWin o => .gen (encGi 0x3C 0 o.a
      (0#7 ++ BitVec.ofBool o.en ++ BitVec.ofBool o.dil ++ BitVec.ofBool o.str ++ o.kw ++ o.kh))
  | .cubeMul o => .gen (encGr 0x3D o.d o.a o.b (o.fin ++ BitVec.ofBool o.rel ++ 0#1 ++ o.scope ++ o.bnd))
  | .cubeZero => .gen (encGr 0x3E 0 0 0 1)
  | .cubeWait a => .gen (encGr 0x3E 0 a 0 2)
  | .cubeStat d => .gen (encGr 0x3E d 0 0 3)
  | .variableLatencyResultReturn _ _ _ _ => .event
  | .handlerEntry _ _ => .event
  | .preciseStop _ _ _ => .event
  | .breakpointMatch _ _ _ _ => .event
  | .pauseExpiry _ _ _ => .event
  | .gpauseExpiry _ _ => .event
  | .memorySetRecompute _ => .event
  | .barrierWatchdog _ _ _ => .event
  | .progressWatchdog _ _ _ => .event
  | .ferryAdmission _ _ _ _ => .event
  | .ferryCompletion _ _ => .event
  | .ferryStall _ _ => .event
  | .feedCompletion _ _ => .event
  | .drainCompletion _ _ => .event
  | .sequencerOperationStart _ => .event
  | .cubeMulStep _ => .event
  | .imageDrainCompletion _ => .event
  | .stagingWindowAppend _ _ _ => .event
  | .launchFlit _ _ => .event
  | .packetConsume => .event
  | .harbourEntry => .event
  | .blockDispatch _ => .event
  | .cubeNodeDispatch _ => .event
  | .blockEnd _ _ => .event
  | .successorCompletion => .event
  | .gangEviction _ => .event
  | .blockEviction _ => .event
  | .gangRestore _ => .event
  | .blockRestore _ => .event
  | .create _ => .event
  | .stop _ => .event
  | .cutComplete _ => .event
  | .resume _ => .event
  | .terminate _ => .event
  | .release _ => .event
  | .isleLost _ => .event
  | .isleReset _ => .event
  | .holdSet _ => .event
  | .holdClear _ => .event
  | .tideStep _ => .event
  | .shiftWrite _ _ => .event
  | .toffsetWrite _ _ => .event
  | .fownsetGo _ => .event
  | .scrub _ => .event
  | .shootdown _ => .event
  | .shootdownCompletion => .event
  | .pageMigration _ _ => .event
  | .directoryRequest _ _ _ => .event
  | .apertureWrite _ _ => .event
  | .apertureRead _ _ => .event
  | .gatherPacket _ _ _ _ => .event
  | .baseDieInitialisation _ => .event
  | .functionReady _ => .event
  | .firmwareVerification _ _ => .event
  | .attgo => .event
  | .managementResetRequest _ => .event
  | .clockStep _ _ => .event
  | .corecfgWrite _ _ => .event
  | .ctxrootWrite _ _ _ => .event
  | .halt _ _ => .event
  | .debugResume _ _ => .event
  | .debugStep _ _ => .event
  | .ghalt _ _ => .event
  | .gstep _ _ => .event
  | .gresume _ _ => .event
  | .readv _ _ => .event
  | .writev _ _ => .event
  | .dump _ _ => .event
  | .dataFlit _ _ => .event
  | .ack _ _ _ => .event
  | .negativeAcknowledgement _ _ => .event
  | .flitDrop _ => .event
  | .dropNotice _ _ => .event
  | .tideFlit _ _ => .event
  | .tideFlitSend _ => .event
  | .capeTraining _ _ _ _ => .event
  | .barrierArrivalFlit _ _ => .event
  | .barrierCompletionFlit _ _ => .event
  | .registerWrite _ _ => .event
  | .writeAcknowledgement _ _ _ => .event
  | .cubeLoadCompletion _ => .event
  | .powerUp => .event
  | .badCrcOrSequenceGap _ _ => .event
  | .illegalWord _ => .event

/-- Whether the bits of an instruction, numbered as spec/opcode_table.json numbers them, are read as a wide word before
a generator word. The table numbers both families alike and a word may encode an instruction of each; which it is
depends on the engine that fetches it. DESIGN CHOICE, log 4: a word with the S or C bit set is read as a generator
word first, any other as a wide word first. -/
def wideFirst (w : Word) : Bool := !(sBit w || cBit w)

/-- The wide reading of an instruction of `w` (its first word in bits 31:0, a trailing word in bits 63:32). -/
def wideReading (w : Nat) : Option Instr :=
  match decodeWide (BitVec.ofNat 32 w) (BitVec.ofNat 32 (w / 4294967296)) with
  | .ok i => some i
  | .error _ => none

/-- The generator reading of an instruction of `w`, on a control core for the cube family (R65). -/
def genReading (w : Nat) : Option Instr :=
  match decodeGen false (BitVec.ofNat 32 w) with
  | .ok i => some i
  | .error .wrongProcessor =>
    match decodeGen true (BitVec.ofNat 32 w) with
    | .ok i => some i
    | .error _ => none
  | .error _ => none

/-- The instruction the decoder reads from bits `w`, numbered as the table numbers them; bits above `nbits` are 0. -/
def decodeTableWord (nbits w : Nat) : Option Instr :=
  let v := w % 2 ^ nbits
  if wideFirst (BitVec.ofNat 32 v) then
    match wideReading v with
    | some i => some i
    | none => genReading v
  else
    match genReading v with
    | some i => some i
    | none => wideReading v

end Sys2Proof
end

