-- ==== Sys2Proof/Machine/State.lean ====
section
/-! DEFINITION. The state of the package as plain data, and its value right after reset. -/

namespace Sys2Proof.Machine

/-- Reasons a step stops with a fault. -/
inductive Fault where
  /-- Raised by a meaning when `State.cur` names no agent that could have fetched the instruction (a gang's word without
  a running issue group, a generator word without a thread). No step raises it: the step names the agent first. Safe. -/
  | noAgent
  deriving DecidableEq, Repr

/-- Reasons a step has no meaning. -/
inductive Refusal where
  /-- Raised by the dispatcher for an instruction whose meaning is not written. Safe. -/
  | notModelled (mnemonic : String)
  deriving DecidableEq, Repr

/-- Bytes with a stamp and a poison bit for each 32-byte sector (R22, R193): device memory, a scratchpad, a store of the
cube. `bytes` lists the addresses that do not read 0, rising (R164, R203, R284); an unlisted sector is ANCIENT. -/
structure Store where
  bytes : List (Nat × BitVec 8)
  stamps : Tbl Stamp
  poison : Tbl Unit
  deriving DecidableEq, Repr

/-- A store as power-up and dispatch leave it (R22, R164, R203, R284). -/
def Store.empty : Store := ⟨[], [], []⟩

/-- What executes the instruction in hand. -/
inductive Agent where
  | none
  | gen (core slot : Nat)
  | wide (core slot gang : Nat) (mask : BitVec 8)
  deriving DecidableEq, Repr

/-- The steps of the machine's own units that its agenda takes, each named after its row of Instr (log 1). -/
inductive Job where
  | variableLatencyResultReturn (core slot gang id : Nat)
  | handlerEntry (core slot : Nat)
  | preciseStop (core slot gang : Nat)
  | breakpointMatch (core slot gang : Nat) (group : BitVec 8)
  | pauseExpiry (core slot gang : Nat)
  | gpauseExpiry (core slot : Nat)
  | memorySetRecompute (core : Nat)
  | barrierWatchdog (core slot : Nat) (t : TimerKey)
  | progressWatchdog (core slot : Nat) (t : TimerKey)
  | ferryAdmission (core slot gang : Nat) (group : BitVec 8)
  | ferryCompletion (core id : Nat)
  | ferryStall (core id : Nat)
  | feedCompletion (core id : Nat)
  | drainCompletion (core id : Nat)
  | sequencerOperationStart (cluster : Nat)
  | cubeLoadCompletion (cluster : Nat)
  | cubeMulStep (cluster : Nat)
  | imageDrainCompletion (cluster : Nat)
  | packetConsume
  | harbourEntry
  | blockDispatch (isle : Nat)
  | cubeNodeDispatch (isle : Nat)
  | blockEnd (core slot : Nat)
  | successorCompletion
  | gangEviction (isle : Nat)
  | blockEviction (isle : Nat)
  | gangRestore (core : Nat)
  | blockRestore (isle : Nat)
  | cutComplete (ctx : Nat)
  | pageMigration (ctx : Nat) (va : DWord)
  | shootdownCompletion
  | tideFlitSend (cape : Nat)
  | writeAcknowledgement (who : Issuer) (n : Nat) (cls : AckClass)
  deriving DecidableEq, Repr

/-- The model's agenda: which agent moves next (log 1). -/
inductive Turn where
  | gen (core : Nat)
  | wide (core : Nat)
  | event (i : Instr)
  | job (j : Job)
  | cycle
  | tick
  /-- R369: the attestation report in progress is written. -/
  | report
  | l1Drop (core line : Nat)
  /-- R339: a checker mismatch in a generator, wide pipe, register file or cube cell (units 1 to 4). -/
  | mismatch (core slot : Nat) (gang : Option (Nat × BitVec 8)) (unit : Nat)
  /-- R339: a corrected register error. -/
  | regCorr (core : Nat)
  /-- R221: an SRAM error of an isle cache or of the lagoon (none) in a sector of device memory. -/
  | sram (isle : Option Nat) (sector : Nat) (dirty : Bool) (corrected : Bool)
  deriving DecidableEq, Repr

/-- Launch of a gang, mailbox queues: who waits (R91). -/
inductive Waiter where
  | thread
  | group (gang : Nat) (mask : BitVec 8)
  | read (gang id : Nat)
  deriving DecidableEq, Repr

/-- A fault record, doublewords CAUSE, LOC, ADDR, PC, SITE, PROV, NODE, WHERE (R337). -/
structure Record where
  cause : DWord
  loc : DWord
  addr : DWord
  pc : DWord
  site : DWord
  prov : DWord
  node : DWord
  place : DWord
  deriving DecidableEq, Repr

/-- The all-zero record. -/
def Record.zero : Record := ⟨0, 0, 0, 0, 0, 0, 0, 0⟩

/-- A slot of the flume (R54). -/
structure Slot where
  word : Word
  kind : BitVec 2
  spord : BitVec 16
  gthread : BitVec 4
  eord : Word
  gpclo : Word
  deriving DecidableEq, Repr

/-- A slot that has not been written since dispatch (R54). -/
def Slot.zero : Slot := ⟨0, 0, 0, 0, 0, 0⟩

/-- A mailbox (R90, R91). -/
structure Mailbox where
  v : SVal
  full : Bool
  readers : List Waiter
  writers : List Waiter
  deriving DecidableEq, Repr

def Mailbox.empty : Mailbox := ⟨SVal.zero, false, [], []⟩

/-- A wheel descriptor (R168) as declared: valid, drains, fills, count, log2 size, base. -/
structure WheelDesc where
  valid : Bool
  drains : Nat
  fills : Nat
  count : Nat
  size : Nat
  base : Nat
  deriving DecidableEq, Repr

/-- A wheel's pointers, stage registers and arrival counts (R169). -/
structure Wheel where
  desc : WheelDesc
  f : Word
  p : Word
  fs : Nat
  ps : Nat
  fillc : Tbl Nat
  drainc : Tbl Nat
  deriving DecidableEq, Repr

/-- What an issue group waits for (R125). -/
inductive WWait where
  | none
  | mbwr (mb : BitVec 4)
  | tagwait
  | wheel
  | fillDrain
  /-- The object at this byte of the plain region (R133). -/
  | bowait (off : Nat)
  | regang (mask : BitVec 8)
  | barArr (b : BitVec 4)
  | barDone (b : BitVec 4)
  | qbarArr (b : BitVec 4)
  | qbarDone (b : BitVec 4)
  | nbarArr (level : BitVec 2) (b : BitVec 4)
  | nbarDone (level : BitVec 2) (b : BitVec 4)
  | fence
  | release
  | ferry
  | cubeBank
  | feedRoom
  | exit
  | base
  | stepCut
  /-- At the STEP that has raised the step count to the cut's (R335 step 3). -/
  | stepped
  deriving DecidableEq, Repr

/-- The open chained run of a group (R31): words of each pipe already issued in it, whether a word carried S, and whether its
next word issues in a later cycle than the last one, since it had to wait or met a breakpoint (R357). -/
structure Run where
  fma : Nat
  mem : Bool
  sf : Bool
  s : Bool
  late : Bool
  deriving DecidableEq, Repr

/-- An issue group (R110): its slices share a PC. -/
structure Group where
  mask : BitVec 8
  pc : Word
  wait : WWait
  parked : Bool
  run : Option Run
  last : Nat
  passed : Bool
  /-- A breakpoint has matched at this arrival (R347). -/
  matched : Bool
  /-- The ordinal of the last stop site that the group passed (R357). -/
  site : Option (BitVec 16)
  /-- The slot and the trailing word that a waiting group has fetched (R77): read while `wait` is not `none`. -/
  held : Option (Slot × Word)
  /-- Entries of the bound table that the word the group is at has failed and counted (R252). -/
  counted : List Nat
  deriving DecidableEq, Repr

/-- A transient result still in the window (R32, R119): the lanes it covers, their values and the slice stamps. The
slices `hidden` have not passed the switch after a variable-latency word, and read the register without it (R120). -/
structure Transient where
  reg : Nat
  mask : Word
  lanes : Vector Word 32
  stamps : Vector Stamp 8
  hidden : BitVec 8
  deriving DecidableEq, Repr

/-- An instruction of the forwarding window (R119), newest first, with its transient result, if any. -/
structure WinEnt where
  num : Nat
  tr : Option Transient
  deriving DecidableEq, Repr

/-- What a pending variable-latency result delivers (R120). -/
inductive PendVal where
  /-- Registers `reg` upward, the lanes of `mask`: for each register its lanes; per lane the stamp of the sector read;
  `adr` the addresses read. -/
  | lanes (reg : Nat) (mask : Word) (vals : List (Vector Word 32)) (secs : Vector Stamp 32) (adr : Vector DWord 32)
  /-- The special functions: one register with the result stamps already formed. -/
  | spec (reg : Nat) (mask : Word) (vals : Vector Word 32) (stamps : Vector Stamp 8)
  /-- POPM: registers with their saved stamps, every present lane, stamps exact. -/
  | frames (reg : Nat) (regs : List VReg)
  /-- LDW. -/
  | uni (w : BitVec 4) (v : SVal) (adr : DWord)
  /-- A posted MBRD. -/
  | mail (w : BitVec 4) (mb : BitVec 4)
  deriving DecidableEq, Repr

/-- A late fault found by the access (R343), delivered when the result returns. -/
inductive LateCause where
  | translation (detail : Nat)
  | poison
  | pipeline (unit : Nat)
  | freshness (detail : Nat)
  /-- A REFIRE bound: the detail without its reason and the address to look up, if there is one (R258). -/
  | refire (detail : Nat) (va : Option DWord)
  | migrate (va : DWord)
  deriving DecidableEq, Repr

/-- Where one lane's address leads. -/
inductive LaneAddr where
  | global (va : DWord)
  | scratch (off : Nat)
  | stall
  | extent
  | badVa (va : DWord)
  deriving DecidableEq, Repr

/-- An agent of the ordering rules (R21), or what engine order and hardware objects stand between (R229, R236, R238). -/
inductive Who where
  | slice (core slot gang j : Nat)
  | thread (core slot : Nat)
  /-- The transfers of the ferry command under a tag. -/
  | tag (core slot tag : Nat)
  /-- What fences place before a gang's later ferry commands, or before its later FEEDs and DRAINs. -/
  | before (core slot gang : Nat) (cube : Bool)
  /-- What the gang's ferry commands, or its FEEDs and DRAINs, have done. -/
  | after (core slot gang : Nat) (cube : Bool)
  /-- What engines have released by arrivals at a block's barrier objects and wheels. -/
  | obj (core slot : Nat)
  /-- The operations of a cube, by its control core. -/
  | seq (core : Nat)
  /-- All slices of a gang; all of a block. -/
  | gang (core slot gang : Nat)
  | block (core slot : Nat)
  deriving DecidableEq, Repr

/-- A release as its later writes carry it: its scope, its agent, and the writes that happen before it, by clock. -/
structure Release where
  scope : BitVec 3
  agent : Who
  view : List Nat
  deriving DecidableEq, Repr

/-- The head of a release sequence (R227): a release, and the bytes that still carry its head write or an RMW after it. Bytes of
device memory have their physical address, those of scratchpads one beyond all of them (`spLoc`). -/
structure Head where
  bytes : List Nat
  rel : Release
  deriving DecidableEq, Repr

/-- One lane of an ATOM (R185): its operand, its comparand, and the stamp of the operand's registers in its slice. -/
structure AtomLane where
  lane : Nat
  adr : LaneAddr
  b : Nat
  cmp : Nat
  bs : Stamp
  deriving DecidableEq, Repr

/-- An ATOM that has issued and is not performed yet (R185, R253). -/
structure AtomReq where
  o : MemOp
  lanes : List AtomLane
  /-- The releases that its writes head (R227). -/
  rels : List Release
  deriving DecidableEq, Repr

/-- A variable-latency result that its issuing slices still hold open (R120). -/
structure Pend where
  id : Nat
  /-- The slices of the issuing group that have not switched since (R30). -/
  slices : BitVec 8
  ord : Word
  val : PendVal
  bnd : BitVec 4
  scratch : Bool
  fail : Option LateCause
  returned : Bool
  acq : Option (BitVec 3)
  /-- Window number of its instruction (R119). -/
  num : Nat
  /-- The result is transient (T). -/
  tr : Bool
  /-- The now at which its stamps are combined (R26): of the issue, for a load of the return. -/
  at' : Stamp
  /-- Lanes of the result that a later fixed write replaced, per register, and the stamps replaced (R120, R264). -/
  dead : List Word
  deadSt : List (BitVec 8)
  deadUni : Bool
  /-- Entries of the bound table whose failing fill has been counted for this instruction (R252). -/
  counted : List Nat
  /-- The ATOM that gives the result when it is performed. -/
  atom : Option AtomReq
  deriving DecidableEq, Repr

/-- A region snapshot (R254, R342). -/
structure Snapshot where
  ord : Word
  spord : Option (BitVec 16)
  groups : List (BitVec 8 × Word)
  dmask : Word
  pmask : Word
  spp : Nat
  stack : List Word
  deriving DecidableEq, Repr

/-- An issue record (R356). -/
structure IssueRec where
  gpclo : Word
  ord : Word
  gthread : BitVec 4
  grp : BitVec 8
  kind : BitVec 2
  cyc : DWord
  deriving DecidableEq, Repr

/-- The states of R87. -/
inductive GangSt where
  | idle | running | parked
  deriving DecidableEq, Repr

/-- A stop requested of a gang (R81): by a debugger, for eviction, by a whole-job stop; `step` is the debugger's STEP. -/
inductive StopReq where
  | none | halt | evict | step | cut
  deriving DecidableEq, Repr

/-- A gang. -/
structure Gang where
  st : GangSt
  evicted : Bool
  /-- The clock at the eviction (R332: restores go in this order). -/
  evictedAt : Nat
  faultParked : Bool
  halted : Bool
  req : StopReq
  reqEvent : Bool
  groups : List Group
  exited : BitVec 8
  exitOrd : Vector Word 8
  dmask : Word
  pmask : Word
  k : Vector Word 8
  w : Vector SVal 16
  v : Tbl VReg
  vbase : Nat
  window : List WinEnt
  wnum : Nat
  pend : List Pend
  pid : Nat
  spp : Nat
  spill : Tbl VReg
  snap : Option Snapshot
  afterRb : Bool
  stack : List Word
  refires : Nat
  pause : BitVec 12
  waitc : Nat
  wc : Nat
  throttled : Bool
  started : Nat
  loss : Nat
  site : Option (BitVec 16)
  siteOrd : Word
  sealStop : Bool
  waitStop : Bool
  vtime : DWord
  issues : List IssueRec
  /-- Outstanding writes: the engine command that made it (0 for the gang's own), the classes acknowledged (R233). -/
  outst : List (Nat × Nat)
  /-- Words issued by each slice and not yet counted as an arrival: key 0 to 15 BAR and BARA, 16 to 19 FILL, 20 to 23
  DRAIN, 32 to 47 QBAR, 48 to 95 NBAR (R129). -/
  arr : Tbl (Vector Nat 8)
  late : Option (LateCause × Word × BitVec 8)
  refireOn : Option DWord
  heldOn : Option DWord
  /-- Units of CTXSAVE that the gang's own saved state takes (R331, R332). -/
  saved : Nat
  deriving DecidableEq, Repr

/-- What a generator thread waits for (R73, R104). -/
inductive GWait where
  | none
  | mbrd (mb : BitVec 4)
  | mbwr (mb : BitVec 4)
  | join
  | gend
  /-- GLAUNCH, with the packet it has read (R92, R93). -/
  | launch (l : List (BitVec 8))
  | emit
  | ack
  | refire (node : DWord)
  | migrate (va : DWord)
  | base
  | cubeQueue
  | cubeWait
  | peer (cape : Nat) (seq : BitVec 12)
  deriving DecidableEq, Repr

/-- A generator thread (R71). -/
structure Thread where
  g : Vector SVal 32
  h : Vector SVal 32
  pc : DWord
  handler : Bool
  queue : List Record
  /-- The core's CYCLE when the newest records of the queue were raised, and how many that cycle has raised (R104). -/
  qcycle : DWord
  qtail : Nat
  wait : GWait
  pause : BitVec 12
  refires : Nat
  outst : List (Nat × Nat)
  halted : Bool
  stepOne : Bool
  ended : Bool
  deriving DecidableEq, Repr

/-- A line of a block's stash (R173, R174). -/
structure StashLine where
  pa : Nat
  bytes : List (BitVec 8)
  stamps : List Stamp
  poison : List Bool
  dirty : Bool
  excl : Bool
  used : Nat
  deriving DecidableEq, Repr

/-- The kinds of FERRY command (R266). -/
inductive FerryKind where
  | g2s | s2g | g2g | s2s | egh | egp
  deriving DecidableEq, Repr

/-- An operand side of an engine command: a global base or an offset of a scratchpad. -/
inductive Side where
  | global (va : DWord)
  | plain (off : Nat)
  deriving DecidableEq, Repr

/-- A FERRY command, formed at issue (R266 to R275). `stage` is the fill stage it arrives at. -/
structure FerryCmd where
  id : Nat
  slot : Nat
  gang : Nat
  mask : BitVec 8
  kind : FerryKind
  tag : BitVec 6
  bnd : BitVec 4
  acq : Option (BitVec 3)
  rel : Option (BitVec 3)
  shape : DWord
  pitch : DWord
  src : Side
  dst : Side
  srcWheel : Option Word
  dstWheel : Option Word
  stage : Option (Nat × Nat)
  handle : DWord
  born : Nat
  /-- The flume ordinal and the provenance of its word (R337). -/
  ord : Word
  prov : DWord
  /-- The clock since when it has waited for an entry of the queue (R276). -/
  waits : Option Nat
  /-- It has begun its transfer (R276). -/
  begun : Bool
  /-- Reads that the gang had outstanding when an `.acq` command issued (R236). -/
  tail : List Nat
  status : Option Nat
  done : Bool
  flits : List (Nat × BitVec 12)
  deriving DecidableEq, Repr

/-- A FEED or memory-form DRAIN command in flight (R310, R311); a FEED is `weak` where nothing but a fence orders its reads of the
scratchpad after the stores of the gang (R238). -/
inductive EngCmd where
  | feed (id slot gang : Nat) (mask : BitVec 8) (ord : Word) (src : Option Side) (weak : Bool) (data : Vector Word 32)
      (st : List Stamp) (dst len : Nat) (bnd : BitVec 4) (acq : Option (BitVec 3)) (arr : Option (Nat × Nat))
      (tail : List Nat)
  | drain (id slot gang : Nat) (mask : BitVec 8) (rel : Option (BitVec 3)) (arr : Bool)
  deriving DecidableEq, Repr

/-- Shape of a block (R163, R319). -/
structure Shape where
  gangs : Nat
  slices : Nat
  n : Nat
  w : Nat
  plain : Nat
  stash : Nat
  spill : Nat
  deriving DecidableEq, Repr

/-- A barrier counter of a block (R130). -/
structure Bar where
  mask : BitVec 16
  phase : Bool
  deriving DecidableEq, Repr

/-- A resident block, or a cube node's control thread (`control`). -/
structure Block where
  control : Bool
  ctx : Nat
  node : DWord
  lin : Nat
  bx : Nat
  by' : Nat
  bz : Nat
  gx : Nat
  gy : Nat
  gz : Nat
  prio : Nat
  feeding : Bool
  cor : Bool
  shape : Shape
  fbase : Nat
  sbase : Nat
  kbank : DWord
  lstamp : Option Stamp
  image : DWord
  trap : Nat
  born : Nat
  th : Thread
  e : Word
  s : Word
  f : Word
  flume : Tbl Slot
  mbs : Vector Mailbox 16
  bars : Vector Bar 16
  wheels : Vector Wheel 4
  tags : DWord
  tagerr : DWord
  tagpend : DWord
  fstat : Vector (BitVec 4) 64
  sp : Store
  /-- Sectors of the scratchpad as they stood before stores that no fence has put in engine order (R236): an engine may still
  read them so. -/
  spOld : Tbl (List (BitVec 8) × Stamp × Bool)
  /-- Sectors of the scratchpad as they stood before writes of engines that nothing orders before the accesses of the block's
  agents: these may still read them so (R236). -/
  spLate : Tbl (List (BitVec 8) × Stamp × Bool)
  stash : Tbl StashLine
  /-- Stash-mapped operands: base, extent, bound entry, whether a fill is bound-checked (R173, R319). -/
  maps : List (Nat × Nat × BitVec 4)
  sc : BitVec 16
  vtime : DWord
  gangs : List Gang
  /-- Watchdog timers (R352): value, the gang whose wait started it (16: the thread) and its slices. -/
  timers : List (TimerKey × Nat × Nat × BitVec 8)
  stopping : Bool
  /-- FERRY commands held at issue by gangs that are saved (R283). -/
  held : List (Nat × BitVec 8 × FerryCmd)
  deriving DecidableEq, Repr

/-- A line of an L1 (R193, R194), with the gang that filled it and the age of each sector's copy. -/
structure L1Line where
  bytes : List (BitVec 8)
  stamps : List Stamp
  poison : List Bool
  slot : Nat
  gang : Nat
  /-- The writes to each sector before this clock stand in it. -/
  upto : List Nat
  deriving DecidableEq, Repr

/-- A core: SIMT core (k from 0 to 3) or control core (k = 4). -/
structure Core where
  spsize : BitVec 5
  cycle : DWord
  genrr : Nat
  l1 : Tbl L1Line
  victims : List (Nat × Nat × Nat)
  t : Nat
  memset : Option (List (Nat × Nat))
  due : Bool
  tlb : List (Nat × Nat × Nat)
  ferry : List FerryCmd
  ferryWait : List (Nat × Nat × BitVec 8 × FerryCmd)
  eng : List EngCmd
  lccfg : DWord
  lcrange : Vector DWord 8
  lccnt : Tbl DWord
  lcidle : DWord
  blocks : Tbl Block
  deriving DecidableEq, Repr

/-- R126, R375: a core as READY finds it. -/
def Core.reset : Core :=
  { spsize := 8, cycle := 0, genrr := 15, l1 := [], victims := [], t := 32, memset := none, due := false, tlb := []
    ferry := [], ferryWait := [], eng := [], lccfg := 0, lcrange := Vector.replicate 8 0, lccnt := [], lcidle := 0
    blocks := [] }

/-- The states of an accumulator bank (R297). -/
inductive BankSt where
  | empty | active | full | draining
  deriving DecidableEq, Repr

/-- An accumulator bank (R284, R297): D by row × 128 + column, absent +0. -/
structure Bank where
  d : Tbl Word
  stamp : Stamp
  st : BankSt
  poison : Bool
  suspect : Bool
  xc : Nat
  dcount : Nat
  nb : Nat
  deriving DecidableEq, Repr

/-- R297: EMPTY. DESIGN CHOICE, log 24: DCOUNT, XC and Nb are 0 in it. -/
def Bank.empty : Bank := ⟨[], ageless, .empty, false, false, 0, 0, 0⟩

/-- A queued cube operation, with the register values read at issue (R296, R302). -/
inductive CubeOp where
  | shape (m n k : DWord)
  | mode (m : BitVec 16) (kc : DWord)
  | win (w : BitVec 16) (a : DWord)
  | ldb (plane size : Bool) (rows va pitch : DWord) (acq : Option (BitVec 3)) (bnd : BitVec 4)
  | scale (which : BitVec 2) (count va pitch : DWord) (acq : Option (BitVec 3)) (bnd : BitVec 4)
  | mul (gd ga gb : DWord) (fin : BitVec 2) (rel : Option (BitVec 3)) (bnd : BitVec 4)
  | zero
  deriving DecidableEq, Repr

/-- A stream's position in its wheel stage (R309). -/
structure StreamPos where
  panel : Nat
  deriving DecidableEq, Repr

/-- The operation in execution: step index and stream positions (R301). -/
structure CubeExec where
  op : CubeOp
  step : Nat
  a : StreamPos
  g : StreamPos
  /-- A bound check has failed under MARK in this operation (R252: counted once). -/
  marked : Bool
  /-- A step of this operation has set the bank's SUSPECT flag (R294). -/
  sus : Bool
  deriving DecidableEq, Repr

/-- An image drain in progress (R306, R297). -/
structure ImageDrain where
  bank : Bool
  va : DWord
  m : Nat
  n : Nat
  rel : Option (BitVec 3)
  written : Bool
  deriving DecidableEq, Repr

/-- A deferred fault (R300, R308). -/
structure Deferred where
  code : Nat
  detail : Nat
  addr : DWord
  fop : Nat
  step : Nat
  deriving DecidableEq, Repr

/-- A cluster's cube (R284 to R309). The issue values are those of the latest instructions issued (R296). -/
structure Cube where
  obuf : Store
  /-- Sectors of the operand buffer as they stood before writes of FEEDs that nothing orders before the sequencer's reads (R307,
  R313): a step may still read them so. -/
  obufOld : Tbl (List (BitVec 8) × Stamp × Bool)
  stratum : Store
  scale : Store
  banks : Vector Bank 2
  act : Bool
  dp : Bool
  mode : BitVec 16
  kc : DWord
  m : DWord
  n : DWord
  k : DWord
  win : BitVec 16
  wga : DWord
  imode : BitVec 16
  ikc : DWord
  im : DWord
  inn : DWord
  ik : DWord
  iwin : BitVec 16
  iwga : DWord
  queue : List CubeOp
  exec : Option CubeExec
  image : List ImageDrain
  fault : Option Deferred
  fop : Nat
  fstep : Nat
  refires : Nat
  refireOn : Option DWord
  wheels : Vector Wheel 4
  deriving DecidableEq, Repr

/-- R168: no wheel declared. -/
def WheelDesc.none : WheelDesc := ⟨false, 0, 0, 0, 0, 0⟩

/-- R169: a wheel at dispatch. -/
def Wheel.start (d : WheelDesc) : Wheel := ⟨d, 0, 0, 0, 0, [], []⟩

/-- R284, R288, R290, R297: the cube at dispatch. -/
def Cube.reset : Cube :=
  { obuf := .empty, obufOld := [], stratum := .empty, scale := .empty, banks := Vector.replicate 2 Bank.empty, act := false
    dp := false, mode := 0, kc := 1, m := 0, n := 0, k := 0, win := 0, wga := 0, imode := 0, ikc := 1, im := 0
    inn := 0, ik := 0, iwin := 0, iwga := 0, queue := [], exec := none, image := [], fault := none, fop := 0
    fstep := 0, refires := 0, refireOn := none, wheels := Vector.replicate 4 (Wheel.start WheelDesc.none) }

/-- The states of a context (R316). -/
inductive CtxSt where
  | free | live | stopping | stopped | terminated | lost
  deriving DecidableEq, Repr

/-- A ring descriptor (R215). -/
structure Ring where
  head : Word
  tail : Word
  base : BitVec 34
  log2n : BitVec 5
  deriving DecidableEq, Repr

/-- R215: reset values. -/
def Ring.reset : Ring := ⟨0, 0, 0, 4⟩

/-- A producer entry (R257). -/
structure Producer where
  node : DWord
  fin : DWord
  start : DWord
  v : Bool
  budget : BitVec 3
  deriving DecidableEq, Repr

def Producer.reset : Producer := ⟨0, 0, 0, false, 0⟩

/-- A breakpoint register (R347). -/
structure Breakpoint where
  key : DWord
  v : Bool
  byId : Bool
  act : BitVec 2
  ord : BitVec 16
  deriving DecidableEq, Repr

def Breakpoint.reset : Breakpoint := ⟨0, false, false, 0, 0⟩

/-- A context block (R316, R317, R247, R251, R257, R294, R347 to R354). -/
structure Ctx where
  st : CtxSt
  debug : Bool
  restamp : Bool
  cause : BitVec 16
  root : BitVec 28
  saveBase : BitVec 30
  saveSize : Word
  saveUsed : Nat
  lqd : Tbl Ring
  lqw : Tbl DWord
  lerr : DWord
  counters : Tbl Word
  created : Nat
  hold : Bool
  shift : BitVec 5
  offset : DWord
  hval : DWord
  abent : Tbl Word
  absticky : Word
  abcount : Tbl Word
  prod : Tbl Producer
  suspact : BitVec 2
  ben : Bool
  pen : Bool
  plog : BitVec 6
  blog : BitVec 6
  dslots : BitVec 8
  dnext : BitVec 8
  dbase : BitVec 27
  dseq : Word
  dbgring : Ring
  bps : Tbl Breakpoint
  dbgcmd : DWord
  dbgval : DWord
  cut : Option (BitVec 16)
  deriving DecidableEq, Repr

/-- R5, R251, R317, R352: the reset values of a context's registers. -/
def Ctx.reset : Ctx :=
  { st := .free, debug := false, restamp := false, cause := 0, root := 0, saveBase := 0, saveSize := 0, saveUsed := 0
    lqd := [], lqw := [], lerr := 0, counters := [], created := 0, hold := false, shift := 0, offset := 0, hval := 0
    abent := [], absticky := 0, abcount := [], prod := [], suspact := 0, ben := true, pen := true, plog := 32
    blog := 28, dslots := 0, dnext := 0, dbase := 0, dseq := 0, dbgring := .reset, bps := [], dbgcmd := 0
    dbgval := 0, cut := none }

/-- The phases of an instance (R326). -/
inductive Phase where
  | pending | ready | running | completing
  deriving DecidableEq, Repr

/-- An instance (R322, R326). `tmpl` is its record as read at creation (R318), 32 doublewords. -/
structure Instance where
  ctx : Nat
  node : DWord
  record : DWord
  group : DWord
  hasKey : Bool
  count : Nat
  phase : Phase
  tmpl : Vector DWord 32
  prio : Nat
  povr : Option Nat
  kovr : DWord
  doneva : DWord
  doneval : DWord
  podhome : BitVec 9
  harbour : Bool
  order : Nat
  lstamp : Stamp
  isleOf : List Nat
  dispatched : List Nat
  ended : List Nat
  controlEnded : Bool
  /-- DONEVAL has been stored, or its store has failed (R328 step 2). -/
  stored : Bool
  producer : Option Nat
  deriving DecidableEq, Repr

/-- A completion waiting for an instance-table entry (R326). -/
structure Completion where
  ctx : Nat
  record : DWord
  group : DWord
  povr : Option Nat
  podhome : BitVec 9
  deriving DecidableEq, Repr

/-- A quad, die or package barrier of an instance (R131): level 0 quad, 1 die (per isle), 2 package, 3 pod member. -/
structure Net where
  node : DWord
  level : Nat
  isle : Nat
  b : Nat
  count : Nat
  phase : Bool
  arrived : List Nat
  deriving DecidableEq, Repr

/-- A pod barrier at its home (R132). -/
structure PodBar where
  home : BitVec 9
  group : DWord
  b : Nat
  count : Nat
  phase : Bool
  members : List (BitVec 9 × Nat)
  deriving DecidableEq, Repr

/-- What is saved of a block (R333), of a cube node with its control thread and cube (R301). -/
inductive Saved where
  | block (isle : Nat) (b : Block) (size : Nat)
  | node (isle : Nat) (control : Block) (cube : Cube) (feeders : List Block) (size : Nat)
  deriving DecidableEq, Repr

/-- A region entry of the directory (R197, R198, R201). -/
structure Region where
  /-- 0 private-to-die, 1 read-shared, 2 finely tracked. -/
  st : Nat
  owner : Option Nat
  sharers : Tbl (BitVec 8)
  excl : Tbl Nat
  sole : Nat
  soleIsle : Option Nat
  c : Nat
  lastAtom : Option Nat
  run : Nat
  deriving DecidableEq, Repr

/-- R197, R201: reset. -/
def Region.reset : Region := ⟨0, none, [], [], 0, none, 0, none, 0⟩

/-- A base die (R203, R218 to R220). -/
structure BaseDie where
  ecc : List DWord
  parity : List DWord
  table : List DWord
  offline : List Nat
  lanes : Tbl Nat
  deriving DecidableEq, Repr

def BaseDie.reset : BaseDie := ⟨[], [], [], [], []⟩

/-- A cape (R370, R371). -/
structure Cape where
  peer : BitVec 9
  delay : DWord
  sendSeq : BitVec 12
  recvSeq : BitVec 12
  replay : List (BitVec 12 × Flit × Nat)
  lastTide : DWord
  deriving DecidableEq, Repr

def Cape.reset : Cape := ⟨0, 0, 0, 0, [], 0⟩

/-- A former state of a sector of device memory: the write that replaced it, at clock `till`, happens before nothing of the
agents that are not among `seen`, which may still read it (R231, R232). `heads` are the releases its bytes carry; `sys` says that
the writer has performed a release at SYSTEM scope since (R242). -/
structure Old where
  sec : Nat
  till : Nat
  bytes : List (BitVec 8)
  stamp : Stamp
  bad : Bool
  seen : List Who
  heads : List Head
  sys : Bool
  deriving DecidableEq, Repr

/-- A write of a unit that its stack has not taken, its base-die bit being 0 (R366): bytes of a sector with stamp AGELESS (R373),
or a sector of a dirty stash line (R175). -/
inductive HeldPut where
  | unit (sec : Nat) (l : List (Nat × BitVec 8))
  | line (sec : Nat) (bytes : List (BitVec 8)) (stamp : Stamp) (bad : Bool)
  deriving DecidableEq, Repr

/-- The state of the package (R12 to R16), and the model's own fields `cur`, `turns`, `fresh` (logs 1 and 8). -/
structure State where
  ready : DWord
  tide : DWord
  mem : Store
  /-- Changed words of device memory: word address, when, and the value before (R74, R101, R210). -/
  hist : List (Nat × Nat × Word)
  /-- Former states of sectors that some agent may still read (R231): `mem` holds every write. -/
  olds : List Old
  /-- The releases that bytes of device memory and of scratchpads carry (R227). -/
  heads : List Head
  /-- Releases that reads have observed, for a later acquire fence of the reader (R228). -/
  tails : List (Who × Release)
  /-- Release fences: whose later writes they head, scope, what they order before them (R228). -/
  fenced : List (Who × Release)
  /-- Writes of units to stacks that are not ready, oldest first (R366). -/
  heldPuts : List HeldPut
  /-- Shootdowns performed: context, base, log2 of the span or all, and when (R210). -/
  shots : List (Nat × DWord × Option Nat × Nat)
  clock : Nat
  /-- Cycles since power-up: CYCLE of a core that has run nothing (R103). -/
  cycles : DWord
  /-- Context and 2 MiB region of the walks begun in this cycle (R210). -/
  walks : List (Nat × Nat)
  /-- Pages with a MIGRATE leaf on which engines and units of the package wait (R212): context and address. -/
  moves : List (Nat × DWord)
  hostMem : Store
  dir : Tbl Region
  fine : List Nat
  fown : Tbl Nat
  fownset : DWord
  invva : DWord
  invctl : DWord
  /-- The shootdown in progress: context, base, log2 of the span or all (R210). BUSY of INVCTL is that there is one. -/
  shooting : Option (Nat × DWord × Option Nat)
  free64 : Ring
  free2m : Ring
  victim : Ring
  done : Ring
  acl : Tbl DWord
  counters : Tbl Word
  pwr : DWord
  fwOk : Tbl Bool
  fwDigest : Tbl (List Byte)
  attNonce : List Byte
  attAddr : DWord
  attDone : Bool
  /-- The attestation report in progress: its address in host memory, its bytes (R369). -/
  attReport : Option (Nat × List (BitVec 8))
  ctxs : Tbl Ctx
  cores : Tbl Core
  cubes : Tbl Cube
  insts : List Instance
  compl : List Completion
  rr : Nat × Nat
  saved : List Saved
  nets : List Net
  pods : List PodBar
  early : List Flit
  bases : Tbl BaseDie
  capes : Tbl Cape
  outbox : List (Nat × Flit)
  /-- Barrier flits that wait for a first trained cape (R245). -/
  unsent : List Flit
  hostRead : List (Byte × Bool)
  pkg : BitVec 9
  cur : Agent
  turns : List Turn
  fresh : Nat
  deriving DecidableEq, Repr

/-- R5, R365: every bit of READY is clear at power-up; the registers hold the reset values of their maps; memory is as a
base die leaves it before it sets its bit (R203). The values no rule gives are those of log 12. -/
def State.reset : State :=
  { ready := 0, tide := 0, mem := .empty, hist := [], olds := [], heads := [], tails := [], fenced := [], heldPuts := [], shots := [], clock := 0
    cycles := 0, walks := [], moves := [], hostMem := .empty, dir := [], fine := []
    fown := [], fownset := 0, invva := 0, invctl := 0x0800000000000000, shooting := none, free64 := .reset, free2m := .reset
    victim := .reset, done := .reset, acl := [], counters := [], pwr := 0x41a0e10000000000, fwOk := [], fwDigest := []
    attNonce := List.replicate 32 0, attAddr := 0, attDone := false, attReport := none, ctxs := [], cores := [], cubes := [], insts := []
    compl := [], rr := (4095, 63), saved := [], nets := [], pods := [], early := [], bases := [], capes := []
    outbox := [], unsent := [], hostRead := [], pkg := 0, cur := .none, turns := [], fresh := 0 }

end Sys2Proof.Machine
end

