-- ==== Sys2Proof/Machine/Store.lean ====
section
/-! DEFINITION. Stamp functions (R24 to R26), bit fields, and the operations over a store of bytes with sector stamps and
poison bits. -/

namespace Sys2Proof.Machine

/-- Bits hi down to lo of a natural number. -/
def bits (x hi lo : Nat) : Nat := x / 2 ^ lo % 2 ^ (hi + 1 - lo)

/-- One bit of a natural number. -/
def bitAt (x i : Nat) : Bool := x / 2 ^ i % 2 == 1

/-- SignExtend(x, n) to 64 bits (R6). -/
def sext64 {n : Nat} (x : BitVec n) : DWord := x.signExtend 64

/-- R24. -/
def stampOf (t : DWord) : Stamp :=
  let x : Stamp := t.setWidth 24
  if x = 0 then 1 else if x = 0xFFFFFF then 0xFFFFFE else x

/-- R25: the age of a stamp at `now`; none is INFINITE. -/
def age (now st : Stamp) : Option Nat :=
  if st = ageless then some 0
  else if st = ancient then none
  else
    let d := (now - st).toNat
    if 0xC00000 ≤ d then some 0 else some d

/-- Age exceeds a bound; INFINITE exceeds every bound (R25). -/
def ageOver (now st : Stamp) (bound : Nat) : Bool :=
  match age now st with
  | none => true
  | some a => bound < a

/-- R26: Older, at one value of now. -/
def older (now a b : Stamp) : Stamp :=
  if a = ancient ∨ b = ancient then ancient
  else if a = ageless then b
  else if b = ageless then a
  else match age now b, age now a with
    | some y, some x => if x < y then b else a
    | none, _ => b
    | _, none => a

/-- R26: Older from left to right; AGELESS of no stamp. -/
def olderAll (now : Stamp) (l : List Stamp) : Stamp :=
  match l with
  | [] => ageless
  | a :: r => r.foldl (older now) a

/-- R246: the context tide. -/
def Ctx.tideAt (c : Ctx) (tide : DWord) : DWord :=
  if c.hold then c.hval else (tide >>> (if c.shift.toNat = 31 then 30 else c.shift.toNat)) - c.offset

/-- A context's block (R316). -/
def State.ctx (s : State) (x : Nat) : Ctx := Tbl.getD s.ctxs x Ctx.reset

def State.setCtx (s : State) (x : Nat) (c : Ctx) : State := { s with ctxs := Tbl.set s.ctxs x c }

/-- R246: ContextTide(). -/
def State.ctide (s : State) (x : Nat) : DWord := (s.ctx x).tideAt s.tide

/-- StampOf(ContextTide()). -/
def State.now (s : State) (x : Nat) : Stamp := stampOf (s.ctide x)

/-- The byte at `a`; an unlisted address reads 0 (R164, R203, R284). -/
def Store.byte (m : Store) (a : Nat) : Byte := Tbl.getD m.bytes a 0

/-- The canonical form: addresses rising, no listed byte 0. -/
def bytesWf (l : List (Nat × BitVec 8)) : Bool :=
  match l with
  | [] => true
  | (a, x) :: r => x != 0 && (match r with
    | [] => true
    | (b, _) :: _ => a < b) && bytesWf r

/-- The keys of a table rise. -/
def rising {α : Type} (l : List (Nat × α)) : Bool :=
  match l with
  | [] => true
  | (a, _) :: r => (match r with
    | [] => true
    | (b, _) :: _ => a < b) && rising r

/-- The canonical form of a store: nothing listed that reads as if it were not, and every list rising. -/
def Store.wf (m : Store) : Bool :=
  bytesWf m.bytes && (rising m.stamps && m.stamps.all fun e => e.2 != ancient) && rising m.poison

/-- One byte written; writing 0 unlists the address. -/
def putByte (l : List (Nat × BitVec 8)) (a : Nat) (x : Byte) : List (Nat × BitVec 8) :=
  if x = 0 then Tbl.erase l a else Tbl.set l a x

def Store.setByte (m : Store) (a : Nat) (x : Byte) : Store := { m with bytes := putByte m.bytes a x }

/-- `n` bytes from `a` upward. -/
def Store.bytesAt (m : Store) (a : Nat) : Nat → List Byte
  | 0 => []
  | n + 1 => m.byte a :: m.bytesAt (a + 1) n

/-- Little-endian value of a list of bytes (R4). -/
def leVal (l : List Byte) : Nat :=
  match l with
  | [] => 0
  | b :: r => b.toNat + 256 * leVal r

/-- The `n` low bytes of a number, lowest first (R4). -/
def leBytes (x : Nat) : Nat → List Byte
  | 0 => []
  | n + 1 => BitVec.ofNat 8 x :: leBytes (x / 256) n

/-- The little-endian value of `n` bytes at `a`. -/
def Store.nat (m : Store) (a n : Nat) : Nat := leVal (m.bytesAt a n)

/-- Bytes written from `a` upward. -/
def Store.setBytes (m : Store) (a : Nat) (l : List Byte) : Store :=
  match l with
  | [] => m
  | b :: r => (m.setByte a b).setBytes (a + 1) r

/-- The stamp of sector `i` (bytes 32i to 32i + 31); unlisted is ANCIENT (R22). -/
def Store.stamp (m : Store) (i : Nat) : Stamp := Tbl.getD m.stamps i ancient

def Store.setStamp (m : Store) (i : Nat) (st : Stamp) : Store :=
  { m with stamps := if st = ancient then Tbl.erase m.stamps i else Tbl.set m.stamps i st }

/-- Whether sector `i` is poisoned. -/
def Store.bad (m : Store) (i : Nat) : Bool := (Tbl.get? m.poison i).isSome

def Store.setBad (m : Store) (i : Nat) (b : Bool) : Store :=
  { m with poison := if b then Tbl.set m.poison i () else Tbl.erase m.poison i }

/-- How a write sets a sector's stamp (R184, R185, R277). -/
inductive StampRule where
  /-- The stamp itself on a whole sector, Older(old, stamp) on a part. -/
  | normal (st : Stamp)
  /-- Exactly this stamp. -/
  | exact (st : Stamp)
  /-- Older(old, stamp) always (atomics). -/
  | join (st : Stamp)
  | keep
  deriving DecidableEq, Repr

/-- The stamp a sector takes. -/
def StampRule.apply (r : StampRule) (now old : Stamp) (full : Bool) : Stamp :=
  match r with
  | .normal st => if full then st else older now old st
  | .exact st => st
  | .join st => older now old st
  | .keep => old

/-- Byte writes performed in order. -/
def Store.writes (m : Store) (l : List (Nat × Byte)) : Store :=
  match l with
  | [] => m
  | (a, b) :: r => (m.setByte a b).writes r

/-- Whether the writes cover every byte of sector `i`. -/
def coversSector (l : List (Nat × Byte)) (i : Nat) : Bool :=
  (List.range 32).all fun k => l.any fun p => p.1 == 32 * i + k

/-- One sector's writes in one atomic step: bytes and stamp; a partial write to a poisoned sector changes nothing, a
whole one clears the poison (R184, R217, R224). -/
def Store.putSector (m : Store) (now : Stamp) (i : Nat) (l : List (Nat × Byte)) (r : StampRule) : Store :=
  let full := coversSector l i
  if m.bad i && !full then m
  else ((m.writes l).setStamp i (r.apply now (m.stamp i) full)).setBad i false

/-- The sectors that a list of byte addresses touches, each once, in the order met. -/
def sectorsOf (l : List Nat) : List Nat :=
  match l with
  | [] => []
  | a :: r => let t := sectorsOf r
    if t.contains (a / 32) then t else a / 32 :: t

/-- Insertion into a rising list of numbers without repeats. -/
def insNat (x : Nat) (l : List Nat) : List Nat :=
  match l with
  | [] => [x]
  | y :: r => if x < y then x :: y :: r else if x = y then y :: r else y :: insNat x r

/-- A list of numbers, rising and without repeats. -/
def sortNat (l : List Nat) : List Nat := l.foldl (fun t x => insNat x t) []

/-- The sectors of `n` bytes at `a`, rising. -/
def sectorsIn (a n : Nat) : List Nat :=
  if n = 0 then [] else (List.range ((a + n - 1) / 32 - a / 32 + 1)).map (· + a / 32)

/-- Bytes laid at consecutive addresses. -/
def atAddr (a : Nat) (l : List Byte) : List (Nat × Byte) :=
  match l with
  | [] => []
  | b :: r => (a, b) :: atAddr (a + 1) r

/-- A contiguous write by one rule, sector by sector. -/
def Store.putBytes (m : Store) (now : Stamp) (a : Nat) (l : List Byte) (r : StampRule) : Store :=
  let ws := atAddr a l
  (sectorsIn a l.length).foldl (fun m i => m.putSector now i (ws.filter fun p => p.1 / 32 == i) r) m

end Sys2Proof.Machine
end

