-- ==== Sys2Proof/Machine/Float.lean ====
section
/-! DEFINITION. Floating point: the formats of R135, exact values, one rounding to nearest even, the special functions
(R137, R144) and the conversions (R148, R149). -/

namespace Sys2Proof.Machine

/-- A format (R135): widths of exponent and fraction, bias, the code of the largest finite magnitude, of infinity (none
in E4M3) and of the canonical NaN. -/
structure Fmt where
  eb : Nat
  fb : Nat
  bias : Nat
  maxFin : Nat
  inf : Option Nat
  nan : Nat
  deriving DecidableEq, Repr

def fp32 : Fmt := ⟨8, 23, 127, 0x7F7FFFFF, some 0x7F800000, 0x7FC00000⟩
def fp16 : Fmt := ⟨5, 10, 15, 0x7BFF, some 0x7C00, 0x7E00⟩
def bf16 : Fmt := ⟨8, 7, 127, 0x7F7F, some 0x7F80, 0x7FC0⟩
def e4m3 : Fmt := ⟨4, 3, 7, 0x7E, none, 0x7F⟩
def e5m2 : Fmt := ⟨5, 2, 15, 0x7B, some 0x7C, 0x7E⟩

/-- The width of a format. -/
def Fmt.width (f : Fmt) : Nat := 1 + f.eb + f.fb

/-- An exact value: (−1)^neg × m × 2^e, an infinity, or NaN. A zero keeps its sign. -/
inductive FVal where
  | nan
  | inf (neg : Bool)
  | fin (neg : Bool) (m : Nat) (e : Int)
  deriving DecidableEq, Repr

/-- The value of a code (R135). -/
def Fmt.val (f : Fmt) (x : Nat) : FVal :=
  let neg := bitAt x (f.eb + f.fb)
  let mag := x % 2 ^ (f.eb + f.fb)
  if f.maxFin < mag then (if some mag = f.inf then .inf neg else .nan)
  else
    let ex := mag / 2 ^ f.fb
    let fr := mag % 2 ^ f.fb
    if ex = 0 then .fin neg fr (1 - (f.bias : Int) - f.fb)
    else .fin neg (2 ^ f.fb + fr) ((ex : Int) - f.bias - f.fb)

/-- Sign bit of a code. -/
def Fmt.signed (f : Fmt) (neg : Bool) (mag : Nat) : Nat := if neg then 2 ^ (f.eb + f.fb) + mag else mag

/-- m × 2^e to the nearest multiple of 2^q, ties to even, in units of 2^q. -/
def rneUnits (m : Nat) (e q : Int) : Nat :=
  if q ≤ e then m * 2 ^ (e - q).toNat
  else
    let d := (q - e).toNat
    let t := m / 2 ^ d
    let r := m % 2 ^ d
    if 2 * r < 2 ^ d then t else if 2 ^ d < 2 * r then t + 1 else t + t % 2

/-- The magnitude code of m × 2^e rounded once by RNE with the exponent unbounded above (R149). -/
def Fmt.rneMag (f : Fmt) (m : Nat) (e : Int) : Nat :=
  if m = 0 then 0
  else
    let qmin : Int := 1 - (f.bias : Int) - f.fb
    let q := max ((Nat.log2 m : Int) + e - f.fb) qmin
    (q - qmin).toNat * 2 ^ f.fb + rneUnits m e q

/-- What a finite value too large becomes: the largest finite with saturation, else infinity, else NaN in E4M3 (R149). -/
def Fmt.overflow (f : Fmt) (sat neg : Bool) : Nat :=
  if sat then f.signed neg f.maxFin
  else match f.inf with
    | some i => f.signed neg i
    | none => f.nan

/-- An exact value rounded once (R137): infinities stay, NaN is canonical, overflow by `sat`. -/
def Fmt.round (f : Fmt) (sat : Bool) (v : FVal) : Nat :=
  match v with
  | .nan => f.nan
  | .inf neg => f.overflow false neg
  | .fin neg m e =>
    let c := f.rneMag m e
    if f.maxFin < c then f.overflow sat neg else f.signed neg c

/-- The narrowing conversions of R149, in which saturation also applies to an infinite input. -/
def Fmt.narrow (f : Fmt) (sat : Bool) (v : FVal) : Nat :=
  match v with
  | .inf neg => f.overflow sat neg
  | v => f.round sat v

/-- Sign of a value. -/
def FVal.neg? (v : FVal) : Bool :=
  match v with
  | .nan => false
  | .inf n => n
  | .fin n _ _ => n

def FVal.negate (v : FVal) : FVal :=
  match v with
  | .nan => .nan
  | .inf n => .inf (!n)
  | .fin n m e => .fin (!n) m e

/-- Exact sum (R137): an exact zero sum is +0, except that −0 + −0 is −0. -/
def FVal.add (x y : FVal) : FVal :=
  match x, y with
  | .nan, _ => .nan
  | _, .nan => .nan
  | .inf a, .inf b => if a = b then .inf a else .nan
  | .inf a, _ => .inf a
  | _, .inf b => .inf b
  | .fin a m e, .fin b n g =>
    let q := min e g
    let i : Int := (if a then -1 else 1) * (m * 2 ^ (e - q).toNat : Nat)
    let j : Int := (if b then -1 else 1) * (n * 2 ^ (g - q).toNat : Nat)
    let t := i + j
    if t = 0 then .fin (a && b) 0 q else .fin (t < 0) t.natAbs q

/-- Exact product (R137): 0 × ∞ is NaN, signs combine. -/
def FVal.mul (x y : FVal) : FVal :=
  match x, y with
  | .nan, _ => .nan
  | _, .nan => .nan
  | .inf a, .inf b => .inf (a ^^ b)
  | .inf a, .fin b n _ => if n = 0 then .nan else .inf (a ^^ b)
  | .fin a m _, .inf b => if m = 0 then .nan else .inf (a ^^ b)
  | .fin a m e, .fin b n g => .fin (a ^^ b) (m * n) (e + g)

/-- Whether a code is NaN. -/
def Fmt.isNan (f : Fmt) (x : Nat) : Bool := f.val x == .nan

/-- Order key of a code that is not NaN, −0 below +0. -/
def Fmt.key (f : Fmt) (x : Nat) : Int :=
  let mag := x % 2 ^ (f.eb + f.fb)
  if bitAt x (f.eb + f.fb) then -(mag : Int) - 1 else mag

/-- Comparison key of a code that is not NaN, −0 equal to +0 (R145). -/
def Fmt.ckey (f : Fmt) (x : Nat) : Int :=
  let mag := x % 2 ^ (f.eb + f.fb)
  if bitAt x (f.eb + f.fb) then -(mag : Int) else mag

/-- R143, R146: minimum. -/
def Fmt.fmin (f : Fmt) (a b : Nat) : Nat :=
  if f.isNan a && f.isNan b then f.nan else if f.isNan a then b else if f.isNan b then a
  else if f.key b < f.key a then b else a

/-- R143, R146: maximum. -/
def Fmt.fmax (f : Fmt) (a b : Nat) : Nat :=
  if f.isNan a && f.isNan b then f.nan else if f.isNan a then b else if f.isNan b then a
  else if f.key a < f.key b then b else a

def Fmt.fadd (f : Fmt) (a b : Nat) : Nat := f.round false ((f.val a).add (f.val b))
def Fmt.fsub (f : Fmt) (a b : Nat) : Nat := f.round false ((f.val a).add (f.val b).negate)
def Fmt.fmul (f : Fmt) (a b : Nat) : Nat := f.round false ((f.val a).mul (f.val b))
/-- d + a × b, one rounding (R143, R146). -/
def Fmt.ffma (f : Fmt) (d a b : Nat) : Nat := f.round false ((f.val d).add ((f.val a).mul (f.val b)))
/-- d − a × b, one rounding (R143). -/
def Fmt.fnma (f : Fmt) (d a b : Nat) : Nat := f.round false ((f.val d).add ((f.val a).mul (f.val b)).negate)

/-- The integer square root, from bit `i` down. -/
def isqrtGo (n acc : Nat) : Nat → Nat
  | 0 => if (acc + 1) * (acc + 1) ≤ n then acc + 1 else acc
  | i + 1 => let t := acc + 2 ^ (i + 1)
    isqrtGo n (if t * t ≤ n then t else acc) i

/-- floor(√n). -/
def isqrt (n : Nat) : Nat := isqrtGo n 0 (Nat.log2 n / 2 + 1)

/-- A truncated magnitude with a mark below its last bit when bits were lost: it rounds as the exact value does. -/
def sticky (q : Nat) (exact : Bool) : Nat := 2 * q + (if exact then 0 else 1)

/-- R144: 1/x. -/
def frcp (x : Nat) : Nat :=
  match fp32.val x with
  | .nan => fp32.nan
  | .inf n => fp32.signed n 0
  | .fin n m e =>
    if m = 0 then fp32.overflow false n
    else
      let k := Nat.log2 m + 64
      fp32.round false (.fin n (sticky (2 ^ k / m) (2 ^ k % m == 0)) (-e - k - 1))

/-- m × 2^e with an even exponent. -/
def evenExp (m : Nat) (e : Int) : Nat × Int := if e % 2 = 0 then (m, e) else (2 * m, e - 1)

/-- R144: √x. -/
def fsqrt (x : Nat) : Nat :=
  match fp32.val x with
  | .nan => fp32.nan
  | .inf n => if n then fp32.nan else fp32.overflow false false
  | .fin n m e =>
    if m = 0 then fp32.signed n 0
    else if n then fp32.nan
    else
      let (a, g) := evenExp m e
      let b := a * 2 ^ 64
      let r := isqrt b
      fp32.round false (.fin false (sticky r (r * r == b)) (g / 2 - 32 - 1))

/-- R144: 1/√x. -/
def frsq (x : Nat) : Nat :=
  match fp32.val x with
  | .nan => fp32.nan
  | .inf n => if n then fp32.nan else 0
  | .fin n m e =>
    if m = 0 then fp32.overflow false n
    else if n then fp32.nan
    else
      let (a, g) := evenExp m e
      let k : Nat := 64
      let r := isqrt (2 ^ (2 * k) / a)
      fp32.round false (.fin false (sticky r (r * r * a == 2 ^ (2 * k))) (-(g / 2) - k - 1))

/-- ln 2 in units of 2^−200. -/
def ln2Fix : Nat := 1113844574712631719546256151097547306333272293549090750737802

/-- Taylor terms of e^y from term `k`, in units of 2^−200; `fuel` bounds their number. -/
def expGo (y term k : Nat) : Nat → Nat
  | 0 => 0
  | fuel + 1 => term + expGo y (term * y / 2 ^ 200 / (k + 1)) (k + 1) fuel

/-- R144: 2^x. 2^x of a non-integer is irrational and its 200-bit enclosure decides the rounding. -/
def fexp2 (x : Nat) : Nat :=
  match fp32.val x with
  | .nan => fp32.nan
  | .inf n => if n then 0 else fp32.overflow false false
  | .fin n m e =>
    if 8 ≤ (Nat.log2 m : Int) + e ∧ m ≠ 0 then (if n then 0 else fp32.overflow false false)
    else
      -- x in units of 2^−149: below 2^8 it is exact
      let u : Int := (if n then -1 else 1) * (m * 2 ^ (e + 149).toNat : Nat)
      let i := u / 2 ^ 149
      let fr := (u % 2 ^ 149).toNat
      if fr = 0 then fp32.round false (.fin false 1 i)
      else
        let y := fr * ln2Fix / 2 ^ 149
        fp32.round false (.fin false (sticky (expGo y (2 ^ 200) 0 64) false) (i - 201))

/-- Terms of 2 atanh z = 2 (z + z³/3 + …) from term `k`, in units of 2^−200. -/
def atanhGo (z2 pow k : Nat) : Nat → Nat
  | 0 => 0
  | fuel + 1 => pow / (2 * k + 1) + atanhGo z2 (pow * z2 / 2 ^ 200) (k + 1) fuel

/-- R144: log2 x. log2 of a value that is no power of two is irrational. -/
def flog2 (x : Nat) : Nat :=
  match fp32.val x with
  | .nan => fp32.nan
  | .inf n => if n then fp32.nan else fp32.overflow false false
  | .fin n m e =>
    if m = 0 then fp32.overflow false true
    else if n then fp32.nan
    else
      let l := Nat.log2 m
      let ex : Int := l + e
      if m = 2 ^ l then
        fp32.round false (.fin (ex < 0) ex.natAbs 0)
      else
        -- y = m / 2^l in (1, 2), z = (y − 1)/(y + 1)
        let z := (m - 2 ^ l) * 2 ^ 200 / (m + 2 ^ l)
        let ln := 2 * atanhGo (z * z / 2 ^ 200) z 0 72
        let t : Int := ex * 2 ^ 200 + (ln * 2 ^ 200 / ln2Fix : Nat)
        fp32.round false (.fin (t < 0) (sticky t.natAbs false) (-201))

/-- R148: FP32 to a 32-bit integer, to nearest even or towards zero, clamped; NaN gives 0. -/
def fToInt (rz : Bool) (x : Nat) : Word :=
  match fp32.val x with
  | .nan => 0
  | .inf n => if n then 0x80000000 else 0x7FFFFFFF
  | .fin n m e =>
    let u := if rz then (if 0 ≤ e then m * 2 ^ e.toNat else m / 2 ^ (-e).toNat) else rneUnits m e 0
    if n then (if 2 ^ 31 ≤ u then 0x80000000 else -(BitVec.ofNat 32 u))
    else (if 2 ^ 31 ≤ u then 0x7FFFFFFF else BitVec.ofNat 32 u)

/-- R148: a 32-bit integer to FP32. -/
def intToF (unsigned : Bool) (x : Word) : Nat :=
  if unsigned then fp32.round false (.fin false x.toNat 0)
  else fp32.round false (.fin x.msb x.toInt.natAbs 0)

/-- A widening conversion: exact, NaN canonical (R148). -/
def widen (f : Fmt) (x : Nat) : Nat := fp32.round false (f.val x)

/-- floor(log2 |v|) of a finite value that is not 0 (R293). -/
def FVal.log2? (v : FVal) : Int :=
  match v with
  | .fin _ m e => (Nat.log2 m : Int) + e
  | _ => 128

end Sys2Proof.Machine
end

