-- ==== Sys2Proof/Machine/Access.lean ====
section
/-! DEFINITION. Reading and changing the parts of State: cores, blocks, gangs, threads, counters; the device memory with
its history, the L1s, the stashes and the directory; free choices. -/

namespace Sys2Proof.Machine

/-- The number of core k of cluster c of isle i in management space (R374). -/
def coreNum (isle cluster k : Nat) : Nat := (isle * 24 + cluster) * 8 + k

/-- The isle of a core. -/
def isleOf (core : Nat) : Nat := core / 192

/-- The cluster of a core, counted over the package (0 to 191). -/
def clusterOf (core : Nat) : Nat := core / 8

/-- Whether a core is a control core. -/
def isControl (core : Nat) : Bool := core % 8 == 4

/-- R103: PLACE. -/
def place (core : Nat) : Nat := isleOf core * 2 ^ 13 + (clusterOf core % 24) * 2 ^ 8 + core % 8

/-- A core; one that has run nothing counts its cycles all the same (R103). -/
def State.core (s : State) (c : Nat) : Core := Tbl.getD s.cores c { Core.reset with cycle := s.cycles }
def State.setCore (s : State) (c : Nat) (x : Core) : State := { s with cores := Tbl.set s.cores c x }
def State.cube (s : State) (c : Nat) : Cube := Tbl.getD s.cubes c Cube.reset
def State.setCube (s : State) (c : Nat) (x : Cube) : State := { s with cubes := Tbl.set s.cubes c x }
def State.base (s : State) (d : Nat) : BaseDie := Tbl.getD s.bases d BaseDie.reset
def State.setBase (s : State) (d : Nat) (x : BaseDie) : State := { s with bases := Tbl.set s.bases d x }
def State.cape (s : State) (c : Nat) : Cape := Tbl.getD s.capes c Cape.reset
def State.setCape (s : State) (c : Nat) (x : Cape) : State := { s with capes := Tbl.set s.capes c x }
def State.region (s : State) (r : Nat) : Region := Tbl.getD s.dir r Region.reset
def State.setRegion (s : State) (r : Nat) (x : Region) : State := { s with dir := Tbl.set s.dir r x }

/-- The block in a slot of a core. -/
def State.block? (s : State) (c b : Nat) : Option Block := Tbl.get? (s.core c).blocks b

def State.setBlock (s : State) (c b : Nat) (x : Block) : State :=
  s.setCore c { s.core c with blocks := Tbl.set (s.core c).blocks b x }

/-- A change of one block, if it is resident. -/
def State.onBlock (s : State) (c b : Nat) (f : Block → Block) : State :=
  match s.block? c b with
  | some x => s.setBlock c b (f x)
  | none => s

/-- List update at an index. -/
def setAt {α : Type} (l : List α) (i : Nat) (x : α) : List α :=
  match l, i with
  | [], _ => []
  | _ :: r, 0 => x :: r
  | y :: r, j + 1 => y :: setAt r j x

/-- List change at an index. -/
def modAt {α : Type} (l : List α) (i : Nat) (f : α → α) : List α :=
  match l, i with
  | [], _ => []
  | y :: r, 0 => f y :: r
  | y :: r, j + 1 => y :: modAt r j f

def Block.setGang (b : Block) (i : Nat) (g : Gang) : Block := { b with gangs := setAt b.gangs i g }
def Block.onGang (b : Block) (i : Nat) (f : Gang → Gang) : Block := { b with gangs := modAt b.gangs i f }
def State.onGang (s : State) (c b i : Nat) (f : Gang → Gang) : State := s.onBlock c b (·.onGang i f)
def State.onThread (s : State) (c b : Nat) (f : Thread → Thread) : State := s.onBlock c b fun x => { x with th := f x.th }

/-- The gang `i` of a block. -/
def State.gang? (s : State) (c b i : Nat) : Option Gang := (s.block? c b).bind (·.gangs[i]?)

/-- Resident blocks of the package: core, slot, block. -/
def State.blocks (s : State) : List (Nat × Nat × Block) :=
  s.cores.flatMap fun p => p.2.blocks.map fun q => (p.1, q.1, q.2)

/-- Management offsets of counters (R374). -/
def lagoonCtr (k : Nat) : Nat := 0x100000 + 8 * k
def isleCtr (i k : Nat) : Nat := 0x200000 + i * 0x10000 + 8 * k
def baseCtr (d k : Nat) : Nat := 0x300000 + d * 0x10000 + 8 * k
def capeCtr (c k : Nat) : Nat := 0x500000 + c * 0x10000 + 8 * k
def coreCtr (n k : Nat) : Nat := 0x800000 + n * 0x1000 + 8 * k

/-- A saturating sum of 32 bits (R223). -/
def satAdd (x : Word) (n : Nat) : Word := if 2 ^ 32 ≤ x.toNat + n then 0xFFFFFFFF else x + BitVec.ofNat 32 n

/-- A unit counter rises by `n` (R223). -/
def State.count (s : State) (off n : Nat) : State :=
  { s with counters := Tbl.set s.counters off (satAdd (Tbl.getD s.counters off 0) n) }

/-- The index of a context counter. -/
def ctrIdx (c : CtxCounter) : Nat :=
  match c with
  | .launchBad => 0 | .launchDrop => 1 | .aclDeny => 2 | .evictGang => 3 | .evictBlock => 4 | .saveFull => 5
  | .wheelDiscard => 6 | .doneFail => 7 | .dbgDrop => 8 | .dumpDrop => 9 | .containUnwind => 10 | .brkIgnored => 11
  | .bpHit => 12

/-- A context counter rises by 1 (R317). -/
def State.ctxCount (s : State) (x : Nat) (c : CtxCounter) : State :=
  let k := s.ctx x
  s.setCtx x { k with counters := Tbl.set k.counters (ctrIdx c) (satAdd (Tbl.getD k.counters (ctrIdx c) 0) 1) }

/-- A free choice among a current value and older ones (log 8): a number of the sequence is used for each older value. -/
def State.choose {α : Type} (s : State) (cur : α) (olds : List α) : State × α :=
  match olds with
  | [] => (s, cur)
  | o :: r => ({ s with fresh := s.fresh + 1 }.choose (if Config.freeBit s.fresh then o else cur) r)

/-- R202: the tier offset. -/
def tierOff (pa : Nat) : Nat := pa % 2 ^ 41

/-- R202: the bytes are backed. -/
def backed (pa n : Nat) : Bool := pa < 2 ^ 42 && tierOff pa + n ≤ 0x10C388D0000

/-- R202: the base die (0 to 11 near, 12 to 23 far) of an address. -/
def baseOf (pa : Nat) : Nat := pa / 2 ^ 41 % 2 * 12 + tierOff pa / 4096 % 12

/-- R202: the offset within the stack. -/
def stackOff (pa : Nat) : Nat := tierOff pa / 4096 / 12 * 4096 + pa % 4096

def channelOf (pa : Nat) : Nat := stackOff pa / 128 % 32

/-- R365, R366: the base-die bit of READY for an address is set. -/
def State.memReady (s : State) (pa : Nat) : Bool := s.ready.getLsbD (40 + baseOf pa)

/-- R219: the channel of an address is offline. -/
def State.offline (s : State) (pa : Nat) : Bool := (s.base (baseOf pa)).offline.contains (channelOf pa)

/-- A 32-bit word of device memory. -/
def State.memWord (s : State) (wa : Nat) : Word := BitVec.ofNat 32 (s.mem.nat (4 * wa) 4)

/-- R74, R101, R210: the words that a write changes, with the value before. -/
def State.histOf (s t : State) (sec : Nat) : List (Nat × Nat × Word) :=
  (List.range 8).filterMap fun k =>
    let wa := 8 * sec + k
    if s.memWord wa = t.memWord wa then none else some (wa, s.clock, s.memWord wa)

/-! ### What agents see (R224 to R232) -/

/-- The core of an agent. -/
def Who.core (w : Who) : Nat :=
  match w with
  | .slice c _ _ _ | .thread c _ | .tag c _ _ | .before c _ _ _ | .after c _ _ _ | .obj c _ | .seq c | .gang c _ _
  | .block c _ => c

/-- The slot of an agent's block. -/
def Who.slot (w : Who) : Nat :=
  match w with
  | .slice _ b _ _ | .thread _ b | .tag _ b _ | .before _ b _ _ | .after _ b _ _ | .obj _ b | .gang _ b _ | .block _ b => b
  | .seq _ => 0

/-- The agent is a slice of a gang. -/
def Who.ofGang (core slot gang : Nat) (w : Who) : Bool :=
  match w with
  | .slice c b g _ | .gang c b g => c == core && b == slot && g == gang
  | .block c b => c == core && b == slot
  | _ => false

/-- `x` is agent `w`, or all of the gang or the block that `w` belongs to. -/
def Who.covers (x w : Who) : Bool :=
  match x with
  | .gang c b g => w.ofGang c b g
  | .block c b => w.core == c && w.slot == b
  | _ => x == w

/-- The agent belongs to a block: its slices, its thread, and what engines have released at its objects. -/
def Who.ofBlock (core slot : Nat) (w : Who) : Bool :=
  match w with
  | .slice c b _ _ | .thread c b | .obj c b | .gang c b _ | .block c b => c == core && b == slot
  | _ => false

/-- The agents of some slices of a gang. -/
def groupWho (core slot gang : Nat) (m : BitVec 8) : List Who :=
  (List.range 8).filterMap fun j => if m.getLsbD j then some (.slice core slot gang j) else none

/-- R21: two agents lie in the same instance of a scope; a thread's SLICE and GANG hold the thread alone. -/
def within (scope : BitVec 3) (a b : Who) : Bool :=
  match scope.toNat with
  | 0 => a == b
  | 1 =>
    match a with
    | .slice c s g _ => b.ofGang c s g
    | _ => a == b
  | 2 => a.core == b.core && a.slot == b.slot
  | 3 => clusterOf a.core == clusterOf b.core
  | 4 => isleOf a.core == isleOf b.core
  | _ => true

/-- The write that replaced a former state happens before agent `w`. -/
def Old.has (o : Old) (w : Who) : Bool := o.seen.any (·.covers w)

/-- The writes that happen before the agents of `p`, by the clocks at which they replaced what stood before. -/
def State.viewOf (s : State) (p : Who → Bool) : List Nat := (s.olds.filter fun o => o.seen.any p).map (·.till)

/-- The writes of the view happen before the agents `ws`. -/
def State.see (s : State) (ws : List Who) (v : List Nat) : State :=
  { s with
    olds := s.olds.map fun o =>
      if v.contains o.till then { o with seen := (ws.filter fun w => !o.has w) ++ o.seen } else o }

/-- The writes to a sector before clock `n` happen before the agents `ws`: they have read or written it so (R231). -/
def State.seeUpto (s : State) (ws : List Who) (sec n : Nat) : State :=
  s.see ws ((s.olds.filter fun o => o.sec == sec && o.till < n).map (·.till))

/-- What happens before the agents of `p` happens before `ws` (R229). -/
def State.join (s : State) (ws : List Who) (p : Who → Bool) : State := s.see ws (s.viewOf p)

/-- R229: what happens before any agent of a block happens before `ws`. DESIGN CHOICE, log 5: the actions at mailboxes, barriers
and wheels of a block are not told apart. -/
def State.meetBlock (s : State) (core slot : Nat) (ws : List Who) : State := s.join ws (Who.ofBlock core slot)

/-- R229, R224: every write so far happens before the agents `ws` of a block or gang that is dispatched or restored. DESIGN
CHOICE, log 5. -/
def State.newcomer (s : State) (ws : List Who) : State :=
  { s.see ws (s.olds.map (·.till)) with
    tails := s.tails.filter fun t => !ws.any (·.covers t.1)
    fenced := s.fenced.filter fun t => !ws.any (·.covers t.1) }

/-- A state of a sector that a read may find: its bytes, stamp and poison, the writes before clock `upto`, and the releases that
it carries. -/
structure Version where
  bytes : List Byte
  stamp : Stamp
  bad : Bool
  upto : Nat
  heads : List Head
  deriving DecidableEq, Repr

/-- The releases carried by bytes of a sector. -/
def headsIn (l : List Head) (sec : Nat) : List Head := l.filter fun h => h.bytes.any fun a => a / 32 == sec

/-- A sector as its home holds it. -/
def State.current (s : State) (sec : Nat) : Version :=
  ⟨s.mem.bytesAt (32 * sec) 32, s.mem.stamp sec, s.mem.bad sec || s.offline (32 * sec), s.clock, headsIn s.heads sec⟩

/-- R231, R232: a sector as agent `w` finds it, now or as it stood before a write that does not happen before `w`; a free
choice (log 8). DESIGN CHOICE, log 5: the sector is the unit. -/
def State.versionFor (s : State) (w : Who) (sec : Nat) : State × Version :=
  s.choose (s.current sec) ((s.olds.filter fun o => o.sec == sec && !o.has w).map fun o =>
    ⟨o.bytes, o.stamp, o.bad || s.offline (32 * sec), o.till, o.heads⟩)

/-- R228: the releases that a read of `n` bytes observes, for an acquire at the read or after it. -/
def State.observe (s : State) (w : Who) (hs : List Head) (a n : Nat) : State :=
  let l := hs.filter fun h => (h.bytes.any fun x => a ≤ x && x < a + n) &&
    s.olds.any fun o => h.rel.view.contains o.till && !o.has w
  { s with tails := l.map (fun h => (w, h.rel)) ++ s.tails }

/-- R228: an acquire of `ws` at a scope synchronises with the releases that the reads of `p` have observed. -/
def State.sync (s : State) (ws : List Who) (p : Who → Bool) (scope : BitVec 3) : State :=
  s.tails.foldl (fun s t =>
    if p t.1 then s.see (ws.filter fun w => within scope t.2.agent w && within t.2.scope t.2.agent w) t.2.view else s) s

/-- R236, R238: the acquire of an engine command at a scope, by the agents `by'` that issued it: what the reads of `p` have observed
happens before the transfers `w`. -/
def State.engineSync (s : State) (w : Who) (by' : List Who) (p : Who → Bool) (scope : BitVec 3) : State :=
  s.tails.foldl (fun s t =>
    if p t.1 && by'.any fun x => within scope t.2.agent x && within t.2.scope t.2.agent x then s.see [w] t.2.view else s) s

/-- What an agent's earlier events have put before it is forgotten: the agent begins anew. -/
def State.forget (s : State) (w : Who) : State :=
  { s with olds := s.olds.map fun o => { o with seen := o.seen.filter (· != w) } }

/-- The heads that stand under agent `w` as a placeholder become the release of `by'` at a scope of all that happens before `w`
(R236: the release follows the last of the writes). -/
def State.headsOf (s : State) (w by' : Who) (scope : BitVec 3) : State :=
  let r : Release := ⟨scope, by', s.viewOf (·.covers w)⟩
  { s with heads := s.heads.map fun h => if h.rel.agent = w then { h with rel := r } else h }

/-- The reads `f` of an access, an acquire by `ws` at `acq` if it is one: that synchronises with what they observe alone. -/
def State.acquiring {α : Type} (s : State) (ws : List Who) (acq : Option (BitVec 3)) (f : State → State × α) : State × α :=
  let (t, x) := f { s with tails := [] }
  let t := match acq with
    | some scope => t.sync ws (fun _ => true) scope
    | none => t
  ({ t with tails := t.tails ++ s.tails }, x)

/-- R225, R227: the releases that writes of `ws` head: their own, by an agent at a scope, of what happens before the agents of
`p`, and those of fences before. -/
def State.releases (s : State) (ws : List Who) (own : Option (BitVec 3)) (p : Who → Bool) : List Release :=
  (match own, ws with
    | some scope, w :: _ => [⟨scope, w, s.viewOf p⟩]
    | _, _ => []) ++ (s.fenced.filter fun f => ws.contains f.1).map (·.2)

/-- The heads of sequences after a write of some bytes (R227): releases that put nothing in order are left out. -/
def newHeads (rels : List Release) (bytes : List Nat) : List Head :=
  (rels.filter fun r => !r.view.isEmpty).map fun r => ⟨bytes, r⟩

/-- R244: a write that is no RMW ends the sequences at its bytes. -/
def cutHeads (l : List Head) (bytes : List Nat) : List Head :=
  (l.map fun h => { h with bytes := h.bytes.filter fun a => !bytes.contains a }).filter fun h => !h.bytes.isEmpty

/-- The heads after a write to `bytes`: an RMW goes on with the sequences there. -/
def State.rehead (s : State) (rels : List Release) (rmw : Bool) (bytes : List Nat) : State :=
  { s with heads := newHeads rels bytes ++ (if rmw then s.heads else cutHeads s.heads bytes) }

/-- R228: a fence of the slices or thread `ws`, of the gang or thread `p`, at a scope: acquire and release (R225: it comes after
every event of the gang). -/
def State.fence (s : State) (ws : List Who) (p : Who → Bool) (scope : BitVec 3) : State :=
  let s := s.sync ws p scope
  let v := s.viewOf p
  { s with
    fenced := (if v.isEmpty then [] else ws.map fun w => (w, ⟨scope, w, v⟩)) ++
      s.fenced.filter fun f => !(ws.contains f.1 && f.2.scope == scope) }

/-- R242: a release at SYSTEM scope by the agents of `p`: the aperture no longer shows what their writes have replaced. -/
def State.system (s : State) (p : Who → Bool) (scope : BitVec 3) : State :=
  if scope = 7 then { s with olds := s.olds.map fun o => if o.seen.any p then { o with sys := true } else o } else s

/-- The place in the order of locations of a byte of a block's scratchpad, beyond device memory. -/
def spLoc (core slot off : Nat) : Nat := 2 ^ 42 + (core * 16 + slot) * 2 ^ 24 + off

/-! ### Device memory at its home -/

/-- Every agent sees a sector as its home holds it. -/
def State.settle (s : State) (sec : Nat) : State := { s with olds := s.olds.filter fun o => o.sec != sec }

/-- A sector becomes poisoned at its home. -/
def State.poisonSec (s : State) (sec : Nat) : State := { s.settle sec with mem := s.mem.setBad sec true }

/-- R217, R219: the home takes a write to a sector. -/
def State.lands (s : State) (sec : Nat) (l : List (Nat × Byte)) : Bool :=
  !s.offline (32 * sec) && !(s.mem.bad sec && !coversSector l sec)

/-- The writes to one sector of device memory performed at its home in one atomic step (R184, R217, R219, R224), for every agent
at once. -/
def State.homePut (s : State) (now : Stamp) (sec : Nat) (l : List (Nat × Byte)) (r : StampRule) : State :=
  if s.offline (32 * sec) then s.count (baseCtr (baseOf (32 * sec)) 6) 1
  else if s.mem.bad sec && !coversSector l sec then s.count (baseCtr (baseOf (32 * sec)) 7) 1
  else
    let t := { s with mem := s.mem.putSector now sec l r }
    { t with
      hist := s.histOf t sec ++ s.hist
      olds := (s.settle sec).olds
      heads := cutHeads s.heads (l.map (·.1))
      clock := s.clock + 1 }

/-- The state of a sector that a write of `ws` now replaces. -/
def State.oldOf (s : State) (ws : List Who) (sec : Nat) : Old :=
  ⟨sec, s.clock, s.mem.bytesAt (32 * sec) 32, s.mem.stamp sec, s.mem.bad sec, ws, headsIn s.heads sec, false⟩

/-- The same writes by the agents `ws`, heading the releases `rels`: other agents may go on to read what stood there (R231). -/
def State.homeWrite (s : State) (ws : List Who) (rels : List Release) (rmw : Bool) (now : Stamp) (sec : Nat)
    (l : List (Nat × Byte)) (r : StampRule) : State :=
  if s.lands sec l then
    { s.homePut now sec l r with
      olds := s.oldOf ws sec :: (s.seeUpto ws sec s.clock).olds
      heads := (s.rehead rels rmw (l.map (·.1))).heads }
  else s.homePut now sec l r

/-- A sector set whole: data, stamp and poison (R193, R277). -/
def State.homeSet (s : State) (sec : Nat) (data : List Byte) (st : Stamp) (bad : Bool) : State :=
  if s.offline (32 * sec) then s.count (baseCtr (baseOf (32 * sec)) 6) 1
  else
    let t := { s with mem := ((s.mem.setBytes (32 * sec) data).setStamp sec st).setBad sec bad }
    { t with hist := s.histOf t sec ++ s.hist, olds := (s.settle sec).olds, clock := s.clock + 1 }

/-- Poison of a sector as a read delivers it (R217, R219). -/
def State.homeBad (s : State) (sec : Nat) : Bool := s.mem.bad sec || s.offline (32 * sec)

/-- The value a word had just before `k` (R74, R101, R210): the oldest change not before `k`. -/
def wordBefore (h : List (Nat × Nat × Word)) (wa k : Nat) (cur : Word) : Word :=
  h.foldl (fun a e => if e.1 == wa && k ≤ e.2.1 then e.2.2 else a) cur

/-- The values that reads of `n` words from `wa` may still return beside the current one, when every change from `since`
on may be missed: whole states of the words, never a mixture (R74, R101). -/
def State.oldWords (s : State) (wa n since : Nat) : List (List Word) :=
  let ks := sortNat ((s.hist.filter fun e => wa ≤ e.1 && e.1 < wa + n && since ≤ e.2.1).map (·.2.1))
  ks.map fun k => (List.range n).map fun i => wordBefore s.hist (wa + i) k (s.memWord (wa + i))

/-- A read of a word that may return its current or an older value (R74, R101). -/
def State.staleWord (s : State) (pa since : Nat) : State × Word :=
  let wa := pa / 4
  s.choose (s.memWord wa) ((s.oldWords wa 1 since).map fun l => l.headD 0)

/-! ### Directory (R197 to R201) -/

/-- The 2 MiB region of an address. -/
def regionOf (pa : Nat) : Nat := pa / 2 ^ 21

/-- The sector of a held write. -/
def HeldPut.sec (h : HeldPut) : Nat :=
  match h with
  | .unit sec _ => sec
  | .line sec _ _ _ => sec

/-- A dirty stash line written to its home with stamps and poison (R175); a stack that is not ready holds the write (R366). -/
def State.homeLine (s : State) (l : StashLine) : State :=
  (List.range 4).foldl (fun s k =>
    let sec := l.pa / 32 + k
    let bytes := (l.bytes.drop (32 * k)).take 32
    let st := l.stamps.getD k ancient
    let bad := l.poison.getD k false
    if s.memReady (32 * sec) then s.homeSet sec bytes st bad
    else { s with heldPuts := s.heldPuts ++ [.line sec bytes st bad] }) s

/-- R198, R200: the isles chosen write back their dirty lines among the addresses `p`, and with `drop` lose the lines. -/
def State.copiesBack (s : State) (p : Nat → Bool) (isle : Nat → Bool) (drop : Bool) : State :=
  s.blocks.foldl (fun s e =>
    e.2.2.stash.foldl (fun s x =>
      if isle (isleOf e.1) && p x.2.pa then
        let s := if x.2.dirty then s.homeLine x.2 else s
        s.onBlock e.1 e.2.1 fun b =>
          { b with
            stash := if drop then Tbl.erase b.stash x.1
              else Tbl.set b.stash x.1 { x.2 with dirty := false, excl := false } }
      else s) s) s

/-- The same for a region. -/
def State.regionBack (s : State) (r : Nat) (isle : Nat → Bool) (drop : Bool) : State :=
  s.copiesBack (fun pa => regionOf pa == r) isle drop

/-- R200: the finely tracked region of earliest conversion is retired when 4,096 are tracked. -/
def State.fineRoom (s : State) : State :=
  if s.fine.length < 4096 then s
  else match s.fine with
    | [] => s
    | r :: rest =>
      let s := s.regionBack r (fun _ => true) true
      let x := s.region r
      ({ s with fine := rest }.setRegion r { x with st := 0, owner := none, sharers := [], excl := [] }).count
        (lagoonCtr 2) 1

/-- R198: the sole-access counter after a request of isle `i`. DESIGN CHOICE, log 6: requests to a region while it is
private count too. -/
def Region.solo (x : Region) (i : Nat) : Region :=
  if x.soleIsle = some i then { x with sole := x.sole + 1 } else { x with sole := 1, soleIsle := some i }

/-- R198: one request of isle `i` to the region of `pa`; `wr` for writes and atomics. -/
def State.dirRequest (s : State) (i pa : Nat) (wr : Bool) : State :=
  let r := regionOf pa
  let line := pa / 128
  let x := (s.region r).solo i
  if x.st ≠ 0 ∧ 65536 ≤ x.sole then
    { s.regionBack r (· != i) true with fine := s.fine.filter (· ≠ r) }.setRegion r
      { x with st := 0, owner := some i, sharers := [], excl := [], sole := 0, soleIsle := none }
  else match x.st with
    | 0 =>
      match x.owner with
      | none => s.setRegion r { x with owner := some i }
      | some j =>
        if j = i then s.setRegion r x
        else if wr then
          let s := (s.regionBack r (fun _ => true) true).fineRoom
          { s with fine := s.fine ++ [r] }.setRegion r
            { x with st := 2, owner := none, sharers := [], excl := [(line, i)] }
        else (s.regionBack r (· == j) false).setRegion r { x with st := 1, owner := none }
    | 1 =>
      if wr then
        let s := (s.regionBack r (fun _ => true) true).fineRoom
        { s with fine := s.fine ++ [r] }.setRegion r { x with st := 2, sharers := [], excl := [(line, i)] }
      else s.setRegion r x
    | _ =>
      let at' (pa : Nat) : Bool := pa / 128 == line
      if wr then
        (s.copiesBack at' (· != i) true).setRegion r
          { x with sharers := Tbl.erase x.sharers line, excl := Tbl.set x.excl line i }
      else
        let sh := Tbl.getD x.sharers line 0
        match Tbl.get? x.excl line with
        | some j =>
          if j = i then s.setRegion r x
          else (s.copiesBack at' (· == j) false).setRegion r
            { x with
              sharers := Tbl.set x.sharers line (sh ||| BitVec.ofNat 8 (2 ^ j) ||| BitVec.ofNat 8 (2 ^ i))
              excl := Tbl.erase x.excl line }
        | none => s.setRegion r { x with sharers := Tbl.set x.sharers line (sh ||| BitVec.ofNat 8 (2 ^ i)) }

/-- Whether isle `i` needs the directory for its access (R197): the owner of a private region, the exclusive holder and
a sharer that reads do not. -/
def State.dirNeeds (s : State) (i pa : Nat) (wr : Bool) : Bool :=
  let x := s.region (regionOf pa)
  match x.st with
  | 0 => x.owner != some i
  | 1 => true
  | _ => !(Tbl.get? x.excl (pa / 128) == some i || (!wr && (Tbl.getD x.sharers (pa / 128) 0).getLsbD i))

/-- An access of isle `i` with the request it sends, if it needs one (R197, R198). -/
def State.dirAccess (s : State) (i pa : Nat) (wr : Bool) : State :=
  if s.dirNeeds i pa wr then s.dirRequest i pa wr else s

/-- R201: where an atomic of isle `i` executes, and the counter C. DESIGN CHOICE, log 31: an atomic executed at home (C of 4 or
more) is no request that changes the region's state, and the owner of a private region does not count as holding the line
exclusively. -/
def State.dirAtomic (s : State) (i pa : Nat) : State :=
  let x := s.region (regionOf pa)
  if 4 ≤ x.c then
    let run := if x.lastAtom = some i then x.run + 1 else 0
    if 64 ≤ run then s.setRegion (regionOf pa) { x with run := 0, lastAtom := some i, c := x.c - 1 }
    else s.setRegion (regionOf pa) { x with run := run, lastAtom := some i }
  else
    let took := x.st = 2 ∧ (Tbl.get? x.excl (pa / 128)).isSome ∧ Tbl.get? x.excl (pa / 128) ≠ some i
    let s := s.dirAccess i pa true
    let x := s.region (regionOf pa)
    s.setRegion (regionOf pa) { x with c := if took then min 7 (x.c + 1) else x.c }

/-- R198: a host-aperture access restarts the sole-access counter of its region. -/
def State.dirHost (s : State) (pa : Nat) : State :=
  s.setRegion (regionOf pa) { s.region (regionOf pa) with sole := 0, soleIsle := none }

/-- R199: the line action before a host-aperture write. -/
def State.dirAperture (s : State) (pa : Nat) : State :=
  let x := s.region (regionOf pa)
  s.setRegion (regionOf pa)
    { x with sole := 0, soleIsle := none, sharers := Tbl.erase x.sharers (pa / 128), excl := Tbl.erase x.excl (pa / 128) }

/-! ### Stash lines (R173 to R175, R241) -/

/-- R174, R240: an access snoops the stash lines that hold `line` (a physical line number): a dirty line is written back;
a write drops the line. `own` is the block whose gang makes the access, if it is a gang's, and `key` the line of that block
through which it is made; an alias outside the stash passes by every line of its own block (R241). -/
def State.snoopBut (s : State) (own : Option (Nat × Nat)) (key : Option Nat) (line : Nat) (wr : Bool) : State :=
  s.blocks.foldl (fun s p =>
    p.2.2.stash.foldl (fun s e =>
      if e.2.pa = 128 * line && !(own == some (p.1, p.2.1) && (key == none || key == some e.1)) then
        let s := if e.2.dirty then s.homeLine e.2 else s
        s.onBlock p.1 p.2.1 fun b =>
          { b with
            stash := if wr then Tbl.erase b.stash e.1
              else Tbl.set b.stash e.1 { e.2 with dirty := false, excl := false } }
      else s) s) s

/-- The same for an access that is not made through a stash line. -/
def State.snoop (s : State) (own : Option (Nat × Nat)) (line : Nat) (wr : Bool) : State := s.snoopBut own none line wr

/-- The block that a core's access passes as its own: a thread is no gang of its block, and its accesses are snooped like
those of other agents (R174, R229). -/
def ownBlock (core slot gang : Nat) : Option (Nat × Nat) := if gang = 16 then none else some (core, slot)

/-! ### Device memory as an agent reaches it -/

/-- R194: a store of the core updates the L1 copy, if there is one. DESIGN CHOICE, log 5: the copy of the whole sector becomes that
of the home. -/
def State.l1Store (s : State) (core sec : Nat) : State :=
  let c := s.core core
  match Tbl.get? c.l1 (sec / 4) with
  | none => s
  | some x =>
    let k := sec % 4
    let v := s.current sec
    s.setCore core { c with
      l1 := Tbl.set c.l1 (sec / 4) { x with
        bytes := x.bytes.take (32 * k) ++ v.bytes ++ x.bytes.drop (32 * k + 32)
        stamps := setAt x.stamps k v.stamp
        poison := setAt x.poison k v.bad
        upto := setAt x.upto k v.upto } }

/-- The sectors of a line as agent `w` finds them; the one read already is given. -/
def State.pickLine (s : State) (w : Who) (line : Nat) (got : Nat × Version) : List Nat → State × List Version
  | [] => (s, [])
  | k :: r =>
    let (s, v) := if 4 * line + k = got.1 then (s, got.2) else s.versionFor w (4 * line + k)
    let (s, l) := s.pickLine w line got r
    (s, v :: l)

/-- A line of an L1 from its four sectors. -/
def lineFrom (vs : List Version) (slot gang : Nat) : L1Line :=
  { bytes := vs.flatMap (·.bytes), stamps := vs.map (·.stamp), poison := vs.map (·.bad), slot := slot, gang := gang
    upto := vs.map (·.upto) }

/-- A line of device memory as a stash takes it: as its home holds it. -/
def State.lineOf (s : State) (line slot gang : Nat) : L1Line :=
  lineFrom ((List.range 4).map fun k => s.current (4 * line + k)) slot gang

/-- A write that happens before `w` has come since a copy of a sector was taken. -/
def State.copyOld (s : State) (w : Who) (sec upto : Nat) : Bool :=
  s.olds.any fun o => o.sec == sec && upto ≤ o.till && o.has w

/-- The releases that a copy of a sector carries. -/
def State.headsAt (s : State) (sec upto : Nat) : List Head :=
  ((s.olds.filter fun o => o.sec == sec && upto ≤ o.till).getLast?).elim (headsIn s.heads sec) (·.heads)

/-- A line leaves an L1 (R193, R126). -/
def State.l1Drop (s : State) (core line : Nat) : State :=
  let c := s.core core
  match Tbl.get? c.l1 line with
  | some x => s.setCore core { c with l1 := Tbl.erase c.l1 line, victims := ((line, x.slot, x.gang) :: c.victims).take 256 }
  | none => s

/-- R14, R193, R375: the lines that a core's L1 holds. -/
def Core.l1Lines (c : Core) (control : Bool) : Nat := if control then 512 else 256 * (20 - min c.spsize.toNat 16)

/-- A line enters an L1; where the L1 is full another one leaves it, a free choice (log 6). -/
def State.l1Fill (s : State) (core line : Nat) (x : L1Line) : State :=
  let c := s.core core
  let s :=
    if (Tbl.get? c.l1 line).isSome || c.l1.length < c.l1Lines (isControl core) then s
    else match c.l1 with
      | [] => s
      | e :: r =>
        let (s, k) := s.choose e.1 (r.map (·.1))
        s.l1Drop core k
  s.setCore core { s.core core with l1 := Tbl.set (s.core core).l1 line x }

/-- R126: an L1 miss of a gang that hits the victim tag array adds to its loss count. -/
def State.l1Miss (s : State) (core slot gang line : Nat) : State :=
  if (s.core core).victims.any fun v => v.1 == line then s.onGang core slot gang fun g => { g with loss := g.loss + 1 }
  else s

/-- `n` bytes within one sector read by agent `w` of a core: from the L1 when `useL1` and the line is there, else from the home,
and the line is filled when `fill` (R193, R194, R204). A copy that `w` may no longer read does not serve it (R231), and a read
that passes the L1 by leaves no copy of the line there. -/
def State.readSector (s : State) (w : Who) (core slot gang : Nat) (pa n : Nat) (useL1 fill : Bool) :
    State × List Byte × Stamp × Bool :=
  let line := pa / 128
  let sec := pa / 32
  let k := sec % 4
  match (if useL1 then (Tbl.get? (s.core core).l1 line).filter fun x => !s.copyOld w sec (x.upto.getD k 0) else none) with
  | some x =>
    let upto := x.upto.getD k 0
    ((s.observe w (s.headsAt sec upto) pa n).seeUpto [w] sec upto, (x.bytes.drop (pa % 128)).take n, x.stamps.getD k ancient,
      x.poison.getD k false)
  | none =>
    let s := s.snoop (ownBlock core slot gang) line false
    let s := s.dirAccess (isleOf core) pa false
    let s := if useL1 then s.l1Miss core slot gang line
      else s.setCore core { s.core core with l1 := Tbl.erase (s.core core).l1 line }
    let (s, v) := s.versionFor w sec
    let s := (s.observe w v.heads pa n).seeUpto [w] sec v.upto
    let (s, vs) := if fill then s.pickLine w line (sec, v) [0, 1, 2, 3] else (s, [])
    let s := if fill then s.l1Fill core line (lineFrom vs slot gang) else s
    (s, (v.bytes.drop (pa % 32)).take n, v.stamp, v.bad)

/-- One sector's writes by the agents `ws` of a core (R184, R194, R231). -/
def State.writeSector (s : State) (ws : List Who) (rels : List Release) (core slot gang : Nat) (now : Stamp) (sec : Nat)
    (l : List (Nat × Byte)) (r : StampRule) : State :=
  let s := s.snoop (ownBlock core slot gang) (sec / 4) true
  let s := s.dirAccess (isleOf core) (32 * sec) true
  (s.homeWrite ws rels false now sec l r).l1Store core sec

/-- Writes of a device unit on its own behalf or of an engine (R277, R373), at the home. -/
def State.unitWrite (s : State) (now : Stamp) (pa : Nat) (l : List Byte) (r : StampRule) : State :=
  let ws := atAddr pa l
  (sectorsIn pa l.length).foldl (fun s i =>
    (s.snoop none (i / 4) true).homePut now i (ws.filter fun p => p.1 / 32 == i) r) s

/-- A write that was held is performed (R366). -/
def State.putHeld (s : State) (h : HeldPut) : State :=
  match h with
  | .unit sec l => (s.snoop none (sec / 4) true).homePut ageless sec l (.normal ageless)
  | .line sec bytes st bad => s.homeSet sec bytes st bad

/-- R366: the writes held for base die `d` are performed, oldest first. -/
def State.releaseHeld (s : State) (d : Nat) : State :=
  (s.heldPuts.filter fun h => baseOf (32 * h.sec) == d).foldl State.putHeld
    { s with heldPuts := s.heldPuts.filter fun h => baseOf (32 * h.sec) != d }

/-- R194: the L1's lines dropped by an acquire at QUAD scope or wider. -/
def State.l1Flush (s : State) (core : Nat) : State := s.setCore core { s.core core with l1 := [] }

/-- R194, R234: what an acquire or a fence at a scope does to the L1. -/
def State.acquireL1 (s : State) (core : Nat) (scope : BitVec 3) : State :=
  if 3 ≤ scope.toNat then s.l1Flush core else s

/-! ### Acknowledgements (R37, R233) -/

/-- The class of a scope: 1 CORE, 2 DIE, 3 PACKAGE, 4 SYSTEM. -/
def classOf (scope : BitVec 3) : Nat :=
  match scope.toNat with
  | 0 | 1 | 2 => 1
  | 3 | 4 => 2
  | 5 => 3
  | _ => 4

/-- Every outstanding write has been acknowledged for the class of the scope. -/
def ackedFor (l : List (Nat × Nat)) (scope : BitVec 3) : Bool := l.all fun p => classOf scope ≤ p.2

/-- The counter of a class (R233): the writes not yet acknowledged for it. -/
def ackCount (l : List (Nat × Nat)) (cls : Nat) : Nat := (l.filter fun p => p.2 < cls).length

/-- The number of a class. -/
def ackNum (c : AckClass) : Nat :=
  match c with
  | .core => 1
  | .die => 2
  | .package => 3
  | .system => 4

/-- An acknowledgement of entry `n` for a class and every narrower one (R233). -/
def ackList (l : List (Nat × Nat)) (n cls : Nat) : List (Nat × Nat) :=
  match l, n with
  | [], _ => []
  | p :: r, 0 => if 4 ≤ max p.2 cls then r else (p.1, max p.2 cls) :: r
  | p :: r, k + 1 => p :: ackList r k cls

end Sys2Proof.Machine
end

