-- ==== Sys2Proof/Machine/Translate.lean ====
section
/-! DEFINITION. Translation (R207 to R212), and global bytes as a block reaches them: through its stash (R173 to R175),
the L1 of its core, or the home. -/

namespace Sys2Proof.Machine

/-- What a translation gives. -/
inductive Trans where
  | ok (pa : Nat)
  | fault (detail : Nat)
  /-- The leaf has TIER MIGRATE: the access is held (R212). -/
  | migrate
  /-- A base die on the way has not set its bit in READY: the access waits (R365). -/
  | wait
  deriving DecidableEq, Repr

/-- R210: the changes that no completed shootdown covers begin here. -/
def State.lastShot (s : State) (ctx va : Nat) : Nat :=
  s.shots.foldl (fun a e =>
    if e.1 = ctx && (match e.2.2.1 with
      | none => true
      | some k => va / 2 ^ k == e.2.1.toNat / 2 ^ k) then max a e.2.2.2 else a) 0

/-- R208: the address bits 41:8 of an entry. -/
def pteAddr (e : DWord) : Nat := e.toNat / 256 % 2 ^ 34 * 256

def pteTier (e : DWord) : BitVec 2 := e.extractLsb' 60 2
def pteLeaf (e : DWord) : Bool := e.getLsbD 62
def pteWr (e : DWord) : Bool := e.getLsbD 59

/-- R207: log2 of the page that a leaf of a level maps. -/
def pageLog (level : Nat) : Nat :=
  match level with
  | 0 => 16 | 1 => 21 | 2 => 26 | 3 => 32 | _ => 46

/-- R207: log2 of the size and alignment of a level's table. -/
def tableLog (level : Nat) : Nat :=
  match level with
  | 0 => 8 | 1 => 8 | 2 => 9 | 3 => 17 | _ => 14

/-- R207: the index of a virtual address at a level. -/
def tableIdx (level va : Nat) : Nat := va / 2 ^ pageLog level % 2 ^ (tableLog level - 3)

/-- R209: the first case an entry meets at a level. Details 0 to 4 are V clear at that level. -/
def pteFault (level : Nat) (e : DWord) : Option Nat :=
  if !e.getLsbD 63 then some level
  else if e.extractLsb' 42 17 ≠ 0 ∨ e.extractLsb' 0 8 ≠ 0 ∨ pteTier e = 3 ∨
      (pteLeaf e = false ∧ (pteTier e ≠ 0 ∨ pteWr e)) then some 8
  else if pteLeaf e then
    if level = 4 ∨ pteAddr e % 2 ^ pageLog level ≠ 0 ∨ (pteTier e == 0) = bitAt (pteAddr e) 41 ∨
        (pteTier e = 2 ∧ 2 ≤ level) then some 0xB else none
  else if level = 0 ∨ pteAddr e % 2 ^ tableLog (level - 1) ≠ 0 then some 0xB else none

/-- R209, R210: one entry as a walk may see it, its current or an older value; none when the read met poison. The walker
reads coherently, and a stash line that holds the entry dirty is written back first. -/
def State.readPte (s : State) (pa since : Nat) : State × Option DWord :=
  let s := s.snoop none (pa / 128) false
  if s.homeBad (pa / 32) then (s, none)
  else
    let wa := pa / 4
    let (s, l) := s.choose [s.memWord wa, s.memWord (wa + 1)] (s.oldWords wa 2 since)
    (s, some ((l.getD 1 0) ++ (l.getD 0 0)))

/-- What a walk ends in. -/
inductive Walk where
  | leaf (e : DWord) (level : Nat) (pte : Nat)
  | fault (detail : Nat)
  | wait
  deriving DecidableEq, Repr

/-- R207 to R209: the walk from the table of a level down. DESIGN CHOICE, log 31: a table address that nothing backs gives the
detail 0xA of an unbacked access. -/
def State.walk (s : State) (va since table : Nat) (level : Nat) : State × Walk :=
  let pa := table + 8 * tableIdx level va
  if !backed pa 8 then (s, .fault 0xA)
  else if !s.memReady pa then (s, .wait)
  else
    let (s, r) := s.readPte pa since
    match r with
    | none => (s, .fault 0xD)
    | some e =>
      match pteFault level e with
      | some d => (s, .fault d)
      | none =>
        if pteLeaf e then (s, .leaf e level pa)
        else match level with
          | 0 => (s, .fault 0xB)
          | l + 1 => s.walk va since (pteAddr e) l

/-- R165: bits 63:57 of an address all equal bit 56. -/
def canonical (va : DWord) : Bool := va.extractLsb' 56 8 == 0 || va.extractLsb' 56 8 == 0xFF

/-- The 57 bits that a walk indexes. -/
def vaBits (va : DWord) : Nat := va.toNat % 2 ^ 57

/-- The base-die bits of READY that a walk from a context's root meets; the physical address of the root (R207, R317). -/
def State.rootOf (s : State) (ctx : Nat) : Nat := (s.ctx ctx).root.toNat * 2 ^ 14

/-- R210, R223: a miss begins a walk, or shares the walk of its 2 MiB region. DESIGN CHOICE, log 6: the misses of one cycle
are outstanding together. -/
def State.walkBegun (s : State) (ctx va : Nat) : State :=
  if s.walks.contains (ctx, va / 2 ^ 21) then s.count (lagoonCtr 11) 1
  else { s with walks := (ctx, va / 2 ^ 21) :: s.walks }.count (lagoonCtr 10) 1

/-- A word of code or of the constant bank as an isle reads it (R74, R101, R198): current, or as old as `since`. -/
def State.codeWord (s : State) (core pa since : Nat) : State × Word :=
  ((s.snoop none (pa / 128) false).dirAccess (isleOf core) pa false).staleWord pa since

/-- R210: a translation through a page; the miss where no TLB of the core holds it. -/
def State.tlbTouch (s : State) (core ctx va level : Nat) : State :=
  let c := s.core core
  if c.tlb.any fun e => e.1 == ctx && va / 2 ^ e.2.2 == e.2.1 then s
  else (s.setCore core { c with tlb := (ctx, va / 2 ^ pageLog level, pageLog level) :: c.tlb }).walkBegun ctx va

/-- R209: translation of an access of a core to `n` bytes at `va`. DESIGN CHOICE, log 31: where they meet in one access, WR 0
comes before MIGRATE and MIGRATE before an address that nothing backs. -/
def State.translate (s : State) (core ctx : Nat) (va : DWord) (wr : Bool) (n : Nat) : State × Trans :=
  if !canonical va then (s, .fault 0xC)
  else
    let v := vaBits va
    let (s, w) := s.walk v (s.lastShot ctx v) (s.rootOf ctx) 4
    match w with
    | .wait => (s, .wait)
    | .fault d => (s.walkBegun ctx v, .fault d)
    | .leaf e level _ =>
      let s := s.tlbTouch core ctx v level
      let pa := pteAddr e + v % 2 ^ pageLog level
      if wr && !pteWr e then (s, .fault 9)
      else if pteTier e = 2 then (s, .migrate)
      else if !backed pa n then (s, .fault 0xA)
      else if !s.memReady pa then (s, .wait)
      else (s, .ok pa)

/-- What stops an access beyond its alignment and bounds. -/
inductive Stop where
  | fault (detail : Nat)
  | migrate
  | wait
  deriving DecidableEq, Repr

/-- Data of one sector as an access reads it: bytes, stamp, poison. -/
structure Got where
  bytes : List Byte
  stamp : Stamp
  bad : Bool
  deriving DecidableEq, Repr

/-- R173: the stash-mapped operand of a block that covers an address: its index. -/
def Block.stashMap? (b : Block) (va : DWord) : Option (Nat × Nat × BitVec 4) :=
  if b.shape.stash = 0 then none
  else b.maps.find? fun m => m.1 ≤ vaBits va && vaBits va < m.1 + m.2.1

/-- The least recently used line of a stash. -/
def lruLine (l : Tbl StashLine) : Option (Nat × StashLine) :=
  match l with
  | [] => none
  | e :: r => match lruLine r with
    | none => some e
    | some f => if f.2.used < e.2.used then some f else some e

/-- A line that stays after a write-back, as its home now holds it: a write of the block through an alias stands in it
(R241). A home that has not taken the write (R219, R366) leaves it as it is. -/
def State.stashAgain (s : State) (l : StashLine) : StashLine :=
  if s.offline l.pa || !s.memReady l.pa then { l with dirty := false }
  else
    let x := s.lineOf (l.pa / 128) 0 0
    { l with bytes := x.bytes, stamps := x.stamps, poison := x.poison, dirty := false }

/-- R175: a dirty line is written back, as a write of the gang that causes it; `gang` 16 is the block itself. -/
def State.stashBack (s : State) (core slot gang key : Nat) : State :=
  let stay (s : State) (l : StashLine) : State :=
    s.onBlock core slot fun b => { b with stash := Tbl.set b.stash key (s.stashAgain l) }
  match (s.block? core slot).bind fun b => Tbl.get? b.stash key with
  | some l =>
    if l.dirty then
      (stay ((s.snoopBut (some (core, slot)) (some key) (l.pa / 128) true).homeLine l) l).onGang core slot gang fun g =>
        { g with outst := g.outst ++ [(0, 0)] }
    else stay s l
  | none => s

/-- A stash line written back if dirty and dropped. -/
def State.stashDrop (s : State) (core slot gang key : Nat) : State :=
  (s.stashBack core slot gang key).onBlock core slot fun b => { b with stash := Tbl.erase b.stash key }

/-- R175: every dirty line written back, as a release at DIE scope or wider causes. -/
def State.stashBackAll (s : State) (core slot gang : Nat) : State :=
  match s.block? core slot with
  | some b => b.stash.foldl (fun s e => s.stashBack core slot gang e.1) s
  | none => s

/-- R174: room for one more line. -/
def State.stashRoom (s : State) (core slot gang : Nat) : State :=
  match s.block? core slot with
  | some b =>
    if b.stash.length * 128 < b.shape.stash then s
    else match lruLine b.stash with
      | some e => s.stashDrop core slot gang e.1
      | none => s
  | none => s

/-- R174: the line of a mapped address, filled on a miss with what its home holds; `wr` takes it exclusive on the first write. -/
def State.stashLine (s : State) (core slot gang ctx : Nat) (va : DWord) (wr : Bool) :
    State × Except Stop StashLine :=
  let key := vaBits va / 128
  let line := va &&& ~~~(127 : DWord)
  match (s.block? core slot).bind fun b => Tbl.get? b.stash key with
  | some l =>
    if wr && !l.excl then
      match s.translate core ctx line true 128 with
      | (s, .ok _) =>
        let s := (s.snoopBut (some (core, slot)) (some key) (l.pa / 128) true).dirAccess (isleOf core) l.pa true
        (s, .ok { l with excl := true, used := s.clock })
      | (s, .fault d) => (s, .error (.fault d))
      | (s, .migrate) => (s, .error .migrate)
      | (s, .wait) => (s, .error .wait)
    else (s, .ok { l with used := s.clock })
  | none =>
    match s.translate core ctx line wr 128 with
    | (s, .ok pa) =>
      let s := s.stashRoom core slot gang
      let s := (s.snoopBut (some (core, slot)) (some key) (pa / 128) wr).dirAccess (isleOf core) pa wr
      let s := [0, 1, 2, 3].foldl (fun (s : State) k => s.seeUpto [.block core slot] (pa / 32 + k) s.clock) s
      let x := s.lineOf (pa / 128) slot gang
      let l : StashLine :=
        { pa := pa, bytes := x.bytes, stamps := x.stamps, poison := x.poison, dirty := false, excl := wr
          used := s.clock }
      ({ s with clock := s.clock + 1 }.onBlock core slot fun b => { b with stash := Tbl.set b.stash key l }, .ok l)
    | (s, .fault d) => (s, .error (.fault d))
    | (s, .migrate) => (s, .error .migrate)
    | (s, .wait) => (s, .error .wait)

/-- Store of a changed stash line; the clock orders the uses (R174: least recently used). A dirty line leaves no copy in the
L1, which a thread of the block would read (R229). -/
def State.putLine (s : State) (core slot : Nat) (va : DWord) (l : StashLine) : State :=
  let s := { s with clock := s.clock + 1 }.onBlock core slot fun b => { b with stash := Tbl.set b.stash (vaBits va / 128) l }
  if l.dirty then s.setCore core { s.core core with l1 := Tbl.erase (s.core core).l1 (l.pa / 128) } else s

/-- Data of a stash line at an address. -/
def StashLine.got (l : StashLine) (va : DWord) (n : Nat) : Got :=
  { bytes := (l.bytes.drop (va.toNat % 128)).take n, stamp := l.stamps.getD (va.toNat / 32 % 4) ancient
    bad := l.poison.getD (va.toNat / 32 % 4) false }

/-- One sector's write to a stash line: a partial write to a poisoned sector changes nothing (R217). -/
def StashLine.put (l : StashLine) (now : Stamp) (w : List (Nat × Byte)) (sec : Nat) (r : StampRule) : StashLine :=
  let k := sec % 4
  let full := coversSector w sec
  if l.poison.getD k false && !full then { l with dirty := true }
  else
    { l with
      bytes := w.foldl (fun bs p => setAt bs (p.1 % 128) p.2) l.bytes
      stamps := setAt l.stamps k (r.apply now (l.stamps.getD k ancient) full)
      poison := setAt l.poison k false
      dirty := true }

/-- The physical address of the byte of a line at a virtual address. -/
def StashLine.at' (l : StashLine) (va : Nat) : Nat := l.pa + va % 128

/-- R217: a write to a sector of a stash line, heading the releases `rels` (R227); one that leaves a poisoned sector as it is is
counted at its base die. -/
def State.stashPut (s : State) (rels : List Release) (core slot : Nat) (va : DWord) (l : StashLine) (now : Stamp)
    (w : List (Nat × Byte)) (sec : Nat) (r : StampRule) : State :=
  let s := (s.rehead rels false (w.map fun p => l.at' p.1)).putLine core slot va (l.put now w sec r)
  if l.poison.getD (sec % 4) false && !coversSector w sec then s.count (baseCtr (baseOf l.pa) 7) 1 else s

/-- A read of `n` bytes within one sector of global memory by agent `w` of a block: from the stash where the address is
mapped (`stash`), from the L1 when `useL1`, else from the home. -/
def State.globalRead (s : State) (w : Who) (core slot gang ctx : Nat) (va : DWord) (n : Nat) (stash useL1 fill : Bool) :
    State × Except Stop Got :=
  match (if stash then (s.block? core slot).bind fun b => b.stashMap? va else none) with
  | some _ =>
    match s.stashLine core slot gang ctx va false with
    | (s, .ok l) => ((s.observe w s.heads (l.at' va.toNat) n).putLine core slot va l, .ok (l.got va n))
    | (s, .error e) => (s, .error e)
  | none =>
    match s.translate core ctx va false n with
    | (s, .ok pa) =>
      let (s, bytes, st, bad) := s.readSector w core slot gang pa n useL1 fill
      (s, .ok ⟨bytes, st, bad⟩)
    | (s, .fault d) => (s, .error (.fault d))
    | (s, .migrate) => (s, .error .migrate)
    | (s, .wait) => (s, .error .wait)

/-- The writes of one instruction by the agents `ws` to one sector of global memory, keyed by virtual address, heading the
releases `rels`. -/
def State.globalWrite (s : State) (ws : List Who) (rels : List Release) (core slot gang ctx : Nat) (now : Stamp) (sec : Nat) (w : List (Nat × Byte))
    (r : StampRule) (stash : Bool) : State × Except Stop Unit :=
  let va : DWord := BitVec.ofNat 64 (32 * sec)
  match (if stash then (s.block? core slot).bind fun b => b.stashMap? va else none) with
  | some _ =>
    match s.stashLine core slot gang ctx va true with
    | (s, .ok l) => (s.stashPut rels core slot va l now w sec r, .ok ())
    | (s, .error e) => (s, .error e)
  | none =>
    match s.translate core ctx va true 32 with
    | (s, .ok pa) =>
      (s.writeSector ws rels core slot gang now (pa / 32) (w.map fun p => (pa + p.1 % 32, p.2)) r, .ok ())
    | (s, .fault d) => (s, .error (.fault d))
    | (s, .migrate) => (s, .error .migrate)
    | (s, .wait) => (s, .error .wait)

/-- Whether a write to a sector would be stopped, without writing: the same tests as `globalWrite`. -/
def State.globalTest (s : State) (core slot gang ctx : Nat) (va : DWord) (wr : Bool) (n : Nat) (stash : Bool) :
    State × Except Stop Unit :=
  match (if stash then (s.block? core slot).bind fun b => b.stashMap? va else none) with
  | some _ =>
    match s.stashLine core slot gang ctx va wr with
    | (s, .ok l) => (s.putLine core slot va l, .ok ())
    | (s, .error e) => (s, .error e)
  | none =>
    match s.translate core ctx va wr n with
    | (s, .ok _) => (s, .ok ())
    | (s, .fault d) => (s, .error (.fault d))
    | (s, .migrate) => (s, .error .migrate)
    | (s, .wait) => (s, .error .wait)

/-- One atomic step of agent `w` on global memory (R185, R97, R194, R201, R226): the sector is read as it is, `f` gives the bytes
to write (none: a failed CAS) and the stamp rule; the write heads the releases `rels` and goes on with those it finds (R227). -/
def State.globalAtomic (s : State) (w : Who) (rels : List Release) (core slot gang ctx : Nat) (now : Stamp) (va : DWord) (n : Nat) (stash : Bool)
    (f : List Byte → Option (List Byte × StampRule)) : State × Except Stop Got :=
  match (if stash then (s.block? core slot).bind fun b => b.stashMap? va else none) with
  | some _ =>
    match s.stashLine core slot gang ctx va true with
    | (s, .ok l) =>
      let g := l.got va n
      let a := l.at' va.toNat
      let s := s.observe w s.heads a n
      if g.bad then (s.putLine core slot va l, .ok g)
      else match f g.bytes with
        | some (bs, r) => ((s.rehead rels true ((List.range n).map (a + ·))).putLine core slot va (l.put now (atAddr (vaBits va) bs) (vaBits va / 32) r), .ok g)
        | none => (s.putLine core slot va l, .ok g)
    | (s, .error e) => (s, .error e)
  | none =>
    match s.translate core ctx va true n with
    | (s, .ok pa) =>
      let s := (s.snoop (ownBlock core slot gang) (pa / 128) true).dirAtomic (isleOf core) pa
      let s := s.setCore core { s.core core with l1 := Tbl.erase (s.core core).l1 (pa / 128) }
      let s := (s.observe w s.heads pa n).seeUpto [w] (pa / 32) s.clock
      let g : Got := ⟨s.mem.bytesAt pa n, s.mem.stamp (pa / 32), s.homeBad (pa / 32)⟩
      if g.bad then (s, .ok g)
      else match f g.bytes with
        | some (bs, r) => (s.homeWrite [w] rels true now (pa / 32) (atAddr pa bs) r, .ok g)
        | none => (s, .ok g)
    | (s, .fault d) => (s, .error (.fault d))
    | (s, .migrate) => (s, .error .migrate)
    | (s, .wait) => (s, .error .wait)

/-- A sector read by an engine as agent `w` through the isle cache of `core` (R236, R238): no read of an engine is a tail of an
acquire. -/
def State.engineGet (s : State) (w : Who) (core : Nat) (own : Option (Nat × Nat)) (pa : Nat) : State × Got :=
  let s := (s.snoop own (pa / 128) false).dirAccess (isleOf core) pa false
  let (s, v) := s.versionFor w (pa / 32)
  (s.seeUpto [w] (pa / 32) v.upto, ⟨v.bytes, v.stamp, v.bad⟩)

end Sys2Proof.Machine
end

