-- ==== Sys2Proof/Machine/Operands.lean ====
section
/-! DEFINITION. The registers of a gang and of a thread as words read and write them: slices and lanes (R113 to R116),
the forwarding window with its transient results (R32, R119), pending variable-latency results (R30, R120), uniform and
mask registers (R117), the constant bank (R74), the registers of a generator thread (R72). -/

namespace Sys2Proof.Machine

/-- The vector whose entry `i` is `f i`. -/
def vec {α : Type} (n : Nat) (f : Nat → α) : Vector α n := ⟨⟨(List.range n).map f⟩, by simp⟩

/-- Entry `i` of a vector; `d` beyond its end. -/
def vat {α : Type} {n : Nat} (v : Vector α n) (d : α) (i : Nat) : α := v.toList.getD i d

/-- A vector with entry `i` replaced. -/
def vput {α : Type} {n : Nat} (v : Vector α n) (i : Nat) (x : α) : Vector α n :=
  ⟨⟨v.toList.set i x⟩, by simp⟩

def lane (v : Vector Word 32) (i : Nat) : Word := vat v 0 i
def stampAt (v : Vector Stamp 8) (j : Nat) : Stamp := vat v ancient j

/-- The bits of the lanes of a set of slices. -/
def laneMask (m : BitVec 8) : Word :=
  BitVec.ofNat 32 ((List.range 8).foldl (fun a j => if m.getLsbD j then a + 15 * 16 ^ j else a) 0)

/-- The four bits of a lane mask that belong to slice `j`. -/
def nib (m : Word) (j : Nat) : Nat := m.toNat / 16 ^ j % 16

/-- The slices with a lane in the mask. -/
def slicesOf (m : Word) : BitVec 8 :=
  BitVec.ofNat 8 ((List.range 8).foldl (fun a j => if nib m j = 0 then a else a + 2 ^ j) 0)

/-- Lane-wise choice. -/
def mergeLanes (m : Word) (new old : Vector Word 32) : Vector Word 32 :=
  vec 32 fun i => if m.getLsbD i then lane new i else lane old i

/-- R116: the slice stamps after a write of the lanes of `m`. -/
def mergeStamps (now : Stamp) (m : Word) (new old : Vector Stamp 8) : Vector Stamp 8 :=
  vec 8 fun j =>
    if nib m j = 15 then stampAt new j
    else if nib m j = 0 then stampAt old j
    else older now (stampAt old j) (stampAt new j)

/-- R116: a register after a write of the lanes of `m`. -/
def mergeReg (r : VReg) (now : Stamp) (m : Word) (lanes : Vector Word 32) (st : Vector Stamp 8) : VReg :=
  ⟨mergeLanes m lanes r.lanes, mergeStamps now m st r.stamps⟩

/-- A mask register, EXEC, DMASK or PMASK with the bits of a group's lanes replaced (R113). -/
def mergeMask (lanes new old : Word) : Word := (new &&& lanes) ||| (old &&& ~~~lanes)

def Gang.bank (g : Gang) (r : Nat) : VReg := Tbl.getD g.v r VReg.zero
def Gang.setBank (g : Gang) (r : Nat) (x : VReg) : Gang := { g with v := Tbl.set g.v r x }
def Gang.kreg (g : Gang) (k : Nat) : Word := vat g.k 0 k
def Gang.wreg (g : Gang) (w : Nat) : SVal := vat g.w SVal.zero w
def Gang.exec (g : Gang) : Word := g.dmask &&& g.pmask

/-! ### Pending results -/

/-- The lanes of register `i` of a result that no later fixed-latency write replaced (R120). -/
def Pend.live (p : Pend) (i : Nat) (m : Word) : Word := m &&& ~~~(p.dead.getD i 0)

/-- The stamps of slices from those of the lanes (R183): Older over the active lanes in ascending order. -/
def laneStamps (now : Stamp) (m : Word) (secs : Vector Stamp 32) : Vector Stamp 8 :=
  vec 8 fun j => olderAll now ((List.range 4).filterMap fun i =>
    if m.getLsbD (4 * j + i) then some (vat secs ancient (4 * j + i)) else none)

/-- A register with the part of a result that concerns register `i` of it applied; `dst` gives slices whose stamp a
later stamp-only write replaced (R264). -/
def applyVals (now : Stamp) (r : VReg) (m : Word) (vals : Vector Word 32) (st : Vector Stamp 8) (dst : BitVec 8) : VReg :=
  let x := mergeReg r now m vals st
  ⟨x.lanes, vec 8 fun j => if dst.getLsbD j then stampAt r.stamps j else stampAt x.stamps j⟩

/-- What a result does to register `r`, beside the lanes `hid`, with the values `get`. Where a later fixed write has
replaced part of a slice, its stamp takes part in the order of the writes' issue: old, fixed, result (log 28). -/
def Pend.onBank (p : Pend) (hid : Word) (get : Nat → VReg) (r : Nat) : VReg :=
  match p.val with
  | .lanes reg m vals secs _ =>
    if reg ≤ r ∧ r < reg + vals.length then
      let i := r - reg
      applyVals p.at' (get r) (p.live i m &&& ~~~hid) (vals.getD i (Vector.replicate 32 0)) (laneStamps p.at' m secs)
        (p.deadSt.getD i 0)
    else get r
  | .spec reg m vals st =>
    if r = reg then applyVals p.at' (get r) (p.live 0 m &&& ~~~hid) vals st (p.deadSt.getD 0 0) else get r
  | .frames reg regs =>
    if reg ≤ r ∧ r < reg + regs.length then
      let i := r - reg
      let x := regs.getD i VReg.zero
      let m := p.live i 0xFFFFFFFF &&& ~~~hid
      ⟨mergeLanes m x.lanes (get r).lanes, vec 8 fun j =>
        if nib m j = 0 ∨ (p.deadSt.getD i 0).getLsbD j then stampAt (get r).stamps j
        else if nib m j = 15 then stampAt x.stamps j
        else older p.at' (stampAt (get r).stamps j) (stampAt x.stamps j)⟩
    else get r
  | _ => get r

/-- What a result does to uniform register `w`. -/
def Pend.onUni (p : Pend) (w : Nat) (x : SVal) : SVal :=
  match p.val with
  | .uni d v _ => if d.toNat = w ∧ !p.deadUni then v else x
  | _ => x

/-- The registers a result writes. -/
def Pend.regs (p : Pend) : List Nat :=
  match p.val with
  | .lanes reg _ vals _ _ => (List.range vals.length).map (· + reg)
  | .spec reg _ _ _ => [reg]
  | .frames reg regs => (List.range regs.length).map (· + reg)
  | _ => []

/-- The lanes of a result that a reader with slices `m` does not see: all but those of its slices that have switched,
while one of its slices holds the result open (R30, R120). `m` = 0 is a reader outside the gang. -/
def Pend.hidden (p : Pend) (m : BitVec 8) : Word := if p.slices &&& m = 0 then 0 else ~~~laneMask (m &&& ~~~p.slices)

/-- Results that have returned and stand beside the bank. -/
def Gang.seen (g : Gang) : List Pend := g.pend.filter (·.returned)

/-- The bank as a reader with slices `m` sees it, before forwarding. -/
def Gang.viewV (g : Gang) (m : BitVec 8) (r : Nat) : VReg :=
  g.seen.foldl (fun x p => p.onBank (p.hidden m) (fun _ => x) r) (g.bank r)

/-- A uniform register as a reader with slices `m` sees it: results of other groups as they return; one that a slice of
the reader holds open is not seen (R117, R120; log 28). -/
def Gang.viewW (g : Gang) (m : BitVec 8) (w : Nat) : SVal :=
  g.seen.foldl (fun x p => if p.slices &&& m = 0 then p.onUni w x else x) (g.wreg w)

/-- The lanes of a transient result that a reader with slices `m` sees (R120). -/
def Transient.shown (t : Transient) (m : BitVec 8) : Word := t.mask &&& ~~~laneMask (t.hidden &&& m)

/-- R119: the transient results in the window, laid over a register, oldest first. -/
def overlay (m : BitVec 8) (r : Nat) (win : List WinEnt) (x : VReg) : VReg :=
  win.foldr (fun e x =>
    match e.tr with
    | some t =>
      if t.reg = r then
        ⟨mergeLanes (t.shown m) t.lanes x.lanes, vec 8 fun j =>
          if nib (t.shown m) j = 0 then stampAt x.stamps j else stampAt t.stamps j⟩
      else x
    | none => x) x

/-- A vector register as a word of the slices `m` reads it (R45: 126 is vz). -/
def Gang.readV (g : Gang) (m : BitVec 8) (r : Nat) : VReg :=
  if r = 126 then VReg.zero else overlay m r g.window (g.viewV m r)

/-- A transient result after a later banked write of the lanes `m` of its register. -/
def Transient.under (t : Transient) (now : Stamp) (m : Word) (st : Vector Stamp 8) : Transient :=
  { t with
    mask := t.mask &&& ~~~m
    stamps := vec 8 fun j =>
      if nib m j = 0 then stampAt t.stamps j else older now (stampAt t.stamps j) (stampAt st j) }

/-- A list with entry `i` set, made longer by `d` where it is too short. -/
def padAt {α : Type} (l : List α) (d : α) (i : Nat) (x : α) : List α :=
  match l, i with
  | [], 0 => [x]
  | [], j + 1 => d :: padAt [] d j x
  | _ :: r, 0 => x :: r
  | y :: r, j + 1 => y :: padAt r d j x

/-- Lanes of register `r` replaced by a fixed-latency write in the results still open (R120). -/
def Pend.kill (p : Pend) (r : Nat) (m : Word) : Pend :=
  match p.regs.idxOf? r with
  | some i => { p with dead := padAt p.dead 0 i (p.dead.getD i 0 ||| m) }
  | none => p

/-- Slice stamps of register `r` replaced by a stamp-only write (R264). -/
def Pend.killSt (p : Pend) (r : Nat) (j : BitVec 8) : Pend :=
  match p.regs.idxOf? r with
  | some i => { p with deadSt := padAt p.deadSt 0 i (p.deadSt.getD i 0 ||| j) }
  | none => p

/-- A fixed-latency banked write of the lanes `m` (R116, R119, R120); a write to vz is discarded (R45). -/
def Gang.writeV (g : Gang) (now : Stamp) (r : Nat) (m : Word) (lanes : Vector Word 32) (st : Vector Stamp 8) : Gang :=
  if r = 126 then g
  else
    { g with
      v := Tbl.set g.v r (mergeReg (g.bank r) now m lanes st)
      window := g.window.map fun e =>
        { e with tr := e.tr.map fun t => if t.reg = r then t.under now m st else t }
      pend := g.pend.map fun p => p.kill r m }

/-- The transient result of the word in hand: its window entry is added when the word issues. -/
def mkTransient (g : Gang) (now : Stamp) (m : BitVec 8) (r : Nat) (lm : Word) (lanes : Vector Word 32)
    (st : Vector Stamp 8) : Option Transient :=
  if r = 126 then none
  else some { reg := r, mask := lm, lanes := lanes, stamps := mergeStamps now lm st (g.readV m r).stamps, hidden := 0 }

/-- R109, R138: a register as it reads where the slices `p` are present: an absent lane yields 0, AGELESS. -/
def shown (p : BitVec 8) (x : VReg) : VReg :=
  ⟨vec 32 fun i => if (laneMask p).getLsbD i then lane x.lanes i else 0,
   vec 8 fun j => if p.getLsbD j then stampAt x.stamps j else ageless⟩

/-- A stamp-only write of slice stamps (R263, R264): bank, transients and open results. -/
def Gang.writeStamps (g : Gang) (r : Nat) (m : BitVec 8) (st : Vector Stamp 8) : Gang :=
  if r = 126 then g
  else
    let put (x : Vector Stamp 8) : Vector Stamp 8 := vec 8 fun j => if m.getLsbD j then stampAt st j else stampAt x j
    { g with
      v := Tbl.set g.v r { g.bank r with stamps := put (g.bank r).stamps }
      window := g.window.map fun e =>
        { e with tr := e.tr.map fun t => if t.reg = r then { t with stamps := put t.stamps } else t }
      pend := g.pend.map fun p => p.killSt r m }

/-- The uniform register that a result writes. -/
def Pend.uniReg (p : Pend) : Option Nat :=
  match p.val with
  | .uni d _ _ => some d.toNat
  | .mail d _ => some d.toNat
  | _ => none

/-- A fixed-latency write of a uniform register by the slices `m` (R117): it replaces every result that has returned, and
those of its own group that are still to come (R120); another group's is seen when it returns. -/
def Gang.writeW (g : Gang) (m : BitVec 8) (w : Nat) (x : SVal) : Gang :=
  { g with
    w := vput g.w w x
    pend := g.pend.map fun p =>
      if p.uniReg = some w ∧ (p.returned = true ∨ p.slices &&& m ≠ 0) then { p with deadUni := true } else p }

/-- A write of a mask register by a group (R113). -/
def Gang.writeK (g : Gang) (k : Nat) (m : BitVec 8) (x : Word) : Gang :=
  { g with k := vput g.k k (mergeMask (laneMask m) x (g.kreg k)) }

/-- Lanes of every register of a result given up, since the banks hold them. -/
def Pend.killAll (p : Pend) (m : Word) : Pend :=
  { p with dead := (List.range p.regs.length).map fun i => p.dead.getD i 0 ||| m }

/-- The lanes of the registers of a result. -/
def Pend.mask (p : Pend) : Word :=
  match p.val with
  | .lanes _ m _ _ _ => m
  | .spec _ m _ _ => m
  | .frames _ _ => 0xFFFFFFFF
  | _ => 0

/-- The stamps that a result brings to its register `i`. -/
def Pend.stamps (p : Pend) (i : Nat) : Vector Stamp 8 :=
  match p.val with
  | .lanes _ m _ secs _ => laneStamps p.at' m secs
  | .spec _ _ _ st => st
  | .frames _ regs => (regs.getD i VReg.zero).stamps
  | _ => Vector.replicate 8 ageless

/-- A transient result whose word issued after the result that now writes the lanes `m` of its register: it keeps its lanes,
and in slices that it covers in part the stamp of the result takes part (R116; log 28). -/
def Transient.outlast (t : Transient) (now : Stamp) (m : Word) (st : Vector Stamp 8) : Transient :=
  { t with stamps := vec 8 fun j =>
      if nib m j = 0 ∨ nib t.mask j = 15 then stampAt t.stamps j else older now (stampAt t.stamps j) (stampAt st j) }

/-- What a result does to the transients of its registers as it writes the lanes outside `hid` (R119, R120): the older ones
lose those lanes, and younger ones that cover a slice in part take its stamp. -/
def Gang.meetTransients (g : Gang) (p : Pend) (hid : Word) : Gang :=
  { g with window := g.window.map fun e =>
      { e with tr := e.tr.map fun t =>
          match p.regs.idxOf? t.reg with
          | some i =>
            let m := p.live i p.mask &&& ~~~hid
            let st := vec 8 fun j => if (p.deadSt.getD i 0).getLsbD j then stampAt t.stamps j else stampAt (p.stamps i) j
            if e.num < p.num then t.under p.at' m st else t.outlast p.at' m st
          | none => t } }

/-- The part of a result outside the lanes `hid` written to the banks (R120). -/
def Gang.commit (g : Gang) (p : Pend) (hid : Word) : Gang :=
  { g.meetTransients p hid with
    v := (p.regs.filter (· ≠ 126)).foldl (fun v r => Tbl.set v r (p.onBank hid g.bank r)) g.v }

/-- The results of a gang as the slices `m` close them, in program order: each writes the lanes of those slices, and with
its last slice the rest, to the banks, and is then done. `l` are those still to be closed. -/
def Gang.closeAll (g : Gang) (m : BitVec 8) : List Pend → Gang
  | [] => g
  | p :: r =>
    if p.slices &&& m = 0 ∧ p.slices ≠ 0 then { g with pend := g.pend ++ [p] }.closeAll m r
    else if p.slices &&& ~~~m = 0 then
      let g := g.commit p 0
      match p.uniReg with
      | some _ =>
        { g with
          w := vec 16 fun w => p.onUni w (g.wreg w)
          pend := g.pend.map fun (q : Pend) =>
            if q.returned ∧ q.uniReg = p.uniReg ∧ !p.deadUni then { q with deadUni := true } else q }.closeAll m r
      | none => g.closeAll m r
    else
      let lm := laneMask (p.slices &&& m)
      let g := g.commit p (~~~lm)
      { g with pend := g.pend ++ [{ p.killAll lm with slices := p.slices &&& ~~~m }] }.closeAll m r

/-- R30, R121: the switch of the slices `m` takes effect. -/
def Gang.close (g : Gang) (m : BitVec 8) : Gang :=
  { g with
    pend := []
    window := g.window.map fun (e : WinEnt) =>
      { e with tr := e.tr.map fun (t : Transient) => { t with hidden := t.hidden &&& ~~~m } } }.closeAll m g.pend

/-- Whether a group still waits for a result (R121). -/
def Gang.awaits (g : Gang) (m : BitVec 8) : Bool := g.pend.any fun p => !p.returned && (p.slices &&& m != 0)

/-- Groups parked at a switch whose results have all returned go on (R121, R125). -/
def Gang.unpark (g : Gang) : Gang :=
  g.groups.foldl (fun g x =>
    if x.parked && !g.awaits x.mask then
      let g := g.close x.mask
      { g with groups := g.groups.map fun y => if y.mask = x.mask then { y with parked := false } else y }
    else g) g

/-- The window after one more instruction: it holds the last eight (R119). -/
def Gang.pushWindow (g : Gang) (tr : Option Transient) : Gang :=
  { g with window := ({ num := g.wnum, tr := tr } :: g.window).take 8, wnum := g.wnum + 1 }

/-- A result added to the pending ones. -/
def Gang.pushPend (g : Gang) (p : Pend) : Gang :=
  { g with pend := g.pend ++ [{ p with id := g.pid, num := g.wnum }], pid := g.pid + 1 }

/-- A pending result of slices `m` for `k` registers. -/
def Pend.new (m : BitVec 8) (ord : Word) (val : PendVal) (k : Nat) : Pend :=
  { id := 0, slices := m, ord := ord, val := val, bnd := 0, scratch := false, fail := none
    returned := false, acq := none, num := 0, tr := false, at' := ageless, dead := List.replicate k 0
    deadSt := List.replicate k 0, deadUni := false, counted := [], atom := none }

/-- A transient result placed in the window position of its instruction, if it is still there (R120). The slices that
issued it do not see it before their switch. -/
def Gang.place (g : Gang) (p : Pend) : Gang :=
  match p.val with
  | .spec reg m vals st =>
    let old := (g.readV p.slices reg).stamps
    let lm := p.live 0 m
    let t : Transient :=
      { reg := reg, mask := lm, lanes := vals, hidden := p.slices
        stamps := vec 8 fun j =>
          if (p.deadSt.getD 0 0).getLsbD j then stampAt old j else stampAt (mergeStamps p.at' lm st old) j }
    if reg = 126 then g
    else { g with window := g.window.map fun e => if e.num = p.num then { e with tr := some t } else e }
  | _ => g

/-- R120: result `p` returns, at `now`. A transient one goes to the window. Of two results of a group for one uniform
register the later in program order stands; a uniform one is seen from now on, after those that returned before it. -/
def Gang.takeReturn (g : Gang) (now : Stamp) (p : Pend) : Gang :=
  let q := { p with
    returned := true
    at' := match p.val with
      | .spec _ _ _ _ => p.at'
      | _ => now }
  if p.tr then { g with pend := g.pend.filter fun x => x.id ≠ p.id }.place q
  else match p.uniReg with
    | some w =>
      let before := (g.pend.takeWhile fun x => x.id ≠ p.id).map fun x =>
        if !x.returned && x.uniReg == some w && x.slices &&& p.slices != 0 then { x with deadUni := true } else x
      { g with pend := before ++ ((g.pend.dropWhile fun x => x.id ≠ p.id).drop 1) ++ [q] }
    | none => { g with pend := g.pend.map fun x => if x.id = p.id then q else x }

/-- Every open result is written to the registers (R255 step 1, R341 step 1); a posted read that has not been served
delivers nothing. -/
def Gang.settle (g : Gang) (now : Stamp) : Gang :=
  { g with pend := (g.pend.filter fun (p : Pend) => p.returned || (match p.val with
      | .mail _ _ => false
      | _ => true)).map fun (p : Pend) => if p.returned then p else { p with returned := true, at' := now } }.close 0xFF

/-! ### Constant bank (R74) -/

/-- One word of the constant bank as a block reads it, with its poison. -/
def State.kword (s : State) (core : Nat) (b : Block) (i : Nat) : State × Except Stop (Word × Bool) :=
  let va : DWord := b.kbank + BitVec.ofNat 64 (4 * (i % 16384))
  match s.translate core b.ctx va false 4 with
  | (s, .ok pa) =>
    let (s, w) := s.codeWord core pa b.born
    (s, .ok (w, s.homeBad (pa / 32)))
  | (s, .fault d) => (s, .error (.fault d))
  | (s, .migrate) => (s, .error .migrate)
  | (s, .wait) => (s, .error .wait)

/-- A word that no rule states. Log 8: free. -/
def State.freeWord (s : State) : State × Word :=
  ({ s with fresh := s.fresh + 4 }, BitVec.ofNat 32 (leVal ((List.range 4).map fun i => Config.freeByte (s.fresh + i))))

/-- The stamp of every constant-bank word of a block (R74). -/
def Block.kstamp (b : Block) : Stamp := b.lstamp.getD ageless

/-! ### Generator registers (R71, R72) -/

/-- A register of the active set: g registers, or h registers in a handler; register 0 reads 0, AGELESS. -/
def Thread.reg (t : Thread) (r : Nat) : SVal :=
  if r = 0 then SVal.zero else if t.handler then vat t.h SVal.zero r else vat t.g SVal.zero r

/-- A write to the active set; a write to register 0 is discarded. -/
def Thread.setReg (t : Thread) (r : Nat) (x : SVal) : Thread :=
  if r = 0 then t
  else if t.handler then { t with h := vput t.h r x } else { t with g := vput t.g r x }

end Sys2Proof.Machine
end

