-- ==== Sys2Proof/Machine/Instances.lean ====
section
/-! DEFINITION. Node records and instances: reading and checking a record (R318 to R320, R324), the shape it gives a
block, creating instances, completions (R326 to R329), the producer table and refire (R257 to R259). -/

namespace Sys2Proof.Machine

/-- The key under which the graph engine's own TLB entries are kept (R210); no core has this number. -/
def lagoonCore : Nat := 1536

/-- Bits hi down to lo of a doubleword, as a number. -/
def fld (x : DWord) (hi lo : Nat) : Nat := bits x.toNat hi lo

/-- Bytes that a unit of the lagoon reads at a virtual address, within one page; none where a sector is poisoned. -/
def State.unitRead (s : State) (ctx : Nat) (va : DWord) (n : Nat) : State × Except Stop (Option (List Byte)) :=
  match s.translate lagoonCore ctx va false n with
  | (s, .ok pa) =>
    let s := (sectorsIn pa n).foldl (fun s i => s.snoop none (i / 4) false) s
    if (sectorsIn pa n).any s.homeBad then (s, .ok none) else (s, .ok (some (s.mem.bytesAt pa n)))
  | (s, .fault d) => (s, .error (.fault d))
  | (s, .migrate) => (s, .error .migrate)
  | (s, .wait) => (s, .error .wait)

/-- The doublewords of a list of bytes. -/
def dwords (l : List Byte) (n : Nat) : List DWord :=
  (List.range n).map fun i => BitVec.ofNat 64 (leVal ((l.drop (8 * i)).take 8))

/-- Doubleword at a byte offset of a record. -/
def Instance.dw (x : Instance) (off : Nat) : DWord := vat x.tmpl 0 (off / 8)

/-- A record as its doublewords. -/
abbrev Rec := List DWord

def Rec.dw (r : Rec) (off : Nat) : DWord := r.getD (off / 8) 0
def Rec.isCube (r : Rec) : Bool := fld (r.dw 0) 63 62 == 1
def Rec.gridx (r : Rec) : Nat := fld (r.dw 0x28) 15 0 + 1
def Rec.gridy (r : Rec) : Nat := fld (r.dw 0x28) 31 16 + 1
def Rec.gridz (r : Rec) : Nat := fld (r.dw 0x28) 47 32 + 1
def Rec.feeders (r : Rec) : Nat := fld (r.dw 0) 56 54
/-- R318, R320: the number of blocks. -/
def Rec.blocks (r : Rec) : Nat := if r.isCube then r.feeders else r.gridx * r.gridy * r.gridz
def Rec.cor (r : Rec) : Bool := (r.dw 0).getLsbD 58
def Rec.podn (r : Rec) : Nat := fld (r.dw 0) 49 40

/-- A range entry (R319). -/
structure RangeEnt where
  any : Bool
  isle : Nat
  lo : Nat
  last : Nat
  deriving DecidableEq, Repr

/-- R319: the range words up to the first without V. -/
def Rec.rangeWords (r : Rec) : List Nat :=
  ((List.range 8).map fun i =>
    fld (r.dw (0x80 + 4 * i)) (if i % 2 = 0 then 31 else 63) (if i % 2 = 0 then 0 else 32)).takeWhile (bitAt · 31)

def rangeGo (l : List Nat) (lo blocks : Nat) : List RangeEnt :=
  match l with
  | [] => []
  | x :: r =>
    let last := min (bits x 26 0) (blocks - 1)
    { any := bitAt x 30, isle := bits x 29 27, lo := lo, last := last } :: rangeGo r (max lo (last + 1)) blocks

/-- R319: the valid range entries in order. An entry whose LAST is below its first index covers nothing (log 29). -/
def Rec.ranges (r : Rec) : List RangeEnt := rangeGo r.rangeWords 0 r.blocks

/-- R163, R319: the shape of a block. -/
def Rec.shape (r : Rec) : Shape :=
  let x := r.dw 0x30
  let gangs := fld x 63 60 + 1
  let stash := fld x 40 34 * 4096
  let spill := (fld x 33 30 + 1) * 1024
  { gangs := gangs, slices := fld x 59 57 + 1, n := fld x 56 53 * 8, w := (fld x 52 49 + 1) * 1024
    plain := fld x 48 41 * 4096 - stash - gangs * spill, stash := stash, spill := spill }

/-- The whole allocation in bytes. -/
def Shape.alloc (x : Shape) : Nat := x.plain + x.stash + x.gangs * x.spill

/-- R168, R309: a wheel descriptor. -/
def wheelDesc (d : DWord) : WheelDesc :=
  { valid := d.getLsbD 63, drains := fld d 53 48, fills := fld d 47 42, count := fld d 41 38 + 1
    size := fld d 37 34 + 8, base := fld d 31 0 }

/-- R168: the tests on one descriptor, within a region of `size` bytes; also that a declared wheel's BASE is the multiple
of 256 that its field is said to be (DESIGN CHOICE, log 29). -/
def wheelOk (d : DWord) (size : Nat) : Bool :=
  fld d 62 54 == 0 && fld d 33 32 == 0 &&
    fld d 31 0 + (fld d 41 38 + 1) * 2 ^ (fld d 37 34 + 8) ≤ size &&
    (!d.getLsbD 63 || (fld d 41 38 != 0 && fld d 37 34 ≤ 8 && fld d 31 0 % 256 == 0))

/-- R168: two declared wheels overlap. -/
def wheelsOverlap (a b : DWord) : Bool :=
  let x := wheelDesc a
  let y := wheelDesc b
  x.valid && y.valid && x.base < y.base + y.count * 2 ^ y.size && y.base < x.base + x.count * 2 ^ x.size

def wheelSetOk (l : List DWord) (size : Nat) : Bool :=
  l.all (wheelOk · size) &&
    (List.range l.length).all fun i => (List.range i).all fun j => !wheelsOverlap (l.getD i 0) (l.getD j 0)

def Rec.wheels (r : Rec) : List DWord := (List.range 4).map fun i => r.dw (0x40 + 8 * i)
def Rec.cwheels (r : Rec) : List DWord := (List.range 4).map fun i => r.dw (0x60 + 8 * i)

/-- A tile operand (R319): BND, REFIRE, STASH, DIR, base and extent. -/
structure TileOp where
  bnd : BitVec 4
  refire : Bool
  stash : Bool
  dir : Nat
  base : Nat
  extent : Nat
  deriving DecidableEq, Repr

def Rec.operand? (r : Rec) (i : Nat) : Option TileOp :=
  let w := r.dw (0xA0 + 8 * i)
  if w.getLsbD 59 then
    some { bnd := w.extractLsb' 60 4, refire := w.getLsbD 58, stash := w.getLsbD 57, dir := fld w 6 5
           base := fld w 56 7 * 128
           extent := 128 * fld (r.dw (0xE0 + 4 * i)) (if i % 2 = 0 then 31 else 63) (if i % 2 = 0 then 0 else 32) }
  else none

def Rec.operands (r : Rec) : List TileOp := (List.range 8).filterMap r.operand?

/-- R163, R375: scratchpad bytes of a core. -/
def Core.scratch (c : Core) : Nat := (min c.spsize.toNat 16 + 4) * 32768

/-- How many blocks of a shape an empty core holds (R320, R327). -/
def Shape.perCore (x : Shape) (c : Core) : Nat :=
  min (min 16 (32 / x.gangs)) (min (min (32768 / x.w) (c.scratch / x.alloc)) (4096 / x.n / x.gangs))

/-- The SIMT cores of an isle in the order of R327. -/
def isleCores (i : Nat) : List Nat := (List.range 96).map fun j => coreNum i (j / 4) (j % 4)

/-- How many blocks of a shape fit on an isle's cores, all empty (R320). -/
def State.isleRoom (s : State) (x : Shape) (i : Nat) : Nat :=
  (isleCores i).foldl (fun a c => a + x.perCore (s.core c)) 0

/-- The blocks of the entries that name an isle, and of those with ANY. -/
def namedBlocks (l : List RangeEnt) (i : Nat) : Nat :=
  l.foldl (fun a e => if !e.any && e.isle == i then a + (e.last + 1 - e.lo) else a) 0
def anyBlocks (l : List RangeEnt) : Nat := l.foldl (fun a e => if e.any then a + (e.last + 1 - e.lo) else a) 0

/-- R320: an isle can hold its named blocks with the blocks of the ANY entries, on empty cores; a cube node's feeding
blocks need one cluster. -/
def State.isleFits (s : State) (r : Rec) (i : Nat) (withAny : Bool) : Bool :=
  if r.isCube then
    (List.range 24).any fun c => (List.range r.feeders).all fun k => 1 ≤ r.shape.perCore (s.core (coreNum i c k))
  else
    namedBlocks r.ranges i + (if withAny then anyBlocks r.ranges else 0) ≤ s.isleRoom r.shape i

/-- R320: the COR case. -/
def State.corOk (s : State) (r : Rec) : Bool :=
  let named := (List.range 8).filter fun i => namedBlocks r.ranges i ≠ 0
  named.all (fun i => s.isleFits r i false && (isleCores i).any fun c => r.shape.alloc ≤ (s.core c).scratch) &&
    (anyBlocks r.ranges == 0 || (List.range 8).any fun i => s.isleFits r i true)

/-- R320: the record is accepted. More than four operands with a stash flag are refused (R173; DESIGN CHOICE, log 29). -/
def State.recordOk (s : State) (r : Rec) : Bool :=
  let c := r.dw 0
  let x := r.dw 0x30
  let simt := !r.isCube
  fld c 63 62 ≤ 1 && fld c 39 32 == 0 && fld x 29 0 == 0 && fld (r.dw 0x28) 63 48 == 0 &&
    1 ≤ fld x 56 53 && 1 ≤ fld x 48 41 && fld x 48 41 ≤ 160 && fld x 40 34 ≤ 64 &&
    ((List.range 8).all fun i => fld (r.dw (0xA0 + 8 * i)) 4 0 == 0 && fld (r.dw (0xA0 + 8 * i)) 6 5 != 3) &&
    (r.operands.filter (·.stash)).length ≤ 4 &&
    r.gridx * r.gridy * r.gridz ≤ 2 ^ 27 &&
    (match r.rangeWords.getLast? with
      | none => false
      | some e => bits e 26 0 + 1 == r.blocks) &&
    4096 + fld x 40 34 * 4096 + (fld x 63 60 + 1) * (fld x 33 30 + 1) * 1024 ≤ fld x 48 41 * 4096 &&
    wheelSetOk r.wheels r.shape.plain && wheelSetOk r.cwheels 1048576 &&
    (simt || (r.dw 0x28 == 0 && 1 ≤ r.feeders && r.feeders ≤ 4 && r.ranges.length == 1)) &&
    (!simt || (r.feeders == 0 && fld (r.dw 0x10) 63 32 == 0 && r.cwheels.all (· == 0))) &&
    r.podn ≤ 512 &&
    (!r.cor || s.corOk r)

/-- R324: why a record is not accepted: 0x02 unreadable or 0x03 refused. -/
inductive RecRead where
  | ok (r : Rec)
  | bad (reason : Nat)
  | wait
  deriving DecidableEq, Repr

/-- R324: the record at a virtual address, read and checked. -/
def State.readRecord (s : State) (ctx : Nat) (va : DWord) : State × RecRead :=
  match s.unitRead ctx va 256 with
  | (s, .ok (some l)) =>
    let r : Rec := dwords l 32
    (s, if s.recordOk r then .ok r else .bad 3)
  | (s, .ok none) => (s, .bad 2)
  | (s, .error (.fault _)) => (s, .bad 2)
  | (s, .error _) => (s, .wait)

/-- R324: a refusal recorded in LERR and LAUNCH_BAD; an OVF that no write has cleared stays (R5). -/
def State.launchBad (s : State) (ctx queue reason : Nat) (record : DWord) : State :=
  let s := s.ctxCount ctx .launchBad
  let c := s.ctx ctx
  s.setCtx ctx { c with
    lerr := if c.lerr.getLsbD 63 then c.lerr ||| (1 <<< 62)
      else (c.lerr &&& (1 <<< 62)) ||| BitVec.ofNat 64 (2 ^ 63 + queue * 2 ^ 56 + reason * 2 ^ 49 + fld record 56 8) }

/-! ### Instances -/

def State.inst? (s : State) (node : DWord) : Option Instance := s.insts.find? (·.node == node)
def State.onInst (s : State) (node : DWord) (f : Instance → Instance) : State :=
  { s with insts := s.insts.map fun x => if x.node = node then f x else x }

/-- R326: the pending instance of a key. -/
def State.pending? (s : State) (ctx : Nat) (record group : DWord) : Option Instance :=
  s.insts.find? fun x => x.ctx == ctx && x.hasKey && x.record == record && x.group == group && x.phase == .pending

def Instance.recd (x : Instance) : Rec := x.tmpl.toList

/-- R332: the gang has been evicted on its own; one that stands still for the save of its whole block keeps its place until that
save (R331). -/
def Gang.restorable (g : Gang) : Bool := g.evicted && g.req != .evict && g.req != .cut

/-- Gang slots of a core that are taken (an evicted gang holds none). -/
def Core.gangsHeld (c : Core) : Nat :=
  c.blocks.foldl (fun a e => a + (e.2.gangs.filter (!·.restorable)).length) 0

/-- R327: free gang slots of an isle. -/
def State.freeGangs (s : State) (i : Nat) : Nat :=
  (isleCores i).foldl (fun a c => a + (32 - (s.core c).gangsHeld)) 0

/-- The isle of `l` with the greatest value, the lowest of several. -/
def bestIsle (f : Nat → Nat) (l : List Nat) : Nat :=
  match l with
  | [] => 0
  | i :: r => r.foldl (fun b j => if f b < f j then j else b) i

/-- R327: the isle of each range entry, chosen when the instance becomes READY. -/
def State.islesOf (s : State) (r : Rec) : List Nat :=
  let cand := if r.cor then (List.range 8).filter fun i => s.isleFits r i true else List.range 8
  let a := bestIsle s.freeGangs cand
  r.ranges.map fun e => if e.any then a else e.isle

/-- R326: an instance becomes READY; its place in READY order is the clock. -/
def State.makeReady (s : State) (node : DWord) : State :=
  match s.inst? node with
  | some x =>
    let isles := s.islesOf x.recd
    { s with clock := s.clock + 1 }.onInst node fun x => { x with phase := .ready, isleOf := isles, order := s.clock }
  | none => s

/-- Harbour entries in use (R326). -/
def State.harbourUsed (s : State) : Nat := (s.insts.filter (·.harbour)).length

/-- R326, R329: an instance takes a harbour entry, and with it its launch stamp. -/
def State.enterHarbour (s : State) (node : DWord) : State :=
  match s.inst? node with
  | some x =>
    let st := s.now x.ctx
    s.onInst node fun x => { x with harbour := true, lstamp := st }
  | none => s

/-- R326: a new instance, with the next node id of its context. -/
def State.addInst (s : State) (ctx : Nat) (record group : DWord) (hasKey : Bool) (r : Rec) (povr : Option Nat)
    (prio : Nat) (kovr doneva doneval : DWord) (podhome : BitVec 9) (count : Nat) (producer : Option Nat) : State × DWord :=
  let c := s.ctx ctx
  let node : DWord := BitVec.ofNat 64 (ctx * 2 ^ 52 + c.created % 2 ^ 52)
  let x : Instance :=
    { ctx := ctx, node := node, record := record, group := group, hasKey := hasKey, count := count, phase := .pending
      tmpl := vec 32 fun i => r.getD i 0, prio := prio, povr := povr, kovr := kovr, doneva := doneva
      doneval := doneval, podhome := podhome, harbour := false, order := 0, lstamp := ageless, isleOf := []
      dispatched := [], ended := [], controlEnded := false, stored := false, producer := producer }
  let s := s.setCtx ctx { c with created := c.created + 1 }
  let s := { s with insts := s.insts ++ [x] }
  (if count = 0 then s.makeReady node else s, node)

/-- R326: an instance's count falls by `n`, stopping at 0. -/
def State.decInst (s : State) (node : DWord) (n : Nat) : State :=
  match s.inst? node with
  | some x =>
    if x.phase = .pending then
      let s := s.onInst node fun x => { x with count := x.count - n }
      if x.count ≤ n then s.makeReady node else s
    else s
  | none => s

/-- R319: the record's PRIO, or what POVR put in its place (R322). -/
def Rec.prio (r : Rec) (povr : Option Nat) : Nat := povr.getD (fld (r.dw 0) 61 59)

/-! ### Producer table and refire -/

def Ctx.producer (c : Ctx) (i : Nat) : Producer := Tbl.getD c.prod i Producer.reset

/-- R258: the valid entry of lowest index whose range contains the address. -/
def Ctx.covering (c : Ctx) (va : DWord) : Option Nat :=
  (List.range 256).find? fun i =>
    let p := c.producer i
    p.v && p.budget != 0 && p.start.toNat ≤ va.toNat && va.toNat < p.fin.toNat

/-- R319: a record may be re-fired as producer of an address. -/
def Rec.refires (r : Rec) (va : DWord) : Bool :=
  r.operands.any fun o => o.refire && (o.dir == 1 || o.dir == 2) && o.base ≤ vaBits va && vaBits va < o.base + o.extent

/-- What a refire does (R259). -/
inductive Refire where
  | escalate (reason : Nat)
  | on (node : DWord)
  | wait
  deriving DecidableEq, Repr

/-- A wait of an engine or unit: the page is handed to the fault unit (R212). -/
def State.holdMove (s : State) (ctx : Nat) (x : Option DWord) : State :=
  match x with
  | some va => if s.moves.contains (ctx, va) then s else { s with moves := s.moves ++ [(ctx, va)] }
  | none => s

/-- R259: the refire of the producer that covers an address, for a consumer with `count` refires behind it and
instance priority `p`: the budget first, then a pending instance to join, then the template. A template that R324 refuses
escalates (R329); a full instance table is waited for (R326). -/
def State.refire (s : State) (ctx : Nat) (va : DWord) (count p : Nat) : State × Refire :=
  match (s.ctx ctx).covering va with
  | none => (s, .escalate 1)
  | some e =>
    let pr := (s.ctx ctx).producer e
    if pr.budget.toNat ≤ count then (s, .escalate 2)
    else match s.insts.find? fun x => x.ctx == ctx && x.producer == some e with
    | some x => (s, .on x.node)
    | none =>
      if fld pr.node 7 0 ≠ 0 then (s, .escalate 1)
      else match s.readRecord ctx pr.node with
      | (s, .wait) => (s.holdMove ctx (some pr.node), .wait)
      | (s, .bad _) => (s, .escalate 1)
      | (s, .ok r) =>
        if !r.refires va then (s, .escalate 1)
        else if 16384 ≤ s.insts.length then (s, .wait)
        else
          let (s, node) := s.addInst ctx pr.node 0 false r none (min 7 (p + 1)) 0 0 0 0 0 (some e)
          (if s.harbourUsed < 4096 then s.enterHarbour node else s, .on node)

/-- The priority of the instance of a node as it runs (R259, R322). -/
def State.prioOf (s : State) (node : DWord) : Nat := match s.inst? node with
  | some x => x.prio
  | none => 0

/-! ### Age bounds (R251 to R253) -/

/-- The action of a bound entry. -/
inductive BoundAct where
  | mark | trap | refire
  deriving DecidableEq, Repr

/-- R251: entry n of a context; reset MAXAGE 0x7FFFFF, ACTION MARK. -/
def Ctx.bound (c : Ctx) (n : Nat) : Word := Tbl.getD c.abent n 0x007FFFFF

def Ctx.boundAct (c : Ctx) (n : Nat) : BoundAct :=
  match (c.bound n).toNat / 2 ^ 30 with
  | 0 => .mark
  | 2 => .refire
  | _ => .trap

/-- R252: a stamp fails entry n of a context at its present tide. -/
def State.boundFails (s : State) (ctx n : Nat) (st : Stamp) : Bool :=
  n != 0 && ageOver (s.now ctx) st (((s.ctx ctx).bound n).toNat % 2 ^ 23)

/-- R252: a failing check: the sticky bit and the count. -/
def State.boundHit (s : State) (ctx n : Nat) : State :=
  let c := s.ctx ctx
  s.setCtx ctx { c with
    absticky := c.absticky ||| BitVec.ofNat 32 (2 ^ n)
    abcount := Tbl.set c.abcount n (satAdd (Tbl.getD c.abcount n 0) 1) }

/-- R256: the detail of a freshness fault. -/
def freshDetail (reason : Nat) (store : Bool) (n : Nat) : Nat := reason * 32 + (if store then 16 else 0) + n

end Sys2Proof.Machine
end

