-- ==== Sys2Proof/Machine/Ops.lean ====
section
/-! DEFINITION. The shared operations: fault records (R337), debug events (R348), dumps (R354 to R356), the end of a
context by a fault (R105, R316), taking a G-level fault and returning from the handler (R104 to R106), W-level faults,
rollback (R255), unwinding (R341), and mailbox queues (R91). -/

namespace Sys2Proof.Machine

/-! ### Device writes, rings, records -/

/-- R373: a write of a device unit at a physical address, stamp AGELESS; a stack that is not ready holds its sectors (R366). -/
def State.devWrite (s : State) (pa : Nat) (l : List Byte) : State :=
  if !backed pa l.length then s
  else
    let ws := atAddr pa l
    (sectorsIn pa l.length).foldl (fun s i =>
      let h : HeldPut := .unit i (ws.filter fun p => p.1 / 32 == i)
      if s.memReady (32 * i) then s.putHeld h else { s with heldPuts := s.heldPuts ++ [h] }) s

/-- R215: the entries of a ring: 2^LOG2N with LOG2N from 4 to 20, other values as 4. -/
def Ring.entries (r : Ring) : Nat := if 4 ≤ r.log2n.toNat ∧ r.log2n.toNat ≤ 20 then 2 ^ r.log2n.toNat else 16
def Ring.full (r : Ring) : Bool := (r.tail - r.head).toNat == r.entries
def Ring.isEmpty (r : Ring) : Bool := r.tail == r.head
/-- The physical address of the entry a pointer names. -/
def Ring.slot (r : Ring) (p : Word) (size : Nat) : Nat := r.base.toNat * 256 + p.toNat % r.entries * size

/-- The bytes of a list of doublewords (R4). -/
def dwBytes (l : List DWord) : List Byte := l.flatMap fun x => leBytes x.toNat 8

/-- R337: the 64 bytes of a record. -/
def Record.bytes (r : Record) : List Byte := dwBytes [r.cause, r.loc, r.addr, r.pc, r.site, r.prov, r.node, r.place]

/-- R348: a record posted to the debug ring of a context. -/
def State.postEvent (s : State) (ctx : Nat) (r : Record) : State :=
  let g := (s.ctx ctx).dbgring
  if g.full then s.ctxCount ctx .dbgDrop
  else
    let s := s.devWrite (g.slot g.tail 64) r.bytes
    s.setCtx ctx { s.ctx ctx with dbgring := { g with tail := g.tail + 1 } }

/-- The CAUSE doubleword (R337). -/
def causeWord (ctx : Nat) (glvl deferred sealStop waitStop : Bool) (detail code : Nat) : DWord :=
  BitVec.ofNat 64 (ctx * 2 ^ 52 + glvl.toNat * 2 ^ 51 + deferred.toNat * 2 ^ 50 + sealStop.toNat * 2 ^ 49 +
    waitStop.toNat * 2 ^ 48 + detail % 2 ^ 16 * 2 ^ 16 + code)

/-- The WHERE doubleword (R337). -/
def State.placeWord (s : State) (ctx core slot : Nat) : DWord :=
  BitVec.ofNat 64 ((s.now ctx).toNat * 2 ^ 40 + slot % 16 * 2 ^ 36 + place core)

/-- SITE of a gang (R105): the last stop site and the region entry. -/
def Gang.siteWord (g : Gang) : DWord :=
  BitVec.ofNat 64 ((g.site.getD 0).toNat * 2 ^ 16 + ((g.snap.bind (·.spord)).getD 0).toNat)

/-- The slot of an ordinal (R75). -/
def Block.slotOf (b : Block) (o : Word) : Slot := Tbl.getD b.flume (o.toNat % b.shape.w) Slot.zero

/-- The slot and the trailing word of a group's next word: as fetched while it waits at it (R77), else as the flume holds
them. -/
def Block.slotFor (b : Block) (x : Group) : Slot × Word :=
  match x.wait, x.held with
  | .none, _ | _, none => (b.slotOf x.pc, (b.slotOf (x.pc + 1)).word)
  | _, some h => h

/-- PROV of the word at an ordinal (R105), as a group of the slices `m` that stands at it has it. -/
def Block.provWord (b : Block) (g : Gang) (m : BitVec 8) (o : Word) : DWord :=
  let x := match g.groups.find? fun y => y.mask &&& m != 0 && y.pc == o with
    | some y => (b.slotFor y).1
    | none => b.slotOf o
  BitVec.ofNat 64 (x.gthread.toNat * 2 ^ 32 + x.gpclo.toNat)

/-- The record of a gang: a W-level fault of the slices `m` at ordinal `o`, or an event of the gang. -/
def State.gangRecord (s : State) (core slot gang : Nat) (m : BitVec 8) (o : Word) (ss ws : Bool) (detail code : Nat) :
    Record :=
  match s.block? core slot, s.gang? core slot gang with
  | some b, some g =>
    { cause := causeWord b.ctx false false ss ws detail code, loc := BitVec.ofNat 64 (m.toNat * 2 ^ 16 + gang)
      addr := BitVec.ofNat 64 o.toNat, pc := b.th.pc, site := g.siteWord, prov := b.provWord g m o, node := b.node
      place := s.placeWord b.ctx core slot }
  | _, _ => Record.zero

/-! ### Dumps -/

/-- A vector register in a frame of R123. -/
def frameBytes (x : VReg) : List Byte :=
  (x.lanes.toList.flatMap fun w => leBytes w.toNat 4) ++ (x.stamps.toList.flatMap fun t => leBytes t.toNat 3) ++ leBytes 0 8

/-- An issue record (R356). -/
def IssueRec.bytes (b : Block) (r : IssueRec) : List Byte :=
  leBytes (r.cyc.toNat % 2 ^ 36 + r.kind.toNat * 2 ^ 36 + r.grp.toNat * 2 ^ 38 + r.gthread.toNat * 2 ^ 46 +
    r.ord.toNat % b.shape.w * 2 ^ 50) 8 ++ leBytes (r.ord.toNat + r.gpclo.toNat * 2 ^ 32) 8

/-- The PC of a slice: of its group, or the ordinal of its EXIT (R355). -/
def Gang.slicePc (g : Gang) (j : Nat) : Word :=
  match g.groups.find? fun x => x.mask.getLsbD j with
  | some x => x.pc
  | none => if g.exited.getLsbD j then vat g.exitOrd 0 j else 0

/-- The group mask of a slice; 0 when absent or exited. -/
def Gang.sliceGroup (g : Gang) (j : Nat) : BitVec 8 :=
  match g.groups.find? fun x => x.mask.getLsbD j with
  | some x => x.mask
  | none => 0

/-- Bytes laid out to a length. -/
def padTo (n : Nat) (l : List Byte) : List Byte := (l ++ List.replicate (n - l.length) 0).take n

/-- R355: the register areas of a dump of a gang. -/
def State.dumpRegs (s : State) (core slot gang base : Nat) : State :=
  match s.block? core slot, s.gang? core slot gang with
  | some b, some g =>
    let s := s.devWrite (base + 0x80) (padTo 1024 (g.issues.reverse.flatMap (IssueRec.bytes b)))
    let s := s.devWrite (base + 0x480) (padTo 832 [])
    let s := s.devWrite (base + 0x800) ((List.range 16).flatMap fun i =>
      let x := g.viewW 0 i
      leBytes x.val.toNat 8 ++ leBytes x.stamp.toNat 3 ++ leBytes 0 5)
    let s := s.devWrite (base + 0x900) (padTo 128 ((g.k.toList.flatMap fun w => leBytes w.toNat 4) ++
      leBytes g.exec.toNat 4 ++ leBytes g.dmask.toNat 4 ++ leBytes g.pmask.toNat 4 ++ leBytes g.spp 4 ++
      ((List.range 8).flatMap fun j => leBytes (g.slicePc j).toNat 4) ++
      ((List.range 8).map g.sliceGroup)))
    (List.range b.shape.n).foldl (fun s i => s.devWrite (base + 0x1000 + 160 * i) (frameBytes (g.readV 0 i))) s
  | _, _ => s

/-- R354, R355: a dump of a kind; `who` is the gang it names, `area` the kind 2 area. On a stack that is not ready the test of
the slot's valid bit meets the writes that the stack holds (R366). -/
def State.dump (s : State) (ctx kind : Nat) (who : Option (Nat × Nat × Nat)) (r : Record) (area : List Byte) : State :=
  let c := s.ctx ctx
  if c.dslots = 0 then s
  else
    let base := c.dbase.toNat * 32768 + c.dnext.toNat * 32768
    if !backed base 64 then s
    else if bitAt ((if s.memReady base then s else s.releaseHeld (baseOf base)).mem.nat base 8) 63 then s.ctxCount ctx .dumpDrop
    else
      let n := match who with
        | some (core, slot, _) => if kind = 2 then 0 else ((s.block? core slot).map (·.shape.n)).getD 0
        | none => 0
      let gang := match who with
        | some (_, _, g) => g
        | none => 0xFF
      let head := kind * 2 ^ 56 + gang * 2 ^ 48 + n * 2 ^ 40 + c.dseq.toNat
      let s := s.devWrite (base + 0x40) r.bytes
      let s := match who with
        | some (core, slot, g) =>
          if kind = 2 then
            let s := match s.block? core slot, s.gang? core slot g with
              | some b, some x => s.devWrite (base + 0x80) (padTo 1024 (x.issues.reverse.flatMap (IssueRec.bytes b)))
              | _, _ => s
            (s.devWrite (base + 0x480) (padTo 832 area)).devWrite (base + 0x800) (padTo 384 [])
          else s.dumpRegs core slot g base
        | none => (s.devWrite (base + 0x80) (padTo (1024 + 832) [])).devWrite (base + 0x800) (padTo 384 [])
      let s := s.devWrite base (padTo 64 (leBytes (2 ^ 63 + head) 8))
      let c := s.ctx ctx
      s.setCtx ctx { c with
        dnext := BitVec.ofNat _ ((c.dnext.toNat + 1) % c.dslots.toNat)
        dseq := c.dseq + 1 }

/-! ### The end of a context -/

/-- R175: the dirty stash lines of a block that leaves are written back. -/
def State.stashSave (s : State) (core slot : Nat) : State :=
  match s.block? core slot with
  | some b => b.stash.foldl (fun s e =>
      if e.2.dirty then (s.snoopBut (some (core, slot)) (some e.1) (e.2.pa / 128) true).homeLine e.2 else s) s
  | none => s

/-- Units of a context's save area given back. -/
def State.freeUnits (s : State) (ctx n : Nat) : State := s.setCtx ctx { s.ctx ctx with saveUsed := (s.ctx ctx).saveUsed - n }

/-- Units that gangs of a block evicted on their own have taken (R332). -/
def Block.gangUnits (b : Block) : Nat := (b.gangs.map (·.saved)).foldl (· + ·) 0

/-- A block removed from its core, with the commands of its ferry and engine slots. -/
def State.dropBlock (s : State) (core slot : Nat) : State :=
  let s := s.stashSave core slot
  let s := match s.block? core slot with
    | some b => s.freeUnits b.ctx b.gangUnits
    | none => s
  let c := s.core core
  s.setCore core { c with
    blocks := Tbl.erase c.blocks slot
    ferry := c.ferry.filter fun f => f.slot != slot
    ferryWait := c.ferryWait.filter fun f => f.1 != slot
    eng := c.eng.filter fun e =>
      match e with
      | .feed _ sl _ _ _ _ _ _ _ _ _ _ _ _ _ => sl != slot
      | .drain _ sl _ _ _ _ => sl != slot }

/-- The context of a saved block. -/
def Saved.ctx (x : Saved) : Nat :=
  match x with
  | .block _ b _ => b.ctx
  | .node _ b _ _ _ => b.ctx

/-- R316: every block, thread and cube node of a context stopped and discarded; packets, instances and saves freed. -/
def State.discard (s : State) (ctx : Nat) : State :=
  let s := s.blocks.foldl (fun s p =>
    if p.2.2.ctx = ctx then
      let s := s.dropBlock p.1 p.2.1
      if p.2.2.control then s.setCube (clusterOf p.1) Cube.reset else s
    else s) s
  let c := s.ctx ctx
  let s := s.setCtx ctx { c with
    lqd := c.lqd.map fun q => (q.1, { q.2 with head := q.2.tail })
    saveUsed := 0
    cut := none }
  { s with
    insts := s.insts.filter fun x => x.ctx != ctx
    compl := s.compl.filter fun x => x.ctx != ctx
    saved := s.saved.filter fun x => x.ctx != ctx
    nets := s.nets.filter fun x => fld x.node 63 52 != ctx }

/-- R316: a context TERMINATED or LOST with a cause code. -/
def State.endCtx (s : State) (ctx : Nat) (st : CtxSt) (code : Nat) : State :=
  let s := s.discard ctx
  s.setCtx ctx { s.ctx ctx with st := st, cause := BitVec.ofNat 16 code }

/-- R338, R355: a context ended by no gang: a record that only its context, detail and tide stamp fill, its dump and its
debug event. -/
def State.endBare (s : State) (ctx : Nat) (st : CtxSt) (detail code : Nat) : State :=
  let r := { Record.zero with
    cause := causeWord ctx false false false false detail code, place := BitVec.ofNat 64 ((s.now ctx).toNat * 2 ^ 40) }
  ((s.dump ctx 1 none r []).postEvent ctx r).endCtx ctx st code

/-- R105, R348, R354: a fault terminates the context: dump of kind 1, debug event, TERMINATED with the cause. -/
def State.fatal (s : State) (ctx : Nat) (who : Option (Nat × Nat × Nat)) (r : Record) (code : Nat) : State :=
  ((s.dump ctx 1 who r []).postEvent ctx r).endCtx ctx .terminated code

/-! ### Mailbox queues -/

def Waiter.isGang (w : Waiter) (gang : Nat) : Bool :=
  match w with
  | .group g _ => g == gang
  | .read g _ => g == gang
  | .thread => false

def Block.onMb (b : Block) (i : Nat) (f : Mailbox → Mailbox) : Block :=
  { b with mbs := vput b.mbs i (f (vat b.mbs Mailbox.empty i)) }

/-- A writer may fill the mailbox: it is empty and no earlier waiter stands before this one (R91). -/
def Mailbox.canWrite (m : Mailbox) (w : Waiter) : Bool := !m.full && (m.writers.isEmpty || m.writers.head? == some w)
def Mailbox.write (m : Mailbox) (w : Waiter) (v : SVal) : Mailbox :=
  { m with v := v, full := true, writers := m.writers.filter (· != w) }
def Mailbox.queueW (m : Mailbox) (w : Waiter) : Mailbox := if m.writers.contains w then m else { m with writers := m.writers ++ [w] }
/-- A reader may take the mailbox: it is full and no earlier waiter stands before this one. -/
def Mailbox.canRead (m : Mailbox) (w : Waiter) : Bool := m.full && (m.readers.isEmpty || m.readers.head? == some w)
/-- R90: the read empties the mailbox; its value stays as it was. -/
def Mailbox.read (m : Mailbox) (w : Waiter) : Mailbox := { m with full := false, readers := m.readers.filter (· != w) }
def Mailbox.queueR (m : Mailbox) (w : Waiter) : Mailbox := if m.readers.contains w then m else { m with readers := m.readers ++ [w] }

/-- A gang that goes on: its groups that wait at an MBWR stand in the queues of their mailboxes, new ones at the tail. -/
def Block.queueWrites (b : Block) (i : Nat) : Block :=
  match b.gangs[i]? with
  | some g => g.groups.foldl (fun b x => match x.wait with
      | .mbwr m => b.onMb m.toNat (·.queueW (.group i x.mask))
      | _ => b) b
  | none => b

/-- R134: the pending mailbox reads of a gang are posted again, at the tails of the queues. -/
def Block.queueReads (b : Block) (i : Nat) : Block :=
  match b.gangs[i]? with
  | some g => g.pend.foldl (fun b q => match q.val with
      | .mail _ m => if q.returned then b else b.onMb m.toNat (·.queueR (.read i q.id))
      | _ => b) b
  | none => b

/-- The thread leaves every mailbox queue (R104: an interrupted wait counts as not yet executed). -/
def Block.threadLeaves (b : Block) : Block :=
  { b with
    mbs := vec 16 fun i =>
      let m := vat b.mbs Mailbox.empty i
      { m with readers := m.readers.filter (· != .thread), writers := m.writers.filter (· != .thread) } }

/-- A gang's waiting writes, and its posted reads when `reads`, leave every mailbox queue. -/
def Block.gangLeaves (b : Block) (gang : Nat) (reads : Bool) : Block :=
  { b with
    mbs := vec 16 fun i =>
      let m := vat b.mbs Mailbox.empty i
      { m with
        readers := if reads then m.readers.filter fun w => !w.isGang gang else m.readers
        writers := m.writers.filter fun w => !w.isGang gang } }

/-! ### Faults of a generator thread (R104 to R106) -/

/-- The trap bank as a fault writes it (R105): h25 to h30, each with stamp AGELESS. -/
def trapBank (h : Vector SVal 32) (r : Record) (h30 : DWord) : Vector SVal 32 :=
  let put (h : Vector SVal 32) (i : Nat) (x : DWord) := vput h i ⟨x, ageless⟩
  put (put (put (put (put (put h 25 r.site) 26 r.prov) 27 r.loc) 28 (r.cause &&& 0xFFFFFFFF)) 29 r.addr) 30 h30

/-- R105: the thread enters its handler. -/
def State.enterHandler (s : State) (core slot : Nat) (r : Record) (h30 : DWord) : State :=
  s.onBlock core slot fun b =>
    let b := b.threadLeaves
    { b with th := { b.th with
        h := trapBank b.th.h r h30
        handler := true
        wait := .none
        pc := b.image + BitVec.ofNat 64 b.trap } }

/-- R104 to R106: a G-level fault of a thread, precise at its instruction; `h30` is the PC that GRETH returns to, `d`
marks a deferred cube fault (R300). -/
def State.gFault (s : State) (core slot code detail : Nat) (addr h30 : DWord) (d : Bool) : State :=
  match s.block? core slot with
  | none => s
  | some b =>
    let active := b.th.handler
    let r : Record :=
      { cause := if active then causeWord b.ctx true false false false code 0x15
          else causeWord b.ctx true d false false detail code
        loc := 1 <<< 63, addr := addr, pc := h30, site := 0, prov := 0, node := b.node
        place := s.placeWord b.ctx core slot }
    if active then s.fatal b.ctx none r 0x15
    else if b.trap = 0 then s.fatal b.ctx none r code
    else s.enterHandler core slot r h30

/-- A G-level fault at the thread's current instruction. -/
def State.gTrap (s : State) (core slot code detail : Nat) (addr : DWord) : State :=
  match s.block? core slot with
  | some b => s.gFault core slot code detail addr b.th.pc false
  | none => s

/-- R106: GRETH: the flag falls, the thread resumes at h30, and for a W-level fault the gang of h27 runs again. -/
def State.returnHandler (s : State) (core slot : Nat) : State :=
  match s.block? core slot with
  | none => s
  | some b =>
    let h27 := (vat b.th.h SVal.zero 27).val
    let h30 := (vat b.th.h SVal.zero 30).val
    let s := s.onThread core slot fun t => { t with handler := false, pc := h30 &&& ~~~(3 : DWord) }
    if h27.getLsbD 63 then s
    else
      let i := fld h27 3 0
      s.onBlock core slot fun b => (b.onGang i fun g =>
        if g.faultParked then
          { g with
            faultParked := false
            st := if g.groups.isEmpty then .idle else if g.halted then .parked else .running }
        else g).queueWrites i

/-! ### Stopping a gang; W-level faults -/

/-- R104: a record of gang `gang` enters the queue of its thread in cycle `cyc`: oldest first, and among the records of one
cycle the lower gang first. -/
def Thread.enqueue (t : Thread) (cyc : DWord) (gang : Nat) (r : Record) : Thread :=
  let n := if t.qcycle = cyc then min t.qtail t.queue.length else 0
  let old := t.queue.take (t.queue.length - n)
  let new := t.queue.drop (t.queue.length - n)
  { t with
    queue := old ++ (new.takeWhile fun q => fld q.loc 3 0 < gang) ++ [r] ++ new.dropWhile fun q => fld q.loc 3 0 < gang
    qcycle := cyc
    qtail := n + 1 }

/-- The records of gang `gang` leave the queue. -/
def Thread.dequeue (t : Thread) (gang : Nat) : Thread :=
  let keep (q : Record) : Bool := fld q.loc 3 0 != gang
  { t with
    queue := t.queue.filter keep
    qtail := ((t.queue.drop (t.queue.length - min t.qtail t.queue.length)).filter keep).length }

/-- R104: a W-level fault: the gang parks, and its record enters the thread's queue. With a halt requested it is also
halted (R359). -/
def State.wFault (s : State) (core slot gang : Nat) (m : BitVec 8) (o : Word) (code detail : Nat) : State :=
  let r := s.gangRecord core slot gang m o false false detail code
  let s := s.onGang core slot gang fun g =>
    { g with st := .parked, faultParked := true, halted := g.halted || g.req == .halt || g.req == .step }
  s.onBlock core slot fun b =>
    let b := b.gangLeaves gang false
    if b.th.queue.any fun q => fld q.loc 3 0 == gang then b
    else { b with th := b.th.enqueue (s.core core).cycle gang r }

/-- The slices of a gang that take part: present and not exited. -/
def Gang.live (g : Gang) : BitVec 8 := g.groups.foldl (fun a x => a ||| x.mask) 0

/-- The present slices of a gang (R110): the block's shape gives their number. -/
def Shape.present (x : Shape) : BitVec 8 := BitVec.ofNat 8 (2 ^ x.slices - 1)

/-- A group as it starts at a PC. -/
def Group.start (m : BitVec 8) (pc : Word) (last : Nat) : Group :=
  { mask := m, pc := pc, wait := .none, parked := false, run := none, last := last, passed := false, matched := false, site := none
    held := none
    counted := [] }

/-- R255, R342: the gang is taken back to its region entry. -/
def Gang.rollback (g : Gang) (now : Stamp) : Gang :=
  match g.snap with
  | none => g
  | some n =>
    let g := g.settle now
    { g with
      groups := (n.groups.filter fun x => x.1 &&& ~~~g.exited != 0).map fun x =>
        { Group.start (x.1 &&& ~~~g.exited) x.2 0 with site := g.site }
      dmask := n.dmask
      pmask := n.pmask
      spp := n.spp
      stack := n.stack
      window := []
      pend := []
      late := none
      afterRb := true }

/-- The ordinal of the current region entry. -/
def Gang.entryOrd (g : Gang) : Word := (g.snap.map (·.ord)).getD 0

/-- FERRY commands of a gang held at issue are given up: their words count as not executed, and the tags are pending no
longer (log 21). -/
def State.unhold (s : State) (core slot gang : Nat) (p : BitVec 8 → Bool) : State :=
  let c := s.core core
  let out := c.ferryWait.filter fun f => f.1 == slot && f.2.1 == gang && p f.2.2.1
  let s := s.setCore core { c with ferryWait := c.ferryWait.filter fun f => !(f.1 == slot && f.2.1 == gang && p f.2.2.1) }
  s.onBlock core slot fun b =>
    { b with tagpend := out.foldl (fun t f => t &&& ~~~((1 : DWord) <<< f.2.2.2.tag.toNat)) b.tagpend }

/-- R255 for a gang of a block: it also leaves the mailbox queues and the ferry's admission. -/
def State.rollback (s : State) (core slot gang : Nat) : State :=
  match s.block? core slot with
  | none => s
  | some b =>
    let now := s.now b.ctx
    (s.onBlock core slot fun b => (b.gangLeaves gang true).onGang gang (·.rollback now)).unhold core slot gang fun _ => true

/-- R255: a late fault that is delivered: rollback, then a W-level fault with the ordinal of the region entry. -/
def State.lateFault (s : State) (core slot gang : Nat) (m : BitVec 8) (code detail : Nat) : State :=
  let s := s.rollback core slot gang
  match s.gang? core slot gang with
  | some g => s.wFault core slot gang m g.entryOrd code detail
  | none => s

/-- R341: the gang unwinds to the handler on top of its containment stack. -/
def State.unwind (s : State) (core slot gang : Nat) (o : Word) (code detail : Nat) : State :=
  match s.block? core slot with
  | none => s
  | some b =>
    let now := s.now b.ctx
    let all := laneMask b.shape.present
    let s := s.onBlock core slot fun b => (b.gangLeaves gang true).onGang gang fun g =>
      match g.stack with
      | [] => g
      | h :: rest =>
        let m := g.live
        let g := g.settle now
        { g with
          stack := rest
          groups := if m = 0 then [] else [{ Group.start m h 0 with site := g.site }]
          dmask := all
          pmask := all
          window := []
          pend := []
          late := none
          w := vput g.w 13 ⟨BitVec.ofNat 64 (o.toNat * 2 ^ 32 + detail * 2 ^ 16 + code), ageless⟩ }
    (s.unhold core slot gang fun _ => true).ctxCount b.ctx .containUnwind

/-- R341, R343: poison or a pipeline error consumed by a word of a gang. -/
def State.consume (s : State) (core slot gang : Nat) (m : BitVec 8) (o : Word) (code detail : Nat) : State :=
  match s.gang? core slot gang with
  | some g => if g.stack.isEmpty then s.lateFault core slot gang m code detail
    else s.unwind core slot gang o code detail
  | none => s

/-- A record of the gang is in the thread's queue. -/
def Block.queued (b : Block) (gang : Nat) : Bool := b.th.queue.any fun q => fld q.loc 3 0 == gang

/-- A late fault takes a gang back whose precise fault no handler has taken yet: the record leaves the queue, since the
replay executes the faulting word again (log 20). -/
def State.supersede (s : State) (core slot gang : Nat) : State :=
  match s.block? core slot with
  | some b =>
    if b.queued gang then
      s.onBlock core slot fun b =>
        { b with th := b.th.dequeue gang }.onGang gang fun g =>
          if g.faultParked then { g with faultParked := false, st := if g.halted then .parked else .running } else g
    else s
  | none => s

/-- R343, R253, R212, R259: what a late fault of a word does once every other result has been written. -/
def State.lateDone (s : State) (core slot gang : Nat) (c : LateCause) (o : Word) (m : BitVec 8) : State :=
  let s := s.supersede core slot gang
  match c with
  | .translation d => s.lateFault core slot gang m 0x22 d
  | .poison => s.consume core slot gang m o 0x23 0
  | .pipeline u => s.consume core slot gang m o 0x80 u
  | .freshness d => s.lateFault core slot gang m 0x30 d
  | .migrate va => (s.rollback core slot gang).onGang core slot gang fun g => { g with heldOn := some va }
  | .refire d va =>
    match s.block? core slot, s.gang? core slot gang with
    | some b, some g =>
      match va with
      | none => s.lateFault core slot gang m 0x30 (d + 3 * 32)
      | some va =>
        match s.refire b.ctx va g.refires (s.prioOf b.node) with
        | (s, .wait) => s
        | (s, .escalate x) => s.lateFault core slot gang m 0x30 (d + x * 32)
        | (s, .on node) =>
          (s.rollback core slot gang).onGang core slot gang fun g =>
            { g with refires := g.refires + 1, refireOn := some node }
    | _, _ => s

/-- A late fault takes effect when no other result of the gang is outstanding (R255 step 1, R341 step 1), and not while a
handler has the gang's earlier fault in hand (log 20). -/
def State.lateTry (s : State) (core slot gang : Nat) : State :=
  match s.block? core slot, s.gang? core slot gang with
  | some b, some g =>
    match g.late with
    | some (c, o, m) =>
      if (g.pend.any fun p => !p.returned) || (g.faultParked && !b.queued gang) then s else s.lateDone core slot gang c o m
    | none => s
  | _, _ => s

/-- A word raises a late fault: the gang issues nothing more until it has been resolved. The first one stands. -/
def State.raiseLate (s : State) (core slot gang : Nat) (c : LateCause) (o : Word) (m : BitVec 8) : State :=
  (s.onGang core slot gang fun g => if g.late.isSome then g else { g with late := some (c, o, m) }).lateTry core slot gang

/-- A stop of a translated access as a late fault of a word. -/
def Stop.late (e : Stop) (va : DWord) : LateCause :=
  match e with
  | .fault d => .translation d
  | .migrate => .migrate va
  | .wait => .migrate va

end Sys2Proof.Machine
end

