-- ==== Sys2Proof/Machine/Sync.lean ====
section
/-! DEFINITION. What agents wait on: wheels (R166 to R171), arrivals of gangs and blocks, the block, quad, die, package
and pod barriers (R129 to R132), barrier objects (R133), REGANG (R111), EXIT (R112). -/

namespace Sys2Proof.Machine

/-! ### Wheels -/

/-- Advance of a fill pointer while its stage is full (R169). DESIGN CHOICE, log 30: the loop is followed as it stands, also
where a stage fills while F − P is already count. -/
def Wheel.fillGo (w : Wheel) : Nat → Wheel
  | 0 => w
  | n + 1 =>
    if Tbl.getD w.fillc w.fs 0 = w.desc.fills + 1 then
      { w with fillc := Tbl.erase w.fillc w.fs, f := w.f + 1, fs := (w.fs + 1) % w.desc.count }.fillGo n
    else w

/-- Advance of a drain pointer while its stage is drained (R169). -/
def Wheel.drainGo (w : Wheel) : Nat → Wheel
  | 0 => w
  | n + 1 =>
    if Tbl.getD w.drainc w.ps 0 = w.desc.drains + 1 ∧ w.f ≠ w.p then
      { w with drainc := Tbl.erase w.drainc w.ps, p := w.p + 1, ps := (w.ps + 1) % w.desc.count }.drainGo n
    else w

/-- R169: a fill arrival at a physical stage; none where it is discarded. -/
def Wheel.fillArrive (w : Wheel) (stage : Nat) : Option Wheel :=
  let c := Tbl.getD w.fillc stage 0
  if c = w.desc.fills + 1 then none
  else some ({ w with fillc := Tbl.set w.fillc stage (c + 1) }.fillGo w.desc.count)

/-- R169: a drain arrival at a physical stage; none where it is discarded. -/
def Wheel.drainArrive (w : Wheel) (stage : Nat) : Option Wheel :=
  let c := Tbl.getD w.drainc stage 0
  if c = w.desc.drains + 1 then none
  else some ({ w with drainc := Tbl.set w.drainc stage (c + 1) }.drainGo w.desc.count)

/-- Stages filled and not drained (R169). -/
def Wheel.held (w : Wheel) : Nat := (w.f - w.p).toNat

def Block.wheel (b : Block) (i : Nat) : Wheel := vat b.wheels (Wheel.start WheelDesc.none) i
def Block.setWheel (b : Block) (i : Nat) (w : Wheel) : Block := { b with wheels := vput b.wheels i w }

/-- R169: a discarded arrival is counted twice. WHEEL_DISCARD of a core is its counter 0 (R374). -/
def State.wheelDiscard (s : State) (core ctx : Nat) : State :=
  (s.ctxCount ctx .wheelDiscard).count (coreCtr core 0) 1

/-- A fill arrival at stage `st` of wheel `i` of a block. -/
def State.fillArrive (s : State) (core slot i st : Nat) : State :=
  match s.block? core slot with
  | none => s
  | some b =>
    match (b.wheel i).fillArrive st with
    | some w => s.setBlock core slot (b.setWheel i w)
    | none => s.wheelDiscard core b.ctx

/-- A drain arrival at stage `st` of wheel `i` of a block. -/
def State.drainArrive (s : State) (core slot i st : Nat) : State :=
  match s.block? core slot with
  | none => s
  | some b =>
    match (b.wheel i).drainArrive st with
    | some w => s.setBlock core slot (b.setWheel i w)
    | none => s.wheelDiscard core b.ctx

/-- Where a scratchpad address of an access leads. -/
inductive Spot where
  | ok (off : Nat)
  | extent
  | stall
  deriving DecidableEq, Repr

/-- R166, R170: a wheel address of an access of `z` bytes. -/
def Block.wheelSpot (b : Block) (wa : Word) (z : Nat) : Spot :=
  let w := b.wheel (bits wa.toNat 31 30)
  let r := bits wa.toNat 28 24
  let byte := bits wa.toNat 23 0
  if !w.desc.valid || w.desc.count ≤ r || 2 ^ w.desc.size < byte + z then .extent
  else
    let at' (st : Nat) := w.desc.base + (st + r) % w.desc.count * 2 ^ w.desc.size + byte
    if bitAt wa.toNat 29 then (if w.desc.count ≤ w.held + r then .stall else .ok (at' w.fs))
    else (if w.held ≤ r then .stall else .ok (at' w.ps))

/-! ### Arrivals of a gang -/

/-- Keys of the arrival table of a gang. -/
def arrBar (b : BitVec 4) : Nat := b.toNat
def arrFill (n : BitVec 2) : Nat := 16 + n.toNat
def arrDrain (n : BitVec 2) : Nat := 20 + n.toNat
def arrNet (level : Nat) (b : Nat) : Nat := 32 + 16 * level + b
/-- The key under which a gang keeps that it has arrived at a quad or network barrier. -/
def arrDone (level : Nat) (b : Nat) : Nat := 132 + 16 * level + b

def arrVec (t : Tbl (Vector Nat 8)) (k : Nat) : Vector Nat 8 := Tbl.getD t k (Vector.replicate 8 0)

/-- R129: the slices of a group have issued a barrier word. -/
def Gang.issued (g : Gang) (k : Nat) (m : BitVec 8) : Gang :=
  { g with arr := Tbl.set g.arr k (vec 8 fun j => vat (arrVec g.arr k) 0 j + if m.getLsbD j then 1 else 0) }

/-- Every present, non-exited slice has issued the word: one arrival is taken (R129). -/
def Gang.arrived (g : Gang) (k : Nat) : Option Gang :=
  let v := arrVec g.arr k
  let live := g.live
  if live ≠ 0 ∧ ((List.range 8).all fun j => !live.getLsbD j || vat v 0 j != 0) then
    some { g with arr := Tbl.set g.arr k (vec 8 fun j => if live.getLsbD j then vat v 0 j - 1 else 0) }
  else none

/-- Groups of a gang released from a wait go on after the word they wait at. -/
def Gang.release (g : Gang) (p : WWait → Bool) : Gang :=
  { g with groups := g.groups.map fun x => if p x.wait then { x with wait := .none, pc := x.pc + 1, held := none } else x }

/-- Groups of a gang whose wait is replaced by another. -/
def Gang.rewait (g : Gang) (p : WWait → Bool) (w : WWait) : Gang :=
  { g with groups := g.groups.map fun x => if p x.wait then { x with wait := w } else x }

/-- Every gang of a block changed. -/
def Block.mapGangs (b : Block) (f : Gang → Gang) : Block := { b with gangs := b.gangs.map f }

/-- The mask of all gangs of a block. -/
def Shape.allGangs (x : Shape) : BitVec 16 := BitVec.ofNat 16 (2 ^ x.gangs - 1)

/-- R130: gang `i` arrives at block barrier `b`; the completion releases every waiting gang. -/
def Block.barArrive (x : Block) (i : Nat) (b : BitVec 4) : Block :=
  let old := vat x.bars ⟨0, false⟩ b.toNat
  let mask := old.mask ||| BitVec.ofNat 16 (2 ^ i)
  let x := x.onGang i (·.rewait (· == .barArr b) (.barDone b))
  if mask = x.shape.allGangs then
    { x.mapGangs (·.release (· == .barDone b)) with bars := vput x.bars b.toNat ⟨0, !old.phase⟩ }
  else { x with bars := vput x.bars b.toNat ⟨mask, old.phase⟩ }

/-! ### Quad and network barriers -/

/-- The wait of a group at a quad (level 0), die (1), package (2) or pod (3) barrier after its arrival. -/
def netDone (level : Nat) (b : Nat) : WWait :=
  if level = 0 then .qbarDone (BitVec.ofNat 4 b) else .nbarDone (BitVec.ofNat 2 (level - 1)) (BitVec.ofNat 4 b)
def netArr (level : Nat) (b : Nat) : WWait :=
  if level = 0 then .qbarArr (BitVec.ofNat 4 b) else .nbarArr (BitVec.ofNat 2 (level - 1)) (BitVec.ofNat 4 b)

/-- A change of every block of an instance, on the isles of `p`, resident or saved. -/
def State.onNode (s : State) (node : DWord) (p : Nat → Bool) (f : Block → Block) : State :=
  let s := s.blocks.foldl (fun s e =>
    if e.2.2.node = node ∧ p (isleOf e.1) then s.setBlock e.1 e.2.1 (f e.2.2) else s) s
  { s with
    saved := s.saved.map fun x =>
      match x with
      | .block isle b z => .block isle (if b.node = node ∧ p isle then f b else b) z
      | .node isle c cube fs z => .node isle c cube (fs.map fun b => if b.node = node ∧ p isle then f b else b) z }

/-- A gang released from a completed quad or network barrier. -/
def Gang.netRelease (g : Gang) (level b : Nat) : Gang :=
  let g := g.release (· == netDone level b)
  { g with arr := Tbl.erase g.arr (arrDone level b) }

/-- R129, R234: the L1s of the cores that hold blocks of an instance on the isles of `p` are emptied: what an acquire at QUAD
scope or wider does to them. -/
def State.nodeFlush (s : State) (node : DWord) (p : Nat → Bool) : State :=
  s.blocks.foldl (fun s e => if e.2.2.node = node ∧ p (isleOf e.1) then s.l1Flush e.1 else s) s

/-- The gangs of the blocks of an instance on the isles of `p`. -/
def State.nodeGangs (s : State) (node : DWord) (p : Nat → Bool) : List Who :=
  (s.blocks.filter fun e => e.2.2.node = node ∧ p (isleOf e.1)).flatMap fun e =>
    (List.range e.2.2.gangs.length).map fun g => .gang e.1 e.2.1 g

/-- R131, R129, R229: the barrier of an instance completes; for each waiter that is an acquire of what every gang released by its
arrival. -/
def State.netComplete (s : State) (node : DWord) (level isle b : Nat) : State :=
  let nets := s.nets.map fun (n : Net) =>
    if n.node = node ∧ n.level = level ∧ n.isle = isle ∧ n.b = b then
      { n with count := 0, phase := !n.phase, arrived := [] } else n
  let s := { s with nets := nets }
  let p (i : Nat) : Bool := level != 1 || i == isle
  let ws := s.nodeGangs node p
  ((s.nodeFlush node p).join ws fun w => ws.any (·.covers w)).onNode node p fun x => x.mapGangs (·.netRelease level b)

/-- The barrier of an instance as it stands. -/
def State.net (s : State) (node : DWord) (level isle b : Nat) : Net :=
  (s.nets.find? fun n => n.node == node && n.level == level && n.isle == isle && n.b == b).getD
    ⟨node, level, isle, b, 0, false, []⟩

def State.setNet (s : State) (n : Net) : State :=
  { s with nets := n :: s.nets.filter fun x =>
      !(x.node == n.node && x.level == n.level && x.isle == n.isle && x.b == n.b) }

/-- R129: expected arrivals of a quad, die, package or pod-member barrier. -/
def State.netExpect (s : State) (node : DWord) (level isle : Nat) : Nat :=
  match s.inst? node with
  | none => 0
  | some x =>
    let r := x.recd
    if level = 0 then r.feeders
    else if level = 1 then
      (r.ranges.zip x.isleOf).foldl (fun a e => if e.2 = isle then a + (e.1.last + 1 - e.1.lo) else a) 0
    else r.blocks

/-! ### Pod barriers (R132) -/

/-- A barrier flit (R370): the barrier number and phase in the address field, PODHOME and GROUP in bytes 16 to 31. -/
def podFlit (kind : FlitKind) (src dst : BitVec 9) (ctx : Nat) (home : BitVec 9) (group : DWord) (b : Nat) (phase : Bool) :
    Flit :=
  { kind := kind, seq := 0, src := src, dst := dst, ctx := BitVec.ofNat 12 ctx
    addr := BitVec.ofNat 57 (b + phase.toNat * 16), count := 1
    body := padTo 192 (leBytes home.toNat 8 ++ leBytes group.toNat 8), stamps := [], poison := 0 }

/-- A trained cape, the one of lowest number, by which a flit leaves (log 22). -/
def State.outCape? (s : State) : Option Nat := (List.range 4).find? fun c => s.ready.getLsbD (36 + c)

/-- R370: a flit leaves by a cape under the next sequence number, with the acknowledgement of what the cape has received, and stays in
the replay buffer until acknowledged. -/
def State.sendBy (s : State) (c : Nat) (f : Flit) : State :=
  let x := s.cape c
  let f := { f with seq := x.sendSeq, ack := some (x.recvSeq - 1) }
  let s := s.setCape c { x with sendSeq := x.sendSeq + 1, replay := x.replay ++ [(x.sendSeq, f, 0)] }
  { s with outbox := s.outbox ++ [(c, f)] }

/-- R245: nothing crosses a cape before it is trained; a barrier flit waits. -/
def State.sendFlit (s : State) (f : Flit) : State :=
  match s.outCape? with
  | some c => s.sendBy c f
  | none => { s with unsent := s.unsent ++ [f] }

/-- R370: an acknowledgement of a cape's flit; code 0 it has been received, 1 it is asked for again, 2 a write is refused.
Acknowledgements take no sequence number (log 22). -/
def State.sendAck (s : State) (c : Nat) (f : Flit) (seq : BitVec 12) (code : Byte) : State :=
  { s with outbox := s.outbox ++ [(c, { f with
      kind := .ack, seq := seq, src := s.pkg, dst := f.src, count := 1, body := [code], stamps := [], poison := 0, ack := none })] }

/-- R370: the flit is the next in sequence order at a trained cape. -/
def State.inSeq (s : State) (c : Nat) (f : Flit) : Bool :=
  c < 4 && s.ready.getLsbD (36 + c) && f.seq == (s.cape c).recvSeq

/-- R370: the flit is taken from the link, and acknowledged with a code. -/
def State.receive (s : State) (c : Nat) (f : Flit) (code : Byte) : State :=
  (s.setCape c { s.cape c with recvSeq := (s.cape c).recvSeq + 1 }).sendAck c f f.seq code

/-- The member instance of a pod group on this package. -/
def State.podMember? (s : State) (home : BitVec 9) (group : DWord) : Option Instance :=
  s.insts.find? fun x => x.hasKey && x.podhome == home && x.group == group && x.recd.podn != 0


/-- R132: a completion releases the waiting blocks of the members on this package, those all of whose blocks have arrived. -/
def State.podRelease (s : State) (home : BitVec 9) (group : DWord) (b : Nat) : State :=
  s.insts.foldl (fun s x =>
    if x.hasKey && x.podhome == home && x.group == group && x.recd.podn != 0 &&
        s.netExpect x.node 3 0 ≤ (s.net x.node 3 0 b).count && 0 < (s.net x.node 3 0 b).count then
      s.netComplete x.node 3 0 b
    else s) s

/-- R132: the home accepts an arrival of a package and completes the barrier when the count reaches PODN. Each package is
on the list once, however many of its instances have arrived. -/
def State.podAccept (s : State) (home : BitVec 9) (group : DWord) (b : Nat) (src : BitVec 9) (ctx podn : Nat) : State :=
  let p : PodBar := (s.pods.find? fun p => p.home == home && p.group == group && p.b == b).getD
    ⟨home, group, b, 0, false, []⟩
  let rest := s.pods.filter fun p => !(p.home == home && p.group == group && p.b == b)
  let members := if p.members.any fun m => m.1 == src then p.members else p.members ++ [(src, ctx)]
  if podn ≤ p.count + 1 then
    let s := { s with pods := { p with count := 0, phase := !p.phase, members := [] } :: rest }
    members.foldl (fun s m =>
      if m.1 = s.pkg then s.podRelease home group b
      else s.sendFlit (podFlit .barrierCompletion s.pkg m.1 m.2 home group b p.phase)) s
  else { s with pods := { p with count := p.count + 1, members := members } :: rest }

/-- R132: every block of a member has arrived: one arrival goes to the home. -/
def State.podArrive (s : State) (node : DWord) (b : Nat) (phase : Bool) : State :=
  match s.inst? node with
  | none => s
  | some x =>
    if x.podhome = s.pkg then s.podAccept x.podhome x.group b s.pkg x.ctx x.recd.podn
    else s.sendFlit (podFlit .barrierArrival s.pkg x.podhome x.ctx x.podhome x.group b phase)

/-- R129, R131: a block arrives at a quad or network barrier; the last arrival completes it. -/
def State.netArrive (s : State) (core : Nat) (node : DWord) (lin level b : Nat) : State :=
  let isle := if level = 1 then isleOf core else 0
  let n := s.net node level isle b
  let n := { n with count := n.count + 1, arrived := n.arrived ++ [lin] }
  let s := s.setNet n
  if n.count < s.netExpect node level isle then s
  else if level = 3 then s.podArrive node b n.phase
  else s.netComplete node level isle b

/-- A gang arrives at a quad or network barrier; with the last gang its block does (R129). -/
def State.netGang (s : State) (core slot gang level b : Nat) : State :=
  let s := s.onGang core slot gang fun g =>
    let g := g.rewait (· == netArr level b) (netDone level b)
    { g with arr := Tbl.set g.arr (arrDone level b) (Vector.replicate 8 1) }
  match s.block? core slot with
  | none => s
  | some x =>
    if x.gangs.all fun g => (Tbl.get? g.arr (arrDone level b)).isSome then s.netArrive core x.node x.lin level b else s

/-- The gangs of a block. -/
def State.blockGangs (s : State) (core slot : Nat) : List Who :=
  match s.block? core slot with
  | some b => (List.range b.gangs.length).map fun g => .gang core slot g
  | none => []

/-- R130: a gang arrives at a block barrier. Its completion acquires for the gangs what each released by its arrival (R229). -/
def State.barArrive (s : State) (core slot gang : Nat) (b : BitVec 4) : State :=
  let phase (s : State) : Option Bool := (s.block? core slot).map fun x => (vat x.bars ⟨0, false⟩ b.toNat).phase
  let t := s.onBlock core slot (·.barArrive gang b)
  if phase t = phase s then t
  else
    let ws := s.blockGangs core slot
    t.join ws fun w => ws.any (·.covers w)

/-- R129: what an arrival taken at key `k` does. -/
def State.arrive (s : State) (core slot gang k : Nat) : State :=
  if k < 16 then s.barArrive core slot gang (BitVec.ofNat 4 k)
  else if k < 20 then
    match s.block? core slot with
    | some b => s.fillArrive core slot (k - 16) (b.wheel (k - 16)).fs
    | none => s
  else if k < 24 then
    match s.block? core slot with
    | some b => s.drainArrive core slot (k - 20) (b.wheel (k - 20)).ps
    | none => s
  else s.netGang core slot gang ((k - 32) / 16) (k % 16)

/-- An arrival at key `k` if every live slice has issued the word. -/
def State.tryArrive (s : State) (core slot gang k : Nat) : State :=
  match (s.gang? core slot gang).bind (·.arrived k) with
  | some g => (s.onGang core slot gang fun _ => g).arrive core slot gang k
  | none => s

/-- The slices `m` have issued the barrier word of key `k` (R129). -/
def State.issueArrival (s : State) (core slot gang k : Nat) (m : BitVec 8) : State :=
  (s.onGang core slot gang (·.issued k m)).tryArrive core slot gang k

/-! ### Barrier objects (R133) -/

def scratchNow (s : State) (b : Block) : Stamp := s.now b.ctx

/-- A write of plain scratchpad by an engine, whole sectors or parts. -/
def State.spWrite (s : State) (core slot : Nat) (off : Nat) (l : List Byte) (r : StampRule) : State :=
  match s.block? core slot with
  | some b => s.setBlock core slot { b with sp := b.sp.putBytes (s.now b.ctx) off l r }
  | none => s

/-- R133: an arrival at the object at an offset of plain scratchpad; its sector keeps its stamp as a partial write of
an AGELESS value does. -/
def State.objArrive (s : State) (core slot off : Nat) : State :=
  match s.block? core slot with
  | none => s
  | some b =>
    let count := b.sp.nat off 4 + 1
    let expect := max (b.sp.nat (off + 4) 4) 1
    let phase := b.sp.nat (off + 8) 4
    if expect ≤ count then
      (s.spWrite core slot off (leBytes 0 4) (.normal ageless)).spWrite core slot (off + 8) (leBytes (phase + 1) 4) (.normal ageless)
    else s.spWrite core slot off (leBytes count 4) (.normal ageless)

/-- R133: the phase has reached the target. -/
def objReached (phase target : Word) : Bool := (phase - target).toNat < 2 ^ 31

/-! ### Releases of a gang (R182) -/

/-- A load or ATOM of a gang that has not returned (R182). -/
def Pend.isLoad (p : Pend) : Bool :=
  match p.val with
  | .lanes _ _ _ _ _ => true
  | .uni _ _ _ => true
  | _ => false

/-- R182: every earlier load and ATOM of the gang has returned and every earlier write is acknowledged for the scope. -/
def Gang.released (g : Gang) (scope : BitVec 3) : Bool :=
  !(g.pend.any fun p => p.isLoad && !p.returned) && ackedFor g.outst scope

/-- R175: the stash write-backs of a release or fence at a scope. -/
def State.scopeBack (s : State) (core slot gang : Nat) (scope : BitVec 3) : State :=
  if 4 ≤ scope.toNat then s.stashBackAll core slot gang else s

/-- R129: the scope at which a quad (0), die, package or pod barrier orders. -/
def netScope (level : Nat) : BitVec 3 := BitVec.ofNat 3 (3 + level)

/-! ### REGANG and EXIT -/

/-- R111: the rendezvous at `p` with mask `m` completes when every live participant waits there. DESIGN CHOICE, log 15: where a group
that holds every slice of the mask comes to it while another already waits there, R111 makes them one group; R158's group that
completes at once and goes on as it was is one that finds no other there. -/
def Gang.regangTry (g : Gang) (p : Word) (m : BitVec 8) : Gang :=
  let at' := g.groups.filter fun x => x.pc == p && x.wait == .regang m
  let here := at'.foldl (fun a x => a ||| x.mask) (0 : BitVec 8)
  let need := m &&& g.live
  if here ≠ 0 ∧ need &&& ~~~here = 0 then
    let parked := at'.any (·.parked)
    let rest := g.groups.filter fun x => !(x.pc == p && x.wait == .regang m)
    { g with groups := { Group.start here (p + 1) g.wnum with
      parked := parked
      passed := at'.all (·.passed)
      site := (at'.head?).bind (·.site) } :: rest }
  else g

/-- R129: the highest level of a quad or network barrier at which the gang arrives once the slices `m` have left it. -/
def Gang.leftLevel (g : Gang) (m : BitVec 8) : Option Nat :=
  let rest := { g with groups := g.groups.filter fun x => x.mask != m }
  (((g.arr.map (·.1)).filter fun k => 32 ≤ k && k < 132 && (rest.arrived k).isSome).map fun k => (k - 32) / 16).max?

/-- R112, R129: the slices `m` leave: their group goes, rendezvous and arrivals are tried again without them. -/
def State.exitSlices (s : State) (core slot gang : Nat) (m : BitVec 8) (o : Word) : State :=
  match s.gang? core slot gang with
  | none => s
  | some g0 =>
    let g := { g0 with
      groups := g0.groups.filter fun x => x.mask != m
      exited := g0.exited ||| m
      exitOrd := vec 8 fun j => if m.getLsbD j then o else vat g0.exitOrd 0 j }
    if g.groups.isEmpty then
      s.onGang core slot gang fun _ =>
        { g with st := .idle, arr := g.arr.filter (fun e => 132 ≤ e.1), halted := false, req := .none }
    else
      let g := g.groups.foldl (fun g x =>
        match x.wait with
        | .regang k => g.regangTry x.pc k
        | _ => g) g
      let s := s.onGang core slot gang fun _ => g
      (g.arr.map (·.1)).foldl (fun s k => if k < 132 then s.tryArrive core slot gang k else s) s

end Sys2Proof.Machine
end

