-- ==== Sys2Proof/Machine/Issue.lean ====
section
/-! DEFINITION. How a wide word issues: register field checks (R45, R177), pipes and chained runs (R31, R48, R49, R122),
the switch (R30, R121), STOP and IENTRY slots (R254, R344), the window and the issue records (R119, R356), the
lane-cycle record (R357), and the result of a word: it completes, waits, takes a W-level fault or a late fault. -/

namespace Sys2Proof.Machine

/-- The pipes of R122. -/
inductive Pipe where
  | fma | mem | sf
  deriving DecidableEq, Repr

/-- A register field of a word and how it is checked. -/
inductive RegField where
  /-- A vector register: below n, or vz. -/
  | v (f : BitVec 7)
  /-- The b operand: also 127, the literal (R41, R50). -/
  | b (f : BitVec 7)
  /-- The first of a group of k registers: a multiple of k, the whole group below n; k = 1 as `v` (R45, R177). -/
  | group (f : BitVec 7) (k : Nat)
  /-- Whether the field must also be a multiple of k on its own account (CAS, R177). -/
  | align (f : BitVec 7) (k : Nat)
  /-- The first of a pair of registers that must both lie below n (VDOT8, R150). -/
  | pair (f : BitVec 7)
  /-- A register below n, no vz (PUSHM and POPM ranges, R161; STOLD vb, R262). -/
  | strict (f : Nat)
  /-- A mask register in a 7-bit field. -/
  | kreg (f : BitVec 7)
  /-- A uniform register in a 7-bit field. -/
  | wreg (f : BitVec 7)
  deriving DecidableEq, Repr

/-- R45: the field is accepted in a gang of `n` registers. -/
def RegField.ok (x : RegField) (n : Nat) : Bool :=
  match x with
  | .v f => f.toNat < n || f == 126
  | .b f => f.toNat < n || f == 126 || f == 127
  | .group f k => if k ≤ 1 then f.toNat < n || f == 126 else f.toNat % k == 0 && f.toNat + k ≤ n
  | .align f k => f.toNat % k == 0
  | .pair f => f.toNat + 1 < n
  | .strict f => f < n
  | .kreg f => f.toNat < 8
  | .wreg f => f.toNat < 16

/-- The value that the fault's detail names (R338). -/
def RegField.val (x : RegField) : Nat :=
  match x with
  | .v f | .b f | .group f _ | .align f _ | .pair f | .kreg f | .wreg f => f.toNat
  | .strict f => f

/-- How a word issues: its marks, its pipe, its length in slots, its register fields. -/
structure How where
  s : Bool
  c : Bool
  pipe : Pipe
  size : Nat
  ctl : Bool
  fields : List RegField

/-- What a word sees at issue. -/
structure Env where
  s : State
  core : Nat
  slot : Nat
  gang : Nat
  b : Block
  g : Gang
  grp : Group
  now : Stamp

/-- The result of a word's meaning. -/
inductive Res where
  /-- The word completes; `tr` is its transient result. -/
  | done (s : State) (tr : Option Transient)
  /-- The word completes and its group goes on as these groups (a branch). -/
  | jump (s : State) (l : List (BitVec 8 × Word))
  /-- The word has not issued: its group waits at it and issues it again. -/
  | wait (s : State) (w : WWait)
  /-- The word has issued and its group waits at it; `k` then makes the arrival that may release it. -/
  | hold (s : State) (w : WWait) (k : State → State)
  /-- A W-level fault, precise at the word. -/
  | fault (s : State) (code detail : Nat)
  /-- A late fault of the word. -/
  | late (s : State) (c : LateCause)
  /-- The word has issued; each slice's PC is the word after, and `k` then acts (EXIT, TRAP, BRK). -/
  | leave (s : State) (k : State → State)

namespace Env

def m (e : Env) : BitVec 8 := e.grp.mask
def pc (e : Env) : Word := e.grp.pc
def ctx (e : Env) : Nat := e.b.ctx
def present (e : Env) : Word := laneMask e.b.shape.present
/-- The slices of the group, and those of its gang, as agents (R21, R225). -/
def ws (e : Env) : List Who := groupWho e.core e.slot e.gang e.m
def mine (e : Env) : Who → Bool := Who.ofGang e.core e.slot e.gang
/-- The active lanes of the word (R113). -/
def act (e : Env) : Word := e.g.exec &&& laneMask e.m

/-- A register as the word reads it: an absent lane yields 0, AGELESS (R138). -/
def reg (e : Env) (r : Nat) : VReg :=
  shown e.b.shape.present (e.g.readV e.m r)

/-- A uniform register as the word reads it. -/
def wreg (e : Env) (w : BitVec 4) : SVal := e.g.viewW e.m w.toNat

/-- The state after a change of the gang. -/
def onGang (e : Env) (f : Gang → Gang) : State := e.s.onGang e.core e.slot e.gang f

/-- A fixed-latency vector result on the active lanes, banked or transient (R32, R116). -/
def result (e : Env) (d : Nat) (t : Bool) (lanes : Vector Word 32) (st : Vector Stamp 8) : Res :=
  if t then .done e.s (mkTransient e.g e.now e.m d e.act lanes st)
  else .done (e.onGang fun g => g.writeV e.now d e.act lanes st) none

/-- A uniform register written. -/
def resultW (e : Env) (d : BitVec 4) (x : SVal) : Res := .done (e.onGang fun g => g.writeW e.m d.toNat x) none

/-- A pending variable-latency result. -/
def pend (e : Env) (s : State) (p : Pend) : State := s.onGang e.core e.slot e.gang fun g => g.pushPend p

end Env

/-- R254: the snapshot that an IENTRY slot records, as the gang stands before its word. -/
def Gang.snapshot (g : Gang) (o : Word) (spord : Option (BitVec 16)) : Snapshot :=
  { ord := o, spord := spord, groups := g.groups.map fun x => (x.mask, x.pc), dmask := g.dmask, pmask := g.pmask
    spp := g.spp, stack := g.stack }

/-- R344, R254, R259: what issuing the slot itself does: the last stop site, the region entry, the refire count. -/
def Gang.passSlot (g : Gang) (old : Gang) (o : Word) (x : Slot) : Gang :=
  if x.kind.toNat < 2 then g
  else
    let g := { g with site := some x.spord, siteOrd := o }
    if x.kind = 3 then
      { g with
        snap := some (old.snapshot o (some x.spord))
        refires := if g.afterRb then g.refires else 0
        afterRb := false }
    else g

/-- R356: the issue record of a word. -/
def issueRec (o : Word) (m : BitVec 8) (x : Slot) (cycle : DWord) : IssueRec :=
  { gpclo := x.gpclo, ord := o, gthread := x.gthread, grp := m, kind := x.kind, cyc := cycle }

/-- The gang after a word of the group has issued at `o`: slot, window, issue record. -/
def Gang.note (g : Gang) (old : Gang) (o : Word) (m : BitVec 8) (x : Slot) (cycle : DWord) (tr : Option Transient) : Gang :=
  let g := (g.passSlot old o x).pushWindow tr
  { g with issues := (issueRec o m x cycle :: g.issues).take 64 }

/-- R121: an S mark of a group takes effect: it parks while results are open, and closes them otherwise. -/
def Gang.switch (g : Gang) (m : BitVec 8) : Gang :=
  if g.awaits m then { g with groups := g.groups.map fun x => if x.mask = m then { x with parked := true } else x }
  else g.close m

/-- A change of the group with slices `m`. -/
def Gang.onGroup (g : Gang) (m : BitVec 8) (f : Group → Group) : Gang :=
  { g with groups := g.groups.map fun x => if x.mask = m then f x else x }

/-- The run of a group ends; its S marks apply (R31, R49). -/
def Gang.endRun (g : Gang) (m : BitVec 8) : Gang :=
  match g.groups.find? (·.mask == m) with
  | some x =>
    match x.run with
    | some r =>
      let g := g.onGroup m fun y => { y with run := none }
      if r.s then g.switch m else g
    | none => g
  | none => g

/-- R31: the run with one more word on a pipe; none where the word cannot be given its pipe. -/
def Run.add (r : Run) (p : Pipe) : Option Run :=
  match p with
  | .fma => if r.fma < 2 then some { r with fma := r.fma + 1 } else none
  | .mem => if r.mem then none else some { r with mem := true }
  | .sf => if r.sf then none else some { r with sf := true }

def Run.start : Run := ⟨0, false, false, false, false⟩

/-- R357: the next word of the group's open run issues in a later cycle. -/
def Group.lateRun (x : Group) : Group := { x with run := x.run.map fun r => { r with late := true } }

/-- R357: an issue of the group begins an issue cycle: it opens a run or goes on with one in a later cycle. -/
def Group.newCycle (x : Group) : Bool := x.run.all (·.late)

/-- R31, R48: the C mark of a word at `o` has effect. -/
def Block.chains (b : Block) (o : Word) (h : How) : Bool :=
  h.c && !h.ctl && h.size == 1 && o.toNat % 3 != 2 && o.toNat + 1 < b.s.toNat &&
    (let x := b.slotOf (o + 1)
     x.kind != 1 && (!needsTrail x.word || o.toNat + 2 < b.s.toNat))

/-- R357: the class counts of one issue cycle of a group that has passed `site`. -/
def State.laneCount (s : State) (core : Nat) (b : Block) (g : Gang) (m : BitVec 8) (site : Option (BitVec 16)) : State :=
  let c := s.core core
  if !c.lccfg.getLsbD 63 || fld c.lccfg 11 0 != b.ctx then s
  else
    let ord := (site.getD 0).toNat
    let bin := ((List.range 8).find? fun i =>
      let r := vat c.lcrange 0 i
      site.isSome && r.getLsbD 32 && fld r 15 0 ≤ ord && ord ≤ fld r 31 16).getD 8
    let add (t : Tbl DWord) (cls n : Nat) : Tbl DWord :=
      if n = 0 then t
      else
        let x := (Tbl.getD t (4 * bin + cls) 0).toNat + n
        Tbl.set t (4 * bin + cls) (BitVec.ofNat 64 (min x (2 ^ 64 - 1)))
    let pop (w : Word) : Nat := ((List.range 32).filter fun i => w.getLsbD i).length
    let lm := laneMask (m &&& b.shape.present)
    let t := add c.lccnt 0 (pop (lm &&& g.dmask &&& g.pmask))
    let t := add t 1 (pop (lm &&& ~~~g.dmask))
    let t := add t 2 (pop (lm &&& g.dmask &&& ~~~g.pmask))
    let t := add t 3 (32 - pop lm)
    s.setCore core { c with lccnt := t }

/-- R357: a cycle in which no word of the selected context issues counts 32 idle lanes. -/
def State.laneIdle (s : State) (core : Nat) : State :=
  let c := s.core core
  if !c.lccfg.getLsbD 63 then s
  else s.setCore core { c with lcidle := BitVec.ofNat 64 (min (c.lcidle.toNat + 32) (2 ^ 64 - 1)) }

/-- A word issues: the common part of every result in which it has issued. -/
def Env.commit (e : Env) (s : State) (h : How) (run : Option Run) (tr : Option Transient) : State :=
  let x := (e.b.slotFor e.grp).1
  let chained := e.b.chains e.pc h
  let cycle := (e.s.core e.core).cycle
  let s := if e.grp.newCycle then (if fld (s.core e.core).lccfg 11 0 == e.ctx then s.laneCount e.core e.b e.g e.m e.grp.site else s.laneIdle e.core) else s
  let r := (run.getD Run.start)
  s.onGang e.core e.slot e.gang fun g =>
    let g := g.note e.g e.pc e.m x cycle tr
    let g := g.onGroup e.m fun y =>
      { y with
        wait := .none
        run := some { r with s := r.s || h.s, late := false }
        last := g.wnum
        passed := false
        matched := false
        site := if x.kind.toNat < 2 then y.site else some x.spord
        held := none
        counted := [] }
    if chained then g else g.endRun e.m

/-- A word that faults ends its run first (R31; log 15). -/
def Env.cutRun (e : Env) (s : State) : State := s.onGang e.core e.slot e.gang fun g => g.endRun e.m

/-- What a word's result does to the machine. DESIGN CHOICE, log 15: a run whose next word has to wait stays open, so that
the pipes it has taken and its S marks stand until the word issues. -/
def Env.finish (e : Env) (h : How) (run : Option Run) (r : Res) : State :=
  let onGrp (s : State) (f : Group → Group) : State := s.onGang e.core e.slot e.gang fun g => g.onGroup e.m f
  let idle (s : State) : State := if e.grp.newCycle then s.laneIdle e.core else s
  match r with
  | .done s tr => onGrp (e.commit s h run tr) fun y => { y with pc := y.pc + BitVec.ofNat 32 h.size }
  | .jump s l =>
    (e.commit s { h with s := false } run none).onGang e.core e.slot e.gang fun g =>
      let rs := (run.getD Run.start).s
      let rest := g.groups.filter fun y => y.mask != e.m
      let site := ((g.groups.find? (·.mask == e.m)).map (·.site)).getD none
      let g := { g with groups := (l.map fun p => { Group.start p.1 p.2 g.wnum with site := site }) ++ rest }
      if h.s || rs then l.foldl (fun g p => g.switch p.1) g else g
  | .wait s w => onGrp (idle s) fun y => { y.lateRun with wait := w, held := some (e.b.slotFor e.grp) }
  | .hold s w k => k (onGrp (e.commit s h run none) fun y => { y with wait := w, held := some (e.b.slotFor e.grp) })
  | .fault s code detail => (e.cutRun (idle s)).wFault e.core e.slot e.gang e.m e.pc code detail
  | .late s c => (e.commit s h run none).raiseLate e.core e.slot e.gang c e.pc e.m
  | .leave s k => k (onGrp (e.commit s h run none) fun y => { y with pc := y.pc + BitVec.ofNat 32 h.size })

/-- The state after the word in hand issues for its group (tests 6 and 7 of R67, then its meaning). -/
def Env.issue (e : Env) (h : How) (body : Env → Res) : State :=
  match h.fields.find? fun f => !f.ok e.b.shape.n with
  | some f => e.finish h none (.fault e.s 0x02 f.val)
  | none =>
    match e.grp.run with
    | some r =>
      match r.add h.pipe with
      | none => e.finish h none (.fault e.s 0x05 0)
      | some r => e.finish h (some r) (body e)
    | none => e.finish h (Run.start.add h.pipe) (body e)

/-- What `State.cur` names for a wide word: a running gang and one of its groups. -/
def State.env? (s : State) : Option Env :=
  match s.cur with
  | .wide core slot gang mask =>
    match s.block? core slot with
    | some b =>
      match b.gangs[gang]? with
      | some g =>
        match g.groups.find? (·.mask == mask) with
        | some grp => some ⟨s, core, slot, gang, b, g, grp, s.now b.ctx⟩
        | none => none
      | none => none
    | none => none
  | _ => none

/-- The meaning of a wide word: one issue by the group in hand. -/
def wide (s : State) (h : How) (body : Env → Res) : Host.Outcome State Fault Refusal :=
  match s.env? with
  | some e => .next (e.issue h body)
  | none => .fault .noAgent

/-- What `State.cur` names for a generator word: a core and slot with a block. -/
def State.thread? (s : State) : Option (Nat × Nat × Block) :=
  match s.cur with
  | .gen core slot =>
    match s.block? core slot with
    | some b => some (core, slot, b)
    | none => none
  | _ => none

end Sys2Proof.Machine
end

