-- ==== Sys2Proof/Machine/WideAlu.lean ====
section
/-! DEFINITION. Wide integer, FP32 and packed arithmetic, special functions, adopt and float forms (R43, R138 to R146). -/

namespace Sys2Proof.Machine

/-- The b operand: a register, vz, or the trailing literal in every lane with stamp AGELESS (R138). -/
def Env.bop (e : Env) (b : BitVec 7) (lit : Word) : VReg :=
  if b = 127 then ⟨Vector.replicate 32 lit, Vector.replicate 8 ageless⟩ else e.reg b.toNat

/-- A value in every lane with one stamp: an immediate, a constant-bank word. -/
def splat (x : Word) (st : Stamp) : VReg := ⟨Vector.replicate 32 x, Vector.replicate 8 st⟩

/-- R139: Older of the sources, per slice, in operand order. -/
def olderOf (now : Stamp) (l : List VReg) : Vector Stamp 8 := vec 8 fun j => olderAll now (l.map fun x => stampAt x.stamps j)

def lanes1 (f : Word → Word) (a : VReg) : Vector Word 32 := vec 32 fun i => f (lane a.lanes i)
def lanes2 (f : Word → Word → Word) (a b : VReg) : Vector Word 32 := vec 32 fun i => f (lane a.lanes i) (lane b.lanes i)
def lanes3 (f : Word → Word → Word → Word) (d a b : VReg) : Vector Word 32 :=
  vec 32 fun i => f (lane d.lanes i) (lane a.lanes i) (lane b.lanes i)

/-- Slots of a register-format word (R50). -/
def litSize (b : BitVec 7) : Nat := if b = 127 then 2 else 1

def howReg (o : RegOp) (p : Pipe) : How := ⟨o.s, o.c, p, litSize o.b, false, [.v o.d, .v o.a, .b o.b]⟩
def howUn (o : UnOp) (p : Pipe) : How := ⟨o.s, o.c, p, 1, false, [.v o.d, .v o.a]⟩
def howImm (o : ImmOp) : How := ⟨o.s, o.c, .fma, 1, false, [.v o.d, .v o.a]⟩
def howAdopt (o : AdoptOp) : How := ⟨o.s, o.c, .fma, 1, false, [.v o.d, .v o.a, .v o.b]⟩

/-- Register and literal forms of two sources (R139, R142, R143, R146). -/
def alu2 (o : RegOp) (f : Word → Word → Word) (s : State) : Host.Outcome State Fault Refusal :=
  wide s (howReg o .fma) fun e =>
    let a := e.reg o.a.toNat
    let b := e.bop o.b o.lit
    e.result o.d.toNat o.t (lanes2 f a b) (olderOf e.now [a, b])

/-- Register and literal forms that read vd (R139). -/
def alu3 (o : RegOp) (f : Word → Word → Word → Word) (s : State) : Host.Outcome State Fault Refusal :=
  wide s (howReg o .fma) fun e =>
    let d := e.reg o.d.toNat
    let a := e.reg o.a.toNat
    let b := e.bop o.b o.lit
    e.result o.d.toNat o.t (lanes3 f d a b) (olderOf e.now [d, a, b])

/-- Unary fixed-latency forms. -/
def alu1 (o : UnOp) (f : Word → Word) (s : State) : Host.Outcome State Fault Refusal :=
  wide s (howUn o .fma) fun e =>
    let a := e.reg o.a.toNat
    e.result o.d.toNat o.t (lanes1 f a) a.stamps

/-- Immediate forms (R42): imm9 sign-extended, or unsigned for a shift amount. -/
def aluImm (o : ImmOp) (b : Word) (f : Word → Word → Word) (s : State) : Host.Outcome State Fault Refusal :=
  wide s (howImm o) fun e =>
    let a := e.reg o.a.toNat
    let b := splat b ageless
    e.result o.d.toNat false (lanes2 f a b) (olderOf e.now [a, b])

def sext9 (i : BitVec 9) : Word := i.signExtend 32

/-- A constant-bank operand (R42, R74). Its read raises no fault (R138): a word that cannot be read, or is poisoned, has a
value that no rule states (log 8). It waits for a page that is moved as every access does (R212). -/
def Env.withKc (e : Env) (i : Nat) (k : Env → VReg → Res) : Res :=
  match e.s.kword e.core e.b i with
  | (s, .ok (w, false)) => k { e with s := s } (splat w e.b.kstamp)
  | (s, .error .migrate) => .late s (.migrate (e.b.kbank + BitVec.ofNat 64 (4 * i)))
  | (s, .error .wait) => .wait s .base
  | (s, .ok (_, true)) | (s, .error (.fault _)) =>
    let (s, w) := s.freeWord
    k { e with s := s } (splat w e.b.kstamp)

/-- Constant-bank forms of two sources. -/
def aluKc (o : ImmOp) (f : Word → Word → Word) (s : State) : Host.Outcome State Fault Refusal :=
  wide s (howImm o) fun e => e.withKc o.i.toNat fun e b =>
    let a := e.reg o.a.toNat
    e.result o.d.toNat false (lanes2 f a b) (olderOf e.now [a, b])

/-- Constant-bank forms that read vd. -/
def aluKc3 (o : ImmOp) (f : Word → Word → Word → Word) (s : State) : Host.Outcome State Fault Refusal :=
  wide s (howImm o) fun e => e.withKc o.i.toNat fun e b =>
    let d := e.reg o.d.toNat
    let a := e.reg o.a.toNat
    e.result o.d.toNat false (lanes3 f d a b) (olderOf e.now [d, a, b])

/-- Adopt forms (R140): the stamp of the b register alone. -/
def aluAdopt (o : AdoptOp) (f : Word → Word → Word → Word) (s : State) : Host.Outcome State Fault Refusal :=
  wide s (howAdopt o) fun e =>
    let d := e.reg o.d.toNat
    let a := e.reg o.a.toNat
    let b := e.reg o.b.toNat
    e.result o.d.toNat false (lanes3 f d a b) b.stamps

/-- Special functions (R144): variable-latency, on the special pipe, stamp of va. -/
def aluSpecial (o : UnOp) (f : Word → Word) (s : State) : Host.Outcome State Fault Refusal :=
  wide s (howUn o .sf) fun e =>
    let a := e.reg o.a.toNat
    let p := Pend.new e.m e.pc (.spec o.d.toNat e.act (lanes1 f a) a.stamps) 1
    .done (e.pend e.s { p with tr := o.t, at' := e.now }) none

/-! ### Lane functions -/

def fw (n : Nat) : Word := BitVec.ofNat 32 n
def mulHigh (a b : Word) : Word := ((a.signExtend 64 * b.signExtend 64) >>> 32).setWidth 32
def sminW (a b : Word) : Word := if b.slt a then b else a
def smaxW (a b : Word) : Word := if a.slt b then b else a
def uminW (a b : Word) : Word := if b.ult a then b else a
def umaxW (a b : Word) : Word := if a.ult b then b else a
def shlW (a b : Word) : Word := a <<< (b.toNat % 32)
def shrW (a b : Word) : Word := a >>> (b.toNat % 32)
def sarW (a b : Word) : Word := a.sshiftRight (b.toNat % 32)
def faddW (a b : Word) : Word := fw (fp32.fadd a.toNat b.toNat)
def fsubW (a b : Word) : Word := fw (fp32.fsub a.toNat b.toNat)
def fmulW (a b : Word) : Word := fw (fp32.fmul a.toNat b.toNat)
def ffmaW (d a b : Word) : Word := fw (fp32.ffma d.toNat a.toNat b.toNat)
def fnmaW (d a b : Word) : Word := fw (fp32.fnma d.toNat a.toNat b.toNat)
def fminW (a b : Word) : Word := fw (fp32.fmin a.toNat b.toNat)
def fmaxW (a b : Word) : Word := fw (fp32.fmax a.toNat b.toNat)
def fabsW (a : Word) : Word := a &&& 0x7FFFFFFF

/-- R146: an operation on the two halves of a lane. -/
def halves2 (f : Nat → Nat → Nat) (a b : Word) : Word :=
  fw (f (a.toNat % 65536) (b.toNat % 65536) + 65536 * f (a.toNat / 65536) (b.toNat / 65536))
def halves3 (f : Nat → Nat → Nat → Nat) (d a b : Word) : Word :=
  fw (f (d.toNat % 65536) (a.toNat % 65536) (b.toNat % 65536) +
    65536 * f (d.toNat / 65536) (a.toNat / 65536) (b.toNat / 65536))

/-! ### Instructions -/

/-- IADD, register and literal forms (R142). -/
def execIadd (o : RegOp) (s : State) : Host.Outcome State Fault Refusal := alu2 o (· + ·) s

/-- ISUB, register and literal forms (R142). -/
def execIsub (o : RegOp) (s : State) : Host.Outcome State Fault Refusal := alu2 o (· - ·) s

/-- IMUL, register and literal forms (R142). -/
def execImul (o : RegOp) (s : State) : Host.Outcome State Fault Refusal := alu2 o (· * ·) s

/-- IMULH, register and literal forms (R142). -/
def execImulh (o : RegOp) (s : State) : Host.Outcome State Fault Refusal := alu2 o mulHigh s

/-- IMIN, register and literal forms (R142). -/
def execImin (o : RegOp) (s : State) : Host.Outcome State Fault Refusal := alu2 o sminW s

/-- IMAX, register and literal forms (R142). -/
def execImax (o : RegOp) (s : State) : Host.Outcome State Fault Refusal := alu2 o smaxW s

/-- UMIN, register and literal forms (R142). -/
def execUmin (o : RegOp) (s : State) : Host.Outcome State Fault Refusal := alu2 o uminW s

/-- UMAX, register and literal forms (R142). -/
def execUmax (o : RegOp) (s : State) : Host.Outcome State Fault Refusal := alu2 o umaxW s

/-- IAND, register and literal forms (R142). -/
def execIand (o : RegOp) (s : State) : Host.Outcome State Fault Refusal := alu2 o (· &&& ·) s

/-- IOR, register and literal forms (R142). -/
def execIor (o : RegOp) (s : State) : Host.Outcome State Fault Refusal := alu2 o (· ||| ·) s

/-- IXOR, register and literal forms (R142). -/
def execIxor (o : RegOp) (s : State) : Host.Outcome State Fault Refusal := alu2 o (· ^^^ ·) s

/-- ISHL, register and literal forms (R142). -/
def execIshl (o : RegOp) (s : State) : Host.Outcome State Fault Refusal := alu2 o shlW s

/-- ISHR, register and literal forms (R142). -/
def execIshr (o : RegOp) (s : State) : Host.Outcome State Fault Refusal := alu2 o shrW s

/-- ISAR, register and literal forms (R142). -/
def execIsar (o : RegOp) (s : State) : Host.Outcome State Fault Refusal := alu2 o sarW s

/-- IMAD (R142). -/
def execImad (o : RegOp) (s : State) : Host.Outcome State Fault Refusal := alu3 o (fun d a b => a * b + d) s

/-- FADD, register and literal forms (R143). -/
def execFadd (o : RegOp) (s : State) : Host.Outcome State Fault Refusal := alu2 o faddW s

/-- FSUB, register and literal forms (R143). -/
def execFsub (o : RegOp) (s : State) : Host.Outcome State Fault Refusal := alu2 o fsubW s

/-- FMUL, register and literal forms (R143). -/
def execFmul (o : RegOp) (s : State) : Host.Outcome State Fault Refusal := alu2 o fmulW s

/-- FMIN, register and literal forms (R143). -/
def execFmin (o : RegOp) (s : State) : Host.Outcome State Fault Refusal := alu2 o fminW s

/-- FMAX, register and literal forms (R143). -/
def execFmax (o : RegOp) (s : State) : Host.Outcome State Fault Refusal := alu2 o fmaxW s

/-- FFMA (R143). -/
def execFfma (o : RegOp) (s : State) : Host.Outcome State Fault Refusal := alu3 o ffmaW s

/-- FNMA (R143). -/
def execFnma (o : RegOp) (s : State) : Host.Outcome State Fault Refusal := alu3 o fnmaW s

/-- FABS (R143). -/
def execFabs (o : UnOp) (s : State) : Host.Outcome State Fault Refusal := alu1 o fabsW s

/-- FRCP (R144). -/
def execFrcp (o : UnOp) (s : State) : Host.Outcome State Fault Refusal := aluSpecial o (fun a => fw (Machine.frcp a.toNat)) s

/-- FRSQ (R144). -/
def execFrsq (o : UnOp) (s : State) : Host.Outcome State Fault Refusal := aluSpecial o (fun a => fw (Machine.frsq a.toNat)) s

/-- FSQRT (R144). -/
def execFsqrt (o : UnOp) (s : State) : Host.Outcome State Fault Refusal := aluSpecial o (fun a => fw (Machine.fsqrt a.toNat)) s

/-- FEXP2 (R144). -/
def execFexp2 (o : UnOp) (s : State) : Host.Outcome State Fault Refusal := aluSpecial o (fun a => fw (Machine.fexp2 a.toNat)) s

/-- FLOG2 (R144). -/
def execFlog2 (o : UnOp) (s : State) : Host.Outcome State Fault Refusal := aluSpecial o (fun a => fw (Machine.flog2 a.toNat)) s

/-- HADD (R146). -/
def execHadd (o : RegOp) (s : State) : Host.Outcome State Fault Refusal := alu2 o (halves2 fp16.fadd) s

/-- HMUL (R146). -/
def execHmul (o : RegOp) (s : State) : Host.Outcome State Fault Refusal := alu2 o (halves2 fp16.fmul) s

/-- HMAX (R146). -/
def execHmax (o : RegOp) (s : State) : Host.Outcome State Fault Refusal := alu2 o (halves2 fp16.fmax) s

/-- BADD (R146). -/
def execBadd (o : RegOp) (s : State) : Host.Outcome State Fault Refusal := alu2 o (halves2 bf16.fadd) s

/-- BMUL (R146). -/
def execBmul (o : RegOp) (s : State) : Host.Outcome State Fault Refusal := alu2 o (halves2 bf16.fmul) s

/-- BMAX (R146). -/
def execBmax (o : RegOp) (s : State) : Host.Outcome State Fault Refusal := alu2 o (halves2 bf16.fmax) s

/-- HFMA (R146). -/
def execHfma (o : RegOp) (s : State) : Host.Outcome State Fault Refusal := alu3 o (halves3 fp16.ffma) s

/-- BFMA (R146). -/
def execBfma (o : RegOp) (s : State) : Host.Outcome State Fault Refusal := alu3 o (halves3 bf16.ffma) s

/-- IADD #imm (R142). -/
def execIaddImm (o : ImmOp) (s : State) : Host.Outcome State Fault Refusal := aluImm o (sext9 o.i) (· + ·) s

/-- IMUL #imm (R142). -/
def execImulImm (o : ImmOp) (s : State) : Host.Outcome State Fault Refusal := aluImm o (sext9 o.i) (· * ·) s

/-- IAND #imm (R142). -/
def execIandImm (o : ImmOp) (s : State) : Host.Outcome State Fault Refusal := aluImm o (sext9 o.i) (· &&& ·) s

/-- IOR #imm (R142). -/
def execIorImm (o : ImmOp) (s : State) : Host.Outcome State Fault Refusal := aluImm o (sext9 o.i) (· ||| ·) s

/-- IXOR #imm (R142). -/
def execIxorImm (o : ImmOp) (s : State) : Host.Outcome State Fault Refusal := aluImm o (sext9 o.i) (· ^^^ ·) s

/-- IMIN #imm (R142). -/
def execIminImm (o : ImmOp) (s : State) : Host.Outcome State Fault Refusal := aluImm o (sext9 o.i) sminW s

/-- IMAX #imm (R142). -/
def execImaxImm (o : ImmOp) (s : State) : Host.Outcome State Fault Refusal := aluImm o (sext9 o.i) smaxW s

/-- ISHL #imm, amount unsigned (R142). -/
def execIshlImm (o : ImmOp) (s : State) : Host.Outcome State Fault Refusal := aluImm o (o.i.setWidth 32) shlW s

/-- ISHR #imm, amount unsigned (R142). -/
def execIshrImm (o : ImmOp) (s : State) : Host.Outcome State Fault Refusal := aluImm o (o.i.setWidth 32) shrW s

/-- ISAR #imm, amount unsigned (R142). -/
def execIsarImm (o : ImmOp) (s : State) : Host.Outcome State Fault Refusal := aluImm o (o.i.setWidth 32) sarW s

/-- IADD kc (R142, R143). -/
def execIaddKc (o : ImmOp) (s : State) : Host.Outcome State Fault Refusal := aluKc o (· + ·) s

/-- IMUL kc (R142, R143). -/
def execImulKc (o : ImmOp) (s : State) : Host.Outcome State Fault Refusal := aluKc o (· * ·) s

/-- FADD kc (R142, R143). -/
def execFaddKc (o : ImmOp) (s : State) : Host.Outcome State Fault Refusal := aluKc o faddW s

/-- FSUB kc (R142, R143). -/
def execFsubKc (o : ImmOp) (s : State) : Host.Outcome State Fault Refusal := aluKc o fsubW s

/-- FMUL kc (R142, R143). -/
def execFmulKc (o : ImmOp) (s : State) : Host.Outcome State Fault Refusal := aluKc o fmulW s

/-- FMIN kc (R142, R143). -/
def execFminKc (o : ImmOp) (s : State) : Host.Outcome State Fault Refusal := aluKc o fminW s

/-- FMAX kc (R142, R143). -/
def execFmaxKc (o : ImmOp) (s : State) : Host.Outcome State Fault Refusal := aluKc o fmaxW s

/-- FFMA kc (R143). -/
def execFfmaKc (o : ImmOp) (s : State) : Host.Outcome State Fault Refusal := aluKc3 o ffmaW s

/-- FADD.adopt (R140). -/
def execFaddAdopt (o : AdoptOp) (s : State) : Host.Outcome State Fault Refusal := aluAdopt o (fun _ a b => faddW a b) s

/-- FSUB.adopt (R140). -/
def execFsubAdopt (o : AdoptOp) (s : State) : Host.Outcome State Fault Refusal := aluAdopt o (fun _ a b => fsubW a b) s

/-- FMUL.adopt (R140). -/
def execFmulAdopt (o : AdoptOp) (s : State) : Host.Outcome State Fault Refusal := aluAdopt o (fun _ a b => fmulW a b) s

/-- FFMA.adopt (R140). -/
def execFfmaAdopt (o : AdoptOp) (s : State) : Host.Outcome State Fault Refusal := aluAdopt o (ffmaW) s

/-- FNMA.adopt (R140). -/
def execFnmaAdopt (o : AdoptOp) (s : State) : Host.Outcome State Fault Refusal := aluAdopt o (fnmaW) s

/-- IADD.adopt (R140). -/
def execIaddAdopt (o : AdoptOp) (s : State) : Host.Outcome State Fault Refusal := aluAdopt o (fun _ a b => a + b) s

/-- HFMA.adopt (R140). -/
def execHfmaAdopt (o : AdoptOp) (s : State) : Host.Outcome State Fault Refusal := aluAdopt o (halves3 fp16.ffma) s

/-- BFMA.adopt (R140). -/
def execBfmaAdopt (o : AdoptOp) (s : State) : Host.Outcome State Fault Refusal := aluAdopt o (halves3 bf16.ffma) s

/-- The FP32 value of a float-format immediate (R43). -/
def fimm (i : BitVec 20) : Word := i ++ (0 : BitVec 12)

/-- FADDF: the stamp of vd is unchanged (R43). -/
def execFaddf (o : FltOp) (s : State) : Host.Outcome State Fault Refusal :=
  wide s ⟨o.s, o.c, .fma, 1, false, [.v o.d]⟩ fun e =>
    let d := e.reg o.d.toNat
    e.result o.d.toNat false (lanes1 (fun x => faddW x (fimm o.i)) d) d.stamps

/-- FMOVF: AGELESS, by R116 on a part of a slice (R43). -/
def execFmovf (o : FltOp) (s : State) : Host.Outcome State Fault Refusal :=
  wide s ⟨o.s, o.c, .fma, 1, false, [.v o.d]⟩ fun e =>
    let x := splat (fimm o.i) ageless
    e.result o.d.toNat false x.lanes x.stamps

end Sys2Proof.Machine
end

