-- ==== Sys2Proof/Machine/Flags.lean ====
section
/-! DEFINITION. The bits that words compute: mask registers from compares (R145, R154), mask logic (R155), DMASK and
PMASK (R156), branch conditions (R157), the comparisons of the generator (R94, R101). -/

namespace Sys2Proof.Machine

/-- The lanes of `act` at which a condition holds. -/
def lanesWhere (act : Word) (p : Nat → Bool) : Word :=
  BitVec.ofNat 32 ((List.range 32).foldl (fun a i => if act.getLsbD i && p i then a + 2 ^ i else a) 0)

/-- A compare's result for mask register `k`: its active lanes take the condition, the others keep their bits. -/
def Env.compare (e : Env) (k : Nat) (a b : VReg) (p : Word → Word → Bool) : Res :=
  .done (e.onGang fun g =>
    { g with k := vput g.k k (mergeMask e.act (lanesWhere e.act fun i => p (lane a.lanes i) (lane b.lanes i)) (g.kreg k)) }) none

/-- Compares with a register or literal b operand (R145, R154). -/
def cmpReg (o : CmpOp) (p : Word → Word → Bool) (s : State) : Host.Outcome State Fault Refusal :=
  wide s ⟨o.s, o.c, .fma, litSize o.b, false, [.kreg o.d, .v o.a, .b o.b]⟩ fun e =>
    e.compare o.d.toNat (e.reg o.a.toNat) (e.bop o.b o.lit) p

/-- Compares with an immediate (R154). -/
def cmpImm (o : ImmOp) (p : Word → Word → Bool) (s : State) : Host.Outcome State Fault Refusal :=
  wide s ⟨o.s, o.c, .fma, 1, false, [.kreg o.d, .v o.a]⟩ fun e =>
    e.compare o.d.toNat (e.reg o.a.toNat) (splat (sext9 o.i) ageless) p

/-- R145: a comparison of FP32 codes; false with a NaN, ±0 equal. -/
def fcmp (p : Int → Int → Bool) (a b : Word) : Bool :=
  !fp32.isNan a.toNat && !fp32.isNan b.toNat && p (fp32.ckey a.toNat) (fp32.ckey b.toNat)

/-- FCMPEQ (R145). -/
def execFcmpeq (o : CmpOp) (s : State) : Host.Outcome State Fault Refusal := cmpReg o (fcmp fun x y => x == y) s
/-- FCMPLT (R145). -/
def execFcmplt (o : CmpOp) (s : State) : Host.Outcome State Fault Refusal := cmpReg o (fcmp fun x y => x < y) s
/-- FCMPLE (R145). -/
def execFcmple (o : CmpOp) (s : State) : Host.Outcome State Fault Refusal := cmpReg o (fcmp fun x y => x ≤ y) s
/-- ICMPEQ (R154). -/
def execIcmpeq (o : CmpOp) (s : State) : Host.Outcome State Fault Refusal := cmpReg o (fun a b => a == b) s
/-- ICMPLT (R154). -/
def execIcmplt (o : CmpOp) (s : State) : Host.Outcome State Fault Refusal := cmpReg o (fun a b => a.slt b) s
/-- ICMPLTU (R154). -/
def execIcmpltu (o : CmpOp) (s : State) : Host.Outcome State Fault Refusal := cmpReg o (fun a b => a.ult b) s
/-- ICMPNE (R154). -/
def execIcmpne (o : CmpOp) (s : State) : Host.Outcome State Fault Refusal := cmpReg o (fun a b => a != b) s
/-- ICMPEQ #imm (R154). -/
def execIcmpeqImm (o : ImmOp) (s : State) : Host.Outcome State Fault Refusal := cmpImm o (fun a b => a == b) s
/-- ICMPLT #imm (R154). -/
def execIcmpltImm (o : ImmOp) (s : State) : Host.Outcome State Fault Refusal := cmpImm o (fun a b => a.slt b) s

/-- Mask logic (R155): every present lane of the group's slices, active or not. -/
def maskLogic (o : KOp) (f : Word → Word → Word) (s : State) : Host.Outcome State Fault Refusal :=
  wide s ⟨o.s, o.c, .fma, 1, false, [.kreg o.d, .kreg o.a, .kreg o.b]⟩ fun e =>
    .done (e.onGang fun g =>
      g.writeK o.d.toNat e.m (f (g.kreg o.a.toNat) (g.kreg o.b.toNat) &&& e.present)) none

/-- KAND (R155). -/
def execKand (o : KOp) (s : State) : Host.Outcome State Fault Refusal := maskLogic o (· &&& ·) s
/-- KOR (R155). -/
def execKor (o : KOp) (s : State) : Host.Outcome State Fault Refusal := maskLogic o (· ||| ·) s
/-- KXOR (R155). -/
def execKxor (o : KOp) (s : State) : Host.Outcome State Fault Refusal := maskLogic o (· ^^^ ·) s
/-- KANDN (R155). -/
def execKandn (o : KOp) (s : State) : Host.Outcome State Fault Refusal := maskLogic o (fun a b => a &&& ~~~b) s

/-- Control words: special and branch pipe, C ignored (R48, R122). -/
def howCtl (sb c : Bool) : How := ⟨sb, c, .sf, 1, true, []⟩

/-- Divergence and predicate words (R156): `f` gives the gang from the lanes of the group and the mask register. -/
def maskWord (sb c : Bool) (f : Gang → Word → Gang) (s : State) : Host.Outcome State Fault Refusal :=
  wide s (howCtl sb c) fun e => .done (e.onGang fun g => f g (laneMask e.m &&& e.present)) none

/-- DMSAVE (R156). -/
def execDmsave (sb c : Bool) (k : BitVec 3) (s : State) : Host.Outcome State Fault Refusal :=
  maskWord sb c (fun g l => { g with k := vput g.k k.toNat (mergeMask l g.dmask (g.kreg k.toNat)) }) s
/-- DMSET (R156): an absent lane is never set. -/
def execDmset (sb c : Bool) (k : BitVec 3) (s : State) : Host.Outcome State Fault Refusal :=
  maskWord sb c (fun g l => { g with dmask := mergeMask l (g.kreg k.toNat) g.dmask }) s
/-- DMAND (R156). -/
def execDmand (sb c : Bool) (k : BitVec 3) (s : State) : Host.Outcome State Fault Refusal :=
  maskWord sb c (fun g l => { g with dmask := mergeMask l (g.dmask &&& g.kreg k.toNat) g.dmask }) s
/-- DMANDN (R156). -/
def execDmandn (sb c : Bool) (k : BitVec 3) (s : State) : Host.Outcome State Fault Refusal :=
  maskWord sb c (fun g l => { g with dmask := mergeMask l (g.dmask &&& ~~~(g.kreg k.toNat)) g.dmask }) s
/-- PMSAVE (R156). -/
def execPmsave (sb c : Bool) (k : BitVec 3) (s : State) : Host.Outcome State Fault Refusal :=
  maskWord sb c (fun g l => { g with k := vput g.k k.toNat (mergeMask l g.pmask (g.kreg k.toNat)) }) s
/-- PMSET (R156): an absent lane is never set. -/
def execPmset (sb c : Bool) (k : BitVec 3) (s : State) : Host.Outcome State Fault Refusal :=
  maskWord sb c (fun g l => { g with pmask := mergeMask l (g.kreg k.toNat) g.pmask }) s
/-- PMAND (R156). -/
def execPmand (sb c : Bool) (k : BitVec 3) (s : State) : Host.Outcome State Fault Refusal :=
  maskWord sb c (fun g l => { g with pmask := mergeMask l (g.pmask &&& g.kreg k.toNat) g.pmask }) s

/-- R110, R157: whether slice `j` takes a branch on mask register `k`. -/
def Env.anyTaken (e : Env) (k : BitVec 3) (j : Nat) : Bool := nib (e.g.exec &&& e.g.kreg k.toNat) j != 0
def Env.allTaken (e : Env) (k : BitVec 3) (j : Nat) : Bool := nib (e.g.exec &&& ~~~(e.g.kreg k.toNat)) j == 0

/-- R157: the target of a branch; none outside 0 to 2^32 − 1. -/
def target (o : Word) {w : Nat} (disp : BitVec w) : Option Word :=
  let t : Int := o.toNat + disp.toInt
  if 0 ≤ t ∧ t < 2 ^ 32 then some (BitVec.ofNat 32 t.toNat) else none

/-- The taken slices of the group. -/
def Env.takenMask (e : Env) (p : Nat → Bool) : BitVec 8 :=
  BitVec.ofNat 8 ((List.range 8).foldl (fun a j => if e.m.getLsbD j && p j then a + 2 ^ j else a) 0)

/-- R110, R157: a branch: the group goes on whole where its slices agree, and splits where they do not. A target outside
the ordinals raises stale-flume at the branch, whether or not a slice takes it (log 15). -/
def branch (sb c : Bool) {w : Nat} (disp : BitVec w) (p : Env → Nat → Bool) (s : State) :
    Host.Outcome State Fault Refusal :=
  wide s (howCtl sb c) fun e =>
    let t := e.takenMask (p e)
    match target e.pc disp with
    | none => .fault e.s 0x04 0
    | some x =>
      if t = 0 then .jump e.s [(e.m, e.pc + 1)]
      else if t = e.m then .jump e.s [(e.m, x)]
      else .jump e.s [(t, x), (e.m &&& ~~~t, e.pc + 1)]

/-- JMP (R157). -/
def execJmp (sb c : Bool) (j : BitVec 21) (s : State) : Host.Outcome State Fault Refusal := branch sb c j (fun _ _ => true) s
/-- BR.any (R157). -/
def execBrAny (sb c : Bool) (k : BitVec 3) (j : BitVec 18) (s : State) : Host.Outcome State Fault Refusal :=
  branch sb c j (fun e i => e.anyTaken k i) s
/-- BR.all (R157). -/
def execBrAll (sb c : Bool) (k : BitVec 3) (j : BitVec 18) (s : State) : Host.Outcome State Fault Refusal :=
  branch sb c j (fun e i => e.allTaken k i) s
/-- BR.uz (R157). -/
def execBrUz (sb c : Bool) (w : BitVec 4) (j : BitVec 17) (s : State) : Host.Outcome State Fault Refusal :=
  branch sb c j (fun e _ => (e.wreg w).val == 0) s
/-- BR.unz (R157). -/
def execBrUnz (sb c : Bool) (w : BitVec 4) (j : BitVec 17) (s : State) : Host.Outcome State Fault Refusal :=
  branch sb c j (fun e _ => (e.wreg w).val != 0) s

end Sys2Proof.Machine
end

