-- ==== Sys2Proof/Machine/WideCtl.lean ====
section
/-! DEFINITION. Conversions (R147 to R149), VDOT8 (R151), lane movement and selection (R152, R153), REGANG, EXIT, PAUSE,
NOP (R158 to R160, R128), spill (R161), uniform moves (R162), SRD (R118). -/

namespace Sys2Proof.Machine

/-! ### Conversions -/

def howCvt (o : CvtOp) : How := ⟨o.s, o.c, .fma, 1, false, [.v o.d, .v o.a]⟩

/-- Conversions that replace the lane: the stamp of va (R148). -/
def cvtWhole (o : CvtOp) (f : Word → Word) (s : State) : Host.Outcome State Fault Refusal :=
  wide s (howCvt o) fun e =>
    let a := e.reg o.a.toNat
    e.result o.d.toNat o.t (lanes1 f a) a.stamps

/-- Conversions that replace a part of `width` bits at `width` × `pos` and keep the rest: Older(vd, va) (R148). -/
def cvtPart (o : CvtOp) (width pos : Nat) (f : Word → Nat) (s : State) : Host.Outcome State Fault Refusal :=
  wide s (howCvt o) fun e =>
    let d := e.reg o.d.toNat
    let a := e.reg o.a.toNat
    let hole : Word := ~~~(BitVec.ofNat 32 ((2 ^ width - 1) * 2 ^ (width * pos)))
    e.result o.d.toNat o.t (lanes2 (fun x y => (x &&& hole) ||| BitVec.ofNat 32 (f y * 2 ^ (width * pos))) d a)
      (olderOf e.now [d, a])

def fmt8 (b : Bool) : Fmt := if b then e5m2 else e4m3

/-- CVTFI (R148): RNE, or towards zero with part index 1. -/
def execCvtfi (o : CvtOp) (s : State) : Host.Outcome State Fault Refusal := cvtWhole o (fun a => fToInt (o.p == 1) a.toNat) s
/-- CVTIF (R148): signed, or unsigned with part index 1. -/
def execCvtif (o : CvtOp) (s : State) : Host.Outcome State Fault Refusal := cvtWhole o (fun a => fw (intToF (o.p == 1) a)) s
/-- CVTFH (R148). -/
def execCvtfh (o : CvtOp) (s : State) : Host.Outcome State Fault Refusal :=
  cvtPart o 16 (o.p.toNat % 2) (fun a => fp16.narrow o.sat (fp32.val a.toNat)) s
/-- CVTHF (R148). -/
def execCvthf (o : CvtOp) (s : State) : Host.Outcome State Fault Refusal :=
  cvtWhole o (fun a => fw (widen fp16 (a.toNat / 2 ^ (16 * (o.p.toNat % 2)) % 2 ^ 16))) s
/-- CVTFB (R148). -/
def execCvtfb (o : CvtOp) (s : State) : Host.Outcome State Fault Refusal :=
  cvtPart o 16 (o.p.toNat % 2) (fun a => bf16.narrow o.sat (fp32.val a.toNat)) s
/-- CVTBF (R148). -/
def execCvtbf (o : CvtOp) (s : State) : Host.Outcome State Fault Refusal :=
  cvtWhole o (fun a => fw (widen bf16 (a.toNat / 2 ^ (16 * (o.p.toNat % 2)) % 2 ^ 16))) s
/-- CVTF8 (R148). -/
def execCvtf8 (o : CvtOp) (s : State) : Host.Outcome State Fault Refusal :=
  cvtPart o 8 o.p.toNat (fun a => (fmt8 o.fmt).narrow o.sat (fp32.val a.toNat)) s
/-- CVT8F (R148). -/
def execCvt8f (o : CvtOp) (s : State) : Host.Outcome State Fault Refusal :=
  cvtWhole o (fun a => fw (widen (fmt8 o.fmt) (a.toNat / 2 ^ (8 * o.p.toNat) % 256))) s

/-! ### VDOT8 -/

/-- The exact sum of four FP8 products (R151). -/
def dotSum (f : Fmt) (a b : Word) : FVal :=
  (List.range 4).foldl (fun t i =>
    let p := (f.val (a.toNat / 256 ^ i % 256)).mul (f.val (b.toNat / 256 ^ i % 256))
    if i = 0 then p else t.add p) (.fin false 0 0)

/-- One lane of VDOT8 (R151). -/
def dotLane (f : Fmt) (d a b : Word) (sa sb : Nat) : Word :=
  let p := fp32.round false (((dotSum f a b).mul (bf16.val sa)).mul (bf16.val sb))
  fw (fp32.fadd d.toNat p)

/-- VDOT8 (R150, R151). -/
def execVdot8 (o : DotOp) (s : State) : Host.Outcome State Fault Refusal :=
  wide s ⟨o.s, o.c, .fma, 1, false, [.v o.d, .pair o.a, .pair o.b]⟩ fun e =>
    let d := e.reg o.d.toNat
    let a := e.reg o.a.toNat
    let b := e.reg o.b.toNat
    let sa := e.reg (o.a.toNat + 1)
    let sb := e.reg (o.b.toNat + 1)
    let half (x : Word) : Nat := x.toNat / 2 ^ (16 * o.h.toNat) % 65536
    let f := fmt8 o.f
    e.result o.d.toNat o.t
      (vec 32 fun i => dotLane f (lane d.lanes i) (lane a.lanes i) (lane b.lanes i)
        (half (lane sa.lanes (8 * (i / 8)))) (half (lane sb.lanes (8 * (i / 8)))))
      (vec 8 fun j => olderAll e.now [stampAt d.stamps j, stampAt a.stamps j, stampAt b.stamps j,
        stampAt sa.stamps (2 * (j / 2)), stampAt sb.stamps (2 * (j / 2))])

/-! ### Lane movement and selection -/

/-- LSHFL and LXOR (R152): lane L takes lane `src L` of va. -/
def shuffle (o : RegOp) (p : Pipe) (src : Nat → Word → Nat) (s : State) : Host.Outcome State Fault Refusal :=
  wide s (howReg o p) fun e =>
    let a := e.reg o.a.toNat
    let b := e.bop o.b o.lit
    let from' (i : Nat) : Nat := src i (lane b.lanes i)
    e.result o.d.toNat o.t (vec 32 fun i => lane a.lanes (from' i))
      (vec 8 fun j => olderAll e.now ((List.range 4).filterMap fun k =>
        if e.act.getLsbD (4 * j + k) then some (stampAt a.stamps (from' (4 * j + k) / 4)) else none))

/-- LSHFL (R152). -/
def execLshfl (o : RegOp) (s : State) : Host.Outcome State Fault Refusal := shuffle o .sf (fun _ b => b.toNat % 32) s
/-- LXOR (R152). -/
def execLxor (o : RegOp) (s : State) : Host.Outcome State Fault Refusal :=
  shuffle o .fma (fun i b => Nat.xor i (b.toNat % 32)) s

/-- SEL (R153): va where k0 is set, b elsewhere; the stamp is that of the operands the active lanes took. -/
def execSel (o : RegOp) (s : State) : Host.Outcome State Fault Refusal :=
  wide s (howReg o .fma) fun e =>
    let a := e.reg o.a.toNat
    let b := e.bop o.b o.lit
    let k := e.g.kreg 0
    e.result o.d.toNat o.t (vec 32 fun i => if k.getLsbD i then lane a.lanes i else lane b.lanes i)
      (vec 8 fun j =>
        if nib (e.act &&& ~~~k) j = 0 then stampAt a.stamps j
        else if nib (e.act &&& k) j = 0 then stampAt b.stamps j
        else older e.now (stampAt a.stamps j) (stampAt b.stamps j))

/-! ### Control words -/

/-- NOP (R160). -/
def execNop (sb c : Bool) (s : State) : Host.Outcome State Fault Refusal := wide s (howCtl sb c) fun e => .done e.s none

/-- REGANG (R111, R158): the group waits at the word, and the rendezvous is tried with it. -/
def execRegang (sb c : Bool) (k : BitVec 8) (s : State) : Host.Outcome State Fault Refusal :=
  wide s (howCtl sb c) fun e =>
    .hold e.s (.regang k) fun s => s.onGang e.core e.slot e.gang fun g => g.regangTry e.pc k

/-- EXIT (R112, R159): a switch first, then the slices of the group are exited. Where the gang arrives at a quad or network
barrier without them, that arrival is a release (R129) and waits like one (R182). -/
def execExit (sb c : Bool) (s : State) : Host.Outcome State Fault Refusal :=
  wide s (howCtl sb c) fun e =>
    if e.g.awaits e.m then .wait e.s .exit
    else
      let go (s : State) : Res := .leave (s.onGang e.core e.slot e.gang fun g => g.close e.m) fun s =>
        s.exitSlices e.core e.slot e.gang e.m e.pc
      match e.g.leftLevel e.m with
      | none => go e.s
      | some level =>
        let s := e.s.scopeBack e.core e.slot e.gang (netScope level)
        if (s.gang? e.core e.slot e.gang).all (·.released (netScope level)) then go s
        else .wait s .release

/-- PAUSE (R128): the larger of the present count and n. -/
def execPause (sb c : Bool) (n : BitVec 12) (s : State) : Host.Outcome State Fault Refusal :=
  wide s (howCtl sb c) fun e =>
    .done (e.onGang fun g => { g with pause := if g.pause.ult n then n else g.pause }) none

/-! ### Engine and system words without a unit of their own -/

/-- Engine and system words on the FMA pipes (R122). -/
def howSys (sb c : Bool) (p : Pipe) (l : List RegField) : How := ⟨sb, c, p, 1, false, l⟩

/-- Store of a register in a spill frame (R123): an absent lane is stored as 0. -/
def execPushm (sb c : Bool) (a b : BitVec 7) (s : State) : Host.Outcome State Fault Refusal :=
  wide s (howSys sb c .mem [.strict a.toNat, .strict b.toNat]) fun e =>
    let k := b.toNat + 1 - a.toNat
    if e.b.shape.spill < e.g.spp + 160 * k then .fault e.s 0x26 0
    else .done (e.onGang fun g =>
      { g with
        spill := (List.range k).foldl (fun t i => Tbl.set t (g.spp + 160 * i) (e.reg (a.toNat + i))) g.spill
        spp := g.spp + 160 * k }) none

/-- POPM (R161): every present lane and each slice stamp exactly; variable-latency; SPP changes at issue. -/
def execPopm (sb c : Bool) (a b : BitVec 7) (s : State) : Host.Outcome State Fault Refusal :=
  wide s (howSys sb c .mem [.strict a.toNat, .strict b.toNat]) fun e =>
    let k := b.toNat + 1 - a.toNat
    if e.g.spp < 160 * k then .fault e.s 0x26 1
    else
      let base := e.g.spp - 160 * k
      let regs := (List.range k).map fun i => Tbl.getD e.g.spill (base + 160 * i) ⟨Vector.replicate 32 0, Vector.replicate 8 ancient⟩
      .done (e.pend (e.onGang fun g => { g with spp := base }) (Pend.new e.m e.pc (.frames a.toNat regs) k)) none

/-- WMOV (R162). -/
def execWmov (sb c : Bool) (d : BitVec 4) (a : BitVec 7) (l : BitVec 5) (s : State) : Host.Outcome State Fault Refusal :=
  wide s (howSys sb c .fma [.v a]) fun e =>
    let x := e.reg a.toNat
    e.resultW d ⟨(lane x.lanes l.toNat).setWidth 64, stampAt x.stamps (l.toNat / 4)⟩

/-- VBCAST (R162). -/
def execVbcast (sb c : Bool) (d : BitVec 7) (h : Bool) (w : BitVec 4) (s : State) : Host.Outcome State Fault Refusal :=
  wide s (howSys sb c .fma [.v d]) fun e =>
    let x := e.wreg w
    let y := splat ((if h then x.val >>> 32 else x.val).setWidth 32) x.stamp
    e.result d.toNat false y.lanes y.stamps

/-- WADDI (R162). -/
def execWaddi (sb c : Bool) (d w : BitVec 4) (i : BitVec 12) (s : State) : Host.Outcome State Fault Refusal :=
  wide s (howSys sb c .fma []) fun e =>
    let x := e.wreg w
    e.resultW d ⟨x.val + i.signExtend 64, x.stamp⟩

/-- R118: the value of a special register in a lane. -/
def Env.special (e : Env) (r : BitVec 6) (i : Nat) : Word :=
  match r.toNat with
  | 0x00 => fw i
  | 0x01 => fw (i / 4)
  | 0x02 => fw e.gang
  | 0x03 => fw e.b.lin
  | 0x04 => e.b.node.setWidth 32
  | 0x05 => (e.s.ctide e.ctx).setWidth 32
  | 0x06 => (e.s.ctide e.ctx >>> 32).setWidth 32
  | 0x07 => (e.s.core e.core).cycle.setWidth 32
  | 0x08 => ((e.s.core e.core).cycle >>> 32).setWidth 32
  | 0x09 => e.g.vtime.setWidth 32
  | 0x0A => (e.g.vtime >>> 32).setWidth 32
  | 0x0B => fw e.b.shape.gangs
  | 0x0C => fw e.b.shape.slices
  | _ => e.g.exec

/-- SRD (R118): stamp AGELESS. -/
def execSrd (sb c : Bool) (d : BitVec 7) (r : BitVec 6) (s : State) : Host.Outcome State Fault Refusal :=
  wide s (howSys sb c .fma [.v d]) fun e =>
    e.result d.toNat false (vec 32 fun i => e.special r i) (Vector.replicate 8 ageless)

end Sys2Proof.Machine
end

