-- ==== Sys2Proof/Machine/WideSys.lean ====
section
/-! DEFINITION. Engine and system words of a gang: stamps (R262 to R264), mailboxes (R124), tags (R281), barriers, wheels
and barrier objects (R130 to R133, R171), containment (R340), STEP, TRAP, BRK (R346, R351), fences (R189). -/

namespace Sys2Proof.Machine

/-! ### Stamp words -/

/-- R263: the touched slices. -/
def Env.touched (e : Env) : BitVec 8 := slicesOf e.act

/-- R247: the context's restamp right. -/
def State.restamp (s : State) (ctx : Nat) : Bool := (s.ctx ctx).restamp

/-- Words that write lane data from a stamp, result stamp AGELESS (R263). -/
def stampData (sb c : Bool) (d : BitVec 7) (l : List RegField) (f : Env → Nat → Word) (s : State) :
    Host.Outcome State Fault Refusal :=
  wide s (howSys sb c .fma (.v d :: l)) fun e =>
    e.result d.toNat false (vec 32 (f e)) (Vector.replicate 8 ageless)

/-- STGET (R263). -/
def execStget (sb c : Bool) (d a : BitVec 7) (s : State) : Host.Outcome State Fault Refusal :=
  stampData sb c d [.v a] (fun e i => (stampAt (e.reg a.toNat).stamps (i / 4)).setWidth 32) s

/-- R263: Age as a word; INFINITE is all ones. -/
def ageWord (now st : Stamp) : Word := match age now st with
  | none => 0xFFFFFFFF
  | some a => BitVec.ofNat 32 a

/-- STAGE (R263). -/
def execStage (sb c : Bool) (d a : BitVec 7) (s : State) : Host.Outcome State Fault Refusal :=
  stampData sb c d [.v a] (fun e i => ageWord e.now (stampAt (e.reg a.toNat).stamps (i / 4))) s

/-- STNOW (R263). -/
def execStnow (sb c : Bool) (d : BitVec 7) (s : State) : Host.Outcome State Fault Refusal :=
  stampData sb c d [] (fun e _ => e.now.setWidth 32) s

/-- Stamp-only words (R263, R264); `right` when the restamp right is needed. -/
def stampOnly (sb c : Bool) (d : BitVec 7) (l : List RegField) (right : Bool) (f : Env → Nat → Stamp) (s : State) :
    Host.Outcome State Fault Refusal :=
  wide s (howSys sb c .fma (.v d :: l)) fun e =>
    if right && !e.s.restamp e.ctx then .fault e.s 0x31 0
    else .done (e.onGang fun g => g.writeStamps d.toNat e.touched (vec 8 (f e))) none

/-- The lowest active lane of slice `j`. -/
def lowLane (act : Word) (j : Nat) : Nat := 4 * j + (((List.range 4).find? fun i => act.getLsbD (4 * j + i)).getD 0)

/-- STSET (R263). -/
def execStset (sb c : Bool) (d a : BitVec 7) (s : State) : Host.Outcome State Fault Refusal :=
  stampOnly sb c d [.v a] true (fun e j => (lane (e.reg a.toNat).lanes (lowLane e.act j)).setWidth 24) s

/-- STAGELESS (R263). -/
def execStageless (sb c : Bool) (d : BitVec 7) (s : State) : Host.Outcome State Fault Refusal :=
  stampOnly sb c d [] true (fun _ _ => ageless) s

/-- STOLD (R263). -/
def execStold (sb c : Bool) (d a : BitVec 7) (b : BitVec 6) (s : State) : Host.Outcome State Fault Refusal :=
  stampOnly sb c d [.v a, .strict b.toNat] false
    (fun e j => older e.now (stampAt (e.reg a.toNat).stamps j) (stampAt (e.reg b.toNat).stamps j)) s

/-! ### Mailboxes -/

def Block.mb (b : Block) (m : BitVec 4) : Mailbox := vat b.mbs Mailbox.empty m.toNat

/-- MBWR (R124). -/
def execMbwr (sb c : Bool) (m w : BitVec 4) (s : State) : Host.Outcome State Fault Refusal :=
  wide s (howSys sb c .mem []) fun e =>
    let who := Waiter.group e.gang e.m
    if (e.b.mb m).canWrite who then
      .done (e.s.onBlock e.core e.slot (·.onMb m.toNat (·.write who (e.wreg w)))) none
    else .wait (e.s.onBlock e.core e.slot (·.onMb m.toNat (·.queueW who))) (.mbwr m)

/-- MBRD (R124): the read is posted; it is served when its result returns, and is then an acquire at CORE scope (R91). -/
def execMbrd (sb c : Bool) (m d : BitVec 4) (s : State) : Host.Outcome State Fault Refusal :=
  wide s (howSys sb c .mem []) fun e =>
    let s := e.s.onBlock e.core e.slot (·.onMb m.toNat (·.queueR (.read e.gang e.g.pid)))
    .done (e.pend s { Pend.new e.m e.pc (.mail d m) 0 with acq := some 2 }) none

/-- MBPEEK (R124). -/
def execMbpeek (sb c : Bool) (m d : BitVec 4) (s : State) : Host.Outcome State Fault Refusal :=
  wide s (howSys sb c .mem []) fun e => e.resultW d ⟨if (e.b.mb m).full then 1 else 0, ageless⟩

/-! ### Tags -/

/-- R281: the condition of a TAGWAIT. -/
def tagReady (all : Bool) (tags mask : DWord) : Bool :=
  mask == 0 || (if all then tags &&& mask == mask else tags &&& mask != 0)

/-- The commands of a block whose tags a mask names. -/
def Who.ofTags (core slot : Nat) (m : DWord) (w : Who) : Bool :=
  match w with
  | .tag c b t => c == core && b == slot && m.getLsbD t
  | .block c b => c == core && b == slot
  | _ => false

/-- What engines have written to the scratchpad of a block is there for its agents from now on. -/
def State.landed (s : State) (core slot : Nat) : State := s.onBlock core slot fun b => { b with spLate := [] }

/-- R237, R281: an acquire by a group of what the commands released that set the tags of a mask. -/
def Env.meetTags (e : Env) (m : DWord) : State :=
  if m = 0 then e.s
  else (e.s.join e.ws (Who.ofTags e.core e.slot m)).landed e.core e.slot

def tagwait (sb c : Bool) (w : BitVec 4) (all : Bool) (s : State) : Host.Outcome State Fault Refusal :=
  wide s (howSys sb c .mem []) fun e =>
    if tagReady all e.b.tags (e.wreg w).val then .done (e.meetTags (e.b.tags &&& (e.wreg w).val)) none
    else .wait e.s .tagwait

/-- TAGWAIT.any (R281). -/
def execTagwaitAny (sb c : Bool) (w : BitVec 4) (s : State) : Host.Outcome State Fault Refusal := tagwait sb c w false s
/-- TAGWAIT.all (R281). -/
def execTagwaitAll (sb c : Bool) (w : BitVec 4) (s : State) : Host.Outcome State Fault Refusal := tagwait sb c w true s

/-- The lowest set bit of a doubleword, 64 where there is none (R281). -/
def lowestBit (x : DWord) : Nat := ((List.range 64).find? fun i => x.getLsbD i).getD 64

/-- TAGFIND (R281): an acquire of the command whose tag it finds. -/
def execTagfind (sb c : Bool) (d w : BitVec 4) (s : State) : Host.Outcome State Fault Refusal :=
  wide s (howSys sb c .mem []) fun e =>
    let n := lowestBit (e.b.tags &&& (e.wreg w).val)
    .done ((e.meetTags (if n < 64 then 1 <<< n else 0)).onGang e.core e.slot e.gang fun g =>
      g.writeW e.m d.toNat ⟨BitVec.ofNat 64 n, ageless⟩) none

/-- TAGCLR (R281). -/
def execTagclr (sb c : Bool) (w : BitVec 4) (s : State) : Host.Outcome State Fault Refusal :=
  wide s (howSys sb c .mem []) fun e =>
    let x := (e.wreg w).val
    .done (e.s.onBlock e.core e.slot fun b => { b with tags := b.tags &&& ~~~x, tagerr := b.tagerr &&& ~~~x }) none

/-- TAGRD (R281). -/
def execTagrd (sb c : Bool) (x : Bool) (d : BitVec 4) (s : State) : Host.Outcome State Fault Refusal :=
  wide s (howSys sb c .mem []) fun e => e.resultW d ⟨if x then e.b.tagerr else e.b.tags, ageless⟩

/-! ### Barriers -/

/-- R130: bit `i` of the arrival mask of block barrier `b`. -/
def Block.arrivedAt (x : Block) (i : Nat) (b : BitVec 4) : Bool := (vat x.bars ⟨0, false⟩ b.toNat).mask.getLsbD i

/-- BAR (R130): arrive and wait. -/
def execBar (sb c : Bool) (b : BitVec 4) (s : State) : Host.Outcome State Fault Refusal :=
  wide s (howSys sb c .mem []) fun e =>
    if e.b.arrivedAt e.gang b then .fault e.s 0x40 b.toNat
    else .hold e.s (.barArr b) fun s => s.issueArrival e.core e.slot e.gang (arrBar b) e.m

/-- BARA (R130): arrive and go on. -/
def execBara (sb c : Bool) (b : BitVec 4) (s : State) : Host.Outcome State Fault Refusal :=
  wide s (howSys sb c .mem []) fun e =>
    if e.b.arrivedAt e.gang b then .fault e.s 0x40 b.toNat
    else .leave e.s fun s => s.issueArrival e.core e.slot e.gang (arrBar b) e.m

/-- BARW (R130): wait while the gang's bit is set. -/
def execBarw (sb c : Bool) (b : BitVec 4) (s : State) : Host.Outcome State Fault Refusal :=
  wide s (howSys sb c .mem []) fun e =>
    if e.b.arrivedAt e.gang b then .hold e.s (.barDone b) id else .done e.s none

/-- FILL (R171). -/
def execFill (sb c : Bool) (n : BitVec 2) (s : State) : Host.Outcome State Fault Refusal :=
  wide s (howSys sb c .mem []) fun e =>
    let w := e.b.wheel n.toNat
    if !w.desc.valid then .fault e.s 0x42 n.toNat
    else if w.held = w.desc.count then .wait e.s .fillDrain
    else .leave e.s fun s => s.issueArrival e.core e.slot e.gang (arrFill n) e.m

/-- DRAIN of a wheel (R171). -/
def execDrain (sb c : Bool) (n : BitVec 2) (s : State) : Host.Outcome State Fault Refusal :=
  wide s (howSys sb c .mem []) fun e =>
    let w := e.b.wheel n.toNat
    if !w.desc.valid then .fault e.s 0x42 n.toNat
    else if w.held = 0 then .wait e.s .fillDrain
    else .leave e.s fun s => s.issueArrival e.core e.slot e.gang (arrDrain n) e.m

/-- A quad or network barrier word after its scope test (R131). The arrival is a release: it waits like one (R182). -/
def Env.netBar (e : Env) (level : Nat) (b : BitVec 4) (allowed : Bool) : Res :=
  if !allowed then .fault e.s 0x41 0
  else if (Tbl.get? e.g.arr (arrDone level b.toNat)).isSome then .fault e.s 0x40 b.toNat
  else
    let s := e.s.scopeBack e.core e.slot e.gang (netScope level)
    if (s.gang? e.core e.slot e.gang).all (·.released (netScope level)) then
      .hold s (netArr level b.toNat) fun s =>
        s.issueArrival e.core e.slot e.gang (arrNet level b.toNat) e.m
    else .wait s .release

/-- QBAR (R131). -/
def execQbar (sb c : Bool) (b : BitVec 4) (s : State) : Host.Outcome State Fault Refusal :=
  wide s (howSys sb c .mem []) fun e => e.netBar 0 b e.b.feeding

/-- NBAR (R131, R132). -/
def execNbar (sb c : Bool) (l : BitVec 2) (b : BitVec 4) (s : State) : Host.Outcome State Fault Refusal :=
  wide s (howSys sb c .mem []) fun e =>
    let podn := ((e.s.inst? e.b.node).map fun x => x.recd.podn).getD 0
    e.netBar (l.toNat + 1) b (e.b.cor && (l != 2 || podn != 0))

/-- BOWAIT (R133): the phase seen is acquired (R229). -/
def execBowait (sb c : Bool) (w : BitVec 4) (s : State) : Host.Outcome State Fault Refusal :=
  wide s (howSys sb c .mem []) fun e =>
    let x := (e.wreg w).val
    let off := fld x 31 0
    if off % 16 ≠ 0 then .fault e.s 0x20 0
    else if e.b.shape.plain < off + 16 then .fault e.s 0x24 0
    else if objReached (BitVec.ofNat 32 (e.b.sp.nat (off + 8) 4)) (BitVec.ofNat 32 (fld x 63 32)) then
      .done ((e.s.meetBlock e.core e.slot e.ws).landed e.core e.slot) none
    else .wait e.s (.bowait off)

/-! ### Containment, STEP, traps -/

/-- The group holds every present, non-exited slice (R340). -/
def Env.whole (e : Env) : Bool := e.m == e.g.live

/-- CONTAIN.OPEN (R340). -/
def execContainOpen (sb c : Bool) (j : BitVec 20) (s : State) : Host.Outcome State Fault Refusal :=
  wide s (howSys sb c .sf []) fun e =>
    if !e.whole then .fault e.s 0x73 0
    else if 4 ≤ e.g.stack.length then .fault e.s 0x72 0
    else .done (e.onGang fun g => { g with stack := (e.pc + j.signExtend 32) :: g.stack }) none

/-- CONTAIN.CLOSE (R340). -/
def execContainClose (sb c : Bool) (s : State) : Host.Outcome State Fault Refusal :=
  wide s (howSys sb c .sf []) fun e =>
    if !e.whole || e.g.stack.isEmpty then .fault e.s 0x73 0
    else .done (e.onGang fun g => { g with stack := g.stack.drop 1 }) none

/-- A stop asked of a gang for a save; a debugger's HALT or STEP that is still to take effect stands (R349). -/
def Gang.ask (g : Gang) (r : StopReq) : Gang := if g.req = .none then { g with req := r } else g

/-- R351: SC := Max(SC, n). -/
def stepCount (sc n : BitVec 16) : BitVec 16 := if sc.ult n then n else sc

/-- R351: the slot of ordinal `o` is a STOP or IENTRY slot: as the flume holds it, or, once it has been reclaimed, as the gang has
recorded its issue (R356). -/
def Block.siteAt (b : Block) (g : Gang) (o : Word) : Bool :=
  if b.f.ule o then 2 ≤ (b.slotOf o).kind.toNat else g.issues.any fun r => r.ord == o && 2 ≤ r.kind.toNat

/-- R351: the word before the word at `pc`, of one slot or two, stands in a STOP or IENTRY slot. -/
def Block.afterSite (b : Block) (g : Gang) (pc : Word) : Bool :=
  pc != 0 &&
    (let two := if b.f.ule (pc - 1) then (b.slotOf (pc - 1)).kind == 1 else !(g.issues.any fun r => r.ord == pc - 1)
     if two then pc != 1 && b.siteAt g (pc - 2) else b.siteAt g (pc - 1))

/-- STEP (R351), with the cut of a whole-job stop at step count T (R335): a gang of a block whose count is T waits before
the word, and one whose STEP raises the count to T waits after it. Where no stop site precedes the word, the gang goes on
and stops at its next site, seal stop or wait stop (R351). -/
def execStep (sb c : Bool) (n : BitVec 16) (s : State) : Host.Outcome State Fault Refusal :=
  wide s (howSys sb c .sf []) fun e =>
    let s1 := e.s.onBlock e.core e.slot fun b => { b with sc := stepCount b.sc n }
    match (e.s.ctx e.ctx).cut with
    | none => .done s1 none
    | some t =>
      if !t.ule (stepCount e.b.sc n) then .done s1 none
      else if !e.b.afterSite e.g e.pc then .done (s1.onGang e.core e.slot e.gang (·.ask .cut)) none
      else if t.ule e.b.sc then .wait e.s .stepCut
      else .leave s1 fun s => s.onGang e.core e.slot e.gang fun g => g.onGroup e.m fun y => { y with wait := .stepped }

/-- TRAP (R346): each slice's saved PC is the word after. -/
def execTrap (sb c : Bool) (n : BitVec 16) (s : State) : Host.Outcome State Fault Refusal :=
  wide s (howSys sb c .sf []) fun e =>
    .leave e.s fun s => s.wFault e.core e.slot e.gang e.m e.pc 0x70 n.toNat

/-- A gang halted by the debugger (R87, R346, R347). -/
def State.haltGang (s : State) (core slot gang : Nat) : State :=
  s.onGang core slot gang fun g => { g with st := .parked, halted := true, req := .none, reqEvent := false }

/-- BRK (R346). -/
def execBrk (sb c : Bool) (n : BitVec 16) (s : State) : Host.Outcome State Fault Refusal :=
  wide s (howSys sb c .sf []) fun e =>
    .leave e.s fun s =>
      if (s.ctx e.ctx).debug then
        (s.haltGang e.core e.slot e.gang).postEvent e.ctx
          (s.gangRecord e.core e.slot e.gang e.m e.pc false false n.toNat 0x71)
      else s.ctxCount e.ctx .brkIgnored

/-! ### Fences -/

/-- R189: no ferry command of the gang is in flight. -/
def Core.ferryIdle (c : Core) (slot gang : Nat) : Bool := !(c.ferry.any fun f => f.slot == slot && f.gang == gang)

/-- R189: no FEED or DRAIN of the gang is in flight. -/
def Core.engIdle (c : Core) (slot gang : Nat) : Bool :=
  !(c.eng.any fun e => match e with
    | .feed _ sl g _ _ _ _ _ _ _ _ _ _ _ _ => sl == slot && g == gang
    | .drain _ sl g _ _ _ => sl == slot && g == gang)

/-- R189: the fence's condition, after the write-backs of R175. -/
def fenceReady (s : State) (core slot gang : Nat) (feeding : Bool) (kind : BitVec 2) (scope : BitVec 3) : Bool :=
  match s.gang? core slot gang with
  | none => true
  | some g =>
    g.released scope && !(g.pend.any fun p => !p.returned && p.acq.isSome) && (!kind.getLsbD 0 || (s.core core).ferryIdle slot gang) &&
      (!kind.getLsbD 1 || !feeding || (s.core core).engIdle slot gang)

/-- R236, R238: a fence of a group in engine order with the gang's ferry commands, or with its FEEDs and DRAINs: what they have
done happens before it, and it before later ones. -/
def State.engineFence (s : State) (core slot gang : Nat) (m : BitVec 8) (cube : Bool) : State :=
  ((s.join (groupWho core slot gang m) (·.covers (.after core slot gang cube))).join [.before core slot gang cube]
    (Who.ofGang core slot gang)).landed core slot

/-- FENCE (R189): kinds 0 ordinary, 1 copy, 2 cube, 3 all. No engine reads the scratchpad after it as it stood before the gang's
earlier stores. -/
def execFence (sb c : Bool) (kind : BitVec 2) (scope : BitVec 3) (s : State) : Host.Outcome State Fault Refusal :=
  wide s (howSys sb c .mem []) fun e =>
    let s := e.s.scopeBack e.core e.slot e.gang scope
    if fenceReady s e.core e.slot e.gang e.b.feeding kind scope then
      let p := e.mine
      let s := (s.onBlock e.core e.slot fun b => { b with spOld := [] }).fence e.ws p scope
      let s := if kind.getLsbD 0 then s.engineFence e.core e.slot e.gang e.m false else s
      let s := if kind.getLsbD 1 && e.b.feeding then s.engineFence e.core e.slot e.gang e.m true else s
      .done ((s.system p scope).acquireL1 e.core scope) none
    else .wait s .fence

end Sys2Proof.Machine
end

