-- ==== Sys2Proof/Machine/WideMem.lean ====
section
/-! DEFINITION. The memory subclass: addresses and tests (R165 to R180), LDX, STX, ATOM, LDW, PREF, STFLUSH, STUNMAP
(R183 to R188). A load or store is performed when its word issues, an ATOM when its result returns, and what was read is delivered
then (log 7). -/

namespace Sys2Proof

/-- Bytes of an access of a lane (R176). -/
def MemOp.z (o : MemOp) : Nat := 2 ^ o.size.toNat
/-- Registers of the group of an access (R183). -/
def MemOp.regs (o : MemOp) : Nat := if o.size.toNat ≤ 2 then 1 else 2 ^ (o.size.toNat - 2)
def MemOp.isGlobal (o : MemOp) : Bool := o.wsel.toNat ≤ 13
def MemOp.acquires (o : MemOp) : Bool := o.ord.getLsbD 0
def MemOp.releases (o : MemOp) : Bool := o.ord.getLsbD 1

/-- The order of an instruction as an acquire, and as a release. -/
def MemOp.acq? (o : MemOp) : Option (BitVec 3) := if o.acquires then some o.scope else none
def MemOp.rel? (o : MemOp) : Option (BitVec 3) := if o.releases then some o.scope else none

/-- The register after which the operand of an atomic stands, and the registers it takes (R185). -/
def MemOp.operandReg (o : MemOp) : Nat := if o.aop = 1 then o.d.toNat + o.regs else o.d.toNat

/-- Registers of an ATOM that must form a group: CAS takes the new value after the comparand (R177). DESIGN CHOICE, log 31: this
holds for a 32-bit CAS too, whose vd = 126 would put the new value into 127, though R45 names 64 and 128 bits only. -/
def MemOp.atomGroup (o : MemOp) : Nat := if o.aop = 1 then 2 * o.regs else o.regs

end Sys2Proof

namespace Sys2Proof.Machine

/-- R165, R166: the address of a lane offset. -/
def Env.address (e : Env) (o : MemOp) (voff : Word) : LaneAddr :=
  let disp : DWord := o.off.signExtend 64 * BitVec.ofNat 64 o.z
  if o.isGlobal then
    let ea := (e.wreg o.wsel).val + voff.signExtend 64 + disp
    if canonical ea then .global ea else .badVa ea
  else
    let pa : Word := voff + disp.setWidth 32
    if o.wsel = 14 then (if pa.toNat + o.z ≤ e.b.shape.plain then .scratch pa.toNat else .extent)
    else match e.b.wheelSpot pa o.z with
      | .ok off => .scratch off
      | .extent => .extent
      | .stall => .stall

/-- The active lanes with their addresses, rising. -/
def Env.lanes (e : Env) (o : MemOp) : List (Nat × LaneAddr) :=
  let v := e.reg o.voff.toNat
  (List.range 32).filterMap fun i => if e.act.getLsbD i then some (i, e.address o (lane v.lanes i)) else none

/-- R165: every address is a multiple of the size. A wheel address is tested as it is formed (log 15). -/
def Env.misaligned (e : Env) (o : MemOp) (l : List (Nat × LaneAddr)) : Bool :=
  let v := e.reg o.voff.toNat
  l.any fun p =>
    match p.2 with
    | .global va => va.toNat % o.z != 0
    | .badVa va => va.toNat % o.z != 0
    | _ => ((lane v.lanes p.1) + (o.off.signExtend 64 * BitVec.ofNat 64 o.z : DWord).setWidth 32).toNat % o.z != 0

/-- Steps 1 to 6 of R179: what stops the instruction before its access. -/
def Env.memTests (e : Env) (o : MemOp) (l : List (Nat × LaneAddr)) (mis : Bool) : Option Res :=
  match l.findSome? fun p => (match p.2 with
      | .extent => some (Res.fault e.s 0x24 0)
      | .badVa _ => some (Res.late e.s (.translation 0xC))
      | _ => none) with
  | some r => some r
  | none =>
    if mis then some (.fault e.s 0x20 0)
    else if !o.isGlobal && o.ord != 0 && 3 ≤ o.scope.toNat then some (.fault e.s 0x25 0)
    else if o.mode = 2 && !e.s.restamp e.ctx then some (.fault e.s 0x31 0)
    else if l.any fun p => p.2 == .stall then some (.wait e.s .wheel)
    else none

/-- R229, R172: an access to a wheel acquires what arrivals have released. -/
def Env.meetWheel (e : Env) (o : MemOp) (s : State) : State :=
  if o.wsel = 15 then s.meetBlock e.core e.slot e.ws else s

/-- Step 6 of R179 (R182), with the stash write-backs of R175. -/
def Env.releaseWait (e : Env) (o : MemOp) : State × Bool :=
  if o.releases then
    let s := e.s.scopeBack e.core e.slot e.gang o.scope
    if (s.gang? e.core e.slot e.gang).any fun g => !g.released o.scope then (s, true)
    else (s.system e.mine o.scope, false)
  else (e.s, false)

/-! ### Stash fills -/

/-- Whose failing checks are counted: a word in hand of a group, or an open result (R252). -/
inductive Counted where
  | word (m : BitVec 8)
  | result (id : Nat)
  deriving DecidableEq, Repr

/-- Entries of the bound table that it has counted. -/
def State.countedBy (s : State) (core slot gang : Nat) (w : Counted) : List Nat :=
  match s.gang? core slot gang, w with
  | some g, .word m => ((g.groups.find? (·.mask == m)).map (·.counted)).getD []
  | some g, .result id => ((g.pend.find? (·.id == id)).map (·.counted)).getD []
  | none, _ => []

/-- R252: a failing check of entry `n`: each entry is counted once per instruction. -/
def State.boundOnce (s : State) (core slot gang : Nat) (w : Counted) (ctx n : Nat) : State :=
  if (s.countedBy core slot gang w).contains n then s
  else (s.boundHit ctx n).onGang core slot gang fun g =>
    match w with
    | .word m => g.onGroup m fun x => { x with counted := n :: x.counted }
    | .result id => { g with pend := g.pend.map fun p => if p.id = id then { p with counted := n :: p.counted } else p }

/-- R174, R319: a miss of a mapped address fills its line; the fill is checked against the operand's bound entry. Answers
the entry whose action stops the instruction. -/
def State.stashFill (s : State) (core slot gang : Nat) (m : Counted) (ctx : Nat) (va : DWord) (wr : Bool) :
    State × Except Stop (Option Nat) :=
  match s.block? core slot with
  | none => (s, .ok none)
  | some b =>
    match b.stashMap? va with
    | none => (s, .ok none)
    | some (_, _, bnd) =>
      if (Tbl.get? b.stash (vaBits va / 128)).isSome then (s, .ok none)
      else match s.stashLine core slot gang ctx va wr with
        | (s, .error e) => (s, .error e)
        | (s, .ok l) =>
          if l.stamps.any fun st => s.boundFails ctx bnd.toNat st then
            let s := s.boundOnce core slot gang m ctx bnd.toNat
            if (s.ctx ctx).boundAct bnd.toNat = .mark then (s, .ok none)
            else (s.stashDrop core slot gang (vaBits va / 128), .ok (some bnd.toNat))
          else (s, .ok none)

/-- A failing load-side entry as a late fault (R253, R256, R258). -/
def State.boundLate (s : State) (ctx n : Nat) (store : Bool) (va : Option DWord) : LateCause :=
  if (s.ctx ctx).boundAct n = .refire then .refire (freshDetail 0 store n) va else .freshness (freshDetail 0 store n)

/-- Fills and translation tests of the global lanes, in order; the lowest failing lane gives the late fault. -/
def State.reach (s : State) (core slot gang : Nat) (m : Counted) (ctx : Nat) (wr : Bool) (n : Nat) (stash : Bool) :
    List (Nat × LaneAddr) → State × Option LateCause × Bool
  | [] => (s, none, false)
  | (_, .global va) :: r =>
    match (if stash then s.stashFill core slot gang m ctx va wr else (s, .ok none)) with
    | (s, .ok (some k)) => (s, some (s.boundLate ctx k false (some va)), false)
    | (s, .error .wait) => (s, none, true)
    | (s, .error e) => (s, some (e.late va), false)
    | (s, .ok none) =>
      match s.globalTest core slot gang ctx va wr n stash with
      | (s, .ok ()) => s.reach core slot gang m ctx wr n stash r
      | (s, .error .wait) => (s, none, true)
      | (s, .error e) => (s, some (e.late va), false)
  | _ :: r => s.reach core slot gang m ctx wr n stash r

/-! ### Loads -/

/-- Data of a scratchpad access (R190). -/
def Block.spRead (b : Block) (off n : Nat) : Got := ⟨b.sp.bytesAt off n, b.sp.stamp (off / 32), b.sp.bad (off / 32)⟩

/-- What engines have written to a sector of the scratchpad is there for the block's agents. -/
def Block.here (b : Block) (sec : Nat) : Block := { b with spLate := Tbl.erase b.spLate sec }

/-- A read of the scratchpad by an agent of its block: as it is, or, not in wheel space (`wheel`), as it stood before an engine's
write that nothing orders before the read (R236); a free choice (log 8). -/
def State.spLoad (s : State) (w : Who) (core slot off n : Nat) (wheel : Bool) : State × Got :=
  match s.block? core slot with
  | none => (s, ⟨[], ageless, false⟩)
  | some b =>
    let now (s : State) : State × Got := (s.observe w s.heads (spLoc core slot off) n, b.spRead off n)
    match Tbl.get? b.spLate (off / 32) with
    | none => now s
    | some x =>
      let (s, old) := if wheel then (s, false) else s.choose false [true]
      if old then (s, ⟨(x.1.drop (off % 32)).take n, x.2.1, x.2.2⟩)
      else now (s.onBlock core slot (·.here (off / 32)))

/-- Lanes of the list on the 128-byte line of an address (R204). -/
def lineCount (l : List (Nat × LaneAddr)) (va : DWord) : Nat :=
  (l.filter fun p => match p.2 with
    | .global x => x.toNat / 128 == va.toNat / 128
    | _ => false).length

/-- The reads of an instruction, lane by lane: what each lane got; the lowest lane that stops. A line that fewer than four
lanes touch is not filled (R204); an LDW, which has no lanes (`uni`), fills as R194 says. -/
def Env.reads (e : Env) (o : MemOp) (uni : Bool) (all : List (Nat × LaneAddr)) (s : State) :
    List (Nat × LaneAddr) → State × List (Nat × Got) × Option LateCause
  | [] => (s, [], none)
  | (i, a) :: r =>
    match a with
    | .global va =>
      let useL1 := o.policy.toNat < 2 && !(o.acquires && 3 ≤ o.scope.toNat)
      let fill := o.policy.toNat < 2 && (uni || 4 ≤ lineCount all va)
      match s.globalRead (.slice e.core e.slot e.gang (i / 4)) e.core e.slot e.gang e.ctx va o.z true useL1 fill with
      | (s, .ok g) =>
        let (s, l, c) := e.reads o uni all s r
        (s, (i, g) :: l, c)
      | (s, .error x) => (s, [], some (x.late va))
    | .scratch off =>
      let (s, g) := s.spLoad (.slice e.core e.slot e.gang (i / 4)) e.core e.slot off o.z (o.wsel = 15)
      let (s, l, c) := e.reads o uni all s r
      (s, (i, g) :: l, c)
    | _ => e.reads o uni all s r

/-- What lane `i` of the list got. -/
def gotOf (l : List (Nat × Got)) (i : Nat) : Got :=
  match l.find? (·.1 == i) with
  | some p => p.2
  | none => ⟨[], ageless, false⟩

def addrOf (l : List (Nat × LaneAddr)) (i : Nat) : DWord :=
  match l.find? (·.1 == i) with
  | some (_, .global va) => va
  | _ => 0

/-- Word `k` of the bytes of a lane, zero-extended (R183). -/
def wordOf (l : List Byte) (k : Nat) : Word := BitVec.ofNat 32 (leVal ((l.drop (4 * k)).take 4))

/-- The pending result of a lane-wise load (R183, R120), formed in state `s`. -/
def Env.loadPend (e : Env) (s : State) (o : MemOp) (l : List (Nat × LaneAddr)) (got : List (Nat × Got)) (fail : Option LateCause) : Pend :=
  { Pend.new e.m e.pc
      (.lanes o.d.toNat e.act ((List.range o.regs).map fun k => vec 32 fun i => wordOf (gotOf got i).bytes k)
        (vec 32 fun i => (gotOf got i).stamp) (vec 32 fun i => addrOf l i)) o.regs with
    bnd := o.bnd
    scratch := !o.isGlobal
    fail := match fail with
      | some c => some c
      | none => if got.any (·.2.bad) then some .poison else none
    acq := if o.acquires then some o.scope else none
    counted := s.countedBy e.core e.slot e.gang (.word e.m) }

def howMem (o : MemOp) (l : List RegField) : How := ⟨o.s, o.c, .mem, 2, false, l⟩

/-- LDX (R183). -/
def execLdx (o : MemOp) (s : State) : Host.Outcome State Fault Refusal :=
  wide s (howMem o [.group o.d o.regs, .v o.voff]) fun e =>
    if e.act = 0 then .done e.s none
    else
      let l := e.lanes o
      match e.memTests o l (e.misaligned o l) with
      | some r => r
      | none =>
        match e.s.reach e.core e.slot e.gang (.word e.m) e.ctx false o.z true l with
        | (s, _, true) => .wait s .base
        | (s, some c, _) => .done (e.pend s (e.loadPend s o l [] (some c))) none
        | (s, none, _) =>
          let (s, got, c) := (e.meetWheel o s).acquiring e.ws o.acq? fun s => e.reads o false l s l
          .done (e.pend s (e.loadPend s o l got c)) none

/-- LDW (R186): one read, whether or not a lane is active; its agent is the lowest slice of the group. -/
def execLdw (o : MemOp) (s : State) : Host.Outcome State Fault Refusal :=
  wide s (howMem o [.wreg o.d]) fun e =>
    if o.wsel = 15 then .fault e.s 0x24 0
    else
      let a := e.address o 0
      let l := [(4 * ((List.range 8).find? fun j => e.m.getLsbD j).getD 0, a)]
      let mis := (match a with
        | .global va => va.toNat % o.z != 0
        | .badVa va => va.toNat % o.z != 0
        | _ => ((o.off.signExtend 64 * BitVec.ofNat 64 o.z : DWord).setWidth 32 : Word).toNat % o.z != 0)
      match e.memTests o l mis with
      | some r => r
      | none =>
        let p (s : State) (g : Got) (c : Option LateCause) : Pend :=
          { Pend.new e.m e.pc (.uni (o.d.setWidth 4) ⟨BitVec.ofNat 64 (leVal g.bytes), g.stamp⟩ (match a with
            | .global va => va
            | _ => 0)) 0 with
            bnd := o.bnd
            scratch := !o.isGlobal
            fail := match c with
              | some c => some c
              | none => if g.bad then some .poison else none
            acq := if o.acquires then some o.scope else none
            counted := s.countedBy e.core e.slot e.gang (.word e.m) }
        match e.s.reach e.core e.slot e.gang (.word e.m) e.ctx false o.z true l with
        | (s, _, true) => .wait s .base
        | (s, some c, _) => .done (e.pend s (p s ⟨[], ageless, false⟩ (some c))) none
        | (s, none, _) =>
          let (s, got, c) := s.acquiring e.ws o.acq? fun s => e.reads o true l s l
          .done (e.pend s (p s ((got.head?.map (·.2)).getD ⟨[], ageless, false⟩) c)) none

/-! ### Stores -/

/-- The slice stamps of a group of registers: Older in register order (R184, R185). -/
def Env.groupStamp (e : Env) (r k j : Nat) : Stamp :=
  olderAll e.now ((List.range k).map fun i => stampAt (e.reg (r + i)).stamps j)

/-- The bytes of a lane of a group of registers. -/
def Env.laneBytes (e : Env) (r n i : Nat) : List Byte :=
  ((List.range ((n + 3) / 4)).flatMap fun k => leBytes (lane (e.reg (r + k)).lanes i).toNat 4).take n

/-- R188: the store-side check of an instruction over the slices with an active lane. -/
def Env.storeFails (e : Env) (bnd : Nat) (st : Nat → Stamp) : Bool :=
  (List.range 8).any fun j => e.touched.getLsbD j && e.s.boundFails e.ctx bnd (st j)

/-- R188: what a failing store-side check does: goes on under MARK, else a late freshness fault (R256, R258). -/
def Env.storeBound (e : Env) (bnd : Nat) (s : State) (fails : Bool) : State × Option LateCause :=
  if fails then
    let s := s.boundOnce e.core e.slot e.gang (.word e.m) e.ctx bnd
    if (s.ctx e.ctx).boundAct bnd = .mark then (s, none) else (s, some (s.boundLate e.ctx bnd true none))
  else (s, none)

/-- The stamp rule of a store or atomic for data stamp `ds` (R184). -/
def storeRule (mode : BitVec 2) (now ds : Stamp) : StampRule :=
  if mode = 2 then .exact now else if mode = 1 then .exact ds else .normal ds

/-- The byte writes of a store in lane order: lane, address, byte. -/
def Env.storeBytes (e : Env) (o : MemOp) (l : List (Nat × LaneAddr)) : List (Nat × Nat × Byte) :=
  l.flatMap fun p =>
    let a := match p.2 with
      | .global va => va.toNat
      | .scratch off => off
      | _ => 0
    (atAddr a (e.laneBytes o.d.toNat o.z p.1)).map fun q => (p.1, q.1, q.2)

/-- The data stamp of a sector: the slices writing it in ascending order (R184). -/
def Env.sectorStamp (e : Env) (o : MemOp) (w : List (Nat × Nat × Byte)) (sec : Nat) : Stamp :=
  olderAll e.now ((List.range 8).filterMap fun j =>
    if w.any fun p => p.1 / 4 == j && p.2.1 / 32 == sec then some (e.groupStamp o.d.toNat o.regs j) else none)

/-- R236: a sector of the scratchpad is about to be written by a gang: an engine command that no fence orders after the
write may still read it as it stood. -/
def Block.spNote (b : Block) (sec : Nat) : Block :=
  let b := b.here sec
  if (Tbl.get? b.spOld sec).isSome then b
  else { b with spOld := Tbl.set b.spOld sec (b.sp.bytesAt (32 * sec) 32, b.sp.stamp sec, b.sp.bad sec) }

/-- The slices whose lanes write to a sector. -/
def Env.writers (e : Env) (w : List (Nat × Nat × Byte)) (sec : Nat) : List Who :=
  (List.range 8).filterMap fun j =>
    if w.any fun p => p.1 / 4 == j && p.2.1 / 32 == sec then some (.slice e.core e.slot e.gang j) else none

/-- The sectors of a store's writes, performed one by one; `rels` gives the releases that they head. -/
def Env.storeSectors (e : Env) (o : MemOp) (w : List (Nat × Nat × Byte)) (rels : List Who → List Release) (s : State)
    (sec : Nat) : State :=
  let r := storeRule o.mode e.now (e.sectorStamp o w sec)
  let l := (w.filter fun p => p.2.1 / 32 == sec).map (·.2)
  let ws := e.writers w sec
  if o.isGlobal then (s.globalWrite ws (rels ws) e.core e.slot e.gang e.ctx e.now sec l r true).1
  else (s.rehead (rels ws) false (l.map fun p => spLoc e.core e.slot p.1)).onBlock e.core e.slot fun b =>
    { b.spNote sec with sp := b.sp.putSector e.now sec l r }

/-- A write of the gang that is to be acknowledged (R233). -/
def Env.noteWrite (e : Env) (s : State) : State := s.onGang e.core e.slot e.gang fun g => { g with outst := g.outst ++ [(0, 0)] }

/-- STX (R184). -/
def execStx (o : MemOp) (s : State) : Host.Outcome State Fault Refusal :=
  wide s (howMem o [.group o.d o.regs, .v o.voff]) fun e =>
    if e.act = 0 then .done e.s none
    else
      let l := e.lanes o
      match e.memTests o l (e.misaligned o l) with
      | some r => r
      | none =>
        match e.releaseWait o with
        | (s, true) => .wait s .release
        | (s, false) =>
          match e.storeBound o.bnd.toNat s (e.storeFails o.bnd.toNat fun j => e.groupStamp o.d.toNat o.regs j) with
          | (s, some c) => .late s c
          | (s, none) =>
            match s.reach e.core e.slot e.gang (.word e.m) e.ctx true o.z true l with
            | (s, _, true) => .wait s .base
            | (s, some c, _) => .late s c
            | (s, none, _) =>
              let w := e.storeBytes o l
              let s := e.meetWheel o s
              let s := (sectorsOf (w.map (·.2.1))).foldl (e.storeSectors o w fun ws => s.releases ws o.rel? e.mine) s
              .done (if o.isGlobal then e.noteWrite s else s) none

/-! ### Atomics -/

/-- R185, R97: the new value of an atomic of `n` bytes; none is a CAS that fails. -/
def atomNew (op : BitVec 4) (n old b cmp : Nat) : Option Nat :=
  let w := 8 * n
  let sg (x : Nat) : Int := if 2 ^ (w - 1) ≤ x then (x : Int) - 2 ^ w else x
  match op.toNat with
  | 0 => some b
  | 1 => if old = cmp then some b else none
  | 2 => some ((old + b) % 2 ^ w)
  | 3 => some (fp32.fadd old b)
  | 4 => some (Nat.land old b)
  | 5 => some (Nat.lor old b)
  | 6 => some (Nat.xor old b)
  | 7 => some (if sg b < sg old then b else old)
  | 8 => some (if sg old < sg b then b else old)
  | 9 => some (min old b)
  | _ => some (max old b)

/-- The stamp rule of an atomic's write (R185). -/
def atomRule (mode : BitVec 2) (now bs : Stamp) : StampRule :=
  if mode = 2 then .exact now else if mode = 1 then .exact bs else .join bs

/-- The lanes of an ATOM performed in ascending order, each one atomic step of its slice. -/
def State.atomLanes (s : State) (core slot gang ctx : Nat) (now : Stamp) (o : MemOp) (rels : List Release) :
    List AtomLane → State × List (Nat × Got) × Option LateCause
  | [] => (s, [], none)
  | x :: r =>
    let f (old : List Byte) : Option (List Byte × StampRule) :=
      (atomNew o.aop o.z (leVal old) x.b x.cmp).map fun v => (leBytes v o.z, atomRule o.mode now x.bs)
    let w := Who.slice core slot gang (x.lane / 4)
    match x.adr with
    | .global va =>
      match s.globalAtomic w rels core slot gang ctx now va o.z (o.scope.toNat ≤ 2) f with
      | (s, .ok g) =>
        let (s, l, c) := s.atomLanes core slot gang ctx now o rels r
        (s, (x.lane, g) :: l, c)
      | (s, .error e) => (s, [], some (e.late va))
    | .scratch off =>
      match s.block? core slot with
      | none => (s, [], none)
      | some blk =>
        let g := blk.spRead off o.z
        let a := spLoc core slot off
        let s := s.observe w s.heads a o.z
        let s := if g.bad then s else match f g.bytes with
          | some (bs, rule) => (s.rehead rels true ((List.range o.z).map (a + ·))).setBlock core slot { blk.spNote (off / 32) with sp := blk.sp.putSector now (off / 32) (atAddr off bs) rule }
          | none => s
        let (s, l, c) := s.atomLanes core slot gang ctx now o rels r
        (s, (x.lane, g) :: l, c)
    | _ => s.atomLanes core slot gang ctx now o rels r

/-- R174: the mapped lines of an ATOM wider than CORE are written back and dropped first. -/
def State.atomUnmap (s : State) (core slot gang : Nat) (l : List (Nat × LaneAddr)) : State :=
  l.foldl (fun s p =>
    match p.2 with
    | .global va =>
      if ((s.block? core slot).bind fun b => b.stashMap? va).isSome then s.stashDrop core slot gang (vaBits va / 128) else s
    | _ => s) s

/-- What comes of performing an ATOM: it has to wait; a late fault, with nothing written; its result, with the state as it is
if the load-side check then finds the result stale (R253), and as it is if not. -/
inductive AtomRes where
  | wait (s : State)
  | late (s : State) (c : LateCause)
  | ok (stale s : State) (p : Pend)

/-- R185: an ATOM is performed when its result returns, so that its load-side check, which is made then, decides whether it
writes (R253; log 7). -/
def State.performAtom (s : State) (core slot gang ctx : Nat) (p : Pend) : AtomRes :=
  match p.atom with
  | none => .ok s s p
  | some a =>
    let l := a.lanes.map fun x => (x.lane, x.adr)
    let stash : Bool := a.o.scope.toNat ≤ 2
    let s := if stash then s else s.atomUnmap core slot gang l
    match s.reach core slot gang (.result p.id) ctx true a.o.z stash l with
    | (s, _, true) => .wait s
    | (s, some c, _) => .late s c
    | (s, none, _) =>
      match s.acquiring (groupWho core slot gang p.slices) p.acq fun s =>
        s.atomLanes core slot gang ctx (s.now ctx) a.o a.rels a.lanes with
      | (_, _, some c) => .late s c
      | (t, got, none) =>
        if got.any (·.2.bad) then .late s .poison
        else
          .ok s (if a.o.isGlobal then t.onGang core slot gang fun g => { g with outst := g.outst ++ [(0, 0)] } else t)
            { p with
              val := match p.val with
                | .lanes reg m _ _ adr =>
                  .lanes reg m ((List.range a.o.regs).map fun k => vec 32 fun i => wordOf (gotOf got i).bytes k)
                    (vec 32 fun i => (gotOf got i).stamp) adr
                | v => v
              counted := s.countedBy core slot gang (.result p.id) }

/-- The lanes of an ATOM with its operands, and the releases that it heads, as it issues. -/
def Env.atomReq (e : Env) (o : MemOp) (s : State) (l : List (Nat × LaneAddr)) : AtomReq :=
  { o := o
    lanes := l.map fun p =>
      { lane := p.1, adr := p.2, b := leVal (e.laneBytes o.operandReg o.z p.1), cmp := leVal (e.laneBytes o.d.toNat o.z p.1)
        bs := e.groupStamp o.operandReg o.regs (p.1 / 4) }
    rels := s.releases e.ws o.rel? e.mine }

/-- ATOM (R185): its tests, its release's wait and the store-side check are made as it issues. -/
def execAtom (o : MemOp) (s : State) : Host.Outcome State Fault Refusal :=
  wide s (howMem o [.group o.d o.atomGroup, .v o.voff]) fun e =>
    if e.act = 0 then .done e.s none
    else
      let l := e.lanes o
      match e.memTests o l (e.misaligned o l) with
      | some r => r
      | none =>
        match e.releaseWait o with
        | (s, true) => .wait s .release
        | (s, false) =>
          match e.storeBound o.bnd.toNat s (e.storeFails o.bnd.toNat fun j => e.groupStamp o.operandReg o.regs j) with
          | (s, some c) => .late s c
          | (s, none) => 
            let s := e.meetWheel o s
            .done (e.pend s { e.loadPend s o l [] none with atom := some (e.atomReq o s l) }) none

/-! ### PREF, STFLUSH, STUNMAP -/

/-- The 128-byte lines that cover `n` bytes at an address. -/
def linesOf (va : DWord) (n : Nat) : List DWord :=
  let a := va &&& ~~~(127 : DWord)
  if va.toNat % 128 + n ≤ 128 then [a] else [a, a + 128]

/-- R187: the access of a prefetch to one line would not fault. A write-back of a stash line and a line that the stash holds
need no translation. DESIGN CHOICE, log 31: a lane whose page is MIGRATE or whose base die is not ready is dropped as one that
would fault is, where R212 and R366 hold any access. -/
def Env.prefOk (e : Env) (policy : Nat) (s : State) (va : DWord) : State × Bool :=
  if !canonical va then (s, false)
  else if (e.b.stashMap? va).isSome && (2 ≤ policy || (Tbl.get? e.b.stash (vaBits va / 128)).isSome) then (s, true)
  else match s.translate e.core e.ctx va false 128 with
    | (s, .ok _) => (s, true)
    | (s, _) => (s, false)

/-- R187: one line of a prefetch, by policy: 0 and 1 into the L1 or the stash, 2 write-back or the isle cache, 3 write-back
and drop or the lagoon. A prefetch is never checked against a bound (R252). -/
def Env.prefLine (e : Env) (w : Who) (policy : Nat) (s : State) (va : DWord) : State :=
  if (e.b.stashMap? va).isSome then
    match policy with
    | 2 => s.stashBack e.core e.slot e.gang (vaBits va / 128)
    | 3 => s.stashDrop e.core e.slot e.gang (vaBits va / 128)
    | _ => match s.stashLine e.core e.slot e.gang e.ctx va false with
      | (s, .ok l) => s.putLine e.core e.slot va l
      | (s, .error _) => s
  else match s.translate e.core e.ctx va false 128 with
    | (s, .ok pa) =>
      if policy = 3 then s
      else if policy = 2 then s.dirAccess (isleOf e.core) pa false
      else (s.readSector w e.core e.slot e.gang pa 32 true true).1
    | (s, _) => s

/-- R187: the lines of one lane; a lane whose access would fault is dropped whole. -/
def Env.prefLane (e : Env) (o : MemOp) (policy : Nat) (s : State) (p : Nat × LaneAddr) : State :=
  match p.2 with
  | .global va =>
    let (s, ok) := (linesOf va o.z).foldl (fun (a : State × Bool) l =>
      if a.2 then e.prefOk policy a.1 l else a) (s, true)
    if ok then (linesOf va o.z).foldl (e.prefLine (.slice e.core e.slot e.gang (p.1 / 4)) policy) s else s
  | _ => s

/-- The prefetch forms (R187): plain and wheel space do nothing. -/
def prefetch (o : MemOp) (policy : Nat) (s : State) : Host.Outcome State Fault Refusal :=
  wide s (howMem o [.v o.voff]) fun e =>
    if !o.isGlobal then .done e.s none
    else .done ((e.lanes o).foldl (e.prefLane o policy) e.s) none

/-- PREF and PREF.stream (R187). -/
def execPref (o : MemOp) (s : State) : Host.Outcome State Fault Refusal := prefetch o o.policy.toNat s
/-- STFLUSH (R187). -/
def execStflush (o : MemOp) (s : State) : Host.Outcome State Fault Refusal := prefetch o 2 s
/-- STUNMAP (R187). -/
def execStunmap (o : MemOp) (s : State) : Host.Outcome State Fault Refusal := prefetch o 3 s

end Sys2Proof.Machine
end

