-- ==== Sys2Proof/Machine/Gen.lean ====
section
/-! DEFINITION. How a generator word issues (R73, R104), and the words of arithmetic and control flow (R94, R101), the
stamp words, GSRD, GTRAP, GRETH, GPAUSE (R102, R103, R106), LDKC (R74). -/

namespace Sys2Proof.Machine

/-- What a generator word sees. -/
structure GEnv where
  s : State
  core : Nat
  slot : Nat
  b : Block
  now : Stamp

/-- The result of a generator word's meaning. -/
inductive GRes where
  /-- The word completes and the next follows. -/
  | done (s : State)
  /-- The word completes and the thread goes on at an address. -/
  | jump (s : State) (pc : DWord)
  /-- The word has not executed: the thread waits at it (R104). -/
  | wait (s : State) (w : GWait)
  /-- A G-level fault, precise at the word. -/
  | fault (s : State) (code detail : Nat) (addr : DWord)
  /-- R300: a deferred fault of the cube, taken in place of the word. -/
  | deferred (s : State) (code detail : Nat) (addr : DWord)
  /-- The word completes; the state says where the thread goes on. -/
  | leave (s : State)

/-- R349: GSTEP has run its one instruction. -/
def Thread.stepped (t : Thread) : Thread := if t.stepOne then { t with stepOne := false, halted := true } else t

/-- R259: a completed instruction ends the wait and sets the refire count to 0. -/
def Thread.complete (t : Thread) (pc : DWord) : Thread := { t with pc := pc, wait := .none, refires := 0 }.stepped

/-- Two bytes that no rule states: the detail of a debug event other than a breakpoint (R348). Log 8: free. -/
def State.freeHalf (s : State) : State × Nat :=
  ({ s with fresh := s.fresh + 2 }, (Config.freeByte s.fresh).toNat + 256 * (Config.freeByte (s.fresh + 1)).toNat)

/-- R348: the event of a halt or a completed step of a generator thread. -/
def State.threadEvent (s : State) (core slot : Nat) : State :=
  match s.block? core slot with
  | none => s
  | some b =>
    let (s, d) := s.freeHalf
    s.postEvent b.ctx
      { cause := causeWord b.ctx true false false false d 0x71, loc := 1 <<< 63, addr := 0, pc := b.th.pc, site := 0
        prov := 0, node := b.node, place := s.placeWord b.ctx core slot }

namespace GEnv

def ctx (e : GEnv) : Nat := e.b.ctx
def th (e : GEnv) : Thread := e.b.th
def pc (e : GEnv) : DWord := e.b.th.pc
def reg (e : GEnv) (r : BitVec 5) : SVal := e.b.th.reg r.toNat

/-- A register of the active set written; the word completes. -/
def put (e : GEnv) (s : State) (d : BitVec 5) (x : SVal) : GRes :=
  .done (s.onThread e.core e.slot fun t => t.setReg d.toNat x)

/-- A word that is illegal where it stands (R65, R88, R106, R350). -/
def illegal (e : GEnv) : GRes := .fault e.s 0x01 0 0

/-- What a word's result does to the machine. -/
def finish (e : GEnv) (r : GRes) : State :=
  let after (s : State) : State := if e.th.stepOne then s.threadEvent e.core e.slot else s
  match r with
  | .done s => after (s.onThread e.core e.slot fun t => t.complete (e.pc + 4))
  | .jump s pc => after (s.onThread e.core e.slot fun t => t.complete pc)
  | .wait s w => s.onThread e.core e.slot fun t => { t with wait := w }
  | .fault s code detail addr => s.gTrap e.core e.slot code detail addr
  | .deferred s code detail addr => s.gFault e.core e.slot code detail addr e.pc true
  | .leave s => after (s.onThread e.core e.slot fun t => { t with wait := .none, refires := 0 }.stepped)

end GEnv

/-- The meaning of a generator word, executed by the thread in hand. -/
def gen (s : State) (body : GEnv → GRes) : Host.Outcome State Fault Refusal :=
  match s.thread? with
  | some (core, slot, b) =>
    let e : GEnv := ⟨s, core, slot, b, s.now b.ctx⟩
    .next (e.finish (body e))
  | none => .fault .noAgent

/-! ### Arithmetic (R94) -/

/-- Register forms: Older of the two sources. -/
def galu (o : GrOp) (f : DWord → DWord → DWord) (s : State) : Host.Outcome State Fault Refusal :=
  gen s fun e =>
    let a := e.reg o.a
    let b := e.reg o.b
    e.put e.s o.d ⟨f a.val b.val, older e.now a.stamp b.stamp⟩

/-- Immediate forms: the stamp of ga. -/
def galui (d a : BitVec 5) (i : DWord) (f : DWord → DWord → DWord) (s : State) : Host.Outcome State Fault Refusal :=
  gen s fun e =>
    let a := e.reg a
    e.put e.s d ⟨f a.val i, a.stamp⟩

/-- A truth value as a register value. -/
def flagWord (b : Bool) : DWord := if b then 1 else 0

/-- ADD (R94). -/
def execAdd (o : GrOp) (s : State) : Host.Outcome State Fault Refusal := galu o (· + ·) s
/-- SUB (R94). -/
def execSub (o : GrOp) (s : State) : Host.Outcome State Fault Refusal := galu o (· - ·) s
/-- MUL (R94). -/
def execMul (o : GrOp) (s : State) : Host.Outcome State Fault Refusal := galu o (· * ·) s
/-- MULHU (R94). -/
def execMulhu (o : GrOp) (s : State) : Host.Outcome State Fault Refusal :=
  galu o (fun a b => BitVec.ofNat 64 (a.toNat * b.toNat / 2 ^ 64)) s
/-- DIVU (R94): all ones for a zero divisor. -/
def execDivu (o : GrOp) (s : State) : Host.Outcome State Fault Refusal :=
  galu o (fun a b => if b = 0 then BitVec.allOnes 64 else BitVec.ofNat 64 (a.toNat / b.toNat)) s
/-- REMU (R94): ga for a zero divisor. -/
def execRemu (o : GrOp) (s : State) : Host.Outcome State Fault Refusal :=
  galu o (fun a b => if b = 0 then a else BitVec.ofNat 64 (a.toNat % b.toNat)) s
/-- AND (R94). -/
def execAnd (o : GrOp) (s : State) : Host.Outcome State Fault Refusal := galu o (· &&& ·) s
/-- OR (R94). -/
def execOr (o : GrOp) (s : State) : Host.Outcome State Fault Refusal := galu o (· ||| ·) s
/-- XOR (R94). -/
def execXor (o : GrOp) (s : State) : Host.Outcome State Fault Refusal := galu o (· ^^^ ·) s
/-- SHL (R94): by gb mod 64. -/
def execShl (o : GrOp) (s : State) : Host.Outcome State Fault Refusal := galu o (fun a b => a <<< (b.toNat % 64)) s
/-- SHR (R94). -/
def execShr (o : GrOp) (s : State) : Host.Outcome State Fault Refusal := galu o (fun a b => a >>> (b.toNat % 64)) s
/-- SAR (R94). -/
def execSar (o : GrOp) (s : State) : Host.Outcome State Fault Refusal := galu o (fun a b => a.sshiftRight (b.toNat % 64)) s
/-- SLT (R94). -/
def execSlt (o : GrOp) (s : State) : Host.Outcome State Fault Refusal := galu o (fun a b => flagWord (a.slt b)) s
/-- SLTU (R94). -/
def execSltu (o : GrOp) (s : State) : Host.Outcome State Fault Refusal := galu o (fun a b => flagWord (a.ult b)) s
/-- ADDI (R94). -/
def execAddi (o : GiOp) (s : State) : Host.Outcome State Fault Refusal := galui o.d o.a (sext64 o.i) (· + ·) s
/-- ANDI (R94). -/
def execAndi (o : GiOp) (s : State) : Host.Outcome State Fault Refusal := galui o.d o.a (o.i.setWidth 64) (· &&& ·) s
/-- ORI (R94). -/
def execOri (o : GiOp) (s : State) : Host.Outcome State Fault Refusal := galui o.d o.a (o.i.setWidth 64) (· ||| ·) s
/-- XORI (R94). -/
def execXori (o : GiOp) (s : State) : Host.Outcome State Fault Refusal := galui o.d o.a (o.i.setWidth 64) (· ^^^ ·) s
/-- SHLI (R94). -/
def execShli (d a : BitVec 5) (i : BitVec 6) (s : State) : Host.Outcome State Fault Refusal :=
  galui d a (i.setWidth 64) (fun a i => a <<< i.toNat) s
/-- SHRI (R94). -/
def execShri (d a : BitVec 5) (i : BitVec 6) (s : State) : Host.Outcome State Fault Refusal :=
  galui d a (i.setWidth 64) (fun a i => a >>> i.toNat) s
/-- SARI (R94). -/
def execSari (d a : BitVec 5) (i : BitVec 6) (s : State) : Host.Outcome State Fault Refusal :=
  galui d a (i.setWidth 64) (fun a i => a.sshiftRight i.toNat) s
/-- SLTI (R94). -/
def execSlti (o : GiOp) (s : State) : Host.Outcome State Fault Refusal :=
  galui o.d o.a (sext64 o.i) (fun a i => flagWord (a.slt i)) s
/-- LUI (R94): stamp AGELESS. -/
def execLui (d : BitVec 5) (i : BitVec 16) (s : State) : Host.Outcome State Fault Refusal :=
  gen s fun e => e.put e.s d ⟨(i ++ (0 : BitVec 16)).signExtend 64, ageless⟩

/-- A stop of a generator access: G-level, or a wait (R211, R212, R365). -/
def Stop.gres (x : Stop) (s : State) (va : DWord) : GRes :=
  match x with
  | .fault d => .fault s 0x22 d va
  | .migrate => .wait s (.migrate va)
  | .wait => .wait s .base

/-- LDKC (R94, R74): the index is an address and no ancestor. -/
def execLdkc (o : GiOp) (s : State) : Host.Outcome State Fault Refusal :=
  gen s fun e =>
    let i := ((e.reg o.a).val + o.i.setWidth 64).toNat % 16384
    let va := e.b.kbank + BitVec.ofNat 64 (4 * i)
    match e.s.kword e.core e.b i with
    | (s, .ok (_, true)) => .fault s 0x23 0 va
    | (s, .ok (w, false)) => e.put s o.d ⟨w.setWidth 64, e.b.kstamp⟩
    | (s, .error x) => x.gres s va

/-! ### Control flow (R101, R58) -/

/-- R94: JR. -/
def execJr (a : BitVec 5) (s : State) : Host.Outcome State Fault Refusal :=
  gen s fun e =>
    let x := (e.reg a).val
    if x.toNat % 4 = 0 then .jump e.s x else .fault e.s 0x21 0 0

/-- The target of a branch at the word in hand (R58). -/
def GEnv.target {n : Nat} (e : GEnv) (j : BitVec n) : DWord := e.pc + 4 * sext64 j

/-- A conditional branch; stamps play no part. -/
def gbranch (o : GbOp) (p : DWord → DWord → Bool) (s : State) : Host.Outcome State Fault Refusal :=
  gen s fun e => if p (e.reg o.a).val (e.reg o.b).val then .jump e.s (e.target o.j) else .done e.s

/-- BEQ (R101). -/
def execBeq (o : GbOp) (s : State) : Host.Outcome State Fault Refusal := gbranch o (· == ·) s
/-- BNE (R101). -/
def execBne (o : GbOp) (s : State) : Host.Outcome State Fault Refusal := gbranch o (· != ·) s
/-- BLT (R101). -/
def execBlt (o : GbOp) (s : State) : Host.Outcome State Fault Refusal := gbranch o (fun a b => a.slt b) s
/-- BGE (R101). -/
def execBge (o : GbOp) (s : State) : Host.Outcome State Fault Refusal := gbranch o (fun a b => !a.slt b) s
/-- BLTU (R101). -/
def execBltu (o : GbOp) (s : State) : Host.Outcome State Fault Refusal := gbranch o (fun a b => a.ult b) s
/-- BGEU (R101). -/
def execBgeu (o : GbOp) (s : State) : Host.Outcome State Fault Refusal := gbranch o (fun a b => !a.ult b) s
/-- J (R101). -/
def execJ (j : BitVec 26) (s : State) : Host.Outcome State Fault Refusal := gen s fun e => .jump e.s (e.target j)
/-- JAL (R101): register 31 of the active set. -/
def execJal (j : BitVec 26) (s : State) : Host.Outcome State Fault Refusal :=
  gen s fun e => .jump (e.s.onThread e.core e.slot fun t => t.setReg 31 ⟨e.pc + 4, ageless⟩) (e.target j)

/-! ### System and stamp words -/

/-- GSTGET (R102). -/
def execGstget (d a : BitVec 5) (s : State) : Host.Outcome State Fault Refusal :=
  gen s fun e => e.put e.s d ⟨(e.reg a).stamp.setWidth 64, ageless⟩

/-- GSTSET (R102). -/
def execGstset (d a : BitVec 5) (s : State) : Host.Outcome State Fault Refusal :=
  gen s fun e =>
    if !e.s.restamp e.ctx then .fault e.s 0x31 0 0
    else e.put e.s d ⟨(e.reg d).val, (e.reg a).val.setWidth 24⟩

/-- R103: the special registers of a generator. The map of sr is total on the values that decode. -/
def GEnv.special (e : GEnv) (r : BitVec 6) : DWord :=
  let simt (x : Nat) : DWord := BitVec.ofNat 64 (if e.b.control then 0 else x)
  let n (x : Nat) : DWord := BitVec.ofNat 64 x
  match r.toNat with
  | 0x00 => simt e.slot
  | 0x01 => simt e.b.lin
  | 0x02 => simt e.b.bx
  | 0x03 => simt e.b.by'
  | 0x04 => simt e.b.bz
  | 0x05 => n e.b.gx
  | 0x06 => n e.b.gy
  | 0x07 => n e.b.gz
  | 0x08 => simt e.b.shape.gangs
  | 0x09 => e.b.node
  | 0x0A => n (place e.core)
  | 0x0B => e.s.ctide e.ctx
  | 0x0C => (e.s.core e.core).cycle
  | 0x0D => e.b.vtime
  | 0x0E => simt e.b.e.toNat
  | 0x0F => simt e.b.s.toNat
  | 0x10 => simt e.b.f.toNat
  | 0x11 => simt e.b.shape.w
  | _ => n e.b.prio

/-- GSRD (R102, R103). -/
def execGsrd (d : BitVec 5) (r : BitVec 6) (s : State) : Host.Outcome State Fault Refusal :=
  gen s fun e => if 0x12 < r.toNat then e.illegal else e.put e.s d ⟨e.special r, ageless⟩

/-- GTRAP (R102, R105): h30 holds the PC of the next word. -/
def execGtrap (n : BitVec 16) (s : State) : Host.Outcome State Fault Refusal :=
  gen s fun e => .leave (e.s.gFault e.core e.slot 0x70 n.toNat 0 (e.pc + 4) false)

/-- GRETH (R106): a release that the gangs it lets go on acquire (R89, R229). -/
def execGreth (s : State) : Host.Outcome State Fault Refusal :=
  gen s fun e =>
    if e.th.handler then
      let ws := (e.b.gangs.zipIdx.filter (·.1.st == .parked)).map fun p => Who.gang e.core e.slot p.2
      .leave ((e.s.join ws (·.covers (.thread e.core e.slot))).returnHandler e.core e.slot)
    else e.illegal

/-- GPAUSE (R102, R104): completes at once and sets the pause count. -/
def execGpause (n : BitVec 12) (s : State) : Host.Outcome State Fault Refusal :=
  gen s fun e => .done (e.s.onThread e.core e.slot fun t => { t with pause := n })

end Sys2Proof.Machine
end

