-- ==== Sys2Proof/Machine/GenMem.lean ====
section
/-! DEFINITION. Memory words of a generator thread: GLD, GST, GLDI, GSTI (R95, R96, R98, R99), GATOM (R97), GFENCE (R100,
R307). Every one performs its access in one step, when it completes. -/

namespace Sys2Proof.Machine

/-- The gang number under which a thread's accesses are made: no gang has it. -/
def noGang : Nat := 16

/-- R95: the address tests of an access of `n` bytes; the canonical test is made first (log 15). -/
def GEnv.addrTest (e : GEnv) (ea : DWord) (n : Nat) : Option GRes :=
  if !canonical ea then some (.fault e.s 0x22 0xC ea)
  else if ea.toNat % n ≠ 0 then some (.fault e.s 0x20 0 ea)
  else none

/-- R99, R259: a GLD whose bound check failed. The check counts once for the instruction (R252), not again while a refire
waits for room. -/
def GEnv.stale (e : GEnv) (s : State) (n : Nat) (ea : DWord) (good : GRes) : GRes :=
  let s := s.boundHit e.ctx n
  match (s.ctx e.ctx).boundAct n with
  | .mark => match good with
    | .done t => .done { t with ctxs := s.ctxs }
    | r => r
  | .trap => .fault s 0x30 (freshDetail 0 false n) ea
  | .refire =>
    match s.refire e.ctx ea e.th.refires (s.prioOf e.b.node) with
    | (s, .wait) => .wait { s with ctxs := e.s.ctxs } .base
    | (s, .escalate x) => .fault s 0x30 (freshDetail x false n) ea
    | (s, .on node) => .wait (s.onThread e.core e.slot fun t => { t with refires := t.refires + 1 }) (.refire node)

/-- A load of `n` bytes (R96): the stamp of the sector. An acquire at QUAD scope or wider does not read the L1 and empties
it when its data has returned (R194). -/
def GEnv.load (e : GEnv) (d : BitVec 5) (ea : DWord) (n : Nat) (acq : Option (BitVec 3)) (bnd : BitVec 4) : GRes :=
  match e.addrTest ea n with
  | some r => r
  | none =>
    let wide := match acq with
      | some sc => 3 ≤ sc.toNat
      | none => false
    let w := Who.thread e.core e.slot
    match e.s.acquiring [w] acq fun s => s.globalRead w e.core e.slot noGang e.ctx ea n false (!wide) (!wide) with
    | (s, .error x) => x.gres s ea
    | (s, .ok g) =>
      if g.bad then .fault s 0x23 0 ea
      else
        let t := if wide then s.l1Flush e.core else s
        let good := e.put t d ⟨BitVec.ofNat 64 (leVal g.bytes), g.stamp⟩
        if s.boundFails e.ctx bnd.toNat g.stamp then e.stale s bnd.toNat ea good else good

/-- R233: a release of a thread at a scope has to wait. -/
def GEnv.relWait (e : GEnv) (scope : BitVec 3) : Bool := !ackedFor e.th.outst scope

/-- A write of the thread that is to be acknowledged (R233). -/
def State.noteThread (s : State) (core slot : Nat) : State :=
  s.onThread core slot fun t => { t with outst := t.outst ++ [(0, 0)] }

/-- A store of `n` bytes (R96): never a whole sector, so the sector takes Older(old, stamp(gd)). A failed check counts when
the word completes or faults (R252). -/
def GEnv.store (e : GEnv) (x : SVal) (ea : DWord) (n : Nat) (rel : Option (BitVec 3)) (bnd : BitVec 4) : GRes :=
  match e.addrTest ea n with
  | some r => r
  | none =>
    if (match rel with
      | some sc => e.relWait sc
      | none => false) then .wait e.s .ack
    else
      let fails := e.s.boundFails e.ctx bnd.toNat x.stamp
      let count (s : State) : State := if fails then s.boundHit e.ctx bnd.toNat else s
      let act := (e.s.ctx e.ctx).boundAct bnd.toNat
      let w := Who.thread e.core e.slot
      let s := match rel with
        | some sc => e.s.system (·.covers w) sc
        | none => e.s
      let rels := e.s.releases [w] rel (·.covers w)
      if fails && act != .mark then
        .fault (count s) 0x30 (freshDetail (if act = .refire then 3 else 0) true bnd.toNat) ea
      else match s.globalWrite [w] rels e.core e.slot noGang e.ctx e.now (ea.toNat / 32) (atAddr ea.toNat (leBytes x.val.toNat n))
          (.normal x.stamp) false with
        | (s, .error x) => x.gres s ea
        | (s, .ok ()) => .done (count (s.noteThread e.core e.slot))

/-- GLD (R96, R99). -/
def execGld (o : GMemOp) (s : State) : Host.Outcome State Fault Refusal :=
  gen s fun e => e.load o.d ((e.reg o.a).val + (e.reg o.b).val) (2 ^ o.size.toNat)
    (if o.ord.getLsbD 0 then some o.scope else none) o.bnd

/-- GST (R96, R99). -/
def execGst (o : GMemOp) (s : State) : Host.Outcome State Fault Refusal :=
  gen s fun e => e.store (e.reg o.d) ((e.reg o.a).val + (e.reg o.b).val) (2 ^ o.size.toNat)
    (if o.ord.getLsbD 1 then some o.scope else none) o.bnd

/-- GLDI (R98). -/
def execGldi (o : GiOp) (s : State) : Host.Outcome State Fault Refusal :=
  gen s fun e => e.load o.d ((e.reg o.a).val + sext64 o.i) 8 none 0

/-- GSTI (R98). -/
def execGsti (o : GiOp) (s : State) : Host.Outcome State Fault Refusal :=
  gen s fun e => e.store (e.reg o.d) ((e.reg o.a).val + sext64 o.i) 8 none 0

/-- GATOM (R97): read and write in one atomic step; a CAS that fails leaves memory and stamp as they are. -/
def execGatom (o : GAtomOp) (s : State) : Host.Outcome State Fault Refusal :=
  gen s fun e =>
    let ea := (e.reg o.a).val
    let n := if o.size then 8 else 4
    let b := e.reg o.b
    match e.addrTest ea n with
    | some r => r
    | none =>
      if o.ord.getLsbD 1 && e.relWait o.scope then .wait e.s .ack
      else
        let f (old : List Byte) : Option (List Byte × StampRule) :=
          (atomNew o.aop n (leVal old) (b.val.toNat % 2 ^ (8 * n)) ((e.reg o.d).val.toNat % 2 ^ (8 * n))).map fun x =>
            (leBytes x n, if o.adopt then .exact b.stamp else .join b.stamp)
        let w := Who.thread e.core e.slot
        let s := if o.ord.getLsbD 1 then e.s.system (·.covers w) o.scope else e.s
        let rels := e.s.releases [w] (if o.ord.getLsbD 1 then some o.scope else none) (·.covers w)
        match s.acquiring [w] (if o.ord.getLsbD 0 then some o.scope else none) fun s =>
          s.globalAtomic w rels e.core e.slot noGang e.ctx e.now ea n false f with
        | (s, .error x) => x.gres s ea
        | (s, .ok g) =>
          if g.bad then .fault s 0x23 0 ea
          else
            let s := s.noteThread e.core e.slot
            let s := if o.ord.getLsbD 0 then s.acquireL1 e.core o.scope else s
            e.put s o.d ⟨BitVec.ofNat 64 (leVal g.bytes), g.stamp⟩

/-- R307: every cube operation that has been issued has completed. -/
def Cube.idle (c : Cube) : Bool := c.queue.isEmpty && c.exec.isNone && c.image.isEmpty

/-- R100, R307: the condition of a GFENCE. -/
def gfenceReady (s : State) (core : Nat) (b : Block) (kind : BitVec 2) (scope : BitVec 3) : Bool :=
  ackedFor b.th.outst scope && (!b.control || kind.toNat < 2 || (s.cube (clusterOf core)).idle)

/-- GFENCE (R100, R238, R307): kind 1 on either processor and kind 2 on a SIMT core do not decode. -/
def execGfence (kind : BitVec 2) (scope : BitVec 3) (s : State) : Host.Outcome State Fault Refusal :=
  gen s fun e =>
    if kind = 1 || (kind = 2 && !e.b.control) then e.illegal
    else if gfenceReady e.s e.core e.b kind scope then
      let w := Who.thread e.core e.slot
      let s := if kind.toNat < 2 || !e.b.control then e.s
        else (((e.s.join [w] (·.covers (.seq e.core))).join [.seq e.core] (·.covers w))).setCube (clusterOf e.core)
          { e.s.cube (clusterOf e.core) with obufOld := [] }
      .done (((s.fence [w] (·.covers w) scope).system (·.covers w) scope).acquireL1 e.core scope)
    else .wait e.s .ack

end Sys2Proof.Machine
end

