-- ==== Sys2Proof/Machine/GenEmit.lean ====
section
/-! DEFINITION. The emit family, SEAL and RECLAIM of a generator thread (R75 to R86). -/

namespace Sys2Proof.Machine

/-- R67 test 1: the ordinal, or that of its trailing word, is at or above S. -/
def Block.fetchStalled (b : Block) (pc : Word) : Bool :=
  b.s.ule pc || (needsTrail (b.slotOf pc).word && (b.slotOf pc).kind != 1 && b.s.toNat ≤ pc.toNat + 1)

/-- A posted mailbox read of the slices `m` has not been served. -/
def Gang.posted (g : Gang) (m : BitVec 8) : Bool :=
  g.pend.any fun p => !p.returned && (p.slices &&& m != 0) && (match p.val with
    | .mail _ _ => true
    | _ => false)

/-- R124: the group is held at a switch or at an EXIT by a posted read. -/
def Gang.heldByMail (g : Gang) (x : Group) : Bool := (x.parked || x.wait == .exit) && g.posted x.mask

/-- R133: the phase of the object that a group's BOWAIT names has reached its target. -/
def Block.objectMet (b : Block) (g : Gang) (x : Group) (off : Nat) : Bool :=
  match decodeWide (b.slotFor x).1.word 0 with
  | .ok (.bowait _ _ w) =>
    objReached (BitVec.ofNat 32 (b.sp.nat (off + 8) 4)) (BitVec.ofNat 32 (fld (g.viewW x.mask w.toNat).val 63 32))
  | _ => false

/-- R125: the group is in a wait whose condition does not hold yet: a barrier, a mailbox write to a full mailbox, a TAGWAIT, a
wheel stall, a FERRY command held at issue (R275, R276). -/
def State.waits (s : State) (core slot gang : Nat) (b : Block) (g : Gang) (x : Group) : Bool :=
  let e : Env := ⟨s, core, slot, gang, b, g, x, s.now b.ctx⟩
  let w := b.slotFor x
  match x.wait with
  | .regang _ | .barArr _ | .barDone _ | .qbarArr _ | .qbarDone _ | .nbarArr _ _ | .nbarDone _ _ | .ferry => true
  | .mbwr m => (b.mb m).full
  | .bowait off => !b.objectMet g x off
  | .tagwait =>
    match decodeWide w.1.word w.2 with
    | .ok (.tagwaitAny _ _ r) => !tagReady false b.tags (e.wreg r).val
    | .ok (.tagwaitAll _ _ r) => !tagReady true b.tags (e.wreg r).val
    | _ => false
  | .wheel =>
    match decodeWide w.1.word w.2 with
    | .ok (.ldx o) | .ok (.stx o) | .ok (.atom o) => (e.lanes o).any fun p => p.2 == .stall
    | _ => false
  | .fillDrain =>
    match decodeWide w.1.word w.2 with
    | .ok (.fill _ _ n) => (b.wheel n.toNat).held == (b.wheel n.toNat).desc.count
    | .ok (.drain _ _ n) => (b.wheel n.toNat).held == 0
    | _ => false
  | _ => false

/-- R124: a gang waiting in a mailbox read. -/
def State.mailWait (s : State) (core slot gang : Nat) (b : Block) (g : Gang) : Bool :=
  g.st == .running && !g.groups.isEmpty && g.groups.any g.heldByMail &&
    g.groups.all fun x => x.parked || (x.wait == .exit && g.awaits x.mask) || s.waits core slot gang b g x

/-- R79: a group that only an emission or this thread could free. -/
def Block.groupStuck (b : Block) (g : Gang) (x : Group) : Bool :=
  (match x.wait with
    | .mbwr m => (b.mb m).full
    | .none => !x.parked && b.fetchStalled x.pc
    | _ => false) || g.heldByMail x

/-- R79: the states of a gang under which an emission does not stall. DESIGN CHOICE, log 30: a gang whose groups are in
different ones of the listed states is in one of them when each of its groups is. -/
def State.gangStuck (s : State) (core slot gang : Nat) (b : Block) (g : Gang) : Bool :=
  g.st == .idle || s.mailWait core slot gang b g || (g.st == .running && !g.groups.isEmpty && g.groups.all (b.groupStuck g))

/-- R79: every gang of the block is. -/
def State.allStuck (s : State) (core slot : Nat) (b : Block) : Bool :=
  b.gangs.zipIdx.all fun p => s.gangStuck core slot p.2 b p.1

/-- What Reserve(n) answers (R79, R80). -/
inductive Reserve where
  | ok
  | stall
  | fault (detail : Nat)
  deriving DecidableEq, Repr

/-- R79, R80: the ordinal limit is tested first (log 15). -/
def State.reserve (s : State) (core slot : Nat) (b : Block) (n : Nat) : Reserve :=
  if 2 ^ 32 ≤ b.e.toNat + n then .fault 1
  else if b.e.toNat + n - b.f.toNat ≤ b.shape.w then .ok
  else if b.shape.w < n || s.allStuck core slot b then .fault 0
  else .stall

/-- A word to be emitted, with its KIND and SPORD. -/
structure Emit where
  word : Word
  kind : BitVec 2
  spord : BitVec 16
  deriving DecidableEq, Repr

/-- R82: words emitted at E by a thread at a PC. -/
def Block.emit (b : Block) (thread : Nat) (pc : DWord) (l : List Emit) : Block :=
  match l with
  | [] => b
  | x :: r =>
    let o := b.e
    { b with
      flume := Tbl.set b.flume (o.toNat % b.shape.w)
        ⟨x.word, x.kind, x.spord, BitVec.ofNat 4 thread, o, pc.setWidth 32⟩
      e := o + 1 }.emit thread pc r

/-- Reserve(n), then what follows it. -/
def GEnv.reserved (e : GEnv) (s : State) (n : Nat) (k : GRes) : GRes :=
  match s.reserve e.core e.slot e.b n with
  | .fault d => .fault s 0x10 d 0
  | .stall => .wait s .emit
  | .ok => k

/-- The words are emitted; gd takes the first ordinal, AGELESS. -/
def GEnv.emitted (e : GEnv) (s : State) (d : BitVec 5) (l : List Emit) : GRes :=
  e.put (s.onBlock e.core e.slot (·.emit e.slot e.pc l)) d ⟨e.b.e.setWidth 64, ageless⟩

/-- Reserve, then emit. -/
def GEnv.emitAll (e : GEnv) (s : State) (d : BitVec 5) (l : List Emit) : GRes :=
  e.reserved s l.length (e.emitted s d l)

/-- The emit family is illegal on a control core (R65). -/
def GEnv.simt (e : GEnv) (r : GRes) : GRes := if e.b.control then e.illegal else r

/-- EMIT (R83). -/
def execEmit (o : GrOp) (kind : BitVec 2) (s : State) : Host.Outcome State Fault Refusal :=
  gen s fun e => e.simt <|
    if kind.toNat < 2 && o.b != 0 then e.illegal
    else e.emitAll e.s o.d
      [⟨(e.reg o.a).val.setWidth 32, kind, if kind.toNat < 2 then 0 else (e.reg o.b).val.setWidth 16⟩]

/-- Bits of a template metadata entry (R55). -/
def metaKind (m : Word) : BitVec 2 := m.extractLsb' 30 2
def metaBody (m : Word) : Bool := m.getLsbD 29
def metaLast (m : Word) : Bool := m.getLsbD 28
def metaPatch (m : Word) : Bool := m.getLsbD 27
def metaHi (m : Word) : Nat := bits m.toNat 26 22
def metaLo (m : Word) : Nat := bits m.toNat 21 17
def metaSpord (m : Word) : BitVec 16 := m.setWidth 16

/-- A word of the node image that may be its current or an older value (R74): translated, with its poison. -/
def State.imageWord (s : State) (core : Nat) (b : Block) (va : DWord) : State × Except Stop (Word × Bool) :=
  match s.translate core b.ctx va false 4 with
  | (s, .ok pa) =>
    let (s, w) := s.codeWord core pa b.born
    (s, .ok (w, s.homeBad (pa / 32)))
  | (s, .fault d) => (s, .error (.fault d))
  | (s, .migrate) => (s, .error .migrate)
  | (s, .wait) => (s, .error .wait)

/-- R318: the metadata entry of constant-bank word `i` lies at KBANK + 65,536. -/
def Block.metaVa (b : Block) (i : Nat) : DWord := b.kbank + BitVec.ofNat 64 (65536 + 4 * i)

/-- What a read of an image word gives, poison as the stop 0x1000. -/
def imageGot (va : DWord) (r : State × Except Stop (Word × Bool)) : State × Except (Stop × DWord) Word :=
  match r with
  | (s, .error x) => (s, .error (x, va))
  | (s, .ok (_, true)) => (s, .error (.fault 0x1000, va))
  | (s, .ok (w, false)) => (s, .ok w)

/-- The metadata entry of constant-bank word `i`. -/
def State.metaWord (s : State) (core : Nat) (b : Block) (i : Nat) : State × Except (Stop × DWord) Word :=
  imageGot (b.metaVa i) (s.imageWord core b (b.metaVa i))

/-- Constant-bank word `i` as a template word. -/
def State.templateWord (s : State) (core : Nat) (b : Block) (i : Nat) : State × Except (Stop × DWord) Word :=
  imageGot (b.kbank + BitVec.ofNat 64 (4 * i)) (s.kword core b i)

/-- The metadata from `i` up to and including the first with LAST set, or up to kc[16383] (R55, R84). -/
def State.templateMeta (s : State) (core : Nat) (b : Block) (i : Nat) : Nat → State × Except (Stop × DWord) (List Word)
  | 0 => (s, .ok [])
  | n + 1 =>
    match s.metaWord core b i with
    | (s, .error x) => (s, .error x)
    | (s, .ok m) =>
      if metaLast m then (s, .ok [m])
      else match s.templateMeta core b (i + 1) n with
        | (s, .ok l) => (s, .ok (m :: l))
        | (s, .error x) => (s, .error x)

/-- The template words from `i` for a list of metadata. -/
def State.templateWords (s : State) (core : Nat) (b : Block) : Nat → List Word → State × Except (Stop × DWord) (List Emit)
  | _, [] => (s, .ok [])
  | i, m :: r =>
    match s.templateWord core b i with
    | (s, .error x) => (s, .error x)
    | (s, .ok w) =>
      match s.templateWords core b (i + 1) r with
      | (s, .ok l) => (s, .ok (⟨w, metaKind m, metaSpord m⟩ :: l))
      | (s, .error x) => (s, .error x)

/-- A stop of a template read; 0x1000 stands for poison. -/
def templateStop (s : State) (x : Stop × DWord) : GRes :=
  match x with
  | (.fault 0x1000, va) => .fault s 0x23 0 va
  | (x, va) => x.gres s va

/-- EMITB (R84): the metadata gives n, Reserve(n) comes before the words are read. -/
def execEmitb (d : BitVec 5) (i : BitVec 14) (s : State) : Host.Outcome State Fault Refusal :=
  gen s fun e => e.simt <|
    match e.s.metaWord e.core e.b i.toNat with
    | (s, .error x) => templateStop s x
    | (s, .ok m) =>
      if !metaBody m then .fault s 0x11 0 0
      else match s.templateMeta e.core e.b i.toNat (16384 - i.toNat) with
        | (s, .error x) => templateStop s x
        | (s, .ok ms) =>
          e.reserved s ms.length <|
            match s.templateWords e.core e.b i.toNat ms with
            | (s, .ok l) => e.emitted s d l
            | (s, .error x) => templateStop s x

/-- EMITP (R85, R29): one template word with bits HI:LO replaced by the low bits of ga. -/
def execEmitp (d a : BitVec 5) (i : BitVec 14) (s : State) : Host.Outcome State Fault Refusal :=
  gen s fun e => e.simt <|
    match e.s.metaWord e.core e.b i.toNat with
    | (s, .error x) => templateStop s x
    | (s, .ok m) =>
      if !metaBody m || !metaPatch m || metaHi m < metaLo m then .fault s 0x11 0 0
      else e.reserved s 1 <|
        match s.templateWord e.core e.b i.toNat with
        | (s, .error x) => templateStop s x
        | (s, .ok w) =>
          let mask : Word := BitVec.ofNat 32 ((2 ^ (metaHi m + 1 - metaLo m) - 1) * 2 ^ metaLo m)
          let x : Word := (w &&& ~~~mask) ||| (((e.reg a).val.setWidth 32 <<< metaLo m) &&& mask)
          e.emitted s d [⟨x, metaKind m, metaSpord m⟩]

/-- R56: the NOP word. -/
def nopWord : Word := 0x34000000

/-- EPAD (R86): NOP words until E is a multiple of 3. -/
def execEpad (s : State) : Host.Outcome State Fault Refusal :=
  gen s fun e => e.simt <|
    e.emitAll e.s 0 (List.replicate ((3 - e.b.e.toNat % 3) % 3) ⟨nopWord, 0, 0⟩)

/-- SEAL (R86, R78). -/
def execSeal (s : State) : Host.Outcome State Fault Refusal :=
  gen s fun e => e.simt <| .done (e.s.onBlock e.core e.slot fun b => { b with s := b.e })

/-- RECLAIM (R86): the sum is exact (R6). -/
def execReclaim (a : BitVec 5) (i : BitVec 16) (s : State) : Host.Outcome State Fault Refusal :=
  gen s fun e => e.simt <|
    let x := (e.reg a).val.toNat + i.toNat
    if x < e.b.f.toNat || e.b.s.toNat < x then .fault e.s 0x12 0 0
    else .done (e.s.onBlock e.core e.slot fun b => { b with f := BitVec.ofNat 32 x })

end Sys2Proof.Machine
end

