-- ==== Sys2Proof/Machine/GenGang.lean ====
section
/-! DEFINITION. Gang control (R87 to R89), scalar mailboxes (R90, R91), launches (R92, R93), launch queues and the
access-control table (R323, R325). -/

namespace Sys2Proof.Machine

/-! ### Gangs -/

/-- Gangs that a 16-bit mask names. -/
def namedGangs (m : BitVec 16) : List Nat := (List.range 16).filter fun i => m.getLsbD i

/-- R88: the checks on the named gangs: every index first, then every state (log 15). -/
def GEnv.gangs (e : GEnv) (l : List Nat) (p : Gang → Bool) (r : GRes) : GRes :=
  if e.b.control then e.illegal
  else if l.any fun i => e.b.shape.gangs ≤ i then .fault e.s 0x13 0 0
  else if l.any fun i => !(match e.b.gangs[i]? with
      | some g => p g
      | none => false) then .fault e.s 0x14 0 0
  else r

/-- R88, R254: a gang as GSTART starts it. Registers and stamps keep their values. -/
def Gang.start (g : Gang) (present : BitVec 8) (pc : Word) (cycle : DWord) : Gang :=
  { g with
    st := .running
    groups := [Group.start present pc g.wnum]
    exited := 0
    exitOrd := Vector.replicate 8 0
    dmask := laneMask present
    pmask := laneMask present
    window := []
    pend := []
    spp := 0
    snap := some
      { ord := pc, spord := none, groups := [(present, pc)], dmask := laneMask present, pmask := laneMask present
        spp := 0, stack := [] }
    afterRb := false
    stack := []
    refires := 0
    waitc := 0
    wc := 0
    throttled := false
    started := cycle.toNat
    site := none
    siteOrd := 0
    faultParked := false
    halted := false
    req := .none
    reqEvent := false
    sealStop := false
    waitStop := false
    late := none
    refireOn := none
    heldOn := none }

/-- GSTART (R88): a release that each started slice acquires (R89, R229). -/
def execGstart (a : BitVec 5) (m : BitVec 16) (s : State) : Host.Outcome State Fault Refusal :=
  gen s fun e => e.gangs (namedGangs m) (fun g => g.st == .idle) <|
    let cycle := (e.s.core e.core).cycle
    let s := e.s.join ((namedGangs m).map fun i => .gang e.core e.slot i) (·.covers (.thread e.core e.slot))
    .done (s.onBlock e.core e.slot fun b =>
      (namedGangs m).foldl (fun b i => b.onGang i fun g => g.start b.shape.present ((e.reg a).val.setWidth 32) cycle) b)

/-- R88: the slices `m` of a parked gang, less the exited ones, form one group at a PC; the others keep their PCs. -/
def Gang.steer (g : Gang) (m : BitVec 8) (pc : Word) : Gang :=
  let m := m &&& g.live
  if m = 0 then g
  else
    let rest := g.groups.filterMap fun x =>
      let k := x.mask &&& ~~~m
      if k = 0 then none
      else some { x with mask := k, run := none, wait := if x.wait = .ferry ∧ k ≠ x.mask then .none else x.wait }
    { g with groups := Group.start m pc g.wnum :: rest }

/-- GSTEER (R88). -/
def execGsteer (a : BitVec 5) (g : BitVec 4) (sl : BitVec 8) (s : State) : Host.Outcome State Fault Refusal :=
  gen s fun e => e.gangs [g.toNat] (fun x => x.st == .parked) <|
    .done ((e.s.unhold e.core e.slot g.toNat fun m => m &&& sl != 0).onBlock e.core e.slot fun b =>
      (b.gangLeaves g.toNat false).onGang g.toNat (·.steer sl ((e.reg a).val.setWidth 32)))

/-- GJOIN (R88): an acquire of the EXITs that it sees (R89, R229). -/
def execGjoin (m : BitVec 16) (s : State) : Host.Outcome State Fault Refusal :=
  gen s fun e =>
    if e.th.handler then e.illegal
    else e.gangs (namedGangs m) (fun _ => true) <|
      if (namedGangs m).all fun i => (match e.b.gangs[i]? with
        | some g => g.st == .idle
        | none => true) then
        .done (e.s.join [.thread e.core e.slot] fun w => (namedGangs m).any fun i => w.ofGang e.core e.slot i)
      else .wait e.s .join

/-- GEND (R88): the thread ends once every gang is idle. -/
def execGend (s : State) : Host.Outcome State Fault Refusal :=
  gen s fun e =>
    if e.th.handler then e.illegal
    else e.gangs [] (fun _ => true) <|
      if e.b.gangs.all fun g => g.st == .idle then
        .done (e.s.onThread e.core e.slot fun t => { t with ended := true })
      else .wait e.s .gend

/-- GWSET (R88). -/
def execGwset (a : BitVec 5) (g w : BitVec 4) (s : State) : Host.Outcome State Fault Refusal :=
  gen s fun e => e.gangs [g.toNat] (fun x => x.st == .idle || x.st == .parked) <|
    .done (e.s.onGang e.core e.slot g.toNat (·.writeW 0 w.toNat (e.reg a)))

/-! ### Mailboxes -/

/-- GMBWR (R90). -/
def execGmbwr (a : BitVec 5) (m : BitVec 4) (s : State) : Host.Outcome State Fault Refusal :=
  gen s fun e => e.simt <|
    if (e.b.mb m).canWrite .thread then
      .done (e.s.onBlock e.core e.slot (·.onMb m.toNat (·.write .thread (e.reg a))))
    else .wait (e.s.onBlock e.core e.slot (·.onMb m.toNat (·.queueW .thread))) (.mbwr m)

/-- GMBRD (R90): the read acquires (R91). -/
def execGmbrd (d : BitVec 5) (m : BitVec 4) (s : State) : Host.Outcome State Fault Refusal :=
  gen s fun e => e.simt <|
    if (e.b.mb m).canRead .thread then
      e.put ((e.s.meetBlock e.core e.slot [.thread e.core e.slot]).onBlock e.core e.slot (·.onMb m.toNat (·.read .thread))) d (e.b.mb m).v
    else .wait (e.s.onBlock e.core e.slot (·.onMb m.toNat (·.queueR .thread))) (.mbrd m)

/-- GMBPEEK (R90). -/
def execGmbpeek (d : BitVec 5) (m : BitVec 4) (s : State) : Host.Outcome State Fault Refusal :=
  gen s fun e => e.simt <| e.put e.s d ⟨flagWord (e.b.mb m).full, ageless⟩

/-! ### Launch queues -/

/-- The ring of a launch queue (R323). -/
def State.lq (s : State) (ctx q : Nat) : Ring := Tbl.getD (s.ctx ctx).lqd q Ring.reset

/-- R323: one packet appended to a ring that is not full. -/
def State.lqPut (s : State) (ctx q : Nat) (l : List Byte) : State :=
  let r := s.lq ctx q
  let s := s.devWrite (r.slot r.tail 128) (padTo 128 l)
  let c := s.ctx ctx
  s.setCtx ctx { c with lqd := Tbl.set c.lqd q { r with tail := r.tail + 1 } }

/-- R323, R366: the ring takes a packet: it is not full, and its entry's stack is ready. -/
def State.lqTakes (s : State) (ctx q : Nat) : Bool :=
  !(s.lq ctx q).full && s.memReady ((s.lq ctx q).slot (s.lq ctx q).tail 128)

/-- R323: the context takes packets of the host and of admitted peers, and the ring has room for one. -/
def State.lqOpen (s : State) (ctx q : Nat) : Bool :=
  let st := (s.ctx ctx).st
  (st = .live ∨ st = .stopping ∨ st = .stopped) && !(s.lq ctx q).full

/-- R366: an append that the ring would take is held: its entry's stack is not ready. -/
def State.lqHeld (s : State) (ctx q : Nat) : Bool :=
  s.lqOpen ctx q && !s.memReady ((s.lq ctx q).slot (s.lq ctx q).tail 128)

/-- R323: a packet of the host or of an admitted peer: discarded in a context that does not take it, or on a full ring. -/
def State.lqAppend (s : State) (ctx q : Nat) (l : List Byte) : State :=
  if s.lqOpen ctx q then s.lqPut ctx q l else s.ctxCount ctx .launchDrop

/-- R325: an entry of the access-control table. -/
def aclOk (x : DWord) (launch : Bool) (peer ctx : Nat) (q : Option Nat) : Bool :=
  x.getLsbD 63 && (if launch then x.getLsbD 62 else x.getLsbD 61) && fld x 60 52 == peer && fld x 45 34 == ctx &&
    (match q with
      | some q => fld x 51 46 == q
      | none => true)

/-- R325: some valid entry matches the request. -/
def State.aclAllows (s : State) (launch : Bool) (peer ctx : Nat) (q : Option Nat) : Bool :=
  s.acl.any fun e => aclOk e.2 launch peer ctx q

/-- R325, R366: the append of a launch from a peer package is held; one that the access-control table refuses is not. -/
def State.peerHeld (s : State) (src ctx q : Nat) : Bool := s.aclAllows true src ctx (some q) && s.lqHeld ctx q

/-- R323: a launch that arrives from a peer package. -/
def State.peerLaunch (s : State) (src ctx q : Nat) (l : List Byte) : State :=
  if s.aclAllows true src ctx (some q) then s.lqAppend ctx q l else s.ctxCount ctx .aclDeny

/-- R92, R93: the bytes of a packet read by a thread, sector by sector. DESIGN CHOICE, log 30: a fault names the sector that
fails. -/
def GEnv.packet (e : GEnv) (s : State) (va : DWord) : Nat → State × Except (Option Stop × DWord) (List Byte)
  | 0 => (s, .ok [])
  | n + 1 =>
    match s.globalRead (.thread e.core e.slot) e.core e.slot noGang e.ctx va 32 false true true with
    | (s, .error x) => (s, .error (some x, va))
    | (s, .ok g) =>
      if g.bad then (s, .error (none, va))
      else match e.packet s (va + 32) n with
        | (s, .ok l) => (s, .ok (g.bytes ++ l))
        | (s, .error x) => (s, .error x)

/-- A launch word: alignment, the release at a scope, the packet, then what `k` does with it; a thread that waits with the
packet read only does that. -/
def GEnv.launch (e : GEnv) (a : BitVec 5) (scope : BitVec 3) (k : State → List Byte → GRes) : GRes :=
  match e.th.wait with
  | .launch l => k e.s l
  | _ =>
    let va := (e.reg a).val
    if va.toNat % 128 ≠ 0 then .fault e.s 0x20 0 va
    else if e.relWait scope then .wait e.s .ack
    else match e.packet e.s va 4 with
      | (s, .error (none, va)) => .fault s 0x23 0 va
      | (s, .error (some x, va)) => x.gres s va
      | (s, .ok l) => k s l

/-- GLAUNCH (R92). -/
def execGlaunch (a : BitVec 5) (q : BitVec 6) (s : State) : Host.Outcome State Fault Refusal :=
  gen s fun e => e.launch a 5 fun s l =>
    if s.lqTakes e.ctx q.toNat then .done (s.lqPut e.ctx q.toNat l) else .wait s (.launch l)

/-- R370: a launch flit. -/
def launchFlitOf (src dst : BitVec 9) (ctx : Nat) (q : BitVec 6) (l : List Byte) : Flit :=
  { kind := .launch, seq := 0, src := src, dst := dst, ctx := BitVec.ofNat 12 ctx, addr := q.setWidth 57, count := 128
    body := padTo 192 l, stamps := [], poison := 0 }

/-- GLAUNCH.peer (R93): the thread waits for the link's acknowledgement, or its drop notice. A target on this package is
an arrival from a peer, for which the thread waits while it is held (R366). -/
def execGlaunchPeer (d a : BitVec 5) (q : BitVec 6) (s : State) : Host.Outcome State Fault Refusal :=
  gen s fun e => e.launch a 7 fun s l =>
    let t := (e.reg d).val
    let dst : BitVec 9 := t.setWidth 9
    let ctx := fld t 27 16
    if dst = s.pkg then
      if s.peerHeld s.pkg.toNat ctx q.toNat then .wait s (.launch l) else .done (s.peerLaunch s.pkg.toNat ctx q.toNat l)
    else match s.outCape? with
      | none => .wait s (.launch l)
      | some c => .wait (s.sendBy c (launchFlitOf s.pkg dst ctx q l)) (.peer c (s.cape c).sendSeq)

end Sys2Proof.Machine
end

