-- ==== Sys2Proof/Machine/GenSys.lean ====
section
/-! DEFINITION. The debug instructions of the handler (R350). -/

namespace Sys2Proof.Machine

/-- Fields of a selector. -/
def selGang (x : DWord) : Nat := fld x 3 0
def selLane (x : DWord) : Nat := fld x 12 8
def selReg (x : DWord) : Nat := fld x 22 16

/-- R350: GDBG is legal only in the handler, and on a control core only RDG and WRG are. -/
def GEnv.inHandler (e : GEnv) (control : Bool) (r : GRes) : GRes :=
  if !e.th.handler || (e.b.control && !control) then e.illegal else r

/-- The checks of a word that reaches a gang: its index, then that it is parked. -/
def GEnv.parkedGang (e : GEnv) (i : Nat) (k : Gang → GRes) : GRes :=
  if e.b.shape.gangs ≤ i then .fault e.s 0x13 0 0
  else match e.b.gangs[i]? with
    | none => .fault e.s 0x13 0 0
    | some g => if g.st == .parked then k g else .fault e.s 0x14 0 0

/-- A selected vector register: below n. -/
def GEnv.vreg (e : GEnv) (x : DWord) (k : Gang → Nat → GRes) : GRes :=
  e.parkedGang (selGang x) fun g => if e.b.shape.n ≤ selReg x then .fault e.s 0x16 0 0 else k g (selReg x)

def debugArg (e : GEnv) : GRes := .fault e.s 0x16 0 0

/-- GDBG.RDG (R350). -/
def execGdbgRdg (o : GrOp) (s : State) : Host.Outcome State Fault Refusal :=
  gen s fun e => e.inHandler true <|
    let i := fld (e.reg o.a).val 4 0
    e.put e.s o.d (if i = 0 then SVal.zero else vat e.th.g SVal.zero i)

/-- GDBG.WRG (R350): a write to g0 is discarded (R72). -/
def execGdbgWrg (o : GrOp) (s : State) : Host.Outcome State Fault Refusal :=
  gen s fun e => e.inHandler true <|
    let i := fld (e.reg o.a).val 4 0
    .done (e.s.onThread e.core e.slot fun t => if i = 0 then t else { t with g := vput t.g i (e.reg o.b) })

/-- GDBG.RDV (R350). -/
def execGdbgRdv (o : GrOp) (s : State) : Host.Outcome State Fault Refusal :=
  gen s fun e => e.inHandler false <|
    let x := (e.reg o.a).val
    e.vreg x fun g r =>
      let v := shown e.b.shape.present (g.readV 0 r)
      e.put e.s o.d ⟨(lane v.lanes (selLane x)).setWidth 64, stampAt v.stamps (selLane x / 4)⟩

/-- A lane of a register set from outside a gang with the slices `p`, the stamp unchanged (R349, R350); the write of an
absent lane is discarded (R109). -/
def Gang.setLane (g : Gang) (p : BitVec 8) (now : Stamp) (r l : Nat) (x : Word) : Gang :=
  if !p.getLsbD (l / 4) then g
  else
    let st := (g.readV 0 r).stamps
    (g.writeV now r (BitVec.ofNat 32 (2 ^ l)) (Vector.replicate 32 x) st).writeStamps r (BitVec.ofNat 8 (2 ^ (l / 4))) st

/-- GDBG.WRV (R350). -/
def execGdbgWrv (o : GrOp) (s : State) : Host.Outcome State Fault Refusal :=
  gen s fun e => e.inHandler false <|
    let x := (e.reg o.a).val
    e.vreg x fun _ r =>
      .done (e.s.onGang e.core e.slot (selGang x) (·.setLane e.b.shape.present e.now r (selLane x) ((e.reg o.b).val.setWidth 32)))

/-- A selected uniform register: register bits 19:16, the other register bits zero. -/
def GEnv.ureg (e : GEnv) (x : DWord) (k : Gang → Nat → GRes) : GRes :=
  e.parkedGang (selGang x) fun g => if 16 ≤ selReg x then debugArg e else k g (selReg x)

/-- GDBG.RDW (R350). -/
def execGdbgRdw (o : GrOp) (s : State) : Host.Outcome State Fault Refusal :=
  gen s fun e => e.inHandler false <| e.ureg (e.reg o.a).val fun g r => e.put e.s o.d (g.viewW 0 r)

/-- GDBG.WRW (R350). -/
def execGdbgWrw (o : GrOp) (s : State) : Host.Outcome State Fault Refusal :=
  gen s fun e => e.inHandler false <| e.ureg (e.reg o.a).val fun _ r =>
    .done (e.s.onGang e.core e.slot (selGang (e.reg o.a).val) (·.writeW 0 r (e.reg o.b)))

/-- GDBG.RDS (R350). -/
def execGdbgRds (o : GrOp) (s : State) : Host.Outcome State Fault Refusal :=
  gen s fun e => e.inHandler false <|
    let x := (e.reg o.a).val
    e.vreg x fun g r => e.put e.s o.d ⟨(stampAt (shown e.b.shape.present (g.readV 0 r)).stamps (selLane x / 4)).setWidth 64, ageless⟩

/-- GDBG.WRS (R350). -/
def execGdbgWrs (o : GrOp) (s : State) : Host.Outcome State Fault Refusal :=
  gen s fun e => e.inHandler false <|
    let x := (e.reg o.a).val
    e.vreg x fun _ r =>
      if !e.s.restamp e.ctx then .fault e.s 0x31 0 0
      else .done (e.s.onGang e.core e.slot (selGang x)
        (·.writeStamps r (BitVec.ofNat 8 (2 ^ (selLane x / 4)) &&& e.b.shape.present) (Vector.replicate 8 ((e.reg o.b).val.setWidth 24))))

/-- An item of GDBG.RDX (R350). -/
def Gang.item (g : Gang) (i : Nat) : Word :=
  if i < 8 then g.kreg i
  else if i = 8 then g.dmask
  else if i = 9 then g.pmask
  else if i = 10 then BitVec.ofNat 32 g.spp
  else if i < 19 then g.slicePc (i - 11)
  else if i = 19 then BitVec.ofNat 32 g.stack.length
  else g.entryOrd

/-- GDBG.RDX (R350). -/
def execGdbgRdx (o : GrOp) (s : State) : Host.Outcome State Fault Refusal :=
  gen s fun e => e.inHandler false <|
    let x := (e.reg o.a).val
    e.parkedGang (selGang x) fun g =>
      if 20 < selReg x then debugArg e else e.put e.s o.d ⟨(g.item (selReg x)).setWidth 64, ageless⟩

/-- The registers that a GDBG.PUSHM or POPM names: first to last. Unused bits of ga must be zero. -/
def GEnv.pushRange (e : GEnv) (x : DWord) (k : Gang → Nat → Nat → GRes) : GRes :=
  let a := selReg x
  let b := fld x 30 24
  e.parkedGang (selGang x) fun g =>
    if fld x 15 4 ≠ 0 ∨ x.getLsbD 23 ∨ fld x 63 31 ≠ 0 ∨ b < a ∨ e.b.shape.n ≤ b then debugArg e else k g a (b + 1 - a)

/-- GDBG.PUSHM (R350, R161). -/
def execGdbgPushm (o : GrOp) (s : State) : Host.Outcome State Fault Refusal :=
  gen s fun e => e.inHandler false <|
    let x := (e.reg o.a).val
    e.pushRange x fun g a k =>
      if e.b.shape.spill < g.spp + 160 * k then e.put e.s o.d ⟨1, ageless⟩
      else
        let frame (r : Nat) : VReg := shown e.b.shape.present (g.readV 0 r)
        e.put (e.s.onGang e.core e.slot (selGang x) fun g =>
          { g with
            spill := (List.range k).foldl (fun t i => Tbl.set t (g.spp + 160 * i) (frame (a + i))) g.spill
            spp := g.spp + 160 * k }) o.d ⟨0, ageless⟩

/-- GDBG.POPM (R350, R161): the registers take every lane and stamp of their frames at once. -/
def execGdbgPopm (o : GrOp) (s : State) : Host.Outcome State Fault Refusal :=
  gen s fun e => e.inHandler false <|
    let x := (e.reg o.a).val
    e.pushRange x fun g a k =>
      if g.spp < 160 * k then e.put e.s o.d ⟨1, ageless⟩
      else
        let base := g.spp - 160 * k
        e.put (e.s.onGang e.core e.slot (selGang x) fun g =>
          { (List.range k).foldl (fun g i =>
              let f := Tbl.getD g.spill (base + 160 * i) ⟨Vector.replicate 32 0, Vector.replicate 8 ancient⟩
              (g.writeV e.now (a + i) (laneMask e.b.shape.present) f.lanes f.stamps).writeStamps (a + i) e.b.shape.present f.stamps) g with
            spp := base }) o.d ⟨0, ageless⟩

/-- GDBG.RDF (R350, R279): FSTATn. -/
def execGdbgRdf (o : GrOp) (s : State) : Host.Outcome State Fault Refusal :=
  gen s fun e => e.inHandler false <|
    e.put e.s o.d ⟨(vat e.b.fstat 0 (fld (e.reg o.a).val 5 0)).setWidth 64, ageless⟩

/-- GDBG.DUMP (R350, R354): a dump of kind 3 with the record of the gang as it stands (log 13). -/
def execGdbgDump (o : GrOp) (s : State) : Host.Outcome State Fault Refusal :=
  gen s fun e => e.inHandler false <|
    let i := fld (e.reg o.a).val 3 0
    e.parkedGang i fun g =>
      let (s, d) := e.s.freeHalf
      .done (s.dump e.ctx 3 (some (e.core, e.slot, i))
        (s.gangRecord e.core e.slot i g.live (g.slicePc 0) g.sealStop g.waitStop d 0x71) [])

end Sys2Proof.Machine
end

