-- ==== Sys2Proof/Machine/Ferry.lean ====
section
/-! DEFINITION. The ferry: FERRY words (R266 to R275), admission (R275, R276), transfers, completion and the stall abort
(R276 to R280, R237). -/

namespace Sys2Proof.Machine

/-! ### Shapes (R269, R272) -/

def FerryCmd.esize (c : FerryCmd) : Nat :=
  match fld c.shape 29 28 with
  | 0 => 4 | 1 => 2 | 2 => 1 | _ => 8
def FerryCmd.hxl (c : FerryCmd) : Nat := fld c.shape 27 24
def FerryCmd.hyl (c : FerryCmd) : Nat := fld c.shape 19 16
def FerryCmd.hzl (c : FerryCmd) : Nat := fld c.shape 11 8
def FerryCmd.tx (c : FerryCmd) : Nat := fld c.shape 63 50 + 1 + c.hxl + fld c.shape 23 20
def FerryCmd.ty (c : FerryCmd) : Nat := fld c.shape 49 38 + 1 + c.hyl + fld c.shape 15 12
def FerryCmd.tz (c : FerryCmd) : Nat := fld c.shape 37 30 + 1 + c.hzl + fld c.shape 7 4
/-- Bytes that the command moves. -/
def FerryCmd.size (c : FerryCmd) : Nat := c.esize * c.tx * c.ty * c.tz
def FerryCmd.pitchz (c : FerryCmd) : Nat := fld c.pitch 63 34
def FerryCmd.pitchy (c : FerryCmd) : Nat := fld c.pitch 33 10
def FerryCmd.egress (c : FerryCmd) : Bool := c.kind == .egh || c.kind == .egp

/-- Rows of the tile in order: (y, z), both from 0. -/
def FerryCmd.rows (c : FerryCmd) : List (Nat × Nat) :=
  (List.range c.tz).flatMap fun z => (List.range c.ty).map fun y => (y, z)

/-- The address of the first byte of row (y, z) on a global side (R272). -/
def FerryCmd.globalRow (c : FerryCmd) (base : DWord) (y z : Nat) : Nat :=
  (base + BitVec.ofNat 64 (y * c.pitchy + z * c.pitchz) -
    BitVec.ofNat 64 (c.hxl * c.esize + c.hyl * c.pitchy + c.hzl * c.pitchz)).toNat

/-- The offset of the first byte of row (y, z) on a packed side (R272). -/
def FerryCmd.packedRow (c : FerryCmd) (y z : Nat) : Nat := (z * c.ty + y) * c.tx * c.esize

/-- The rows of a side as first bytes: a global side lies by its pitches, an egress destination is packed. -/
def FerryCmd.side (c : FerryCmd) (x : Side) (packed : Bool) : List Nat :=
  c.rows.map fun r =>
    match x with
    | .global va => if packed then (va + BitVec.ofNat 64 (c.packedRow r.1 r.2)).toNat else c.globalRow va r.1 r.2
    | .plain off => off + c.packedRow r.1 r.2

/-! ### Issue (R271) -/

/-- R271 step 1. -/
def FerryCmd.shapeOk (c : FerryCmd) : Bool :=
  fld c.shape 3 0 == 0 && (if c.kind = .s2s then fld c.pitch 63 32 == 0 else !c.pitch.getLsbD 9) &&
    (c.kind == .g2s || fld c.shape 27 4 == 0) &&
    (c.kind == .s2s || (c.pitchy % c.esize == 0 && c.pitchz % c.esize == 0)) &&
    (!c.egress || c.size ≤ 65536) &&
    (c.kind == .s2s || c.kind == .egp || fld c.pitch 8 0 == 0)

/-- R166, R271 step 2: a wheel side lies in one stage. -/
def Wheel.fits (w : Wheel) (wa : Word) (size : Nat) : Bool :=
  w.desc.valid && bits wa.toNat 28 24 < w.desc.count && bits wa.toNat 23 0 + size ≤ 2 ^ w.desc.size

def Block.wheelFits (b : Block) (wa : Word) (size : Nat) : Bool := (b.wheel (bits wa.toNat 31 30)).fits wa size

/-- R271 step 2 for one scratchpad side. -/
def Block.sideFits (b : Block) (x : Side) (wheel : Option Word) (size : Nat) : Bool :=
  match wheel, x with
  | some wa, _ => b.wheelFits wa size
  | none, .plain off => off + size ≤ b.shape.plain
  | none, .global _ => true

/-- R271 step 3 for one side. -/
def sideAligned (x : Side) (wheel : Option Word) (n : Nat) : Bool :=
  match wheel, x with
  | some wa, _ => wa.toNat % n == 0
  | none, .plain off => off % n == 0
  | none, .global va => va.toNat % n == 0

/-- `n` bytes from an address of 64 bits meet `len` bytes from another; both wrap. -/
def rowMeets (a n lo len : Nat) : Bool :=
  n != 0 && len != 0 && ((lo + 2 ^ 64 - a) % 2 ^ 64 < n || (a + 2 ^ 64 - lo) % 2 ^ 64 < len)

/-- `n` bytes from an address meet a range of 57-bit addresses, whose bytes are canonical addresses (R165): those below 2^56 and
those sign-extended from 2^56 on. -/
def rowMeetsMap (a n base size : Nat) : Bool :=
  let last := min (base + size) (2 ^ 57)
  rowMeets a n base (min last (2 ^ 56) - base) ||
    rowMeets a n (max base (2 ^ 56) + (2 ^ 64 - 2 ^ 57)) (last - max base (2 ^ 56))

/-- R271 step 5: a global side meets a range mapped into the block's stash; rows wrap as addresses do, and bytes that are not
canonical lie in no range. -/
def Block.meetsStash (b : Block) (c : FerryCmd) (x : Side) : Bool :=
  match x with
  | .plain _ => false
  | .global _ =>
    b.shape.stash != 0 && (c.side x false).any fun a => b.maps.any fun m => rowMeetsMap a (c.tx * c.esize) m.1 m.2.1

/-- Where a wheel address leads at admission (R275): its offset and physical stage, if it is admitted. -/
def Wheel.place (w : Wheel) (wa : Word) (dst : Bool) : Option (Nat × Nat) :=
  let r := bits wa.toNat 28 24
  let fillView := bitAt wa.toNat 29
  let ok := if dst && fillView then w.held + r < w.desc.count else if !dst && !fillView then r < w.held else true
  let st := ((if fillView then w.fs else w.ps) + r) % w.desc.count
  if ok then some (w.desc.base + st * 2 ^ w.desc.size + bits wa.toNat 23 0, st) else none

/-- The same for a wheel of a block: offset, wheel, stage. -/
def Block.place (b : Block) (wa : Word) (dst : Bool) : Option (Nat × Nat × Nat) :=
  ((b.wheel (bits wa.toNat 31 30)).place wa dst).map fun x => (x.1, bits wa.toNat 31 30, x.2)

/-- The command with its sides fixed, if both wheel tests pass (R275). -/
def Block.fixSides (b : Block) (c : FerryCmd) : Option FerryCmd :=
  let src := match c.srcWheel with
    | none => some c.src
    | some wa => (b.place wa false).map fun x => Side.plain x.1
  let dst := match c.dstWheel with
    | none => some (c.dst, none)
    | some wa => (b.place wa true).map fun x => (Side.plain x.1, if bitAt wa.toNat 29 then some x.2 else none)
  match src, dst with
  | some a, some (d, st) => some { c with src := a, dst := d, stage := st }
  | _, _ => none

/-- A held command that passes its wheel tests. -/
def State.wheelReady (s : State) (core : Nat) (f : Nat × Nat × BitVec 8 × FerryCmd) : Bool :=
  match s.block? core f.1 with
  | some b => (b.fixSides f.2.2.2).isSome
  | none => false

/-- R276: held command `f` stands for an entry of the queue before a command that has waited since `t`: its gang can go on
and its wheel tests pass. -/
def State.ferryFirst (s : State) (core : Nat) (t : Option Nat) (f : Nat × Nat × BitVec 8 × FerryCmd) : Bool :=
  (match f.2.2.2.waits, t with
    | some a, some b => a < b
    | some _, none => true
    | none, _ => false) &&
    (match s.gang? core f.1 f.2.1 with
      | some g => g.st == .running && !g.evicted
      | none => false) && s.wheelReady core f

/-- R275, R276: the held command of a group is admitted if its wheel tests pass and the queue has an entry for which no other
has waited longer; without one it begins to wait for it. Its word then completes. -/
def State.ferryTry (s : State) (core slot gang : Nat) (m : BitVec 8) : State :=
  let c := s.core core
  let me := fun (f : Nat × Nat × BitVec 8 × FerryCmd) => f.1 == slot && f.2.1 == gang && f.2.2.1 == m
  match c.ferryWait.find? me, s.block? core slot with
  | some f, some b =>
    match b.fixSides f.2.2.2 with
    | none => s
    | some cmd =>
      if c.ferry.length < 64 && !c.ferryWait.any (s.ferryFirst core f.2.2.2.waits) then
        let cmd := { cmd with id := s.clock, born := c.cycle.toNat }
        let s := { s with clock := s.clock + 1 }.setCore core { c with
          ferryWait := c.ferryWait.filter fun x => !me x
          ferry := c.ferry ++ [cmd] }
        s.onGang core slot gang fun g => g.onGroup m fun x =>
          if x.wait = .ferry then { x with wait := .none, pc := x.pc + 2 } else x
      else if f.2.2.2.waits.isSome then s
      else
        { s with clock := s.clock + 1 }.setCore core { c with
          ferryWait := c.ferryWait.map fun x =>
            if me x then (x.1, x.2.1, x.2.2.1, { x.2.2.2 with waits := some s.clock }) else x }
  | _, _ => s

/-- The lowest active lane of a group. -/
def Env.lowActive (e : Env) : Nat := ((List.range 32).find? fun i => e.act.getLsbD i).getD 0

/-- One side of a command: its base and its wheel address. -/
def Env.ferrySide (e : Env) (sel : BitVec 4) (v : BitVec 7) : Side × Option Word :=
  let x := lane (e.reg v.toNat).lanes e.lowActive
  if sel = 14 then (.plain x.toNat, none)
  else if sel = 15 then (.plain 0, some x)
  else (.global ((e.wreg sel).val + x.signExtend 64), none)

/-- The command of a FERRY word (R267 to R273). -/
def Env.ferryCmd (e : Env) (o : FerryOp) (k : FerryKind) : FerryCmd :=
  let (src, srcWheel) := e.ferrySide o.ssel o.vsrc
  let h := (e.wreg o.dsel).val
  let (dst, dstWheel) :=
    if k = .s2s then
      (Side.plain (h.setWidth 32 + lane (e.reg o.vdst.toNat).lanes e.lowActive : Word).toNat, none)
    else e.ferrySide o.dsel o.vdst
  { id := 0, slot := e.slot, gang := e.gang, mask := e.m, kind := k, tag := o.tag, bnd := o.bnd
    acq := if o.ord.getLsbD 0 then some o.scope else none
    rel := if o.ord.getLsbD 1 then some o.scope else none
    shape := (e.wreg 14).val, pitch := (e.wreg 15).val, src := src, dst := dst, srcWheel := srcWheel
    dstWheel := dstWheel, stage := none, handle := h, born := 0, ord := e.pc, prov := e.b.provWord e.g e.m e.pc
    waits := none, begun := false
    tail := if o.ord.getLsbD 0 then (e.g.pend.filter fun p => p.isLoad && !p.returned).map (·.id) else []
    status := none, done := false, flits := [] }

/-- A FERRY word (R271, R280): the tests of steps 1 to 5, the tag pending, then the waits of steps 6 and 7. What copy fences
have placed before the command happens before its transfers (R236). -/
def ferry (o : FerryOp) (k : FerryKind) (s : State) : Host.Outcome State Fault Refusal :=
  wide s ⟨o.s, o.c, .mem, 2, false, [.v o.vdst, .v o.vsrc]⟩ fun e =>
    if e.act = 0 then .done e.s none
    else
      let c := e.ferryCmd o k
      let bit : DWord := 1 <<< o.tag.toNat
      if !c.shapeOk then .fault e.s 0x50 1
      else if !(e.b.sideFits c.src c.srcWheel c.size && (k == .s2s || e.b.sideFits c.dst c.dstWheel c.size)) then
        .fault e.s 0x24 0
      else if !(sideAligned c.src c.srcWheel c.esize && sideAligned c.dst c.dstWheel c.esize) then .fault e.s 0x20 0
      else if e.b.tagpend &&& bit ≠ 0 then .fault e.s 0x51 o.tag.toNat
      else if e.b.meetsStash c c.src || (!c.egress && e.b.meetsStash c c.dst) then .fault e.s 0x50 5
      else
        let s := e.s.onBlock e.core e.slot fun b =>
          { b with tagpend := b.tagpend ||| bit, tags := b.tags &&& ~~~bit, tagerr := b.tagerr &&& ~~~bit }
        .hold s .ferry fun s =>
          let w := Who.tag e.core e.slot o.tag.toNat
          let s := (s.forget w).join [w] (·.covers (.before e.core e.slot e.gang false))
          let x := s.core e.core
          (s.setCore e.core { x with ferryWait := x.ferryWait ++ [(e.slot, e.gang, e.m, c)] }).ferryTry e.core e.slot e.gang e.m

/-- FERRY.g2s (R266). -/
def execFerryG2s (o : FerryOp) (s : State) : Host.Outcome State Fault Refusal := ferry o .g2s s
/-- FERRY.s2g (R266). -/
def execFerryS2g (o : FerryOp) (s : State) : Host.Outcome State Fault Refusal := ferry o .s2g s
/-- FERRY.g2g (R266). -/
def execFerryG2g (o : FerryOp) (s : State) : Host.Outcome State Fault Refusal := ferry o .g2g s
/-- FERRY.s2s (R266, R273). -/
def execFerryS2s (o : FerryOp) (s : State) : Host.Outcome State Fault Refusal := ferry o .s2s s
/-- FERRY.egh (R266, R274). -/
def execFerryEgh (o : FerryOp) (s : State) : Host.Outcome State Fault Refusal := ferry o .egh s
/-- FERRY.egp (R266, R274). -/
def execFerryEgp (o : FerryOp) (s : State) : Host.Outcome State Fault Refusal := ferry o .egp s

/-- FERRY_ADMISSION (R275, R276): a command held at issue is tested again. -/
def execFerryAdmission (core slot gang : Nat) (m : BitVec 8) (s : State) : Host.Outcome State Fault Refusal :=
  match s.gang? core slot gang with
  | some g => .next (if g.st = .running ∧ !g.evicted then s.ferryTry core slot gang m else s)
  | none => .next s

/-! ### Transfers (R277, R278) -/

/-- Why a sector is not copied. -/
inductive CopyStop where
  | translation
  | stale
  /-- Held until a page has been moved, at an address, or until a base die is ready (R212, R365). -/
  | wait (va : Option DWord)
  deriving DecidableEq, Repr

/-- What one destination sector takes: its bytes, the stamp of its sources, and poison. -/
structure CopyData where
  ws : List (Nat × Byte)
  stamp : Stamp
  bad : Bool

/-- A command whose reads of the scratchpad nothing but a copy fence orders after the stores of the gang: it has no `.acq`, and its
source lies in plain space (R236, R172). -/
def FerryCmd.weak (c : FerryCmd) : Bool := c.acq.isNone && c.srcWheel.isNone

/-- An engine's read of a source sector as agent `w`: global by translation at the home, or scratchpad. R236: without a copy fence
before it, it may miss writes that do not happen before it, and, where it is `weak`, stores to the scratchpad. -/
def State.engineRead (s : State) (w : Who) (core slot ctx : Nat) (global weak : Bool) (sec : Nat) : State × Except CopyStop Got :=
  if global then
    match s.translate core ctx (BitVec.ofNat 64 (32 * sec)) false 32 with
    | (s, .ok pa) =>
      let (s, g) := s.engineGet w core (some (core, slot)) pa
      (s, .ok g)
    | (s, .fault _) => (s, .error .translation)
    | (s, .migrate) => (s, .error (.wait (some (BitVec.ofNat 64 (32 * sec)))))
    | (s, .wait) => (s, .error (.wait none))
  else
    match s.block? core slot with
    | some b =>
      let old := if weak then (Tbl.get? b.spOld sec).toList else []
      let (s, x) := s.choose (b.sp.bytesAt (32 * sec) 32, b.sp.stamp sec, b.sp.bad sec) old
      (s, .ok ⟨x.1, x.2.1, x.2.2⟩)
    | none => (s, .error (.wait none))

/-- An engine's write as agents `ws`, heading the releases `rels`, of the bytes of one global sector at the home, its poison set or
not (R277): the data of a poisoned sector are free values. -/
def State.engineWrite (s : State) (ws : List Who) (rels : List Release) (core slot ctx : Nat) (now : Stamp) (sec : Nat)
    (d : CopyData) (r : StampRule) : State :=
  match s.translate core ctx (BitVec.ofNat 64 (32 * sec)) true 32 with
  | (s, .ok pa) =>
    let s := (s.snoop (some (core, slot)) (pa / 128) true).dirAccess (isleOf core) pa true
    let s := s.setCore core { s.core core with l1 := Tbl.erase (s.core core).l1 (pa / 128) }
    if d.bad then
      let st := r.apply now (s.mem.stamp (pa / 32)) (coversSector d.ws sec)
      { s with fresh := s.fresh + 32 }.homeSet (pa / 32) ((List.range 32).map fun i => Config.freeByte (s.fresh + i)) st true
    else s.homeWrite ws rels false now (pa / 32) (d.ws.map fun p => (pa + p.1 % 32, p.2)) r
  | (s, _) => s

/-- A sector of the scratchpad is about to be written by an engine: an access of the block that nothing orders after the write may
still find it as it stood (R236). -/
def Block.spLater (b : Block) (sec : Nat) : Block :=
  if (Tbl.get? b.spLate sec).isSome then b
  else { b with spLate := Tbl.set b.spLate sec (b.sp.bytesAt (32 * sec) 32, b.sp.stamp sec, b.sp.bad sec) }

/-- The same in the scratchpad of a block. -/
def State.engineScratch (s : State) (rels : List Release) (core slot : Nat) (now : Stamp) (sec : Nat) (d : CopyData)
    (r : StampRule) : State :=
  let s := (s.rehead rels false (d.ws.map fun p => spLoc core slot p.1)).onBlock core slot (·.spLater sec)
  if d.bad then
    { s with fresh := s.fresh + 32 }.onBlock core slot fun b =>
      let st := r.apply now (b.sp.stamp sec) (coversSector d.ws sec)
      { b with sp := ((b.sp.setBytes (32 * sec) ((List.range 32).map fun i => Config.freeByte (s.fresh + i))).setStamp sec st).setBad sec true }
  else s.onBlock core slot fun b => { b with sp := b.sp.putSector now sec d.ws r }

/-- Byte `a` of the sectors read. -/
def gotByte (l : List (Nat × Got)) (a : Nat) : Byte :=
  match l.find? (·.1 == a / 32) with
  | some p => p.2.bytes.getD (a % 32) 0
  | none => 0

/-- Source sectors read in order, with the bound test of each; the flag says that a check has failed. An egress reads them all
before any test ends it (R274). -/
def State.readSources (s : State) (w : Who) (core slot ctx bnd : Nat) (global weak egress : Bool) :
    List Nat → State × Except CopyStop (List (Nat × Got)) × Bool
  | [] => (s, .ok [], false)
  | sec :: r =>
    match s.engineRead w core slot ctx global weak sec with
    | (s, .error x) => (s, .error x, false)
    | (s, .ok g) =>
      let fails := s.boundFails ctx bnd g.stamp
      if fails && !egress && (s.ctx ctx).boundAct bnd != .mark then (s, .error .stale, true)
      else match s.readSources w core slot ctx bnd global weak egress r with
        | (s, .ok l, f) => (s, .ok ((sec, g) :: l), f || fails)
        | (s, .error x, f) => (s, .error x, f || fails)

/-- The byte pairs (destination, source) of a command, in its order. DESIGN CHOICE, log 32: where rows of the destination overlap
(a pitch below the row's bytes) the later element in row-major order stays. -/
def FerryCmd.pairs (c : FerryCmd) : List (Nat × Nat) :=
  ((c.side c.dst c.egress).zip (c.side c.src false)).flatMap fun p =>
    (List.range (c.tx * c.esize)).map fun i => ((p.1 + i) % 2 ^ 64, (p.2 + i) % 2 ^ 64)

def Side.isGlobal (x : Side) : Bool :=
  match x with
  | .global _ => true
  | .plain _ => false

/-- What the byte pairs of one destination sector take from the source sectors read. -/
def copyData (now : Stamp) (ps : List (Nat × Nat)) (l : List (Nat × Got)) : CopyData :=
  ⟨ps.map fun p => (p.1, gotByte l p.2), olderAll now (l.map fun p => p.2.stamp), l.any fun p => p.2.bad⟩

/-- What each destination sector of a command takes, sectors in the order first met. -/
def State.plan (s : State) (core ctx : Nat) (now : Stamp) (c : FerryCmd) (pairs : List (Nat × Nat)) :
    List Nat → State × List (Nat × Except CopyStop CopyData) × Bool
  | [] => (s, [], false)
  | sec :: r =>
    let ps := pairs.filter fun p => p.1 / 32 == sec
    let (s, res, f) := s.readSources (.tag core c.slot c.tag.toNat) core c.slot ctx c.bnd.toNat c.src.isGlobal c.weak c.egress
      (sortNat (ps.map fun p => p.2 / 32))
    let d := match res with
      | .ok l => Except.ok (copyData now ps l)
      | .error x => .error x
    let (s, d) := match d, c.dst.isGlobal && !c.egress with
      | .ok d, true =>
        (match s.translate core ctx (BitVec.ofNat 64 (32 * sec)) true 32 with
          | (s, .ok _) => (s, Except.ok d)
          | (s, .fault _) => (s, .error CopyStop.translation)
          | (s, .migrate) => (s, .error (CopyStop.wait (some (BitVec.ofNat 64 (32 * sec)))))
          | (s, .wait) => (s, .error (CopyStop.wait none)))
      | d, _ => (s, d)
    let (s, l, f') := s.plan core ctx now c pairs r
    (s, (sec, d) :: l, f || f')

/-- The first event of a plan that ends the command (log 15: in destination order). -/
def planStop (l : List (Nat × Except CopyStop CopyData)) : Option CopyStop :=
  l.findSome? fun p => match p.2 with
    | .error x => some x
    | .ok _ => none

/-- What a plan waits for, if it waits. -/
def planWaits (l : List (Nat × Except CopyStop CopyData)) : Option (Option DWord) :=
  l.findSome? fun p => match p.2 with
    | .error (.wait x) => some x
    | _ => none

/-- The target of a kind 3 command (R273): core and slot, or the failing status. -/
def State.target (s : State) (core : Nat) (b : Block) (c : FerryCmd) : Except Nat (Nat × Nat) :=
  match s.blocks.find? fun p => p.2.2.node == b.node && p.2.2.lin == fld c.handle 63 32 && !p.2.2.control &&
      isleOf p.1 == isleOf core with
  | none => .error 1
  | some p =>
    let off := match c.dst with
      | .plain o => o
      | .global _ => 0
    let obj := fld c.pitch 31 0
    if off + c.size ≤ p.2.2.shape.plain ∧ obj % 16 = 0 ∧ obj + 16 ≤ p.2.2.shape.plain then .ok (p.1, p.2.1) else .error 2

/-- Writes of a plan: all of them, or when the command ends early each sector's old or new contents (log 8). -/
def State.applyPlan (s : State) (all : Bool) (w : State → Nat → CopyData → State) :
    List (Nat × Except CopyStop CopyData) → State
  | [] => s
  | (sec, .ok d) :: r =>
    if all then (w s sec d).applyPlan all w r
    else
      let t := { s with fresh := s.fresh + 1 }
      (if Config.freeBit s.fresh then w t sec d else t).applyPlan all w r
  | _ :: r => s.applyPlan all w r

/-- R274: the flits of a peer egress, with the stamps of the destination sectors. -/
def peerFlits (src dst : BitVec 9) (ctx : Nat) (ws : List (Nat × Byte)) (st : Nat → Stamp) (a : Nat) : Nat → List Flit
  | 0 => []
  | fuel + 1 =>
    let n := min ws.length (192 - a % 32)
    if ws.isEmpty then []
    else
      { kind := .data, seq := 0, src := src, dst := dst, ctx := BitVec.ofNat 12 ctx, addr := BitVec.ofNat 57 a
        count := BitVec.ofNat 8 n
        body := padTo 192 (List.replicate (a % 32) 0 ++ (ws.take n).map (·.2))
        stamps := (List.range 6).map fun i => st (a / 32 + i), poison := 0 } ::
      peerFlits src dst ctx (ws.drop n) st (a + n) fuel

/-- The stamp that a destination sector takes in a plan. -/
def planStamp (l : List (Nat × Except CopyStop CopyData)) (sec : Nat) : Stamp :=
  match l.find? (·.1 == sec) with
  | some (_, .ok d) => d.stamp
  | _ => ageless

def planBytes (l : List (Nat × Except CopyStop CopyData)) : List (Nat × Byte) :=
  l.flatMap fun p => match p.2 with
    | .ok d => d.ws
    | .error _ => []

def planBad (l : List (Nat × Except CopyStop CopyData)) : Bool :=
  l.any fun p => match p.2 with
    | .ok d => d.bad
    | .error _ => false

/-- R274: the bytes of a host egress; on a CXL completion error each 64-byte line holds old or new contents. -/
def State.hostPut (s : State) (err : Bool) (ws : List (Nat × Byte)) : State :=
  if !err then { s with hostMem := s.hostMem.writes ws }
  else
    (sortNat (ws.map fun p => p.1 / 64)).foldl (fun s i =>
      let t := { s with fresh := s.fresh + 1 }
      if Config.freeBit s.fresh then { t with hostMem := t.hostMem.writes (ws.filter fun p => p.1 / 64 == i) } else t) s

/-- The command `id` of a core's queue changed. -/
def State.onFerry (s : State) (core id : Nat) (f : FerryCmd → FerryCmd) : State :=
  let c := s.core core
  s.setCore core { c with ferry := c.ferry.map fun x => if x.id = id then f x else x }

/-- The writes of a command enter the counters of its gang (R233, R237, R239), where they are acknowledged for `cls` already:
a global write is performed at the isle cache or beyond. -/
def State.noteFerry (s : State) (core : Nat) (c : FerryCmd) (cls : Nat) : State :=
  s.onGang core c.slot c.gang fun g => { g with outst := g.outst ++ [(c.id + 1, cls)] }

/-- R235: the agent of a command's transfers, and the slices that issued it. -/
def FerryCmd.who (c : FerryCmd) (core : Nat) : Who := .tag core c.slot c.tag.toNat
def FerryCmd.issuers (c : FerryCmd) (core : Nat) : List Who := groupWho core c.slot c.gang c.mask

/-- The releases that the writes of a command head until all of them are made: a placeholder (R236). -/
def FerryCmd.rels (c : FerryCmd) (core clock : Nat) : List Release :=
  match c.rel with
  | some scope => [⟨scope, c.who core, [clock]⟩]
  | none => []

/-- What happens before the transfers of a command beside what copy fences have placed there: what its `.acq` acquires (R236), and
for a side in wheel space what the arrivals at the block's wheels have released (R172). -/
def State.ferryAcq (s : State) (core : Nat) (c : FerryCmd) : State :=
  let s := match c.acq with
    | some scope => s.engineSync (c.who core) (c.issuers core) (Who.ofGang core c.slot c.gang) scope
    | none => s
  if c.srcWheel.isSome || c.dstWheel.isSome then s.meetBlock core c.slot [c.who core] else s

/-- The release of a command, once its writes are made (R236): each of them heads it. -/
def State.ferryRel (s : State) (core : Nat) (c : FerryCmd) : State :=
  match c.rel, c.issuers core with
  | some scope, w :: _ => s.headsOf (c.who core) w scope
  | _, _ => s

/-- Transfer of a command: its writes and its status so far; or the state in which it waits. A peer egress waits for a trained
cape (R245). DESIGN CHOICE, log 32: a copy to a block that has gone since the command began writes nothing more. -/
def State.transfer (s : State) (core : Nat) (b : Block) (c : FerryCmd) : Except State State :=
  let now := s.now b.ctx
  let pairs := c.pairs
  let ws := [c.who core]
  let rels := c.rels core s.clock
  let (t, l, failed) := (s.ferryAcq core c).plan core b.ctx now c pairs (sectorsOf (pairs.map (·.1))).reverse
  match planWaits l with
  | some x => .error (s.holdMove b.ctx x)
  | none =>
    let t0 := t
    let t := if failed then t.boundHit b.ctx c.bnd.toNat else t
    let stale := failed && (t.ctx b.ctx).boundAct c.bnd.toNat != .mark
    let status := match planStop l with
      | some .translation => 3
      | some _ => 4
      | none => 0
    let fin (s : State) (k : Nat) : Except State State :=
      .ok ((s.ferryRel core c).onFerry core c.id fun x => { x with done := true, status := some k })
    match c.kind with
    | .g2s =>
      fin (t.applyPlan (status == 0) (fun s sec d => s.engineScratch rels core c.slot now sec d (.normal d.stamp)) l) status
    | .s2s =>
      match t.target core b c with
      | .error _ => fin t status
      | .ok (tc, ts) =>
        fin (t.applyPlan (status == 0) (fun s sec d => s.engineScratch rels tc ts now sec d (.normal d.stamp)) l) status
    | .s2g | .g2g =>
      fin ((t.applyPlan (status == 0) (fun s sec d =>
        s.engineWrite ws rels core c.slot b.ctx now sec d (.normal d.stamp)) l).noteFerry core c 2) status
    | .egh =>
      if planStop l = some .translation then fin t0 3
      else if planBad l then fin t0 5
      else if stale then fin t 4
      else
        let err := Config.freeBit t.fresh
        let t := { t with fresh := t.fresh + 1 }.hostPut err (planBytes l)
        fin (if err then t else t.noteFerry core c 0) (if err then 9 else 0)
    | .egp =>
      if planStop l = some .translation then fin t0 3
      else if planBad l then fin t0 5
      else if stale then fin t 4
      else match t.outCape? with
      | none => .error s
      | some k =>
        let base := match c.dst with
          | .global va => va.toNat
          | .plain o => o
        let fl := peerFlits s.pkg (c.pitch.setWidth 9) b.ctx (pairs.map fun p =>
          (p.1, ((planBytes l).find? (·.1 == p.1)).elim 0 (·.2))) (planStamp l) base c.size
        let t := fl.foldl (fun (t : State) f =>
          let q := (t.cape k).sendSeq
          (t.sendBy k f).onFerry core c.id fun x => { x with flits := x.flits ++ [(k, q)] }) t
        fin (t.noteFerry core c 0) 0

/-- Steps 2 to 4 of R280: the release, the arrivals, the status and the tag; the arrivals release what the transfers have done
(R229), and later copy fences of the gang come after them (R236). -/
def State.ferryDone (s : State) (core : Nat) (c : FerryCmd) (status : Nat) : State :=
  let me := (·.covers (c.who core))
  let s := match c.rel with
    | some scope => s.system me scope
    | none => s
  let s := s.join [.after core c.slot c.gang false] me
  let s := match c.stage with
    | some (w, st) => (s.join [.obj core c.slot] me).fillArrive core c.slot w st
    | none => s
  let s := match c.kind, s.block? core c.slot with
    | .s2s, some b =>
      if status = 0 then
        (match s.target core b c with
          | .ok (tc, ts) => (s.join [.obj tc ts] me).objArrive tc ts (fld c.pitch 31 0)
          | .error _ => s)
      else s
    | _, _ => s
  let bit : DWord := 1 <<< c.tag.toNat
  let s := s.onBlock core c.slot fun b =>
    { b with
      fstat := vput b.fstat c.tag.toNat (BitVec.ofNat 4 status)
      tags := b.tags ||| bit
      tagerr := if status = 0 then b.tagerr else b.tagerr ||| bit
      tagpend := b.tagpend &&& ~~~bit }
  let x := s.core core
  let s := s.setCore core { x with ferry := x.ferry.filter fun y => y.id != c.id }
  let s := s.count (coreCtr core 1) 1
  if status = 0 then s else s.count (coreCtr core 2) 1

/-- R237 step 1: an egress command waits for the SYSTEM class; the writes of the others are performed where they are
acknowledged. -/
def FerryCmd.acked (c : FerryCmd) (g : Option Gang) : Bool :=
  match g with
  | some g => !c.egress || !(g.outst.any fun p => p.1 == c.id + 1)
  | none => true

/-- R236, R237: the release of a command waits for its writes' acknowledgements. -/
def FerryCmd.relReady (c : FerryCmd) (g : Option Gang) : Bool :=
  match c.rel, g with
  | some sc, some g => (g.outst.filter fun p => p.1 == c.id + 1).all fun p => classOf sc ≤ p.2
  | _, _ => true

/-- R236: the tail reads of a command with `.acq` have returned. -/
def FerryCmd.tailReady (c : FerryCmd) (g : Option Gang) : Bool :=
  match g with
  | some g => !(g.pend.any fun p => !p.returned && c.tail.contains p.id)
  | none => true

/-- The command of a core's queue with an id, if it is among the eight in transfer (R276). -/
def Core.ferryAt (c : Core) (id : Nat) : Option FerryCmd := (c.ferry.take 8).find? (·.id == id)

/-- R276: every command admitted before this one has begun its transfer. -/
def Core.ferryTurn (c : Core) (id : Nat) : Bool := (c.ferry.takeWhile (·.id != id)).all (·.begun)

/-- R276: a command begins its transfer; the target of a copy to another block is tested then (R273, R283). -/
def State.ferryBegin (s : State) (core : Nat) (b : Block) (c : FerryCmd) : State :=
  let bad := match c.kind, s.target core b c with
    | .s2s, .error k => some k
    | _, _ => none
  s.onFerry core c.id fun x => { x with begun := true, done := bad.isSome, status := bad }

/-- FERRY_COMPLETION (R237, R276 to R280): a command begins in its turn, then come its transfer and, once its acknowledgements are
in, the completion. -/
def execFerryCompletion (core id : Nat) (s : State) : Host.Outcome State Fault Refusal :=
  match (s.core core).ferryAt id with
  | none => .next s
  | some c =>
    match s.block? core c.slot with
    | none => .next s
    | some b =>
      if !c.begun then .next (if (s.core core).ferryTurn id then s.ferryBegin core b c else s)
      else
      let s1 := if c.done then Except.ok s
        else if c.tailReady (s.gang? core c.slot c.gang) then s.transfer core b c else .error s
      match s1 with
      | .error s => .next s
      | .ok s =>
        match (s.core core).ferryAt id with
        | none => .next s
        | some c =>
          let g := s.gang? core c.slot c.gang
          if !c.flits.isEmpty || !c.acked g || !c.relReady g then .next s
          else .next (s.ferryDone core c (c.status.getD 0))

/-- FERRY_STALL (R276): a command 2^24 cycles after its admission completes with status stall; each destination sector
holds old or new contents, and the trap unit records it. DESIGN CHOICE, log 32: the destinations of an egress that has not begun
to send keep their old contents. -/
def execFerryStall (core id : Nat) (s : State) : Host.Outcome State Fault Refusal :=
  match (s.core core).ferry.find? (·.id == id) with
  | none => .next s
  | some c =>
    match s.block? core c.slot with
    | none => .next s
    | some b =>
      if (s.core core).cycle.toNat - c.born < 2 ^ 24 then .next s
      else
        let now := s.now b.ctx
        let pairs := c.pairs
        let s1 :=
          if c.done || c.egress then s
          else
            let rels := c.rels core s.clock
            let (t, l, _) := (s.ferryAcq core c).plan core b.ctx now c pairs (sectorsOf (pairs.map (·.1))).reverse
            let t := match c.kind with
              | .g2s => t.applyPlan false (fun s sec d => s.engineScratch rels core c.slot now sec d (.normal d.stamp)) l
              | .s2s =>
                (match t.target core b c with
                  | .ok (tc, ts) => t.applyPlan false (fun s sec d => s.engineScratch rels tc ts now sec d (.normal d.stamp)) l
                  | .error _ => t)
              | _ => t.applyPlan false (fun s sec d =>
                s.engineWrite [c.who core] rels core c.slot b.ctx now sec d (.normal d.stamp)) l
            t.ferryRel core c
        let r := { s1.gangRecord core c.slot c.gang c.mask c.ord false false c.tag.toNat 0x52 with prov := c.prov }
        .next ((s1.postEvent b.ctx r).ferryDone core c 8)

end Sys2Proof.Machine
end

