-- ==== Sys2Proof/Machine/Cube.lean ====
section
/-! DEFINITION. The cube's control-core instructions (R302 to R308): the checks made at issue, with the values of the
latest instructions issued (R296), and the queue. -/

namespace Sys2Proof.Machine

/-- The cube of a core's cluster. -/
def GEnv.cube (e : GEnv) : Cube := e.s.cube (clusterOf e.core)

/-- A change of the cube of a cluster. -/
def State.onCube (s : State) (cl : Nat) (f : Cube → Cube) : State := s.setCube cl (f (s.cube cl))

/-- R300: a pending deferred fault is taken in place of a cube instruction. Taking it clears it. -/
def GEnv.cubeWord (e : GEnv) (r : GRes) : GRes :=
  if !e.b.control then e.illegal
  else match e.cube.fault with
    | some f => .deferred (e.s.onCube (clusterOf e.core) fun c => { c with fault := none }) f.code f.detail f.addr
    | none => r

/-- R296, R308: operations queued or executing. DESIGN CHOICE, log 24: a CUBE.MUL.img of which only the image drain is open no
longer counts. -/
def Cube.depth (c : Cube) : Nat := c.queue.length + (if c.exec.isSome then 1 else 0)

/-- The acquire of an operation (R238). -/
def CubeOp.acq? (o : CubeOp) : Option (BitVec 3) :=
  match o with
  | .ldb _ _ _ _ _ acq _ | .scale _ _ _ _ acq _ => acq
  | _ => none

/-- R238: the acquire of an operation of the cube: its tails are the reads of the thread before it. -/
def State.cubeAcq (s : State) (core : Nat) (o : CubeOp) : State :=
  match o.acq? with
  | some scope => s.engineSync (.seq core) [.thread core 0] (·.covers (.thread core 0)) scope
  | none => s

/-- R296: an operation enters the queue, or the thread stalls while it is full. `f` sets the issue-time registers. -/
def GEnv.enqueue (e : GEnv) (op : CubeOp) (f : Cube → Cube) : GRes :=
  if 16 ≤ e.cube.depth then .wait e.s .cubeQueue
  else .done ((e.s.cubeAcq e.core op).onCube (clusterOf e.core) fun c => { f c with queue := c.queue ++ [op] })

/-- CUBE.SHAPE (R303). -/
def execCubeShape (o : GrOp) (s : State) : Host.Outcome State Fault Refusal :=
  gen s fun e => e.cubeWord <|
    let m := (e.reg o.a).val
    let n := (e.reg o.b).val
    let k := (e.reg o.d).val
    e.enqueue (.shape m n k) fun c => { c with im := m, inn := n, ik := k }

/-- MODE bits (R288). -/
def modeOp (m : BitVec 16) : Nat := bits m.toNat 1 0
def modeKr (m : BitVec 16) : Bool := m.getLsbD 2
def modeFmtA (m : BitVec 16) : Nat := bits m.toNat 4 3
def modeFmtB (m : BitVec 16) : Nat := bits m.toNat 6 5
def modeFmtG (m : BitVec 16) : Nat := bits m.toNat 8 7
def modeSat (m : BitVec 16) : Bool := m.getLsbD 9
def modeSa (m : BitVec 16) : Bool := m.getLsbD 10
def modeSb (m : BitVec 16) : Bool := m.getLsbD 11
def modeSg (m : BitVec 16) : Bool := m.getLsbD 12

/-- R288: a format code. -/
def cubeFmt (c : Nat) : Fmt := if c = 0 then e4m3 else if c = 1 then e5m2 else bf16
/-- R285: its element size. -/
def cubeSize (c : Nat) : Nat := if c < 2 then 1 else 2

/-- CUBE.MODE (R303). -/
def execCubeMode (a : BitVec 5) (m : BitVec 13) (s : State) : Host.Outcome State Fault Refusal :=
  gen s fun e => e.cubeWord <|
    let m : BitVec 16 := m.setWidth 16
    let kc := if modeKr m then (e.reg a).val else 1
    e.enqueue (.mode m kc) fun c => { c with imode := m, ikc := kc }

/-- CUBE.WIN as imm16 (R295). -/
def winWord (o : WinOp) : BitVec 16 :=
  BitVec.ofNat 16 (o.en.toNat * 256 + o.dil.toNat * 128 + o.str.toNat * 64 + o.kw.toNat * 8 + o.kh.toNat)

/-- R295: fields of the window registers. -/
def winEn (w : BitVec 16) : Bool := w.getLsbD 8
def winD (w : BitVec 16) : Nat := if w.getLsbD 7 then 2 else 1
def winS (w : BitVec 16) : Nat := if w.getLsbD 6 then 2 else 1
def winKw (w : BitVec 16) : Nat := bits w.toNat 5 3
def winKh (w : BitVec 16) : Nat := bits w.toNat 2 0
def winOw (a : DWord) : Nat := fld a 63 48
def winTh (a : DWord) : Nat := fld a 47 32
def winTw (a : DWord) : Nat := fld a 31 16
def winC (a : DWord) : Nat := fld a 15 0

/-- CUBE.WIN (R295). -/
def execCubeWin (o : WinOp) (s : State) : Host.Outcome State Fault Refusal :=
  gen s fun e => e.cubeWord <|
    let a := (e.reg o.a).val
    if winOw a = 0 ∨ winTh a = 0 ∨ winTw a = 0 ∨ winC a = 0 ∨ winC a % 32 ≠ 0 then .fault e.s 0x61 0 0
    else e.enqueue (.win (winWord o) a) fun c => { c with iwin := winWord o, iwga := a }

/-- A count register that lies from 1 to 128 (R290, R304, R305). -/
def in128 (x : DWord) : Bool := 1 ≤ x.toNat && x.toNat ≤ 128

/-- CUBE.LDB (R304). -/
def execCubeLdb (o : LdbOp) (s : State) : Host.Outcome State Fault Refusal :=
  gen s fun e => e.cubeWord <|
    let r := (e.reg o.d).val
    let va := (e.reg o.a).val
    let pitch := (e.reg o.b).val
    let es := if o.size then 2 else 1
    if !in128 e.cube.inn then .fault e.s 0x60 0 0
    else if r = 0 ∨ (if o.plane then 32768 else 65536) < r.toNat * es ∨ va.toNat % es ≠ 0 ∨ pitch.toNat % es ≠ 0 then
      .fault e.s 0x61 0 0
    else e.enqueue (.ldb o.plane o.size r va pitch (if o.acq then some o.scope else none) o.bnd) id

/-- CUBE.SCALE (R305). -/
def execCubeScale (o : ScaleOp) (s : State) : Host.Outcome State Fault Refusal :=
  gen s fun e => e.cubeWord <|
    let n := (e.reg o.d).val
    let va := (e.reg o.a).val
    let pitch := (e.reg o.b).val
    if n = 0 ∨ 2048 < n.toNat ∨ va.toNat % 2 ≠ 0 ∨ (o.which ≠ 2 ∧ pitch.toNat % 2 ≠ 0) then .fault e.s 0x61 0 0
    else if (o.which = 0 ∧ in128 e.cube.im = false) ∨ (o.which = 1 ∧ in128 e.cube.inn = false) then .fault e.s 0x60 0 0
    else e.enqueue (.scale o.which n va pitch (if o.acq then some o.scope else none) o.bnd) id

/-- R290, R295: the shape of a CUBE.MUL under the values of issue. -/
def Cube.shapeOk (c : Cube) : Bool :=
  let k := c.ik.toNat
  let eb := cubeSize (modeFmtB c.imode)
  let eg := cubeSize (modeFmtG c.imode)
  let w := c.iwin
  let a := c.iwga
  in128 c.im && in128 c.inn &&
    (if modeOp c.imode = 1 then
      1 ≤ k && k * eb ≤ 32768 && k * eg ≤ 32768 && (!modeKr c.imode || (c.ikc != 0 && k % c.ikc.toNat == 0))
    else 1 ≤ k && k * eb ≤ 65536) &&
    (modeOp c.imode != 2 || modeFmtA c.imode == modeFmtG c.imode) &&
    (!winEn w ||
      (modeOp c.imode != 2 && k == (winKh w + 1) * (winKw w + 1) * winC a &&
        (c.im.toNat - 1) / winOw a * winS w + winKh w * winD w < winTh a &&
        (winOw a - 1) * winS w + winKw w * winD w < winTw a))

/-- R286: PANEL of a stream: 128 rows, or the g vector of GK. -/
def panelSize (rows : Bool) (es : Nat) : Nat := if rows then 128 * 32 * es else 32 * es

/-- A source descriptor (R286). -/
def srcWheel (d : DWord) : Bool := d.getLsbD 63
def srcNum (d : DWord) : Nat := fld d 62 61
def srcOff (d : DWord) : Nat := fld d 19 0

def Cube.wheel (c : Cube) (i : Nat) : Wheel := vat c.wheels (Wheel.start WheelDesc.none) i
def Cube.setWheel (c : Cube) (i : Nat) (w : Wheel) : Cube := { c with wheels := vput c.wheels i w }

/-- R306: a stream source. -/
def Cube.sourceOk (c : Cube) (d : DWord) (panel nb : Nat) : Bool :=
  fld d 60 20 == 0 && srcOff d % 32 == 0 &&
    (if srcWheel d then
      let w := (c.wheel (srcNum d)).desc
      w.valid && panel ≤ 2 ^ w.size && w.drains == 0
    else srcOff d + nb * panel ≤ 2 ^ 20)

/-- R306, R295: the arguments of a CUBE.MUL. -/
def Cube.mulArgsOk (c : Cube) (gd ga gb : DWord) (fin : BitVec 2) : Bool :=
  let nb := (c.ik.toNat + 31) / 32
  let ea := cubeSize (modeFmtA c.imode)
  let eg := cubeSize (modeFmtG c.imode)
  let a := c.iwga
  (if winEn c.iwin then
    fld ga 60 20 == 0 && srcOff ga % 32 == 0 && !srcWheel ga && srcOff ga + winTh a * winTw a * winC a * ea ≤ 2 ^ 20
  else c.sourceOk ga (panelSize true ea) nb) &&
    (if modeOp c.imode = 2 then c.sourceOk gb (panelSize true eg) nb
      else if modeOp c.imode = 3 then c.sourceOk gb (panelSize false eg) nb else true) &&
    (fin != 1 || (1 ≤ gd.toNat && gd.toNat ≤ 64)) && (fin != 2 || gd.toNat % 32 == 0)

/-- CUBE.MUL (R306). -/
def execCubeMul (o : CubeMulOp) (s : State) : Host.Outcome State Fault Refusal :=
  gen s fun e => e.cubeWord <|
    let gd := (e.reg o.d).val
    let ga := (e.reg o.a).val
    let gb := (e.reg o.b).val
    if !e.cube.shapeOk then .fault e.s 0x60 0 0
    else if !e.cube.mulArgsOk gd ga gb o.fin then .fault e.s 0x61 0 0
    else e.enqueue (.mul gd ga gb o.fin (if o.rel then some o.scope else none) o.bnd) id

/-- CUBE.ZERO (R308). -/
def execCubeZero (s : State) : Host.Outcome State Fault Refusal := gen s fun e => e.cubeWord <| e.enqueue .zero id

/-- CUBE.WAIT (R308): an acquire of what the cube's operations have done (R312). -/
def execCubeWait (a : BitVec 5) (s : State) : Host.Outcome State Fault Refusal :=
  gen s fun e => e.cubeWord <|
    let x := (e.reg a).val
    if x >>> 1 ≠ 0 then .fault e.s 0x61 0 0
    else if !e.cube.idle then .wait e.s .cubeWait
    else
      let s := e.s.join [.thread e.core e.slot] (·.covers (.seq e.core))
      .done (if x = 1 then s.onThread e.core e.slot fun t => { t with ended := true } else s)

def BankSt.num (x : BankSt) : Nat :=
  match x with
  | .empty => 0
  | .active => 1
  | .full => 2
  | .draining => 3

/-- Bank `i` of a cube. -/
def Cube.bank (c : Cube) (i : Bool) : Bank := vat c.banks Bank.empty i.toNat
def Cube.setBank (c : Cube) (i : Bool) (b : Bank) : Cube := { c with banks := vput c.banks i.toNat b }

/-- The k-block of the executing CUBE.MUL, else 0. -/
def Cube.stepNow (c : Cube) : Nat :=
  match c.exec with
  | some x => match x.op with
    | .mul _ _ _ _ _ _ => x.step
    | _ => 0
  | none => 0

/-- The status word of CUBE.STAT (R308). -/
def Cube.status (c : Cube) : DWord :=
  BitVec.ofNat 64 (c.fault.isSome.toNat * 2 ^ 63 + c.fop * 2 ^ 56 + c.fstep % 4096 * 2 ^ 44 + c.depth * 2 ^ 35 +
    c.act.toNat * 2 ^ 34 + c.dp.toNat * 2 ^ 33 + (c.bank true).st.num * 2 ^ 30 + (c.bank false).st.num * 2 ^ 28 +
    (c.bank true).suspect.toNat * 2 ^ 27 + (c.bank false).suspect.toNat * 2 ^ 26 + (c.bank true).poison.toNat * 2 ^ 25 +
    (c.bank false).poison.toNat * 2 ^ 24 + (c.bank c.dp).dcount * 2 ^ 16 + c.stepNow)

/-- CUBE.STAT (R308). -/
def execCubeStat (d : BitVec 5) (s : State) : Host.Outcome State Fault Refusal :=
  gen s fun e => if !e.b.control then e.illegal else e.put e.s d ⟨e.cube.status, ageless⟩

end Sys2Proof.Machine
end

