-- ==== Sys2Proof/Machine/CubeRun.lean ====
section
/-! DEFINITION. The cube's sequencer: the start of operations (R296), loads (R304, R305), the steps of CUBE.MUL (R289 to
R295, R297 to R299), image drains (R306), deferred faults (R300). -/

namespace Sys2Proof.Machine

/-- The control core of a cluster. -/
def controlCore (cl : Nat) : Nat := cl * 8 + 4

/-- The control block of a cluster's node. -/
def State.controlBlock? (s : State) (cl : Nat) : Option Block := s.block? (controlCore cl) 0

/-- R308: FOP of an operation. -/
def CubeOp.opcode (o : CubeOp) : Nat :=
  match o with
  | .shape _ _ _ => 0x38
  | .mode _ _ => 0x39
  | .ldb _ _ _ _ _ _ _ => 0x3A
  | .scale _ _ _ _ _ _ => 0x3B
  | .win _ _ => 0x3C
  | .mul _ _ _ _ _ _ => 0x3D
  | .zero => 0x3E

/-- R300: a deferred fault arises: the operation in execution stops and every queued one is discarded. A fault that is
already pending stands, and what later issue checks use is again what is in force (R296, log 24). -/
def Cube.defer (c : Cube) (code detail : Nat) (addr : DWord) (op step : Nat) : Cube :=
  { c with
    queue := []
    exec := none
    refireOn := none
    im := c.m
    inn := c.n
    ik := c.k
    imode := c.mode
    ikc := c.kc
    iwin := c.win
    iwga := c.wga
    fault := if c.fault.isSome then c.fault else some ⟨code, detail, addr, op, step⟩
    fop := if c.fault.isSome then c.fop else op
    fstep := if c.fault.isSome then c.fstep else step }

/-- An operation completes (R296, R304). -/
def Cube.opDone (c : Cube) : Cube := { c with exec := none, refires := 0 }

/-- R297: a bank that is free to accumulate into. -/
def Bank.open? (b : Bank) : Bool := b.st == .empty || b.st == .active

/-- The next operation starts: register writes and CUBE.ZERO complete at once; a CUBE.ZERO waits for its bank. -/
def Cube.start (c : Cube) : Cube :=
  match c.exec, c.queue with
  | none, op :: r =>
    let c' := { c with queue := r }
    match op with
    | .shape m n k => { c' with m := m, n := n, k := k }.opDone
    | .mode m kc => { c' with mode := m, kc := kc }.opDone
    | .win w a => { c' with win := w, wga := a }.opDone
    | .zero => if (c.bank c.act).open? then (c'.setBank c.act Bank.empty).opDone else c
    | op => { c' with exec := some { op := op, step := 0, a := ⟨0⟩, g := ⟨0⟩, marked := false, sus := false } }
  | _, _ => c

/-- SEQUENCER_OPERATION_START (R296). -/
def execSequencerOperationStart (cl : Nat) (s : State) : Host.Outcome State Fault Refusal :=
  match s.controlBlock? cl with
  | some _ => .next (s.onCube cl Cube.start)
  | none => .next s

/-! ### Loads -/

/-- What a cube load meets at a source sector. -/
inductive LoadStop where
  | fault (detail : Nat) (sec : Nat)
  | wait (va : Option DWord)
  deriving DecidableEq, Repr

/-- The source sectors of a load, read in rising order, those after one that faults too; the first fault, or what the load
waits for. -/
def State.loadSources (s : State) (core ctx : Nat) : List Nat → State × List (Nat × Got) × Option LoadStop
  | [] => (s, [], none)
  | sec :: r =>
    let va : DWord := BitVec.ofNat 64 (32 * sec)
    match s.translate core ctx va false 32 with
    | (s, .migrate) => (s, [], some (.wait (some va)))
    | (s, .wait) => (s, [], some (.wait none))
    | (s, .fault d) =>
      (match s.loadSources core ctx r with
        | (s, l, some (.wait x)) => (s, l, some (.wait x))
        | (s, l, _) => (s, l, some (.fault d sec)))
    | (s, .ok pa) =>
      let (s, g) := s.engineGet (.seq core) core none pa
      let (s, l, x) := s.loadSources core ctx r
      (s, (sec, g) :: l, x)

/-- The byte pairs (destination in its store, source address) of a load (R304, R305, R285, R287). -/
def CubeOp.pairs (o : CubeOp) (m n : Nat) : List (Nat × Nat) :=
  let el (dst src es : Nat) : List (Nat × Nat) := (List.range es).map fun i => (dst + i, (src + i) % 2 ^ 64)
  match o with
  | .ldb plane size rows va pitch _ _ =>
    let es := if size then 2 else 1
    (List.range n).flatMap fun c => (List.range rows.toNat).flatMap fun k =>
      el (c * 65536 + (if plane then 32768 else 0) + k * es) (va.toNat + k * pitch.toNat + c * es) es
  | .scale which count va pitch _ _ =>
    if which = 0 then
      (List.range m).flatMap fun r => (List.range count.toNat).flatMap fun b =>
        el (r * 4096 + 2 * b) (va.toNat + r * pitch.toNat + 2 * b) 2
    else if which = 1 then
      (List.range n).flatMap fun c => (List.range count.toNat).flatMap fun b =>
        el (524288 + c * 4096 + 2 * b) (va.toNat + b * pitch.toNat + 2 * c) 2
    else (List.range count.toNat).flatMap fun b => el (1048576 + 2 * b) (va.toNat + 2 * b) 2
  | _ => []

/-- One destination sector written as the ferry writes it (R277); the data of a poisoned sector are free values. -/
def Store.engine (m : Store) (fresh : Nat) (now : Stamp) (sec : Nat) (d : CopyData) : Store :=
  if d.bad then
    ((m.setBytes (32 * sec) ((List.range 32).map fun i => Config.freeByte (fresh + i))).setStamp sec
      (StampRule.apply (.normal d.stamp) now (m.stamp sec) (coversSector d.ws sec))).setBad sec true
  else m.putSector now sec d.ws (.normal d.stamp)

/-- The destination store of a load, changed. -/
def Cube.loadStore (c : Cube) (o : CubeOp) (f : Store → Store) : Cube :=
  match o with
  | .ldb _ _ _ _ _ _ _ => { c with stratum := f c.stratum }
  | _ => { c with scale := f c.scale }

/-- The writes of a load: all, or after a translation fault each destination sector old or new (R300). -/
def State.loadWrites (s : State) (cl : Nat) (o : CubeOp) (now : Stamp) (all : Bool) (pairs : List (Nat × Nat))
    (got : List (Nat × Got)) : List Nat → State
  | [] => s
  | sec :: r =>
    let ps := pairs.filter fun p => p.1 / 32 == sec
    let srcs := sortNat (ps.map fun p => p.2 / 32)
    let have' := srcs.all fun x => got.any fun g => g.1 == x
    let d := copyData now ps (got.filter fun g => srcs.contains g.1)
    let t := { s with fresh := s.fresh + 33 }
    let w := t.onCube cl fun c => c.loadStore o fun m => m.engine (s.fresh + 1) now sec d
    (if all then w else if have' && Config.freeBit s.fresh then w else t).loadWrites cl o now all pairs got r

/-- A whole load in one step (R304, R305, R300). A stale one writes nothing (R253); its check counts once, not again while a
refire waits for room (R252). -/
def State.cubeLoad (s : State) (cl : Nat) (b : Block) (c : Cube) (o : CubeOp) (bnd : BitVec 4) : State :=
  let core := controlCore cl
  let now := s.now b.ctx
  let pairs := o.pairs c.m.toNat c.n.toNat
  let dsts := (sectorsOf (pairs.map (·.1))).reverse
  let secs := sortNat (pairs.map fun p => p.2 / 32)
  match s.loadSources core b.ctx secs with
  | (_, _, some (.wait x)) => s.holdMove b.ctx x
  | (t, got, some (.fault d sec)) =>
    (t.loadWrites cl o now false pairs got dsts).onCube cl fun c => c.defer 0x22 d (BitVec.ofNat 64 (32 * sec)) o.opcode 0
  | (t, got, none) =>
    let fails := got.filter fun g => t.boundFails b.ctx bnd.toNat g.2.stamp
    let t0 := t
    let t := if fails.isEmpty then t else t.boundHit b.ctx bnd.toNat
    let act := (t.ctx b.ctx).boundAct bnd.toNat
    match fails, act with
    | f :: _, .trap =>
      t.onCube cl fun c => c.defer 0x30 (freshDetail 0 false bnd.toNat) (BitVec.ofNat 64 (32 * f.1)) o.opcode 0
    | f :: _, .refire =>
      (match t.refire b.ctx (BitVec.ofNat 64 (32 * f.1)) c.refires (t.prioOf b.node) with
        | (t, .wait) => { t with ctxs := t0.ctxs }
        | (t, .on node) => t.onCube cl fun c => { c with refires := c.refires + 1, refireOn := some node }
        | (t, .escalate x) =>
          t.onCube cl fun c => c.defer 0x30 (freshDetail x false bnd.toNat) (BitVec.ofNat 64 (32 * f.1)) o.opcode 0)
    | _, _ =>
      let t := (t.loadWrites cl o now true pairs got dsts).onCube cl Cube.opDone
      match got.find? fun g => g.2.bad with
      | some g => t.onCube cl fun c => c.defer 0x23 0 (BitVec.ofNat 64 (32 * g.1)) o.opcode 0
      | none => t

/-- CUBE_LOAD_COMPLETION (R304, R305). -/
def execCubeLoadCompletion (cl : Nat) (s : State) : Host.Outcome State Fault Refusal :=
  let c := s.cube cl
  match s.controlBlock? cl, c.exec with
  | some b, some x =>
    if c.refireOn.isSome then .next s
    else match x.op with
      | .ldb _ _ _ _ _ _ bnd => .next (s.cubeLoad cl b c x.op bnd)
      | .scale _ _ _ _ _ bnd => .next (s.cubeLoad cl b c x.op bnd)
      | _ => .next s
  | _, _ => .next s

/-! ### Arithmetic (R291 to R293) -/

def FVal.isNan (v : FVal) : Bool := match v with
  | .nan => true
  | _ => false
def FVal.isInf (v : FVal) : Bool := match v with
  | .inf _ => true
  | _ => false
def FVal.isZero (v : FVal) : Bool := match v with
  | .fin _ 0 _ => true
  | _ => false

/-- The product of factors. -/
def fprod (l : List FVal) : FVal :=
  match l with
  | [] => .fin false 1 0
  | x :: r => r.foldl FVal.mul x

/-- The exact sum of values: the first is taken as it stands, so a sum of −0 is −0. -/
def fsum (l : List FVal) : FVal :=
  match l with
  | [] => .fin false 0 0
  | x :: r => r.foldl FVal.add x

/-- R292: P of one block and cell: `terms` the factors of each triple product, `sc` the scales in use. -/
def cellP (sat : Bool) (terms : List (List FVal)) (sc : List FVal) : Nat :=
  let clash (l : List FVal) : Bool := l.any FVal.isZero && l.any FVal.isInf
  if terms.any (·.any FVal.isNan) || sc.any FVal.isNan then fp32.nan
  else if terms.any clash || clash sc then fp32.nan
  else
    let sum := fsum (terms.map fprod)
    if sum.isNan then fp32.nan
    else if sum.isZero && sc.any FVal.isInf then fp32.nan
    else if sum.isInf || sc.any FVal.isInf then
      fp32.overflow false (sc.foldl (fun a x => a ^^ x.neg?) sum.neg?)
    else fp32.round sat (fprod (sum :: sc))

/-- R291, R292: the second rounding. -/
def cellD (sat : Bool) (d : Word) (p : Nat) : Word :=
  BitVec.ofNat 32 (fp32.round sat ((fp32.val d.toNat).add (fp32.val p)))

/-- ceil(log2 n) of n ≥ 1. -/
def clog2 (n : Nat) : Nat := if n ≤ 1 then 0 else Nat.log2 (n - 1) + 1

/-- R293: emax of a format code. -/
def cubeEmax (c : Nat) : Int := if c = 0 then 8 else if c = 1 then 15 else 127

/-- R293: P exceeds its bound. `fmts` are the formats of the operands in use. -/
def suspectP (fmts : List Nat) (cnt : Nat) (terms : List (List FVal)) (sc : List FVal) (p : Nat) : Bool :=
  let fine (v : FVal) : Bool := !v.isNan && !v.isInf
  terms.all (·.all fine) && (sc.all fun v => fine v && !v.isZero) && !(fp32.val p).isZero &&
    (let bnd : Int := (clog2 cnt : Int) + fmts.foldl (fun a c => a + cubeEmax c + 1) 0 + sc.foldl (fun a v => a + v.log2? + 1) 0
     bnd < (fp32.val p).log2?)

/-! ### A step of CUBE.MUL -/

/-- A whole sector copied: data, stamp and poison unchanged (R310). -/
def Store.copySector (m : Store) (i : Nat) (g : Got) : Store := ((m.setBytes (32 * i) g.bytes).setStamp i g.stamp).setBad i g.bad

/-- R313, R307: the operand buffer as a step reads it: each sector that a FEED has written without synchronisation is old or new, a
free choice (log 8). -/
def State.pickObuf (s : State) (c : Cube) : State × Store :=
  c.obufOld.foldl (fun a e => a.1.choose a.2 [a.2.copySector e.1 ⟨e.2.1, e.2.2.1, e.2.2.2⟩]) (s, c.obuf)

/-- Where a stream reads its panel of this step: none where its wheel holds no stage (R309). -/
def Cube.streamBase (c : Cube) (d : DWord) (panel b pos : Nat) : Option Nat :=
  if srcWheel d then
    let w := c.wheel (srcNum d)
    if w.held = 0 then none else some (w.desc.base + w.ps * 2 ^ w.desc.size + pos * panel)
  else some (srcOff d + b * panel)

/-- What a step reads: base addresses of its streams, and the registers in force. -/
structure StepCtx where
  c : Cube
  b : Nat
  cnt : Nat
  a : Nat
  g : Nat

namespace StepCtx

def mode (x : StepCtx) : BitVec 16 := x.c.mode
def ea (x : StepCtx) : Nat := cubeSize (modeFmtA x.mode)
def eb (x : StepCtx) : Nat := cubeSize (modeFmtB x.mode)
def eg (x : StepCtx) : Nat := cubeSize (modeFmtG x.mode)

/-- The buffer address of element j of row m of the A stream (R286, R295). -/
def aAddr (x : StepCtx) (m j : Nat) : Nat :=
  if winEn x.c.win then
    let ch := winC x.c.wga
    let t := 32 * x.b / ch
    let c0 := 32 * x.b % ch
    let kw := winKw x.c.win + 1
    let oy := m / winOw x.c.wga
    let ox := m % winOw x.c.wga
    let yy := oy * winS x.c.win + t / kw * winD x.c.win
    let xx := ox * winS x.c.win + t % kw * winD x.c.win
    x.a + ((yy * winTw x.c.wga + xx) * ch + c0 + j) * x.ea
  else x.a + m * 32 * x.ea + j * x.ea

/-- The buffer address of element j of the G stream: row m in GMK, the vector in GK. -/
def gAddr (x : StepCtx) (m j : Nat) : Nat := if modeOp x.mode = 2 then x.g + m * 32 * x.eg + j * x.eg else x.g + j * x.eg

/-- The stratum address of bb(k, n), k = 32b + j (R285, R289). -/
def bAddr (x : StepCtx) (n j : Nat) : Nat :=
  let k := 32 * x.b + j
  n * 65536 + (if modeOp x.mode = 1 && modeKr x.mode then k / x.c.kc.toNat else k) * x.eb
/-- The stratum address of gg(k, n) in GKN. -/
def pAddr (x : StepCtx) (n j : Nat) : Nat :=
  let k := 32 * x.b + j
  n * 65536 + 32768 + (if modeKr x.mode then k % x.c.kc.toNat else k) * x.eg

def saAddr (x : StepCtx) (m : Nat) : Nat := m * 4096 + 2 * x.b
def sbAddr (x : StepCtx) (n : Nat) : Nat := 524288 + n * 4096 + 2 * x.b
def sgAddr (x : StepCtx) : Nat := 1048576 + 2 * x.b

/-- The value of an element of a format at an address of a store. -/
def el (st : Store) (fmt a : Nat) : FVal := (cubeFmt fmt).val (st.nat a (cubeSize fmt))

/-- The G factor of element j of cell (m, n), if the mode has one. -/
def gEl (x : StepCtx) (m n j : Nat) : List FVal :=
  match modeOp x.mode with
  | 0 => []
  | 1 => [el x.c.stratum (modeFmtG x.mode) (x.pAddr n j)]
  | _ => [el x.c.obuf (modeFmtG x.mode) (x.gAddr m j)]

/-- The factors of the triple products of a cell, in increasing k. -/
def terms (x : StepCtx) (m n : Nat) : List (List FVal) :=
  (List.range x.cnt).map fun j =>
    el x.c.obuf (modeFmtA x.mode) (x.aAddr m j) :: el x.c.stratum (modeFmtB x.mode) (x.bAddr n j) :: x.gEl m n j

/-- The scales in use of a cell (R291). sG is a scale of G: BIL ignores SG (R288). -/
def scales (x : StepCtx) (m n : Nat) : List FVal :=
  (if modeSa x.mode then [el x.c.scale 2 (x.saAddr m)] else []) ++
    (if modeSb x.mode then [el x.c.scale 2 (x.sbAddr n)] else []) ++
    (if modeSg x.mode && modeOp x.mode != 0 then [el x.c.scale 2 x.sgAddr] else [])

def rows (x : StepCtx) : List Nat := List.range x.c.m.toNat
def cols (x : StepCtx) : List Nat := List.range x.c.n.toNat

/-- The sectors a step reads, with their stamps and poison, in the order of R298. -/
def sectors (x : StepCtx) : List (Stamp × Bool) :=
  let js := List.range x.cnt
  let of (st : Store) (l : List Nat) : List (Stamp × Bool) :=
    (sortNat (l.map (· / 32))).map fun i => (st.stamp i, st.bad i)
  of x.c.obuf (x.rows.flatMap fun m => js.map fun j => x.aAddr m j) ++
    (match modeOp x.mode with
      | 0 => []
      | 1 => of x.c.stratum (x.cols.flatMap fun n => js.map fun j => x.pAddr n j)
      | _ => of x.c.obuf (x.rows.flatMap fun m => js.map fun j => x.gAddr m j)) ++
    of x.c.stratum (x.cols.flatMap fun n => js.map fun j => x.bAddr n j) ++
    (if modeSa x.mode then of x.c.scale (x.rows.map x.saAddr) else []) ++
    (if modeSb x.mode then of x.c.scale (x.cols.map x.sbAddr) else []) ++
    (if modeSg x.mode && modeOp x.mode != 0 then of x.c.scale [x.sgAddr] else [])

/-- The formats of the operands in use. -/
def fmts (x : StepCtx) : List Nat :=
  modeFmtA x.mode :: modeFmtB x.mode :: (if modeOp x.mode = 0 then [] else [modeFmtG x.mode])

/-- The bank's values after the step, and how many P exceed their bound. -/
def cells (x : StepCtx) (d : Tbl Word) : Tbl Word × Nat :=
  x.rows.foldl (fun acc m => x.cols.foldl (fun (acc : Tbl Word × Nat) n =>
    let t := x.terms m n
    let sc := x.scales m n
    let p := cellP (modeSat x.mode) t sc
    let key := m * 128 + n
    (Tbl.set acc.1 key (cellD (modeSat x.mode) (Tbl.getD acc.1 key 0) p),
      if suspectP x.fmts x.cnt t sc p then acc.2 + 1 else acc.2)) acc) (d, 0)

end StepCtx

/-- R169, R309: a drain arrival of the sequencer at the present stage of a wheel; discards are counted. -/
def State.cubeDrain (s : State) (cl ctx i : Nat) : State :=
  let c := s.cube cl
  let w := c.wheel i
  match w.drainArrive w.ps with
  | some w => s.setCube cl (c.setWheel i w)
  | none => s.ctxCount ctx .wheelDiscard

/-- R169, R309: a fill arrival at a stage of an operand-buffer wheel; a discard is counted in the core of the FEED. -/
def State.cubeFill (s : State) (cl core ctx i st : Nat) : State :=
  let c := s.cube cl
  match (c.wheel i).fillArrive st with
  | some w => s.setCube cl (c.setWheel i w)
  | none => s.wheelDiscard core ctx

/-- Panels of a stream in one stage of its wheel. -/
def Cube.perStage (c : Cube) (d : DWord) (panel : Nat) : Nat := 2 ^ (c.wheel (srcNum d)).desc.size / panel

/-- The position of a stream after a step: the last panel needed from a stage makes a drain arrival (R309). -/
def State.streamNext (s : State) (cl ctx : Nat) (d : DWord) (panel pos : Nat) (last : Bool) : State × Nat :=
  if srcWheel d then
    if last || pos + 1 = (s.cube cl).perStage d panel then (s.cubeDrain cl ctx (srcNum d), 0) else (s, pos + 1)
  else (s, pos + 1)

/-- R297, R306: what follows the last step of a CUBE.MUL. -/
def Cube.mulEnd (c : Cube) (gd : DWord) (fin : BitVec 2) (rel : Option (BitVec 3)) : Cube :=
  let b := c.bank c.act
  if fin = 1 then
    { (c.setBank c.act { b with st := .full, xc := gd.toNat, dcount := 0, nb := c.n.toNat }) with act := !c.act }.opDone
  else if fin = 2 then
    let i : ImageDrain := { bank := c.act, va := gd, m := c.m.toNat, n := c.n.toNat, rel := rel, written := false }
    { (c.setBank c.act { b with st := .draining }) with act := !c.act, image := c.image ++ [i] }.opDone
  else c.opDone

/-- One step of CUBE.MUL (R291, R297 to R299, R306). DESIGN CHOICE, log 24: of a step that reads a poisoned and a stale sector the
poison is taken first, and it is no bound hit. -/
def State.mulStep (s : State) (cl : Nat) (blk : Block) (x : CubeExec) (gd ga gb : DWord) (fin : BitVec 2)
    (rel : Option (BitVec 3)) (bnd : BitVec 4) : State :=
  let c := s.cube cl
  let ctx := blk.ctx
  let k := c.k.toNat
  let nb := (k + 31) / 32
  let useG := modeOp c.mode = 2 ∨ modeOp c.mode = 3
  let pa := panelSize true (cubeSize (modeFmtA c.mode))
  let pg := panelSize (modeOp c.mode == 2) (cubeSize (modeFmtG c.mode))
  let baseA := if winEn c.win then some (srcOff ga) else c.streamBase ga pa x.step x.a.panel
  let baseG := if useG then c.streamBase gb pg x.step x.g.panel else some 0
  match baseA, baseG, (c.bank c.act).open? with
  | some a, some g, true =>
    let (s, o) := s.pickObuf c
    let sc : StepCtx := ⟨{ c with obuf := o }, x.step, min 32 (k - 32 * x.step), a, g⟩
    let bank := c.bank c.act
    let secs := sc.sectors
    let fails := secs.any fun p => s.boundFails ctx bnd.toNat p.1
    if secs.any (·.2) then
      s.setCube cl ((c.setBank c.act { bank with st := .active, poison := true }).defer 0x23 0 0 0x3D x.step)
    else
      let s := if fails && !x.marked then s.boundHit ctx bnd.toNat else s
      let act := (s.ctx ctx).boundAct bnd.toNat
      if fails && act != .mark then
        s.setCube cl (c.defer 0x30 (freshDetail (if act = .refire then 3 else 0) false bnd.toNat) 0 0x3D x.step)
      else
        let (d, sus) := sc.cells bank.d
        let bank := { bank with
          d := d
          st := .active
          stamp := olderAll (s.now ctx) (bank.stamp :: secs.map (·.1))
          suspect := bank.suspect || sus != 0 }
        let last := x.step + 1 = nb
        let s := s.setCube cl (c.setBank c.act bank)
        let s := if sus = 0 then s else s.count (coreCtr (controlCore cl) 3) sus
        let (s, posA) := if winEn c.win then (s, 0) else s.streamNext cl ctx ga pa x.a.panel last
        let (s, posG) := if useG then s.streamNext cl ctx gb pg x.g.panel last else (s, 0)
        let sus := x.sus || sus != 0
        if last then
          let s := s.onCube cl fun c => c.mulEnd gd fin rel
          if sus && ((s.ctx ctx).suspact == 1 || (s.ctx ctx).suspact == 3) then
            s.onCube cl fun c => c.defer 0x63 0 0 0x3D x.step
          else s
        else
          s.onCube cl fun c => { c with
            exec := some { x with step := x.step + 1, a := ⟨posA⟩, g := ⟨posG⟩, marked := x.marked || fails, sus := sus } }
  | _, _, _ => s

/-- CUBE_MUL_STEP (R291). -/
def execCubeMulStep (cl : Nat) (s : State) : Host.Outcome State Fault Refusal :=
  match s.controlBlock? cl, (s.cube cl).exec with
  | some b, some x =>
    match x.op with
    | .mul gd ga gb fin rel bnd => .next (s.mulStep cl b x gd ga gb fin rel bnd)
    | _ => .next s
  | _, _ => .next s

/-! ### Image drains -/

/-- R294, R299: a bank is consumed as poison. -/
def State.bankBad (s : State) (ctx : Nat) (b : Bank) : Bool := b.poison || (b.suspect && (s.ctx ctx).suspact == 2)

/-- The bytes of an image (R306). -/
def imageBytes (i : ImageDrain) (b : Bank) : List (Nat × Byte) :=
  (List.range i.m).flatMap fun m => (List.range i.n).flatMap fun n =>
    atAddr ((i.va.toNat + 512 * m + 4 * n) % 2 ^ 64) (leBytes (Tbl.getD b.d (m * 128 + n) 0).toNat 4)

/-- Whether the sectors of a write can be reached: the first that cannot, in rising order. -/
def State.reachSectors (s : State) (core ctx : Nat) : List Nat → State × Option LoadStop
  | [] => (s, none)
  | sec :: r =>
    let va : DWord := BitVec.ofNat 64 (32 * sec)
    match s.translate core ctx va true 32 with
    | (s, .ok _) => s.reachSectors core ctx r
    | (s, .fault d) => (s, some (.fault d sec))
    | (s, .migrate) => (s, some (.wait (some va)))
    | (s, .wait) => (s, some (.wait none))

/-- Sectors of a bank's drain written as agents `who`, heading the releases `rels`: all, or each old or new. A slot that no block has
makes every stash snooped. -/
def State.drainWrites (s : State) (who : List Who) (rels : List Release) (core ctx : Nat) (now : Stamp) (all bad : Bool) (st : Stamp) (ws : List (Nat × Byte)) :
    List Nat → State
  | [] => s
  | sec :: r =>
    let d : CopyData := ⟨ws.filter fun p => p.1 / 32 == sec, st, bad⟩
    let t := if all then s else { s with fresh := s.fresh + 1 }
    (if all || Config.freeBit s.fresh then t.engineWrite who rels core 16 ctx now sec d (.normal st) else t).drainWrites who rels
      core ctx now all bad st ws r

/-- The releases that the writes of a drain by agent `w` head until all of them are made: a placeholder (R238). -/
def drainRels (rel : Option (BitVec 3)) (w : Who) (clock : Nat) : List Release :=
  match rel with
  | some scope => [⟨scope, w, [clock]⟩]
  | none => []

/-- The release of a drain, once its writes are made (R238). -/
def State.drainRel (s : State) (rel : Option (BitVec 3)) (w : Who) (by' : List Who) : State :=
  match rel, by' with
  | some scope, x :: _ => s.headsOf w x scope
  | _, _ => s

/-- The bank of an image drain that is over becomes EMPTY (R297). -/
def Cube.imageDone (c : Cube) (i : ImageDrain) : Cube := { (c.setBank i.bank Bank.empty) with image := c.image.drop 1 }

/-- The writes of image drains stand under tag 1 in the control thread's counters until the drain is over (R306). -/
def relClass (rel : Option (BitVec 3)) : Nat :=
  match rel with
  | some sc => max 2 (classOf sc)
  | none => 2

/-- IMAGE_DRAIN_COMPLETION (R306, R300): the writes, then the completion once they are acknowledged. DESIGN CHOICE, log 24: a
fault of an image drain does not discard the image drain of a later CUBE.MUL. -/
def execImageDrainCompletion (cl : Nat) (s : State) : Host.Outcome State Fault Refusal :=
  let c := s.cube cl
  let core := controlCore cl
  match s.controlBlock? cl, c.image with
  | some b, i :: _ =>
    let acked (s : State) : Bool := match s.controlBlock? cl with
      | some b => (b.th.outst.filter fun p => p.1 == 1).all fun p => relClass i.rel ≤ p.2
      | none => true
    let finish (s : State) : State :=
      if acked s then
        let s := match i.rel with
          | some scope => s.system (·.covers (.seq core)) scope
          | none => s
        (s.onCube cl (·.imageDone i)).onThread core 0 fun t => { t with outst := t.outst.map fun p => (0, p.2) }
      else s
    if i.written then .next (finish s)
    else
      let bank := c.bank i.bank
      let ws := imageBytes i bank
      let secs := sortNat (ws.map fun p => p.1 / 32)
      let now := s.now b.ctx
      let bad := s.bankBad b.ctx bank
      let rels := drainRels i.rel (.seq core) s.clock
      let rel (s : State) : State := s.drainRel i.rel (.seq core) [.thread core 0]
      (match s.reachSectors core b.ctx secs with
        | (t, none) =>
          let t := (rel (t.drainWrites [.seq core] rels core b.ctx now true bad bank.stamp ws secs)).onThread core 0 fun th =>
            { th with outst := th.outst ++ [(1, 2)] }
          .next (finish (t.onCube cl fun c => { c with image := c.image.map fun j => if j = i then { j with written := true } else j }))
        | (_, some (.wait x)) => .next (s.holdMove b.ctx x)
        | (t, some (.fault d sec)) =>
          let t := rel (t.drainWrites [.seq core] rels core b.ctx now false bad bank.stamp ws secs)
          let (t, step) := t.freeHalf
          .next (t.onCube cl fun c =>
            let c' : Cube := { (c.setBank i.bank { bank with st := .full, xc := 1, dcount := 0, nb := i.n }) with
              image := c.image.drop 1 }
            c'.defer 0x22 d (BitVec.ofNat 64 (32 * sec)) 0x3D (step % 4096)))
  | _, _ => .next s

end Sys2Proof.Machine
end

