-- ==== Sys2Proof/Machine/CubeFeed.lean ====
section
/-! DEFINITION. FEED and DRAIN of the feeding blocks (R310, R311), their completions, and the bank's drain arrivals
(R297). -/

namespace Sys2Proof.Machine

/-- A command of a core's FEED and DRAIN slots: its id. -/
def EngCmd.id (e : EngCmd) : Nat :=
  match e with
  | .feed id _ _ _ _ _ _ _ _ _ _ _ _ _ _ => id
  | .drain id _ _ _ _ _ => id

/-- R310: a core holds at most 8 FEED and DRAIN commands. -/
def Core.engRoom (c : Core) : Bool := c.eng.length < 8

def State.dropEng (s : State) (core id : Nat) : State :=
  let c := s.core core
  s.setCore core { c with eng := c.eng.filter fun e => e.id != id }

/-- A command enters the slots of its core under a new id. -/
def State.addEng (s : State) (core : Nat) (f : Nat → EngCmd) : State :=
  let c := s.core core
  { s with clock := s.clock + 1 }.setCore core { c with eng := c.eng ++ [f s.clock] }

/-- One side of a command fixed at admission (R275): its place in the scratchpad, the global base unchanged. -/
def Block.fixSide (b : Block) (x : Side) (wheel : Option Word) (dst : Bool) : Option Side :=
  match wheel with
  | none => some x
  | some wa => (b.place wa dst).map fun p => Side.plain p.1

/-! ### FEED -/

/-- The destination of a FEED (R310): whether it lies in the operand buffer, its alignment, its place when admitted. -/
def Cube.feedFits (c : Cube) (dw : Bool) (vo : Word) (size : Nat) : Bool :=
  if dw then (c.wheel (bits vo.toNat 31 30)).fits vo size else vo.toNat + size ≤ 2 ^ 20

/-- The offset, and the wheel and fixed stage of its fill arrival. -/
def Cube.feedPlace (c : Cube) (dw arr : Bool) (vo : Word) : Option (Nat × Option (Nat × Nat)) :=
  if dw then
    let i := bits vo.toNat 31 30
    ((c.wheel i).place vo true).map fun p => (p.1, if arr && bitAt vo.toNat 29 then some (i, p.2) else none)
  else some (vo.toNat, none)

/-- What both forms of FEED do from L0's destination on: the tests of R310, the waits, and the command. A gang that waits is tested
again from admission on (R313). A stage that is admitted has been released by its drain arrivals (R312). -/
def Env.feed (e : Env) (vo : BitVec 7) (dw arr : Bool) (size : Nat) (src : Option (Side × Option Word))
    (stale : State × Option LateCause) (mk : Nat → Nat → Option (Nat × Nat) → Option Side → EngCmd) : Res :=
  let dst := lane (e.reg vo.toNat).lanes e.lowActive
  let c := e.s.cube (clusterOf e.core)
  let srcFits := match src with
    | some (x, w) => e.b.sideFits x w size
    | none => true
  let srcAligned := match src with
    | some (x, w) => sideAligned x w 32
    | none => true
  let again := e.grp.wait == .feedRoom
  if !again && !e.b.feeding then .fault e.s 0x62 0
  else if !again && !(c.feedFits dw dst size && srcFits) then .fault e.s 0x24 0
  else if !again && !(dst.toNat % 32 == 0 && srcAligned) then .fault e.s 0x20 0
  else match if again then (e.s, none) else stale with
    | (s, some x) => .late s x
    | (s, none) =>
      let side : Option (Option Side) := match src with
        | some (x, w) => (e.b.fixSide x w false).map some
        | none => some none
      match c.feedPlace dw arr dst, side, (e.s.core e.core).engRoom with
      | some (off, st), some x, true =>
        let s := if dw then s.join [.before e.core e.slot e.gang true] (·.covers (.seq (controlCore (clusterOf e.core)))) else s
        .done (s.addEng e.core fun id => mk id off st x) none
      | _, _, _ => .wait s .feedRoom

/-- FEED, register form (R310): every present lane is read; sector i takes Older of two slice stamps. -/
def execFeedRegisterForm (o : FeedRegOp) (s : State) : Host.Outcome State Fault Refusal :=
  wide s ⟨o.s, o.c, .mem, 2, false, [.v o.va, .v o.vo]⟩ fun e =>
    if e.act = 0 then .done e.s none
    else
      let v := e.reg o.va.toNat
      let fails := v.stamps.toList.any (e.s.boundFails e.ctx o.bnd.toNat)
      e.feed o.vo o.dw o.arr 128 none (e.storeBound o.bnd.toNat e.s fails) fun id off st _ =>
        .feed id e.slot e.gang e.m e.pc none false v.lanes
          ((List.range 4).map fun i => older e.now (stampAt v.stamps (2 * i)) (stampAt v.stamps (2 * i + 1))) off 4 0 none st []

/-- FEED, memory form (R310). -/
def execFeedMemoryForm (o : FeedMemOp) (s : State) : Host.Outcome State Fault Refusal :=
  wide s ⟨o.s, o.c, .mem, 2, false, [.v o.va, .v o.vo]⟩ fun e =>
    if e.act = 0 then .done e.s none
    else
      let n := o.len.toNat + 1
      let acq := o.ord.getLsbD 0
      let tail := if acq then (e.g.pend.filter fun p => p.isLoad && !p.returned).map (·.id) else []
      e.feed o.vo o.dw o.arr (32 * n) (some (e.ferrySide o.ssel o.va)) (e.s, none) fun id off st x =>
        .feed id e.slot e.gang e.m e.pc x (!acq && o.ssel != 15) (Vector.replicate 32 0) [] off n o.bnd (if acq then some o.scope else none) st tail

/-- The source sectors of a FEED: number of a global sector, or of a sector of the scratchpad. -/
def Side.sectors (x : Side) (n : Nat) : List Nat :=
  match x with
  | .global va => (List.range n).map fun i => (va + BitVec.ofNat 64 (32 * i)).toNat / 32
  | .plain off => (List.range n).map fun i => off / 32 + i

/-- What stops a FEED at a source sector. -/
inductive FeedStop where
  | late (c : LateCause)
  | wait (va : Option DWord)
  deriving DecidableEq, Repr

/-- Source sectors of a FEED read in order by agent `w`, each checked against its bound (R310, R252); the flag says that a check has
failed. -/
def State.feedReads (s : State) (w : Who) (core slot ctx : Nat) (bnd : Nat) (global weak : Bool) :
    List Nat → State × List Got × Option FeedStop × Bool
  | [] => (s, [], none, false)
  | sec :: r =>
    let va : DWord := BitVec.ofNat 64 (32 * sec)
    let read (s : State) : State × Except FeedStop Got :=
      if global then
        match s.translate core ctx va false 32 with
        | (s, .ok pa) =>
          let (s, g) := s.engineGet w core none pa
          (s, .ok g)
        | (s, .fault d) => (s, .error (.late (.translation d)))
        | (s, .migrate) => (s, .error (.wait (some va)))
        | (s, .wait) => (s, .error (.wait none))
      else match s.engineRead w core slot ctx false weak sec with
        | (s, .ok g) => (s, .ok g)
        | (s, .error _) => (s, .error (.wait none))
    match read s with
    | (s, .error x) => (s, [], some x, false)
    | (s, .ok g) =>
      let fails := s.boundFails ctx bnd g.stamp
      if fails && (s.ctx ctx).boundAct bnd != .mark then
        (s, [], some (.late (s.boundLate ctx bnd false (if global then some va else none))), true)
      else
        let (s, l, x, f) := s.feedReads w core slot ctx bnd global weak r
        (s, g :: l, x, f || fails)

/-- A sector of the operand buffer written: a step of the sequencer may go on to read it as it stood, unless a fill arrival (`arr`)
says that it is there (R312, R313). -/
def Cube.feedSector (c : Cube) (arr : Bool) (i : Nat) (g : Got) : Cube :=
  { c with
    obuf := c.obuf.copySector i g
    obufOld := if arr then Tbl.erase c.obufOld i
      else if (Tbl.get? c.obufOld i).isSome then c.obufOld
      else Tbl.set c.obufOld i (c.obuf.bytesAt (32 * i) 32, c.obuf.stamp i, c.obuf.bad i) }

/-- Sectors written to the operand buffer: all, or each old or new where the command stops (log 8). -/
def State.feedWrites (s : State) (cl : Nat) (all arr : Bool) (i : Nat) (l : List Got) : State :=
  match l with
  | [] => s
  | g :: r =>
    let t := if all then s else { s with fresh := s.fresh + 1 }
    let w := t.onCube cl (·.feedSector arr i g)
    (if all || Config.freeBit s.fresh then w else t).feedWrites cl all arr (i + 1) r

/-- The tail reads of a FEED with `.acq` have returned (R236). -/
def tailOver (g : Option Gang) (tail : List Nat) : Bool :=
  match g with
  | some g => !(g.pend.any fun p => !p.returned && tail.contains p.id)
  | none => true

/-- A FEED performed (R310): its `.acq` comes before its reads, its transfers before later cube fences of the gang (R238), and what
its fill arrival releases before the sequencer's reads (R312). A stale one writes nothing (R253). -/
def State.feedDone (s : State) (core id slot gang : Nat) (mask : BitVec 8) (ord : Word) (b : Block) (src : Option Side) (weak : Bool)
    (data : Vector Word 32) (st : List Stamp) (dst len : Nat) (bnd : BitVec 4) (acq : Option (BitVec 3))
    (arr : Option (Nat × Nat)) : State :=
  let cl := clusterOf core
  let me := Who.before core slot gang true
  let s := match acq with
    | some scope => s.engineSync me (groupWho core slot gang mask) (Who.ofGang core slot gang) scope
    | none => s
  let arrive (s : State) : State :=
    let s := s.join [.after core slot gang true] (·.covers me)
    match arr with
    | some (i, p) => (s.join [.seq (controlCore cl)] (·.covers me)).cubeFill cl core b.ctx i p
    | none => s
  let (t, l, stop, failed) := match src with
    | none =>
      (s, (List.range 4).map fun i =>
        (⟨(List.range 8).flatMap fun k => leBytes (lane data (8 * i + k)).toNat 4, st.getD i ageless, false⟩ : Got), none, false)
    | some x => s.feedReads me core slot b.ctx bnd.toNat x.isGlobal weak (x.sectors len)
  let t := if failed then t.boundHit b.ctx bnd.toNat else t
  match stop with
  | some (.wait x) => s.holdMove b.ctx x
  | some (.late c) =>
    let t := match c with
      | .translation _ => t.feedWrites cl false arr.isSome (dst / 32) l
      | _ => t
    (t.dropEng core id).raiseLate core slot gang c ord mask
  | none => arrive ((t.feedWrites cl true arr.isSome (dst / 32) l).dropEng core id)

/-- FEED_COMPLETION (R310, R169). -/
def execFeedCompletion (core id : Nat) (s : State) : Host.Outcome State Fault Refusal :=
  match (s.core core).eng.find? (·.id == id) with
  | some (.feed id slot gang mask ord src weak data st dst len bnd acq arr tail) =>
    match s.block? core slot with
    | some b =>
      if tailOver (s.gang? core slot gang) tail then
        .next (s.feedDone core id slot gang mask ord b src weak data st dst len bnd acq arr)
      else .next s
    | none => .next s
  | _ => .next s

/-! ### DRAIN -/

/-- R297, R311: a drain arrival: DCOUNT rises; at XC the bank becomes EMPTY and DP toggles. -/
def Cube.drainArrive (c : Cube) : Cube :=
  let b := c.bank c.dp
  if b.dcount + 1 = b.xc then { (c.setBank c.dp Bank.empty) with dp := !c.dp }
  else c.setBank c.dp { b with dcount := b.dcount + 1 }

/-- R297, R311, R312: the same of the cube of a core, after which the sequencer finds the bank: what the gang's transfers have done
happens before its operations. -/
def State.bankDrained (s : State) (core slot gang : Nat) : State :=
  (s.join [.seq (controlCore (clusterOf core))] (·.covers (.after core slot gang true))).onCube (clusterOf core) Cube.drainArrive

/-- R312: a DRAIN has read its bank: what the cube's operations have done, and what fences of kind cube have placed before it, happens
before what it writes. -/
def Env.drainMeet (e : Env) (s : State) : State :=
  s.join [.after e.core e.slot e.gang true] fun w =>
    w.covers (.seq (controlCore (clusterOf e.core))) || w.covers (.before e.core e.slot e.gang true)

/-- The tests that a DRAIN makes before its form's own (R311); `k` goes on with the bank. -/
def Env.drainTests (e : Env) (bnd : BitVec 4) (k : State → Bank → Res) : Res :=
  let c := e.s.cube (clusterOf e.core)
  let b := c.bank c.dp
  if !e.b.feeding then .fault e.s 0x62 0
  else if b.st ≠ .full then .wait e.s .cubeBank
  else
    let fails := e.s.boundFails e.ctx bnd.toNat b.stamp
    let s := if fails then e.s.boundHit e.ctx bnd.toNat else e.s
    if fails && (s.ctx e.ctx).boundAct bnd.toNat != .mark then .late s (s.boundLate e.ctx bnd.toNat false none) else k s b

/-- DRAIN of the cube, register form (R311, R299). -/
def execDrainCubeRegisterForm (o : DrainRegOp) (s : State) : Host.Outcome State Fault Refusal :=
  wide s ⟨o.s, o.c, .mem, 2, false, [.v o.vd]⟩ fun e =>
    if e.act = 0 then .done e.s none
    else e.drainTests o.bnd fun s b =>
      let bad := s.bankBad e.ctx b
      let p : Pend :=
        { Pend.new e.m e.pc
            (.lanes o.vd.toNat e.act
              [vec 32 fun i => Tbl.getD b.d (o.row.toNat * 128 + 32 * o.seg.toNat + i) 0]
              (Vector.replicate 32 b.stamp) (Vector.replicate 32 0)) 1 with
          fail := if bad then some .poison else none }
      let s := e.drainMeet s
      let s := if o.arr && !bad then s.bankDrained e.core e.slot e.gang else s
      .done (e.pend s p) none

/-- The bytes of an element converted by R149: FP32, BF16, FP16, E4M3, E5M2. -/
def drainBytes (fmt : BitVec 3) (sat : Bool) (x : Word) : List Byte :=
  let v := fp32.val x.toNat
  match fmt.toNat with
  | 0 => leBytes x.toNat 4
  | 1 => leBytes (bf16.narrow sat v) 2
  | 2 => leBytes (fp16.narrow sat v) 2
  | 3 => leBytes (e4m3.narrow sat v) 1
  | _ => leBytes (e5m2.narrow sat v) 1

/-- The size of an element of a DRAIN's format. -/
def drainSize (fmt : BitVec 3) : Nat := if fmt = 0 then 4 else if fmt.toNat ≤ 2 then 2 else 1

/-- The byte writes of a memory-form DRAIN from a base (R311). -/
def DrainMem.writes (o : DrainMemOp) (b : Bank) (base pitch : Nat) : List (Nat × Byte) :=
  (List.range (o.nrm1.toNat + 1)).flatMap fun r => (List.range b.nb).flatMap fun n =>
    atAddr ((base + r * pitch + n * drainSize o.fmt) % 2 ^ 64)
      (drainBytes o.fmt o.sat (Tbl.getD b.d ((o.row.toNat + r) * 128 + n) 0))

/-- A memory-form DRAIN written (R311, R298, R299), and the command that ends it. Under SUSPACT 10 a suspect bank is read as
a load reads poison (R294, R341). DESIGN CHOICE, log 32: the writes are made in the issuing step; a later access of the gang that no
fence of kind cube orders after them may still miss them (R238). -/
def Env.drainMem (e : Env) (o : DrainMemOp) (s : State) (b : Bank) (x : Side) (pitch : Nat) : Res :=
  let bad := b.poison
  let rel := if o.ord.getLsbD 1 then some o.scope else none
  let me := Who.after e.core e.slot e.gang true
  let s := e.drainMeet s
  let rels := drainRels rel me s.clock
  let finish (s : State) (global : Bool) : Res :=
    let s := s.drainRel rel me e.ws
    let s := if global then s.onGang e.core e.slot e.gang fun g => { g with outst := g.outst ++ [(s.clock + 1, 2)] } else s
    .done (s.addEng e.core fun id => .drain id e.slot e.gang e.m rel o.arr) none
  if b.suspect && (s.ctx e.ctx).suspact == 2 then .late s .poison
  else match x with
  | .global va =>
    let ws := DrainMem.writes o b va.toNat pitch
    let secs := sortNat (ws.map fun p => p.1 / 32)
    match s.reachSectors e.core e.ctx secs with
    | (t, none) => finish (t.drainWrites [me] rels e.core e.ctx e.now true bad b.stamp ws secs) true
    | (_, some (.wait none)) => .wait e.s .base
    | (t, some (.wait (some va))) => .late t (.migrate va)
    | (t, some (.fault d _)) => .late t (.translation d)
  | .plain off =>
    let ws := DrainMem.writes o b off pitch
    finish ((sortNat (ws.map fun p => p.1 / 32)).foldl (fun s sec =>
      s.engineScratch rels e.core e.slot e.now sec ⟨ws.filter fun p => p.1 / 32 == sec, b.stamp, bad⟩ (.normal b.stamp)) s) false

/-- DRAIN of the cube, memory form (R311). -/
def execDrainCubeMemoryForm (o : DrainMemOp) (s : State) : Host.Outcome State Fault Refusal :=
  wide s ⟨o.s, o.c, .mem, 2, false, [.v o.vd]⟩ fun e =>
    if e.act = 0 then .done e.s none
    else e.drainTests o.bnd fun s b =>
      let (x, w) := e.ferrySide o.dsel o.vd
      let pitch := fld (e.wreg 15).val 33 10
      let es := drainSize o.fmt
      if !e.b.sideFits x w (o.nrm1.toNat * pitch + b.nb * es) then .fault e.s 0x24 0
      else match e.b.fixSide x w true with
        | none => .wait e.s .feedRoom
        | some y =>
          if !(sideAligned x w es && pitch % es == 0) then .fault e.s 0x20 0
          else if !(e.s.core e.core).engRoom then .wait e.s .feedRoom
          else e.drainMem o s b y pitch

/-- The writes of a DRAIN are acknowledged for the DIE class, and for its release's (R311, R237). -/
def drainAcked (g : Option Gang) (id : Nat) (rel : Option (BitVec 3)) : Bool :=
  match g with
  | some g => (g.outst.filter fun p => p.1 == id + 1).all fun p => relClass rel ≤ p.2
  | none => true

/-- DRAIN_COMPLETION (R311, R297). -/
def execDrainCompletion (core id : Nat) (s : State) : Host.Outcome State Fault Refusal :=
  match (s.core core).eng.find? (·.id == id) with
  | some (.drain id slot gang _ rel arr) =>
    if drainAcked (s.gang? core slot gang) id rel then
      let s := s.dropEng core id
      let s := match rel with
        | some scope => s.system (·.covers (.after core slot gang true)) scope
        | none => s
      .next (if arr then s.bankDrained core slot gang else s)
    else .next s
  | _ => .next s

end Sys2Proof.Machine
end

