-- ==== Sys2Proof/Machine/CoreRun.lean ====
section
/-! DEFINITION. Steps of a core beside its words: the return of variable-latency results (R120, R121, R183, R253, R343),
the handler's entry for W-level faults (R105), precise stops (R81, R134), breakpoints (R347), pauses (R104, R128), the
memory set (R126), the watchdogs (R352, R353, R361, R362), and words that are no instruction (R66). -/

namespace Sys2Proof

/-- A timer of the progress watchdog. -/
def TimerKey.progress (k : TimerKey) : Bool :=
  match k with
  | .gangProgress _ | .threadProgress => true
  | _ => false

/-- The kind of a barrier (R353). -/
def TimerKey.kind (k : TimerKey) : Nat :=
  match k with
  | .regang _ _ => 0
  | .block _ _ => 1
  | .quad _ _ => 2
  | .net l _ _ => 3 + l
  | .object _ => 6
  | .gangProgress _ | .threadProgress => 7

/-- The plain-scratchpad offset that a watchdog's record names (R362). -/
def TimerKey.offset (k : TimerKey) : Nat :=
  match k with
  | .object o => o
  | _ => 0

end Sys2Proof

namespace Sys2Proof.Machine

/-! ### Returns of results -/

/-- A result removed without being written: a stale or poisoned one delivers nothing (R253, R343). -/
def Gang.dropPend (g : Gang) (id : Nat) : Gang := { g with pend := g.pend.filter fun p => p.id != id }

/-- A result that returns (R120); groups parked at a switch for it go on (R121). -/
def Gang.returned (g : Gang) (now : Stamp) (q : Pend) : Gang := (g.takeReturn now q).unpark

/-- The stamps that the load-side check of a result is made on, slice by slice, with the address it names (R188, R258). -/
def Pend.checks (p : Pend) (now : Stamp) : List (Stamp × DWord) :=
  match p.val with
  | .lanes _ m _ secs adr =>
    let st := laneStamps now m secs
    (List.range 8).filterMap fun j =>
      if nib m j = 0 then none
      else
        let i := ((List.range 4).find? fun k => m.getLsbD (4 * j + k) && vat secs ancient (4 * j + k) == stampAt st j).getD 0
        some (stampAt st j, vat adr 0 (4 * j + i))
  | .uni _ v adr => [(v.stamp, adr)]
  | _ => []

/-- R34, R124: a posted read may be served: its mailbox is full, it is first there, and its group has no earlier one. -/
def mailReady (b : Block) (gang : Nat) (g : Gang) (p : Pend) (m : BitVec 4) : Bool :=
  (b.mb m).full && (b.mb m).readers.head? == some (.read gang p.id) &&
    !((g.pend.takeWhile fun q => q.id != p.id).any fun q =>
      !q.returned && (q.slices &&& p.slices != 0) && (match q.val with
        | .mail _ _ => true
        | _ => false))

/-- The return of result `p`. -/
def State.resultReturn (s : State) (core slot gang : Nat) (b : Block) (g : Gang) (p : Pend) : State :=
  let now := s.now b.ctx
  match p.val with
  | .mail w m =>
    if mailReady b gang g p m then
      let v := (b.mb m).v
      ((s.meetBlock core slot (groupWho core slot gang p.slices)).onBlock core slot fun b => (b.onMb m.toNat (·.read (.read gang p.id))).onGang gang fun g =>
        g.returned now { p with val := .uni w v 0 }).lateTry core slot gang
    else s
  | _ =>
    let late (s : State) (c : LateCause) : State :=
      (s.onGang core slot gang (·.dropPend p.id)).raiseLate core slot gang c p.ord p.slices
    match p.fail, s.performAtom core slot gang b.ctx p with
    | some c, _ => late s c
    | none, .wait t => t
    | none, .late t c => late t c
    | none, .ok stale t q =>
      let bad := (q.checks now).find? fun x => s.boundFails b.ctx q.bnd.toNat x.1
      let hit (s : State) : State :=
        if bad.isSome && !q.counted.contains q.bnd.toNat then s.boundHit b.ctx q.bnd.toNat else s
      match bad, (s.ctx b.ctx).boundAct q.bnd.toNat == .mark with
      | some x, false =>
        late (hit stale) (s.boundLate b.ctx q.bnd.toNat false (if q.scratch then none else some x.2))
      | _, _ =>
        let t := match q.acq with
          | some sc => (hit t).acquireL1 core sc
          | none => hit t
        (t.onGang core slot gang (·.returned now q)).lateTry core slot gang

/-- VARIABLE_LATENCY_RESULT_RETURN (R120): of the result `id`; a gang whose last result has returned takes its late
fault. -/
def execVariableLatencyResultReturn (core slot gang id : Nat) (s : State) : Host.Outcome State Fault Refusal :=
  match s.block? core slot, s.gang? core slot gang with
  | some b, some g =>
    match g.pend.find? fun p => p.id == id && !p.returned with
    | some p => .next (s.resultReturn core slot gang b g p)
    | none => .next (s.lateTry core slot gang)
  | _, _ => .next s

/-- Results other than posted mailbox reads that have not returned. -/
def Gang.outstanding (g : Gang) : Bool :=
  g.pend.any fun p => !p.returned && (match p.val with
    | .mail _ _ => false
    | _ => true)

/-! ### The handler -/

/-- R105: the thread of a block may take the W-level fault at the head of its queue. DESIGN CHOICE, log 20: every wait is
interrupted, those too that R104 does not list, but for that of GLAUNCH.peer. -/
def Block.faultReady (b : Block) : Option Record :=
  if b.th.handler || b.th.halted then none
  else match b.th.wait, b.th.queue with
    | .peer _ _, _ => none
    | _, r :: _ =>
      if (match b.gangs[fld r.loc 3 0]? with
        | some g => g.outstanding
        | none => false) then none else some r
    | _, [] => none

/-- HANDLER_ENTRY (R105, R354): the oldest W-level fault is taken, or terminates the context where there is no handler; PC is
that at which the thread is interrupted (R337). -/
def execHandlerEntry (core slot : Nat) (s : State) : Host.Outcome State Fault Refusal :=
  match s.block? core slot with
  | none => .next s
  | some b =>
    match b.faultReady with
    | none => .next s
    | some r =>
      if b.trap = 0 then .next (s.fatal b.ctx (some (core, slot, fld r.loc 3 0)) { r with pc := b.th.pc } (fld r.cause 15 0))
      else
        .next ((s.enterHandler core slot r b.th.pc).onThread core slot fun t => { t with queue := t.queue.drop 1 })

/-! ### Precise stops -/

/-- R134, R283: the group waits where its gang may be saved. -/
def Group.atWait (x : Group) : Bool :=
  match x.wait with
  | .none | .exit | .base | .fence | .release => false
  | _ => true

/-- R81, R347: the group is about to issue a STOP or IENTRY slot below S. -/
def Block.atSite (b : Block) (x : Group) : Bool :=
  x.wait == .none && !x.parked && !b.fetchStalled x.pc && b.f.ule x.pc && 2 ≤ (b.slotOf x.pc).kind.toNat

/-- Where a running gang can be stopped (R81, R134, R255): its seal-stop and wait-stop flags. -/
def Block.stopAt (b : Block) (g : Gang) : Option (Bool × Bool) :=
  if g.st ≠ .running ∨ g.evicted ∨ g.late.isSome ∨ g.outstanding then none
  else if g.refireOn.isSome || g.heldOn.isSome then some (false, false)
  else if g.groups.any fun x => b.atSite x && !x.passed then some (false, false)
  else if g.groups.any fun x => x.wait == .none && !x.parked && b.fetchStalled x.pc then some (true, false)
  else if g.groups.all (·.atWait) then some (false, true)
  else none

/-- R348: the event of a gang's stop, at the PC of its lowest live slice. -/
def State.stopEvent (s : State) (core slot gang : Nat) : State :=
  match s.block? core slot, s.gang? core slot gang with
  | some b, some g =>
    let (s, d) := s.freeHalf
    let j := ((List.range 8).find? fun j => g.live.getLsbD j).getD 0
    s.postEvent b.ctx (s.gangRecord core slot gang g.live (g.slicePc j) g.sealStop g.waitStop d 0x71)
  | _, _ => s

/-- Units of 4 KiB that a saved state takes: at least one (R331, log 11). -/
def Block.saveSize (b : Block) : Nat := 1 + (Config.saveUnits b.shape.gangs b.shape.n (b.e - b.f).toNat b.shape.alloc).toNat
def Block.gangSize (b : Block) : Nat := 1 + (Config.saveUnits 1 b.shape.n 0 0).toNat

/-- Units of a context's save area taken. -/
def State.useSave (s : State) (ctx n : Nat) : State := s.setCtx ctx { s.ctx ctx with saveUsed := (s.ctx ctx).saveUsed + n }

/-- A gang evicted on its own: it gives up its slot and its registers (R332), and its pending reads leave their queues until
its restore (R134). -/
def State.evictGang (s : State) (core slot gang : Nat) : State :=
  match s.block? core slot with
  | some b =>
    (({ s with clock := s.clock + 1 }.onBlock core slot fun b => (b.gangLeaves gang true).onGang gang fun g =>
      { g with evicted := true, evictedAt := s.clock, req := .none, saved := b.gangSize }).useSave b.ctx b.gangSize).ctxCount
        b.ctx .evictGang
  | none => s

/-- A gang that a fault has parked and halted under a request: what is left of the request (R359). -/
def Gang.haltLeft (g : Gang) : Bool := g.st == .parked && (g.req == .halt || g.req == .step)

/-- The same for any stop: a parked gang can be saved where it stands (R331). -/
def Gang.stopLeft (g : Gang) : Bool := g.haltLeft || (g.st == .parked && g.req == .evict)

/-- R349: what is left of the request of a parked gang is done: it is halted, with the event where one is due. -/
def State.haltParked (s : State) (core slot gang : Nat) (g : Gang) : State :=
  let t := s.haltGang core slot gang
  if g.reqEvent || g.req == .step then t.stopEvent core slot gang else t

/-- PRECISE_STOP (R81, R134, R331, R335, R349): a requested stop takes effect. A gang stopped for the save of its whole
block keeps its request. -/
def execPreciseStop (core slot gang : Nat) (s : State) : Host.Outcome State Fault Refusal :=
  match s.block? core slot, s.gang? core slot gang with
  | some b, some g =>
    if g.req = .none then .next s
    else if g.haltLeft then .next (s.haltParked core slot gang g)
    else if g.stopLeft then
      .next (if b.stopping then s.onGang core slot gang fun g => { g with req := .none } else s.evictGang core slot gang)
    else match b.stopAt g with
      | none => .next s
      | some (ss, ws) =>
        let s := s.onGang core slot gang fun g => { g with sealStop := ss, waitStop := ws }
        let s := match g.req with
          | .halt =>
            let t := s.haltGang core slot gang
            if g.reqEvent then t.stopEvent core slot gang else t
          | .step => (s.haltGang core slot gang).stopEvent core slot gang
          | .evict =>
            if b.stopping then s.onGang core slot gang fun g => { g with evicted := true } else s.evictGang core slot gang
          | .cut => s.onGang core slot gang fun g => { g with evicted := true }
          | .none => s
        .next s
  | _, _ => .next s

/-! ### Breakpoints -/

/-- R347: register n of the context matches a site of an instance. -/
def State.bpMatches (s : State) (b : Block) (spord : BitVec 16) (n : Nat) : Bool :=
  let r := Tbl.getD (s.ctx b.ctx).bps n Breakpoint.reset
  let record : DWord := match s.inst? b.node with
    | some x => x.record
    | none => 0
  r.v && r.ord == spord && (if r.byId then r.key == b.node else r.key >>> 8 == record >>> 8)

/-- The breakpoints that a group about to issue meets (R347). -/
def State.bpsAt (s : State) (b : Block) (x : Group) : List Nat :=
  if b.atSite x && !x.matched then (List.range 16).filter (s.bpMatches b (b.slotOf x.pc).spord) else []

/-- What one matching register does (R347): the group has matched at this arrival; the halts of a block go before stops for a save, and
a gang that a fault has parked is halted where it is (R359). -/
def State.bpAct (s : State) (core slot gang : Nat) (m : BitVec 8) (pc : Word) (n : Nat) : State :=
  match s.block? core slot with
  | none => s
  | some b =>
    let act := (Tbl.getD (s.ctx b.ctx).bps n Breakpoint.reset).act
    let s := s.ctxCount b.ctx .bpHit
    let s := s.postEvent b.ctx (s.gangRecord core slot gang m pc false false n 0x71)
    let s := s.onGang core slot gang fun g => g.onGroup m fun x => { x.lateRun with matched := true }
    if act = 2 then s
    else
      let s := s.haltGang core slot gang
      if act = 1 then
        s.onBlock core slot fun b => { b with gangs := b.gangs.map fun g =>
          if g.st = .running ∧ g.req ≠ .step then { g with req := .halt }
          else if g.st = .parked ∧ !g.haltLeft then { g with halted := true } else g }
      else s

/-- BREAKPOINT_MATCH (R347). -/
def execBreakpointMatch (core slot gang : Nat) (group : BitVec 8) (s : State) : Host.Outcome State Fault Refusal :=
  match s.block? core slot, s.gang? core slot gang with
  | some b, some g =>
    match g.groups.find? (·.mask == group) with
    | some x =>
      if g.st = .running ∧ !g.evicted then
        .next ((s.bpsAt b x).foldl (fun t n => t.bpAct core slot gang group x.pc n) s)
      else .next s
    | none => .next s
  | _, _ => .next s

/-! ### Pauses and the memory set -/

/-- PAUSE_EXPIRY (R128): the count of a gang that is not evicted falls from 1 to 0, and the gang's wait count starts anew in its band (R127). -/
def execPauseExpiry (core slot gang : Nat) (s : State) : Host.Outcome State Fault Refusal :=
  .next (s.onGang core slot gang fun g => if g.pause = 1 ∧ !g.evicted then { g with pause := 0, waitc := 0 } else g)

/-- GPAUSE_EXPIRY (R73, R104). -/
def execGpauseExpiry (core slot : Nat) (s : State) : Host.Outcome State Fault Refusal :=
  .next (s.onThread core slot fun t => if t.pause = 1 then { t with pause := 0 } else t)

/-- The running gangs of a core: slot, gang, state (R126). -/
def Core.running (c : Core) : List (Nat × Nat × Gang) :=
  c.blocks.flatMap fun e => (e.2.gangs.zipIdx.filter fun p => p.1.st == .running && !p.1.evicted).map fun p => (e.1, p.2, p.1)

/-- R126: `a` stands before `b`: greater WC, then older. -/
def memBefore (a b : Nat × Nat × Gang) : Bool :=
  if a.2.2.wc ≠ b.2.2.wc then b.2.2.wc < a.2.2.wc
  else if a.2.2.started ≠ b.2.2.started then a.2.2.started < b.2.2.started
  else if a.1 ≠ b.1 then a.1 < b.1
  else a.2.1 < b.2.1

/-- Insertion into a list ordered by a relation. -/
def insBy {α : Type} (lt : α → α → Bool) (x : α) (l : List α) : List α :=
  match l with
  | [] => [x]
  | y :: r => if lt x y then x :: y :: r else y :: insBy lt x r

/-- Stable sort by a relation. -/
def sortBy {α : Type} (lt : α → α → Bool) (l : List α) : List α := l.foldl (fun t x => insBy lt x t) []

/-- R126: the recomputation of T and of the memory set. DESIGN CHOICE, log 18: the WC of a gang that is parked or evicted then is
0. -/
def Core.recompute (c : Core) : Core :=
  let loss := c.blocks.foldl (fun a e => e.2.gangs.foldl (fun a g => a + g.loss) a) 0
  let t := if 64 < loss then max 2 (c.t - 2) else if loss < 16 then min 32 (c.t + 2) else c.t
  let blocks := c.blocks.map fun e => (e.1, e.2.mapGangs fun g =>
    { g with wc := if g.st = .running ∧ !g.evicted ∧ g.throttled then g.wc + 1 else 0, loss := 0, throttled := false })
  let c := { c with blocks := blocks }
  { c with t := t, due := false, memset := some (((sortBy memBefore c.running).take t).map fun x => (x.1, x.2.1)) }

/-- MEMORY_SET_RECOMPUTE (R126): at the end of an interval of 1,024 cycles. -/
def execMemorySetRecompute (core : Nat) (s : State) : Host.Outcome State Fault Refusal :=
  let c := s.core core
  .next (if c.due then s.setCore core c.recompute else s)

/-! ### Watchdogs -/

/-- The barrier timer that a waiting group runs (R352). -/
def State.waitKey (s : State) (core : Nat) (b : Block) (i : Nat) (x : Group) : Option TimerKey :=
  let phase (level isle n : Nat) : Bool := (s.net b.node level isle n).phase
  match x.wait with
  | .regang _ => some (.regang i x.pc)
  | .barArr n | .barDone n => some (.block n.toNat (vat b.bars ⟨0, false⟩ n.toNat).phase)
  | .qbarArr n | .qbarDone n => some (.quad n.toNat (phase 0 0 n.toNat))
  | .nbarArr l n | .nbarDone l n =>
    some (.net l.toNat n.toNat (phase (l.toNat + 1) (if l = 0 then isleOf core else 0) n.toNat))
  | .bowait off =>
    match b.gangs[i]? with
    | some g => if b.objectMet g x off then none else some (.object off)
    | none => none
  | _ => none

/-- R352: every group of the gang is held where only another agent frees it, or the gang waits in a mailbox read (R124); a
gang that is halted waits as it did when it ran. -/
def State.gangHeld (s : State) (core slot gang : Nat) (b : Block) (g : Gang) : Bool :=
  s.mailWait core slot gang b { g with st := if g.st = .idle then .idle else .running } ||
    (g.st != .idle && !g.groups.isEmpty && (g.groups.all fun x =>
      (match x.wait with
        | .mbwr _ | .tagwait | .wheel | .fillDrain => s.waits core slot gang b g x
        | .none => !x.parked && b.fetchStalled x.pc
        | _ => false) || g.heldByMail x))

/-- The timers of the waits in a block, each with the gang and slices that start it (R352). A gang evicted on its own still
waits at its barrier (R332), and one that is parked or halted keeps its wait. -/
def State.timersOf (s : State) (core slot : Nat) (b : Block) : List (TimerKey × Nat × BitVec 8) :=
  let gangs := b.gangs.zipIdx.filter fun p => p.1.st != .idle
  (gangs.flatMap fun p => p.1.groups.filterMap fun x => (s.waitKey core b p.2 x).map fun k => (k, p.2, x.mask)) ++
    (gangs.filterMap fun p =>
      if !p.1.evicted && s.gangHeld core slot p.2 b p.1 then some (TimerKey.gangProgress p.2, p.2, p.1.live) else none) ++
    (match b.th.wait with
      | .mbrd _ | .mbwr _ => [(TimerKey.threadProgress, 16, 0)]
      | _ => [])

/-- R352: a limit of 2^LOG cycles, LOG from 20 to 36, other values as 36. -/
def wdLimit (l : BitVec 6) : Nat := if 20 ≤ l.toNat ∧ l.toNat ≤ 36 then 2 ^ l.toNat else 2 ^ 36

/-- R352: the enable and the limit of a timer in a context. -/
def Ctx.wdOn (c : Ctx) (k : TimerKey) : Bool := if k.progress then c.pen else c.ben
def Ctx.wdLimit (c : Ctx) (k : TimerKey) : Nat := if k.progress then Machine.wdLimit c.plog else Machine.wdLimit c.blog

/-- R352: the timers of a block after one more cycle. -/
def State.tickTimers (s : State) (core slot : Nat) (b : Block) : Block :=
  let c := s.ctx b.ctx
  let stopped := c.hold || b.gangs.any fun g => g.halted || g.st == .parked
  let now := s.timersOf core slot b
  let keys := now.foldl (fun l x => if l.any fun y => y.1 == x.1 then l else l ++ [x]) ([] : List (TimerKey × Nat × BitVec 8))
  { b with timers := keys.map fun x =>
      match b.timers.find? fun y => y.1 == x.1 with
      | some y => (y.1, if !stopped && c.wdOn y.1 then y.2.1 + 1 else y.2.1, y.2.2)
      | none => (x.1, 0, x.2) }

/-- A pod barrier as the package of a block knows it (R129, R361): at the home, the arrivals there; elsewhere whether this
member's has been sent (log 13). -/
def State.podState (s : State) (b : Block) (n : Nat) : Nat × Nat × Nat × Nat :=
  let x := s.net b.node 3 0 n
  match s.inst? b.node with
  | none => (n, x.phase.toNat, 0, 0)
  | some i =>
    let here := if s.netExpect b.node 3 0 ≤ x.count then 1 else 0
    let arrived := if i.podhome = s.pkg then
        ((s.pods.find? fun p => p.home == i.podhome && p.group == i.group && p.b == n).map (·.count)).getD 0
      else here
    (n, x.phase.toNat, arrived, i.recd.podn)

/-- Index, phase, arrivals and expected arrivals of a timer's barrier (R361). -/
def State.barState (s : State) (core : Nat) (b : Block) (k : TimerKey) : Nat × Nat × Nat × Nat :=
  let net (level isle n : Nat) : Nat × Nat × Nat × Nat :=
    let x := s.net b.node level isle n
    (n, x.phase.toNat, x.count, s.netExpect b.node level isle)
  match k with
  | .regang i pc =>
    match b.gangs[i]? with
    | some g =>
      let at' := g.groups.filter fun x => x.pc == pc && (match x.wait with
        | .regang _ => true
        | _ => false)
      let need := at'.foldl (fun (a : BitVec 8) x => match x.wait with
        | .regang m => a ||| m ||| x.mask
        | _ => a) 0
      (0, 0, (at'.foldl (fun (a : BitVec 8) x => a ||| x.mask) 0).toNat, (need &&& g.live).toNat)
    | none => (0, 0, 0, 0)
  | .block n ph => (n, ph.toNat, (vat b.bars ⟨0, false⟩ n).mask.toNat, b.shape.allGangs.toNat)
  | .quad n _ => net 0 0 n
  | .net 2 n _ => s.podState b n
  | .net l n _ => net (l + 1) (if l = 0 then isleOf core else 0) n
  | .object o => (0, b.sp.nat (o + 8) 4, b.sp.nat o 4, max (b.sp.nat (o + 4) 4) 1)
  | _ => (0, 0, 0, 0)

/-- A gang entry of a dump of kind 2 (R361). -/
def Gang.entry (g : Gang) (present : BitVec 8) (waiting : Bool) : List DWord :=
  let st := match g.st with
    | .idle => 1
    | .running => 2
    | .parked => 3
  let sites := (g.siteWord).toNat
  let pcs := (List.range 4).map fun i => BitVec.ofNat 64 ((g.slicePc (2 * i)).toNat + (g.slicePc (2 * i + 1)).toNat * 2 ^ 32)
  let group := (List.range 8).foldl (fun a j => a + (g.sliceGroup j).toNat * 256 ^ j) 0
  BitVec.ofNat 64 (st * 2 ^ 62 + g.halted.toNat * 2 ^ 61 + waiting.toNat * 2 ^ 60 + present.toNat * 2 ^ 48 +
    g.exited.toNat * 2 ^ 40 + sites) :: pcs ++ [BitVec.ofNat 64 group]

/-- The area of a dump of kind 2 (R361). -/
def State.watchArea (s : State) (core : Nat) (b : Block) (k : TimerKey) (timer : Nat) : List Byte :=
  let (idx, phase, arrived, expected) := s.barState core b k
  let waits (i : Nat) (g : Gang) : Bool := g.groups.any fun x => s.waitKey core b i x == some k
  dwBytes ([BitVec.ofNat 64 (k.kind * 2 ^ 56 + idx * 2 ^ 48 + phase % 2 ^ 32), BitVec.ofNat 64 arrived,
      BitVec.ofNat 64 expected, BitVec.ofNat 64 timer, b.node, BitVec.ofNat 64 (b.lin % 2 ^ 32 * 2 ^ 32 + place core), 0, 0] ++
    b.gangs.zipIdx.flatMap fun p => p.1.entry b.shape.present (waits p.2 p.1))

/-- The word at which the lowest of the slices `m` of a gang stands (R362). -/
def Gang.waitPc (g : Gang) (m : BitVec 8) : Word :=
  g.slicePc (((List.range 8).find? fun j => (m &&& g.live).getLsbD j).getD 0)

/-- R353, R362: a timer has reached its limit: dump, record, end of the context. -/
def State.watchFire (s : State) (core slot : Nat) (b : Block) (k : TimerKey) (timer gang : Nat) (m : BitVec 8) : State :=
  let code := if k.progress then 0x82 else 0x81
  match s.gang? core slot gang with
  | some g =>
    let r := { s.gangRecord core slot gang m (g.waitPc m) false true k.kind code with addr := BitVec.ofNat 64 k.offset }
    ((s.dump b.ctx 2 (some (core, slot, gang)) r (s.watchArea core b k timer)).postEvent b.ctx r).endCtx b.ctx .terminated code
  | none =>
    let r : Record :=
      { cause := causeWord b.ctx false false false true k.kind code, loc := 0, addr := 0, pc := b.th.pc, site := 0
        prov := 0, node := b.node, place := s.placeWord b.ctx core slot }
    ((s.dump b.ctx 2 none r []).postEvent b.ctx r).endCtx b.ctx .terminated code

/-- A timer that has reached its limit. -/
def State.watchdog (s : State) (core slot : Nat) (t : TimerKey) : State :=
  match s.block? core slot with
  | none => s
  | some b =>
    match b.timers.find? fun y => y.1 == t with
    | some (k, n, gang, m) =>
      let c := s.ctx b.ctx
      if c.wdOn k && c.wdLimit k ≤ n && (s.timersOf core slot b).any fun y => y.1 == k then s.watchFire core slot b k n gang m else s
    | none => s

/-- BARRIER_WATCHDOG (R352, R353). -/
def execBarrierWatchdog (core slot : Nat) (t : TimerKey) (s : State) : Host.Outcome State Fault Refusal :=
  .next (if t.progress then s else s.watchdog core slot t)

/-- PROGRESS_WATCHDOG (R352, R353). -/
def execProgressWatchdog (core slot : Nat) (t : TimerKey) (s : State) : Host.Outcome State Fault Refusal :=
  .next (if t.progress then s.watchdog core slot t else s)

/-! ### Illegal words -/

/-- ILLEGAL_WORD (R66, R67): a word that decodes to no instruction, in a gang or in a thread. -/
def execIllegalWord (_w : Word) (s : State) : Host.Outcome State Fault Refusal :=
  match s.cur with
  | .gen _ _ => gen s GEnv.illegal
  | _ =>
    match s.env? with
    | some e => .next (e.finish ⟨false, false, .mem, 1, false, []⟩ none (.fault e.s 0x01 0))
    | none => .fault .noAgent

end Sys2Proof.Machine
end

