-- ==== Sys2Proof/Machine/Graph.lean ====
section
/-! DEFINITION. The graph engine: launch queues (R323), packets (R322, R324), instances and the harbour (R326), dispatch
(R327, R329, R330), the end of blocks and instances (R328). -/

namespace Sys2Proof.Machine

/-- The bits of READY that a unit's steps need (R365, R366). -/
def State.lagoonUp (s : State) : Bool := s.ready.getLsbD 2
def State.graphUp (s : State) : Bool := s.ready.getLsbD 4
def State.isleUp (s : State) (i : Nat) : Bool := s.ready.getLsbD (28 + i)

/-! ### Launch queues -/

/-- STAGING_WINDOW_APPEND (R323): the write of the doubleword at 0x78 appends the packet as it then stands. While the append is
held (R366) the write has not been taken (log 27). -/
def execStagingWindowAppend (ctx q : Nat) (v : DWord) (s : State) : Host.Outcome State Fault Refusal :=
  if !s.graphUp || s.lqHeld ctx q then .next s
  else
    let c := s.ctx ctx
    let w := Tbl.set c.lqw (q * 16 + 15) v
    .next ((s.setCtx ctx { c with lqw := w }).lqAppend ctx q (dwBytes ((List.range 16).map fun i => Tbl.getD w (q * 16 + i) 0)))

/-- The FERRY commands of the package that wait for a flit, changed. -/
def State.onFlitFerry (s : State) (cape : Nat) (seq : BitVec 12) (f : FerryCmd → FerryCmd) : State :=
  let g (c : FerryCmd) : FerryCmd := if c.flits.contains (cape, seq) then f c else c
  { s with cores := s.cores.map fun e => (e.1, { e.2 with ferry := e.2.ferry.map g }) }

/-- R93 step 4: the thread that waits for a flit goes on after its word. -/
def State.peerDone (s : State) (cape : Nat) (seq : BitVec 12) : State :=
  s.blocks.foldl (fun (s : State) e =>
    if e.2.2.th.wait = .peer cape seq then
      let t := s.onThread e.1 e.2.1 fun t => t.complete (t.pc + 4)
      if e.2.2.th.stepOne then t.threadEvent e.1 e.2.1 else t
    else s) s

/-- A flit has been acknowledged: its command or its thread waits for it no longer. -/
def State.flitAcked (s : State) (cape : Nat) (seq : BitVec 12) : State :=
  (s.onFlitFerry cape seq fun c => { c with flits := c.flits.filter (· != (cape, seq)) }).peerDone cape seq

/-- R370: the entries of the replay buffer up to the acknowledged one are retired. -/
def State.ackedTo (s : State) (cape : Nat) (seq : BitVec 12) : State :=
  let x := s.cape cape
  match x.replay.findIdx? fun e => e.1 == seq with
  | none => s
  | some i =>
    (x.replay.take (i + 1)).foldl (fun (s : State) e => s.flitAcked cape e.1) (s.setCape cape { x with replay := x.replay.drop (i + 1) })

/-- R370: a flit is taken from the link, with the acknowledgement that it carries. -/
def State.takeFlit (s : State) (cape : Nat) (f : Flit) (code : Byte) : State :=
  match f.ack with
  | some q => (s.receive cape f code).ackedTo cape q
  | none => s.receive cape f code

/-- LAUNCH_FLIT (R323, R325, R370). -/
def execLaunchFlit (cape : Nat) (f : Flit) (s : State) : Host.Outcome State Fault Refusal :=
  let q := bits f.addr.toNat 5 0
  .next (if s.inSeq cape f && s.graphUp && !s.peerHeld f.src.toNat f.ctx.toNat q then
    (s.takeFlit cape f 0).peerLaunch f.src.toNat f.ctx.toNat q (padTo 128 (f.body.take 128))
  else s)

/-- Bytes that a unit of the lagoon reads at a physical address. -/
def State.devRead (s : State) (pa n : Nat) : State × List Byte :=
  let s := (sectorsIn pa n).foldl (fun s i => s.snoop none (i / 4) false) s
  (s, s.mem.bytesAt pa n)

/-- The non-empty launch queues of LIVE contexts (R323, R335), ascending. -/
def State.openQueues (s : State) : List (Nat × Nat) :=
  s.ctxs.flatMap fun p =>
    if p.2.st = .live then (p.2.lqd.filter fun q => !q.2.isEmpty).map fun q => (p.1, q.1) else []

/-- A launch packet (R322). -/
structure Packet where
  record : DWord
  group : DWord
  ctl : DWord
  kovr : DWord
  doneva : DWord
  doneval : DWord
  podhome : DWord
  rest : List DWord
  deriving DecidableEq, Repr

def packetOf (l : List DWord) : Packet :=
  let d (i : Nat) := l.getD i 0
  ⟨d 0, d 1, d 2, d 3, d 4, d 5, d 6, (List.range 9).map fun i => d (7 + i)⟩

def Packet.dec (p : Packet) : Nat := fld p.ctl 7 0
def Packet.povr (p : Packet) : Option Nat := if p.ctl.getLsbD 8 then some (fld p.ctl 11 9) else none

/-- R324: the fields read of a packet that names a pending instance (log 15): its reserved fields. -/
def Packet.decOk (p : Packet) : Bool := fld p.ctl 63 12 == 0 && p.rest.all (· == 0)

/-- R324, reason 0x01: the fields of a packet that creates an instance. -/
def Packet.fieldsOk (p : Packet) : Bool :=
  p.decOk && fld p.record 7 0 == 0 && fld p.kovr 11 0 == 0 && fld p.doneva 2 0 == 0 && fld p.podhome 63 9 == 0

/-- The head packet of a queue. -/
def State.headPacket (s : State) (x : Nat × Nat) : State × Packet :=
  let r := s.lq x.1 x.2
  let (s, l) := s.devRead (r.slot r.head 128) 128
  (s, packetOf (dwords l 16))

/-- R326: the last 1,024 entries of the instance table are not for packets. -/
def State.packetRoom (s : State) : Bool := s.insts.length < 15360

/-- R323: the head packet does not have to wait for an entry. -/
def State.queueReady (s : State) (x : Nat × Nat) : Bool :=
  let r := s.lq x.1 x.2
  s.memReady (r.slot r.head 128) &&
    (s.packetRoom || (let p := (s.headPacket x).2
      (s.pending? x.1 p.record p.group).isSome || !p.fieldsOk))

/-- R323: the queue served next, round-robin after the last one. -/
def State.nextQueue (s : State) : Option (Nat × Nat) :=
  let l := s.openQueues.filter s.queueReady
  match l.find? fun x => s.rr.1 < x.1 || (s.rr.1 == x.1 && s.rr.2 < x.2) with
  | some x => some x
  | none => l.head?

/-- The head packet of a queue is done with. -/
def State.popPacket (s : State) (x : Nat × Nat) : State :=
  let c := s.ctx x.1
  let r := s.lq x.1 x.2
  { s with rr := x }.setCtx x.1 { c with lqd := Tbl.set c.lqd x.2 { r with head := r.head + 1 } }

/-- R324: KOVR can be translated; none while it cannot be told. -/
def State.kovrOk (s : State) (ctx : Nat) (kovr : DWord) : State × Option Bool :=
  if kovr = 0 then (s, some true)
  else match s.translate lagoonCore ctx kovr false 8 with
    | (s, .ok _) => (s, some true)
    | (s, .fault _) => (s, some false)
    | (s, .migrate) => (s, some true)
    | (s, .wait) => (s, none)

/-- A packet that creates an instance (R322, R324, R326). -/
def State.packetCreate (s : State) (x : Nat × Nat) (p : Packet) : State :=
  let refuse (s : State) (reason : Nat) : State := (s.popPacket x).launchBad x.1 x.2 reason p.record
  if !p.fieldsOk then refuse s 1
  else match s.readRecord x.1 p.record with
    | (s, .wait) => s.holdMove x.1 (some p.record)
    | (s, .bad k) => refuse s k
    | (s, .ok r) =>
      if r.podn = 0 && p.podhome != 0 then refuse s 1
      else match s.kovrOk x.1 p.kovr with
        | (_, none) => s
        | (s, some false) => refuse s 5
        | (s, some true) =>
          let preds := fld (r.dw 0) 31 0
          ((s.popPacket x).addInst x.1 p.record p.group true r p.povr (r.prio p.povr) p.kovr p.doneva p.doneval
            (if r.podn = 0 then 0 else p.podhome.setWidth 9) (preds - p.dec) none).1

/-- R326: a completion that may be delivered goes before a packet. -/
def State.completionReady (s : State) : Bool :=
  s.compl.any fun c => (s.pending? c.ctx c.record c.group).isSome || s.insts.length < 16384

/-- PACKET_CONSUME (R323, R324, R326). -/
def execPacketConsume (s : State) : Host.Outcome State Fault Refusal :=
  if !s.graphUp || s.completionReady then .next s
  else match s.nextQueue with
    | none => .next s
    | some x =>
      let (s, p) := s.headPacket x
      match s.pending? x.1 p.record p.group with
      | some i =>
        .next (if p.decOk then (s.popPacket x).decInst i.node p.dec else (s.popPacket x).launchBad x.1 x.2 1 p.record)
      | none => .next (s.packetCreate x p)

/-! ### The harbour -/

/-- READY instances without a harbour entry, in READY order. -/
def State.waitingHarbour (s : State) : Option Instance :=
  (s.insts.filter fun x => x.phase == .ready && !x.harbour).foldl (fun a x =>
    match a with
    | none => some x
    | some y => if x.order < y.order then some x else some y) none

/-- HARBOUR_ENTRY (R326, R329). -/
def execHarbourEntry (s : State) : Host.Outcome State Fault Refusal :=
  match s.waitingHarbour with
  | some x => .next (if s.graphUp && s.harbourUsed < 4096 then s.enterHarbour x.node else s)
  | none => .next s

/-! ### Placement (R327, log 16) -/

/-- The first free place of `size` units below `limit`, aligned: beside the used ranges (base, size). -/
def firstFit (used : List (Nat × Nat)) (size align limit : Nat) : Option Nat :=
  let up (a : Nat) : Nat := (a + align - 1) / align * align
  let starts := sortNat (0 :: used.map fun u => up (u.1 + u.2))
  starts.find? fun a => a + size ≤ limit && used.all fun u => a + size ≤ u.1 || u.1 + u.2 ≤ a

/-- Ranges in use in a core. -/
def Core.flumeUsed (c : Core) : List (Nat × Nat) := c.blocks.map fun e => (e.2.fbase, e.2.shape.w)
def Core.scratchUsed (c : Core) : List (Nat × Nat) := c.blocks.map fun e => (e.2.sbase, e.2.shape.alloc)
def Core.regsUsed (c : Core) : List (Nat × Nat) :=
  c.blocks.flatMap fun e => (e.2.gangs.filter (!·.restorable)).map fun g => (g.vbase, e.2.shape.n)

/-- Aligned register ranges for `k` gangs of `n` registers. -/
def regRanges (used : List (Nat × Nat)) (n : Nat) : Nat → Option (List Nat)
  | 0 => some []
  | k + 1 =>
    match firstFit used n 8 4096 with
    | some a => (regRanges ((a, n) :: used) n k).map fun l => a :: l
    | none => none

/-- Where a block goes in a core: slot, flume base, scratchpad base, the gangs' register bases. -/
structure Placement where
  slot : Nat
  fbase : Nat
  sbase : Nat
  regs : List Nat
  deriving DecidableEq, Repr

/-- Slot, flume and scratchpad of a block. -/
def Core.room (c : Core) (x : Shape) : Option (Nat × Nat × Nat) :=
  match (List.range 16).find? fun i => (Tbl.get? c.blocks i).isNone, firstFit c.flumeUsed x.w 1 32768,
    firstFit c.scratchUsed x.alloc 1 c.scratch with
  | some i, some f, some a => some (i, f, a)
  | _, _, _ => none

/-- R327: the block fits the core. -/
def Core.place (c : Core) (x : Shape) : Option Placement :=
  match c.room x, regRanges c.regsUsed x.n x.gangs with
  | some (i, f, a), some r => if c.gangsHeld + x.gangs ≤ 32 then some ⟨i, f, a, r⟩ else none
  | _, _ => none

/-- R330: the core has the room and the registers, but no range for each gang. -/
def Core.fragmented (c : Core) (x : Shape) : Bool :=
  (c.room x).isSome && c.gangsHeld + x.gangs ≤ 32 && (regRanges c.regsUsed x.n x.gangs).isNone &&
    (c.regsUsed.foldl (fun a u => a + u.2) 0) + x.n * x.gangs ≤ 4096

/-- The first core of a list that takes the block; each core passed for fragmentation counts in FRAG (R330). -/
def State.findCore (s : State) (isle : Nat) (x : Shape) : List Nat → State × Option (Nat × Placement)
  | [] => (s, none)
  | c :: r =>
    match (s.core c).place x with
    | some p => (s, some (c, p))
    | none => (if (s.core c).fragmented x then s.count (isleCtr isle 2) 1 else s).findCore isle x r

/-! ### Dispatch -/

/-- R71: a thread at dispatch. -/
def Thread.fresh (pc : DWord) : Thread :=
  { g := Vector.replicate 32 SVal.zero, h := Vector.replicate 32 SVal.zero, pc := pc, handler := false, queue := []
    qcycle := 0, qtail := 0, wait := .none, pause := 0, refires := 0, outst := [], halted := false, stepOne := false, ended := false }

/-- A gang at dispatch (R22, R87): idle, registers 0 and AGELESS. -/
def Gang.fresh (vbase : Nat) : Gang :=
  { st := .idle, evicted := false, evictedAt := 0, faultParked := false, halted := false, req := .none, reqEvent := false
    groups := [], exited := 0, exitOrd := Vector.replicate 8 0, dmask := 0, pmask := 0, k := Vector.replicate 8 0
    w := Vector.replicate 16 SVal.zero, v := [], vbase := vbase, window := [], wnum := 0, pend := [], pid := 0, spp := 0
    spill := [], snap := none, afterRb := false, stack := [], refires := 0, pause := 0, waitc := 0, wc := 0
    throttled := false, started := 0, loss := 0, site := none, siteOrd := 0, sealStop := false, waitStop := false
    vtime := 0, issues := [], outst := [], arr := [], late := none, refireOn := none, heldOn := none
    saved := 0 }

/-- R319, R173: the operands that a block maps into its stash; DIR out is not checked. -/
def Rec.maps (r : Rec) : List (Nat × Nat × BitVec 4) :=
  (r.operands.filter (·.stash)).map fun o => (o.base, o.extent, if o.dir = 1 then 0 else o.bnd)

/-- A block, or a control thread, as dispatch makes it (R71, R163, R164, R318, R329). -/
def Instance.block (x : Instance) (control : Bool) (lin : Nat) (p : Placement) (born : Nat) : Block :=
  let r := x.recd
  let cube := r.isCube
  let image := r.dw 8
  let entry := r.dw 0x10
  let sh := r.shape
  { control := control, ctx := x.ctx, node := x.node, lin := lin
    bx := if cube then lin else lin % r.gridx
    by' := if cube then 0 else lin / r.gridx % r.gridy
    bz := if cube then 0 else lin / (r.gridx * r.gridy)
    gx := if cube then r.feeders else r.gridx, gy := if cube then 1 else r.gridy
    gz := if cube then 1 else r.gridz, prio := x.prio, feeding := cube && !control, cor := r.cor
    shape := if control then { sh with gangs := 0, w := 0, plain := 0, stash := 0, spill := 0 } else sh
    fbase := p.fbase, sbase := p.sbase, kbank := if x.kovr = 0 then r.dw 0x20 else x.kovr
    lstamp := if (r.dw 0).getLsbD 57 then some x.lstamp else none
    image := image, trap := fld (r.dw 0x18) 31 0, born := born
    th := Thread.fresh (image + BitVec.ofNat 64 (if control then fld entry 63 32 else fld entry 31 0))
    e := 0, s := 0, f := 0, flume := [], mbs := Vector.replicate 16 Mailbox.empty, bars := Vector.replicate 16 ⟨0, false⟩
    wheels := vec 4 fun i => Wheel.start (wheelDesc (r.wheels.getD i 0))
    tags := 0, tagerr := 0, tagpend := 0, fstat := Vector.replicate 64 0, sp := .empty, spOld := [], spLate := [], stash := []
    maps := if control then [] else r.maps
    sc := 0, vtime := 0
    gangs := if control then [] else p.regs.map Gang.fresh
    timers := [], stopping := false, held := [] }

/-- The isle of a block of an instance (R319, R327). -/
def Instance.isleAt (x : Instance) (lin : Nat) : Nat :=
  match (x.recd.ranges.zip x.isleOf).find? fun e => lin ≤ e.1.last with
  | some e => e.2
  | none => 0

/-- The lowest block of an instance that waits for an isle. -/
def Instance.nextOn (x : Instance) (isle : Nat) : Option Nat :=
  (List.range x.recd.blocks).find? fun l => !x.dispatched.contains l && x.isleAt l == isle

/-- R327: the instance whose block stands at the head of an isle: priority, then READY order. -/
def State.headInst (s : State) (isle : Nat) : Option Instance :=
  (s.insts.filter fun x => x.harbour && (s.ctx x.ctx).st == .live && (x.nextOn isle).isSome).foldl (fun a x =>
    match a with
    | none => some x
    | some y => if y.prio < x.prio ∨ (y.prio = x.prio ∧ x.order < y.order) then some x else some y) none

/-- R126: T is 32 when the core's first block is dispatched. DESIGN CHOICE, log 18: that is each block that a core without any
takes. -/
def Core.firstBlock (c : Core) : Core := if c.blocks.isEmpty then { c with t := 32, memset := none } else c

/-- A block placed in a core. The first access of an instance, and of what a refire or a save has held, is an acquire (R229,
R260): it finds no line in the L1 (R234). -/
def State.putBlock (s : State) (core : Nat) (p : Placement) (b : Block) : State :=
  (((s.setCore core (s.core core).firstBlock).l1Flush core).newcomer [.block core p.slot]).setBlock core p.slot b

/-- R370: PODHOME, GROUP, the barrier number and the phase of a barrier flit. -/
def flitHome (f : Flit) : BitVec 9 := BitVec.ofNat 9 (leVal (f.body.take 8))
def flitGroup (f : Flit) : DWord := BitVec.ofNat 64 (leVal ((f.body.drop 8).take 8))
def flitBar (f : Flit) : Nat := bits f.addr.toNat 3 0

/-- R132: an arrival from another package at the home whose own member is `x`: accepted under the access-control table. -/
def State.podFrom (s : State) (x : Instance) (f : Flit) : State :=
  if s.acl.any fun e => aclOk e.2 true f.src.toNat x.ctx none then
    s.podAccept (flitHome f) (flitGroup f) (flitBar f) f.src f.ctx.toNat x.recd.podn
  else s.ctxCount x.ctx .aclDeny

/-- R132: the early arrivals of a member's group are taken when the member is dispatched. -/
def State.podEarly (s : State) (node : DWord) : State :=
  match s.inst? node with
  | some x =>
    if x.recd.podn = 0 then s
    else
      let (mine, rest) := s.early.partition fun f => flitHome f == x.podhome && flitGroup f == x.group
      mine.foldl (fun (s : State) f => s.podFrom x f) { s with early := rest }
  | none => s

/-- R326: the bookkeeping of a dispatched block; the harbour entry is freed after the last. -/
def State.noteDispatch (s : State) (node : DWord) (lins : List Nat) : State :=
  (s.onInst node fun x =>
    let d := x.dispatched ++ lins
    { x with dispatched := d, phase := .running, harbour := x.harbour && d.length < x.recd.blocks }).podEarly node

/-- One block of an instance dispatched to its isle, if a core takes it. -/
def State.dispatchOne (s : State) (x : Instance) (lin : Nat) : State × Bool :=
  let isle := x.isleAt lin
  match s.findCore isle x.recd.shape (isleCores isle) with
  | (s, some (c, p)) => ((s.putBlock c p (x.block false lin p s.clock)).noteDispatch x.node [lin], true)
  | (s, none) => (s, false)

/-- R327: a COR instance is placed whole or not at all; the flag tells which. -/
def State.dispatchAll (s : State) (x : Instance) : List Nat → State × Bool
  | [] => (s, true)
  | l :: r =>
    match s.dispatchOne x l with
    | (s, true) => s.dispatchAll x r
    | (s, false) => (s, false)

/-- R333: saved work of an isle that goes before a new dispatch of priority `p`. -/
def Saved.isle (x : Saved) : Nat :=
  match x with
  | .block i _ _ => i
  | .node i _ _ _ _ => i
def Saved.prio (x : Saved) : Nat :=
  match x with
  | .block _ b _ => b.prio
  | .node _ b _ _ _ => b.prio

/-- R331: an eviction of the isle is still under way: its room is used once every victim has been saved. -/
def State.evicting (s : State) (isle : Nat) : Bool :=
  s.blocks.any fun e => isleOf e.1 == isle && (e.2.2.stopping || e.2.2.gangs.any fun g => g.req == .evict && !g.evicted)

/-- R332: a core's room for an evicted gang. -/
def Core.gangRoom (c : Core) (n : Nat) : Option Nat := if c.gangsHeld < 32 then firstFit c.regsUsed n 8 4096 else none

def State.restoresFirst (s : State) (isle p : Nat) : Bool :=
  (s.saved.any fun x => x.isle == isle && p ≤ x.prio && (s.ctx x.ctx).st == .live) ||
    (isleCores isle).any fun k =>
      let c := s.core k
      c.blocks.any fun e => p ≤ e.2.prio && !e.2.stopping && e.2.gangs.any (·.restorable) && (c.gangRoom e.2.shape.n).isSome

/-- The isles that the blocks of an instance go to. -/
def Instance.isles (x : Instance) : List Nat := ((List.range x.recd.blocks).map x.isleAt).eraseDups

/-- R327, R333, R336: an isle takes a block of this instance next. -/
def State.isleTakes (s : State) (x : Instance) (isle : Nat) : Bool :=
  s.isleUp isle && (s.headInst isle).map (·.node) == some x.node && !s.restoresFirst isle x.prio && !s.evicting isle

/-- BLOCK_DISPATCH (R327, R333): the head block of an isle; a COR instance when it is at the head of each of its isles. -/
def execBlockDispatch (isle : Nat) (s : State) : Host.Outcome State Fault Refusal :=
  if !s.graphUp || !s.isleUp isle then .next s
  else match s.headInst isle with
    | none => .next s
    | some x =>
      if x.recd.isCube || s.restoresFirst isle x.prio || s.evicting isle then .next s
      else if x.recd.cor then
        if !x.isles.all (s.isleTakes x) then .next s
        else match s.dispatchAll x (List.range x.recd.blocks) with
          | (t, true) => .next t
          | (t, false) => .next { s with counters := t.counters }
      else match x.nextOn isle with
        | some l => .next (s.dispatchOne x l).1
        | none => .next s

/-- The feeding blocks of a node placed, each on the core of its index; a core passed for fragmentation counts in FRAG
(R330). -/
def State.placeFeeders (s : State) (isle cl : Nat) : List (Nat × Shape) → State × Option (List Placement)
  | [] => (s, some [])
  | (k, x) :: r =>
    let c := s.core (coreNum isle cl k)
    match c.place x with
    | none => (if c.fragmented x then s.count (isleCtr isle 2) 1 else s, none)
    | some p =>
      match s.placeFeeders isle cl r with
      | (s, some l) => (s, some (p :: l))
      | (s, none) => (s, none)

/-- R327: the first cluster of an isle whose control core is free (log 16: a node holds its control core until it ends) and
whose cores can take the feeding blocks. -/
def State.findCluster (s : State) (isle : Nat) (l : List (Nat × Shape)) : List Nat → State × Option (Nat × List Placement)
  | [] => (s, none)
  | cl :: r =>
    if !(s.core (coreNum isle cl 4)).blocks.isEmpty then s.findCluster isle l r
    else match s.placeFeeders isle cl l with
      | (s, some p) => (s, some (cl, p))
      | (s, none) => s.findCluster isle l r

/-- R309: the cube of a node at dispatch. -/
def Rec.cube (r : Rec) : Cube := { Cube.reset with wheels := vec 4 fun i => Wheel.start (wheelDesc (r.cwheels.getD i 0)) }

/-- A cube node's control thread and feeding blocks placed on a cluster. -/
def State.putNode (s : State) (isle cl : Nat) (control : Block) (cube : Cube) (fs : List (Placement × Block)) : State :=
  let s := fs.zipIdx.foldl (fun (s : State) p => s.putBlock (coreNum isle cl p.2) p.1.1 p.1.2) s
  (s.putBlock (coreNum isle cl 4) ⟨0, 0, 0, []⟩ control).setCube (isle * 24 + cl) cube

/-- CUBE_NODE_DISPATCH (R327). -/
def execCubeNodeDispatch (isle : Nat) (s : State) : Host.Outcome State Fault Refusal :=
  if !s.graphUp || !s.isleUp isle then .next s
  else match s.headInst isle with
    | none => .next s
    | some x =>
      let r := x.recd
      if !r.isCube || s.restoresFirst isle x.prio || s.evicting isle then .next s
      else match s.findCluster isle ((List.range r.feeders).map fun k => (k, r.shape)) (List.range 24) with
        | (s, none) => .next s
        | (s, some (cl, l)) =>
          let fs := l.zipIdx.map fun p => (p.1, x.block false p.2 p.1 s.clock)
          .next ((s.putNode isle cl (x.block true 0 ⟨0, 0, 0, []⟩ s.clock) r.cube fs).noteDispatch x.node (List.range r.feeders))

/-! ### The end of blocks and instances -/

/-- The agents of a block that wait for a refired instance. -/
def Block.refireWho (b : Block) (core slot : Nat) (node : DWord) : List Who :=
  ((b.gangs.zipIdx.filter fun p => p.1.refireOn = some node).map fun p => Who.gang core slot p.2) ++
    (if b.th.wait = .refire node then [.thread core slot] else []) ++ (if b.control then [.seq core] else [])

/-- R260: every consumer that waits for a refired instance goes on, and acquires what happened before. -/
def State.wakeRefire (s : State) (node : DWord) : State :=
  let wake (b : Block) : Block :=
    { b.mapGangs (fun g => if g.refireOn = some node then { g with refireOn := none } else g) with
      th := if b.th.wait = .refire node then { b.th with wait := .none } else b.th }
  let cube (c : Cube) : Cube := if c.refireOn = some node then { c with refireOn := none } else c
  let s := s.blocks.foldl (fun (s : State) e =>
    let b := wake e.2.2
    let ws := e.2.2.refireWho e.1 e.2.1 node
    let s := if ws = [] then s else s.see ws (s.olds.map (·.till))
    if b = e.2.2 then s else (s.setBlock e.1 e.2.1 b).l1Flush e.1) s
  { s with
    cubes := s.cubes.map fun e => (e.1, cube e.2)
    saved := s.saved.map fun x =>
      match x with
      | .block i b z => .block i (wake b) z
      | .node i c q fs z => .node i (wake c) (cube q) (fs.map wake) z }

/-- Step 2 of R328: DONEVAL stored, skipped on a translation fault; the flag says that it waits. -/
def State.storeDone (s : State) (x : Instance) : State × Bool :=
  if x.doneva = 0 then (s, false)
  else match s.translate lagoonCore x.ctx x.doneva true 8 with
    | (s, .ok pa) => (s.unitWrite (s.now x.ctx) pa (leBytes x.doneval.toNat 8) (.normal ageless), false)
    | (s, .fault _) => (s.ctxCount x.ctx .doneFail, false)
    | (_, .migrate) => (s.holdMove x.ctx (some x.doneva), true)
    | (_, .wait) => (s, true)

/-- The successor records of an instance, in list order; none where the list cannot be read; the flag says that the read
waits. -/
def State.successors (s : State) (ctx : Nat) (va : DWord) : Nat → State × Option (List DWord) × Bool
  | 0 => (s, some [], false)
  | n + 1 =>
    match s.unitRead ctx va 8 with
    | (s, .ok (some l)) =>
      let (s, r, w) := s.successors ctx (va + 8) n
      (s, r.map fun t => BitVec.ofNat 64 (leVal l) :: t, w)
    | (s, .ok none) => (s, none, false)
    | (s, .error (.fault _)) => (s, none, false)
    | (s, .error _) => (s, none, true)

/-- INSTANCE_COMPLETION (R328): an instance in COMPLETING: DONEVAL is stored once, then the list is read. -/
def State.complete (s : State) (node : DWord) : State :=
  match s.inst? node with
  | none => s
  | some x =>
    if x.phase ≠ .completing then s
    else
      let free (s : State) : State := { s with insts := s.insts.filter fun y => y.node != node, nets := s.nets.filter fun n => n.node != node }
      if !x.hasKey then (free s).wakeRefire node
      else match if x.stored then (s, false) else s.storeDone x with
        | (t, true) => t
        | (t, false) =>
          let s := t.onInst node fun y => { y with stored := true }
          match s.successors x.ctx (x.recd.dw 0x38) (fld (x.recd.dw 0) 53 50) with
          | (_, _, true) => s.holdMove x.ctx (some (x.recd.dw 0x38))
          | (t, none, false) => free (t.launchBad x.ctx 0 4 x.record)
          | (t, some l, false) =>
            free { t with compl := t.compl ++ l.map fun r => ⟨x.ctx, r, x.group, x.povr, x.podhome⟩ }

/-- R328: what a block's end waits for. -/
def State.endReady (s : State) (core slot : Nat) (b : Block) : Bool :=
  let c := s.core core
  let doneva := match s.inst? b.node with
    | some x => x.doneva != 0
    | none => false
  b.th.ended && !(c.ferry.any fun f => f.slot == slot) && !(c.ferryWait.any fun f => f.1 == slot) &&
    !(c.eng.any fun e => match e with
      | .feed _ sl _ _ _ _ _ _ _ _ _ _ _ _ _ => sl == slot
      | .drain _ sl _ _ _ _ => sl == slot) &&
    (!doneva || (b.th.outst.isEmpty && b.gangs.all (·.outst.isEmpty)))

/-- An instance whose blocks and control thread have ended is COMPLETING (R326); its control core is then free (log 16). -/
def State.nodeEnds (s : State) (node : DWord) : State :=
  match s.inst? node with
  | some x =>
    if x.ended.length = x.recd.blocks ∧ (x.recd.isCube → x.controlEnded) then
      let s := s.onInst node fun x => { x with phase := .completing }
      s.blocks.foldl (fun s e => if e.2.2.node = node ∧ e.2.2.control then s.dropBlock e.1 e.2.1 else s) s
    else s
  | none => s

/-- BLOCK_END (R328, R175, R326). -/
def execBlockEnd (core slot : Nat) (s : State) : Host.Outcome State Fault Refusal :=
  match s.block? core slot with
  | none => .next s
  | some b =>
    if !s.endReady core slot b then .next s
    else
      let s := if b.control then s.onInst b.node fun x => { x with controlEnded := true }
        else (s.dropBlock core slot).onInst b.node fun x => { x with ended := x.ended ++ [b.lin] }
      .next ((s.nodeEnds b.node).complete b.node)

/-- R326, R324: one completion delivered to its key. -/
def State.deliver (s : State) (c : Completion) : State :=
  let drop (s : State) : State := { s with compl := s.compl.erase c }
  match s.pending? c.ctx c.record c.group with
  | some x => (drop s).decInst x.node 1
  | none =>
    if fld c.record 7 0 ≠ 0 then (drop s).launchBad c.ctx 0 0x12 c.record
    else match s.readRecord c.ctx c.record with
      | (_, .wait) => s.holdMove c.ctx (some c.record)
      | (s, .bad k) => (drop s).launchBad c.ctx 0 (0x10 + k) c.record
      | (s, .ok r) =>
        ((drop s).addInst c.ctx c.record c.group true r c.povr (r.prio c.povr) 0 0 0 c.podhome
          (fld (r.dw 0) 31 0 - 1) none).1

/-- SUCCESSOR_COMPLETION (R326, R328): an instance whose completion had to wait goes on; else the first completion that
finds its key or an entry is delivered. -/
def execSuccessorCompletion (s : State) : Host.Outcome State Fault Refusal :=
  if !s.graphUp then .next s
  else match s.insts.find? (·.phase == .completing) with
    | some x => .next (s.complete x.node)
    | none =>
      match s.compl.find? fun c => (s.pending? c.ctx c.record c.group).isSome || s.insts.length < 16384 with
      | some c => .next (s.deliver c)
      | none => .next s

end Sys2Proof.Machine
end

