-- ==== Sys2Proof/Machine/Evict.lean ====
section
/-! DEFINITION. Pre-emption (R331 to R334, R301), the commands of CTXCTL (R316), whole-job stops (R335), isles cut off or
reset (R222, R336). -/

namespace Sys2Proof.Machine

/-! ### Victims (R331) -/

/-- What a dispatcher takes away. -/
inductive Victim where
  | gang (core slot gang : Nat)
  | block (core slot : Nat)
  | node (cluster : Nat)
  deriving DecidableEq, Repr

/-- The control block of a cluster's cube node, and its feeding blocks. -/
def State.nodeBlocks (s : State) (cl : Nat) : List (Nat × Nat) :=
  (s.blocks.filter fun e => clusterOf e.1 == cl && e.2.2.feeding).map fun e => (e.1, e.2.1)

/-- Units that the save of a cube node takes. -/
def State.nodeSize (s : State) (cl : Nat) : Nat :=
  ((s.blocks.filter fun e => clusterOf e.1 == cl && (e.2.2.feeding || e.2.2.control)).map fun e => e.2.2.saveSize).foldl (· + ·) 0

/-- The context of a victim and the units that its save takes. -/
def State.victimUse (s : State) (v : Victim) : Nat × Nat :=
  match v with
  | .gang c b _ => ((s.block? c b).map fun b => (b.ctx, b.gangSize)).getD (0, 0)
  | .block c b => ((s.block? c b).map fun b => (b.ctx, b.saveSize)).getD (0, 0)
  | .node cl => ((s.block? (controlCore cl) 0).map fun b => (b.ctx, s.nodeSize cl)).getD (0, 0)

/-- Units that saves of a context already asked for will take. -/
def State.saveDue (s : State) (ctx : Nat) : Nat :=
  s.blocks.foldl (fun n e =>
    if e.2.2.ctx ≠ ctx then n
    else if e.2.2.stopping then n + e.2.2.saveSize
    else n + (e.2.2.gangs.filter fun g => g.req == .evict && !g.evicted).length * e.2.2.gangSize) 0

/-- R331: the context's save area has room for so many more units, beside those of the victims chosen already. -/
def State.saveRoom (s : State) (acc : List Victim) (ctx n : Nat) : Bool :=
  let taken := acc.foldl (fun a v => if (s.victimUse v).1 = ctx then a + (s.victimUse v).2 else a) 0
  (s.ctx ctx).saveUsed + s.saveDue ctx + taken + n ≤ (s.ctx ctx).saveSize.toNat

/-- Gangs of a core that may be evicted for a block of priority `p`, in the order of choice. -/
def Core.gangVictims (c : Core) (p : Nat) : List (Nat × Nat × Block × Gang) :=
  let l := c.blocks.flatMap fun e =>
    if e.2.prio < p ∧ !e.2.cor ∧ !e.2.stopping then (e.2.gangs.zipIdx.filter fun g => !g.1.evicted).map fun g => (e.1, g.2, e.2, g.1)
    else []
  sortBy (fun a b =>
    if a.2.2.1.prio ≠ b.2.2.1.prio then a.2.2.1.prio < b.2.2.1.prio
    else if a.2.2.2.vtime ≠ b.2.2.2.vtime then b.2.2.2.vtime.ult a.2.2.2.vtime
    else b.2.1 < a.2.1) l

/-- Whole blocks that may be evicted, in the order of choice, the resident time being that of R103: a feeding block stands for its cube
node. -/
def Core.blockVictims (c : Core) (p : Nat) : List (Nat × Block) :=
  let l := (c.blocks.filter fun e => e.2.prio < p && !e.2.cor && !e.2.stopping).map fun e => (e.1, e.2)
  sortBy (fun a b => if a.2.prio ≠ b.2.prio then a.2.prio < b.2.prio else b.2.vtime.ult a.2.vtime) l

/-- The core without a gang, as if it had been evicted. -/
def Core.without (c : Core) (slot gang : Nat) : Core :=
  { c with blocks := c.blocks.map fun e => if e.1 = slot then (e.1, e.2.onGang gang fun g => { g with evicted := true, req := .none }) else e }

/-- A core without the victims chosen already. -/
def State.coreLess (s : State) (acc : List Victim) (core : Nat) : Core :=
  acc.foldl (fun (c : Core) v =>
    match v with
    | .gang k b g => if k = core then c.without b g else c
    | .block k b => if k = core then { c with blocks := Tbl.erase c.blocks b } else c
    | .node cl =>
      if clusterOf core = cl then { c with blocks := c.blocks.filter fun e => !(e.2.feeding || e.2.control) } else c) (s.core core)

/-- The fewest gangs, in the order of choice, whose eviction makes the block fit. SAVE_FULL counts those without room in
their save area. -/
def State.planGangs (s : State) (c : Core) (core : Nat) (x : Shape) (acc : List Victim) :
    List (Nat × Nat × Block × Gang) → State × Option (List Victim)
  | [] => (s, if (c.place x).isSome then some acc else none)
  | v :: r =>
    if (c.place x).isSome then (s, some acc)
    else if !s.saveRoom acc v.2.2.1.ctx v.2.2.1.gangSize then
      (s.ctxCount v.2.2.1.ctx .saveFull).planGangs c core x acc r
    else s.planGangs (c.without v.1 v.2.1) core x (acc ++ [.gang core v.1 v.2.1]) r

/-- The same for whole blocks. -/
def State.planBlocks (s : State) (c : Core) (core : Nat) (x : Shape) (acc : List Victim) :
    List (Nat × Block) → State × Option (List Victim)
  | [] => (s, if (c.place x).isSome then some acc else none)
  | v :: r =>
    let w : Victim := if v.2.feeding then .node (clusterOf core) else .block core v.1
    if (c.place x).isSome then (s, some acc)
    else if !s.saveRoom acc v.2.ctx (s.victimUse w).2 then (s.ctxCount v.2.ctx .saveFull).planBlocks c core x acc r
    else s.planBlocks { c with blocks := Tbl.erase c.blocks v.1 } core x (acc ++ [w]) r

/-- R331: of the victims `l`, the last first, those without which the block fits are let go; `keep` stay. DESIGN CHOICE, log 21: those
chosen first are the last to be let go. -/
def State.needed (s : State) (core : Nat) (x : Shape) (acc keep : List Victim) : List Victim → List Victim
  | [] => keep
  | v :: r =>
    if ((s.coreLess (acc ++ r ++ keep) core).place x).isSome then s.needed core x acc keep r
    else s.needed core x acc (v :: keep) r

/-- R331: the victims chosen already with those that make room for a block on a core: only as many as it needs. -/
def State.planCore (s : State) (acc : List Victim) (core p : Nat) (x : Shape) : State × Option (List Victim) :=
  let c := s.coreLess acc core
  let (s, l) := if (c.room x).isSome then s.planGangs c core x acc (c.gangVictims p) else s.planBlocks c core x acc (c.blockVictims p)
  (s, l.map fun l => acc ++ s.needed core x acc [] (l.drop acc.length).reverse)

/-- The first core of a list on which room can be freed. -/
def State.planIsle (s : State) (p : Nat) (x : Shape) : List Nat → State × Option (List Victim)
  | [] => (s, none)
  | c :: r =>
    match s.planCore [] c p x with
    | (s, some l) => (s, some l)
    | (s, none) => s.planIsle p x r

/-- The cores of a cluster that a cube node's feeding blocks need. -/
def State.planCores (s : State) (p : Nat) (x : Shape) (acc : List Victim) : List Nat → State × Option (List Victim)
  | [] => (s, some acc)
  | c :: r =>
    match s.planCore acc c p x with
    | (s, some l) => s.planCores p x l r
    | (s, none) => (s, none)

/-- The node whose control thread holds a cluster's control core, as a victim for priority `p`; none where it cannot be one. -/
def State.planControl (s : State) (cl p : Nat) : State × Option (List Victim) :=
  match s.block? (controlCore cl) 0 with
  | none => (s, some [])
  | some b =>
    if !(b.prio < p && !b.cor && !b.stopping) then (s, none)
    else if s.saveRoom [] b.ctx (s.nodeSize cl) then (s, some [.node cl])
    else (s.ctxCount b.ctx .saveFull, none)

/-- The first cluster of an isle on which a cube node can be given room. -/
def State.planCube (s : State) (isle p : Nat) (r : Rec) : List Nat → State × Option (List Victim)
  | [] => (s, none)
  | cl :: rest =>
    match s.planControl (isle * 24 + cl) p with
    | (s, none) => s.planCube isle p r rest
    | (s, some acc) =>
      match s.planCores p r.shape acc ((List.range r.feeders).map fun k => coreNum isle cl k) with
      | (s, some l) => (s, some l)
      | (s, none) => s.planCube isle p r rest

/-- The blocks of a COR instance placed as far as they go: the state, and the block that does not fit. -/
def State.corWaits (s : State) (x : Instance) : List Nat → State × Option Nat
  | [] => (s, none)
  | l :: r =>
    match s.dispatchOne x l with
    | (s, true) => s.corWaits x r
    | (s, false) => (s, some l)

/-- Victims for the head of an isle (R331); the counters of the search, and the list. -/
def State.plan? (s : State) (isle : Nat) : State × List Victim :=
  match s.headInst isle with
  | none => (s, [])
  | some x =>
    let r := x.recd
    if r.isCube then
      match s.planCube isle x.prio r (List.range 24) with
      | (s, some l) => (s, l)
      | (s, none) => (s, [])
    else if r.cor then
      match s.corWaits x (List.range r.blocks) with
      | (t, some l) =>
        (match t.planIsle x.prio r.shape (isleCores (x.isleAt l)) with
          | (t, some v) => ({ s with ctxs := t.ctxs }, v)
          | (t, none) => ({ s with ctxs := t.ctxs }, []))
      | (_, none) => (s, [])
    else match s.planIsle x.prio r.shape (isleCores isle) with
      | (s, some l) => (s, l)
      | (s, none) => (s, [])

/-- A gang asked to stop for its save: at once where it is not running (R331), with a debugger's halt that is still to take effect
before it (R349). -/
def State.askGang (s : State) (core slot gang : Nat) : State :=
  match s.gang? core slot gang with
  | some g =>
    if g.st = .running then s.onGang core slot gang (·.ask .evict)
    else (if g.haltLeft then s.haltParked core slot gang g else s).evictGang core slot gang
  | none => s

/-- A block asked to stop for its save (R331, R81); a debugger's request that is still to take effect stands (R349). -/
def State.askBlock (s : State) (core slot : Nat) : State :=
  s.onBlock core slot fun b =>
    { b with
      stopping := true
      gangs := b.gangs.map fun g => if g.st = .running ∧ !g.evicted then g.ask .evict else g }

def State.ask (s : State) (v : Victim) : State :=
  match v with
  | .gang c b g => s.askGang c b g
  | .block c b => s.askBlock c b
  | .node cl => (s.nodeBlocks cl).foldl (fun s p => s.askBlock p.1 p.2) (s.askBlock (controlCore cl) 0)

def Victim.whole (v : Victim) : Bool :=
  match v with
  | .gang _ _ _ => false
  | _ => true

/-- GANG_EVICTION (R331, R332): the victims of the waiting block, where only single gangs are needed. -/
def execGangEviction (isle : Nat) (s : State) : Host.Outcome State Fault Refusal :=
  if !s.graphUp || !s.isleUp isle || s.evicting isle then .next s
  else
    let (t, l) := s.plan? isle
    .next (if l.any (·.whole) then s else l.foldl State.ask t)

/-! ### Saves (R333, R301, R107) -/

/-- Every gang of a block stands still. -/
def Block.still (b : Block) : Bool := b.gangs.all fun g => g.st != .running || g.evicted

/-- R107, R283, R333: nothing of the block is under way. -/
def State.quietBlock (s : State) (core slot : Nat) (b : Block) : Bool :=
  let c := s.core core
  !(c.ferry.any fun f => f.slot == slot) &&
    !(c.eng.any fun e => match e with
      | .feed _ sl _ _ _ _ _ _ _ _ _ _ _ _ _ => sl == slot
      | .drain _ sl _ _ _ _ => sl == slot) &&
    b.th.outst.isEmpty && (match b.th.wait with
      | .peer _ _ => false
      | _ => true) &&
    b.gangs.all fun g => g.outst.isEmpty && g.late.isNone && !g.outstanding

/-- A block as it is saved: no stash lines, no queues, its held ferry commands with it. DESIGN CHOICE, log 30: the trap bank is
kept whatever the handler-active flag is (R107). -/
def State.savedBlock (s : State) (core slot : Nat) (b : Block) : Block :=
  { b with
    stash := []
    stopping := false
    gangs := b.gangs.map fun g => { g with saved := 0 }
    mbs := vec 16 fun i => { vat b.mbs Mailbox.empty i with readers := [], writers := [] }
    held := ((s.core core).ferryWait.filter fun f => f.1 == slot).map fun f => f.2 }

/-- A block saved and its core freed (R333). -/
def State.saveBlock (s : State) (core slot : Nat) : State :=
  match s.block? core slot with
  | none => s
  | some b =>
    let z := b.saveSize
    let s := s.stashSave core slot
    let sb := s.savedBlock core slot b
    let s := (s.dropBlock core slot).useSave b.ctx z
    { s with saved := s.saved ++ [.block (isleOf core) sb z] }

/-- A cube node saved whole (R301). A load or an image drain that is interrupted runs again from its beginning. -/
def State.saveNode (s : State) (cl : Nat) : State :=
  match s.controlBlock? cl with
  | none => s
  | some c =>
    let l := s.nodeBlocks cl
    let s := l.foldl (fun s p => s.stashSave p.1 p.2) s
    let fs := l.filterMap fun p => (s.block? p.1 p.2).map fun b => s.savedBlock p.1 p.2 b
    let z := c.saveSize + (fs.map Block.saveSize).foldl (· + ·) 0
    let q := s.cube cl
    let s := (l.foldl (fun s p => s.dropBlock p.1 p.2) s).dropBlock (controlCore cl) 0
    let s := (s.setCube cl Cube.reset).useSave c.ctx z
    { s with saved := s.saved ++ [.node (cl / 24) { c with stopping := false } q fs z] }

/-- A block, or a cube node with all its blocks, is ready to be saved. -/
def State.blockSaveable (s : State) (core slot : Nat) (b : Block) : Bool := b.still && s.quietBlock core slot b
def State.nodeSaveable (s : State) (cl : Nat) : Bool :=
  (match s.controlBlock? cl with
    | some b => s.quietBlock (controlCore cl) 0 b
    | none => false) &&
    (s.nodeBlocks cl).all fun p => match s.block? p.1 p.2 with
      | some b => s.blockSaveable p.1 p.2 b
      | none => true

/-- The first victim of an isle that has come to a stop. -/
def State.readyVictim (s : State) (isle : Nat) : Option Victim :=
  s.blocks.findSome? fun e =>
    if isleOf e.1 = isle ∧ e.2.2.stopping then
      if e.2.2.control then (if s.nodeSaveable (clusterOf e.1) then some (.node (clusterOf e.1)) else none)
      else if e.2.2.feeding then none
      else if s.blockSaveable e.1 e.2.1 e.2.2 then some (.block e.1 e.2.1) else none
    else none

/-- BLOCK_EVICTION (R331, R333): a victim that has come to a stop is saved; else the victims of the waiting block are
asked to stop, where whole blocks are needed. -/
def execBlockEviction (isle : Nat) (s : State) : Host.Outcome State Fault Refusal :=
  if !s.graphUp || !s.isleUp isle then .next s
  else match s.readyVictim isle with
    | some (.node cl) =>
      .next ((s.saveNode cl).ctxCount (((s.controlBlock? cl).map (·.ctx)).getD 0) .evictBlock)
    | some (.block c b) => .next ((s.saveBlock c b).ctxCount (((s.block? c b).map (·.ctx)).getD 0) .evictBlock)
    | _ =>
      if s.evicting isle then .next s
      else
        let (t, l) := s.plan? isle
        .next (if l.any (·.whole) then l.foldl State.ask t else s)

/-! ### Restores (R332, R333) -/

/-- R327: a waiting head of higher priority goes first. -/
def State.headOver (s : State) (isle p : Nat) : Bool := match s.headInst isle with
  | some x => p < x.prio
  | none => false

/-- Evicted gangs of a core in the order of their restores. -/
def State.evictedGangs (s : State) (core : Nat) : List (Nat × Nat × Block × Gang) :=
  sortBy (fun a b => if a.2.2.1.prio ≠ b.2.2.1.prio then b.2.2.1.prio < a.2.2.1.prio else a.2.2.2.evictedAt < b.2.2.2.evictedAt)
    ((s.core core).blocks.flatMap fun e =>
      if e.2.stopping then [] else (e.2.gangs.zipIdx.filter (·.1.restorable)).map fun g => (e.1, g.2, e.2, g.1))

/-- GANG_RESTORE (R332): the gang returns in the state it was in; its pending reads are posted again (R134). -/
def execGangRestore (core : Nat) (s : State) : Host.Outcome State Fault Refusal :=
  match s.evictedGangs core with
  | [] => .next s
  | (slot, i, b, g) :: _ =>
    if s.headOver (isleOf core) b.prio then .next s
    else match (s.core core).gangRoom b.shape.n with
      | some v =>
        .next ((s.onBlock core slot fun b =>
          ((b.onGang i fun g => { g with evicted := false, vbase := v, sealStop := false, waitStop := false, saved := 0 }).queueReads
            i).queueWrites i).freeUnits b.ctx g.saved)
      | none => .next s

/-- R134: the pending mailbox reads of a restored block are posted again, at the tails of the queues; its waiting writes stand
in them again. -/
def Block.repost (b : Block) : Block :=
  (List.range b.gangs.length).foldl (fun (b : Block) i => (b.queueReads i).queueWrites i) b

/-- R134, R335: a gang as it goes on after a save: its waits stand, but those of the cut are over; a debugger's request that has
not taken effect stands (R349). -/
def Gang.goOn (g : Gang) (v : Nat) : Gang :=
  { g with
    evicted := false
    req := if g.req = .halt ∨ g.req = .step then g.req else .none
    sealStop := false
    waitStop := false
    vbase := v
    groups := g.groups.map fun x =>
      match x.wait with
      | .stepCut | .stepped => { x with wait := .none, held := none }
      | _ => x }

/-- R104: an interrupted wait of a thread is tried again; a refire and a migration stay (R260, R212). -/
def Thread.goOn (t : Thread) : Thread :=
  match t.wait with
  | .refire _ | .migrate _ => t
  | _ => { t with wait := .none }

/-- A saved block on a core again (R333, R74, R283). -/
def State.unsave (s : State) (core : Nat) (p : Placement) (b : Block) : State :=
  let gangs := b.gangs.zipIdx.map fun g => g.1.goOn (p.regs.getD g.2 0)
  let b := { b with fbase := p.fbase, sbase := p.sbase, born := s.clock, th := b.th.goOn, gangs := gangs }
  let held := b.held.map fun f => (p.slot, f.1, f.2.1, { f.2.2 with slot := p.slot, waits := none })
  let s := s.putBlock core p ({ b with held := [] } : Block).repost
  s.setCore core { s.core core with ferryWait := (s.core core).ferryWait ++ held }

/-- The saved work of an isle that is restored next: higher priority, then order of eviction. -/
def State.nextSaved (s : State) (isle : Nat) : Option Saved :=
  (s.saved.filter fun x => x.isle == isle && (s.ctx x.ctx).st == .live).foldl (fun a x =>
    match a with
    | none => some x
    | some y => if y.prio < x.prio then some x else some y) none

def Saved.size (x : Saved) : Nat :=
  match x with
  | .block _ _ z => z
  | .node _ _ _ _ z => z

/-- The record of restored work leaves the save area. -/
def State.freeSave (s : State) (x : Saved) : State :=
  let s := { s with saved := s.saved.erase x }
  s.setCtx x.ctx { s.ctx x.ctx with saveUsed := (s.ctx x.ctx).saveUsed - x.size }

/-- BLOCK_RESTORE (R333). -/
def execBlockRestore (isle : Nat) (s : State) : Host.Outcome State Fault Refusal :=
  if !s.graphUp || !s.isleUp isle then .next s
  else match s.nextSaved isle with
    | none => .next s
    | some x =>
      if s.headOver isle x.prio then .next s
      else match x with
        | .block _ b _ =>
          (match s.findCore isle b.shape (isleCores isle) with
            | (s, some (c, p)) => .next ((s.freeSave x).unsave c p b)
            | (s, none) => .next s)
        | .node _ c q fs _ =>
          (match s.findCluster isle (fs.map fun b => (b.lin, b.shape)) (List.range 24) with
            | (s, none) => .next s
            | (s, some (cl, l)) =>
              let s := (l.zip fs).foldl (fun s p => s.unsave (coreNum isle cl p.2.lin) p.1 p.2) (s.freeSave x)
              .next ((s.putBlock (coreNum isle cl 4) ⟨0, 0, 0, []⟩ { c with th := c.th.goOn, born := s.clock }).setCube
                (isle * 24 + cl) q))

/-! ### The commands of CTXCTL (R316) -/

/-- CREATE (R316). The dump sequence counts from here (R361). -/
def execCreate (ctx : Nat) (s : State) : Host.Outcome State Fault Refusal :=
  let c := s.ctx ctx
  .next (if s.graphUp && c.st = .free then s.setCtx ctx { c with st := .live, dseq := 0 } else s)

/-- R335: T, the largest step count among the context's resident blocks. -/
def State.cutCount (s : State) (ctx : Nat) : BitVec 16 :=
  s.blocks.foldl (fun (t : BitVec 16) e => if e.2.2.ctx = ctx ∧ t.ult e.2.2.sc then e.2.2.sc else t) 0

/-- STOP (R335). -/
def execStop (ctx : Nat) (s : State) : Host.Outcome State Fault Refusal :=
  let c := s.ctx ctx
  .next (if s.graphUp && c.st = .live then s.setCtx ctx { c with st := .stopping, cut := some (s.cutCount ctx) } else s)

/-- The thread of a block goes on, if only into its handler. -/
def Block.goesOn (b : Block) : Bool := !b.th.halted && !b.th.ended && (b.th.wait == .none || b.faultReady.isSome)

/-- R335: a gang at the boundary. One that is parked for a fault is there once the thread cannot let it go on, one that has been
evicted alone if it stopped at a wait; one that is parked for a refire can be saved where it is (R260, log 21). -/
def Gang.atCut (g : Gang) (goes : Bool) : Bool :=
  match g.st with
  | .idle => true
  | .parked => g.halted || !goes
  | .running => if g.evicted then g.req == .cut || g.waitStop else g.refireOn.isSome || g.groups.all (·.atWait)

/-- R335: a block at the boundary: its gangs are, and it is at T or nothing in it can run on. -/
def Block.atCut (b : Block) (t : BitVec 16) : Bool :=
  b.control || (b.gangs.all (·.atCut b.goesOn) &&
    (t.ule b.sc || b.gangs.any (fun g => g.st == .running) || b.th.wait != .none || b.th.halted))

/-- R335: the cut of a context is complete, and nothing of its blocks is under way. -/
def State.cutReady (s : State) (ctx : Nat) (t : BitVec 16) : Bool :=
  s.blocks.all fun e => e.2.2.ctx != ctx || (e.2.2.atCut t && s.quietBlock e.1 e.2.1 e.2.2)

/-- Everything of a context saved (R335, R333). -/
def State.saveAll (s : State) (ctx : Nat) : State :=
  let s := s.blocks.foldl (fun s e => if e.2.2.ctx = ctx ∧ e.2.2.control then s.saveNode (clusterOf e.1) else s) s
  s.blocks.foldl (fun s e => if e.2.2.ctx = ctx then s.saveBlock e.1 e.2.1 else s) s

/-- R81, R335: a gang that is stalled fetching comes to a seal stop under the cut, where its block is at T or its thread does
not go on. -/
def State.cutSeals (s : State) (ctx : Nat) (t : BitVec 16) : State :=
  s.blocks.foldl (fun s e =>
    let b := e.2.2
    if b.ctx = ctx ∧ !b.control ∧ (t.ule b.sc || b.th.wait != .none || b.th.ended || b.th.halted) then
      b.gangs.zipIdx.foldl (fun s p =>
        match b.stopAt p.1, p.1.req with
        | some (true, _), .none =>
          s.onGang e.1 e.2.1 p.2 fun g => { g with evicted := true, req := .cut, sealStop := true, waitStop := false }
        | _, _ => s) s
    else s) s

/-- CUT_COMPLETE (R335). -/
def execCutComplete (ctx : Nat) (s : State) : Host.Outcome State Fault Refusal :=
  match (s.ctx ctx).st, (s.ctx ctx).cut with
  | .stopping, some t =>
    if s.cutReady ctx t then
      let s := s.saveAll ctx
      .next (s.setCtx ctx { s.ctx ctx with st := .stopped, cut := none })
    else .next (s.cutSeals ctx t)
  | _, _ => .next s

/-- RESUME (R316, R335). -/
def execResume (ctx : Nat) (s : State) : Host.Outcome State Fault Refusal :=
  let c := s.ctx ctx
  .next (if s.graphUp && c.st = .stopped then s.setCtx ctx { c with st := .live } else s)

/-- TERMINATE (R316, R338, R355). -/
def execTerminate (ctx : Nat) (s : State) : Host.Outcome State Fault Refusal :=
  let st := (s.ctx ctx).st
  .next (if s.graphUp && (st = .live ∨ st = .stopping ∨ st = .stopped) then s.endBare ctx .terminated 0 0x91 else s)

/-- RELEASE (R316): the registers take their reset values, except TCFG SHIFT and the age bound table. -/
def execRelease (ctx : Nat) (s : State) : Host.Outcome State Fault Refusal :=
  let c := s.ctx ctx
  .next (if s.graphUp && (c.st = .terminated ∨ c.st = .lost ∨ c.st = .stopped) then
    (s.discard ctx).setCtx ctx { Ctx.reset with shift := c.shift, abent := c.abent }
  else s)

/-! ### Isles (R222, R336) -/

/-- A rising run of `n` keys laid into a table of marks. -/
def mergeMarks (a n : Nat) (t : Tbl Unit) : Tbl Unit :=
  (t.filter fun e => e.1 < a) ++ ((List.range n).map fun i => (a + i, ())) ++ t.filter fun e => a + n ≤ e.1

/-- `n` sectors from `a` poisoned at the home. -/
def State.poisonRun (s : State) (a n : Nat) : State :=
  { s with mem := { s.mem with poison := mergeMarks a n s.mem.poison } }

/-- R222: the lines of one region that an isle loses. -/
def State.isleRegion (s : State) (isle r : Nat) : State :=
  let x := s.region r
  match x.st with
  | 0 =>
    if x.owner = some isle then
      ((s.poisonRun (r * 65536) 65536).setRegion r { x with owner := none }).count (lagoonCtr 3) 16384
    else s
  | 2 =>
    let held := x.excl.filter fun e => e.2 == isle
    let s := held.foldl (fun s e => s.poisonRun (4 * e.1) 4) s
    let sharers := (x.sharers.map fun e => (e.1, e.2 &&& ~~~(BitVec.ofNat 8 (2 ^ isle)))).filter fun e => e.2 != 0
    let s := s.setRegion r { x with excl := x.excl.filter fun e => e.2 != isle, sharers := sharers }
    if held.isEmpty then s else s.count (lagoonCtr 3) held.length
  | _ => s

/-- Contexts with a block, thread, cube node or saved state on an isle (R336). -/
def State.ctxsOn (s : State) (isle : Nat) : List Nat :=
  sortNat (((s.blocks.filter fun e => isleOf e.1 == isle).map fun e => e.2.2.ctx) ++
    (s.saved.filter fun x => x.isle == isle).map Saved.ctx)

/-- The stash lines of an isle are lost with it: they are not written back (R222). -/
def State.dropStash (s : State) (isle : Nat) : State :=
  s.blocks.foldl (fun s e => if isleOf e.1 = isle then s.onBlock e.1 e.2.1 fun b => { b with stash := [] } else s) s

/-- R222, R336: what an isle's loss or reset does outside its own registers. -/
def State.isleGone (s : State) (isle : Nat) : State :=
  let l := s.ctxsOn isle
  let s := s.dropStash isle
  let s := (s.dir.map (·.1)).foldl (fun s r => s.isleRegion isle r) s
  let s := l.foldl (fun s c => s.endBare c .lost isle 0x90) s
  { s with ready := s.ready &&& ~~~((1 : DWord) <<< (28 + isle)) }

/-- ISLE_LOST (R336): the isle's caches go with it. -/
def execIsleLost (isle : Nat) (s : State) : Host.Outcome State Fault Refusal :=
  if 8 ≤ isle then .next s
  else
    let s := s.isleGone isle
    let cores := s.cores.map fun e =>
      if isleOf e.1 = isle then (e.1, { e.2 with l1 := [], victims := [], tlb := [] }) else e
    .next { s with cores := cores }

/-- ISLE_RESET (R222, R336): the isle's cores take their reset state. -/
def execIsleReset (isle : Nat) (s : State) : Host.Outcome State Fault Refusal :=
  if 8 ≤ isle then .next s
  else
    let s := s.isleGone isle
    .next { s with
      cores := s.cores.filter fun e => isleOf e.1 != isle
      cubes := s.cubes.filter fun e => e.1 / 24 != isle }

end Sys2Proof.Machine
end

