-- ==== Sys2Proof/Machine/Tide.lean ====
section
/-! DEFINITION. The tide blocks of the contexts (R246 to R248), the owners of frames (R261), the sweepers and scrubbers
(R27). -/

namespace Sys2Proof.Machine

/-! ### TCFG and TOFFSET -/

/-- A fault is queued in saved work. -/
def Saved.queued (x : Saved) : Bool :=
  match x with
  | .block _ b _ => !b.th.queue.isEmpty
  | .node _ c _ fs _ => !c.th.queue.isEmpty || fs.any fun b => !b.th.queue.isEmpty

/-- R248: no resident block or thread, no queued fault, no pending refire. -/
def State.ctxStill (s : State) (ctx : Nat) : Bool :=
  s.blocks.all (fun e => e.2.2.ctx != ctx) && (s.insts.all fun x => x.ctx != ctx || x.producer.isNone) &&
    s.saved.all fun x => x.ctx != ctx || !x.queued

/-- R246: HOLD captures the context tide in HVAL; ignored unless DEBUG is 1 (R247). -/
def State.holdSet (s : State) (ctx : Nat) : State :=
  let c := s.ctx ctx
  if c.debug && !c.hold then s.setCtx ctx { c with hval := c.tideAt s.tide, hold := true } else s

/-- R246: clearing HOLD sets OFFSET so that the context tide resumes from HVAL. -/
def State.holdClear (s : State) (ctx : Nat) : State :=
  let c := s.ctx ctx
  if c.debug && c.hold then
    let c := { c with hold := false }
    s.setCtx ctx { c with offset := ({ c with offset := 0 } : Ctx).tideAt s.tide - c.hval }
  else s

/-- R246: STEP while HOLD is 1. -/
def State.tideStep (s : State) (ctx : Nat) : State :=
  let c := s.ctx ctx
  if c.hold then s.setCtx ctx { c with hval := c.hval + 1 } else s

/-- R248. -/
def State.shiftWrite (s : State) (ctx : Nat) (v : BitVec 5) : State :=
  if s.ctxStill ctx then s.setCtx ctx { s.ctx ctx with shift := v } else s

/-- HOLD_SET (R246). -/
def execHoldSet (ctx : Nat) (s : State) : Host.Outcome State Fault Refusal :=
  .next (if s.graphUp then s.holdSet ctx else s)

/-- HOLD_CLEAR (R246). -/
def execHoldClear (ctx : Nat) (s : State) : Host.Outcome State Fault Refusal :=
  .next (if s.graphUp then s.holdClear ctx else s)

/-- TIDE_STEP (R246). -/
def execTideStep (ctx : Nat) (s : State) : Host.Outcome State Fault Refusal :=
  .next (if s.graphUp then s.tideStep ctx else s)

/-- SHIFT_WRITE (R248). -/
def execShiftWrite (ctx : Nat) (v : BitVec 5) (s : State) : Host.Outcome State Fault Refusal :=
  .next (if s.graphUp then s.shiftWrite ctx v else s)

/-- TOFFSET_WRITE (R248). -/
def execToffsetWrite (ctx : Nat) (v : DWord) (s : State) : Host.Outcome State Fault Refusal :=
  .next (if s.graphUp && s.ctxStill ctx then s.setCtx ctx { s.ctx ctx with offset := v } else s)

/-! ### Owners of frames -/

/-- The RW fields of FOWNSET (R261). -/
def fownMask : DWord := 0x400003FFFFFF0FFF

/-- FOWNSET_GO (R261): a write of FOWNSET with GO applies OWNED, FRAME and CTX. -/
def execFownsetGo (v : DWord) (s : State) : Host.Outcome State Fault Refusal :=
  if !s.lagoonUp then .next s
  else
    let s := { s with fownset := v &&& fownMask }
    let frame := fld v 41 16
    .next (if !v.getLsbD 63 then s
      else { s with fown := if v.getLsbD 62 then Tbl.set s.fown frame (fld v 11 0) else Tbl.erase s.fown frame })

/-! ### Sweepers and scrubbers -/

/-- R27: the tide in which a memory sector is measured. -/
def State.frameTide (s : State) (sec : Nat) : DWord :=
  match Tbl.get? s.fown (sec / 2048) with
  | some ctx => s.ctide ctx
  | none => s.tide

/-- A tide in which stamps are measured, and how far it is about to move on. -/
structure Aging where
  tide : DWord
  growth : Nat
  deriving DecidableEq, Repr

/-- A context's tide while the package's moves to `next`. -/
def State.aging (s : State) (next : DWord) (ctx : Nat) : Aging := ⟨s.ctide ctx, ((s.ctx ctx).tideAt next - s.ctide ctx).toNat⟩

/-- R27: the same of a memory sector. -/
def State.frameAging (s : State) (next : DWord) (sec : Nat) : Aging :=
  match Tbl.get? s.fown (sec / 2048) with
  | some ctx => s.aging next ctx
  | none => ⟨s.tide, (next - s.tide).toNat⟩

/-- R27: the tide of an L1 line is that of a resident context of its core: of the block that filled it, or where that has
left of the first block there; a core that holds none measures it in the package's tide (log 23). -/
def State.lineAging (s : State) (core : Nat) (l : L1Line) (next : DWord) : Aging :=
  let c := s.core core
  match (Tbl.get? c.blocks l.slot).orElse fun _ => c.blocks.head?.map (·.2) with
  | some b => s.aging next b.ctx
  | none => ⟨s.tide, (next - s.tide).toNat⟩

/-- The line and sector of a scratchpad sector number beyond the plain part: the stash lines in their order. -/
def Block.stashAt (b : Block) (sec : Nat) : Option (Nat × StashLine × Nat) :=
  if sec < b.shape.plain / 32 then none
  else (b.stash[(sec - b.shape.plain / 32) / 4]?).map fun e => (e.1, e.2, (sec - b.shape.plain / 32) % 4)

/-- The stamps of a result, in their order. -/
def PendVal.stamps (v : PendVal) : List Stamp :=
  match v with
  | .lanes _ _ _ secs _ => secs.toList
  | .spec _ _ _ st => st.toList
  | .frames _ regs => regs.flatMap (·.stamps.toList)
  | .uni _ x _ => [x.stamp]
  | .mail _ _ => []

/-- The vector whose entry `i` is what `f` makes of place `i` and entry `i` of `v`. -/
def mapAt {α : Type} {n : Nat} (f : Nat → α → α) (v : Vector α n) : Vector α n :=
  ⟨⟨v.toList.zipIdx.map fun e => f e.2 e.1⟩, by simp⟩

/-- A result with its stamps replaced, each by its place. -/
def PendVal.onStamps (f : Nat → Stamp → Stamp) (v : PendVal) : PendVal :=
  match v with
  | .lanes r m vals secs adr => .lanes r m vals (mapAt f secs) adr
  | .spec r m vals st => .spec r m vals (mapAt f st)
  | .frames r regs =>
    .frames r (regs.zipIdx.map fun e => { e.1 with stamps := mapAt (fun j => f (8 * e.2 + j)) e.1.stamps })
  | .uni w x adr => .uni w { x with stamp := f 0 x.stamp } adr
  | .mail w mb => .mail w mb

/-- The tide of a gang's registers (R27): while the gang is evicted they lie in its context's save area. -/
def State.gangTide (s : State) (b : Block) (g : Gang) : DWord :=
  if g.evicted then s.frameTide ((s.ctx b.ctx).saveBase.toNat * 128) else s.ctide b.ctx

/-- The stamp at a place with the tide that measures it (R27) and the SCRUB_REPL of its unit (R261, R374). -/
def State.placeStamp? (s : State) (p : StampPlace) : Option (Stamp × DWord × Nat) :=
  let inBlock (core slot : Nat) (f : Block → Option Stamp) : Option (Stamp × DWord × Nat) :=
    (s.block? core slot).bind fun b => (f b).map fun st => (st, s.ctide b.ctx, coreCtr core (if core % 8 = 4 then 2 else 5))
  let inGang (core slot gang : Nat) (f : Gang → Option Stamp) : Option (Stamp × DWord × Nat) :=
    (s.block? core slot).bind fun b => (b.gangs[gang]?).bind fun g => (f g).map fun st =>
      (st, s.gangTide b g,
        if g.evicted then baseCtr (baseOf ((s.ctx b.ctx).saveBase.toNat * 4096)) 9 else coreCtr core 5)
  let inCube (cl : Nat) (f : Cube → Stamp) : Option (Stamp × DWord × Nat) :=
    (s.controlBlock? cl).map fun b => (f (s.cube cl), s.ctide b.ctx, coreCtr (controlCore cl) 2)
  match p with
  | .memory sec => some (s.mem.stamp sec, s.frameTide sec, baseCtr (baseOf (32 * sec)) 9)
  | .scratch core slot sec => inBlock core slot fun b =>
    match b.stashAt sec with
    | some (_, l, k) => some (l.stamps.getD k ancient)
    | none => some (b.sp.stamp sec)
  | .greg core slot h r => inBlock core slot fun b =>
    some (vat (if h then b.th.h else b.th.g) SVal.zero r.toNat).stamp
  | .wreg core slot gang r => inGang core slot gang fun g => some (g.wreg r.toNat).stamp
  | .vreg core slot gang reg j => inGang core slot gang fun g => some (stampAt (g.bank reg).stamps j.toNat)
  | .spill core slot gang k j => inGang core slot gang fun g => (Tbl.get? g.spill k).map fun r => stampAt r.stamps j.toNat
  | .transient core slot gang num j => inGang core slot gang fun g =>
    ((g.window.find? fun e => e.num == num).bind (·.tr)).map fun t => stampAt t.stamps j.toNat
  | .result core slot gang id i => inGang core slot gang fun g =>
    (g.pend.find? fun p => p.id == id).bind fun p => p.val.stamps[i]?
  | .oldSector core slot sec => inBlock core slot fun b => (Tbl.get? b.spOld sec).map (·.2.1)
  | .mailbox core slot m => inBlock core slot fun b => some (vat b.mbs Mailbox.empty m.toNat).v.stamp
  | .l1 core line k =>
    (Tbl.get? (s.core core).l1 line).map fun l =>
      (l.stamps.getD k.toNat ancient, (s.lineAging core l s.tide).tide, coreCtr core (if core % 8 = 4 then 2 else 5))
  | .obuf cl sec => inCube cl fun c => c.obuf.stamp sec
  | .stratum cl sec => inCube cl fun c => c.stratum.stamp sec
  | .scale cl sec => inCube cl fun c => c.scale.stamp sec
  | .bank cl i => inCube cl fun c => (c.bank i).stamp

/-- The stamp at a place replaced by ANCIENT, alone (R27). -/
def State.makeAncient (s : State) (p : StampPlace) : State :=
  match p with
  | .memory sec => { s with mem := s.mem.setStamp sec ancient }
  | .scratch core slot sec => s.onBlock core slot fun b =>
    match b.stashAt sec with
    | some (key, l, k) => { b with stash := Tbl.set b.stash key { l with stamps := setAt l.stamps k ancient } }
    | none => { b with sp := b.sp.setStamp sec ancient }
  | .greg core slot h r => s.onThread core slot fun t =>
    let put (v : Vector SVal 32) : Vector SVal 32 := vput v r.toNat { vat v SVal.zero r.toNat with stamp := ancient }
    if h then { t with h := put t.h } else { t with g := put t.g }
  | .wreg core slot gang r => s.onGang core slot gang fun g =>
    { g with w := vput g.w r.toNat { g.wreg r.toNat with stamp := ancient } }
  | .vreg core slot gang reg j => s.onGang core slot gang fun g =>
    g.setBank reg { g.bank reg with stamps := vput (g.bank reg).stamps j.toNat ancient }
  | .spill core slot gang k j => s.onGang core slot gang fun g =>
    match Tbl.get? g.spill k with
    | some r => { g with spill := Tbl.set g.spill k { r with stamps := vput r.stamps j.toNat ancient } }
    | none => g
  | .transient core slot gang num j => s.onGang core slot gang fun g =>
    { g with window := g.window.map fun e =>
        if e.num = num then { e with tr := e.tr.map fun t => { t with stamps := vput t.stamps j.toNat ancient } } else e }
  | .result core slot gang id i => s.onGang core slot gang fun g =>
    { g with pend := g.pend.map fun p =>
        if p.id = id then { p with val := p.val.onStamps fun k x => if k = i then ancient else x } else p }
  | .oldSector core slot sec => s.onBlock core slot fun b =>
    match Tbl.get? b.spOld sec with
    | some x => { b with spOld := Tbl.set b.spOld sec (x.1, ancient, x.2.2) }
    | none => b
  | .mailbox core slot m => s.onBlock core slot fun b => b.onMb m.toNat fun x => { x with v := { x.v with stamp := ancient } }
  | .l1 core line k =>
    match Tbl.get? (s.core core).l1 line with
    | some l =>
      s.setCore core { s.core core with l1 := Tbl.set (s.core core).l1 line { l with stamps := setAt l.stamps k.toNat ancient } }
    | none => s
  | .obuf cl sec => s.onCube cl fun c => { c with obuf := c.obuf.setStamp sec ancient }
  | .stratum cl sec => s.onCube cl fun c => { c with stratum := c.stratum.setStamp sec ancient }
  | .scale cl sec => s.onCube cl fun c => { c with scale := c.scale.setStamp sec ancient }
  | .bank cl i => s.onCube cl fun c => c.setBank i { c.bank i with stamp := ancient }

/-- R27: an age that no bound can name, before the ahead window. -/
def overage (tide : DWord) (st : Stamp) : Bool :=
  match age (stampOf tide) st with
  | some a => 0x7FFFFF < a
  | none => false

/-! What a sweep of whole parts of the package does: every stamp that is due is replaced. -/

/-- R27: a stamp that, when its tide has moved on, could reach the age 0xC0_0000 before 2^21 further ticks have passed. One
in the ahead window has the window to cross first (R25). -/
def overdue (t : Aging) (st : Stamp) : Bool :=
  let d := (stampOf t.tide - st).toNat
  st != ageless && st != ancient && (if 0xC00000 ≤ d then 0x9FFFFF + 2 ^ 24 else 0x9FFFFF) < d + t.growth

def scrubbed (t : Aging) (st : Stamp) : Stamp := if overdue t st then ancient else st

def scrubVal (t : Aging) (x : SVal) : SVal := { x with stamp := scrubbed t x.stamp }

def scrubReg (t : Aging) (x : VReg) : VReg := { x with stamps := x.stamps.map (scrubbed t) }

def Store.scrub (m : Store) (t : Aging) : Store := { m with stamps := m.stamps.filter fun e => !overdue t e.2 }

def AtomReq.scrub (a : AtomReq) (t : Aging) : AtomReq := { a with lanes := a.lanes.map fun x => { x with bs := scrubbed t x.bs } }

def Gang.scrub (g : Gang) (t : Aging) : Gang :=
  { g with
    w := g.w.map (scrubVal t)
    v := g.v.map fun e => (e.1, scrubReg t e.2)
    spill := g.spill.map fun e => (e.1, scrubReg t e.2)
    window := g.window.map fun e => { e with tr := e.tr.map fun x => { x with stamps := x.stamps.map (scrubbed t) } }
    pend := g.pend.map fun p => { p with val := p.val.onStamps fun _ => scrubbed t, atom := p.atom.map (·.scrub t) } }

/-- The stamps that a FEED has taken from registers, in the tide of its block. -/
def EngCmd.scrub (e : EngCmd) (tide : Nat → Option Aging) : EngCmd :=
  match e with
  | .feed id slot gang mask ord src weak data st dst len bnd acq arr tail =>
    .feed id slot gang mask ord src weak data (match tide slot with
      | some t => st.map (scrubbed t)
      | none => st) dst len bnd acq arr tail
  | .drain .. => e

/-- The stamps of a block in its tide, and those of its gangs that were evicted alone in that of the save area. -/
def Block.scrub (b : Block) (t away : Aging) : Block :=
  { b with
    lstamp := b.lstamp.map (scrubbed t)
    th := { b.th with g := b.th.g.map (scrubVal t), h := b.th.h.map (scrubVal t) }
    mbs := b.mbs.map fun x => { x with v := scrubVal t x.v }
    sp := b.sp.scrub t
    spOld := b.spOld.map fun e => (e.1, e.2.1, scrubbed t e.2.2.1, e.2.2.2)
    spLate := b.spLate.map fun e => (e.1, e.2.1, scrubbed t e.2.2.1, e.2.2.2)
    stash := b.stash.map fun e => (e.1, { e.2 with stamps := e.2.stamps.map (scrubbed t) })
    gangs := b.gangs.map fun g => g.scrub (if g.evicted then away else t) }

def Cube.scrub (c : Cube) (t : Aging) : Cube :=
  { c with
    obuf := c.obuf.scrub t
    obufOld := c.obufOld.map fun e => (e.1, e.2.1, scrubbed t e.2.2.1, e.2.2.2)
    stratum := c.stratum.scrub t
    scale := c.scale.scrub t
    banks := c.banks.map fun b => { b with stamp := scrubbed t b.stamp } }

/-- Every stamp of a gang. -/
def Gang.allStamps (g : Gang) : List Stamp :=
  g.w.toList.map (·.stamp) ++ g.v.flatMap (·.2.stamps.toList) ++ g.spill.flatMap (·.2.stamps.toList) ++
    g.window.flatMap (fun e => e.tr.toList.flatMap fun t => t.stamps.toList) ++
    g.pend.flatMap fun p => p.val.stamps ++ p.atom.toList.flatMap fun a => a.lanes.map (·.bs)

/-- Every stamp of a block, but for those of its gangs that were evicted alone. -/
def Block.hereStamps (b : Block) : List Stamp :=
  b.lstamp.toList ++ (b.th.g.toList ++ b.th.h.toList).map (·.stamp) ++ b.mbs.toList.map (·.v.stamp) ++ b.sp.stamps.map (·.2) ++
    (b.spOld ++ b.spLate).map (·.2.2.1) ++ b.stash.flatMap (·.2.stamps) ++ (b.gangs.filter (!·.evicted)).flatMap Gang.allStamps

/-- Every stamp of the gangs of a block that were evicted alone (R332). -/
def Block.awayStamps (b : Block) : List Stamp := (b.gangs.filter (·.evicted)).flatMap Gang.allStamps

/-- Every stamp of a cube. -/
def Cube.allStamps (c : Cube) : List Stamp :=
  (c.obuf.stamps ++ c.stratum.stamps ++ c.scale.stamps).map (·.2) ++ c.obufOld.map (·.2.2.1) ++ c.banks.toList.map (·.stamp)

/-- How many of them are due. -/
def overdues (t : Aging) (l : List Stamp) : Nat := (l.filter (overdue t)).length

/-- R27: the sweepers of the base dies over all of memory. -/
def State.sweepMemory (s : State) (next : DWord) : State :=
  let old := s.mem.stamps.filter fun e => overdue (s.frameAging next e.1) e.2
  old.foldl (fun s e => s.count (baseCtr (baseOf (32 * e.1)) 9) 1)
    { s with mem := { s.mem with stamps := s.mem.stamps.filter fun e => !overdue (s.frameAging next e.1) e.2 } }

/-- R27: the frame of a context's save area: the sector that is its first and the tide that measures it. -/
def State.saveAging (s : State) (next : DWord) (ctx : Nat) : Nat × Aging :=
  let sec := (s.ctx ctx).saveBase.toNat * 128
  (sec, s.frameAging next sec)

/-- R27: the scrubbers of a core over its blocks and its L1, and of its cube; the gangs that were evicted alone lie in the
save area and are swept there. -/
def State.sweepCore (s : State) (next : DWord) (core : Nat) : State :=
  let c := s.core core
  let n := (c.blocks.map fun e => overdues (s.aging next e.2.ctx) e.2.hereStamps).sum +
    (c.l1.map fun e => overdues (s.lineAging core e.2 next) e.2.stamps).sum
  let t := s.setCore core { c with
    blocks := c.blocks.map fun e => (e.1, e.2.scrub (s.aging next e.2.ctx) (s.saveAging next e.2.ctx).2)
    eng := c.eng.map fun e => e.scrub fun slot => (Tbl.get? c.blocks slot).map fun b => s.aging next b.ctx
    l1 := c.l1.map fun e => (e.1, { e.2 with stamps := e.2.stamps.map (scrubbed (s.lineAging core e.2 next)) }) }
  let t := c.blocks.foldl (fun (t : State) e =>
    let p := s.saveAging next e.2.ctx
    t.count (baseCtr (baseOf (32 * p.1)) 9) (overdues p.2 e.2.awayStamps)) t
  let ctr := coreCtr core (if core % 8 = 4 then 2 else 5)
  match if core % 8 = 4 then s.controlBlock? (clusterOf core) else none with
  | some b =>
    let a := s.aging next b.ctx
    (t.onCube (clusterOf core) (Cube.scrub · a)).count ctr (n + overdues a (s.cube (clusterOf core)).allStamps)
  | none => t.count ctr n

/-- R27, R331: saved state lies in memory and is swept there (log 11: all of it in the tide of the area's first frame). -/
def State.sweepSaved (s : State) (next : DWord) (x : Saved) : Saved × Nat × Nat :=
  let all (b : Block) : List Stamp := b.hereStamps ++ b.awayStamps
  match x with
  | .block isle b size =>
    let p := s.saveAging next b.ctx
    (.block isle (b.scrub p.2 p.2) size, p.1, overdues p.2 (all b))
  | .node isle b c feeders size =>
    let p := s.saveAging next b.ctx
    (.node isle (b.scrub p.2 p.2) (c.scrub p.2) (feeders.map fun f => f.scrub p.2 p.2) size, p.1,
      overdues p.2 (all b ++ c.allStamps ++ feeders.flatMap all))

/-- R27: a line that is held for a stack that is not ready, swept as its sector. -/
def State.heldScrub (s : State) (next : DWord) (h : HeldPut) : HeldPut :=
  match h with
  | .unit sec l => .unit sec l
  | .line sec bytes st bad => .line sec bytes (scrubbed (s.frameAging next sec) st) bad

/-- R27: launch stamps of instances in the lagoon, the sectors that agents may still read as they stood (log 5), and the lines that
are held (R366). -/
def State.sweepUnits (s : State) (next : DWord) : State :=
  let old := s.insts.filter fun x => overdue (s.aging next x.ctx) x.lstamp
  ({ s with
    insts := s.insts.map fun x => { x with lstamp := scrubbed (s.aging next x.ctx) x.lstamp }
    heldPuts := s.heldPuts.map (s.heldScrub next)
    olds := s.olds.map fun e => { e with stamp := scrubbed (s.frameAging next e.sec) e.stamp } } : State).count (lagoonCtr 12) old.length

/-- R27: a sweep of the whole package as its tide moves to `next`. One comes at every 2^20-th tick; what is not due yet stays
(log 23). -/
def State.sweep (s : State) (next : DWord) : State :=
  let t := s.cores.foldl (fun (t : State) e => t.sweepCore next e.1) ((s.sweepMemory next).sweepUnits next)
  let l := t.saved.map (t.sweepSaved next)
  l.foldl (fun (t : State) x => t.count (baseCtr (baseOf (32 * x.2.1)) 9) x.2.2) { t with saved := l.map (·.1) }

/-- SCRUB (R27, R261): a sweeper or scrubber visits a place. -/
def execScrub (p : StampPlace) (s : State) : Host.Outcome State Fault Refusal :=
  match s.placeStamp? p with
  | some (st, tide, ctr) => .next (if overage tide st then (s.makeAncient p).count ctr 1 else s)
  | none => .next s

end Sys2Proof.Machine
end

