-- ==== Sys2Proof/Machine/MemEngine.lean ====
section
/-! DEFINITION. The lagoon's units and the base dies: shootdowns (R210), page migration (R212 to R215), directory requests
(R198), the host aperture (R196, R199, R242, R364), gather packets and DRAM errors (R205, R216 to R220), the
initialisation of a base die (R203). -/

namespace Sys2Proof.Machine

/-! ### Shootdowns (R210) -/

/-- The RW fields of INVCTL. -/
def invMask : DWord := 0x3F80000000000FFF

/-- R210: SPAN from 16 to 57, other values as 57. -/
def invSpan (v : DWord) : Nat := if 16 ≤ fld v 60 55 ∧ fld v 60 55 ≤ 57 then fld v 60 55 else 57

/-- SHOOTDOWN (R210): a write of INVCTL with GO. The range is that of the registers as they then stand (log 25). -/
def execShootdown (v : DWord) (s : State) : Host.Outcome State Fault Refusal :=
  if !s.lagoonUp then .next s
  else
    let s := { s with invctl := v &&& invMask }
    .next (if v.getLsbD 62 && s.shooting.isNone then
      { s with shooting := some (fld v 11 0, s.invva, if v.getLsbD 61 then none else some (invSpan v)) }
    else s)

/-- A shootdown takes effect: TLB entries of the range go, and walks see every store made before, those in stash lines too, which
are written back (R210). -/
def State.shoot (s : State) (ctx : Nat) (base : DWord) (span : Option Nat) : State :=
  let keep (e : Nat × Nat × Nat) : Bool :=
    e.1 != ctx || (match span with
      | none => false
      | some k => !(if e.2.2 ≤ k then e.2.1 / 2 ^ (k - e.2.2) == base.toNat / 2 ^ k else e.2.1 == base.toNat / 2 ^ e.2.2))
  let s := s.copiesBack (fun _ => true) (fun _ => true) false
  { s with
    clock := s.clock + 1
    shots := (ctx, base, span, s.clock) :: s.shots
    cores := s.cores.map fun e => (e.1, { e.2 with tlb := e.2.tlb.filter keep }) }

/-- SHOOTDOWN_COMPLETION (R210). Accesses that used an entry of the range have been performed: the model performs a write in the
step that translates its address (log 25). -/
def execShootdownCompletion (s : State) : Host.Outcome State Fault Refusal :=
  match s.shooting with
  | some (ctx, base, span) => .next ({ s with shooting := none }.shoot ctx base span)
  | none => .next s

/-! ### Frames -/

/-- A run of `n` keys from `a` moved to `b` over what a table holds there; the run itself stays. -/
def moveRun {α : Type} (t : Tbl α) (a b n : Nat) : Tbl α :=
  (t.filter fun e => e.1 < b) ++ ((t.filter fun e => a ≤ e.1 && e.1 < a + n).map fun e => (e.1 - a + b, e.2)) ++
    t.filter fun e => b + n ≤ e.1

/-- R219: the sectors of a frame that lie in offline channels. -/
def State.offlineIn (s : State) (pa n : Nat) : List Nat :=
  if s.bases.all fun e => e.2.offline.isEmpty then [] else (sectorsIn pa n).filter fun i => s.offline (32 * i)

/-- R213 step 2: the lines of a frame are recalled: dirty stash lines written back, every copy dropped. -/
def State.recall (s : State) (pa n : Nat) : State :=
  let inside (a : Nat) : Bool := pa ≤ a && a < pa + n
  let s := s.blocks.foldl (fun (s : State) e =>
    let (hit, rest) := e.2.2.stash.partition fun l => inside l.2.pa
    if hit.isEmpty then s
    else (hit.foldl (fun (s : State) l => if l.2.dirty then s.homeLine l.2 else s) s).onBlock e.1 e.2.1 fun b =>
      { b with stash := rest }) s
  { s with cores := s.cores.map fun e => (e.1, { e.2 with l1 := e.2.l1.filter fun l => !inside (128 * l.1) }) }

/-- R366: the base dies of the granules of `n` bytes from `pa` have set their bits; the granules of a tier go round its
twelve stacks (R202). -/
def State.spanReady (s : State) (pa n : Nat) : Bool :=
  (List.range (min 12 ((pa + n - 1) / 4096 - pa / 4096 + 1))).all fun k => s.memReady (pa + 4096 * k)

/-- A byte of a moved run at its new place. -/
def moved (a b n x : Nat) : Nat := if a ≤ x ∧ x < a + n then x - a + b else x

/-- R213 steps 2 and 3: a frame copied to another with data, stamps and poison. Walks that may still read older values of its words may
do so at the new address; other reads are made before the move (R212), and the sequences at its bytes go on (R227). -/
def State.copyFrame (s : State) (src dst n : Nat) : State :=
  let s := (s.recall src n).recall dst n
  let lost := s.offlineIn src n
  let m : Store :=
    { bytes := moveRun s.mem.bytes src dst n
      stamps := moveRun s.mem.stamps (src / 32) (dst / 32) (n / 32)
      poison := moveRun s.mem.poison (src / 32) (dst / 32) (n / 32) }
  let m := lost.foldl (fun (m : Store) i => m.setBad (i - src / 32 + dst / 32) true) m
  let s := (s.offlineIn dst n).foldl (fun (s : State) i => s.count (baseCtr (baseOf (32 * i)) 6) 1) s
  let past := (s.hist.filter fun e => src / 4 ≤ e.1 && e.1 < (src + n) / 4).map fun e => (e.1 - src / 4 + dst / 4, e.2)
  let inside (a : Nat) (e : Old) : Bool := a / 32 ≤ e.sec && e.sec < (a + n) / 32
  { s with
    mem := m
    hist := past ++ s.hist.filter fun e => e.1 < dst / 4 || (dst + n) / 4 ≤ e.1
    olds := s.olds.filter fun e => !inside src e && !inside dst e
    heads := s.heads.map fun h =>
      { h with bytes := (h.bytes.filter fun a => a < dst || dst + n ≤ a).map (moved src dst n) } }

/-- R213 step 4: an entry rewritten, stamp AGELESS (R373); no access uses its old value afterwards (step 5). -/
def State.setPte (s : State) (pa : Nat) (e : DWord) : State :=
  let s := s.unitWrite ageless pa (leBytes e.toNat 8) (.normal ageless)
  { s with hist := s.hist.filter fun h => h.1 / 2 != pa / 8 }

/-- An entry with another tier and frame. -/
def movePte (e : DWord) (tier : BitVec 2) (frame : Nat) : DWord :=
  let keep : DWord := e &&& ~~~(0x300003FFFFFFFF00 : DWord)
  keep ||| BitVec.ofNat 64 (tier.toNat * 2 ^ 60 + frame / 256 * 256)

/-! ### The rings of the fault unit (R215) -/

/-- A frame address is aligned to a page and in a tier. -/
def frameOk (pa log : Nat) (far : Bool) : Bool :=
  pa % 2 ^ log == 0 && pa / 2 ^ 41 == far.toNat && backed pa (2 ^ log)

/-- What the fault unit's search for a near frame gives (R214); it waits for a base die that has not set its bit (R366). -/
inductive Frame where
  | got (f : Nat)
  | none
  | wait
  deriving DecidableEq, Repr

/-- R214 source 1: the next good entry of a free ring; bad ones count in FRAME_BAD. -/
def State.takeFree (s : State) (log : Nat) : Nat → State × Frame
  | 0 => (s, .none)
  | n + 1 =>
    let r := if log = 16 then s.free64 else s.free2m
    if r.isEmpty then (s, .none)
    else if !s.spanReady (r.slot r.head 8) 8 then (s, .wait)
    else
      let (s, l) := s.devRead (r.slot r.head 8) 8
      let r := { r with head := r.head + 1 }
      let s := if log = 16 then { s with free64 := r } else { s with free2m := r }
      if frameOk (leVal l) log false then (s, if s.spanReady (leVal l) (2 ^ log) then .got (leVal l) else .wait)
      else (s.count (lagoonCtr 8) 1).takeFree log n

/-- R214: the shootdown of a victim's range (R213 step 5). The fault unit has its entry's PA only: it shoots every page in
a TLB whose walk ends at that entry. -/
def State.shootPte (s : State) (pte : Nat) : State :=
  let hit (e : Nat × Nat × Nat) : Bool :=
    match s.walk (e.2.1 * 2 ^ e.2.2) s.clock (s.rootOf e.1) 4 with
    | (_, .leaf _ _ p) => p == pte
    | _ => false
  ((s.cores.flatMap fun c => c.2.tlb.filter hit).eraseDups).foldl (fun (s : State) e =>
    s.shoot e.1 (BitVec.ofNat 64 (e.2.1 * 2 ^ e.2.2)) (some e.2.2)) s

/-- R214 source 2: the next good victim is moved to its far frame; its near frame is used. What the steps of a move do is
one act, so that their order cannot be seen. -/
def State.takeVictim (s : State) (level log : Nat) : Nat → State × Frame
  | 0 => (s, .none)
  | n + 1 =>
    let r := s.victim
    if r.isEmpty then (s, .none)
    else if !s.spanReady (r.slot r.head 16) 16 then (s, .wait)
    else
      let (s, l) := s.devRead (r.slot r.head 16) 16
      let s := { s with victim := { r with head := r.head + 1 } }
      let pte := leVal (l.take 8)
      let far := leVal (l.drop 8)
      let s := if backed pte 8 then s.snoop none (pte / 128) false else s
      let e : DWord := BitVec.ofNat 64 (s.mem.nat pte 8)
      if backed pte 8 && !s.memReady pte then (s, .wait)
      else if pte % 8 == 0 && backed pte 8 && !s.homeBad (pte / 32) && frameOk far log true && pteFault level e == Option.none &&
          pteLeaf e && pteTier e == 0 then
        if !(s.spanReady (pteAddr e) (2 ^ log) && s.spanReady far (2 ^ log)) then (s, .wait)
        else (((s.shootPte pte).copyFrame (pteAddr e) far (2 ^ log)).setPte pte (movePte e 1 far), .got (pteAddr e))
      else (s.count (lagoonCtr 7) 1).takeVictim level log n

/-- R213 step 6: a DONE record, or DONE_DROP. -/
def State.pushDone (s : State) (pte frame : Nat) (kept : Bool) : State :=
  let r := s.done
  if r.full then s.count (lagoonCtr 9) 1
  else { s.devWrite (r.slot r.tail 16) (leBytes pte 8 ++ leBytes (frame + kept.toNat) 8) with done := { r with tail := r.tail + 1 } }

/-! ### Migration (R212, R213) -/

/-- R213 step 7: the accesses held on a page go on. -/
def State.unholdPage (s : State) (ctx va log : Nat) : State :=
  let hit (x : DWord) : Bool := vaBits x / 2 ^ log == va / 2 ^ log
  let free (b : Block) : Block :=
    if b.ctx ≠ ctx then b
    else
      { b.mapGangs (fun g => match g.heldOn with
          | some x => if hit x then { g with heldOn := none } else g
          | none => g) with
        th := match b.th.wait with
          | .migrate x => if hit x then { b.th with wait := .none } else b.th
          | _ => b.th }
  { s with
    moves := s.moves.filter fun p => !(p.1 == ctx && hit p.2)
    cores := s.cores.map fun e => (e.1, { e.2 with blocks := e.2.blocks.map fun p => (p.1, free p.2) })
    saved := s.saved.map fun x =>
      match x with
      | .block i b z => .block i (free b) z
      | .node i c q fs z => .node i (free c) q (fs.map free) z }

/-- R366: the DONE record that a move pushes finds its place usable. -/
def State.doneReady (s : State) : Bool := s.done.full || s.spanReady (s.done.slot s.done.tail 16) 16

/-- The move of a page with a MIGRATE leaf `e` of a level, held in the entry at `pte` (R213, R214). It waits as a whole while
a base die that it reaches has not set its bit in READY (R366). -/
def State.movePage (s : State) (ctx va level pte : Nat) (e : DWord) : State :=
  let log := pageLog level
  let old := pteAddr e
  let r := if log = 16 then s.free64 else s.free2m
  let got : State × Frame := match s.takeFree log (r.tail - r.head).toNat with
    | (t, .none) => t.takeVictim level log (t.victim.tail - t.victim.head).toNat
    | x => x
  if !(s.doneReady && s.spanReady old (2 ^ log)) then s
  else match got with
    | (t, .got f) =>
      (((((t.copyFrame old f (2 ^ log)).setPte pte (movePte e 0 f)).shoot ctx (BitVec.ofNat 64 va) (some log)).pushDone pte old
        false).count (lagoonCtr 5) 1).unholdPage ctx va log
    | (t, .none) =>
      ((((t.setPte pte (movePte e 1 old)).shoot ctx (BitVec.ofNat 64 va) (some log)).pushDone pte old true).count (lagoonCtr 6)
        1).unholdPage ctx va log
    | (_, .wait) => s

/-- PAGE_MIGRATION (R212, R213): the fault unit takes up a page on which accesses are held. Where the page has a MIGRATE
leaf no longer, they only go on; while a base die on the way has not set its bit in READY, they wait (R366). -/
def execPageMigration (ctx : Nat) (va : DWord) (s : State) : Host.Outcome State Fault Refusal :=
  if !s.lagoonUp then .next s
  else
    let v := vaBits va
    match s.walk v s.clock (s.rootOf ctx) 4 with
    | (_, .wait) => .next s
    | (_, .fault _) => .next (s.unholdPage ctx v 16)
    | (_, .leaf e level pte) =>
      .next (if pteTier e = 2 then s.movePage ctx v level pte e else s.unholdPage ctx v (pageLog level))

/-! ### The directory and the host aperture -/

/-- DIRECTORY_REQUEST (R198). -/
def execDirectoryRequest (isle pa : Nat) (k : DirKind) (s : State) : Host.Outcome State Fault Refusal :=
  .next (if s.lagoonUp && isle < 8 && backed pa 1 then s.dirRequest isle pa (k != .read) else s)

/-- R364: the physical address of an aperture offset; none beyond the aperture, which R202 does not back. -/
def aperturePa (o : Nat) : Option Nat :=
  if o < 0x10C388D0000 then some o
  else if o < 0x218711A0000 then some (2 ^ 41 + (o - 0x10C388D0000))
  else none

/-- The addresses of an access of `n` bytes. -/
def apertureAddrs (off n : Nat) : List (Option Nat) := (List.range n).map fun i => aperturePa (off + i)

/-- R366: every base die that an access reaches has set its bit. -/
def State.apertureHeld (s : State) (l : List (Option Nat)) : Bool :=
  l.any fun a => match a with
    | some pa => !s.memReady pa
    | none => false

/-- The bytes of an aperture write with their addresses; those that R202 does not back are left out. -/
def apertureBytes (off : Nat) (bytes : List Byte) : List (Nat × Byte) :=
  ((apertureAddrs off bytes.length).zip bytes).filterMap fun p => p.1.map fun a => (a, p.2)

/-- An aperture write performed at the home (R196, R199, R217). -/
def State.aperturePut (s : State) (ws : List (Nat × Byte)) : State :=
  (sortNat (ws.map fun p => p.1 / 32)).foldl (fun (s : State) sec =>
    ((s.snoop none (sec / 4) true).dirAperture (32 * sec)).homePut ageless sec (ws.filter fun p => p.1 / 32 == sec)
      (.exact ageless)) s

/-- APERTURE_WRITE (R196, R199, R366). -/
def execApertureWrite (off : Nat) (bytes : List Byte) (s : State) : Host.Outcome State Fault Refusal :=
  let l := apertureAddrs off bytes.length
  if !s.ready.getLsbD 5 then .next (s.count (lagoonCtr 4) 1)
  else if s.apertureHeld l then .next s
  else
    let s := if l.any (·.isNone) then s.count (lagoonCtr 4) 1 else s
    .next (s.aperturePut (apertureBytes off bytes))

/-- R242: a sector as the aperture finds it: as its home holds it, or as it stood before a write that no release at SYSTEM scope has
come after; a free choice (log 8). -/
def State.aperturePick (s : State) (sec : Nat) : State × Version :=
  s.choose (s.current sec) ((s.olds.filter fun o => o.sec == sec && !o.sys).map fun o =>
    ⟨o.bytes, o.stamp, o.bad || s.offline (32 * sec), o.till, o.heads⟩)

/-- The same for several sectors. -/
def State.aperturePicks (s : State) : List Nat → State × List (Nat × Version)
  | [] => (s, [])
  | sec :: r =>
    let (s, v) := s.aperturePick sec
    let (s, l) := s.aperturePicks r
    (s, (sec, v) :: l)

/-- The byte at an address of the sectors found, with the poison of its sector. -/
def versionByte (l : List (Nat × Version)) (pa : Nat) : Byte × Bool :=
  match l.find? (·.1 == pa / 32) with
  | some p => (p.2.bytes.getD (pa % 32) 0, p.2.bad)
  | none => (0, false)

/-- APERTURE_READ (R196, R242, R366): what the host receives, each byte with the poison of its sector. -/
def execApertureRead (off n : Nat) (s : State) : Host.Outcome State Fault Refusal :=
  let l := apertureAddrs off n
  if !s.ready.getLsbD 5 then
    let s := s.count (lagoonCtr 4) 1
    .next { s with fresh := s.fresh + n, hostRead := (List.range n).map fun i => (Config.freeByte (s.fresh + i), true) }
  else if s.apertureHeld l then .next s
  else
    let s := if l.any (·.isNone) then s.count (lagoonCtr 4) 1 else s
    let s := (sortNat ((l.filterMap id).map (· / 2 ^ 21))).foldl (fun (s : State) r => s.dirHost (r * 2 ^ 21)) s
    let (s, vs) := s.aperturePicks (sortNat ((l.filterMap id).map (· / 32)))
    .next { s with hostRead := l.map fun a => match a with
      | some pa => versionByte vs pa
      | none => (0, false) }

/-! ### Gather packets and DRAM errors -/

/-- R220: an entry of a log. -/
def logEntry (kind sec lane retries : Nat) : DWord :=
  let off := stackOff (32 * sec)
  BitVec.ofNat 64 (kind * 2 ^ 60 + off / 128 % 32 * 2 ^ 55 + off / 32 % 4 * 2 ^ 53 + lane % 64 * 2 ^ 47 + retries * 2 ^ 44 +
    off / 32 % 2 ^ 32)

/-- R220: an entry put into the log of its kind, or LOG_DROP. -/
def State.logDram (s : State) (kind sec lane retries : Nat) : State :=
  let d := baseOf (32 * sec)
  let b := s.base d
  let e := logEntry kind sec lane retries
  let l := if kind ≤ 1 then b.ecc else if kind ≤ 4 then b.parity else b.table
  if 32 ≤ l.length then s.count (baseCtr d 8) 1
  else s.setBase d (if kind ≤ 1 then { b with ecc := l ++ [e] } else if kind ≤ 4 then { b with parity := l ++ [e] }
    else { b with table := l ++ [e] })

/-- R218 step 3: the sectors of a transfer are poisoned; the log names the first of them. -/
def State.parityPoison (s : State) (secs : List Nat) (lane : Nat) : State :=
  let first := secs.headD 0
  ((secs.foldl State.poisonSec s).logDram 4 first lane 4).count (baseCtr (baseOf (32 * first)) 4) 1

/-- What the access to a sector of DRAM meets (R216, R218, R219). `secs` are the sectors of its transfer, rising: the beats of
a channel carry the sectors of one line side by side on its sub-channels (R202). -/
def State.dramEvent (s : State) (secs : List Nat) (sec : Nat) (ev : DramEvent) : State :=
  let d := baseOf (32 * sec)
  let ch := channelOf (32 * sec)
  let first := secs.headD sec
  match ev with
  | .ok => s
  | .corrected => (s.count (baseCtr d 0) 1).logDram 0 sec 0 0
  | .uncorrectable => ((s.poisonSec sec).count (baseCtr d 1) 1).logDram 1 sec 0 0
  | .retried n => (s.count (baseCtr d 2) 1).logDram 2 first 0 (max 1 (min n 4))
  | .allFailed none _ => s.parityPoison secs 0
  | .allFailed (some lane) finalOk =>
    let b := s.base d
    let used := Tbl.getD b.lanes ch 0
    if 2 ≤ used then s.parityPoison secs lane
    else
      let s := ((s.setBase d { b with lanes := Tbl.set b.lanes ch (used + 1) }).logDram 3 first lane 4).count (baseCtr d 3) 1
      if finalOk then s else s.parityPoison secs lane
  | .tableReload true => (s.count (baseCtr d 5) 1).logDram 5 sec 0 0
  | .tableReload false =>
    let b := s.base d
    (s.setBase d { b with offline := if b.offline.contains ch then b.offline else ch :: b.offline }).logDram 6 sec 0 0

/-- GATHER_PACKET (R204 to R206): a read packet of an isle, served with the directory's actions; every sector that a lane
touches is read, and `evs` is what those reads meet at the base die, in rising order. What a lane receives it has from its
own word (log 7). -/
def execGatherPacket (isle base : Nat) (offs : List Nat) (evs : List DramEvent) (s : State) :
    Host.Outcome State Fault Refusal :=
  if !s.lagoonUp || 8 ≤ isle || 32 < offs.length || offs.any fun o => !(backed (base + o) 1 && s.memReady (base + o)) then .next s
  else
    let s := offs.foldl (fun (s : State) o => (s.snoop none ((base + o) / 128) false).dirAccess isle (base + o) false) s
    let secs := sortNat (offs.map fun o => (base + o) / 32)
    .next ((secs.zip evs).foldl (fun (s : State) p => s.dramEvent (secs.filter fun x => x / 4 == p.1 / 4) p.1 p.2) s)

/-! ### Base dies -/

/-- A unit's counters read 0 when it sets its bit in READY (R223). -/
def State.clearCounters (s : State) (lo hi : Nat) : State :=
  { s with counters := s.counters.filter fun e => e.1 < lo || hi ≤ e.1 }

/-- The firmware of a unit has passed (R368); units: lagoon 0, isles 1 to 8, base dies 9 to 32, capes 33 to 36. -/
def State.fwPassed (s : State) (u : Nat) : Bool := Tbl.getD s.fwOk u false

/-- Everything a store holds for base die `d` removed: zero data, stamp ANCIENT, no poison. -/
def Store.wipe (m : Store) (d : Nat) : Store :=
  { bytes := m.bytes.filter fun e => baseOf e.1 != d
    stamps := m.stamps.filter fun e => baseOf (32 * e.1) != d
    poison := m.poison.filter fun e => baseOf (32 * e.1) != d }

/-- BASE_DIE_INITIALISATION (R203, R365, R366): the stack is zeroed, the bit is set, and the writes held for it are performed. -/
def execBaseDieInitialisation (d : Nat) (s : State) : Host.Outcome State Fault Refusal :=
  if 24 ≤ d || s.ready.getLsbD (40 + d) || !s.fwPassed (9 + d) then .next s
  else
    let s := s.clearCounters (baseCtr d 0) (baseCtr d 512)
    .next (State.releaseHeld { s with
      mem := s.mem.wipe d
      hist := s.hist.filter fun e => baseOf (4 * e.1) != d
      olds := s.olds.filter fun e => baseOf (32 * e.sec) != d
      ready := s.ready ||| ((1 : DWord) <<< (40 + d)) } d)

end Sys2Proof.Machine
end

