-- ==== Sys2Proof/Machine/Debugger.lean ====
section
/-! DEFINITION. The debugger's commands (R349): the fields of DBGCMD, and what each command does. A command runs in one
step, so BUSY is never seen set. -/

namespace Sys2Proof.Machine

/-- The RW fields of DBGCMD. -/
def dbgMask : DWord := 0x03FFFFFFFF000000

/-- The target of a command. -/
def dbgCore (v : DWord) : Nat := coreNum (fld v 53 51) (fld v 50 46) (fld v 45 44)
def dbgSlot (v : DWord) : Nat := fld v 43 40
def dbgGang (v : DWord) : Nat := fld v 39 36
def dbgReg (v : DWord) : Nat := fld v 35 29
def dbgLane (v : DWord) : Nat := fld v 28 24

/-- DBGCMD as a command leaves it: its fields and STAT. -/
def State.dbgEnd (s : State) (ctx : Nat) (v : DWord) (stat : Nat) : State :=
  s.setCtx ctx { s.ctx ctx with dbgcmd := (v &&& dbgMask) ||| BitVec.ofNat 64 (stat * 2 ^ 58) }

/-- The block that a command names, if it is resident and of the context. -/
def State.dbgBlock (s : State) (ctx : Nat) (v : DWord) : Option Block :=
  if fld v 50 46 < 24 then (s.block? (dbgCore v) (dbgSlot v)).filter fun b => b.ctx == ctx && !b.control else none

/-- A command: STAT 4 outside a DEBUG context, 1 without a target, else what `f` gives. Ignored unless GO is 1. -/
def dbg (s : State) (ctx : Nat) (v : DWord) (f : Block → State × Nat) : Host.Outcome State Fault Refusal :=
  if !s.graphUp || !v.getLsbD 63 then .next s
  else if !(s.ctx ctx).debug then .next (s.dbgEnd ctx v 4)
  else match s.dbgBlock ctx v with
    | none => .next (s.dbgEnd ctx v 1)
    | some b => let (t, stat) := f b
                .next (t.dbgEnd ctx v stat)

/-- The same for a command to a gang. -/
def dbgG (s : State) (ctx : Nat) (v : DWord) (f : Block → Gang → State × Nat) : Host.Outcome State Fault Refusal :=
  dbg s ctx v fun b => match b.gangs[dbgGang v]? with
    | some g => f b g
    | none => (s, 1)

/-- R87: a gang goes on after a halt: a group at a stop site does not stop there again (R349). A breakpoint that has matched
there does not match a second time, one that has not yet does (R347). -/
def Gang.letRun (g : Gang) (b : Block) (req : StopReq) : Gang :=
  { g with
    halted := false
    req := req
    reqEvent := false
    st := if g.faultParked then g.st else if g.groups.isEmpty then .idle else .running
    sealStop := false
    waitStop := false
    groups := g.groups.map fun x => if b.atSite x then { x with passed := true } else x }

/-- The same for a gang of a block; its mailbox writes wait again (R91). -/
def State.letGang (s : State) (core slot gang : Nat) (req : StopReq) : State :=
  s.onBlock core slot fun b => (b.onGang gang (·.letRun b req)).queueWrites gang

/-- HALT (R349, R87): a running gang is asked to stop; a parked one is halted at once; an idle one has nothing to stop
(log 26). -/
def execHalt (ctx : Nat) (v : DWord) (s : State) : Host.Outcome State Fault Refusal :=
  dbgG s ctx v fun _ g =>
    let i := dbgGang v
    match g.st with
    | .running => (s.onGang (dbgCore v) (dbgSlot v) i fun g => { g with req := .halt, reqEvent := true }, 0)
    | .parked =>
      if g.halted then (s, 0) else ((s.haltGang (dbgCore v) (dbgSlot v) i).stopEvent (dbgCore v) (dbgSlot v) i, 0)
    | .idle => (s, 0)

/-- RESUME (R349, R87). -/
def execDebugResume (ctx : Nat) (v : DWord) (s : State) : Host.Outcome State Fault Refusal :=
  dbgG s ctx v fun _ g =>
    if g.halted then (s.letGang (dbgCore v) (dbgSlot v) (dbgGang v) .none, 0) else (s, 2)

/-- STEP of the debugger (R349). -/
def execDebugStep (ctx : Nat) (v : DWord) (s : State) : Host.Outcome State Fault Refusal :=
  dbgG s ctx v fun _ g =>
    if g.halted then (s.letGang (dbgCore v) (dbgSlot v) (dbgGang v) .step, 0) else (s, 2)

/-- GHALT (R349): the thread stands at an instruction boundary between two steps of the model. -/
def execGhalt (ctx : Nat) (v : DWord) (s : State) : Host.Outcome State Fault Refusal :=
  dbg s ctx v fun b =>
    if b.th.halted then (s, 0)
    else ((s.onThread (dbgCore v) (dbgSlot v) fun t => { t with halted := true, stepOne := false }).threadEvent (dbgCore v) (dbgSlot v), 0)

/-- GSTEP (R349). -/
def execGstep (ctx : Nat) (v : DWord) (s : State) : Host.Outcome State Fault Refusal :=
  dbg s ctx v fun b =>
    if b.th.halted then (s.onThread (dbgCore v) (dbgSlot v) fun t => { t with halted := false, stepOne := true }, 0)
    else (s, 2)

/-- GRESUME (R349). -/
def execGresume (ctx : Nat) (v : DWord) (s : State) : Host.Outcome State Fault Refusal :=
  dbg s ctx v fun b =>
    if b.th.halted then (s.onThread (dbgCore v) (dbgSlot v) fun t => { t with halted := false, stepOne := false }, 0)
    else (s, 2)

/-- READV (R349): DBGVAL takes the lane, with the slice stamp in bits 63:40. -/
def execReadv (ctx : Nat) (v : DWord) (s : State) : Host.Outcome State Fault Refusal :=
  dbgG s ctx v fun b g =>
    if !g.halted then (s, 2)
    else if b.shape.n ≤ dbgReg v then (s, 3)
    else
      let x := shown b.shape.present (g.readV 0 (dbgReg v))
      let val := (lane x.lanes (dbgLane v)).toNat + (stampAt x.stamps (dbgLane v / 4)).toNat * 2 ^ 40
      (s.setCtx ctx { s.ctx ctx with dbgval := BitVec.ofNat 64 val }, 0)

/-- WRITEV (R349). -/
def execWritev (ctx : Nat) (v : DWord) (s : State) : Host.Outcome State Fault Refusal :=
  dbgG s ctx v fun b g =>
    if !g.halted then (s, 2)
    else if b.shape.n ≤ dbgReg v then (s, 3)
    else (s.onGang (dbgCore v) (dbgSlot v) (dbgGang v)
      (·.setLane b.shape.present (s.now ctx) (dbgReg v) (dbgLane v) ((s.ctx ctx).dbgval.setWidth 32)), 0)

/-- DUMP (R349, R354): a dump of kind 3 of the gang as it stands (log 13). -/
def execDump (ctx : Nat) (v : DWord) (s : State) : Host.Outcome State Fault Refusal :=
  dbgG s ctx v fun _ g =>
    let (t, d) := s.freeHalf
    (t.dump ctx 3 (some (dbgCore v, dbgSlot v, dbgGang v))
      (t.gangRecord (dbgCore v) (dbgSlot v) (dbgGang v) g.live (g.slicePc 0) g.sealStop g.waitStop d 0x71) [], 0)

/-- A write of DBGCMD: with GO the command of its CMD field, a CMD without a name does nothing (log 26). -/
def State.dbgWrite (s : State) (ctx : Nat) (v : DWord) : Host.Outcome State Fault Refusal :=
  if !v.getLsbD 63 then
    .next (if (s.ctx ctx).debug then
      s.setCtx ctx { s.ctx ctx with dbgcmd := ((s.ctx ctx).dbgcmd &&& 0x3C00000000000000) ||| (v &&& dbgMask) } else s)
  else match fld v 57 54 with
    | 0 => execHalt ctx v s
    | 1 => execDebugResume ctx v s
    | 2 => execDebugStep ctx v s
    | 3 => execGhalt ctx v s
    | 4 => execGstep ctx v s
    | 5 => execGresume ctx v s
    | 6 => execReadv ctx v s
    | 7 => execWritev ctx v s
    | 8 => execDump ctx v s
    | _ => .next (s.dbgEnd ctx v 1)

end Sys2Proof.Machine
end

