-- ==== Sys2Proof/Machine/Attach.lean ====
section
/-! DEFINITION. Bring-up, firmware and attestation (R365 to R369), power (R372), the registers of management space (R5,
R374), acknowledgements (R233). -/

namespace Sys2Proof.Machine

/-! ### Bring-up -/

/-- R366, R368: the prerequisites of a function. Base-die and cape bits are set by their own steps. -/
def State.mayBeReady (s : State) (bit : Nat) : Bool :=
  match bit with
  | 0 => true
  | 1 => (List.range 37).all s.fwPassed
  | 2 | 3 => s.fwPassed 0
  | 4 => s.fwPassed 0 && s.ready.getLsbD 2 && s.ready.getLsbD 3
  | 5 => s.fwPassed 0 && s.ready.getLsbD 2
  | b => 28 ≤ b && b < 36 && s.fwPassed (b - 27)

/-- R5, R223, R245: what a function sets when it sets its bit: its registers take their reset values, its counters read 0. -/
def State.atReady (s : State) (bit : Nat) : State :=
  let z := State.reset
  if bit = 0 then { s with pwr := z.pwr, attNonce := z.attNonce, attAddr := z.attAddr, attDone := z.attDone, attReport := none }
  else if bit = 2 then
    { s.clearCounters (lagoonCtr 0) (lagoonCtr 512) with
      fownset := z.fownset
      invva := z.invva
      invctl := z.invctl
      free64 := z.free64
      free2m := z.free2m
      victim := z.victim
      done := z.done
      acl := z.acl }
  else if bit = 3 then { s with tide := 0 }
  else if bit = 4 then { s with ctxs := z.ctxs }
  else if 28 ≤ bit then
    let s := (s.clearCounters (isleCtr (bit - 28) 0) (isleCtr (bit - 28) 512)).clearCounters (coreCtr ((bit - 28) * 192) 0)
      (coreCtr ((bit - 27) * 192) 0)
    { s with cores := s.cores.filter fun e => isleOf e.1 + 28 != bit }
  else s

/-- FUNCTION_READY (R365, R366). -/
def execFunctionReady (bit : Nat) (s : State) : Host.Outcome State Fault Refusal :=
  if s.ready.getLsbD bit || !s.mayBeReady bit then .next s
  else .next { s.atReady bit with ready := s.ready ||| ((1 : DWord) <<< bit) }

/-- FIRMWARE_VERIFICATION (R368): unit `u` loads its image, or its failure stands in FWSTAT. -/
def execFirmwareVerification (u : Nat) (img : FwImage) (s : State) : Host.Outcome State Fault Refusal :=
  if 37 ≤ u then .next s
  else
    let digest := Config.shake256 img.code
    let ok := img.digest == digest && Config.shake256 img.key == Config.rootKeyDigest &&
      Config.falconVerifies img.key img.digest img.sig
    .next { s with fwOk := Tbl.set s.fwOk u ok, fwDigest := Tbl.set s.fwDigest u digest }

/-- R369: the attestation report without its signature. -/
def State.report (s : State) : List Byte :=
  s.attNonce ++ ((List.range 37).flatMap fun u => Tbl.getD s.fwDigest u (List.replicate 64 0)) ++ leBytes s.ready.toNat 8 ++
    Config.certificate

/-- ATTGO (R369): a report is begun; while one is in progress the write is ignored. DESIGN CHOICE, log 14: its items are those
of this moment. -/
def execAttgo (s : State) : Host.Outcome State Fault Refusal :=
  if !(s.ready.getLsbD 0 && s.ready.getLsbD 2) || s.attReport.isSome then .next s
  else .next { s with attReport := some (s.attAddr.toNat, s.report ++ Config.falconSign s.report) }

/-- R369: the report in progress goes to host memory, which holds no stamps; then ATTDONE is set. -/
def State.reportOut (s : State) : State :=
  match s.attReport with
  | none => s
  | some (a, l) => { s with hostMem := s.hostMem.setBytes a l, attDone := true, attReport := none }

/-- The package as power-up and a reset of the package leave it; what is outside it and the model's own fields stay. -/
def State.restart (s : State) : State :=
  { State.reset with
    hostMem := s.hostMem
    hostRead := s.hostRead
    pkg := s.pkg
    turns := s.turns
    fresh := s.fresh }

/-- POWER_UP (R22, R365, R367). -/
def execPowerUp (s : State) : Host.Outcome State Fault Refusal := .next s.restart

/-- MANAGEMENT_RESET_REQUEST (R366, R367, R219). -/
def execManagementResetRequest (t : ResetTarget) (s : State) : Host.Outcome State Fault Refusal :=
  match t with
  | .package => .next s.restart
  | .isle i => execIsleReset i s
  | .base d =>
    .next (if 24 ≤ d then s
      else { s.setBase d BaseDie.reset with ready := s.ready &&& ~~~((1 : DWord) <<< (40 + d)) })

/-! ### Power -/

/-- R372: the power cap in force. -/
def pcap (pwr : DWord) : Nat := if 1000 ≤ fld pwr 63 50 ∧ fld pwr 63 50 ≤ 4200 then fld pwr 63 50 else 4200

/-- R372: PWRCTL from its fields. -/
def pwrWord (cap clk power tj : Nat) : DWord :=
  BitVec.ofNat 64 (cap * 2 ^ 50 + clk * 2 ^ 37 + power * 2 ^ 23 + tj * 2 ^ 15)

/-- CLOCK_STEP (R372): with the power and the temperature measured, the clock falls or rises by 50 MHz. The register holds
its reset value when management sets its bit (R5), so it moves from then on. -/
def execClockStep (powerw : BitVec 14) (tjmax : BitVec 8) (s : State) : Host.Outcome State Fault Refusal :=
  if !s.ready.getLsbD 0 then .next s
  else
    let clk := fld s.pwr 49 37
    let clk := if pcap s.pwr < powerw.toNat ∨ 100 ≤ tjmax.toNat then max 450 (clk - 50) else min 1800 (clk + 50)
    .next { s with pwr := pwrWord (fld s.pwr 63 50) clk powerw.toNat tjmax.toNat }

/-! ### Registers with rows of their own -/

/-- CORECFG_WRITE (R375): SPSIZE, only while the core holds no block; the L1 is invalidated. -/
def execCorecfgWrite (core : Nat) (v : DWord) (s : State) : Host.Outcome State Fault Refusal :=
  let c := s.core core
  .next (if core < 1536 ∧ core % 8 < 4 ∧ s.isleUp (isleOf core) ∧ c.blocks.isEmpty then
    s.setCore core { c with spsize := v.setWidth 5, l1 := [] }
  else s)

/-- CTXROOT_WRITE (R317): CTXROOT, or with `save` CTXSAVE, only while STATE is FREE or STOPPED. -/
def execCtxrootWrite (ctx : Nat) (save : Bool) (v : BitVec 128) (s : State) : Host.Outcome State Fault Refusal :=
  let c := s.ctx ctx
  .next (if s.graphUp ∧ (c.st = .free ∨ c.st = .stopped) then
    s.setCtx ctx (if save then { c with saveBase := v.extractLsb' 12 30, saveSize := v.extractLsb' 64 32 }
      else { c with root := v.extractLsb' 14 28 })
  else s)

/-! ### The other registers (R5) -/

/-- R374: the offset names a counter of a unit. -/
def isCounter (o : Nat) : Bool :=
  o % 8 == 0 &&
    (if o < 0x100000 then false
     else if o < 0x200000 then o - 0x100000 < 8 * 13
     else if o < 0x280000 then (o - 0x200000) % 0x10000 < 8 * 4
     else if o < 0x300000 then false
     else if o < 0x480000 then (o - 0x300000) % 0x10000 < 8 * 10
     else if o < 0x500000 then false
     else if o < 0x540000 then (o - 0x500000) % 0x10000 < 8
     else if o < 0x800000 then false
     else if o < 0x800000 + 1536 * 0x1000 then
       (o - 0x800000) % 0x1000 < (if (o - 0x800000) / 0x1000 % 8 < 4 then 48 else if (o - 0x800000) / 0x1000 % 8 = 4 then 32 else 0)
     else false)

/-- The unit blocks of management space (R363, R374). -/
inductive UnitBlock where
  | global
  | lagoon
  | isle (i : Nat)
  | base (d : Nat)
  | cape (c : Nat)
  | core (k : Nat)
  | context (x : Nat)
  | none
  deriving DecidableEq, Repr

/-- R363, R374: the block of BAR 0 in which an offset lies, and the offset within it. -/
def unitBlock (o : Nat) : UnitBlock × Nat :=
  if o < 0x100000 then (.global, o)
  else if o < 0x200000 then (.lagoon, o - 0x100000)
  else if o < 0x280000 then (.isle ((o - 0x200000) / 0x10000), o % 0x10000)
  else if o < 0x300000 then (.none, o)
  else if o < 0x480000 then (.base ((o - 0x300000) / 0x10000), o % 0x10000)
  else if o < 0x500000 then (.none, o)
  else if o < 0x540000 then (.cape ((o - 0x500000) / 0x10000), o % 0x10000)
  else if o < 0x800000 then (.none, o)
  else if o < 0x800000 + 1536 * 0x1000 then (.core ((o - 0x800000) / 0x1000), o % 0x1000)
  else if o < 0x1000000 then (.none, o)
  else if o < 0x1000000 + 4096 * 0x4000 then (.context ((o - 0x1000000) / 0x4000), o % 0x4000)
  else (.none, o)

/-- R374: the registers of the global block in their order, one entry for each doubleword: the register and which of its doublewords.
DEDUCED, log 12: they follow one another without a gap. -/
def globalRegs : List (MReg × Nat) :=
  [(.ready, 0), (.pwrctl, 0), (.fwstat, 0), (.attnonce, 0), (.attnonce, 1), (.attnonce, 2), (.attnonce, 3), (.attaddr, 0), (.attgo, 0),
    (.attdone, 0)]

/-- The same of the lagoon's block after its counters, up to the access-control table. -/
def lagoonRegs : List (MReg × Nat) :=
  [(.invva, 0), (.invctl, 0), (.fownset, 0), (.ring .free64, 0), (.ring .free64, 1), (.ring .free2m, 0), (.ring .free2m, 1),
    (.ring .victim, 0), (.ring .victim, 1), (.ring .done, 0), (.ring .done, 1)]

/-- R374, R375: the register at an offset of BAR 0, and which of its doublewords: of those whose offsets or whose order the spec gives,
the counters of the units, CORECFG of the SIMT cores, and those of the global and the lagoon's block. -/
def barReg (o : Nat) : Option (MReg × Nat) :=
  if o % 8 ≠ 0 then none
  else if isCounter o then some (.unitCounter o, 0)
  else match unitBlock o with
    | (.global, a) => globalRegs[a / 8]?
    | (.lagoon, a) =>
      if a / 8 < 24 then lagoonRegs[a / 8 - 13]?
      else if a / 8 < 24 + 4096 then some (.acl (a / 8 - 24), 0)
      else none
    | (.core k, 0x800) => if k % 8 < 4 then some (.corecfg k, 0) else none
    | _ => none

/-- R215: a ring descriptor as a register. -/
def Ring.word (r : Ring) : BitVec 256 :=
  BitVec.ofNat 256 (r.head.toNat * 2 ^ 96 + r.tail.toNat * 2 ^ 64 + r.base.toNat * 256 + r.log2n.toNat)

/-- R215: a write of a ring descriptor, with HEAD and TAIL where they are RW. -/
def Ring.write (r : Ring) (v : BitVec 256) (head tail : Bool) : Ring :=
  { head := if head then v.extractLsb' 96 32 else r.head
    tail := if tail then v.extractLsb' 64 32 else r.tail
    base := v.extractLsb' 8 34
    log2n := v.extractLsb' 0 5 }

end Sys2Proof.Machine

namespace Sys2Proof

open Machine

/-- The bit of READY of the function that owns a register (R366). -/
def MReg.owner (r : MReg) : Nat :=
  match r with
  | .unitCounter o =>
    if o < 0x200000 then 2
    else if o < 0x300000 then 28 + (o - 0x200000) / 0x10000
    else if o < 0x500000 then 40 + (o - 0x300000) / 0x10000
    else if o < 0x800000 then 36 + (o - 0x500000) / 0x10000
    else 28 + isleOf ((o - 0x800000) / 0x1000)
  | .invva | .invctl | .fownset | .ring _ | .acl _ => 2
  | .ready | .fwstat | .pwrctl | .attnonce | .attaddr | .attgo | .attdone => 0
  | .baseLog d _ _ => 40 + d
  | .lccfg c | .lcrange c _ | .lccnt c _ _ | .lcidle c | .corecfg c => 28 + isleOf c
  | _ => 4

/-- The registers exist (R251, R257, R317, R325, R347, R358, R374). -/
def MReg.exists? (r : MReg) : Bool :=
  let ctxOk (x : Nat) : Bool := x < 4096
  let simt (c : Nat) : Bool := c < 1536 && c % 8 < 4
  match r with
  | .ctxroot x | .ctxsave x | .toffset x | .tnow x | .ctxctl x | .tcfg x | .absticky x | .cubecfg x | .wdcfg x | .dumpcfg x | .dbgring x | .dbgval x | .dbgcmd x | .lerr x =>
    ctxOk x
  | .ctxCounter x _ => ctxOk x
  | .abent x n | .abcount x n => ctxOk x && 1 ≤ n && n < 16
  | .prod x n => ctxOk x && n < 256
  | .bp x n => ctxOk x && n < 16
  | .lqd x q => ctxOk x && q < 64
  | .lqw x q d => ctxOk x && q < 64 && d < 16
  | .unitCounter o => isCounter o
  | .baseLog d k n => d < 24 && k < 3 && n < 32
  | .acl n => n < 4096
  | .lccfg c | .lcidle c | .corecfg c => simt c
  | .lcrange c n => simt c && n < 8
  | .lccnt c b k => simt c && b < 9 && k < 4
  | .invva | .invctl | .fownset | .ring _ | .ready | .fwstat | .pwrctl | .attnonce | .attaddr | .attgo | .attdone => true
  | .bar _ => false

end Sys2Proof

namespace Sys2Proof.Machine

/-- R316: a write of CTXCTL: DEBUG and RESTAMP while FREE, then the command. -/
def State.ctxctlWrite (s : State) (x : Nat) (v : BitVec 256) : Host.Outcome State Fault Refusal :=
  let c := s.ctx x
  let s := if c.st = .free then s.setCtx x { c with debug := v.getLsbD 60, restamp := v.getLsbD 59 } else s
  match bits v.toNat 58 56 with
  | 1 => execCreate x s
  | 2 => execStop x s
  | 3 => execResume x s
  | 4 => execTerminate x s
  | 5 => execRelease x s
  | _ => .next s

/-- R246, R247: a write of TCFG: SHIFT, HOLD, STEP in this order. -/
def State.tcfgWrite (s : State) (x : Nat) (v : BitVec 256) : State :=
  let s := s.shiftWrite x (v.extractLsb' 0 5)
  let s := if v.getLsbD 63 then s.holdSet x else s.holdClear x
  if v.getLsbD 62 then s.tideStep x else s

/-- A write of a register of a context block. -/
def State.ctxRegWrite (s : State) (r : MReg) (v : BitVec 256) : State :=
  let set (x : Nat) (f : Ctx → Ctx) : State := s.setCtx x (f (s.ctx x))
  match r with
  | .abent x n => set x fun c => { c with abent := Tbl.set c.abent n (v.setWidth 32 &&& 0xC07FFFFF) }
  | .absticky x => set x fun c => { c with absticky := c.absticky &&& ~~~(v.setWidth 32) }
  | .abcount x n => set x fun c => { c with abcount := Tbl.set c.abcount n (v.setWidth 32) }
  | .prod x n =>
    let p : Producer :=
      { node := v.extractLsb' 192 64, fin := v.extractLsb' 128 64, start := v.extractLsb' 64 64, v := v.getLsbD 3
        budget := v.extractLsb' 0 3 }
    set x fun c => { c with prod := Tbl.set c.prod n p }
  | .cubecfg x => set x fun c => { c with suspact := v.extractLsb' 0 2 }
  | .wdcfg x => set x fun c =>
    { c with ben := v.getLsbD 63, pen := v.getLsbD 62, plog := v.extractLsb' 6 6, blog := v.extractLsb' 0 6 }
  | .dumpcfg x => set x fun c => { c with dslots := v.extractLsb' 56 8, dbase := v.extractLsb' 15 27 }
  | .dbgring x => set x fun c => { c with dbgring := c.dbgring.write v true false }
  | .bp x n =>
    let p : Breakpoint :=
      { key := v.extractLsb' 64 64, v := v.getLsbD 63, byId := v.getLsbD 62, act := v.extractLsb' 60 2
        ord := v.extractLsb' 0 16 }
    set x fun c => { c with bps := Tbl.set c.bps n p }
  | .dbgval x => set x fun c => if c.debug then { c with dbgval := v.setWidth 64 } else c
  | .lqd x q => set x fun c => { c with lqd := Tbl.set c.lqd q ((Tbl.getD c.lqd q Ring.reset).write v false false) }
  | .lqw x q d => set x fun c => { c with lqw := Tbl.set c.lqw (q * 16 + d) (v.setWidth 64) }
  | .lerr x => set x fun c => { c with lerr := c.lerr &&& ~~~(v.setWidth 64 &&& 0xC000000000000000) }
  | .ctxCounter x k => set x fun c => { c with counters := Tbl.set c.counters (ctrIdx k) (v.setWidth 32) }
  | _ => s

/-- A write of a register of another unit. -/
def State.unitRegWrite (s : State) (r : MReg) (v : BitVec 256) : State :=
  let onCore (c : Nat) (f : Core → Core) : State := s.setCore c (f (s.core c))
  match r with
  | .unitCounter o => { s with counters := Tbl.set s.counters o (v.setWidth 32) }
  | .invva => { s with invva := v.setWidth 64 &&& 0x01FFFFFFFFFF0000 }
  | .ring .free64 => { s with free64 := s.free64.write v false true }
  | .ring .free2m => { s with free2m := s.free2m.write v false true }
  | .ring .victim => { s with victim := s.victim.write v false true }
  | .ring .done => { s with done := s.done.write v true false }
  | .acl n => { s with acl := Tbl.set s.acl n (v.setWidth 64 &&& 0xFFFFFFFC00000000) }
  | .pwrctl => { s with pwr := (s.pwr &&& 0x0003FFFFFFFFFFFF) ||| (v.setWidth 64 &&& 0xFFFC000000000000) }
  | .attnonce => { s with attNonce := leBytes v.toNat 32 }
  | .attaddr => { s with attAddr := v.setWidth 64 }
  | .lccfg c => onCore c fun x => { x with lccfg := v.setWidth 64 &&& 0x8000000000000FFF }
  | .lcrange c n => onCore c fun x => { x with lcrange := vput x.lcrange n (v.setWidth 64 &&& 0x00000001FFFFFFFF) }
  | .lccnt c b k => onCore c fun x => { x with lccnt := Tbl.set x.lccnt (4 * b + k) (v.setWidth 64) }
  | .lcidle c => onCore c fun x => { x with lcidle := v.setWidth 64 }
  | _ => s

/-- R5, R366: a write of a register through management space sets the RW fields, clears W1C bits written as 1, and acts for WO fields; a
register of a function that is not ready ignores it. A register that also has steps of its own acts as they do, in one write. -/
def State.registerWrite (s : State) (r : MReg) (v : BitVec 256) : Host.Outcome State Fault Refusal :=
  if !r.exists? || !s.ready.getLsbD r.owner then .next s
  else match r with
    | .ctxctl x => s.ctxctlWrite x v
    | .tcfg x => .next (s.tcfgWrite x v)
    | .dbgcmd x => s.dbgWrite x (v.setWidth 64)
    | .invctl => execShootdown (v.setWidth 64) s
    | .fownset => execFownsetGo (v.setWidth 64) s
    | .lqw x q d => if d = 15 then execStagingWindowAppend x q (v.setWidth 64) s else .next (s.ctxRegWrite r v)
    | .ctxroot x => execCtxrootWrite x false (v.setWidth 128) s
    | .ctxsave x => execCtxrootWrite x true (v.setWidth 128) s
    | .toffset x => execToffsetWrite x (v.setWidth 64) s
    | .corecfg c => execCorecfgWrite c (v.setWidth 64) s
    | .attgo => if v.getLsbD 0 then execAttgo s else .next s
    | .ready | .fwstat | .attdone | .tnow _ | .baseLog _ _ _ => .next s
    | .unitCounter _ | .invva | .ring _ | .acl _ | .pwrctl | .attnonce | .attaddr | .lccfg _ | .lcrange _ _ | .lccnt _ _ _
    | .lcidle _ => .next (s.unitRegWrite r v)
    | _ => .next (s.ctxRegWrite r v)

/-- The state field of CTXCTL (R316). -/
def CtxSt.num (x : CtxSt) : Nat :=
  match x with
  | .free => 0 | .live => 1 | .stopping => 2 | .stopped => 3 | .terminated => 4 | .lost => 5

/-- A bit as a number in its place. -/
def bitIn (b : Bool) (i : Nat) : Nat := b.toNat * 2 ^ i

/-- What a register of a context block reads (R5, R247, R251, R257, R294, R316, R317, R347 to R354). -/
def State.ctxRegRead (s : State) (r : MReg) : Nat :=
  match r with
  | .ctxroot x => (s.ctx x).root.toNat * 2 ^ 14
  | .ctxsave x => (s.ctx x).saveSize.toNat * 2 ^ 64 + (s.ctx x).saveBase.toNat * 2 ^ 12
  | .toffset x => (s.ctx x).offset.toNat
  | .tnow x => (s.ctide x).toNat
  | .ctxctl x =>
    let c := s.ctx x
    c.st.num * 2 ^ 61 + bitIn c.debug 60 + bitIn c.restamp 59 + c.cause.toNat * 2 ^ 16 +
      min 0xFFFF (s.insts.filter fun i => i.ctx == x).length
  | .tcfg x => let c := s.ctx x
               bitIn c.hold 63 + bitIn c.debug 61 + bitIn c.restamp 60 + c.shift.toNat
  | .abent x n => ((s.ctx x).bound n).toNat
  | .absticky x => (s.ctx x).absticky.toNat
  | .abcount x n => (Tbl.getD (s.ctx x).abcount n 0).toNat
  | .prod x n =>
    let p := (s.ctx x).producer n
    p.node.toNat * 2 ^ 192 + p.fin.toNat * 2 ^ 128 + p.start.toNat * 2 ^ 64 + bitIn p.v 3 + p.budget.toNat
  | .cubecfg x => (s.ctx x).suspact.toNat
  | .wdcfg x => let c := s.ctx x
                bitIn c.ben 63 + bitIn c.pen 62 + c.plog.toNat * 64 + c.blog.toNat
  | .dumpcfg x => let c := s.ctx x
                  c.dslots.toNat * 2 ^ 56 + c.dnext.toNat * 2 ^ 42 + c.dbase.toNat * 2 ^ 15
  | .dbgring x => (s.ctx x).dbgring.word.toNat
  | .bp x n =>
    let p := Tbl.getD (s.ctx x).bps n Breakpoint.reset
    p.key.toNat * 2 ^ 64 + bitIn p.v 63 + bitIn p.byId 62 + p.act.toNat * 2 ^ 60 + p.ord.toNat
  | .dbgval x => (s.ctx x).dbgval.toNat
  | .dbgcmd x => (s.ctx x).dbgcmd.toNat
  | .lqd x q => (s.lq x q).word.toNat
  | .lerr x => (s.ctx x).lerr.toNat
  | .ctxCounter x k => (Tbl.getD (s.ctx x).counters (ctrIdx k) 0).toNat
  | _ => 0

/-- R368: FWSTAT. Bit `u` is the failure of unit `u`, in the order of R369: the layout is the model's (log 12). -/
def State.fwstat (s : State) : Nat := ((List.range 37).map fun u => bitIn (Tbl.get? s.fwOk u == some false) u).sum

/-- What a register of another unit reads (R210, R215, R220, R223, R261, R325, R358, R365, R368, R369,
R372, R375). -/
def State.unitRegRead (s : State) (r : MReg) : Nat :=
  match r with
  | .ready => s.ready.toNat
  | .fwstat => s.fwstat
  | .attdone => s.attDone.toNat
  | .corecfg c => (s.core c).spsize.toNat
  | .unitCounter o => (Tbl.getD s.counters o 0).toNat
  | .baseLog d k n =>
    let b := s.base d
    ((if k = 0 then b.ecc else if k = 1 then b.parity else b.table).getD n 0).toNat
  | .invva => s.invva.toNat
  | .invctl => bitIn s.shooting.isSome 63 + s.invctl.toNat
  | .fownset => s.fownset.toNat
  | .ring .free64 => s.free64.word.toNat
  | .ring .free2m => s.free2m.word.toNat
  | .ring .victim => s.victim.word.toNat
  | .ring .done => s.done.word.toNat
  | .acl n => (Tbl.getD s.acl n 0).toNat
  | .pwrctl => s.pwr.toNat
  | .attnonce => leVal s.attNonce
  | .attaddr => s.attAddr.toNat
  | .lccfg c => (s.core c).lccfg.toNat
  | .lcrange c n => (vat (s.core c).lcrange 0 n).toNat
  | .lccnt c b k => (Tbl.getD (s.core c).lccnt (4 * b + k) 0).toNat
  | .lcidle c => (s.core c).lcidle.toNat
  | _ => 0

/-- R5, R366: what a read of a register gives; it changes nothing. -/
def State.regRead (s : State) (r : MReg) : Nat :=
  if !r.exists? || !s.ready.getLsbD r.owner then 0 else s.ctxRegRead r + s.unitRegRead r

/-- Doubleword `k` of a register's value replaced. -/
def putDword (old k : Nat) (v : DWord) : BitVec 256 :=
  BitVec.ofNat 256 (old % 2 ^ (64 * k) + v.toNat * 2 ^ (64 * k) + old / 2 ^ (64 * k + 64) * 2 ^ (64 * k + 64))

/-- REGISTER_WRITE (R5, R366, R374): a write through management space, of a whole register by its name, or of a doubleword by its offset:
an offset that names no register ignores it. -/
def execRegisterWrite (r : MReg) (v : BitVec 256) (s : State) : Host.Outcome State Fault Refusal :=
  match r with
  | .bar o =>
    (match barReg o with
      | some (q, k) => s.registerWrite q (putDword (s.regRead q) k (v.setWidth 64))
      | none => .next s)
  | r => s.registerWrite r v

/-- R363, R374: the doubleword that a read of BAR 0 at an offset gives; an offset that names no register reads 0. DESIGN CHOICE, log 12:
a register whose offset the spec does not give is read by its name. -/
def State.barRead (s : State) (o : Nat) : Nat :=
  match barReg o with
  | some (r, k) => s.regRead r / 2 ^ (64 * k) % 2 ^ 64
  | none => 0

/-- R367: what the management bus reads: READY, temperature and power, the counters of R223. -/
def State.busRead (s : State) (r : MReg) : Option Nat :=
  match r with
  | .ready => some s.ready.toNat
  | .pwrctl | .unitCounter _ => some (s.regRead r)
  | _ => none

/-! ### Acknowledgements -/

/-- R239: the class up to which a gang's outstanding write can be acknowledged: a peer egress for PACKAGE until its flits have
been acknowledged, everything else for SYSTEM. -/
def State.ackLimit (s : State) (core slot gang n : Nat) : Nat :=
  match (s.gang? core slot gang).bind fun g => g.outst[n]? with
  | some o =>
    if (s.core core).ferry.any fun c => c.slot == slot && c.gang == gang && c.id + 1 == o.1 && !c.flits.isEmpty then 3 else 4
  | none => 4

/-- WRITE_ACKNOWLEDGEMENT (R233): of the issuer's n-th outstanding write, for a class and every narrower one. -/
def execWriteAcknowledgement (who : Issuer) (n : Nat) (cls : AckClass) (s : State) : Host.Outcome State Fault Refusal :=
  match who with
  | .gang core slot gang =>
    let k := min (ackNum cls) (s.ackLimit core slot gang n)
    .next (s.onGang core slot gang fun g => { g with outst := ackList g.outst n k })
  | .thread core slot => .next (s.onThread core slot fun t => { t with outst := ackList t.outst n (ackNum cls) })

end Sys2Proof.Machine
end

