-- ==== Sys2Proof/Machine/Link.lean ====
section
/-! DEFINITION. The Svaxizu link (R370, R371, R132, R239): received flits, acknowledgements and retries, dropped flits,
the alignment of tides, the training of a cape. -/

/-! ### Data flits -/

namespace Sys2Proof

/-- The number of a kind in a header (log 22). -/
def kindNum (k : FlitKind) : Nat :=
  match k with
  | .data => 0 | .launch => 1 | .ack => 2 | .dropNotice => 3 | .tide => 4 | .barrierArrival => 5 | .barrierCompletion => 6

/-- The virtual address of a data flit's first byte. -/
def Flit.va (f : Flit) : DWord := f.addr.signExtend 64

/-- R370: the bytes written in the i-th sector of a data flit: offsets within the sector. -/
def Flit.sectorBytes (f : Flit) (i : Nat) : List (Nat × Byte) :=
  let o := f.addr.toNat % 32
  let n := min f.count.toNat (192 - o)
  (List.range 32).filterMap fun k =>
    if o ≤ 32 * i + k ∧ 32 * i + k < o + n then some (k, f.body.getD (32 * i + k) 0) else none

/-- The sectors of a data flit that it writes. -/
def Flit.sectors (f : Flit) : List Nat := (List.range 6).filter fun i => !(f.sectorBytes i).isEmpty

/-- The address of the i-th sector. -/
def Flit.sectorVa (f : Flit) (i : Nat) : DWord := (f.va &&& ~~~(31 : DWord)) + BitVec.ofNat 64 (32 * i)

end Sys2Proof

namespace Sys2Proof.Machine

/-- What the translations of a flit's sectors give: nothing is written while one of them waits. -/
inductive FlitPlace where
  | ok (l : List (Nat × Nat))
  | wait (va : Option DWord)

/-- R370, R274: the physical sectors that a data flit writes; a sector without a translation is left out (log 22). -/
def State.flitPlace (s : State) (ctx : Nat) (f : Flit) : List Nat → State × FlitPlace
  | [] => (s, .ok [])
  | i :: r =>
    match s.translate lagoonCore ctx (f.sectorVa i) true 32 with
    | (s, .migrate) => (s, .wait (some (f.sectorVa i)))
    | (s, .wait) => (s, .wait none)
    | (s, .fault _) => s.flitPlace ctx f r
    | (s, .ok pa) => match s.flitPlace ctx f r with
      | (s, .ok l) => (s, .ok ((i, pa / 32) :: l))
      | (s, x) => (s, x)

/-- R370: one sector of a flit written as the ferry writes it. -/
def State.flitWrite (s : State) (ctx : Nat) (f : Flit) (i sec : Nat) : State :=
  let now := s.now ctx
  let st := f.stamps.getD i ageless
  let ws := (f.sectorBytes i).map fun p => (32 * sec + p.1, p.2)
  let s := (s.snoop none (sec / 4) true).dirAperture (32 * sec)
  if f.poison.getLsbD i then
    let new := StampRule.apply (.normal st) now (s.mem.stamp sec) (coversSector ws sec)
    { s with fresh := s.fresh + 32 }.homeSet sec ((List.range 32).map fun k => Config.freeByte (s.fresh + k)) new true
  else s.homePut now sec ws (.normal st)

/-- DATA_FLIT (R370, R274, R325). -/
def execDataFlit (cape : Nat) (f : Flit) (s : State) : Host.Outcome State Fault Refusal :=
  if !s.inSeq cape f then .next s
  else if !s.aclAllows false f.src.toNat f.ctx.toNat none then .next (s.takeFlit cape f 2)
  else match s.flitPlace f.ctx.toNat f f.sectors with
    | (s, .wait x) => .next (s.holdMove f.ctx.toNat x)
    | (s, .ok l) => .next (l.foldl (fun (s : State) p => s.flitWrite f.ctx.toNat f p.1 p.2) (s.takeFlit cape f 0))

/-! ### Acknowledgements and retries -/

/-- R274, R239: a command one of whose flits was dropped (link-drop, 7) or refused by the peer (refused, 6) fails, with the
first failure's status (log 22). Its gang waits for the write no longer once no other flit of the command is out (R233). -/
def State.ferryFailed (s : State) (cape : Nat) (seq : BitVec 12) (status : Nat) : State :=
  let hit := s.cores.flatMap fun e => (e.2.ferry.filter fun c => c.flits.contains (cape, seq)).map fun c => (e.1, c)
  let s := s.onFlitFerry cape seq fun c =>
    { c with
      flits := c.flits.filter (· != (cape, seq))
      status := if c.status.getD 0 = 0 then some status else c.status }
  hit.foldl (fun (s : State) p =>
    if p.2.flits.all (· == (cape, seq)) then
      s.onGang p.1 p.2.slot p.2.gang fun g => { g with outst := g.outst.filter fun o => o.1 != p.2.id + 1 }
    else s) s

/-- ACK (R370, R325): the entries of the replay buffer up to the acknowledged one are retired; a write that the peer has
refused fails its command (R274). -/
def execAck (cape : Nat) (seq : BitVec 12) (refused : Bool) (s : State) : Host.Outcome State Fault Refusal :=
  let x := s.cape cape
  match x.replay.findIdx? fun e => e.1 == seq with
  | none => .next s
  | some _ => .next ((if refused then s.ferryFailed cape seq 6 else s).ackedTo cape seq)

/-- NEGATIVE_ACKNOWLEDGEMENT (R370): the entries from the one asked for are sent again. -/
def execNegativeAcknowledgement (cape : Nat) (seq : BitVec 12) (s : State) : Host.Outcome State Fault Refusal :=
  let x := s.cape cape
  let old := x.replay.takeWhile fun e => e.1 != seq
  let again := (x.replay.drop old.length).map fun e => (e.1, e.2.1, e.2.2 + 1)
  .next { s.setCape cape { x with replay := old ++ again } with outbox := s.outbox ++ again.map fun e => (cape, e.2.1) }

/-- BAD_CRC_OR_SEQUENCE_GAP (R370): the receiver asks for the flit it expects. -/
def execBadCrcOrSequenceGap (cape : Nat) (f : Flit) (s : State) : Host.Outcome State Fault Refusal :=
  .next (if cape < 4 && s.ready.getLsbD (36 + cape) then s.sendAck cape f (s.cape cape).recvSeq 1 else s)

/-- The drop notice of a flit: its header, with the kind as body (R370). -/
def noticeOf (f : Flit) : Flit :=
  { f with kind := .dropNotice, body := [BitVec.ofNat 8 (kindNum f.kind)], stamps := [], poison := 0 }

/-- FLIT_DROP (R370, R93, R132): the oldest flit of the replay buffer, after 8 failed retries. A barrier flit is sent
again. -/
def execFlitDrop (cape : Nat) (s : State) : Host.Outcome State Fault Refusal :=
  let x := s.cape cape
  match x.replay with
  | [] => .next s
  | (seq, f, n) :: rest =>
    if n < 8 ∨ f.kind = .dropNotice then .next s
    else
      let g := noticeOf f
      let s := { s.setCape cape { x with replay := (seq, g, 0) :: rest } with outbox := s.outbox ++ [(cape, g)] }
      let s := ((s.count (capeCtr cape 0) 1).ferryFailed cape seq 7).peerDone cape seq
      .next (if f.kind = .barrierArrival ∨ f.kind = .barrierCompletion then s.sendBy cape f else s)

/-- DROP_NOTICE (R370, R239): every sector that the lost flit addressed is poisoned, a lost launch counts in LAUNCH_DROP. -/
def execDropNotice (cape : Nat) (f : Flit) (s : State) : Host.Outcome State Fault Refusal :=
  if !s.inSeq cape f then .next s
  else
    let kind := (f.body.headD 0).toNat
    let ctx := f.ctx.toNat
    if kind = 1 then .next (((s.takeFlit cape f 0).count (capeCtr cape 0) 1).ctxCount ctx .launchDrop)
    else if kind ≠ 0 then .next ((s.takeFlit cape f 0).count (capeCtr cape 0) 1)
    else match s.flitPlace ctx f f.sectors with
      | (s, .wait x) => .next (s.holdMove ctx x)
      | (s, .ok l) =>
        .next (l.foldl (fun (s : State) p => (s.snoop none (p.2 / 4) true).poisonSec p.2)
          ((s.takeFlit cape f 0).count (capeCtr cape 0) 1))

/-! ### Tides -/

/-- R371: a tide flit of a cape. -/
def tideFlitOf (src dst : BitVec 9) (tide : DWord) : Flit :=
  { kind := .tide, seq := 0, src := src, dst := dst, ctx := 0, addr := 0, count := 8, body := leBytes tide.toNat 8
    stamps := [], poison := 0 }

def State.tideSend (s : State) (c : Nat) : State :=
  let x := s.cape c
  (s.setCape c { x with lastTide := s.tide }).sendBy c (tideFlitOf s.pkg x.peer s.tide)

/-- R371: tide flits on every trained cape. -/
def State.tideSendAll (s : State) : State :=
  (List.range 4).foldl (fun (s : State) c => if s.ready.getLsbD (36 + c) then s.tideSend c else s) s

/-- R245, R371: the tide advances to a larger value heard, and says so at once; what would pass the deadline of R27 by it
is swept first (log 23). -/
def State.hear (s : State) (v : DWord) : State := if s.tide.ult v then { s.sweep v with tide := v }.tideSendAll else s

/-- The tide that a flit carries. -/
def Flit.tide (f : Flit) : DWord := BitVec.ofNat 64 (leVal (f.body.take 8))

/-- TIDE_FLIT (R371), in the sequence order of its cape. -/
def execTideFlit (cape : Nat) (f : Flit) (s : State) : Host.Outcome State Fault Refusal :=
  .next (if s.inSeq cape f then (s.takeFlit cape f 0).hear (Flit.tide f + (s.cape cape).delay) else s)

/-- TIDE_FLIT_SEND (R371): every 2^16 reference ticks. -/
def execTideFlitSend (cape : Nat) (s : State) : Host.Outcome State Fault Refusal :=
  .next (if cape < 4 && s.ready.getLsbD (36 + cape) && 65536 ≤ (s.tide - (s.cape cape).lastTide).toNat then s.tideSend cape else s)

/-- CAPE_TRAINING (R365, R371): the peer, the link delay, the tide heard in the first exchange, whose flits are the first of both
directions; then the CAPE bit, and the barrier flits that waited for it (R245). -/
def execCapeTraining (cape : Nat) (peer : BitVec 9) (delay heard : DWord) (s : State) : Host.Outcome State Fault Refusal :=
  if 4 ≤ cape || s.ready.getLsbD (36 + cape) || !s.ready.getLsbD 3 || !s.fwPassed (33 + cape) then .next s
  else
    let s := s.setCape cape { s.cape cape with peer := peer, delay := delay, recvSeq := 1, sendSeq := 0, replay := [] }
    let s := s.clearCounters (capeCtr cape 0) (capeCtr cape 512)
    let s := (s.hear (heard + delay)).tideSend cape
    .next (s.unsent.foldl State.sendFlit { s with ready := s.ready ||| ((1 : DWord) <<< (36 + cape)), unsent := [] })

/-! ### Barrier flits -/

/-- BARRIER_ARRIVAL_FLIT (R132): at the home; before its own member is dispatched the arrival is held, and with a full
table it is not taken, so that the sender sends it again. -/
def execBarrierArrivalFlit (cape : Nat) (f : Flit) (s : State) : Host.Outcome State Fault Refusal :=
  if !s.inSeq cape f then .next s
  else match (s.podMember? (flitHome f) (flitGroup f)).filter fun x => !x.dispatched.isEmpty with
    | some x => .next ((s.takeFlit cape f 0).podFrom x f)
    | none =>
      if s.early.length < 1024 then
        let s := s.takeFlit cape f 0
        .next { s with early := s.early ++ [f] }
      else .next s

/-- BARRIER_COMPLETION_FLIT (R132). -/
def execBarrierCompletionFlit (cape : Nat) (f : Flit) (s : State) : Host.Outcome State Fault Refusal :=
  .next (if s.inSeq cape f then (s.takeFlit cape f 0).podRelease (flitHome f) (flitGroup f) (flitBar f) else s)

end Sys2Proof.Machine
end

