-- ==== Sys2Proof/Machine/Fetch.lean ====
section
/-! DEFINITION. Fetching an instruction: a gang's from its block's flume (R54, R67 tests 1 to 5), a thread's from its
node's image (R57, R101). -/

namespace Sys2Proof.Machine

/-- What the fetch of a wide word gives. -/
inductive Fetch where
  /-- Test 1: the slice stalls. -/
  | stall
  /-- Test 2. -/
  | stale
  /-- Test 3. -/
  | trailing
  /-- Tests 4 and 5. -/
  | illegal (w : Word)
  | instr (i : Instr)
  deriving DecidableEq, Repr

/-- R67: the tests of a fetched slot, in order. -/
def Block.fetch (b : Block) (pc : Word) : Fetch :=
  let x := b.slotOf pc
  let t := b.slotOf (pc + 1)
  if b.fetchStalled pc then .stall
  else if pc.ult b.f then .stale
  else if x.kind = 1 then .trailing
  else if needsTrail x.word && t.kind != 1 then .illegal x.word
  else match decodeWide x.word t.word with
    | .ok i => .instr i
    | .error _ => .illegal x.word

/-- The next word of a group: one that waits has fetched its word, and fetches it no more (R77). -/
def Block.fetchFor (b : Block) (x : Group) : Fetch :=
  match x.wait, x.held with
  | .none, _ | _, none => b.fetch x.pc
  | _, some (w, t) =>
    match decodeWide w.word t with
    | .ok i => .instr i
    | .error _ => .illegal w.word

/-- R101: what the fetch of a generator word gives. -/
inductive GFetch where
  | instr (i : Instr)
  | illegal (w : Word)
  | fault (code detail : Nat)
  | migrate
  | wait
  deriving DecidableEq, Repr

/-- R101: the word at a thread's PC, its current or an older value, decoded for its processor. -/
def State.genFetch (s : State) (core : Nat) (b : Block) : State × GFetch :=
  match s.translate core b.ctx b.th.pc false 4 with
  | (s, .fault d) => (s, .fault 0x22 d)
  | (s, .migrate) => (s, .migrate)
  | (s, .wait) => (s, .wait)
  | (s, .ok pa) =>
    let (s, w) := s.codeWord core pa b.born
    if s.homeBad (pa / 32) then (s, .fault 0x23 0)
    else match decodeGen b.control w with
      | .ok i => (s, .instr i)
      | .error _ => (s, .illegal w)

/-- What happens in a turn: an instruction, run in a state that names the agent; a step of a unit; a change of state. -/
inductive Act where
  | run (s : State) (i : Instr)
  | job (s : State) (j : Job)
  | done (s : State)

/-- The fetch of a group's next word, and what follows from it. -/
def State.wideAct (s : State) (core slot gang : Nat) (b : Block) (x : Group) : Act :=
  let s := { s with cur := .wide core slot gang x.mask }
  let fault (code : Nat) : Act := match s.env? with
    | some e => .done (e.finish ⟨false, false, .mem, 1, false, []⟩ none (.fault e.s code 0))
    | none => .done s
  match b.fetchFor x with
  | .stall => .done s
  | .stale => fault 0x04
  | .trailing => fault 0x03
  | .illegal w => .run s (.illegalWord w)
  | .instr i => .run s i

/-- The fetch of a thread's next word, and what follows from it. -/
def State.genAct (s : State) (core slot : Nat) (b : Block) : Act :=
  let s := { s with cur := .gen core slot }
  match s.genFetch core b with
  | (s, .instr i) => .run s i
  | (s, .illegal w) => .run s (.illegalWord w)
  | (s, .fault code detail) => .done (s.gTrap core slot code detail b.th.pc)
  | (s, .migrate) => .done (s.onThread core slot fun t => { t with wait := .migrate b.th.pc })
  | (s, .wait) => .done (s.onThread core slot fun t => { t with wait := .base })

/-! ### Pipes of words -/

/-- R122: the word issues on the memory pipe. -/
def memPipe (w : Word) : Bool :=
  (w.extractLsb' 28 2).toNat == 3 &&
    (match (w.extractLsb' 26 2).toNat with
      | 0 => true
      | 2 =>
        let op := (w.extractLsb' 20 6).toNat
        (0x01 ≤ op && op ≤ 0x06) || (0x18 ≤ op && op ≤ 0x23) || (0x30 ≤ op && op ≤ 0x32) || op == 0x38 || op == 0x39
      | _ => false)

/-- R122: the word belongs to the memory subclass. -/
def memSubclass (w : Word) : Bool := (w.extractLsb' 26 4).toNat == 12

/-- R120: the words with a variable-latency result. -/
def varLatency (i : Instr) : Bool :=
  match i with
  | .ldx _ | .atom _ | .ldw _ | .mbrd _ _ _ _ | .popm _ _ _ _ | .drainCubeRegisterForm _ | .frcp _ | .frsq _ | .fsqrt _ | .fexp2 _ | .flog2 _ => true
  | _ => false

end Sys2Proof.Machine
end

