-- ==== Sys2Proof/Machine/Dispatch.lean ====
section
/-! DEFINITION. Dispatch: one arm per constructor of Instr, each one call of its meaning. -/

namespace Sys2Proof.Machine

def exec (i : Instr) (s : State) : Host.Outcome State Fault Refusal :=
  match i with
  | .iadd o => Sys2Proof.Machine.execIadd o s
  | .isub o => Sys2Proof.Machine.execIsub o s
  | .imul o => Sys2Proof.Machine.execImul o s
  | .imulh o => Sys2Proof.Machine.execImulh o s
  | .imad o => Sys2Proof.Machine.execImad o s
  | .imin o => Sys2Proof.Machine.execImin o s
  | .imax o => Sys2Proof.Machine.execImax o s
  | .umin o => Sys2Proof.Machine.execUmin o s
  | .umax o => Sys2Proof.Machine.execUmax o s
  | .iand o => Sys2Proof.Machine.execIand o s
  | .ior o => Sys2Proof.Machine.execIor o s
  | .ixor o => Sys2Proof.Machine.execIxor o s
  | .ishl o => Sys2Proof.Machine.execIshl o s
  | .ishr o => Sys2Proof.Machine.execIshr o s
  | .isar o => Sys2Proof.Machine.execIsar o s
  | .fadd o => Sys2Proof.Machine.execFadd o s
  | .fsub o => Sys2Proof.Machine.execFsub o s
  | .fmul o => Sys2Proof.Machine.execFmul o s
  | .ffma o => Sys2Proof.Machine.execFfma o s
  | .fnma o => Sys2Proof.Machine.execFnma o s
  | .fmin o => Sys2Proof.Machine.execFmin o s
  | .fmax o => Sys2Proof.Machine.execFmax o s
  | .frcp o => Sys2Proof.Machine.execFrcp o s
  | .frsq o => Sys2Proof.Machine.execFrsq o s
  | .fsqrt o => Sys2Proof.Machine.execFsqrt o s
  | .fexp2 o => Sys2Proof.Machine.execFexp2 o s
  | .flog2 o => Sys2Proof.Machine.execFlog2 o s
  | .fcmpeq o => Sys2Proof.Machine.execFcmpeq o s
  | .fcmplt o => Sys2Proof.Machine.execFcmplt o s
  | .fcmple o => Sys2Proof.Machine.execFcmple o s
  | .fabs o => Sys2Proof.Machine.execFabs o s
  | .hadd o => Sys2Proof.Machine.execHadd o s
  | .hmul o => Sys2Proof.Machine.execHmul o s
  | .hfma o => Sys2Proof.Machine.execHfma o s
  | .hmax o => Sys2Proof.Machine.execHmax o s
  | .badd o => Sys2Proof.Machine.execBadd o s
  | .bmul o => Sys2Proof.Machine.execBmul o s
  | .bfma o => Sys2Proof.Machine.execBfma o s
  | .bmax o => Sys2Proof.Machine.execBmax o s
  | .cvtfi o => Sys2Proof.Machine.execCvtfi o s
  | .cvtif o => Sys2Proof.Machine.execCvtif o s
  | .cvtfh o => Sys2Proof.Machine.execCvtfh o s
  | .cvthf o => Sys2Proof.Machine.execCvthf o s
  | .cvtfb o => Sys2Proof.Machine.execCvtfb o s
  | .cvtbf o => Sys2Proof.Machine.execCvtbf o s
  | .cvtf8 o => Sys2Proof.Machine.execCvtf8 o s
  | .cvt8f o => Sys2Proof.Machine.execCvt8f o s
  | .vdot8 o => Sys2Proof.Machine.execVdot8 o s
  | .lshfl o => Sys2Proof.Machine.execLshfl o s
  | .lxor o => Sys2Proof.Machine.execLxor o s
  | .sel o => Sys2Proof.Machine.execSel o s
  | .kand o => Sys2Proof.Machine.execKand o s
  | .kor o => Sys2Proof.Machine.execKor o s
  | .kxor o => Sys2Proof.Machine.execKxor o s
  | .kandn o => Sys2Proof.Machine.execKandn o s
  | .icmpeq o => Sys2Proof.Machine.execIcmpeq o s
  | .icmplt o => Sys2Proof.Machine.execIcmplt o s
  | .icmpltu o => Sys2Proof.Machine.execIcmpltu o s
  | .icmpne o => Sys2Proof.Machine.execIcmpne o s
  | .iaddImm o => Sys2Proof.Machine.execIaddImm o s
  | .imulImm o => Sys2Proof.Machine.execImulImm o s
  | .iandImm o => Sys2Proof.Machine.execIandImm o s
  | .iorImm o => Sys2Proof.Machine.execIorImm o s
  | .ixorImm o => Sys2Proof.Machine.execIxorImm o s
  | .ishlImm o => Sys2Proof.Machine.execIshlImm o s
  | .ishrImm o => Sys2Proof.Machine.execIshrImm o s
  | .isarImm o => Sys2Proof.Machine.execIsarImm o s
  | .iminImm o => Sys2Proof.Machine.execIminImm o s
  | .imaxImm o => Sys2Proof.Machine.execImaxImm o s
  | .icmpeqImm o => Sys2Proof.Machine.execIcmpeqImm o s
  | .icmpltImm o => Sys2Proof.Machine.execIcmpltImm o s
  | .iaddKc o => Sys2Proof.Machine.execIaddKc o s
  | .imulKc o => Sys2Proof.Machine.execImulKc o s
  | .faddKc o => Sys2Proof.Machine.execFaddKc o s
  | .fsubKc o => Sys2Proof.Machine.execFsubKc o s
  | .fmulKc o => Sys2Proof.Machine.execFmulKc o s
  | .ffmaKc o => Sys2Proof.Machine.execFfmaKc o s
  | .fminKc o => Sys2Proof.Machine.execFminKc o s
  | .fmaxKc o => Sys2Proof.Machine.execFmaxKc o s
  | .faddAdopt o => Sys2Proof.Machine.execFaddAdopt o s
  | .fsubAdopt o => Sys2Proof.Machine.execFsubAdopt o s
  | .fmulAdopt o => Sys2Proof.Machine.execFmulAdopt o s
  | .ffmaAdopt o => Sys2Proof.Machine.execFfmaAdopt o s
  | .fnmaAdopt o => Sys2Proof.Machine.execFnmaAdopt o s
  | .iaddAdopt o => Sys2Proof.Machine.execIaddAdopt o s
  | .hfmaAdopt o => Sys2Proof.Machine.execHfmaAdopt o s
  | .bfmaAdopt o => Sys2Proof.Machine.execBfmaAdopt o s
  | .faddf o => Sys2Proof.Machine.execFaddf o s
  | .fmovf o => Sys2Proof.Machine.execFmovf o s
  | .nop s1 c => Sys2Proof.Machine.execNop s1 c s
  | .jmp s1 c j => Sys2Proof.Machine.execJmp s1 c j s
  | .brAny s1 c k j => Sys2Proof.Machine.execBrAny s1 c k j s
  | .brAll s1 c k j => Sys2Proof.Machine.execBrAll s1 c k j s
  | .brUz s1 c w j => Sys2Proof.Machine.execBrUz s1 c w j s
  | .brUnz s1 c w j => Sys2Proof.Machine.execBrUnz s1 c w j s
  | .regang s1 c m => Sys2Proof.Machine.execRegang s1 c m s
  | .exit s1 c => Sys2Proof.Machine.execExit s1 c s
  | .pause s1 c n => Sys2Proof.Machine.execPause s1 c n s
  | .dmsave s1 c k => Sys2Proof.Machine.execDmsave s1 c k s
  | .dmset s1 c k => Sys2Proof.Machine.execDmset s1 c k s
  | .dmand s1 c k => Sys2Proof.Machine.execDmand s1 c k s
  | .dmandn s1 c k => Sys2Proof.Machine.execDmandn s1 c k s
  | .pmsave s1 c k => Sys2Proof.Machine.execPmsave s1 c k s
  | .pmset s1 c k => Sys2Proof.Machine.execPmset s1 c k s
  | .pmand s1 c k => Sys2Proof.Machine.execPmand s1 c k s
  | .ldx o => Sys2Proof.Machine.execLdx o s
  | .stx o => Sys2Proof.Machine.execStx o s
  | .atom o => Sys2Proof.Machine.execAtom o s
  | .ldw o => Sys2Proof.Machine.execLdw o s
  | .pref o => Sys2Proof.Machine.execPref o s
  | .stflush o => Sys2Proof.Machine.execStflush o s
  | .stunmap o => Sys2Proof.Machine.execStunmap o s
  | .ferryG2s o => Sys2Proof.Machine.execFerryG2s o s
  | .ferryS2g o => Sys2Proof.Machine.execFerryS2g o s
  | .ferryG2g o => Sys2Proof.Machine.execFerryG2g o s
  | .ferryS2s o => Sys2Proof.Machine.execFerryS2s o s
  | .ferryEgh o => Sys2Proof.Machine.execFerryEgh o s
  | .ferryEgp o => Sys2Proof.Machine.execFerryEgp o s
  | .tagwaitAny s1 c w => Sys2Proof.Machine.execTagwaitAny s1 c w s
  | .tagwaitAll s1 c w => Sys2Proof.Machine.execTagwaitAll s1 c w s
  | .tagfind s1 c d w => Sys2Proof.Machine.execTagfind s1 c d w s
  | .tagclr s1 c w => Sys2Proof.Machine.execTagclr s1 c w s
  | .tagrd s1 c x d => Sys2Proof.Machine.execTagrd s1 c x d s
  | .stget s1 c d a => Sys2Proof.Machine.execStget s1 c d a s
  | .stset s1 c d a => Sys2Proof.Machine.execStset s1 c d a s
  | .stnow s1 c d => Sys2Proof.Machine.execStnow s1 c d s
  | .stage s1 c d a => Sys2Proof.Machine.execStage s1 c d a s
  | .stageless s1 c d => Sys2Proof.Machine.execStageless s1 c d s
  | .stold s1 c d a b => Sys2Proof.Machine.execStold s1 c d a b s
  | .mbwr s1 c m w => Sys2Proof.Machine.execMbwr s1 c m w s
  | .mbrd s1 c m d => Sys2Proof.Machine.execMbrd s1 c m d s
  | .mbpeek s1 c m d => Sys2Proof.Machine.execMbpeek s1 c m d s
  | .bar s1 c b => Sys2Proof.Machine.execBar s1 c b s
  | .bara s1 c b => Sys2Proof.Machine.execBara s1 c b s
  | .barw s1 c b => Sys2Proof.Machine.execBarw s1 c b s
  | .fill s1 c n => Sys2Proof.Machine.execFill s1 c n s
  | .drain s1 c n => Sys2Proof.Machine.execDrain s1 c n s
  | .qbar s1 c b => Sys2Proof.Machine.execQbar s1 c b s
  | .nbar s1 c l b => Sys2Proof.Machine.execNbar s1 c l b s
  | .bowait s1 c w => Sys2Proof.Machine.execBowait s1 c w s
  | .containOpen s1 c j => Sys2Proof.Machine.execContainOpen s1 c j s
  | .containClose s1 c => Sys2Proof.Machine.execContainClose s1 c s
  | .step s1 c n => Sys2Proof.Machine.execStep s1 c n s
  | .trap s1 c n => Sys2Proof.Machine.execTrap s1 c n s
  | .brk s1 c n => Sys2Proof.Machine.execBrk s1 c n s
  | .srd s1 c d r => Sys2Proof.Machine.execSrd s1 c d r s
  | .pushm s1 c a b => Sys2Proof.Machine.execPushm s1 c a b s
  | .popm s1 c a b => Sys2Proof.Machine.execPopm s1 c a b s
  | .fence s1 c kind scope => Sys2Proof.Machine.execFence s1 c kind scope s
  | .wmov s1 c d a l => Sys2Proof.Machine.execWmov s1 c d a l s
  | .vbcast s1 c d h w => Sys2Proof.Machine.execVbcast s1 c d h w s
  | .waddi s1 c d w i1 => Sys2Proof.Machine.execWaddi s1 c d w i1 s
  | .feedRegisterForm o => Sys2Proof.Machine.execFeedRegisterForm o s
  | .feedMemoryForm o => Sys2Proof.Machine.execFeedMemoryForm o s
  | .drainCubeRegisterForm o => Sys2Proof.Machine.execDrainCubeRegisterForm o s
  | .drainCubeMemoryForm o => Sys2Proof.Machine.execDrainCubeMemoryForm o s
  | .add o => Sys2Proof.Machine.execAdd o s
  | .sub o => Sys2Proof.Machine.execSub o s
  | .mul o => Sys2Proof.Machine.execMul o s
  | .mulhu o => Sys2Proof.Machine.execMulhu o s
  | .divu o => Sys2Proof.Machine.execDivu o s
  | .remu o => Sys2Proof.Machine.execRemu o s
  | .and o => Sys2Proof.Machine.execAnd o s
  | .or o => Sys2Proof.Machine.execOr o s
  | .xor o => Sys2Proof.Machine.execXor o s
  | .shl o => Sys2Proof.Machine.execShl o s
  | .shr o => Sys2Proof.Machine.execShr o s
  | .sar o => Sys2Proof.Machine.execSar o s
  | .slt o => Sys2Proof.Machine.execSlt o s
  | .sltu o => Sys2Proof.Machine.execSltu o s
  | .jr a => Sys2Proof.Machine.execJr a s
  | .addi o => Sys2Proof.Machine.execAddi o s
  | .andi o => Sys2Proof.Machine.execAndi o s
  | .ori o => Sys2Proof.Machine.execOri o s
  | .xori o => Sys2Proof.Machine.execXori o s
  | .shli d a i1 => Sys2Proof.Machine.execShli d a i1 s
  | .shri d a i1 => Sys2Proof.Machine.execShri d a i1 s
  | .sari d a i1 => Sys2Proof.Machine.execSari d a i1 s
  | .slti o => Sys2Proof.Machine.execSlti o s
  | .lui d i1 => Sys2Proof.Machine.execLui d i1 s
  | .ldkc o => Sys2Proof.Machine.execLdkc o s
  | .gld o => Sys2Proof.Machine.execGld o s
  | .gst o => Sys2Proof.Machine.execGst o s
  | .gatom o => Sys2Proof.Machine.execGatom o s
  | .gldi o => Sys2Proof.Machine.execGldi o s
  | .gsti o => Sys2Proof.Machine.execGsti o s
  | .gfence kind scope => Sys2Proof.Machine.execGfence kind scope s
  | .beq o => Sys2Proof.Machine.execBeq o s
  | .bne o => Sys2Proof.Machine.execBne o s
  | .blt o => Sys2Proof.Machine.execBlt o s
  | .bge o => Sys2Proof.Machine.execBge o s
  | .bltu o => Sys2Proof.Machine.execBltu o s
  | .bgeu o => Sys2Proof.Machine.execBgeu o s
  | .j j => Sys2Proof.Machine.execJ j s
  | .jal j => Sys2Proof.Machine.execJal j s
  | .emit o kind => Sys2Proof.Machine.execEmit o kind s
  | .emitb d i1 => Sys2Proof.Machine.execEmitb d i1 s
  | .emitp d a i1 => Sys2Proof.Machine.execEmitp d a i1 s
  | .reclaim a i1 => Sys2Proof.Machine.execReclaim a i1 s
  | .gstart a m => Sys2Proof.Machine.execGstart a m s
  | .gsteer a g sl => Sys2Proof.Machine.execGsteer a g sl s
  | .gjoin m => Sys2Proof.Machine.execGjoin m s
  | .gmbwr a m => Sys2Proof.Machine.execGmbwr a m s
  | .gmbrd d m => Sys2Proof.Machine.execGmbrd d m s
  | .gmbpeek d m => Sys2Proof.Machine.execGmbpeek d m s
  | .gwset a g w => Sys2Proof.Machine.execGwset a g w s
  | .glaunch a q => Sys2Proof.Machine.execGlaunch a q s
  | .glaunchPeer d a q => Sys2Proof.Machine.execGlaunchPeer d a q s
  | .gstget d a => Sys2Proof.Machine.execGstget d a s
  | .gstset d a => Sys2Proof.Machine.execGstset d a s
  | .gsrd d r => Sys2Proof.Machine.execGsrd d r s
  | .gtrap n => Sys2Proof.Machine.execGtrap n s
  | .gdbgRdg o => Sys2Proof.Machine.execGdbgRdg o s
  | .gdbgWrg o => Sys2Proof.Machine.execGdbgWrg o s
  | .gdbgRdv o => Sys2Proof.Machine.execGdbgRdv o s
  | .gdbgWrv o => Sys2Proof.Machine.execGdbgWrv o s
  | .gdbgRdw o => Sys2Proof.Machine.execGdbgRdw o s
  | .gdbgWrw o => Sys2Proof.Machine.execGdbgWrw o s
  | .gdbgRds o => Sys2Proof.Machine.execGdbgRds o s
  | .gdbgWrs o => Sys2Proof.Machine.execGdbgWrs o s
  | .gdbgRdx o => Sys2Proof.Machine.execGdbgRdx o s
  | .gdbgPushm o => Sys2Proof.Machine.execGdbgPushm o s
  | .gdbgPopm o => Sys2Proof.Machine.execGdbgPopm o s
  | .gdbgRdf o => Sys2Proof.Machine.execGdbgRdf o s
  | .gdbgDump o => Sys2Proof.Machine.execGdbgDump o s
  | .gpause n => Sys2Proof.Machine.execGpause n s
  | .cubeShape o => Sys2Proof.Machine.execCubeShape o s
  | .cubeMode a m => Sys2Proof.Machine.execCubeMode a m s
  | .cubeLdb o => Sys2Proof.Machine.execCubeLdb o s
  | .cubeScale o => Sys2Proof.Machine.execCubeScale o s
  | .cubeWin o => Sys2Proof.Machine.execCubeWin o s
  | .cubeMul o => Sys2Proof.Machine.execCubeMul o s
  | .cubeWait a => Sys2Proof.Machine.execCubeWait a s
  | .cubeStat d => Sys2Proof.Machine.execCubeStat d s
  | .illegalWord w => Sys2Proof.Machine.execIllegalWord w s
  | .variableLatencyResultReturn core slot gang id => Sys2Proof.Machine.execVariableLatencyResultReturn core slot gang id s
  | .handlerEntry core slot => Sys2Proof.Machine.execHandlerEntry core slot s
  | .preciseStop core slot gang => Sys2Proof.Machine.execPreciseStop core slot gang s
  | .breakpointMatch core slot gang group => Sys2Proof.Machine.execBreakpointMatch core slot gang group s
  | .pauseExpiry core slot gang => Sys2Proof.Machine.execPauseExpiry core slot gang s
  | .gpauseExpiry core slot => Sys2Proof.Machine.execGpauseExpiry core slot s
  | .memorySetRecompute core => Sys2Proof.Machine.execMemorySetRecompute core s
  | .barrierWatchdog core slot t => Sys2Proof.Machine.execBarrierWatchdog core slot t s
  | .progressWatchdog core slot t => Sys2Proof.Machine.execProgressWatchdog core slot t s
  | .ferryAdmission core slot gang group => Sys2Proof.Machine.execFerryAdmission core slot gang group s
  | .ferryCompletion core id => Sys2Proof.Machine.execFerryCompletion core id s
  | .ferryStall core id => Sys2Proof.Machine.execFerryStall core id s
  | .feedCompletion core id => Sys2Proof.Machine.execFeedCompletion core id s
  | .drainCompletion core id => Sys2Proof.Machine.execDrainCompletion core id s
  | .sequencerOperationStart cluster => Sys2Proof.Machine.execSequencerOperationStart cluster s
  | .cubeMulStep cluster => Sys2Proof.Machine.execCubeMulStep cluster s
  | .imageDrainCompletion cluster => Sys2Proof.Machine.execImageDrainCompletion cluster s
  | .cubeLoadCompletion cluster => Sys2Proof.Machine.execCubeLoadCompletion cluster s
  | .blockDispatch isle => Sys2Proof.Machine.execBlockDispatch isle s
  | .cubeNodeDispatch isle => Sys2Proof.Machine.execCubeNodeDispatch isle s
  | .blockEnd core slot => Sys2Proof.Machine.execBlockEnd core slot s
  | .gangEviction isle => Sys2Proof.Machine.execGangEviction isle s
  | .blockEviction isle => Sys2Proof.Machine.execBlockEviction isle s
  | .gangRestore core => Sys2Proof.Machine.execGangRestore core s
  | .blockRestore isle => Sys2Proof.Machine.execBlockRestore isle s
  | .cutComplete ctx => Sys2Proof.Machine.execCutComplete ctx s
  | .stagingWindowAppend ctx q v => Sys2Proof.Machine.execStagingWindowAppend ctx q v s
  | .launchFlit cape f => Sys2Proof.Machine.execLaunchFlit cape f s
  | .create ctx => Sys2Proof.Machine.execCreate ctx s
  | .stop ctx => Sys2Proof.Machine.execStop ctx s
  | .resume ctx => Sys2Proof.Machine.execResume ctx s
  | .terminate ctx => Sys2Proof.Machine.execTerminate ctx s
  | .release ctx => Sys2Proof.Machine.execRelease ctx s
  | .isleLost isle => Sys2Proof.Machine.execIsleLost isle s
  | .isleReset isle => Sys2Proof.Machine.execIsleReset isle s
  | .holdSet ctx => Sys2Proof.Machine.execHoldSet ctx s
  | .holdClear ctx => Sys2Proof.Machine.execHoldClear ctx s
  | .tideStep ctx => Sys2Proof.Machine.execTideStep ctx s
  | .shiftWrite ctx v => Sys2Proof.Machine.execShiftWrite ctx v s
  | .toffsetWrite ctx v => Sys2Proof.Machine.execToffsetWrite ctx v s
  | .fownsetGo v => Sys2Proof.Machine.execFownsetGo v s
  | .scrub p => Sys2Proof.Machine.execScrub p s
  | .shootdown v => Sys2Proof.Machine.execShootdown v s
  | .pageMigration ctx va => Sys2Proof.Machine.execPageMigration ctx va s
  | .directoryRequest isle pa k => Sys2Proof.Machine.execDirectoryRequest isle pa k s
  | .apertureWrite off bytes => Sys2Proof.Machine.execApertureWrite off bytes s
  | .apertureRead off n => Sys2Proof.Machine.execApertureRead off n s
  | .gatherPacket isle base offs evs => Sys2Proof.Machine.execGatherPacket isle base offs evs s
  | .baseDieInitialisation d => Sys2Proof.Machine.execBaseDieInitialisation d s
  | .functionReady bit => Sys2Proof.Machine.execFunctionReady bit s
  | .firmwareVerification u img => Sys2Proof.Machine.execFirmwareVerification u img s
  | .managementResetRequest t => Sys2Proof.Machine.execManagementResetRequest t s
  | .clockStep powerw tjmax => Sys2Proof.Machine.execClockStep powerw tjmax s
  | .corecfgWrite core v => Sys2Proof.Machine.execCorecfgWrite core v s
  | .ctxrootWrite ctx save v => Sys2Proof.Machine.execCtxrootWrite ctx save v s
  | .halt ctx v => Sys2Proof.Machine.execHalt ctx v s
  | .debugResume ctx v => Sys2Proof.Machine.execDebugResume ctx v s
  | .debugStep ctx v => Sys2Proof.Machine.execDebugStep ctx v s
  | .ghalt ctx v => Sys2Proof.Machine.execGhalt ctx v s
  | .gstep ctx v => Sys2Proof.Machine.execGstep ctx v s
  | .gresume ctx v => Sys2Proof.Machine.execGresume ctx v s
  | .readv ctx v => Sys2Proof.Machine.execReadv ctx v s
  | .writev ctx v => Sys2Proof.Machine.execWritev ctx v s
  | .dump ctx v => Sys2Proof.Machine.execDump ctx v s
  | .dataFlit cape f => Sys2Proof.Machine.execDataFlit cape f s
  | .ack cape seq refused => Sys2Proof.Machine.execAck cape seq refused s
  | .negativeAcknowledgement cape seq => Sys2Proof.Machine.execNegativeAcknowledgement cape seq s
  | .flitDrop cape => Sys2Proof.Machine.execFlitDrop cape s
  | .dropNotice cape f => Sys2Proof.Machine.execDropNotice cape f s
  | .tideFlit cape f => Sys2Proof.Machine.execTideFlit cape f s
  | .tideFlitSend cape => Sys2Proof.Machine.execTideFlitSend cape s
  | .capeTraining cape peer delay heard => Sys2Proof.Machine.execCapeTraining cape peer delay heard s
  | .barrierArrivalFlit cape f => Sys2Proof.Machine.execBarrierArrivalFlit cape f s
  | .barrierCompletionFlit cape f => Sys2Proof.Machine.execBarrierCompletionFlit cape f s
  | .registerWrite r v => Sys2Proof.Machine.execRegisterWrite r v s
  | .writeAcknowledgement who n cls => Sys2Proof.Machine.execWriteAcknowledgement who n cls s
  | .badCrcOrSequenceGap cape f => Sys2Proof.Machine.execBadCrcOrSequenceGap cape f s
  | .epad => Sys2Proof.Machine.execEpad s
  | .seal => Sys2Proof.Machine.execSeal s
  | .gend => Sys2Proof.Machine.execGend s
  | .greth => Sys2Proof.Machine.execGreth s
  | .cubeZero => Sys2Proof.Machine.execCubeZero s
  | .packetConsume => Sys2Proof.Machine.execPacketConsume s
  | .harbourEntry => Sys2Proof.Machine.execHarbourEntry s
  | .successorCompletion => Sys2Proof.Machine.execSuccessorCompletion s
  | .shootdownCompletion => Sys2Proof.Machine.execShootdownCompletion s
  | .powerUp => Sys2Proof.Machine.execPowerUp s
  | .attgo => Sys2Proof.Machine.execAttgo s

end Sys2Proof.Machine
end

