-- ==== Sys2Proof/Machine/Sched.lean ====
section
/-! DEFINITION. Which agent moves next: the choice of a generator's thread (R73), of a core's issue group (R125 to R127),
and the agenda that gives every unit of the package its turns (log 1). A step takes one turn. -/

namespace Sys2Proof.Machine

/-- A step of a unit: the meaning of its row. -/
def runJob (j : Job) (s : State) : Host.Outcome State Fault Refusal :=
  match j with
  | .variableLatencyResultReturn c b g id => execVariableLatencyResultReturn c b g id s
  | .handlerEntry c b => execHandlerEntry c b s
  | .preciseStop c b g => execPreciseStop c b g s
  | .breakpointMatch c b g m => execBreakpointMatch c b g m s
  | .pauseExpiry c b g => execPauseExpiry c b g s
  | .gpauseExpiry c b => execGpauseExpiry c b s
  | .memorySetRecompute c => execMemorySetRecompute c s
  | .barrierWatchdog c b t => execBarrierWatchdog c b t s
  | .progressWatchdog c b t => execProgressWatchdog c b t s
  | .ferryAdmission c b g m => execFerryAdmission c b g m s
  | .ferryCompletion c id => execFerryCompletion c id s
  | .ferryStall c id => execFerryStall c id s
  | .feedCompletion c id => execFeedCompletion c id s
  | .drainCompletion c id => execDrainCompletion c id s
  | .sequencerOperationStart cl => execSequencerOperationStart cl s
  | .cubeLoadCompletion cl => execCubeLoadCompletion cl s
  | .cubeMulStep cl => execCubeMulStep cl s
  | .imageDrainCompletion cl => execImageDrainCompletion cl s
  | .packetConsume => execPacketConsume s
  | .harbourEntry => execHarbourEntry s
  | .blockDispatch i => execBlockDispatch i s
  | .cubeNodeDispatch i => execCubeNodeDispatch i s
  | .blockEnd c b => execBlockEnd c b s
  | .successorCompletion => execSuccessorCompletion s
  | .gangEviction i => execGangEviction i s
  | .blockEviction i => execBlockEviction i s
  | .gangRestore c => execGangRestore c s
  | .blockRestore i => execBlockRestore i s
  | .cutComplete x => execCutComplete x s
  | .pageMigration x va => execPageMigration x va s
  | .shootdownCompletion => execShootdownCompletion s
  | .tideFlitSend c => execTideFlitSend c s
  | .writeAcknowledgement w n c => execWriteAcknowledgement w n c s

/-- What an act does. -/
def Act.go (a : Act) : Host.Outcome State Fault Refusal :=
  match a with
  | .run s i => exec i s
  | .job s j => runJob j s
  | .done s => .next s

/-! ### Generators (R73) -/

/-- R73: the thread waits, and issuing its word again would not end the wait. -/
def State.threadHeld (s : State) (core slot : Nat) (b : Block) : Bool :=
  match b.th.wait with
  | .none => false
  | .peer _ _ | .refire _ | .migrate _ => true
  | w =>
    match (s.genAct core slot b).go with
    | .next t =>
      (match t.block? core slot with
        | some c => c.th.wait == w
        | none => false)
    | _ => true

/-- R73: the thread is ready. -/
def State.threadReady (s : State) (core slot : Nat) (b : Block) : Bool :=
  !b.th.ended && !b.th.halted && !b.stopping && (b.faultReady.isSome || !s.threadHeld core slot b)

/-- R73: the thread whose turn it is: ready threads in round-robin order, paused ones only where no other is ready. -/
def State.genPick (s : State) (core : Nat) : Option (Nat × Block) :=
  let c := s.core core
  let order := (List.range 16).map fun i => (c.genrr + 1 + i) % 16
  let ready := order.filterMap fun slot =>
    match Tbl.get? c.blocks slot with
    | some b => if s.threadReady core slot b then some (slot, b) else none
    | none => none
  match ready.find? fun p => p.2.th.pause == 0 with
  | some p => some p
  | none => ready.head?

/-- R73: the turn of a core's generator. -/
def State.genTurn (s : State) (core : Nat) : Act :=
  match s.genPick core with
  | none => .done s
  | some (slot, b) =>
    let s := s.setCore core { s.core core with genrr := slot }
    if b.faultReady.isSome then .job s (.handlerEntry core slot) else s.genAct core slot b

/-! ### Issue groups (R125 to R127) -/

/-- The waits that end by issuing the word again. -/
def WWait.retried (w : WWait) : Bool :=
  match w with
  | .mbwr _ | .tagwait | .wheel | .fillDrain | .bowait _ | .fence | .release | .cubeBank | .feedRoom | .exit | .base
  | .stepCut => true
  | _ => false

/-- R125: the group waits no longer, since issuing its word again ends the wait. -/
def State.waitOver (s : State) (core slot gang : Nat) (b : Block) (x : Group) : Bool :=
  x.wait.retried &&
    (match (s.wideAct core slot gang b x).go with
      | .next t =>
        (match t.gang? core slot gang with
          | some g => g.st != .running || !(g.groups.any fun y => y.mask == x.mask && y.wait == x.wait)
          | none => true)
      | _ => true)

/-- R181, R225: what holds a word `w` of a group on the memory pipe back: an ATOM of the gang that is not performed yet (log 7),
and an acquire of the group: an acquire access every later word on the memory pipe,
a posted mailbox read every later access to memory (R124: the group issues on). -/
def Gang.acquiring (g : Gang) (m : BitVec 8) (w : Word) : Bool :=
  memPipe w && g.pend.any fun p => (!p.returned && p.atom.isSome) || !p.returned && p.acq.isSome && (p.slices &&& m != 0) && (p.isLoad || memSubclass w)

/-- R121: the pending results that a group holds. -/
def Gang.open' (g : Gang) (m : BitVec 8) : Nat := (g.pend.filter fun p => !p.returned && (p.slices &&& m != 0)).length

/-- R125, R121: the group is eligible but for the memory set. -/
def State.couldIssue (s : State) (core slot gang : Nat) (b : Block) (g : Gang) (x : Group) : Bool :=
  !x.parked && (x.wait == .none || s.waitOver core slot gang b x) &&
    !(g.req != .none && b.atSite x && !x.passed) &&
    (match b.fetchFor x with
      | .stall => false
      | .instr i => !g.acquiring x.mask (b.slotFor x).1.word && !(varLatency i && 64 ≤ g.open' x.mask)
      | _ => true)

/-- R126: the word is on the memory pipe and the gang is not in the memory set. -/
def Core.throttles (c : Core) (slot gang : Nat) (b : Block) (x : Group) : Bool :=
  memPipe (b.slotFor x).1.word &&
    (match c.memset with
      | some l => !l.contains (slot, gang)
      | none => false)

/-- R87: the gang has groups that may issue. -/
def Gang.active (g : Gang) : Bool :=
  g.st == .running && !g.evicted && g.late.isNone && g.refireOn.isNone && g.heldOn.isNone

/-- A gang with its place and its eligible groups. -/
structure Cand where
  slot : Nat
  gang : Nat
  b : Block
  g : Gang
  groups : List Group

/-- R127: the oldest first. -/
def Cand.before (a b : Cand) : Bool :=
  if a.g.started ≠ b.g.started then a.g.started < b.g.started
  else if a.slot ≠ b.slot then a.slot < b.slot
  else a.gang < b.gang

/-- R127: the gang of a band that is chosen. -/
def chooseGang (l : List Cand) : Option Cand :=
  let old := sortBy Cand.before l
  let urgent := old.filter fun a => 32 ≤ a.g.waitc
  match sortBy (fun (a b : Cand) => b.g.waitc < a.g.waitc) urgent with
  | a :: _ => some a
  | [] => old.head?

/-- The first slice of a group. -/
def Group.first (x : Group) : Nat := ((List.range 8).find? fun j => x.mask.getLsbD j).getD 8

/-- R127: the group of a gang that is chosen: least recently issued, then lowest. -/
def Cand.group (a : Cand) : Option Group :=
  (sortBy (fun (x y : Group) => if x.last ≠ y.last then x.last < y.last else x.first < y.first) a.groups).head?

/-- R126, R127: throttled gangs marked, wait counts moved on. `sel` is the gang that issues. -/
def Core.counts (c : Core) (thr : List (Nat × Nat)) (elig : List (Nat × Nat)) (sel : Option (Nat × Nat)) : Core :=
  { c with blocks := c.blocks.map fun e =>
      (e.1, { e.2 with gangs := e.2.gangs.zipIdx.map fun p =>
        { p.1 with
          throttled := p.1.throttled || thr.contains (e.1, p.2)
          waitc := if elig.contains (e.1, p.2) && sel != some (e.1, p.2) then p.1.waitc + 1 else 0 } }) }

/-- A stop requested of a gang that can take effect now (R81, R134). -/
def Core.stopDue (c : Core) : Option (Nat × Nat) :=
  c.blocks.findSome? fun e =>
    (e.2.gangs.zipIdx.find? fun p => p.1.req != .none && (p.1.stopLeft || (e.2.stopAt p.1).isSome)).map fun p => (e.1, p.2)

/-- The active gangs of a core, each with its eligible groups and its throttled ones (R125, R126). -/
def State.contenders (s : State) (core : Nat) : List (Cand × List Group) :=
  let c := s.core core
  c.blocks.flatMap fun e => e.2.gangs.zipIdx.filterMap fun p =>
    if p.1.active then
      let l := p.1.groups.filter (s.couldIssue core e.1 p.2 e.2 p.1)
      some (⟨e.1, p.2, e.2, p.1, l.filter fun x => !c.throttles e.1 p.2 e.2 x⟩, l.filter (c.throttles e.1 p.2 e.2))
    else none

/-- The gangs that may issue. -/
def State.cands (s : State) (core : Nat) : List Cand := ((s.contenders core).map (·.1)).filter fun a => !a.groups.isEmpty

/-- R127: the gang that issues: of the high band where it has one. -/
def State.pick (s : State) (core : Nat) : Option Cand :=
  let high := (s.cands core).filter fun a => a.g.pause == 0
  chooseGang (if high.isEmpty then s.cands core else high)

/-- The core after its turn of issue: wait counts and throttled gangs (R126, R127). -/
def State.pickCore (s : State) (core : Nat) : Core :=
  let thr := ((s.contenders core).filter fun x => !x.2.isEmpty).map fun x => (x.1.slot, x.1.gang)
  (s.core core).counts thr ((s.cands core).map fun a => (a.slot, a.gang)) ((s.pick core).map fun a => (a.slot, a.gang))

/-- The turn of a core's issue (R125 to R127), and before it of a stop or a breakpoint (R81, R347). -/
def State.wideTurn (s : State) (core : Nat) : Act :=
  match (s.core core).stopDue with
  | some (slot, gang) => .job (s.laneIdle core) (.preciseStop core slot gang)
  | none =>
    let t := s.setCore core (s.pickCore core)
    match s.pick core with
    | none => .done (t.laneIdle core)
    | some a =>
      match a.group with
      | none => .done t
      | some x =>
        if (t.bpsAt a.b x).isEmpty then t.wideAct core a.slot a.gang a.b x
        else .job (t.laneIdle core) (.breakpointMatch core a.slot a.gang x.mask)

/-- R31: a chained run in hand goes on before anything else. -/
def State.inRun (s : State) : Option (Nat × Nat × Nat × Block × Group) :=
  match s.cur with
  | .wide core slot gang m =>
    match s.block? core slot, s.gang? core slot gang with
    | some b, some g =>
      match g.groups.find? (·.mask == m) with
      | some x =>
        if x.run.isSome && g.active && s.couldIssue core slot gang b g x then some (core, slot, gang, b, x) else none
      | none => none
    | _, _ => none
  | _ => none

/-! ### Time (log 2) and what the environment does (log 27) -/

/-- A core after one more cycle (R72, R104, R126, R128, R352). -/
def State.coreCycle (s : State) (core : Nat) (c : Core) : Core :=
  let n := c.cycle + 1
  { c with
    cycle := n
    due := c.due || n.toNat % 1024 == 0
    blocks := c.blocks.map fun e =>
      let b := s.tickTimers core e.1 e.2
      let gangs := b.gangs.map fun g =>
        { g with
          vtime := if g.evicted then g.vtime else g.vtime + 1
          pause := if !g.evicted && 1 < g.pause.toNat then g.pause - 1 else g.pause }
      (e.1, { b with
        vtime := b.vtime + 1
        th := { b.th with pause := if 1 < b.th.pause.toNat then b.th.pause - 1 else b.th.pause }
        gangs := gangs }) }

/-- One cycle of every core. -/
def State.cycle (s : State) : State :=
  { s with
    clock := s.clock + 1
    cycles := s.cycles + 1
    walks := []
    cores := s.cores.map fun e => (e.1, s.coreCycle e.1 e.2) }

/-- One tick of the tide (R245), and the sweep that every 2^20th brings (R27). -/
def State.tick (s : State) : State :=
  if s.ready.getLsbD 3 then
    let t := { s with tide := s.tide + 1 }
    if t.tide.toNat % 2 ^ 20 = 0 then t.sweep t.tide else t
  else s

/-- R339: a mismatch in a generator, in a wide word of a group, or in the cube. -/
def State.mismatch (s : State) (core slot : Nat) (gang : Option (Nat × BitVec 8)) (unit : Nat) : State :=
  let count (s : State) : State := s.count (coreCtr core (if isControl core then 1 else 4)) 1
  match gang with
  | some (i, m) =>
    let s := { s with cur := .wide core slot i m }
    (match s.env? with
      | some e =>
        if e.g.active && e.grp.wait == .none && !e.grp.parked then
          count (e.finish ⟨false, false, .mem, 1, false, []⟩ none (.late e.s (.pipeline unit)))
        else s
      | none => s)
  | none =>
    if unit = 4 then
      let cl := clusterOf core
      match (s.cube cl).exec with
      | some x =>
        (match x.op with
          | .mul _ _ _ _ _ _ =>
            count (s.onCube cl fun c =>
              let b := c.bank c.act
              (c.setBank c.act { b with st := .active, poison := true }).defer 0x80 4 0 0x3D x.step)
          | _ => s)
      | none => s
    else
      match s.block? core slot with
      | some b => if b.th.wait == .none && !b.th.halted && !b.th.ended then count (s.gTrap core slot 0x80 unit 0) else s
      | none => s

/-- R221: an SRAM error of an isle cache or of the lagoon. -/
def State.sram (s : State) (isle : Option Nat) (sector : Nat) (dirty corrected : Bool) : State :=
  let k := if corrected then 0 else 1
  let s := s.count (match isle with
    | some i => isleCtr i k
    | none => lagoonCtr k) 1
  if dirty && !corrected && backed (32 * sector) 32 then s.poisonSec sector else s

/-! ### The agenda -/

/-- The turns of a core in a round, after its words: results, stops, pauses, watchdogs, engines, ends. -/
def State.coreJobs (s : State) (core : Nat) (c : Core) : List Job :=
  (c.blocks.flatMap fun e =>
    let b := e.2
    (b.gangs.zipIdx.flatMap fun p =>
      ((p.1.pend.filter fun q => !q.returned).map fun q => Job.variableLatencyResultReturn core e.1 p.2 q.id) ++
        (if p.1.late.isSome then [.variableLatencyResultReturn core e.1 p.2 p.1.pid] else []) ++
        (if p.1.pause = 1 then [.pauseExpiry core e.1 p.2] else []) ++
        (if p.1.outst.isEmpty then [] else [.writeAcknowledgement (.gang core e.1 p.2) 0 .system]) ++
        (match p.1.heldOn with
          | some va => [.pageMigration b.ctx va]
          | none => [])) ++
      (if b.th.pause = 1 then [.gpauseExpiry core e.1] else []) ++
      (if b.th.outst.isEmpty then [] else [.writeAcknowledgement (.thread core e.1) 0 .system]) ++
      (match b.th.wait with
        | .migrate va => [.pageMigration b.ctx va]
        | _ => []) ++
      ((b.timers.filter fun t => (s.ctx b.ctx).wdLimit t.1 ≤ t.2.1).map fun t =>
        if t.1.progress then Job.progressWatchdog core e.1 t.1 else .barrierWatchdog core e.1 t.1) ++
      (if b.th.ended then [.blockEnd core e.1] else [])) ++
    (if c.due then [.memorySetRecompute core] else []) ++
    (c.ferryWait.map fun f => .ferryAdmission core f.1 f.2.1 f.2.2.1) ++
    ((c.ferry.filter fun f => 2 ^ 24 ≤ c.cycle.toNat - f.born).map fun f => .ferryStall core f.id) ++
    ((c.ferry.take 8).map fun f => .ferryCompletion core f.id) ++
    (c.eng.map fun e => match e with
      | .feed id _ _ _ _ _ _ _ _ _ _ _ _ _ _ => .feedCompletion core id
      | .drain id _ _ _ _ _ => .drainCompletion core id) ++
    (if c.blocks.any fun e => e.2.gangs.any (·.evicted) then [.gangRestore core] else [])

/-- The turns of a cube in a round. -/
def cubeJobs (e : Nat × Cube) : List Job :=
  (if e.2.queue.isEmpty then [] else [.sequencerOperationStart e.1]) ++
    (if e.2.exec.isSome then [.cubeLoadCompletion e.1, .cubeMulStep e.1] else []) ++
    (if e.2.image.isEmpty then [] else [.imageDrainCompletion e.1])

/-- The turns of the graph engine, of the memory engine and of the capes in a round. -/
def State.unitJobs (s : State) : List Job :=
  (if s.ready.getLsbD 4 then
      [Job.packetConsume, .harbourEntry, .successorCompletion] ++
        ((List.range 8).filter fun i => s.ready.getLsbD (28 + i)).flatMap fun i =>
          [Job.blockDispatch i, .cubeNodeDispatch i, .blockRestore i, .gangEviction i, .blockEviction i]
    else []) ++
    ((s.ctxs.filter fun x => x.2.st == .stopping).map fun x => .cutComplete x.1) ++
    (s.moves.map fun m => .pageMigration m.1 m.2) ++
    (if s.shooting.isSome then [.shootdownCompletion] else []) ++
    (((List.range 4).filter fun c => s.ready.getLsbD (36 + c)).map fun c => .tideFlitSend c)

/-- One round: a turn for every unit, then a cycle and a tick (log 1). -/
def State.agenda (s : State) : List Turn :=
  (s.cores.flatMap fun e =>
    (if e.2.blocks.isEmpty && !e.2.lccfg.getLsbD 63 then [] else [Turn.gen e.1, .wide e.1]) ++ (s.coreJobs e.1 e.2).map .job) ++
    (s.cubes.flatMap cubeJobs).map .job ++ s.unitJobs.map .job ++
    (if s.attReport.isSome then [.report] else []) ++ [.cycle, .tick]

/-- What one turn does. -/
def State.turn (s : State) (t : Turn) : Act :=
  match t with
  | .gen core => s.genTurn core
  | .wide core => s.wideTurn core
  | .event i => .run s i
  | .job j => .job s j
  | .cycle => .done s.cycle
  | .tick => .done s.tick
  | .report => .done s.reportOut
  | .l1Drop core line => .done (s.l1Drop core line)
  | .mismatch core slot gang unit => .done (s.mismatch core slot gang unit)
  | .regCorr core => .done (s.count (coreCtr core (if isControl core then 0 else 3)) 1)
  | .sram isle sector dirty corrected => .done (s.sram isle sector dirty corrected)

/-- The turn is an acknowledgement of a write. -/
def Turn.isAck (t : Turn) : Bool :=
  match t with
  | .job (.writeAcknowledgement _ _ _) => true
  | _ => false

/-- A new round. Acknowledgements are slower than words: a free choice puts them off, for at most 16 cycles (R233, log 1). -/
def State.refill (s : State) : State :=
  let (s, late) := s.choose false [true]
  { s with turns := if late && s.cycles.toNat % 16 != 0 then s.agenda.filter (!·.isAck) else s.agenda }

/-- The next act: an open chained run goes on; else the first turn of the agenda is taken; an empty agenda is filled. -/
def State.sched (s : State) : Act :=
  match s.inRun with
  | some (core, slot, gang, b, x) =>
    if (s.bpsAt b x).isEmpty then s.wideAct core slot gang b x else .job s (.breakpointMatch core slot gang x.mask)
  | none =>
    match s.turns with
    | [] => .done s.refill
    | t :: r => { s with turns := r }.turn t

end Sys2Proof.Machine
end

