-- ==== Sys2Proof/Machine/Step.lean ====
section
/-! DEFINITION. The step of the package: one turn of the agenda; and the placing of one instruction where the next step
fetches it (logs 1, 3 and 4). -/

namespace Sys2Proof.Machine

/-- One step: the instruction of the agent whose turn it is, a step of a unit, or a change of state. -/
def step (s : State) : Host.Outcome State Fault Refusal :=
  match s.sched with
  | .run t i => exec i t
  | .job t j => runJob j t
  | .done t => .next t

/-! ### Placing an instruction (log 3) -/

/-- Where bits are placed: in the flume of a gang, or in the image of a thread of a SIMT core or of a control core. -/
inductive Where where
  | flume
  | image (control : Bool)
  deriving DecidableEq, Repr

/-- The place of an instruction of bits `v`, as decodeTableWord reads them. -/
def whereOf (v : Nat) : Where :=
  let gen : Option Where := match decodeGen false (BitVec.ofNat 32 v) with
    | .ok _ => some (.image false)
    | .error .wrongProcessor =>
      (match decodeGen true (BitVec.ofNat 32 v) with
        | .ok _ => some (.image true)
        | .error _ => none)
    | .error _ => none
  if wideFirst (BitVec.ofNat 32 v) && (wideReading v).isSome then .flume else gen.getD .flume

/-- The placed block: one gang of 8 slices and 120 registers, a flume of 48 words, 4 KiB of scratchpad. -/
def placedBlock (control : Bool) : Block :=
  { control := control, ctx := 0, node := 0, lin := 0, bx := 0, by' := 0, bz := 0, gx := 1, gy := 1, gz := 1, prio := 0
    feeding := false, cor := false
    shape := ⟨if control then 0 else 1, 8, 120, if control then 0 else 48, if control then 0 else 4096, 0,
      if control then 0 else 1024⟩
    fbase := 0, sbase := 0, kbank := 0, lstamp := none, image := 0x200000, trap := 0x100, born := 0
    th := Thread.fresh 0x200000, e := 0, s := 0, f := 0, flume := [], mbs := Vector.replicate 16 Mailbox.empty
    bars := Vector.replicate 16 ⟨0, false⟩, wheels := Vector.replicate 4 (Wheel.start WheelDesc.none), tags := 0
    tagerr := 0, tagpend := 0, fstat := Vector.replicate 64 0, sp := .empty, spOld := [], spLate := [], stash := [], maps := [], sc := 0, vtime := 0
    gangs := if control then [] else [Gang.fresh 0], timers := [], stopping := false, held := [] }

/-- R207: two tables that map the first 4 GiB to themselves: a level 4 table at 1 MiB, a level 3 table at 1152 KiB. -/
def placedTables (m : Store) : Store :=
  (m.setBytes 0x100000 (leBytes (2 ^ 63 + 0x120000) 8)).setBytes 0x120000 (leBytes (2 ^ 63 + 2 ^ 62 + 2 ^ 59) 8)

/-- `s` ready to run a block of context 0 on a core: the bits of READY that a resident block presupposes, the context
live with the tables above as its root, and the block in slot 0. -/
def State.withBlock (s : State) (core : Nat) (b : Block) : State :=
  { s with
    ready := s.ready ||| 0xFFFFFF001000001F
    mem := placedTables s.mem
    hist := []
    ctxs := Tbl.set s.ctxs 0 { s.ctx 0 with st := .live, root := 0x40 }
    cores := Tbl.set s.cores core { s.core core with blocks := [(0, b)] }
    cur := .none }

/-- `s` with the instruction of bits `w` where the next step fetches it: in the flume of a gang that has been started at
ordinal 0, or at a thread's PC. -/
def State.withFetchWord (s : State) (nbits w : Nat) : State :=
  let v := w % 2 ^ nbits
  match whereOf v with
  | .flume =>
    let x := BitVec.ofNat 32 v
    let two := needsTrail x
    let n : Word := if two then 2 else 1
    let flume : Tbl Slot := (0, { Slot.zero with word := x }) ::
      (if two then [(1, { Slot.zero with word := BitVec.ofNat 32 (v / 2 ^ 32), kind := 1 })] else [])
    let b := placedBlock false
    let t := s.withBlock 0 { b with
      e := n, s := n, flume := flume
      gangs := [(Gang.fresh 0).start 0xFF 0 0] }
    { t with turns := [.wide 0] }
  | .image control =>
    let core := if control then 4 else 0
    let t := s.withBlock core (placedBlock control)
    { t with
      mem := t.mem.setBytes 0x200000 (leBytes (v % 2 ^ 32) 4)
      turns := [.gen core] }

end Sys2Proof.Machine
end

