-- ==== Sys2Proof/Safety.lean ====
section
/-! DEFINITION. The terms in which claims about the machine are stated: when a word is accepted where it stands, what
completing it is, and what counts as a well-kept state. -/

namespace Sys2Proof.Machine

/-- R45, R177 and R31: every register field of the word is legal in its gang, and its run still has its pipe. -/
def Env.accepts (e : Env) (h : How) : Prop :=
  (h.fields.all fun f => f.ok e.b.shape.n) = true ∧ (Run.add (e.grp.run.getD Run.start) h.pipe).isSome = true

/-- The run with the word in hand. -/
def Env.nextRun (e : Env) (h : How) : Option Run := Run.add (e.grp.run.getD Run.start) h.pipe

/-- What the machine is after a word that was accepted has had the result `r`. -/
def Env.completes (e : Env) (h : How) (r : Res) : State := e.finish h (e.nextRun h) r

/-- What a generator word of the thread sees. -/
def State.genEnv (s : State) (core slot : Nat) (b : Block) : GEnv := ⟨s, core, slot, b, s.now b.ctx⟩

/-- A generator word has completed: `s` with the thread `th` in its place; a thread that GSTEP runs posts its event
(R349). -/
def State.genDone (s : State) (core slot : Nat) (b : Block) (th : Thread) : State :=
  let t := s.onThread core slot fun _ => th
  if b.th.stepOne then t.threadEvent core slot else t

/-- A banked result (R32, R116, R119, R120): `g` is the gang after its lanes of register `d` that are active have taken
`x`, and slice `j` the stamp `st j`, as every word reads them; nothing else of the gang is changed. -/
structure Env.Banked (e : Env) (g : Gang) (d : Nat) (x : Nat → Word) (st : Nat → Stamp) : Prop where
  frame : g = { e.g with v := g.v, window := g.window, pend := g.pend }
  others : ∀ r, r ≠ d → ∀ m, g.readV m r = e.g.readV m r
  discarded : d = 126 → g = e.g
  lanes : d ≠ 126 → ∀ m i, i < 32 →
    lane (g.readV m d).lanes i = if e.act.getLsbD i then x i else lane (e.g.readV m d).lanes i
  whole : d ≠ 126 → ∀ m j, j < 8 → nib e.act j = 15 → stampAt (g.readV m d).stamps j = st j
  kept : d ≠ 126 → ∀ m j, j < 8 → nib e.act j = 0 →
    stampAt (g.readV m d).stamps j = stampAt (e.g.readV m d).stamps j
  part : d ≠ 126 → ∀ j, j < 8 → nib e.act j ≠ 0 → nib e.act j ≠ 15 →
    stampAt (g.bank d).stamps j = Machine.older e.now (stampAt (e.g.bank d).stamps j) (st j)

/-- A transient result (R32, R116, R119): the window entry of the word holds it, and the registers keep theirs. -/
structure Env.Forwarded (e : Env) (o : Option Transient) (d : Nat) (x : Nat → Word) (st : Nat → Stamp) : Prop where
  discarded : d = 126 → o = none
  entry : d ≠ 126 → ∃ t, o = some t ∧ t.reg = d ∧ t.mask = e.act ∧
    (∀ i, i < 32 → e.act.getLsbD i = true → lane t.lanes i = x i) ∧
    (∀ j, j < 8 → nib e.act j = 15 → stampAt t.stamps j = st j) ∧
    (∀ j, j < 8 → nib e.act j ≠ 0 → nib e.act j ≠ 15 →
      stampAt t.stamps j = Machine.older e.now (stampAt (e.g.readV e.m d).stamps j) (st j))

/-- `out` is the completion of the word in hand with a fixed-latency vector result: in the registers, or transient where
`tr` is set. `s` is the state in which the operands have been read. -/
def Env.writes (e : Env) (s : State) (h : How) (d : Nat) (tr : Bool) (x : Nat → Word) (st : Nat → Stamp)
    (out : Host.Outcome State Fault Refusal) : Prop :=
  (tr = false → ∃ g, e.Banked g d x st ∧
    out = .next (e.completes h (.done (s.onGang e.core e.slot e.gang fun _ => g) none))) ∧
    (tr = true → ∃ o, e.Forwarded o d x st ∧ out = .next (e.completes h (.done s o)))

/-- The memories keep their canonical form. -/
def State.memOk (s : State) : Prop := s.mem.wf = true

/-- The ways a step may end that are no stop of the machine. -/
def safe (r : Host.Outcome State Fault Refusal) : Prop := ∃ t, r = .next t

end Sys2Proof.Machine
end

