-- ==== Sys2Proof/Certificates/Slice0/Obligations.lean ====
section
/-! DEFINITION. The statements for the provers. Each docstring cites the rules of spec/ that its statement formalises. -/

namespace Sys2Proof.Claims

open Sys2Proof.Machine

/-! ### Wide arithmetic: the tables of R142, R143, R146 -/

/-- The two-source rows of R142 in the register format. -/
inductive IntTwo : Instr → RegOp → (Word → Word → Word) → Prop
  | iadd (o : RegOp) : IntTwo (.iadd o) o fun a b => a + b
  | isub (o : RegOp) : IntTwo (.isub o) o fun a b => a - b
  | imul (o : RegOp) : IntTwo (.imul o) o fun a b => BitVec.ofNat 32 (a.toNat * b.toNat)
  | imulh (o : RegOp) : IntTwo (.imulh o) o fun a b => BitVec.ofInt 32 (a.toInt * b.toInt / 2 ^ 32)
  | imin (o : RegOp) : IntTwo (.imin o) o fun a b => if a.toInt ≤ b.toInt then a else b
  | imax (o : RegOp) : IntTwo (.imax o) o fun a b => if b.toInt ≤ a.toInt then a else b
  | umin (o : RegOp) : IntTwo (.umin o) o fun a b => if a.toNat ≤ b.toNat then a else b
  | umax (o : RegOp) : IntTwo (.umax o) o fun a b => if b.toNat ≤ a.toNat then a else b
  | iand (o : RegOp) : IntTwo (.iand o) o fun a b => a &&& b
  | ior (o : RegOp) : IntTwo (.ior o) o fun a b => a ||| b
  | ixor (o : RegOp) : IntTwo (.ixor o) o fun a b => a ^^^ b
  | ishl (o : RegOp) : IntTwo (.ishl o) o fun a b => BitVec.ofNat 32 (a.toNat * 2 ^ (b.toNat % 32))
  | ishr (o : RegOp) : IntTwo (.ishr o) o fun a b => BitVec.ofNat 32 (a.toNat / 2 ^ (b.toNat % 32))
  | isar (o : RegOp) : IntTwo (.isar o) o fun a b => BitVec.ofInt 32 (a.toInt / 2 ^ (b.toNat % 32))

/-- The immediate rows of R142: imm9 sign-extended, and for shifts unsigned. -/
inductive IntImm : Instr → ImmOp → (Word → Word) → Prop
  | iadd (o : ImmOp) : IntImm (.iaddImm o) o fun a => a + BitVec.ofInt 32 o.i.toInt
  | imul (o : ImmOp) : IntImm (.imulImm o) o fun a => a * BitVec.ofInt 32 o.i.toInt
  | iand (o : ImmOp) : IntImm (.iandImm o) o fun a => a &&& BitVec.ofInt 32 o.i.toInt
  | ior (o : ImmOp) : IntImm (.iorImm o) o fun a => a ||| BitVec.ofInt 32 o.i.toInt
  | ixor (o : ImmOp) : IntImm (.ixorImm o) o fun a => a ^^^ BitVec.ofInt 32 o.i.toInt
  | imin (o : ImmOp) : IntImm (.iminImm o) o fun a => if a.toInt ≤ o.i.toInt then a else BitVec.ofInt 32 o.i.toInt
  | imax (o : ImmOp) : IntImm (.imaxImm o) o fun a => if o.i.toInt ≤ a.toInt then a else BitVec.ofInt 32 o.i.toInt
  | ishl (o : ImmOp) (h : o.i.toNat < 32) : IntImm (.ishlImm o) o fun a => BitVec.ofNat 32 (a.toNat * 2 ^ o.i.toNat)
  | ishr (o : ImmOp) (h : o.i.toNat < 32) : IntImm (.ishrImm o) o fun a => BitVec.ofNat 32 (a.toNat / 2 ^ o.i.toNat)
  | isar (o : ImmOp) (h : o.i.toNat < 32) : IntImm (.isarImm o) o fun a => BitVec.ofInt 32 (a.toInt / 2 ^ o.i.toNat)

/-- The two-source rows of R143 in the register format, over the one-rounding operations of R137. -/
inductive FloatTwo : Instr → RegOp → (Nat → Nat → Nat) → Prop
  | fadd (o : RegOp) : FloatTwo (.fadd o) o fun a b => fp32.round false ((fp32.val a).add (fp32.val b))
  | fsub (o : RegOp) : FloatTwo (.fsub o) o fun a b => fp32.round false ((fp32.val a).add (fp32.val b).negate)
  | fmul (o : RegOp) : FloatTwo (.fmul o) o fun a b => fp32.round false ((fp32.val a).mul (fp32.val b))
  | fmin (o : RegOp) : FloatTwo (.fmin o) o fp32.fmin
  | fmax (o : RegOp) : FloatTwo (.fmax o) o fp32.fmax

/-- The rows of R143 that read vd. -/
inductive FloatThree : Instr → RegOp → (Nat → Nat → Nat → Nat) → Prop
  | ffma (o : RegOp) : FloatThree (.ffma o) o fun d a b =>
      fp32.round false ((fp32.val d).add ((fp32.val a).mul (fp32.val b)))
  | fnma (o : RegOp) : FloatThree (.fnma o) o fun d a b =>
      fp32.round false ((fp32.val d).add ((fp32.val a).mul (fp32.val b)).negate)

/-- The two-source rows of R146: the format and the operation on one half. -/
inductive PackedTwo : Instr → RegOp → Fmt → (Nat → Nat → Nat) → Prop
  | hadd (o : RegOp) : PackedTwo (.hadd o) o fp16 fun a b => fp16.round false ((fp16.val a).add (fp16.val b))
  | hmul (o : RegOp) : PackedTwo (.hmul o) o fp16 fun a b => fp16.round false ((fp16.val a).mul (fp16.val b))
  | hmax (o : RegOp) : PackedTwo (.hmax o) o fp16 fp16.fmax
  | badd (o : RegOp) : PackedTwo (.badd o) o bf16 fun a b => bf16.round false ((bf16.val a).add (bf16.val b))
  | bmul (o : RegOp) : PackedTwo (.bmul o) o bf16 fun a b => bf16.round false ((bf16.val a).mul (bf16.val b))
  | bmax (o : RegOp) : PackedTwo (.bmax o) o bf16 bf16.fmax

/-- The rows of R146 that read vd. -/
inductive PackedThree : Instr → RegOp → (Nat → Nat → Nat → Nat) → Prop
  | hfma (o : RegOp) : PackedThree (.hfma o) o fun d a b =>
      fp16.round false ((fp16.val d).add ((fp16.val a).mul (fp16.val b)))
  | bfma (o : RegOp) : PackedThree (.bfma o) o fun d a b =>
      bf16.round false ((bf16.val d).add ((bf16.val a).mul (bf16.val b)))

/-- Half `h` of a lane (R136). -/
def half (x : Word) (h : Nat) : Nat := x.toNat / 65536 ^ h % 65536

/-- The constant-bank rows of R142 and R143 of two sources. -/
inductive KcTwo : Instr → ImmOp → (Word → Word → Word) → Prop
  | iadd (o : ImmOp) : KcTwo (.iaddKc o) o fun a b => a + b
  | imul (o : ImmOp) : KcTwo (.imulKc o) o fun a b => a * b
  | fadd (o : ImmOp) : KcTwo (.faddKc o) o fun a b =>
      BitVec.ofNat 32 (fp32.round false ((fp32.val a.toNat).add (fp32.val b.toNat)))
  | fsub (o : ImmOp) : KcTwo (.fsubKc o) o fun a b =>
      BitVec.ofNat 32 (fp32.round false ((fp32.val a.toNat).add (fp32.val b.toNat).negate))
  | fmul (o : ImmOp) : KcTwo (.fmulKc o) o fun a b =>
      BitVec.ofNat 32 (fp32.round false ((fp32.val a.toNat).mul (fp32.val b.toNat)))
  | fmin (o : ImmOp) : KcTwo (.fminKc o) o fun a b => BitVec.ofNat 32 (fp32.fmin a.toNat b.toNat)
  | fmax (o : ImmOp) : KcTwo (.fmaxKc o) o fun a b => BitVec.ofNat 32 (fp32.fmax a.toNat b.toNat)

/-- The adopt rows of R140 with the value of their base instruction. -/
inductive Adopt : Instr → AdoptOp → (Word → Word → Word → Word) → Prop
  | fadd (o : AdoptOp) : Adopt (.faddAdopt o) o fun _ a b => BitVec.ofNat 32 (fp32.fadd a.toNat b.toNat)
  | fsub (o : AdoptOp) : Adopt (.fsubAdopt o) o fun _ a b => BitVec.ofNat 32 (fp32.fsub a.toNat b.toNat)
  | fmul (o : AdoptOp) : Adopt (.fmulAdopt o) o fun _ a b => BitVec.ofNat 32 (fp32.fmul a.toNat b.toNat)
  | ffma (o : AdoptOp) : Adopt (.ffmaAdopt o) o fun d a b => BitVec.ofNat 32 (fp32.ffma d.toNat a.toNat b.toNat)
  | fnma (o : AdoptOp) : Adopt (.fnmaAdopt o) o fun d a b => BitVec.ofNat 32 (fp32.fnma d.toNat a.toNat b.toNat)
  | iadd (o : AdoptOp) : Adopt (.iaddAdopt o) o fun _ a b => a + b
  | hfma (o : AdoptOp) : Adopt (.hfmaAdopt o) o fun d a b =>
      BitVec.ofNat 32 (fp16.ffma (half d 0) (half a 0) (half b 0) + 65536 * fp16.ffma (half d 1) (half a 1) (half b 1))
  | bfma (o : AdoptOp) : Adopt (.bfmaAdopt o) o fun d a b =>
      BitVec.ofNat 32 (bf16.ffma (half d 0) (half a 0) (half b 0) + 65536 * bf16.ffma (half d 1) (half a 1) (half b 1))

/-- How a register-format word with a b operand issues: on an FMA pipe, its three register fields legal. -/
def regHow (o : RegOp) : How := ⟨o.s, o.c, .fma, if o.b = 127 then 2 else 1, false, [.v o.d, .v o.a, .b o.b]⟩

/-- How an immediate-format word issues. -/
def immHow (o : ImmOp) : How := ⟨o.s, o.c, .fma, 1, false, [.v o.d, .v o.a]⟩

/-- Lane `i` of a source, and the stamp of its slice `j`. -/
def src (e : Env) (r : BitVec 7) (i : Nat) : Word := lane (e.reg r.toNat).lanes i
def srcSt (e : Env) (r : BitVec 7) (j : Nat) : Stamp := stampAt (e.reg r.toNat).stamps j

/-- Lane `i` of the b operand: the literal where the field is 127, else a register; and its stamp (R138). -/
def bsrc (e : Env) (o : RegOp) (i : Nat) : Word := if o.b = 127 then o.lit else src e o.b i
def bsrcSt (e : Env) (o : RegOp) (j : Nat) : Stamp := if o.b = 127 then ageless else srcSt e o.b j

end Sys2Proof.Claims

section
open Sys2Proof Sys2Proof.Machine Sys2Proof.Claims

/-- R142 with R138, R139: the integer words of the register and literal forms, IMAD, and the immediate forms complete with
the value of the table in the active lanes and the Older of the sources in each slice. -/
def Obligations.IntegerWordsCompute : Prop :=
  ∀ (s : State) (e : Env), s.env? = some e →
    (∀ i o f, IntTwo i o f → e.accepts (regHow o) →
      e.writes s (regHow o) o.d.toNat o.t (fun L => f (src e o.a L) (bsrc e o L))
        (fun j => older e.now (srcSt e o.a j) (bsrcSt e o j)) (exec i s)) ∧
    (∀ o : RegOp, e.accepts (regHow o) →
      e.writes s (regHow o) o.d.toNat o.t (fun L => src e o.a L * bsrc e o L + src e o.d L)
        (fun j => older e.now (older e.now (srcSt e o.d j) (srcSt e o.a j)) (bsrcSt e o j)) (exec (.imad o) s)) ∧
    (∀ i o f, IntImm i o f → e.accepts (immHow o) →
      e.writes s (immHow o) o.d.toNat false (fun L => f (src e o.a L)) (fun j => older e.now (srcSt e o.a j) ageless)
        (exec i s))

/-- R143 with R137 to R139: the FP32 words of the register and literal forms and FABS: each rounded once. -/
def Obligations.FloatWordsCompute : Prop :=
  ∀ (s : State) (e : Env), s.env? = some e →
    (∀ i o f, FloatTwo i o f → e.accepts (regHow o) →
      e.writes s (regHow o) o.d.toNat o.t (fun L => BitVec.ofNat 32 (f (src e o.a L).toNat (bsrc e o L).toNat))
        (fun j => older e.now (srcSt e o.a j) (bsrcSt e o j)) (exec i s)) ∧
    (∀ i o f, FloatThree i o f → e.accepts (regHow o) →
      e.writes s (regHow o) o.d.toNat o.t
        (fun L => BitVec.ofNat 32 (f (src e o.d L).toNat (src e o.a L).toNat (bsrc e o L).toNat))
        (fun j => older e.now (older e.now (srcSt e o.d j) (srcSt e o.a j)) (bsrcSt e o j)) (exec i s)) ∧
    (∀ o : UnOp, e.accepts ⟨o.s, o.c, .fma, 1, false, [.v o.d, .v o.a]⟩ →
      e.writes s ⟨o.s, o.c, .fma, 1, false, [.v o.d, .v o.a]⟩ o.d.toNat o.t
        (fun L => src e o.a L &&& 0x7FFFFFFF) (srcSt e o.a) (exec (.fabs o) s))

/-- R146: the packed words work on the two halves of each lane, with one stamp a slice. -/
def Obligations.PackedWordsCompute : Prop :=
  ∀ (s : State) (e : Env), s.env? = some e →
    (∀ i o fmt f, PackedTwo i o fmt f → e.accepts (regHow o) →
      e.writes s (regHow o) o.d.toNat o.t
        (fun L => BitVec.ofNat 32 (f (half (src e o.a L) 0) (half (bsrc e o L) 0) +
          65536 * f (half (src e o.a L) 1) (half (bsrc e o L) 1)))
        (fun j => older e.now (srcSt e o.a j) (bsrcSt e o j)) (exec i s)) ∧
    (∀ i o f, PackedThree i o f → e.accepts (regHow o) →
      e.writes s (regHow o) o.d.toNat o.t
        (fun L => BitVec.ofNat 32 (f (half (src e o.d L) 0) (half (src e o.a L) 0) (half (bsrc e o L) 0) +
          65536 * f (half (src e o.d L) 1) (half (src e o.a L) 1) (half (bsrc e o L) 1)))
        (fun j => older e.now (older e.now (srcSt e o.d j) (srcSt e o.a j)) (bsrcSt e o j)) (exec i s))

/-- R140, R43: the adopt forms take the stamp of the b register alone; FADDF leaves the stamp of vd; FMOVF writes
AGELESS. -/
def Sys2Proof.Claims.AdoptAndFloatImmediateWords : Prop :=
  ∀ (s : State) (e : Env), s.env? = some e →
    (∀ i o f, Adopt i o f → e.accepts ⟨o.s, o.c, .fma, 1, false, [.v o.d, .v o.a, .v o.b]⟩ →
      e.writes s ⟨o.s, o.c, .fma, 1, false, [.v o.d, .v o.a, .v o.b]⟩ o.d.toNat false
        (fun L => f (src e o.d L) (src e o.a L) (src e o.b L)) (srcSt e o.b) (exec i s)) ∧
    (∀ o : FltOp, e.accepts ⟨o.s, o.c, .fma, 1, false, [.v o.d]⟩ →
      e.writes s ⟨o.s, o.c, .fma, 1, false, [.v o.d]⟩ o.d.toNat false
        (fun L => BitVec.ofNat 32 (fp32.fadd (src e o.d L).toNat (o.i.toNat * 2 ^ 12))) (srcSt e o.d)
        (exec (.faddf o) s)) ∧
    (∀ o : FltOp, e.accepts ⟨o.s, o.c, .fma, 1, false, [.v o.d]⟩ →
      e.writes s ⟨o.s, o.c, .fma, 1, false, [.v o.d]⟩ o.d.toNat false
        (fun _ => BitVec.ofNat 32 (o.i.toNat * 2 ^ 12)) (fun _ => ageless) (exec (.fmovf o) s))

/-- R42, R74, R142, R143: the constant-bank forms, where the word of the bank can be read: its stamp is the bank's. -/
def Sys2Proof.Claims.ConstantBankWordsCompute : Prop :=
  ∀ (s t : State) (e : Env) (o : ImmOp) (w : Word), s.env? = some e → e.accepts (immHow o) →
    s.kword e.core e.b o.i.toNat = (t, .ok (w, false)) →
    (∀ i f, KcTwo i o f → e.writes t (immHow o) o.d.toNat false (fun L => f (src e o.a L) w)
      (fun j => older e.now (srcSt e o.a j) (e.b.lstamp.getD ageless)) (exec i s)) ∧
    e.writes t (immHow o) o.d.toNat false
      (fun L => BitVec.ofNat 32 (fp32.ffma (src e o.d L).toNat (src e o.a L).toNat w.toNat))
      (fun j => older e.now (older e.now (srcSt e o.d j) (srcSt e o.a j)) (e.b.lstamp.getD ageless)) (exec (.ffmaKc o) s)

/-- R140 to R143: the adopt words, the float immediates and the constant-bank words. -/
def Obligations.AdoptAndBankWordsCompute : Prop := Claims.AdoptAndFloatImmediateWords ∧ Claims.ConstantBankWordsCompute

end

namespace Sys2Proof.Claims

open Sys2Proof.Machine

/-! ### Special functions, conversions, VDOT8, lane movement, masks -/

/-- The rows of R144 with their functions on FP32 codes. -/
inductive Special : Instr → UnOp → (Nat → Nat) → Prop
  | frcp (o : UnOp) : Special (.frcp o) o Machine.frcp
  | frsq (o : UnOp) : Special (.frsq o) o Machine.frsq
  | fsqrt (o : UnOp) : Special (.fsqrt o) o Machine.fsqrt
  | fexp2 (o : UnOp) : Special (.fexp2 o) o Machine.fexp2
  | flog2 (o : UnOp) : Special (.flog2 o) o Machine.flog2

/-- Field `p` of `w` bits of a lane, and a lane with that field replaced (R147, R148). -/
def part (x : Word) (w p : Nat) : Nat := x.toNat / 2 ^ (w * p) % 2 ^ w
def withPart (x : Word) (w p v : Nat) : Word :=
  BitVec.ofNat 32 (x.toNat / 2 ^ (w * (p + 1)) * 2 ^ (w * (p + 1)) + v * 2 ^ (w * p) + x.toNat % 2 ^ (w * p))

/-- The FP8 format that a bit names (R41). -/
def fp8 (b : Bool) : Fmt := if b then e5m2 else e4m3

/-- The conversions of R148 that replace the lane. -/
inductive CvtLane : Instr → CvtOp → (Word → Word) → Prop
  | cvtfi (o : CvtOp) : CvtLane (.cvtfi o) o fun a => fToInt (decide (o.p = 1)) a.toNat
  | cvtif (o : CvtOp) : CvtLane (.cvtif o) o fun a => BitVec.ofNat 32
      (if o.p = 1 then fp32.round false (.fin false a.toNat 0) else fp32.round false (.fin (decide (a.toInt < 0)) a.toInt.natAbs 0))
  | cvthf (o : CvtOp) : CvtLane (.cvthf o) o fun a =>
      BitVec.ofNat 32 (fp32.round false (fp16.val (part a 16 (o.p.toNat % 2))))
  | cvtbf (o : CvtOp) : CvtLane (.cvtbf o) o fun a =>
      BitVec.ofNat 32 (fp32.round false (bf16.val (part a 16 (o.p.toNat % 2))))
  | cvt8f (o : CvtOp) : CvtLane (.cvt8f o) o fun a =>
      BitVec.ofNat 32 (fp32.round false ((fp8 o.fmt).val (part a 8 o.p.toNat)))

/-- The conversions of R148 that replace a part of vd: its width, its place, its value. -/
inductive CvtPart : Instr → CvtOp → Nat → Nat → (Nat → Nat) → Prop
  | cvtfh (o : CvtOp) : CvtPart (.cvtfh o) o 16 (o.p.toNat % 2) fun a => fp16.narrow o.sat (fp32.val a)
  | cvtfb (o : CvtOp) : CvtPart (.cvtfb o) o 16 (o.p.toNat % 2) fun a => bf16.narrow o.sat (fp32.val a)
  | cvtf8 (o : CvtOp) : CvtPart (.cvtf8 o) o 8 o.p.toNat fun a => (fp8 o.fmt).narrow o.sat (fp32.val a)

def cvtHow (o : CvtOp) : How := ⟨o.s, o.c, .fma, 1, false, [.v o.d, .v o.a]⟩

/-- The product of element `i` of two lanes (R151). -/
def dotProd (f : Fmt) (a b : Word) (i : Nat) : FVal := (f.val (part a 8 i)).mul (f.val (part b 8 i))

/-- R151: the exact sum of the four products, scaled and rounded once, then added to d and rounded again. -/
def dotValue (f : Fmt) (d a b : Word) (sa sb : Nat) : Word :=
  BitVec.ofNat 32 (fp32.fadd d.toNat (fp32.round false
    ((((((dotProd f a b 0).add (dotProd f a b 1)).add (dotProd f a b 2)).add (dotProd f a b 3)).mul (bf16.val sa)).mul
      (bf16.val sb))))

/-- The compares of R145 and R154 with a register or literal b operand. -/
inductive Compare : Instr → CmpOp → (Word → Word → Bool) → Prop
  | fcmpeq (o : CmpOp) : Compare (.fcmpeq o) o fun a b =>
      !fp32.isNan a.toNat && !fp32.isNan b.toNat && decide (fp32.ckey a.toNat = fp32.ckey b.toNat)
  | fcmplt (o : CmpOp) : Compare (.fcmplt o) o fun a b =>
      !fp32.isNan a.toNat && !fp32.isNan b.toNat && decide (fp32.ckey a.toNat < fp32.ckey b.toNat)
  | fcmple (o : CmpOp) : Compare (.fcmple o) o fun a b =>
      !fp32.isNan a.toNat && !fp32.isNan b.toNat && decide (fp32.ckey a.toNat ≤ fp32.ckey b.toNat)
  | icmpeq (o : CmpOp) : Compare (.icmpeq o) o fun a b => decide (a = b)
  | icmplt (o : CmpOp) : Compare (.icmplt o) o fun a b => decide (a.toInt < b.toInt)
  | icmpltu (o : CmpOp) : Compare (.icmpltu o) o fun a b => decide (a.toNat < b.toNat)
  | icmpne (o : CmpOp) : Compare (.icmpne o) o fun a b => decide (a ≠ b)

/-- The compares of R154 with an immediate. -/
inductive CompareImm : Instr → ImmOp → (Word → Bool) → Prop
  | icmpeq (o : ImmOp) : CompareImm (.icmpeqImm o) o fun a => decide (a.toInt = o.i.toInt)
  | icmplt (o : ImmOp) : CompareImm (.icmpltImm o) o fun a => decide (a.toInt < o.i.toInt)

/-- `out` is the completion of the word in hand with a change of the gang alone, which is now `g`. -/
def gangDone (e : Env) (h : How) (g : Gang) (out : Host.Outcome State Fault Refusal) : Prop :=
  out = .next (e.completes h (.done (e.onGang fun _ => g) none))

/-- `out` completes with mask register `k` written: bit L is `p L` for the lanes of `m`, the others keep theirs. -/
def setsMask (e : Env) (h : How) (k : Nat) (m p : Nat → Bool) (out : Host.Outcome State Fault Refusal) : Prop :=
  ∃ g, g = { e.g with k := g.k } ∧ (∀ i, i ≠ k → g.kreg i = e.g.kreg i) ∧
    (∀ L, L < 32 → (g.kreg k).getLsbD L = if m L then p L else (e.g.kreg k).getLsbD L) ∧ gangDone e h g out

/-- The rows of R155. -/
inductive MaskOp : Instr → KOp → (Bool → Bool → Bool) → Prop
  | kand (o : KOp) : MaskOp (.kand o) o fun a b => a && b
  | kor (o : KOp) : MaskOp (.kor o) o fun a b => a || b
  | kxor (o : KOp) : MaskOp (.kxor o) o fun a b => a != b
  | kandn (o : KOp) : MaskOp (.kandn o) o fun a b => a && !b

/-- Lane `L` lies in a slice of the issuing group; it is present (R110, R113). -/
def inGroup (e : Env) (L : Nat) : Bool := e.m.getLsbD (L / 4)
def isPresent (e : Env) (L : Nat) : Bool := e.b.shape.present.getLsbD (L / 4)

/-- How a control word issues (R48, R122). -/
def ctlHow (s c : Bool) : How := ⟨s, c, .sf, 1, true, []⟩

/-- The rows of R156 with the bits that lane L takes in k, DMASK and PMASK, from those it had. -/
inductive Diverge : Instr → Bool → Bool → BitVec 3 → (Bool → Bool → Bool → Bool × Bool × Bool) → Prop
  | dmsave (s c : Bool) (k : BitVec 3) : Diverge (.dmsave s c k) s c k fun _ d p => (d, d, p)
  | dmset (s c : Bool) (k : BitVec 3) : Diverge (.dmset s c k) s c k fun k _ p => (k, k, p)
  | dmand (s c : Bool) (k : BitVec 3) : Diverge (.dmand s c k) s c k fun k d p => (k, d && k, p)
  | dmandn (s c : Bool) (k : BitVec 3) : Diverge (.dmandn s c k) s c k fun k d p => (k, d && !k, p)
  | pmsave (s c : Bool) (k : BitVec 3) : Diverge (.pmsave s c k) s c k fun _ d p => (p, d, p)
  | pmset (s c : Bool) (k : BitVec 3) : Diverge (.pmset s c k) s c k fun k d _ => (k, d, k)
  | pmand (s c : Bool) (k : BitVec 3) : Diverge (.pmand s c k) s c k fun k d p => (k, d, p && k)

/-- The branches of R157: displacement, and whether slice `j` takes the branch. -/
inductive Branch (e : Env) : Instr → Bool → Bool → Int → (Nat → Prop) → Prop
  | jmp (s c : Bool) (j : BitVec 21) : Branch e (.jmp s c j) s c j.toInt fun _ => True
  | any (s c : Bool) (k : BitVec 3) (j : BitVec 18) : Branch e (.brAny s c k j) s c j.toInt fun i =>
      ∃ l, l < 4 ∧ e.g.exec.getLsbD (4 * i + l) = true ∧ (e.g.kreg k.toNat).getLsbD (4 * i + l) = true
  | all (s c : Bool) (k : BitVec 3) (j : BitVec 18) : Branch e (.brAll s c k j) s c j.toInt fun i =>
      ∀ l, l < 4 → e.g.exec.getLsbD (4 * i + l) = true → (e.g.kreg k.toNat).getLsbD (4 * i + l) = true
  | uz (s c : Bool) (w : BitVec 4) (j : BitVec 17) : Branch e (.brUz s c w j) s c j.toInt fun _ => (e.wreg w).val = 0
  | unz (s c : Bool) (w : BitVec 4) (j : BitVec 17) : Branch e (.brUnz s c w j) s c j.toInt fun _ => (e.wreg w).val ≠ 0

/-- How an engine or system word issues (R122). -/
def sysHow (s c : Bool) (p : Pipe) (l : List RegField) : How := ⟨s, c, p, 1, false, l⟩

/-- The special registers of R118 as lane `i` reads them. -/
def srd (e : Env) (i : Nat) : Nat → Word
  | 0x00 => BitVec.ofNat 32 i
  | 0x01 => BitVec.ofNat 32 (i / 4)
  | 0x02 => BitVec.ofNat 32 e.gang
  | 0x03 => BitVec.ofNat 32 e.b.lin
  | 0x04 => e.b.node.extractLsb' 0 32
  | 0x05 => (e.s.ctide e.b.ctx).extractLsb' 0 32
  | 0x06 => (e.s.ctide e.b.ctx).extractLsb' 32 32
  | 0x07 => (e.s.core e.core).cycle.extractLsb' 0 32
  | 0x08 => (e.s.core e.core).cycle.extractLsb' 32 32
  | 0x09 => e.g.vtime.extractLsb' 0 32
  | 0x0A => e.g.vtime.extractLsb' 32 32
  | 0x0B => BitVec.ofNat 32 e.b.shape.gangs
  | 0x0C => BitVec.ofNat 32 e.b.shape.slices
  | _ => e.g.dmask &&& e.g.pmask

/-- `out` completes with uniform register `d` written (R117): no other register is changed, and an open result of that
register no longer reaches it. -/
def setsUniform (e : Env) (h : How) (d : BitVec 4) (x : SVal) (out : Host.Outcome State Fault Refusal) : Prop :=
  ∃ g, g = { e.g with w := g.w, pend := g.pend } ∧ (∀ m, g.viewW m d.toNat = x) ∧
    (∀ i, i < 16 → i ≠ d.toNat → ∀ m, g.viewW m i = e.g.viewW m i) ∧ gangDone e h g out

end Sys2Proof.Claims

section
open Sys2Proof Sys2Proof.Machine Sys2Proof.Claims

/-- R144, R120: a special function is accepted as a pending result of the active lanes with the stamp of va; the registers
do not change at issue. -/
def Obligations.SpecialFunctionsArePosted : Prop :=
  ∀ (s : State) (e : Env) (i : Instr) (o : UnOp) (f : Nat → Nat), s.env? = some e → Special i o f →
    e.accepts ⟨o.s, o.c, .sf, 1, false, [.v o.d, .v o.a]⟩ →
    ∃ v : Vector Word 32, (∀ L, L < 32 → lane v L = BitVec.ofNat 32 (f (src e o.a L).toNat)) ∧
      gangDone e ⟨o.s, o.c, .sf, 1, false, [.v o.d, .v o.a]⟩
        { e.g with
          pid := e.g.pid + 1
          pend := e.g.pend ++ [{ Pend.new e.m e.pc (.spec o.d.toNat e.act v (e.reg o.a.toNat).stamps) 1 with
            id := e.g.pid, num := e.g.wnum, tr := o.t, at' := e.now }] } (exec i s)

/-- R148, R149: the conversions: a whole lane with the stamp of va, or a part of vd with Older(vd, va). -/
def Sys2Proof.Claims.ConversionsCompute : Prop :=
  ∀ (s : State) (e : Env), s.env? = some e →
    (∀ i o f, CvtLane i o f → e.accepts (cvtHow o) →
      e.writes s (cvtHow o) o.d.toNat o.t (fun L => f (src e o.a L)) (srcSt e o.a) (exec i s)) ∧
    (∀ i o w p f, CvtPart i o w p f → e.accepts (cvtHow o) →
      e.writes s (cvtHow o) o.d.toNat o.t (fun L => withPart (src e o.d L) w p (f (src e o.a L).toNat))
        (fun j => older e.now (srcSt e o.d j) (srcSt e o.a j)) (exec i s))

/-- R150, R151: VDOT8, with the scales of lane 8B of the registers after va and vb and their stamps. -/
def Sys2Proof.Claims.DotProductComputes : Prop :=
  ∀ (s : State) (e : Env) (o : DotOp), s.env? = some e →
    e.accepts ⟨o.s, o.c, .fma, 1, false, [.v o.d, .pair o.a, .pair o.b]⟩ →
    e.writes s ⟨o.s, o.c, .fma, 1, false, [.v o.d, .pair o.a, .pair o.b]⟩ o.d.toNat o.t
      (fun L => dotValue (fp8 o.f) (src e o.d L) (src e o.a L) (src e o.b L)
        (part (lane (e.reg (o.a.toNat + 1)).lanes (L / 8 * 8)) 16 o.h.toNat)
        (part (lane (e.reg (o.b.toNat + 1)).lanes (L / 8 * 8)) 16 o.h.toNat))
      (fun j => older e.now (older e.now (older e.now (older e.now (srcSt e o.d j) (srcSt e o.a j)) (srcSt e o.b j))
        (stampAt (e.reg (o.a.toNat + 1)).stamps (j / 2 * 2))) (stampAt (e.reg (o.b.toNat + 1)).stamps (j / 2 * 2)))
      (exec (.vdot8 o) s)

/-- R147 to R151: the conversions and VDOT8. -/
def Obligations.ConversionsAndDotProduct : Prop := Claims.ConversionsCompute ∧ Claims.DotProductComputes

/-- R152, R153: LSHFL, LXOR and SEL: their encodings, the lanes they take, and the Older of the slices those lanes lie
in. -/
def Obligations.LaneMovementComputes : Prop :=
  (let o : RegOp := { s := false, c := false, d := 3, a := 1, b := 2, t := false, lit := 0 };
    decodeWide 0x0D018104 0 = .ok (.lshfl o) ∧ decodeWide 0x0D418104 0 = .ok (.lxor o) ∧
      decodeWide 0x0DC18104 0 = .ok (.sel o)) ∧
  ∀ (s : State) (e : Env) (o : RegOp), s.env? = some e →
    (∀ i h n, (i = Instr.lshfl o ∧ h = { regHow o with pipe := .sf } ∧ n = fun L => (bsrc e o L).toNat % 32) ∨
        (i = Instr.lxor o ∧ h = regHow o ∧ n = fun L => Nat.xor L ((bsrc e o L).toNat % 32)) →
      e.accepts h → e.writes s h o.d.toNat o.t (fun L => src e o.a (n L))
        (fun j => olderAll e.now ((([4 * j, 4 * j + 1, 4 * j + 2, 4 * j + 3].filter fun L => e.act.getLsbD L).map
          fun L => srcSt e o.a (n L / 4)))) (exec i s)) ∧
    (e.accepts (regHow o) →
      e.writes s (regHow o) o.d.toNat o.t (fun L => if (e.g.kreg 0).getLsbD L then src e o.a L else bsrc e o L)
        (fun j =>
          let l := [4 * j, 4 * j + 1, 4 * j + 2, 4 * j + 3].filter fun L => e.act.getLsbD L
          if l.all fun L => (e.g.kreg 0).getLsbD L then srcSt e o.a j
          else if l.all fun L => !(e.g.kreg 0).getLsbD L then bsrcSt e o j
          else older e.now (srcSt e o.a j) (bsrcSt e o j)) (exec (.sel o) s))

/-- R145, R154: the compares write their mask register in the active lanes and leave its other bits; the encodings of the
integer compares. -/
def Obligations.ComparesSetMasks : Prop :=
  (let o : CmpOp := { s := false, c := false, d := 3, a := 1, b := 2, lit := 0 };
    decodeWide 0x0F018104 0 = .ok (.icmpeq o) ∧ decodeWide 0x0F418104 0 = .ok (.icmplt o) ∧
      decodeWide 0x0F818104 0 = .ok (.icmpltu o) ∧ decodeWide 0x0FC18104 0 = .ok (.icmpne o)) ∧
  (let o : ImmOp := { s := false, c := false, d := 3, a := 1, i := 0x1FF };
    decodeWide 0x158303FF 0 = .ok (.icmpeqImm o) ∧ decodeWide 0x160303FF 0 = .ok (.icmpltImm o)) ∧
  ∀ (s : State) (e : Env), s.env? = some e →
    (∀ i o p, Compare i o p →
      e.accepts ⟨o.s, o.c, .fma, if o.b = 127 then 2 else 1, false, [.kreg o.d, .v o.a, .b o.b]⟩ →
      setsMask e ⟨o.s, o.c, .fma, if o.b = 127 then 2 else 1, false, [.kreg o.d, .v o.a, .b o.b]⟩ o.d.toNat
        (fun L => e.act.getLsbD L) (fun L => p (src e o.a L) (if o.b = 127 then o.lit else src e o.b L)) (exec i s)) ∧
    (∀ i o p, CompareImm i o p → e.accepts ⟨o.s, o.c, .fma, 1, false, [.kreg o.d, .v o.a]⟩ →
      setsMask e ⟨o.s, o.c, .fma, 1, false, [.kreg o.d, .v o.a]⟩ o.d.toNat
        (fun L => e.act.getLsbD L) (fun L => p (src e o.a L)) (exec i s))

/-- R155: mask logic on every present lane of the group's slices, active or not; bits of absent lanes are 0, bits of
other groups' slices stay; the four encodings, and the manual's own example of one. -/
def Obligations.MaskLogicActsOnPresentLanes : Prop :=
  (let k : KOp := { s := false, c := false, d := 3, a := 1, b := 2 };
    decodeWide 0x0E018104 0 = .ok (.kand k) ∧ decodeWide 0x0E418104 0 = .ok (.kor k) ∧
      decodeWide 0x0E818104 0 = .ok (.kxor k) ∧ decodeWide 0x0EC18104 0 = .ok (.kandn k)) ∧
  ∀ (s : State) (e : Env) (i : Instr) (o : KOp) (f : Bool → Bool → Bool), s.env? = some e → MaskOp i o f →
    e.accepts ⟨o.s, o.c, .fma, 1, false, [.kreg o.d, .kreg o.a, .kreg o.b]⟩ →
    setsMask e ⟨o.s, o.c, .fma, 1, false, [.kreg o.d, .kreg o.a, .kreg o.b]⟩ o.d.toNat (inGroup e)
      (fun L => f ((e.g.kreg o.a.toNat).getLsbD L) ((e.g.kreg o.b.toNat).getLsbD L) && isPresent e L) (exec i s)

/-- R156, R113: the divergence and predicate words on the present lanes of the group's slices. -/
def Obligations.DivergenceWordsChangeMasks : Prop :=
  ∀ (s : State) (e : Env) (i : Instr) (sb c : Bool) (k : BitVec 3) (f : Bool → Bool → Bool → Bool × Bool × Bool),
    s.env? = some e → Diverge i sb c k f → e.accepts (ctlHow sb c) →
    ∃ g, g = { e.g with k := g.k, dmask := g.dmask, pmask := g.pmask } ∧
      (∀ j, j ≠ k.toNat → g.kreg j = e.g.kreg j) ∧
      (∀ L, L < 32 → ((g.kreg k.toNat).getLsbD L, g.dmask.getLsbD L, g.pmask.getLsbD L) =
        if inGroup e L && isPresent e L then
          f ((e.g.kreg k.toNat).getLsbD L) (e.g.dmask.getLsbD L) (e.g.pmask.getLsbD L)
        else ((e.g.kreg k.toNat).getLsbD L, e.g.dmask.getLsbD L, e.g.pmask.getLsbD L)) ∧
      gangDone e (ctlHow sb c) g (exec i s)

/-- R110, R157: a branch sends the slices that take it to o + disp and the others to o + 1; the group splits only where
its slices disagree; a target outside 0 to 2^32 − 1 raises stale-flume (0x04) at the branch. That it does so also where no
slice takes the branch is the model's choice (log 15, DEDUCED: R157). -/
def Sys2Proof.Claims.BranchesSplitGroups : Prop :=
  ∀ (s : State) (e : Env) (i : Instr) (sb c : Bool) (disp : Int) (p : Nat → Prop) (t : BitVec 8), s.env? = some e →
    Branch e i sb c disp p → e.accepts (ctlHow sb c) →
    (∀ j, j < 8 → (t.getLsbD j = true ↔ e.m.getLsbD j = true ∧ p j)) →
    (∀ x : Word, (x.toNat : Int) = e.pc.toNat + disp →
      (t = 0 → exec i s = .next (e.completes (ctlHow sb c) (.jump s [(e.m, e.pc + 1)]))) ∧
      (t ≠ 0 → t = e.m → exec i s = .next (e.completes (ctlHow sb c) (.jump s [(e.m, x)]))) ∧
      (t ≠ 0 → t ≠ e.m → exec i s = .next (e.completes (ctlHow sb c) (.jump s [(t, x), (e.m &&& ~~~t, e.pc + 1)])))) ∧
    (e.pc.toNat + disp < 0 ∨ 2 ^ 32 ≤ e.pc.toNat + disp →
      exec i s = .next (e.completes (ctlHow sb c) (.fault s 0x04 0)))

/-- R110, R121: a group that has branched goes on as the groups named, each ready at its ordinal; the others stay as they
are; with S in the word or its run, each resulting group switches (R157). -/
def Sys2Proof.Claims.BranchedGroupsGoOn : Prop :=
  ∀ (s : State) (e : Env) (sb c : Bool) (l : List (BitVec 8 × Word)), s.env? = some e → e.accepts (ctlHow sb c) →
    (l.map (·.1)).Nodup →
    ∃ g, (e.completes (ctlHow sb c) (.jump s l)).gang? e.core e.slot e.gang = some g ∧
      (∀ q ∈ l, ∃ x, g.groups.find? (·.mask == q.1) = some x ∧ x.pc = q.2 ∧ x.wait = .none ∧ x.run = none ∧
        (x.parked = true ↔ (sb = true ∨ (e.grp.run.getD Run.start).s = true) ∧ e.g.awaits q.1 = true)) ∧
      (∀ m, m ≠ e.m → m ∉ l.map (·.1) → g.groups.find? (·.mask == m) = e.g.groups.find? (·.mask == m))

/-- R58, R111, R156: the branches: what they do to their group, and that the groups they leave run on. -/
def Obligations.BranchWordsSplitGroups : Prop := Claims.BranchesSplitGroups ∧ Claims.BranchedGroupsGoOn

/-- R158 to R160, R111, R128: NOP changes nothing; REGANG waits at its word, where the rendezvous is tried with it; PAUSE
takes the larger count; EXIT waits for the group's results and then ends it. Where the gang arrives at a quad or network
barrier once the group has left it, that arrival is a release (R129): EXIT writes back the stash from DIE scope on (R175) and
waits as a release does (R182). -/
def Sys2Proof.Claims.ControlWordsComplete : Prop :=
  ∀ (s : State) (e : Env) (sb c : Bool), s.env? = some e → e.accepts (ctlHow sb c) →
    exec (.nop sb c) s = .next (e.completes (ctlHow sb c) (.done s none)) ∧
    (∀ k : BitVec 8, exec (.regang sb c k) s = .next (e.completes (ctlHow sb c)
      (.hold s (.regang k) fun t => t.onGang e.core e.slot e.gang fun g => g.regangTry e.pc k))) ∧
    (∀ n : BitVec 12, gangDone e (ctlHow sb c)
      { e.g with pause := BitVec.ofNat 12 (max e.g.pause.toNat n.toNat) } (exec (.pause sb c n) s)) ∧
    (e.g.awaits e.m = true → exec (.exit sb c) s = .next (e.completes (ctlHow sb c) (.wait s .exit))) ∧
    (e.g.awaits e.m = false →
      (e.g.leftLevel e.m = none → exec (.exit sb c) s = .next (e.completes (ctlHow sb c)
        (.leave (e.onGang fun _ => e.g.close e.m) fun t => t.exitSlices e.core e.slot e.gang e.m e.pc))) ∧
      (∀ lv, e.g.leftLevel e.m = some lv →
        let t := s.scopeBack e.core e.slot e.gang (BitVec.ofNat 3 (3 + lv))
        ∀ g, t.gang? e.core e.slot e.gang = some g →
          let open_ := g.pend.any (fun p => p.isLoad && !p.returned) || !(ackedFor g.outst (BitVec.ofNat 3 (3 + lv)))
          (open_ = true → exec (.exit sb c) s = .next (e.completes (ctlHow sb c) (.wait t .release))) ∧
          (open_ = false → exec (.exit sb c) s = .next (e.completes (ctlHow sb c)
            (.leave (t.onGang e.core e.slot e.gang fun x => x.close e.m) fun u =>
              u.exitSlices e.core e.slot e.gang e.m e.pc)))))

/-- A group waits at the REGANG word at `p` with mask `m`, and holds slice `j`. -/
def Sys2Proof.Claims.waitsAt (p : Word) (m : BitVec 8) (x : Group) (j : Nat) : Prop :=
  x.pc = p ∧ x.wait = .regang m ∧ x.mask.getLsbD j = true

/-- R33, R111: the rendezvous at `p`: when every slice of the mask that some group still holds waits there, all the slices
that wait there go on as one group at the word after; till then nothing changes. The other groups stay as they are. -/
def Sys2Proof.Claims.RendezvousMerges : Prop :=
  ∀ (g : Gang) (p : Word) (m : BitVec 8),
    let met := (∃ x ∈ g.groups, ∃ j, waitsAt p m x j) ∧
      ∀ j, m.getLsbD j = true → (∃ x ∈ g.groups, x.mask.getLsbD j = true) → ∃ x ∈ g.groups, waitsAt p m x j
    (met → ∃ x ∈ (g.regangTry p m).groups, x.pc = p + 1 ∧ x.wait = .none ∧ x.run = none ∧
      (∀ j, x.mask.getLsbD j = true ↔ ∃ y ∈ g.groups, waitsAt p m y j) ∧
      (∀ y, y ≠ x → (y ∈ (g.regangTry p m).groups ↔ y ∈ g.groups ∧ ¬(y.pc = p ∧ y.wait = .regang m)))) ∧
    (met → g.regangTry p m = { g with groups := (g.regangTry p m).groups }) ∧
    (¬met → g.regangTry p m = g)

/-- R112: slices that exit are marked with the ordinal of their EXIT and leave; the gang is idle with its last slice. Where other
groups are left they stay as they are, with the gang's registers; a REGANG at which they alone wait is over (R111), and a
barrier or wheel word that only the leaving slices had yet to issue is an arrival of the gang (R129). -/
def Sys2Proof.Claims.ExitedSlicesLeave : Prop :=
  ∀ (s : State) (core slot gang : Nat) (g : Gang) (m : BitVec 8) (o : Word), s.gang? core slot gang = some g →
    (∀ x ∈ g.groups, x.mask = m) →
    ∃ t, (s.exitSlices core slot gang m o).gang? core slot gang = some t ∧ t.st = .idle ∧ t.groups = [] ∧
      t.exited = g.exited ||| m ∧ t.v = g.v ∧ t.w = g.w ∧ t.k = g.k ∧
      (∀ j, j < 8 → m.getLsbD j = true → vat t.exitOrd 0 j = o) ∧
      (∀ j, j < 8 → m.getLsbD j = false → vat t.exitOrd 0 j = vat g.exitOrd 0 j) ∧
      (s.exitSlices core slot gang m o).mem = s.mem

/-- The gang once its slices `m` have left, others being left (R112). -/
def Sys2Proof.Claims.withoutSlices (g : Gang) (m : BitVec 8) (o : Word) : Gang :=
  { g with
    groups := g.groups.filter fun x => x.mask != m
    exited := g.exited ||| m
    exitOrd := vec 8 fun j => if m.getLsbD j then o else vat g.exitOrd 0 j }

/-- R112, R111, R129: what is left of a gang that some of its slices leave. -/
def Sys2Proof.Claims.OtherGroupsStay : Prop :=
  ∀ (s : State) (core slot gang : Nat) (g : Gang) (m : BitVec 8) (o : Word), s.gang? core slot gang = some g →
    (∃ x ∈ g.groups, x.mask ≠ m) →
    let r := withoutSlices g m o
    let out := s.exitSlices core slot gang m o
    ((∀ x ∈ r.groups, ∀ k, x.wait ≠ .regang k) → (∀ a ∈ g.arr, 132 ≤ a.1) → out = s.onGang core slot gang fun _ => r) ∧
    ((∀ x ∈ r.groups, ∀ k, x.wait ≠ .regang k) → ∀ k v, g.arr = [(k, v)] → k < 132 →
      let done := r.live ≠ 0 ∧ ∀ j, j < 8 → r.live.getLsbD j = true → vat v 0 j ≠ 0
      (¬done → out = s.onGang core slot gang fun _ => r) ∧
      (done → out = (s.onGang core slot gang fun _ =>
        { r with arr := [(k, vec 8 fun j => if r.live.getLsbD j then vat v 0 j - 1 else 0)] }).arrive core slot gang k)) ∧
    (∀ x k, r.groups = [x] → x.mask ≠ 0 → x.wait = .regang k → (∀ a ∈ g.arr, 132 ≤ a.1) →
      ∃ y, out = s.onGang core slot gang (fun _ => { r with groups := [y] }) ∧ y.mask = x.mask ∧ y.pc = x.pc + 1 ∧
        y.wait = .none)

/-- R110 to R112, R154 to R158: the other control words, the rendezvous, and what EXIT leaves. -/
def Obligations.ControlWordsAndExit : Prop :=
  Claims.ControlWordsComplete ∧ Claims.RendezvousMerges ∧ Claims.ExitedSlicesLeave ∧ Claims.OtherGroupsStay

/-- R162, R118: the uniform moves and SRD. -/
def Obligations.UniformMovesAndSpecialRegisters : Prop :=
  ∀ (s : State) (e : Env) (sb c : Bool), s.env? = some e →
    (∀ (d : BitVec 4) (a : BitVec 7) (l : BitVec 5), e.accepts (sysHow sb c .fma [.v a]) →
      setsUniform e (sysHow sb c .fma [.v a]) d
        ⟨BitVec.ofNat 64 (src e a l.toNat).toNat, srcSt e a (l.toNat / 4)⟩ (exec (.wmov sb c d a l) s)) ∧
    (∀ (d w : BitVec 4) (i : BitVec 12), e.accepts (sysHow sb c .fma []) →
      setsUniform e (sysHow sb c .fma []) d ⟨(e.wreg w).val + BitVec.ofInt 64 i.toInt, (e.wreg w).stamp⟩
        (exec (.waddi sb c d w i) s)) ∧
    (∀ (d : BitVec 7) (h : Bool) (w : BitVec 4), e.accepts (sysHow sb c .fma [.v d]) →
      e.writes s (sysHow sb c .fma [.v d]) d.toNat false
        (fun _ => (e.wreg w).val.extractLsb' (if h then 32 else 0) 32) (fun _ => (e.wreg w).stamp)
        (exec (.vbcast sb c d h w) s)) ∧
    (∀ (d : BitVec 7) (r : BitVec 6), e.accepts (sysHow sb c .fma [.v d]) →
      e.writes s (sysHow sb c .fma [.v d]) d.toNat false (fun L => srd e L r.toNat) (fun _ => ageless)
        (exec (.srd sb c d r) s))

/-- R161, R123: PUSHM stores the registers of its range in frames and raises SPP; POPM lowers SPP and posts the frames as
its result; where the region has no room, or holds too little, both fault (0x26) and change neither. -/
def Obligations.SpillMovesFrames : Prop :=
  ∀ (s : State) (e : Env) (sb c : Bool) (a b : BitVec 7), s.env? = some e → a.toNat ≤ b.toNat →
    e.accepts (sysHow sb c .mem [.strict a.toNat, .strict b.toNat]) →
    let h := sysHow sb c .mem [.strict a.toNat, .strict b.toNat]
    let k := b.toNat + 1 - a.toNat
    (e.g.spp + 160 * k ≤ e.b.shape.spill →
      ∃ g, g = { e.g with spill := g.spill, spp := e.g.spp + 160 * k } ∧
        (∀ i, i < k → Tbl.get? g.spill (e.g.spp + 160 * i) = some (e.reg (a.toNat + i))) ∧
        (∀ x, (∀ i, i < k → x ≠ e.g.spp + 160 * i) → Tbl.get? g.spill x = Tbl.get? e.g.spill x) ∧
        gangDone e h g (exec (.pushm sb c a b) s)) ∧
    (e.b.shape.spill < e.g.spp + 160 * k →
      exec (.pushm sb c a b) s = .next (e.completes h (.fault s 0x26 0))) ∧
    (160 * k ≤ e.g.spp →
      ∃ l : List VReg, l.length = k ∧
        (∀ i x, i < k → Tbl.get? e.g.spill (e.g.spp - 160 * k + 160 * i) = some x → l[i]? = some x) ∧
        gangDone e h { e.g with
          spp := e.g.spp - 160 * k
          pid := e.g.pid + 1
          pend := e.g.pend ++ [{ Pend.new e.m e.pc (.frames a.toNat l) k with id := e.g.pid, num := e.g.wnum }] }
          (exec (.popm sb c a b) s)) ∧
    (e.g.spp < 160 * k → exec (.popm sb c a b) s = .next (e.completes h (.fault s 0x26 1)))

end

namespace Sys2Proof.Claims

open Sys2Proof.Machine

/-! ### Memory words, engine words, synchronisation -/

/-- How a memory-subclass word issues: on the memory pipe, with its extension word (R51, R122). -/
def memHow (o : MemOp) (l : List RegField) : How := ⟨o.s, o.c, .mem, 2, false, l⟩

/-- Registers of the group that an access of each lane takes (R183). -/
def groupSize (o : MemOp) : Nat := (2 ^ o.size.toNat + 3) / 4

/-- `out` completes with `s` and the pending result `p` (R120). -/
def posts (e : Env) (h : How) (s : State) (p : Pend) (out : Host.Outcome State Fault Refusal) : Prop :=
  out = .next (e.completes h (.done (s.onGang e.core e.slot e.gang fun g =>
    { g with pend := g.pend ++ [{ p with id := g.pid, num := g.wnum }], pid := g.pid + 1 }) none))

/-- A pending result of the word in hand that holds the data of its lanes: little-endian words in the registers from `d`
upward, zero-extended, with the stamps of the sectors read (R183), and poison if a sector was poisoned. -/
def laneResult (e : Env) (o : MemOp) (got : List (Nat × Got)) (p : Pend) : Prop :=
  p.slices = e.m ∧ p.ord = e.pc ∧ p.returned = false ∧ p.tr = false ∧
    p.acq = (if o.ord.getLsbD 0 then some o.scope else none) ∧
    p.fail = (if got.any fun x => x.2.bad then some .poison else none) ∧
    ∃ vals secs adr, p.val = .lanes o.d.toNat e.act vals secs adr ∧ vals.length = groupSize o ∧
      ∀ L, L < 32 → e.act.getLsbD L = true → ∀ x, got.find? (·.1 == L) = some (L, x) →
        vat secs ancient L = x.stamp ∧
        ∀ k v, vals[k]? = some v → lane v L = BitVec.ofNat 32 (leVal ((x.bytes.drop (4 * k)).take 4))

/-- The byte pairs (virtual address or offset, byte) that a store lays down for one lane at `a` (R184). -/
def laneStore (e : Env) (o : MemOp) (L a : Nat) : List (Nat × Byte) :=
  (List.range (2 ^ o.size.toNat)).map fun i =>
    (a + i, BitVec.ofNat 8 ((lane (e.reg (o.d.toNat + i / 4)).lanes L).toNat / 256 ^ (i % 4)))

/-- The operations of R185 and R97 by number on `n` bytes: the new value from the old one, the operand and the comparand;
none where a compare-and-swap fails. -/
def atomSpec (op n old b cmp : Nat) : Option Nat :=
  let sg (x : Nat) : Int := if x < 2 ^ (8 * n - 1) then x else (x : Int) - 2 ^ (8 * n)
  match op with
  | 0 => some b
  | 1 => if old = cmp then some b else none
  | 2 => some ((old + b) % 2 ^ (8 * n))
  | 3 => some (fp32.round false ((fp32.val old).add (fp32.val b)))
  | 4 => some (old &&& b)
  | 5 => some (old ||| b)
  | 6 => some (old ^^^ b)
  | 7 => some (if sg old ≤ sg b then old else b)
  | 8 => some (if sg b ≤ sg old then old else b)
  | 9 => some (if old ≤ b then old else b)
  | _ => some (if b ≤ old then old else b)

/-- The FERRY words with their kinds (R266). -/
inductive FerryWord : Instr → FerryOp → FerryKind → Prop
  | g2s (o : FerryOp) : FerryWord (.ferryG2s o) o .g2s
  | s2g (o : FerryOp) : FerryWord (.ferryS2g o) o .s2g
  | g2g (o : FerryOp) : FerryWord (.ferryG2g o) o .g2g
  | s2s (o : FerryOp) : FerryWord (.ferryS2s o) o .s2s
  | egh (o : FerryOp) : FerryWord (.ferryEgh o) o .egh
  | egp (o : FerryOp) : FerryWord (.ferryEgp o) o .egp

/-- `out` completes with the block of the gang changed to what `f` makes of it. -/
def blockDone (e : Env) (h : How) (f : Block → Block) (out : Host.Outcome State Fault Refusal) : Prop :=
  out = .next (e.completes h (.done (e.s.onBlock e.core e.slot f) none))

/-- No agent reads another device memory than its home holds: no write is to be missed by any (R231), no stash line is dirty
(R174). -/
def quiet (s : State) : Prop := s.olds = [] ∧ ∀ p ∈ s.blocks, ∀ e ∈ p.2.2.stash, e.2.dirty = false

/-- How an engine word on the memory pipe without register fields issues. -/
def engHow (s c : Bool) : How := ⟨s, c, .mem, 1, false, []⟩

end Sys2Proof.Claims

section
open Sys2Proof Sys2Proof.Machine Sys2Proof.Claims

/-- R179: what stops a memory word before its access, in order: an offset outside its region (0x24) or an address that is not
canonical (a late fault of the word), of the lowest lane that has one; a misaligned address (0x20), an ordering wider than the
block on a scratchpad (0x25), a restamp without the right (0x31), a wheel stage that is not there yet (the group waits). The
lanes of a word come in ascending order. -/
def Sys2Proof.Claims.MemoryTestsComeInOrder : Prop :=
  ∀ (e : Env) (o : MemOp) (l : List (Nat × LaneAddr)) (mis : Bool),
    (e.lanes o).Pairwise (fun a b => a.1 < b.1) ∧
    (∀ l1 p l2, l = l1 ++ p :: l2 → (∀ q ∈ l1, q.2 ≠ .extent ∧ ∀ va, q.2 ≠ .badVa va) →
      (p.2 = .extent → e.memTests o l mis = some (.fault e.s 0x24 0)) ∧
      (∀ va, p.2 = .badVa va → e.memTests o l mis = some (.late e.s (.translation 0xC)))) ∧
    ((∀ p ∈ l, p.2 ≠ .extent ∧ ∀ va, p.2 ≠ .badVa va) →
      (mis = true → e.memTests o l mis = some (.fault e.s 0x20 0)) ∧
      (mis = false → 14 ≤ o.wsel.toNat → o.ord ≠ 0 → 3 ≤ o.scope.toNat → e.memTests o l mis = some (.fault e.s 0x25 0)) ∧
      (mis = false → (o.wsel.toNat < 14 ∨ o.ord = 0 ∨ o.scope.toNat < 3) →
        (o.mode = 2 → (e.s.ctx e.b.ctx).restamp = false → e.memTests o l mis = some (.fault e.s 0x31 0)) ∧
        ((o.mode ≠ 2 ∨ (e.s.ctx e.b.ctx).restamp = true) →
          ((∃ p ∈ l, p.2 = .stall) → e.memTests o l mis = some (.wait e.s .wheel)) ∧
          ((∀ p ∈ l, p.2 ≠ .stall) → e.memTests o l mis = none))))

/-- R165, R166: the address of a lane: base, sign-extended offset and displacement in units of the access; the plain
scratchpad by its extent; a wheel address by its wheel, its view and its relative stage: the physical stage from the view's
stage register, at its place in the plain region, or the word waits while the stage is not there. -/
def Sys2Proof.Claims.LaneAddressesAreFormed : Prop :=
  ∀ (e : Env) (o : MemOp) (v : Word),
    (o.wsel.toNat < 14 → ∀ ea : DWord,
      ea = (e.wreg o.wsel).val + BitVec.ofInt 64 v.toInt + BitVec.ofInt 64 (o.off.toInt * 2 ^ o.size.toNat) →
      e.address o v = if ea.toNat < 2 ^ 56 ∨ 2 ^ 64 - 2 ^ 56 ≤ ea.toNat then .global ea else .badVa ea) ∧
    (o.wsel = 14 → ∀ pa : Word, pa = v + BitVec.ofInt 32 (o.off.toInt * 2 ^ o.size.toNat) →
      e.address o v = if pa.toNat + 2 ^ o.size.toNat ≤ e.b.shape.plain then .scratch pa.toNat else .extent) ∧
    (o.wsel = 15 → ∀ wa : Word, wa = v + BitVec.ofInt 32 (o.off.toInt * 2 ^ o.size.toNat) →
      let w := vat e.b.wheels (Wheel.start WheelDesc.none) (wa.toNat / 2 ^ 30)
      let r := wa.toNat / 2 ^ 24 % 32
      let byte := wa.toNat % 2 ^ 24
      let fill := wa.getLsbD 29
      let held := (w.f - w.p).toNat
      e.address o v =
        if w.desc.valid = false ∨ w.desc.count ≤ r ∨ 2 ^ w.desc.size < byte + 2 ^ o.size.toNat then .extent
        else if (fill = true ∧ w.desc.count ≤ held + r) ∨ (fill = false ∧ held ≤ r) then .stall
        else .scratch (w.desc.base + ((if fill then w.fs else w.ps) + r) % w.desc.count * 2 ^ w.desc.size + byte))

/-- R165, R166, R179: how the address of a lane is formed, and what stops a memory word before its access. -/
def Obligations.AddressesAndTests : Prop := Claims.LaneAddressesAreFormed ∧ Claims.MemoryTestsComeInOrder

/-- R183, R186: a load is accepted as a pending result that holds, lane by lane, what its access read; with no active lane
LDX does nothing; LDW reads once, as the lowest slice of its group. The scratchpad is read in place; in plain space a read may
still find a sector as it stood before an engine's write that nothing orders before it (R236). That the access is performed as
the word issues is the model's choice (log 7). -/
def Sys2Proof.Claims.LoadsPostWhatTheyRead : Prop :=
  ∀ (s : State) (e : Env) (o : MemOp), s.env? = some e →
    (e.accepts (memHow o [.group o.d o.regs, .v o.voff]) →
      (e.act = 0 → exec (.ldx o) s = .next (e.completes (memHow o [.group o.d o.regs, .v o.voff]) (.done s none))) ∧
      (e.act ≠ 0 → ∀ s1 s2 got, e.memTests o (e.lanes o) (e.misaligned o (e.lanes o)) = none →
        s.reach e.core e.slot e.gang (.word e.m) e.b.ctx false (2 ^ o.size.toNat) true (e.lanes o) = (s1, none, false) →
        (e.meetWheel o s1).acquiring e.ws o.acq? (fun t => e.reads o false (e.lanes o) t (e.lanes o)) = (s2, got, none) →
        (∃ p, laneResult e o got p ∧ p.bnd = o.bnd ∧
          posts e (memHow o [.group o.d o.regs, .v o.voff]) s2 p (exec (.ldx o) s)) ∧
        ((∀ q ∈ e.lanes o, ∃ off, q.2 = .scratch off) → s2.mem = s.mem ∧ (s.olds = [] → e.b.spLate = [] → s2 = s) ∧
          ∀ L off, (L, LaneAddr.scratch off) ∈ e.lanes o → ∃ x, got.find? (·.1 == L) = some (L, x) ∧
            let now := x.bytes = e.b.sp.bytesAt off (2 ^ o.size.toNat) ∧ x.stamp = e.b.sp.stamp (off / 32) ∧
              x.bad = e.b.sp.bad (off / 32)
            ((o.wsel = 15 ∨ Tbl.get? e.b.spLate (off / 32) = none) → now) ∧
            ∀ v, Tbl.get? e.b.spLate (off / 32) = some v → now ∨
              (x.bytes = (v.1.drop (off % 32)).take (2 ^ o.size.toNat) ∧ x.stamp = v.2.1 ∧ x.bad = v.2.2)))) ∧
    (e.accepts (memHow o [.wreg o.d]) →
      (o.wsel = 15 → exec (.ldw o) s = .next (e.completes (memHow o [.wreg o.d]) (.fault s 0x24 0))) ∧
      (o.wsel ≠ 15 → ∀ s1 s2 got c mis j, j < 8 → e.m.getLsbD j = true → (∀ i, i < j → e.m.getLsbD i = false) →
        (∀ va, e.address o 0 = .global va → mis = decide (va.toNat % 2 ^ o.size.toNat ≠ 0)) →
        (∀ off, e.address o 0 = .scratch off → mis = decide (off % 2 ^ o.size.toNat ≠ 0)) →
        let l := [(4 * j, e.address o 0)]
        e.memTests o l mis = none →
        s.reach e.core e.slot e.gang (.word e.m) e.b.ctx false (2 ^ o.size.toNat) true l = (s1, none, false) →
        s1.acquiring e.ws o.acq? (fun t => e.reads o true l t l) = (s2, [(4 * j, got)], c) →
        ∃ p adr, p.val = .uni (o.d.setWidth 4) ⟨BitVec.ofNat 64 (leVal got.bytes), got.stamp⟩ adr ∧ p.slices = e.m ∧
          p.ord = e.pc ∧ p.returned = false ∧ p.bnd = o.bnd ∧
          p.fail = (match c with
            | some x => some x
            | none => if got.bad then some .poison else none) ∧
          posts e (memHow o [.wreg o.d]) s2 p (exec (.ldw o) s)))

/-- R183, R204: the lanes of a load are read one after another in ascending order, each a read of global memory or of the
scratchpad; a lane whose read stops ends the reads with its late fault. -/
def Sys2Proof.Claims.LanesReadInOrder : Prop :=
  ∀ (e : Env) (o : MemOp) (uni : Bool) (all r : List (Nat × LaneAddr)) (s : State) (L : Nat),
    (∀ va s1 g, s.globalRead (.slice e.core e.slot e.gang (L / 4)) e.core e.slot e.gang e.b.ctx va (2 ^ o.size.toNat) true
          (decide (o.policy.toNat < 2) && !(o.ord.getLsbD 0 && decide (3 ≤ o.scope.toNat)))
          (decide (o.policy.toNat < 2) && (uni || decide (4 ≤ lineCount all va))) = (s1, .ok g) →
      e.reads o uni all s ((L, .global va) :: r) =
        ((e.reads o uni all s1 r).1, (L, g) :: (e.reads o uni all s1 r).2.1, (e.reads o uni all s1 r).2.2)) ∧
    (∀ va s1 x, s.globalRead (.slice e.core e.slot e.gang (L / 4)) e.core e.slot e.gang e.b.ctx va (2 ^ o.size.toNat) true
          (decide (o.policy.toNat < 2) && !(o.ord.getLsbD 0 && decide (3 ≤ o.scope.toNat)))
          (decide (o.policy.toNat < 2) && (uni || decide (4 ≤ lineCount all va))) = (s1, .error x) →
      e.reads o uni all s ((L, .global va) :: r) = (s1, [], some (x.late va))) ∧
    (∀ off s1 g, s.spLoad (.slice e.core e.slot e.gang (L / 4)) e.core e.slot off (2 ^ o.size.toNat) (decide (o.wsel = 15)) = (s1, g) →
      e.reads o uni all s ((L, .scratch off) :: r) =
        ((e.reads o uni all s1 r).1, (L, g) :: (e.reads o uni all s1 r).2.1, (e.reads o uni all s1 r).2.2))

/-- R165, R193, R204, R207: a read of global memory at an address that the stash does not map: with the address translated,
where no write is to be missed, no stash line is dirty and the L1 does not hold the line, it gives the bytes, the stamp and
the poison that device memory holds there, and leaves memory as it is; where the L1 serves it, the bytes of its copy. -/
def Sys2Proof.Claims.GlobalReadsGiveMemory : Prop :=
  ∀ (s s1 : State) (w : Who) (core slot gang ctx n pa : Nat) (va : DWord) (l1 fill : Bool), quiet s → pa % 32 + n ≤ 32 →
    (s.block? core slot).bind (fun b => b.stashMap? va) = none → s.translate core ctx va false n = (s1, .ok pa) →
    ∃ t g, s.globalRead w core slot gang ctx va n true l1 fill = (t, .ok g) ∧ t.mem = s.mem ∧ quiet t ∧
      ((l1 = true → Tbl.get? (s1.core core).l1 (pa / 128) = none) →
        g.bytes = s.mem.bytesAt pa n ∧ g.stamp = s.mem.stamp (pa / 32) ∧ g.bad = s.homeBad (pa / 32)) ∧
      ∀ x, l1 = true → Tbl.get? (s1.core core).l1 (pa / 128) = some x →
        g.bytes = (x.bytes.drop (pa % 128)).take n ∧ g.stamp = x.stamps.getD (pa / 32 % 4) ancient ∧
          g.bad = x.poison.getD (pa / 32 % 4) false

/-- R183, R186: LDX and LDW: what they post, and what their reads give. -/
def Obligations.LoadsArePosted : Prop :=
  Claims.LoadsPostWhatTheyRead ∧ Claims.LanesReadInOrder ∧ Claims.GlobalReadsGiveMemory

/-- R184: STX to plain scratchpad: with no test failing, every byte that a lane writes holds the value of the highest lane
that writes it, and every byte of the scratchpad outside the stored bytes, and all of device memory, is unchanged. -/
def Obligations.ScratchStoresWriteTheirBytes : Prop :=
  ∀ (s : State) (e : Env) (o : MemOp), s.env? = some e → o.wsel = 14 → o.ord = 0 →
    e.accepts (memHow o [.group o.d o.regs, .v o.voff]) → e.act ≠ 0 → bytesWf e.b.sp.bytes = true →
    e.memTests o (e.lanes o) (e.misaligned o (e.lanes o)) = none →
    e.storeFails o.bnd.toNat (fun j => e.groupStamp o.d.toNat o.regs j) = false →
    ∃ sp old late heads, exec (.stx o) s = .next (e.completes (memHow o [.group o.d o.regs, .v o.voff])
        (.done ({ s with heads := heads }.onBlock e.core e.slot fun b =>
          { b with sp := sp, spOld := old, spLate := late }) none)) ∧
      (∀ a, (∀ q ∈ e.lanes o, ∀ off, q.2 = .scratch off → a < off ∨ off + 2 ^ o.size.toNat ≤ a) →
        sp.byte a = e.b.sp.byte a) ∧
      (∀ L off a v, (L, LaneAddr.scratch off) ∈ e.lanes o → (a, v) ∈ laneStore e o L off →
        (∀ M of, L < M → (M, LaneAddr.scratch of) ∈ e.lanes o → a < of ∨ of + 2 ^ o.size.toNat ≤ a) →
        e.b.sp.bad (a / 32) = false → sp.byte a = v)

/-- The byte writes of a store to global memory, lane by lane: the lane, the virtual address, the byte (R184). -/
def Sys2Proof.Claims.globalStore (e : Env) (o : MemOp) : List (Nat × Nat × Byte) :=
  (e.lanes o).flatMap fun p =>
    match p.2 with
    | .global va => (laneStore e o p.1 va.toNat).map fun q => (p.1, q.1, q.2)
    | _ => []

/-- R184, R165, R207, R224: a sector of device memory as STX writes it, at an address that the stash does not map: with the sector's
address translated, each byte holds the value of the last lane that writes it and every other byte of device memory is as it was;
the stamp is Older(old, data), or the data's alone for a sector written whole (R184). A poisoned sector that is not written whole,
and an offline one, stay as they are (R217, R219). -/
def Sys2Proof.Claims.DeviceStoresWriteTheirBytes : Prop :=
  ∀ (s s1 : State) (e : Env) (o : MemOp) (rels : List Who → List Release) (sec base : Nat), o.wsel.toNat < 14 →
    (∀ q ∈ e.lanes o, ∃ va, q.2 = .global va) →
    (s.block? e.core e.slot).bind (fun b => b.stashMap? (BitVec.ofNat 64 (32 * sec))) = none → s.memOk →
    (∀ p ∈ s.blocks, ∀ l ∈ p.2.2.stash, l.2.dirty = false) →
    s.translate e.core e.b.ctx (BitVec.ofNat 64 (32 * sec)) true 32 = (s1, .ok base) → base % 32 = 0 →
    let w := e.storeBytes o (e.lanes o)
    let u := e.storeSectors o w rels s sec
    let whole : Prop := ∀ k, k < 32 → ∃ p ∈ w, p.2.1 = 32 * sec + k
    w = globalStore e o ∧
    (s.offline base = true ∨ (s.mem.bad (base / 32) = true ∧ ¬whole) → u.mem = s.mem) ∧
    (s.offline base = false → s.mem.bad (base / 32) = false ∨ whole →
      (∀ a, a < base ∨ base + 32 ≤ a → u.mem.byte a = s.mem.byte a) ∧
      (∀ k, k < 32 → (∀ p ∈ w, p.2.1 ≠ 32 * sec + k) → u.mem.byte (base + k) = s.mem.byte (base + k)) ∧
      (∀ k l1 L v l2, k < 32 → w = l1 ++ (L, 32 * sec + k, v) :: l2 → (∀ p ∈ l2, p.2.1 ≠ 32 * sec + k) →
        u.mem.byte (base + k) = v) ∧
      u.mem.bad (base / 32) = false ∧
      (whole → u.mem.stamp (base / 32) = if o.mode = 2 then e.now else e.sectorStamp o w sec) ∧
      (¬whole → u.mem.stamp (base / 32) = if o.mode = 2 then e.now else if o.mode = 1 then e.sectorStamp o w sec
        else older e.now (s.mem.stamp (base / 32)) (e.sectorStamp o w sec)))

/-- R184, R179, R182: STX as a whole: with no active lane it does nothing; a release waits; where every test passes its
sectors are written one by one and, if global, the write is outstanding until acknowledged (R233). -/
def Sys2Proof.Claims.StoresGoSectorBySector : Prop :=
  ∀ (s : State) (e : Env) (o : MemOp), s.env? = some e → e.accepts (memHow o [.group o.d o.regs, .v o.voff]) →
    (e.act = 0 → exec (.stx o) s = .next (e.completes (memHow o [.group o.d o.regs, .v o.voff]) (.done s none))) ∧
    (e.act ≠ 0 → e.memTests o (e.lanes o) (e.misaligned o (e.lanes o)) = none →
      (∀ s1, e.releaseWait o = (s1, true) →
        exec (.stx o) s = .next (e.completes (memHow o [.group o.d o.regs, .v o.voff]) (.wait s1 .release))) ∧
      (∀ s1 s2 s3, e.releaseWait o = (s1, false) →
        e.storeBound o.bnd.toNat s1 (e.storeFails o.bnd.toNat fun j => e.groupStamp o.d.toNat o.regs j) = (s2, none) →
        s2.reach e.core e.slot e.gang (.word e.m) e.b.ctx true (2 ^ o.size.toNat) true (e.lanes o) = (s3, none, false) →
        exec (.stx o) s = .next (e.completes (memHow o [.group o.d o.regs, .v o.voff])
          (.done
            (let s4 := e.meetWheel o s3
             let t := (sectorsOf ((e.storeBytes o (e.lanes o)).map (·.2.1))).foldl
              (e.storeSectors o (e.storeBytes o (e.lanes o)) fun ws => s4.releases ws o.rel? e.mine) s4
             if o.wsel.toNat ≤ 13 then t.onGang e.core e.slot e.gang fun g => { g with outst := g.outst ++ [(0, 0)] } else t)
            none))))

/-- R182, R184: STX completes sector by sector, and what a sector of device memory then holds. -/
def Obligations.StoresComplete : Prop := Claims.StoresGoSectorBySector ∧ Claims.DeviceStoresWriteTheirBytes

/-- R185, R179, R182, R188: ATOM is accepted as a pending result with its lanes in ascending order, each with its address, its
operand and its comparand; it writes nothing as it issues. A release waits; a failing store-side check is a late fault.
That it is performed as its result returns is the model's choice (log 7). -/
def Sys2Proof.Claims.AtomsArePosted : Prop :=
  ∀ (s : State) (e : Env) (o : MemOp), s.env? = some e →
    let h := memHow o [.group o.d o.atomGroup, .v o.voff]
    let n := 2 ^ o.size.toNat
    e.accepts h →
    (e.act = 0 → exec (.atom o) s = .next (e.completes h (.done s none))) ∧
    (e.act ≠ 0 → e.memTests o (e.lanes o) (e.misaligned o (e.lanes o)) = none →
      (∀ s1, e.releaseWait o = (s1, true) → exec (.atom o) s = .next (e.completes h (.wait s1 .release))) ∧
      (∀ s1, e.releaseWait o = (s1, false) →
        let B := e.storeBound o.bnd.toNat s1 (e.storeFails o.bnd.toNat fun j => e.groupStamp o.operandReg o.regs j)
        (∀ s2 c, B = (s2, some c) → exec (.atom o) s = .next (e.completes h (.late s2 c))) ∧
        (∀ s2, B = (s2, none) → ∃ p a, posts e h (e.meetWheel o s2) p (exec (.atom o) s) ∧ p.slices = e.m ∧ p.ord = e.pc ∧
          p.returned = false ∧ p.tr = false ∧ p.bnd = o.bnd ∧ p.acq = (if o.ord.getLsbD 0 then some o.scope else none) ∧
          p.fail = none ∧ (o.ord = 0 → (e.meetWheel o s2).mem = s.mem) ∧ (∃ vals secs adr, p.val = .lanes o.d.toNat e.act vals secs adr) ∧ p.atom = some a ∧ a.o = o ∧
          a.lanes = (e.lanes o).map fun q =>
            { lane := q.1, adr := q.2, b := leVal (e.laneBytes o.operandReg n q.1), cmp := leVal (e.laneBytes o.d.toNat n q.1)
              bs := e.groupStamp o.operandReg o.regs (q.1 / 4) })))

/-- The stamp rule of an atomic's write by its stamp mode (R185). -/
def Sys2Proof.Claims.atomStamp (o : MemOp) (now bs old : Stamp) : Stamp :=
  if o.mode = 2 then now else if o.mode = 1 then bs else older now old bs

/-- R185: the lanes of an ATOM on the scratchpad, one after another in ascending order: the first lane gets the old value of its
bytes, which take the value that the operation gives, with the stamp by the mode; a compare-and-swap that fails leaves the
scratchpad as it is; then come the other lanes. A poisoned sector stays as it is. -/
def Sys2Proof.Claims.ScratchLanesPerform : Prop :=
  ∀ (s : State) (core slot gang ctx : Nat) (now : Stamp) (o : MemOp) (rels : List Release) (x : AtomLane)
    (r : List AtomLane) (b : Block) (off : Nat), x.adr = .scratch off → s.block? core slot = some b →
    let n := 2 ^ o.size.toNat
    let old := b.sp.nat off n
    let new := atomSpec o.aop.toNat n old x.b x.cmp
    let first : Got := ⟨b.sp.bytesAt off n, b.sp.stamp (off / 32), b.sp.bad (off / 32)⟩
    ∃ t : State, (let R := t.atomLanes core slot gang ctx now o rels r
        s.atomLanes core slot gang ctx now o rels (x :: r) = (R.1, (x.lane, first) :: R.2.1, R.2.2)) ∧ t.mem = s.mem ∧
      ∃ b', t.block? core slot = some b' ∧ b' = { b with sp := b'.sp, spOld := b'.spOld, spLate := b'.spLate } ∧
        ((b.sp.bad (off / 32) = true ∨ new = none) → b' = b) ∧
        (b.sp.bad (off / 32) = false → ∀ y, new = some y → b.sp.wf = true → off % n = 0 → n ≤ 32 →
          (∀ a, a < off ∨ off + n ≤ a → b'.sp.byte a = b.sp.byte a) ∧ b'.sp.nat off n = y % 2 ^ (8 * n) ∧
          b'.sp.stamp (off / 32) = atomStamp o now x.bs (b.sp.stamp (off / 32)) ∧
          ∀ i, i ≠ off / 32 → b'.sp.stamp i = b.sp.stamp i)

/-- R185, R207, R226: the same for a lane whose address the stash does not serve: the bytes lie in device memory at the translated
address, read and written in one atomic step. -/
def Sys2Proof.Claims.DeviceLanesPerform : Prop :=
  ∀ (s s1 : State) (core slot gang ctx : Nat) (now : Stamp) (o : MemOp) (rels : List Release) (x : AtomLane)
    (r : List AtomLane) (va : DWord) (pa : Nat), x.adr = .global va →
    (o.scope.toNat ≤ 2 → (s.block? core slot).bind (fun b => b.stashMap? va) = none) →
    let n := 2 ^ o.size.toNat
    s.translate core ctx va true n = (s1, .ok pa) → pa % n = 0 → n ≤ 32 → s.memOk →
    (∀ p ∈ s.blocks, ∀ l ∈ p.2.2.stash, l.2.dirty = false) →
    let new := atomSpec o.aop.toNat n (s.mem.nat pa n) x.b x.cmp
    ∃ t : State, (let R := t.atomLanes core slot gang ctx now o rels r
        s.atomLanes core slot gang ctx now o rels (x :: r) =
          (R.1, (x.lane, ⟨s.mem.bytesAt pa n, s.mem.stamp (pa / 32), s.homeBad (pa / 32)⟩) :: R.2.1, R.2.2)) ∧
      ((s.homeBad (pa / 32) = true ∨ new = none) → t.mem = s.mem) ∧
      (s.homeBad (pa / 32) = false → ∀ y, new = some y →
        (∀ a, a < pa ∨ pa + n ≤ a → t.mem.byte a = s.mem.byte a) ∧ t.mem.nat pa n = y % 2 ^ (8 * n) ∧
        t.mem.stamp (pa / 32) = atomStamp o now x.bs (s.mem.stamp (pa / 32)) ∧
        ∀ i, i ≠ pa / 32 → t.mem.stamp i = s.mem.stamp i)

/-- R185, R120: a pending ATOM performed: where every lane can be reached, its lanes in order, and its result is what they got; a
lane that cannot be reached or a poisoned sector gives a late fault, before any of the writes. -/
def Sys2Proof.Claims.PendingAtomsPerform : Prop :=
  ∀ (s : State) (core slot gang ctx : Nat) (p : Pend) (a : AtomReq) (t : State), p.atom = some a →
    let stash := decide (a.o.scope.toNat ≤ 2)
    let l := a.lanes.map fun x => (x.lane, x.adr)
    let n := 2 ^ a.o.size.toNat
    let R := (if stash then s else s.atomUnmap core slot gang l).reach core slot gang (.result p.id) ctx true n stash l
    (∀ c, R = (t, c, true) → s.performAtom core slot gang ctx p = .wait t) ∧
    (∀ c, R = (t, some c, false) → s.performAtom core slot gang ctx p = .late t c) ∧
    (R = (t, none, false) →
      let A := t.acquiring (groupWho core slot gang p.slices) p.acq fun u =>
        u.atomLanes core slot gang ctx (u.now ctx) a.o a.rels a.lanes
      (∀ c, A.2.2 = some c → s.performAtom core slot gang ctx p = .late t c) ∧
      (A.2.2 = none → A.2.1.any (·.2.bad) = true → s.performAtom core slot gang ctx p = .late t .poison) ∧
      (A.2.2 = none → A.2.1.any (·.2.bad) = false → ∀ reg m v0 st0 adr, p.val = .lanes reg m v0 st0 adr →
        ∃ u q, s.performAtom core slot gang ctx p = .ok t u q ∧
          u = (if a.o.wsel.toNat ≤ 13 then A.1.onGang core slot gang fun g => { g with outst := g.outst ++ [(0, 0)] } else A.1) ∧
          ∃ vals secs, q.val = .lanes reg m vals secs adr ∧ vals.length = groupSize a.o ∧
            ∀ L x, L < 32 → A.2.1.find? (·.1 == L) = some (L, x) → vat secs ancient L = x.stamp ∧
              ∀ k v, vals[k]? = some v → lane v L = BitVec.ofNat 32 (leVal ((x.bytes.drop (4 * k)).take 4))))

/-- R185: ATOM: what it posts, and what its lanes do on the scratchpad and on device memory. -/
def Obligations.ScratchAtomicsPerform : Prop :=
  Claims.AtomsArePosted ∧ Claims.ScratchLanesPerform ∧ Claims.DeviceLanesPerform ∧ Claims.PendingAtomsPerform

/-- R173, R175, R187: a line of the block's stash as STFLUSH (policy 2) or STUNMAP (policy 3) finds it: a dirty line is written
back, its bytes, stamps and poison to device memory at its physical address and nowhere else, and the write-back is a write of the
gang; the line then stays clean, or with STUNMAP leaves the stash; a clean line writes nothing. -/
def Sys2Proof.Claims.StashLinesGoBack : Prop :=
  ∀ (s : State) (e : Env) (w : Who) (va : DWord) (b : Block) (g : Gang) (l : StashLine) (n : Nat),
    s.block? e.core e.slot = some b → b.gangs[e.gang]? = some g → (e.b.stashMap? va).isSome = true → s.memOk →
    rising b.stash = true →
    Tbl.get? b.stash (va.toNat % 2 ^ 57 / 128) = some l → l.pa % 128 = 0 → l.bytes.length = 128 → n = 2 ∨ n = 3 →
    let u := e.prefLine w n s va
    (l.dirty = false → u.mem = s.mem ∧ u.gang? e.core e.slot e.gang = some g) ∧
    (l.dirty = true → s.memReady l.pa = true → s.offline l.pa = false →
      (∀ k, k < 128 → some (u.mem.byte (l.pa + k)) = l.bytes[k]?) ∧
      (∀ a, a < l.pa ∨ l.pa + 128 ≤ a → u.mem.byte a = s.mem.byte a) ∧
      (∀ k, k < 4 → u.mem.stamp (l.pa / 32 + k) = l.stamps.getD k ancient ∧ u.mem.bad (l.pa / 32 + k) = l.poison.getD k false) ∧
      u.gang? e.core e.slot e.gang = some { g with outst := g.outst ++ [(0, 0)] }) ∧
    ∃ b', u.block? e.core e.slot = some b' ∧
      (n = 2 → ∃ x, Tbl.get? b'.stash (va.toNat % 2 ^ 57 / 128) = some x ∧ x.dirty = false ∧ x.pa = l.pa) ∧
      (n = 3 → Tbl.get? b'.stash (va.toNat % 2 ^ 57 / 128) = none)

/-- R187: the prefetch words act lane by lane, line by line, on the global addresses of the active lanes, and a lane one of
whose lines would fault changes nothing but what its translations do; on a scratchpad they do nothing; they never fault. -/
def Sys2Proof.Claims.PrefetchLanesAct : Prop :=
  ∀ (s : State) (e : Env) (o : MemOp) (i : Instr) (n : Nat), s.env? = some e → e.accepts (memHow o [.v o.voff]) →
    ((i = .pref o ∧ n = o.policy.toNat) ∨ (i = .stflush o ∧ n = 2) ∨ (i = .stunmap o ∧ n = 3)) →
    (14 ≤ o.wsel.toNat → exec i s = .next (e.completes (memHow o [.v o.voff]) (.done s none))) ∧
    (o.wsel.toNat < 14 → exec i s = .next (e.completes (memHow o [.v o.voff])
      (.done ((e.lanes o).foldl (e.prefLane o n) s) none))) ∧
    (∀ (t t1 : State) (L : Nat) (va x : DWord), linesOf va (2 ^ o.size.toNat) = [x] → e.prefOk n t x = (t1, true) →
      e.prefLane o n t (L, .global va) = e.prefLine (.slice e.core e.slot e.gang (L / 4)) n t1 x) ∧
    (∀ (t t1 : State) (L : Nat) (va x : DWord), linesOf va (2 ^ o.size.toNat) = [x] → e.prefOk n t x = (t1, false) →
      e.prefLane o n t (L, .global va) = t1)

/-- R173, R175, R187: the prefetch words, and what STFLUSH and STUNMAP do to the lines of a stash. -/
def Obligations.PrefetchWordsComplete : Prop := Claims.PrefetchLanesAct ∧ Claims.StashLinesGoBack

/-- R271, R280, R275: a FERRY word: its five tests in order: the shape (0x50, detail 1), the bounds of its scratchpad sides
(0x24), their alignment and that of its global sides (0x20), the pending tag (0x51), a global side that meets a range mapped into
the stash (0x50, detail 5); where they pass the tag becomes pending, its flags clear, and the command is held until it is admitted,
at once where it can be. -/
def Obligations.FerryWordsIssue : Prop :=
  ∀ (s : State) (e : Env) (i : Instr) (o : FerryOp) (k : FerryKind), s.env? = some e → FerryWord i o k →
    let h : How := ⟨o.s, o.c, .mem, 2, false, [.v o.vdst, .v o.vsrc]⟩
    let c := e.ferryCmd o k
    e.accepts h →
    (e.act = 0 → exec i s = .next (e.completes h (.done s none))) ∧
    (e.act ≠ 0 → c.shapeOk = false → exec i s = .next (e.completes h (.fault s 0x50 1))) ∧
    (e.act ≠ 0 → c.shapeOk = true →
      (e.b.sideFits c.src c.srcWheel c.size = false ∨ (k ≠ .s2s ∧ e.b.sideFits c.dst c.dstWheel c.size = false)) →
      exec i s = .next (e.completes h (.fault s 0x24 0))) ∧
    (e.act ≠ 0 → c.shapeOk = true →
      e.b.sideFits c.src c.srcWheel c.size = true → (k = .s2s ∨ e.b.sideFits c.dst c.dstWheel c.size = true) →
      (sideAligned c.src c.srcWheel c.esize = false ∨ sideAligned c.dst c.dstWheel c.esize = false) →
      exec i s = .next (e.completes h (.fault s 0x20 0))) ∧
    (e.act ≠ 0 → c.shapeOk = true →
      e.b.sideFits c.src c.srcWheel c.size = true → (k = .s2s ∨ e.b.sideFits c.dst c.dstWheel c.size = true) →
      sideAligned c.src c.srcWheel c.esize = true → sideAligned c.dst c.dstWheel c.esize = true →
      (e.b.tagpend.getLsbD o.tag.toNat = true → exec i s = .next (e.completes h (.fault s 0x51 o.tag.toNat))) ∧
      (e.b.tagpend.getLsbD o.tag.toNat = false →
        (e.b.meetsStash c c.src = true ∨ (k ≠ .egh ∧ k ≠ .egp ∧ e.b.meetsStash c c.dst = true)) →
        exec i s = .next (e.completes h (.fault s 0x50 5))) ∧
      (e.b.tagpend.getLsbD o.tag.toNat = false → e.b.meetsStash c c.src = false →
        ((k = .egh ∨ k = .egp) ∨ e.b.meetsStash c c.dst = false) →
        exec i s = .next (e.completes h (.hold
          (s.onBlock e.core e.slot fun b => { b with
            tagpend := b.tagpend ||| 1 <<< o.tag.toNat
            tags := b.tags &&& ~~~((1 : DWord) <<< o.tag.toNat)
            tagerr := b.tagerr &&& ~~~((1 : DWord) <<< o.tag.toNat) })
          .ferry
          fun t =>
            let u := (t.forget (.tag e.core e.slot o.tag.toNat)).join [.tag e.core e.slot o.tag.toNat]
              (·.covers (.before e.core e.slot e.gang false))
            (u.setCore e.core { u.core e.core with
              ferryWait := (u.core e.core).ferryWait ++ [(e.slot, e.gang, e.m, c)] }).ferryTry e.core e.slot e.gang e.m)))) ∧
    ∀ (x : FerryCmd) (va : DWord), e.b.shape.stash ≠ 0 → x.pitch = c.pitch → x.shape = c.shape →
      (e.b.meetsStash x (.global va) = true ↔ ∃ p ∈ c.rows, ∃ i, i < c.tx * c.esize ∧ ∃ m ∈ e.b.maps,
        let a := (c.globalRow va p.1 p.2 + i) % 2 ^ 64
        (a < 2 ^ 56 ∨ 2 ^ 64 - 2 ^ 56 ≤ a) ∧ m.1 ≤ a % 2 ^ 57 ∧ a % 2 ^ 57 < m.1 + m.2.1)

/-- R281: the tag words: TAGWAIT completes when its condition holds and waits otherwise; TAGFIND gives the lowest complete
tag of the mask, 64 where there is none; TAGRD the flags; TAGCLR clears both words at the mask. -/
def Obligations.TagWordsComplete : Prop :=
  ∀ (s : State) (e : Env) (sb c : Bool), s.env? = some e → e.accepts (engHow sb c) →
    (∀ (w : BitVec 4), let m := (e.wreg w).val
      ((m = 0 ∨ e.b.tags &&& m ≠ 0) →
        exec (.tagwaitAny sb c w) s = .next (e.completes (engHow sb c) (.done s none))) ∧
      ((m ≠ 0 ∧ e.b.tags &&& m = 0) →
        exec (.tagwaitAny sb c w) s = .next (e.completes (engHow sb c) (.wait s .tagwait))) ∧
      (e.b.tags &&& m = m → exec (.tagwaitAll sb c w) s = .next (e.completes (engHow sb c) (.done s none))) ∧
      (e.b.tags &&& m ≠ m → exec (.tagwaitAll sb c w) s = .next (e.completes (engHow sb c) (.wait s .tagwait))) ∧
      blockDone e (engHow sb c) (fun b => { b with tags := b.tags &&& ~~~m, tagerr := b.tagerr &&& ~~~m })
        (exec (.tagclr sb c w) s)) ∧
    (∀ (x : Bool) (d : BitVec 4),
      setsUniform e (engHow sb c) d ⟨if x then e.b.tagerr else e.b.tags, ageless⟩ (exec (.tagrd sb c x d) s)) ∧
    (∀ (d w : BitVec 4) (n : Nat), n ≤ 64 → (∀ i, i < n → (e.b.tags &&& (e.wreg w).val).getLsbD i = false) →
      (n < 64 → (e.b.tags &&& (e.wreg w).val).getLsbD n = true) →
      setsUniform e (engHow sb c) d ⟨BitVec.ofNat 64 n, ageless⟩ (exec (.tagfind sb c d w) s))

/-- R263, R264: the stamp words. STGET, STAGE and STNOW write a stamp, an age or the present as data with stamp AGELESS;
STSET, STAGELESS and STOLD write the stamps of the slices with an active lane and nothing else, the first two with the
restamp right alone (0x31). -/
def Obligations.StampWordsComplete : Prop :=
  ∀ (s : State) (e : Env) (sb c : Bool) (d a : BitVec 7) (b : BitVec 6), s.env? = some e →
    (e.accepts (sysHow sb c .fma [.v d, .v a]) →
      e.writes s (sysHow sb c .fma [.v d, .v a]) d.toNat false
        (fun L => BitVec.ofNat 32 (srcSt e a (L / 4)).toNat) (fun _ => ageless) (exec (.stget sb c d a) s) ∧
      e.writes s (sysHow sb c .fma [.v d, .v a]) d.toNat false
        (fun L => match age e.now (srcSt e a (L / 4)) with
          | some n => BitVec.ofNat 32 n
          | none => 0xFFFFFFFF) (fun _ => ageless) (exec (.stage sb c d a) s)) ∧
    (e.accepts (sysHow sb c .fma [.v d]) →
      e.writes s (sysHow sb c .fma [.v d]) d.toNat false (fun _ => BitVec.ofNat 32 e.now.toNat) (fun _ => ageless)
        (exec (.stnow sb c d) s)) ∧
    (∀ i l f, (i = Instr.stset sb c d a ∧ l = [.v d, .v a] ∧ f = fun j =>
            (lane (e.reg a.toNat).lanes (lowLane e.act j)).extractLsb' 0 24) ∨
          (i = Instr.stageless sb c d ∧ l = [.v d] ∧ f = fun _ => ageless) ∨
          (i = Instr.stold sb c d a b ∧ l = [.v d, .v a, .strict b.toNat] ∧ f = fun j =>
            older e.now (srcSt e a j) (stampAt (e.reg b.toNat).stamps j)) →
      e.accepts (sysHow sb c .fma l) →
      ((e.s.ctx e.b.ctx).restamp = false → i ≠ Instr.stold sb c d a b →
        exec i s = .next (e.completes (sysHow sb c .fma l) (.fault s 0x31 0))) ∧
      (((e.s.ctx e.b.ctx).restamp = true ∨ i = Instr.stold sb c d a b) →
        ∃ g, gangDone e (sysHow sb c .fma l) g (exec i s) ∧
          g = { e.g with v := g.v, window := g.window, pend := g.pend } ∧ (d = 126 → g = e.g) ∧
          (∀ r, (g.bank r).lanes = (e.g.bank r).lanes) ∧ (∀ r, r ≠ d.toNat → g.bank r = e.g.bank r) ∧
          (d ≠ 126 → ∀ j, j < 8 → stampAt (g.bank d.toNat).stamps j =
            if nib e.act j = 0 then stampAt (e.g.bank d.toNat).stamps j else f j)))

/-- R124, R91: MBWR fills a mailbox that is empty where no other writer waits before it, and queues otherwise, once; MBRD posts
its read, an acquire, and queues as a reader; MBPEEK tells whether the mailbox is full. -/
def Obligations.MailboxWordsComplete : Prop :=
  ∀ (s : State) (e : Env) (sb c : Bool) (m w : BitVec 4) (b : Mailbox), s.env? = some e → e.accepts (engHow sb c) →
    vat e.b.mbs Mailbox.empty m.toNat = b →
    let me := Waiter.group e.gang e.m
    let read := Waiter.read e.gang e.g.pid
    let first := b.writers = [] ∨ b.writers.head? = some me
    let put (y : Mailbox) (x : Block) : Block := { x with mbs := vput x.mbs m.toNat y }
    (b.full = false → first →
      blockDone e (engHow sb c) (put { b with v := e.wreg w, full := true, writers := b.writers.filter (· != me) })
        (exec (.mbwr sb c m w) s)) ∧
    (b.full = true ∨ ¬first →
      exec (.mbwr sb c m w) s = .next (e.completes (engHow sb c) (.wait
        (s.onBlock e.core e.slot (put { b with writers := if me ∈ b.writers then b.writers else b.writers ++ [me] }))
        (.mbwr m)))) ∧
    posts e (engHow sb c)
      (s.onBlock e.core e.slot (put { b with readers := if read ∈ b.readers then b.readers else b.readers ++ [read] }))
      { Pend.new e.m e.pc (.mail w m) 0 with acq := some 2 } (exec (.mbrd sb c m w) s) ∧
    setsUniform e (engHow sb c) w ⟨if b.full then 1 else 0, ageless⟩ (exec (.mbpeek sb c m w) s)

/-- R130, R131, R133, R171: the barrier and wheel words: the double arrival (0x40), the invalid wheel (0x42) and the scope
(0x41) fault; a wheel with no stage to give waits; else the slices of the group arrive, and BAR, QBAR and NBAR wait for the
barrier, BARW for an earlier arrival, BOWAIT for its object, whose phase it acquires (R229). -/
def Sys2Proof.Claims.BarrierWordsIssue : Prop :=
  ∀ (s : State) (e : Env) (sb c : Bool), s.env? = some e → e.accepts (engHow sb c) →
    (∀ b : BitVec 4, let old := (vat e.b.bars ⟨0, false⟩ b.toNat).mask.getLsbD e.gang
      (old = true → ∀ i, i = Instr.bar sb c b ∨ i = Instr.bara sb c b →
        exec i s = .next (e.completes (engHow sb c) (.fault s 0x40 b.toNat))) ∧
      (old = false → exec (.bar sb c b) s = .next (e.completes (engHow sb c)
        (.hold s (.barArr b) fun t => t.issueArrival e.core e.slot e.gang b.toNat e.m))) ∧
      (old = false → exec (.bara sb c b) s = .next (e.completes (engHow sb c)
        (.leave s fun t => t.issueArrival e.core e.slot e.gang b.toNat e.m))) ∧
      (old = true → exec (.barw sb c b) s = .next (e.completes (engHow sb c) (.hold s (.barDone b) fun t => t))) ∧
      (old = false → exec (.barw sb c b) s = .next (e.completes (engHow sb c) (.done s none)))) ∧
    (∀ n : BitVec 2, let w := vat e.b.wheels (Wheel.start WheelDesc.none) n.toNat
      (w.desc.valid = false → ∀ i, i = Instr.fill sb c n ∨ i = Instr.drain sb c n →
        exec i s = .next (e.completes (engHow sb c) (.fault s 0x42 n.toNat))) ∧
      (w.desc.valid = true →
        ((w.f - w.p).toNat = w.desc.count →
          exec (.fill sb c n) s = .next (e.completes (engHow sb c) (.wait s .fillDrain))) ∧
        ((w.f - w.p).toNat ≠ w.desc.count → exec (.fill sb c n) s = .next (e.completes (engHow sb c)
          (.leave s fun t => t.issueArrival e.core e.slot e.gang (16 + n.toNat) e.m))) ∧
        (w.f = w.p → exec (.drain sb c n) s = .next (e.completes (engHow sb c) (.wait s .fillDrain))) ∧
        (w.f ≠ w.p → exec (.drain sb c n) s = .next (e.completes (engHow sb c)
          (.leave s fun t => t.issueArrival e.core e.slot e.gang (20 + n.toNat) e.m))))) ∧
    (let podn := ((s.inst? e.b.node).map fun x => x.recd.podn).getD 0
     (∀ i lv b, (i = Instr.qbar sb c b ∧ lv = 0 ∧ e.b.feeding = true) ∨
        (∃ l, i = Instr.nbar sb c l b ∧ lv = l.toNat + 1 ∧ e.b.cor = true ∧ (l = 2 → podn ≠ 0)) →
      ((Tbl.get? e.g.arr (132 + 16 * lv + b.toNat)).isSome = true →
        exec i s = .next (e.completes (engHow sb c) (.fault s 0x40 b.toNat))) ∧
      (Tbl.get? e.g.arr (132 + 16 * lv + b.toNat) = none →
        let t := if lv = 0 then s else s.stashBackAll e.core e.slot e.gang
        ∀ g, t.gang? e.core e.slot e.gang = some g →
          let open_ := g.pend.any (fun p => p.isLoad && !p.returned) || !(ackedFor g.outst (BitVec.ofNat 3 (3 + lv)))
          (open_ = true → exec i s = .next (e.completes (engHow sb c) (.wait t .release))) ∧
          (open_ = false → exec i s = .next (e.completes (engHow sb c)
            (.hold t (netArr lv b.toNat)
              fun u => u.issueArrival e.core e.slot e.gang (32 + 16 * lv + b.toNat) e.m))))) ∧
     (∀ b, e.b.feeding = false → exec (.qbar sb c b) s = .next (e.completes (engHow sb c) (.fault s 0x41 0))) ∧
     (∀ l b, e.b.cor = false ∨ (l = 2 ∧ podn = 0) →
       exec (.nbar sb c l b) s = .next (e.completes (engHow sb c) (.fault s 0x41 0)))) ∧
    (∀ w : BitVec 4, let off := (e.wreg w).val.toNat % 2 ^ 32
      (off % 16 ≠ 0 → exec (.bowait sb c w) s = .next (e.completes (engHow sb c) (.fault s 0x20 0))) ∧
      (off % 16 = 0 → e.b.shape.plain < off + 16 →
        exec (.bowait sb c w) s = .next (e.completes (engHow sb c) (.fault s 0x24 0))) ∧
      (off % 16 = 0 → off + 16 ≤ e.b.shape.plain →
        let d := (BitVec.ofNat 32 (e.b.sp.nat (off + 8) 4) - (e.wreg w).val.extractLsb' 32 32 : Word)
        (d.toNat < 2 ^ 31 → exec (.bowait sb c w) s = .next (e.completes (engHow sb c)
          (.done ((s.meetBlock e.core e.slot e.ws).landed e.core e.slot) none))) ∧
        (2 ^ 31 ≤ d.toNat → exec (.bowait sb c w) s = .next (e.completes (engHow sb c) (.wait s (.bowait off))))))

/-- R169, R171: arrivals at a physical stage of a wheel. A stage whose phase is complete already discards the arrival; else the
stage's count rises; the arrival that completes the phase of the stage at the fill pointer moves F and its stage register on and
clears the count, and so for drains with P, which never passes F. No other stage changes. -/
def Sys2Proof.Claims.WheelPhasesComplete : Prop :=
  ∀ (w : Wheel) (st : Nat), rising w.fillc = true → rising w.drainc = true → 1 ≤ w.desc.count →
    (let c := Tbl.getD w.fillc st 0
     (c = w.desc.fills + 1 → w.fillArrive st = none) ∧
     (c ≠ w.desc.fills + 1 → (∀ j, j ≠ st → Tbl.getD w.fillc j 0 ≠ w.desc.fills + 1) →
       ∃ x, w.fillArrive st = some x ∧ x = { w with fillc := x.fillc, f := x.f, fs := x.fs } ∧
         (∀ j, j ≠ st → Tbl.getD x.fillc j 0 = Tbl.getD w.fillc j 0) ∧
         (c = w.desc.fills ∧ st = w.fs → x.f = w.f + 1 ∧ x.fs = (w.fs + 1) % w.desc.count ∧ Tbl.getD x.fillc st 0 = 0) ∧
         (¬(c = w.desc.fills ∧ st = w.fs) → x.f = w.f ∧ x.fs = w.fs ∧ Tbl.getD x.fillc st 0 = c + 1))) ∧
    (let c := Tbl.getD w.drainc st 0
     (c = w.desc.drains + 1 → w.drainArrive st = none) ∧
     (c ≠ w.desc.drains + 1 → (∀ j, j ≠ st → Tbl.getD w.drainc j 0 ≠ w.desc.drains + 1) →
       ∃ x, w.drainArrive st = some x ∧ x = { w with drainc := x.drainc, p := x.p, ps := x.ps } ∧
         (∀ j, j ≠ st → Tbl.getD x.drainc j 0 = Tbl.getD w.drainc j 0) ∧
         (c = w.desc.drains ∧ st = w.ps ∧ w.f ≠ w.p →
           x.p = w.p + 1 ∧ x.ps = (w.ps + 1) % w.desc.count ∧ Tbl.getD x.drainc st 0 = 0) ∧
         (¬(c = w.desc.drains ∧ st = w.ps ∧ w.f ≠ w.p) → x.p = w.p ∧ x.ps = w.ps ∧ Tbl.getD x.drainc st 0 = c + 1)))

/-- R129, R169, R171: what an arrival of a gang does by its key: at a block barrier, a fill or drain arrival at the wheel's stage
register, an arrival at a quad or network barrier. An arrival that a wheel discards is counted. -/
def Sys2Proof.Claims.ArrivalsAct : Prop :=
  ∀ (s : State) (core slot gang : Nat) (b : Block), s.block? core slot = some b →
    (∀ n : BitVec 4, (s.arrive core slot gang n.toNat).block? core slot = some (b.barArrive gang n)) ∧
    (∀ n, n < 4 → let w := vat b.wheels (Wheel.start WheelDesc.none) n
      (∀ x, w.fillArrive w.fs = some x →
        s.arrive core slot gang (16 + n) = s.setBlock core slot { b with wheels := vput b.wheels n x }) ∧
      (w.fillArrive w.fs = none → s.arrive core slot gang (16 + n) = s.wheelDiscard core b.ctx) ∧
      (∀ x, w.drainArrive w.ps = some x →
        s.arrive core slot gang (20 + n) = s.setBlock core slot { b with wheels := vput b.wheels n x }) ∧
      (w.drainArrive w.ps = none → s.arrive core slot gang (20 + n) = s.wheelDiscard core b.ctx)) ∧
    (∀ level n, level < 4 → n < 16 → s.arrive core slot gang (32 + 16 * level + n) = s.netGang core slot gang level n)

/-- R130, R131, R133, R169, R171: the barrier and wheel words, and what arrivals do at wheels. -/
def Obligations.BarrierWordsComplete : Prop :=
  Claims.BarrierWordsIssue ∧ Claims.WheelPhasesComplete ∧ Claims.ArrivalsAct

/-- R129: a gang arrives at a barrier or wheel when its last live slice has issued the word: each slice's count of words rises; when
no live slice is missing, one of each is taken and the arrival is made. -/
def Sys2Proof.Claims.GangsArrive : Prop :=
  ∀ (s : State) (core slot gang k : Nat) (g : Gang) (m : BitVec 8), s.gang? core slot gang = some g →
    let n (j : Nat) : Nat := vat ((Tbl.get? g.arr k).getD (Vector.replicate 8 0)) 0 j + if m.getLsbD j then 1 else 0
    let all := g.live ≠ 0 ∧ ∀ j, j < 8 → g.live.getLsbD j = true → n j ≠ 0
    ∃ a, (∀ i, i ≠ k → Tbl.get? a i = Tbl.get? g.arr i) ∧ (∃ v, Tbl.get? a k = some v ∧
        (all → ∀ j, j < 8 → vat v 0 j = if g.live.getLsbD j then n j - 1 else 0) ∧ (¬all → ∀ j, j < 8 → vat v 0 j = n j)) ∧
      (all → s.issueArrival core slot gang k m = (s.onGang core slot gang fun _ => { g with arr := a }).arrive core slot gang k) ∧
      (¬all → s.issueArrival core slot gang k m = s.onGang core slot gang fun _ => { g with arr := a })

/-- R130: the arrival of a block's last gang completes the barrier: the mask clears, the phase toggles, and every gang that waits
goes on after its word; till then the arriving gang waits. -/
def Sys2Proof.Claims.LastArrivalCompletes : Prop :=
  ∀ (x : Block) (i : Nat) (b : BitVec 4), i < x.gangs.length →
    let old := vat x.bars ⟨0, false⟩ b.toNat
    let mask := old.mask ||| BitVec.ofNat 16 (2 ^ i)
    (mask ≠ BitVec.ofNat 16 (2 ^ x.shape.gangs - 1) →
      vat (x.barArrive i b).bars ⟨0, false⟩ b.toNat = ⟨mask, old.phase⟩ ∧
      (∀ k g, k ≠ i → x.gangs[k]? = some g → (x.barArrive i b).gangs[k]? = some g) ∧
      ∀ g, x.gangs[i]? = some g → (x.barArrive i b).gangs[i]? = some { g with
        groups := g.groups.map fun y => if y.wait = .barArr b then { y with wait := .barDone b } else y }) ∧
    (mask = BitVec.ofNat 16 (2 ^ x.shape.gangs - 1) →
      vat (x.barArrive i b).bars ⟨0, false⟩ b.toNat = ⟨0, !old.phase⟩ ∧
      ∀ (k : Nat) (g : Gang), x.gangs[k]? = some g →
        let go (y : Group) : Group := { y with wait := .none, pc := y.pc + 1, held := none }
        let l := g.groups.map fun y => if y.wait = .barDone b ∨ (k = i ∧ y.wait = .barArr b) then go y else y
        (x.barArrive i b).gangs[k]? = some { g with groups := l })

/-- R129, R131: a gang's arrival at a quad (level 0), die (1), package (2) or pod (3) barrier: its groups wait for the completion;
the last gang's is the arrival of the block. The barrier counts the blocks that have arrived; the last that it expects completes a
quad, die or package barrier: its count clears, its phase toggles, and in every block of the instance, on that die for a die
barrier, the groups that wait go on after their word. A pod barrier's last arrival goes to its home (R132). -/
def Sys2Proof.Claims.NetworkBarriersComplete : Prop :=
  ∀ (s : State) (level b : Nat),
    (∀ core slot gang x g, s.block? core slot = some x → x.gangs[gang]? = some g →
      let t := s.onGang core slot gang fun _ => { g with
        groups := g.groups.map fun y => if y.wait = netArr level b then { y with wait := netDone level b } else y
        arr := Tbl.set g.arr (132 + 16 * level + b) (Vector.replicate 8 1) }
      ((∃ i h, i ≠ gang ∧ x.gangs[i]? = some h ∧ Tbl.get? h.arr (132 + 16 * level + b) = none) →
        s.netGang core slot gang level b = t) ∧
      ((∀ i h, i ≠ gang → x.gangs[i]? = some h → (Tbl.get? h.arr (132 + 16 * level + b)).isSome = true) →
        s.netGang core slot gang level b = t.netArrive core x.node x.lin level b)) ∧
    (∀ core node lin, let isle := if level = 1 then isleOf core else 0
      let n := s.net node level isle b
      let t := s.netArrive core node lin level b
      let u := s.setNet { n with count := n.count + 1, arrived := n.arrived ++ [lin] }
      (n.count + 1 < s.netExpect node level isle → t = u) ∧
      (s.netExpect node level isle ≤ n.count + 1 → level = 3 → t = u.podArrive node b n.phase) ∧
      (s.netExpect node level isle ≤ n.count + 1 → level ≠ 3 →
        t.net node level isle b = { n with count := 0, phase := !n.phase, arrived := [] } ∧ t.mem = s.mem ∧
        ((s.blocks.map fun p => (p.1, p.2.1)).Nodup → ∀ c sl y, s.block? c sl = some y →
          (y.node = node → (level = 1 → isleOf c = isle) → t.block? c sl = some { y with gangs := y.gangs.map fun g => { g with
            groups := g.groups.map fun z =>
              if z.wait = netDone level b then { z with wait := .none, pc := z.pc + 1, held := none } else z
            arr := Tbl.erase g.arr (132 + 16 * level + b) } }) ∧
          (y.node ≠ node ∨ (level = 1 ∧ isleOf c ≠ isle) → t.block? c sl = some y))))

/-- R129 to R132: when a gang arrives, and what the last arrival at a block, quad, die or package barrier does. -/
def Obligations.BlockBarrierCompletes : Prop :=
  Claims.GangsArrive ∧ Claims.LastArrivalCompletes ∧ Claims.NetworkBarriersComplete

/-- R340, R351, R335: CONTAIN needs every live slice in the group (0x73) and room for four handlers (0x72); STEP raises the
step count of the block to its operand; in a context that is being cut a gang whose block is at the cut waits before the
word, and one whose STEP raises the count to the cut waits after it; where no stop site precedes the word it goes on and is asked
to stop at its next one. -/
def Sys2Proof.Claims.ContainAndStepComplete : Prop :=
  ∀ (s : State) (e : Env) (sb c : Bool), s.env? = some e → e.accepts (sysHow sb c .sf []) →
    let h := sysHow sb c .sf []
    (∀ j : BitVec 20,
      (e.m ≠ e.g.live → exec (.containOpen sb c j) s = .next (e.completes h (.fault s 0x73 0))) ∧
      (e.m = e.g.live → 4 ≤ e.g.stack.length → exec (.containOpen sb c j) s = .next (e.completes h (.fault s 0x72 0))) ∧
      (e.m = e.g.live → e.g.stack.length < 4 →
        gangDone e h { e.g with stack := (e.pc + BitVec.ofInt 32 j.toInt) :: e.g.stack } (exec (.containOpen sb c j) s))) ∧
    ((e.m ≠ e.g.live ∨ e.g.stack = []) → exec (.containClose sb c) s = .next (e.completes h (.fault s 0x73 0))) ∧
    (e.m = e.g.live → ∀ x l, e.g.stack = x :: l → gangDone e h { e.g with stack := l } (exec (.containClose sb c) s)) ∧
    (∀ n : BitVec 16, (s.ctx e.b.ctx).cut = none →
      blockDone e h (fun b => { b with sc := BitVec.ofNat 16 (max b.sc.toNat n.toNat) }) (exec (.step sb c n) s)) ∧
    (∀ n t : BitVec 16, (s.ctx e.b.ctx).cut = some t → t.toNat ≤ e.b.sc.toNat → e.b.afterSite e.g e.pc = true →
      exec (.step sb c n) s = .next (e.completes h (.wait s .stepCut))) ∧
    (∀ n t : BitVec 16, (s.ctx e.b.ctx).cut = some t →
      let s1 := s.onBlock e.core e.slot fun b => { b with sc := BitVec.ofNat 16 (max b.sc.toNat n.toNat) }
      (max e.b.sc.toNat n.toNat < t.toNat → exec (.step sb c n) s = .next (e.completes h (.done s1 none))) ∧
      (t.toNat ≤ max e.b.sc.toNat n.toNat → e.b.sc.toNat < t.toNat → e.b.afterSite e.g e.pc = true →
        exec (.step sb c n) s = .next (e.completes h (.leave s1 fun u => u.onGang e.core e.slot e.gang fun g =>
          { g with groups := g.groups.map fun y => if y.mask = e.m then { y with wait := .stepped } else y }))) ∧
      (t.toNat ≤ max e.b.sc.toNat n.toNat → e.b.afterSite e.g e.pc = false →
        exec (.step sb c n) s = .next (e.completes h (.done (s1.onGang e.core e.slot e.gang fun g =>
          if g.req = .none then { g with req := .cut } else g) none))))

/-- R346: TRAP and BRK issue, each slice's PC is the word after; TRAP then faults with its number; BRK halts the gang and
posts an event in a context with debugging on, and is counted in BRK_IGNORED otherwise. -/
def Sys2Proof.Claims.TrapAndBreakComplete : Prop :=
  ∀ (s : State) (e : Env) (sb c : Bool) (n : BitVec 16), s.env? = some e → e.accepts (sysHow sb c .sf []) →
    exec (.trap sb c n) s = .next (e.completes (sysHow sb c .sf [])
      (.leave s fun t => t.wFault e.core e.slot e.gang e.m e.pc 0x70 n.toNat)) ∧
    ∃ k : State → State, exec (.brk sb c n) s = .next (e.completes (sysHow sb c .sf []) (.leave s k)) ∧
      ∀ t, ((t.ctx e.b.ctx).debug = false → k t = t.ctxCount e.b.ctx .brkIgnored) ∧
        ((t.ctx e.b.ctx).debug = true → k t =
          (t.onGang e.core e.slot e.gang fun g =>
            { g with st := .parked, halted := true, req := .none, reqEvent := false }).postEvent e.b.ctx
            ((t.onGang e.core e.slot e.gang fun g =>
              { g with st := .parked, halted := true, req := .none, reqEvent := false }).gangRecord
              e.core e.slot e.gang e.m e.pc false false n.toNat 0x71))

/-- R335, R340, R346, R351: CONTAIN, STEP, TRAP and BRK. -/
def Obligations.ContainmentStepsAndTraps : Prop := Claims.ContainAndStepComplete ∧ Claims.TrapAndBreakComplete

/-- R189, R175, R194: FENCE waits until every earlier load and acquire has returned and every earlier write is acknowledged
for its scope, and for the ferry or cube commands of its kind; then it completes. From QUAD scope on its L1 is emptied; no engine
reads the scratchpad after it as it stood before the gang's earlier stores, and with a kind what those engines have written is
there (R236, R238). What the gang has read and written is in order before what follows it (R225, R228). -/
def Obligations.FencesWait : Prop :=
  ∀ (s : State) (e : Env) (sb c : Bool) (kind : BitVec 2) (scope : BitVec 3), s.env? = some e → e.accepts (engHow sb c) →
    let t := if 4 ≤ scope.toNat then s.stashBackAll e.core e.slot e.gang else s
    ∀ g, t.gang? e.core e.slot e.gang = some g →
      let open_ := g.pend.any (fun p => (p.isLoad || p.acq.isSome) && !p.returned) || !(ackedFor g.outst scope)
      let copies := kind.getLsbD 0 && (t.core e.core).ferry.any fun f => f.slot == e.slot && f.gang == e.gang
      let cube := kind.getLsbD 1 && e.b.feeding && !(t.core e.core).engIdle e.slot e.gang
      ((open_ || copies || cube) = true →
        exec (.fence sb c kind scope) s = .next (e.completes (engHow sb c) (.wait t .fence))) ∧
      ((open_ || copies || cube) = false →
        exec (.fence sb c kind scope) s = .next (e.completes (engHow sb c)
          (.done
            (let t1 := (t.onBlock e.core e.slot fun b => { b with spOld := [] }).fence e.ws e.mine scope
             let t2 := if kind.getLsbD 0 then t1.engineFence e.core e.slot e.gang e.m false else t1
             let t3 := if kind.getLsbD 1 && e.b.feeding then t2.engineFence e.core e.slot e.gang e.m true else t2
             (t3.system e.mine scope).acquireL1 e.core scope) none))) ∧
    ∀ (t : State) (b : Block), t.block? e.core e.slot = some b →
      let t1 := (t.onBlock e.core e.slot fun b => { b with spOld := [] }).fence e.ws e.mine scope
      (t1.mem = t.mem ∧ ∃ x, t1.block? e.core e.slot = some x ∧ x = { b with spOld := [] }) ∧
      (∀ cube, (t.engineFence e.core e.slot e.gang e.m cube).mem = t.mem ∧
        (t.engineFence e.core e.slot e.gang e.m cube).block? e.core e.slot = some { b with spLate := [] }) ∧
      ((t.system e.mine scope).acquireL1 e.core scope).mem = t.mem ∧
      (3 ≤ scope.toNat → (((t.system e.mine scope).acquireL1 e.core scope).core e.core).l1 = [])

/-- R310, R311: FEED and DRAIN: with no active lane they do nothing; in a block that feeds no cube they fault (0x62); FEED
with its tests passed and room enters its command, one that has waited for room without a second test (R313); the register form of DRAIN on a FULL bank posts 32 columns of a row. -/
def Obligations.FeedAndDrainIssue : Prop :=
  ∀ (s : State) (e : Env), s.env? = some e →
    (∀ i h, (∃ o, i = Instr.feedRegisterForm o ∧ h = ⟨o.s, o.c, .mem, 2, false, [.v o.va, .v o.vo]⟩) ∨
          (∃ o, i = Instr.feedMemoryForm o ∧ h = ⟨o.s, o.c, .mem, 2, false, [.v o.va, .v o.vo]⟩) ∨
          (∃ o, i = Instr.drainCubeRegisterForm o ∧ h = ⟨o.s, o.c, .mem, 2, false, [.v o.vd]⟩) ∨
          (∃ o, i = Instr.drainCubeMemoryForm o ∧ h = ⟨o.s, o.c, .mem, 2, false, [.v o.vd]⟩) →
      e.accepts h →
      (e.act = 0 → exec i s = .next (e.completes h (.done s none))) ∧
      (e.act ≠ 0 → e.b.feeding = false → e.grp.wait ≠ .feedRoom → exec i s = .next (e.completes h (.fault s 0x62 0)))) ∧
    (∀ o : FeedRegOp, let h : How := ⟨o.s, o.c, .mem, 2, false, [.v o.va, .v o.vo]⟩
      let dst := (lane (e.reg o.vo.toNat).lanes e.lowActive).toNat
      e.accepts h → e.act ≠ 0 → o.dw = false → (s.core e.core).eng.length < 8 →
      (e.grp.wait = .feedRoom ∨ (e.b.feeding = true ∧ o.bnd = 0 ∧ dst + 128 ≤ 2 ^ 20 ∧ dst % 32 = 0)) →
      exec (.feedRegisterForm o) s = .next (e.completes h (.done (s.addEng e.core fun id =>
        .feed id e.slot e.gang e.m e.pc none false (e.reg o.va.toNat).lanes
          ([0, 1, 2, 3].map fun i => older e.now (srcSt e o.va (2 * i)) (srcSt e o.va (2 * i + 1))) dst 4 0 none none [])
        none))) ∧
    (∀ o : FeedMemOp, let h : How := ⟨o.s, o.c, .mem, 2, false, [.v o.va, .v o.vo]⟩
      let dst := (lane (e.reg o.vo.toNat).lanes e.lowActive).toNat
      let x := (e.wreg o.ssel).val + BitVec.ofInt 64 (lane (e.reg o.va.toNat).lanes e.lowActive).toInt
      e.accepts h → e.act ≠ 0 → o.dw = false → o.ord = 0 → o.ssel.toNat < 14 → (s.core e.core).eng.length < 8 →
      (e.grp.wait = .feedRoom ∨
        (e.b.feeding = true ∧ dst + 32 * (o.len.toNat + 1) ≤ 2 ^ 20 ∧ dst % 32 = 0 ∧ x.toNat % 32 = 0)) →
      exec (.feedMemoryForm o) s = .next (e.completes h (.done (s.addEng e.core fun id =>
        .feed id e.slot e.gang e.m e.pc (some (.global x)) true (Vector.replicate 32 0) [] dst (o.len.toNat + 1) o.bnd none none [])
        none))) ∧
    (∀ o : DrainRegOp, let h : How := ⟨o.s, o.c, .mem, 2, false, [.v o.vd]⟩
      let k := s.cube (clusterOf e.core)
      let b := k.bank k.dp
      e.accepts h → e.act ≠ 0 → e.b.feeding = true → b.st = .full → o.bnd = 0 → s.bankBad e.b.ctx b = false →
      ∃ v p, (∀ i, i < 32 → lane v i = Tbl.getD b.d (o.row.toNat * 128 + 32 * o.seg.toNat + i) 0) ∧
        p = Pend.new e.m e.pc (.lanes o.vd.toNat e.act [v] (Vector.replicate 32 b.stamp) (Vector.replicate 32 0)) 1 ∧
        ∃ u, u.cube (clusterOf e.core) = (if o.arr then k.drainArrive else k) ∧ u.mem = s.mem ∧ u.cores = s.cores ∧
          posts e h u p (exec (.drainCubeRegisterForm o) s)) ∧
    (∀ o : DrainMemOp, let h : How := ⟨o.s, o.c, .mem, 2, false, [.v o.vd]⟩
      let k := s.cube (clusterOf e.core)
      let b := k.bank k.dp
      let es := drainSize o.fmt
      let pitch := (e.wreg 15).val.toNat / 2 ^ 10 % 2 ^ 24
      let dst := (lane (e.reg o.vd.toNat).lanes e.lowActive).toNat
      let ws := DrainMem.writes o b dst pitch
      e.accepts h → e.act ≠ 0 → e.b.feeding = true → b.st = .full → o.bnd = 0 → o.dsel = 14 →
      dst + o.nrm1.toNat * pitch + b.nb * es ≤ e.b.shape.plain → dst % es = 0 → pitch % es = 0 →
      (s.core e.core).eng.length < 8 → ¬(b.suspect = true ∧ (s.ctx e.b.ctx).suspact = 2) →
      exec (.drainCubeMemoryForm o) s = .next (e.completes h (.done
        (let rel := if o.ord.getLsbD 1 then some o.scope else none
         let me := Who.after e.core e.slot e.gang true
         let s1 := e.drainMeet s
         (((sortNat (ws.map fun p => p.1 / 32)).foldl (fun t sec => t.engineScratch (drainRels rel me s1.clock) e.core e.slot
            e.now sec ⟨ws.filter fun p => p.1 / 32 == sec, b.stamp, b.poison⟩ (.normal b.stamp)) s1).drainRel rel me e.ws).addEng
           e.core fun id => .drain id e.slot e.gang e.m rel o.arr) none)))

end

namespace Sys2Proof.Claims

open Sys2Proof.Machine

/-! ### Generator words -/

/-- The thread after a word that goes on at `pc` and writes no register (R72, R104, R259, R349). -/
def onAt (o : Thread) (pc : DWord) : Thread :=
  { o with pc := pc, wait := .none, refires := 0, stepOne := false, halted := o.halted || o.stepOne }

/-- `th` is the thread `o` after a word that wrote `x` to register `d` of the active set and went on at `pc` (R72): a write
to register 0 is discarded, and no other register of either set changes. -/
structure Wrote (o : Thread) (pc : DWord) (d : BitVec 5) (x : SVal) (th : Thread) : Prop where
  frame : th = { onAt o pc with g := th.g, h := th.h }
  written : d ≠ 0 → th.reg d.toNat = x
  kept : ∀ r, r ≠ d.toNat → th.reg r = o.reg r
  zero : d = 0 → th.g = o.g ∧ th.h = o.h
  other : if o.handler then th.g = o.g else th.h = o.h

/-- The word has completed with `x` in register `d`, in the state `t` beside it. -/
def gives (t : State) (core slot : Nat) (b : Block) (d : BitVec 5) (x : SVal)
    (out : Host.Outcome State Fault Refusal) : Prop :=
  ∃ th, Wrote b.th (b.th.pc + 4) d x th ∧ out = .next (t.genDone core slot b th)

/-- The word has completed and the thread goes on at the next word, in the state `t` beside it. -/
def goesOn (t : State) (core slot : Nat) (b : Block) (out : Host.Outcome State Fault Refusal) : Prop :=
  out = .next (t.genDone core slot b (onAt b.th (b.th.pc + 4)))

/-- The word has taken a G-level fault at itself (R104, R105). -/
def traps (t : State) (core slot code detail : Nat) (addr : DWord) (out : Host.Outcome State Fault Refusal) : Prop :=
  out = .next (t.gTrap core slot code detail addr)

/-- The word has not executed: the thread waits at it (R104). -/
def waits (t : State) (core slot : Nat) (w : GWait) (out : Host.Outcome State Fault Refusal) : Prop :=
  out = .next (t.onThread core slot fun x => { x with wait := w })

/-- The register forms of R94 over 64-bit values. -/
inductive GenTwo : Instr → GrOp → (DWord → DWord → DWord) → Prop
  | add (o : GrOp) : GenTwo (.add o) o fun a b => BitVec.ofNat 64 (a.toNat + b.toNat)
  | sub (o : GrOp) : GenTwo (.sub o) o fun a b => BitVec.ofInt 64 (a.toInt - b.toInt)
  | mul (o : GrOp) : GenTwo (.mul o) o fun a b => BitVec.ofNat 64 (a.toNat * b.toNat)
  | mulhu (o : GrOp) : GenTwo (.mulhu o) o fun a b => BitVec.ofNat 64 (a.toNat * b.toNat / 2 ^ 64)
  | divu (o : GrOp) : GenTwo (.divu o) o fun a b => if b = 0 then 0xFFFFFFFFFFFFFFFF else BitVec.ofNat 64 (a.toNat / b.toNat)
  | remu (o : GrOp) : GenTwo (.remu o) o fun a b => if b = 0 then a else BitVec.ofNat 64 (a.toNat % b.toNat)
  | and (o : GrOp) : GenTwo (.and o) o fun a b => a &&& b
  | or (o : GrOp) : GenTwo (.or o) o fun a b => a ||| b
  | xor (o : GrOp) : GenTwo (.xor o) o fun a b => a ^^^ b
  | shl (o : GrOp) : GenTwo (.shl o) o fun a b => BitVec.ofNat 64 (a.toNat * 2 ^ (b.toNat % 64))
  | shr (o : GrOp) : GenTwo (.shr o) o fun a b => BitVec.ofNat 64 (a.toNat / 2 ^ (b.toNat % 64))
  | sar (o : GrOp) : GenTwo (.sar o) o fun a b => BitVec.ofInt 64 (a.toInt / 2 ^ (b.toNat % 64))
  | slt (o : GrOp) : GenTwo (.slt o) o fun a b => if a.toInt < b.toInt then 1 else 0
  | sltu (o : GrOp) : GenTwo (.sltu o) o fun a b => if a.toNat < b.toNat then 1 else 0

/-- The immediate forms of R94: the immediate sign-extended in ADDI and SLTI, zero-extended in the logic forms. -/
inductive GenImm : Instr → BitVec 5 → BitVec 5 → (DWord → DWord) → Prop
  | addi (o : GiOp) : GenImm (.addi o) o.d o.a fun a => a + BitVec.ofInt 64 o.i.toInt
  | andi (o : GiOp) : GenImm (.andi o) o.d o.a fun a => a &&& BitVec.ofNat 64 o.i.toNat
  | ori (o : GiOp) : GenImm (.ori o) o.d o.a fun a => a ||| BitVec.ofNat 64 o.i.toNat
  | xori (o : GiOp) : GenImm (.xori o) o.d o.a fun a => a ^^^ BitVec.ofNat 64 o.i.toNat
  | shli (d a : BitVec 5) (n : BitVec 6) : GenImm (.shli d a n) d a fun x => BitVec.ofNat 64 (x.toNat * 2 ^ n.toNat)
  | shri (d a : BitVec 5) (n : BitVec 6) : GenImm (.shri d a n) d a fun x => BitVec.ofNat 64 (x.toNat / 2 ^ n.toNat)
  | sari (d a : BitVec 5) (n : BitVec 6) : GenImm (.sari d a n) d a fun x => BitVec.ofInt 64 (x.toInt / 2 ^ n.toNat)
  | slti (o : GiOp) : GenImm (.slti o) o.d o.a fun a => if a.toInt < o.i.toInt then 1 else 0

/-- The conditions of R101. -/
inductive GenBranch : Instr → GbOp → (DWord → DWord → Prop) → Prop
  | beq (o : GbOp) : GenBranch (.beq o) o fun a b => a = b
  | bne (o : GbOp) : GenBranch (.bne o) o fun a b => a ≠ b
  | blt (o : GbOp) : GenBranch (.blt o) o fun a b => a.toInt < b.toInt
  | bge (o : GbOp) : GenBranch (.bge o) o fun a b => b.toInt ≤ a.toInt
  | bltu (o : GbOp) : GenBranch (.bltu o) o fun a b => a.toNat < b.toNat
  | bgeu (o : GbOp) : GenBranch (.bgeu o) o fun a b => b.toNat ≤ a.toNat

/-- The values of GSRD by special register number (R103): a control core reads 0 where the map is of a block. -/
def specials (s : State) (core slot : Nat) (b : Block) : List DWord :=
  let n := BitVec.ofNat 64
  let simt (x : Nat) : DWord := if b.control then 0 else n x
  [simt slot, simt b.lin, simt b.bx, simt b.by', simt b.bz, n b.gx, n b.gy, n b.gz, simt b.shape.gangs, b.node,
   n (core / 192 * 8192 + core / 8 % 24 * 256 + core % 8), s.ctide b.ctx, (s.core core).cycle, b.vtime, simt b.e.toNat,
   simt b.s.toNat, simt b.f.toNat, simt b.shape.w, n b.prio]

/-- The 8-byte and shorter loads and stores: the word, its address, its width in bytes, its ordering scope, its bound. -/
inductive GenAccess (b : Block) : Bool → Instr → BitVec 5 → DWord → Nat → Option (BitVec 3) → BitVec 4 → Prop
  | gld (o : GMemOp) : GenAccess b false (.gld o) o.d ((b.th.reg o.a.toNat).val + (b.th.reg o.b.toNat).val)
      (2 ^ o.size.toNat) (if o.ord.getLsbD 0 then some o.scope else none) o.bnd
  | gldi (o : GiOp) : GenAccess b false (.gldi o) o.d ((b.th.reg o.a.toNat).val + BitVec.ofInt 64 o.i.toInt) 8 none 0
  | gst (o : GMemOp) : GenAccess b true (.gst o) o.d ((b.th.reg o.a.toNat).val + (b.th.reg o.b.toNat).val)
      (2 ^ o.size.toNat) (if o.ord.getLsbD 1 then some o.scope else none) o.bnd
  | gsti (o : GiOp) : GenAccess b true (.gsti o) o.d ((b.th.reg o.a.toNat).val + BitVec.ofInt 64 o.i.toInt) 8 none 0

/-- R165: an address of 57 bits, sign-extended. -/
def canon (va : DWord) : Prop := va.toNat < 2 ^ 56 ∨ 2 ^ 64 - 2 ^ 56 ≤ va.toNat

/-- The state after a release of a thread at a scope: at SYSTEM scope the aperture no longer shows what its writes have replaced
(R242). -/
def relAt (s : State) (core slot : Nat) (rel : Option (BitVec 3)) : State :=
  match rel with
  | some sc => s.system (·.covers (.thread core slot)) sc
  | none => s

/-- A read of a thread (R95, R96): where it is an acquire it synchronises with what it observes (R228). -/
def threadRead (s : State) (core slot ctx : Nat) (ea : DWord) (n : Nat) (acq : Option (BitVec 3)) (l1 : Bool) :
    State × Except Stop Got :=
  s.acquiring [.thread core slot] acq fun t => t.globalRead (.thread core slot) core slot 16 ctx ea n false l1 l1

/-- What an access of a thread to memory leaves unchanged beside memory: every gang, context, thread and cube. -/
structure Elsewhere (s u : State) : Prop where
  gangs : ∀ c sl g, g < 16 → u.gang? c sl g = s.gang? c sl g
  threads : ∀ c sl, (u.block? c sl).map (·.th) = (s.block? c sl).map (·.th)
  ctxs : u.ctxs = s.ctxs
  cubes : u.cubes = s.cubes

end Sys2Proof.Claims

section
open Sys2Proof Sys2Proof.Machine Sys2Proof.Claims

/-- R94, R72: the arithmetic words of a generator: 64-bit results with the Older of the stamps of both sources (immediate
forms: the stamp of ga; LUI: AGELESS), in the active set. -/
def Obligations.GeneratorArithmeticComputes : Prop :=
  ∀ (s : State) (core slot : Nat) (b : Block), s.thread? = some (core, slot, b) →
    (∀ i o f, GenTwo i o f → gives s core slot b o.d
      ⟨f (b.th.reg o.a.toNat).val (b.th.reg o.b.toNat).val,
       older (s.now b.ctx) (b.th.reg o.a.toNat).stamp (b.th.reg o.b.toNat).stamp⟩ (exec i s)) ∧
    (∀ i d a f, GenImm i d a f → gives s core slot b d ⟨f (b.th.reg a.toNat).val, (b.th.reg a.toNat).stamp⟩ (exec i s)) ∧
    (∀ (d : BitVec 5) (i : BitVec 16), gives s core slot b d ⟨BitVec.ofInt 64 (i.toInt * 65536), ageless⟩ (exec (.lui d i) s))

/-- R101, R58, R94: branches and jumps of a generator: the target is the word's own address and four times the
displacement; JAL writes the next word's address to register 31; JR faults (0x21) where its target is no multiple of 4. -/
def Obligations.GeneratorBranchesGo : Prop :=
  ∀ (s : State) (core slot : Nat) (b : Block), s.thread? = some (core, slot, b) →
    (∀ i o p, GenBranch i o p →
      (p (b.th.reg o.a.toNat).val (b.th.reg o.b.toNat).val →
        exec i s = .next (s.genDone core slot b (onAt b.th (b.th.pc + BitVec.ofInt 64 (4 * o.j.toInt))))) ∧
      (¬p (b.th.reg o.a.toNat).val (b.th.reg o.b.toNat).val → goesOn s core slot b (exec i s))) ∧
    (∀ j : BitVec 26, exec (.j j) s = .next (s.genDone core slot b (onAt b.th (b.th.pc + BitVec.ofInt 64 (4 * j.toInt)))) ∧
      ∃ th, Wrote b.th (b.th.pc + BitVec.ofInt 64 (4 * j.toInt)) 31 ⟨b.th.pc + 4, ageless⟩ th ∧
        exec (.jal j) s = .next (s.genDone core slot b th)) ∧
    (∀ a : BitVec 5, let x := (b.th.reg a.toNat).val
      (x.toNat % 4 = 0 → exec (.jr a) s = .next (s.genDone core slot b (onAt b.th x))) ∧
      (x.toNat % 4 ≠ 0 → traps s core slot 0x21 0 0 (exec (.jr a) s)))

/-- R95, R96, R98, R99: loads of a generator: the address tests (0x22, 0x20; that the canonical test comes first is the model's
choice, log 15, DEDUCED), the translation's stop, poison (0x23), else the bytes that the read gives, zero-extended, with the stamp of
their sector; a bound that fails is counted, faults (0x30) under TRAP, goes on under MARK, and under REFIRE waits for the producer's
new instance or, with none to be had, faults (R259). Where no stash line is dirty, no write is to be missed and the L1 does not hold
the line, the read gives the bytes of device memory and leaves memory as it is. -/
def Obligations.GeneratorLoadsRead : Prop :=
  ∀ (s : State) (core slot : Nat) (b : Block), s.thread? = some (core, slot, b) →
    ∀ i d ea n acq bnd, GenAccess b false i d ea n acq bnd →
    (¬canon ea → traps s core slot 0x22 0xC ea (exec i s)) ∧
    (canon ea → ea.toNat % n ≠ 0 → traps s core slot 0x20 0 ea (exec i s)) ∧
    (canon ea → ea.toNat % n = 0 →
      let l1 := !(acq.any fun sc => 3 ≤ sc.toNat)
      let A := threadRead s core slot b.ctx ea n acq l1
      (∀ t x, A = (t, .error (.fault x)) → traps t core slot 0x22 x ea (exec i s)) ∧
      (∀ t, A = (t, .error .migrate) → waits t core slot (.migrate ea) (exec i s)) ∧
      (∀ t, A = (t, .error .wait) → waits t core slot .base (exec i s)) ∧
      (∀ t g, A = (t, .ok g) →
        Elsewhere s t ∧
        (g.bad = true → traps t core slot 0x23 0 ea (exec i s)) ∧
        (g.bad = false →
          let good (u : State) := gives u core slot b d ⟨BitVec.ofNat 64 (leVal g.bytes), g.stamp⟩ (exec i s)
          (s.boundFails b.ctx bnd.toNat g.stamp = false → ∃ u, Elsewhere s u ∧ u.mem = t.mem ∧ good u) ∧
          (s.boundFails b.ctx bnd.toNat g.stamp = true →
            let v := t.boundHit b.ctx bnd.toNat
            ((s.ctx b.ctx).boundAct bnd.toNat = .trap → traps v core slot 0x30 bnd.toNat ea (exec i s)) ∧
            ((s.ctx b.ctx).boundAct bnd.toNat = .mark →
              ∃ u, Elsewhere s u ∧ u.mem = t.mem ∧ good (u.boundHit b.ctx bnd.toNat)) ∧
            ((s.ctx b.ctx).boundAct bnd.toNat = .refire →
              let R := v.refire b.ctx ea b.th.refires (v.prioOf b.node)
              (R.2 = .wait → waits { R.1 with ctxs := s.ctxs } core slot .base (exec i s)) ∧
              (∀ x, R.2 = .escalate x → traps R.1 core slot 0x30 (32 * x + bnd.toNat) ea (exec i s)) ∧
              (∀ x, R.2 = .on x → exec i s = .next (R.1.onThread core slot fun y =>
                { y with refires := y.refires + 1, wait := .refire x })))))) ∧
      (∀ s1 x, s.translate core b.ctx ea false n = (s1, .fault x) → ∃ t, A = (t, .error (.fault x)) ∧ t.mem = s1.mem) ∧
      (∀ s1, s.translate core b.ctx ea false n = (s1, .migrate) → ∃ t, A = (t, .error .migrate) ∧ t.mem = s1.mem) ∧
      (∀ s1 pa, s.translate core b.ctx ea false n = (s1, .ok pa) → quiet s → pa % 32 + n ≤ 32 →
        (l1 = true → Tbl.get? (s1.core core).l1 (pa / 128) = none) →
        ∃ t g, A = (t, .ok g) ∧ t.mem = s.mem ∧ g.bytes = s.mem.bytesAt pa n ∧ g.stamp = s.mem.stamp (pa / 32) ∧
          g.bad = s.homeBad (pa / 32)))

/-- R95, R96, R98, R99, R233: stores of a generator: the address tests, a release waits while a write is unacknowledged, a
failing bound faults (0x30, store form), else the word completes and the low bytes of gd are stored at the translated
address. Where no stash line is dirty, their sector takes Older(old, stamp(gd)) and no other byte of memory changes. That the
canonical test comes before that of alignment is the model's choice (log 15, DEDUCED). -/
def Obligations.GeneratorStoresWrite : Prop :=
  ∀ (s : State) (core slot : Nat) (b : Block), s.thread? = some (core, slot, b) →
    ∀ i d ea n rel bnd, GenAccess b true i d ea n rel bnd →
    let x := b.th.reg d.toNat
    let fails := s.boundFails b.ctx bnd.toNat x.stamp
    (¬canon ea → traps s core slot 0x22 0xC ea (exec i s)) ∧
    (canon ea → ea.toNat % n ≠ 0 → traps s core slot 0x20 0 ea (exec i s)) ∧
    (canon ea → ea.toNat % n = 0 →
      ((∃ sc, rel = some sc ∧ ackedFor b.th.outst sc = false) → waits s core slot .ack (exec i s)) ∧
      ((∀ sc, rel = some sc → ackedFor b.th.outst sc = true) →
        let s0 := relAt s core slot rel
        (fails = true → (s.ctx b.ctx).boundAct bnd.toNat = .trap →
          traps (s0.boundHit b.ctx bnd.toNat) core slot 0x30 (16 + bnd.toNat) ea (exec i s)) ∧
        (fails = true → (s.ctx b.ctx).boundAct bnd.toNat = .refire →
          traps (s0.boundHit b.ctx bnd.toNat) core slot 0x30 (112 + bnd.toNat) ea (exec i s)) ∧
        ((fails = false ∨ (s.ctx b.ctx).boundAct bnd.toNat = .mark) → ∀ s1 base,
          s0.translate core b.ctx (BitVec.ofNat 64 (32 * (ea.toNat / 32))) true 32 = (s1, .ok base) → base % 32 = 0 →
          let pa := base + ea.toNat % 32
          ∃ u, Elsewhere s u ∧
            exec i s = .next ((if fails then u.boundHit b.ctx bnd.toNat else u).genDone core slot b
              { onAt b.th (b.th.pc + 4) with outst := b.th.outst ++ [(0, 0)] }) ∧
            (quiet s → s.memOk → s.offline (32 * (base / 32)) = false → s.mem.bad (base / 32) = false →
              (∀ a, a < pa ∨ pa + n ≤ a → u.mem.byte a = s.mem.byte a) ∧
              (∀ k, k < n → u.mem.byte (pa + k) = BitVec.ofNat 8 (x.val.toNat / 256 ^ k)) ∧
              u.mem.stamp (base / 32) = older (s.now b.ctx) (s.mem.stamp (base / 32)) x.stamp) ∧
            (quiet s → (s.offline (32 * (base / 32)) = true ∨ s.mem.bad (base / 32) = true) → u.mem = s.mem))))

/-- R97: GATOM: the address tests (the canonical test first: the model's choice, log 15, DEDUCED) and the release's wait; where no
stash line is dirty, the register takes the old value with its stamp, and memory the value that the operation gives; a
compare-and-swap that fails changes no byte. -/
def Obligations.GeneratorAtomicsPerform : Prop :=
  ∀ (s : State) (core slot : Nat) (b : Block) (o : GAtomOp), s.thread? = some (core, slot, b) →
    let ea := (b.th.reg o.a.toNat).val
    let n := if o.size then 8 else 4
    (¬canon ea → traps s core slot 0x22 0xC ea (exec (.gatom o) s)) ∧
    (canon ea → ea.toNat % n ≠ 0 → traps s core slot 0x20 0 ea (exec (.gatom o) s)) ∧
    (canon ea → ea.toNat % n = 0 → o.ord.getLsbD 1 = true → ackedFor b.th.outst o.scope = false →
      waits s core slot .ack (exec (.gatom o) s)) ∧
    (canon ea → ea.toNat % n = 0 → (o.ord.getLsbD 1 = false ∨ ackedFor b.th.outst o.scope = true) →
      ∀ s1 pa, (relAt s core slot (if o.ord.getLsbD 1 then some o.scope else none)).translate core b.ctx ea true n = (s1, .ok pa) →
      pa % n = 0 → quiet s → s.memOk → s.homeBad (pa / 32) = false →
      let new := atomSpec o.aop.toNat n (s.mem.nat pa n) ((b.th.reg o.b.toNat).val.toNat % 2 ^ (8 * n))
        ((b.th.reg o.d.toNat).val.toNat % 2 ^ (8 * n))
      let bst := (b.th.reg o.b.toNat).stamp
      ∃ u th, Elsewhere s u ∧
        Wrote { b.th with outst := b.th.outst ++ [(0, 0)] } (b.th.pc + 4) o.d
          ⟨BitVec.ofNat 64 (s.mem.nat pa n), s.mem.stamp (pa / 32)⟩ th ∧
        exec (.gatom o) s = .next (u.genDone core slot b th) ∧
        (∀ a, a < pa ∨ pa + n ≤ a → u.mem.byte a = s.mem.byte a) ∧
        (new = none → u.mem = s.mem) ∧
        ∀ x, new = some x → u.mem.nat pa n = x % 2 ^ (8 * n) ∧
          u.mem.stamp (pa / 32) = if o.adopt then bst else older (s.now b.ctx) (s.mem.stamp (pa / 32)) bst)

/-- R100, R307, R94, R74: GFENCE by kind: kind 1, and kind 2 on a SIMT core, are illegal; else it waits until the
thread's writes are acknowledged for the scope and, for kind 2 and 3 on a control core, the cube is idle, then completes: what the
thread has read and written, and for those kinds what its cube has, is in order before what follows (R225, R228, R238), and from
QUAD scope its L1 is emptied. LDKC reads a word of the constant bank with the bank's stamp. -/
def Sys2Proof.Claims.GeneratorFenceAndBank : Prop :=
  ∀ (s : State) (core slot : Nat) (b : Block), s.thread? = some (core, slot, b) →
    (∀ (k : BitVec 2) (sc : BitVec 3),
      let q := s.cube (core / 8)
      let ready := ackedFor b.th.outst sc = true ∧ (b.control = false ∨ k.toNat < 2 ∨
        (q.queue = [] ∧ q.exec = none ∧ q.image = []))
      ((k = 1 ∨ (k = 2 ∧ b.control = false)) → traps s core slot 0x01 0 0 (exec (.gfence k sc) s)) ∧
      (¬(k = 1 ∨ (k = 2 ∧ b.control = false)) → ready →
        goesOn
          (let w := Who.thread core slot
           let s1 := if k.toNat < 2 ∨ b.control = false then s
             else ((s.join [w] (·.covers (.seq core))).join [.seq core] (·.covers w)).setCube (core / 8) { q with obufOld := [] }
           ((s1.fence [w] (·.covers w) sc).system (·.covers w) sc).acquireL1 core sc) core slot b (exec (.gfence k sc) s)) ∧
      (¬(k = 1 ∨ (k = 2 ∧ b.control = false)) → ¬ready → waits s core slot .ack (exec (.gfence k sc) s))) ∧
    (∀ o : GiOp, let i := ((b.th.reg o.a.toNat).val.toNat + o.i.toNat) % 16384
      ∀ s1, (∀ w, s.kword core b i = (s1, .ok (w, false)) →
          gives s1 core slot b o.d ⟨w.setWidth 64, b.lstamp.getD ageless⟩ (exec (.ldkc o) s)) ∧
        (∀ w, s.kword core b i = (s1, .ok (w, true)) →
          traps s1 core slot 0x23 0 (b.kbank + BitVec.ofNat 64 (4 * i)) (exec (.ldkc o) s)) ∧
        (∀ d, s.kword core b i = (s1, .error (.fault d)) →
          traps s1 core slot 0x22 d (b.kbank + BitVec.ofNat 64 (4 * i)) (exec (.ldkc o) s)))

/-- R102, R103, R104: the system words: GSTGET, GSTSET with its right (0x31), GSRD over the special registers, GPAUSE, and
GTRAP, whose fault has the next word's address in h30. -/
def Sys2Proof.Claims.GeneratorSystemWords : Prop :=
  ∀ (s : State) (core slot : Nat) (b : Block), s.thread? = some (core, slot, b) →
    (∀ d a : BitVec 5,
      gives s core slot b d ⟨BitVec.ofNat 64 (b.th.reg a.toNat).stamp.toNat, ageless⟩ (exec (.gstget d a) s) ∧
      ((s.ctx b.ctx).restamp = false → traps s core slot 0x31 0 0 (exec (.gstset d a) s)) ∧
      ((s.ctx b.ctx).restamp = true → gives s core slot b d
        ⟨(b.th.reg d.toNat).val, BitVec.ofNat 24 (b.th.reg a.toNat).val.toNat⟩ (exec (.gstset d a) s))) ∧
    (∀ (d : BitVec 5) (r : BitVec 6),
      (0x12 < r.toNat → traps s core slot 0x01 0 0 (exec (.gsrd d r) s)) ∧
      (∀ v, (specials s core slot b)[r.toNat]? = some v → gives s core slot b d ⟨v, ageless⟩ (exec (.gsrd d r) s))) ∧
    (∀ n : BitVec 12, exec (.gpause n) s = .next (s.genDone core slot b { onAt b.th (b.th.pc + 4) with pause := n })) ∧
    (∀ n : BitVec 16, b.th.handler = false → b.trap ≠ 0 →
      ∃ t, exec (.gtrap n) s = .next t ∧ ∃ x, t.block? core slot = some x ∧ x.th.handler = true ∧
        x.th.pc = b.image + BitVec.ofNat 64 b.trap ∧ (vat x.th.h SVal.zero 30).val = b.th.pc + 4 ∧
        (vat x.th.h SVal.zero 28).val = BitVec.ofNat 64 (n.toNat * 65536 + 0x70))

/-- R94, R100, R102, R103, R307: the system words of a generator, GFENCE and LDKC. -/
def Obligations.GeneratorSystemAndFence : Prop := Claims.GeneratorSystemWords ∧ Claims.GeneratorFenceAndBank

/-- R104, R105: a G-level fault of a thread outside its handler, with a handler: the trap bank takes the fault (h25 to h30,
AGELESS: SITE and PROV 0, LOC with its top bit, cause and detail, address, the PC), every other h register and every g
register is kept, and the thread goes on at the image plus TRAP, in its handler; memory and every other block are kept. -/
def Sys2Proof.Claims.GeneratorFaultEntersHandler : Prop :=
  ∀ (s : State) (core slot code detail : Nat) (addr h30 : DWord) (d : Bool) (b : Block), s.block? core slot = some b →
    b.th.handler = false → b.trap ≠ 0 → code < 2 ^ 16 → detail < 2 ^ 16 →
    ∃ x, (s.gFault core slot code detail addr h30 d).block? core slot = some x ∧
      x = { b with mbs := x.mbs, th := { b.th with
        h := x.th.h, handler := true, wait := .none, pc := b.image + BitVec.ofNat 64 b.trap } } ∧
      (∀ r, r < 32 → vat x.th.h SVal.zero r =
        if r = 25 ∨ r = 26 then ⟨0, ageless⟩
        else if r = 27 then ⟨0x8000000000000000, ageless⟩
        else if r = 28 then ⟨BitVec.ofNat 64 (detail * 65536 + code), ageless⟩
        else if r = 29 then ⟨addr, ageless⟩
        else if r = 30 then ⟨h30, ageless⟩ else vat b.th.h SVal.zero r) ∧
      (s.gFault core slot code detail addr h30 d).mem = s.mem ∧ (s.gFault core slot code detail addr h30 d).ctxs = s.ctxs ∧
      ∀ c sl, (c, sl) ≠ (core, slot) → (s.gFault core slot code detail addr h30 d).block? c sl = s.block? c sl

/-- R105, R316, R348: a G-level fault inside a handler (handler-fault, 0x15) or without one ends the context: TERMINATED
with the cause, and no instance and nothing saved of it is left. -/
def Sys2Proof.Claims.FaultWithoutHandlerEndsContext : Prop :=
  ∀ (s : State) (core slot code detail : Nat) (addr h30 : DWord) (d : Bool) (b : Block), s.block? core slot = some b →
    (b.th.handler = true ∨ b.trap = 0) →
    let t := s.gFault core slot code detail addr h30 d
    (t.ctx b.ctx).st = .terminated ∧
      (t.ctx b.ctx).cause = (if b.th.handler then 0x15 else BitVec.ofNat 16 code) ∧
      t.insts.all (fun x => x.ctx != b.ctx) = true ∧ t.saved.all (fun x => x.ctx != b.ctx) = true

/-- R104, R105, R316: taking a G-level fault, with a handler and without. -/
def Obligations.GeneratorFaults : Prop := Claims.GeneratorFaultEntersHandler ∧ Claims.FaultWithoutHandlerEndsContext

/-- R106: GRETH outside the handler is illegal; in it, the thread leaves the handler and goes on at h30 with its two low
bits cleared; where h27 names a gang that its fault parked, that gang runs again, idles where none of its slices is left, and
its groups that wait at an MBWR stand in the queues of their mailboxes. -/
def Obligations.ReturnFromHandler : Prop :=
  ∀ (s : State) (core slot : Nat) (b : Block), s.thread? = some (core, slot, b) →
    let h27 := (vat b.th.h SVal.zero 27).val
    let h30 := (vat b.th.h SVal.zero 30).val
    let k := h27.toNat % 16
    let th := { onAt b.th (BitVec.ofNat 64 (h30.toNat / 4 * 4)) with handler := false }
    (b.th.handler = false → traps s core slot 0x01 0 0 (exec .greth s)) ∧
    (b.th.handler = true →
      (h27.getLsbD 63 = true → exec .greth s = .next (s.genDone core slot b th)) ∧
      (h27.getLsbD 63 = false →
        (b.gangs[k]? = none → exec .greth s = .next (s.genDone core slot b th)) ∧
        ∀ g, b.gangs[k]? = some g →
          let y := if g.faultParked then
              { g with
                faultParked := false
                st := if g.groups = [] then .idle else if g.halted then .parked else .running }
            else g
          exec .greth s = .next ((s.onBlock core slot fun x => (x.onGang k fun _ => y).queueWrites k).genDone core slot b th)))

end

namespace Sys2Proof.Claims

open Sys2Proof.Machine

/-! ### Generator words of the flume, of gangs, of queues; the handler's debug words; the cube -/

/-- R79: Reserve(n) admits `n` words: the last ordinal is not passed and the window has room. -/
def hasRoom (b : Block) (n : Nat) : Prop := b.e.toNat + n < 2 ^ 32 ∧ b.e.toNat + n - b.f.toNat ≤ b.shape.w

/-- R79, R80, R82: the emission of the words `l` by the thread: in the state `t` it faults past the last ordinal or where
it could never be admitted (0x10) and stalls where the window has no room; where it has, the words, read in `t'`, are
emitted. `d` takes the first ordinal. That the last ordinal is tested before the room is the model's choice (log 15, DEDUCED). -/
def emission (t t' : State) (core slot : Nat) (b : Block) (d : BitVec 5) (l : List Emit)
    (out : Host.Outcome State Fault Refusal) : Prop :=
  let E := b.e.toNat
  let W := b.shape.w
  let n := l.length
  let room := E + n - b.f.toNat ≤ W
  let never := W < n ∨ t.allStuck core slot b = true
  (2 ^ 32 ≤ E + n → traps t core slot 0x10 1 0 out) ∧
  (E + n < 2 ^ 32 → room → ∃ fl, gives (t'.onBlock core slot fun x => { x with flume := fl, e := BitVec.ofNat 32 (E + n) })
      core slot b d ⟨BitVec.ofNat 64 E, ageless⟩ out ∧
    (∀ k x, l[k]? = some x → (∀ j, k < j → j < n → (E + j) % W ≠ (E + k) % W) →
      Tbl.get? fl ((E + k) % W) = some ⟨x.word, x.kind, x.spord, BitVec.ofNat 4 slot, BitVec.ofNat 32 (E + k),
        BitVec.ofNat 32 b.th.pc.toNat⟩) ∧
    ∀ j, (∀ k, k < n → (E + k) % W ≠ j) → Tbl.get? fl j = Tbl.get? b.flume j) ∧
  (E + n < 2 ^ 32 → ¬room → never → traps t core slot 0x10 0 0 out) ∧
  (E + n < 2 ^ 32 → ¬room → ¬never → waits t core slot .emit out)

/-- The metadata entry `m` of a template word: KIND, BODY, LAST, PATCH, HI, LO, SPORD (R55). -/
def metaOf (m : Word) : BitVec 2 × Bool × Bool × Bool × Nat × Nat × BitVec 16 :=
  (BitVec.ofNat 2 (m.toNat / 2 ^ 30), m.getLsbD 29, m.getLsbD 28, m.getLsbD 27, m.toNat / 2 ^ 22 % 32, m.toNat / 2 ^ 17 % 32,
   BitVec.ofNat 16 m.toNat)

/-- The gangs that a mask of GSTART or GJOIN names exist, with the property `p`. -/
def named (b : Block) (m : BitVec 16) (p : Gang → Prop) : Prop :=
  ∀ i, i < 16 → m.getLsbD i = true → i < b.shape.gangs ∧ ∃ g, b.gangs[i]? = some g ∧ p g

/-- What a debug word of the handler asks of the gang it names (R350): its index, then that it is parked. -/
def debugs (s : State) (core slot : Nat) (b : Block) (k : Nat) (out : Host.Outcome State Fault Refusal)
    (P : Gang → Prop) : Prop :=
  (b.shape.gangs ≤ k → traps s core slot 0x13 0 0 out) ∧
  (k < b.shape.gangs → ∀ g, b.gangs[k]? = some g →
    (g.st ≠ .parked → traps s core slot 0x14 0 0 out) ∧ (g.st = .parked → P g))

/-- The word has completed with gang `k` of the block changed to `g`. -/
def gangIs (s : State) (core slot : Nat) (b : Block) (k : Nat) (g : Gang) (out : Host.Outcome State Fault Refusal) : Prop :=
  goesOn (s.onGang core slot k fun _ => g) core slot b out

/-- The word has entered its operation in the cube's queue, with the cube `c` as it leaves the issue-time registers; a full
queue stalls (R296). -/
def enters (s : State) (core slot : Nat) (b : Block) (op : CubeOp) (c : Cube) (out : Host.Outcome State Fault Refusal) :
    Prop :=
  let q := s.cube (core / 8)
  (16 ≤ q.queue.length + (if q.exec.isSome then 1 else 0) → waits s core slot .cubeQueue out) ∧
  (q.queue.length + (if q.exec.isSome then 1 else 0) < 16 →
    goesOn (s.setCube (core / 8) { c with queue := q.queue ++ [op] }) core slot b out)

/-- From 1 to 128. -/
def upTo128 (x : DWord) : Prop := 1 ≤ x.toNat ∧ x.toNat ≤ 128

/-- A debug word of the handler, and what it needs the processor to be: RDG and WRG run on both kinds of core. -/
inductive DebugWord : Instr → Bool → Prop
  | rdg (o : GrOp) : DebugWord (.gdbgRdg o) true
  | wrg (o : GrOp) : DebugWord (.gdbgWrg o) true
  | rdv (o : GrOp) : DebugWord (.gdbgRdv o) false
  | wrv (o : GrOp) : DebugWord (.gdbgWrv o) false
  | rdw (o : GrOp) : DebugWord (.gdbgRdw o) false
  | wrw (o : GrOp) : DebugWord (.gdbgWrw o) false
  | rds (o : GrOp) : DebugWord (.gdbgRds o) false
  | wrs (o : GrOp) : DebugWord (.gdbgWrs o) false
  | rdx (o : GrOp) : DebugWord (.gdbgRdx o) false
  | pushm (o : GrOp) : DebugWord (.gdbgPushm o) false
  | popm (o : GrOp) : DebugWord (.gdbgPopm o) false
  | rdf (o : GrOp) : DebugWord (.gdbgRdf o) false
  | dump (o : GrOp) : DebugWord (.gdbgDump o) false

/-- The cube's words but CUBE.STAT. -/
inductive CubeWord : Instr → Prop
  | shape (o : GrOp) : CubeWord (.cubeShape o)
  | mode (a : BitVec 5) (m : BitVec 13) : CubeWord (.cubeMode a m)
  | win (o : WinOp) : CubeWord (.cubeWin o)
  | ldb (o : LdbOp) : CubeWord (.cubeLdb o)
  | scale (o : ScaleOp) : CubeWord (.cubeScale o)
  | mul (o : CubeMulOp) : CubeWord (.cubeMul o)
  | zero : CubeWord .cubeZero
  | wait (a : BitVec 5) : CubeWord (.cubeWait a)

end Sys2Proof.Claims

section
open Sys2Proof Sys2Proof.Machine Sys2Proof.Claims

/-- R65, R82 to R86: the emit family on a SIMT core; on a control core every word of it is illegal. EMIT takes its word
from a register; EMITB the template words up to the one marked LAST; EMITP one template word with bits HI:LO replaced (a
template it may not emit: 0x11); both read their metadata, then reserve, then read their words, whose poison (0x23) or
translation (0x22) stops them only there; EPAD the NOP words that make E a multiple of 3. -/
def Sys2Proof.Claims.EmissionWordsEmit : Prop :=
  ∀ (s : State) (core slot : Nat) (b : Block), s.thread? = some (core, slot, b) →
    (b.control = true → ∀ o k d a i, ∀ w ∈ [Instr.emit o k, .emitb d i, .emitp d a i, .epad, .seal],
      traps s core slot 0x01 0 0 (exec w s)) ∧
    (b.control = false →
      (∀ (o : GrOp) (k : BitVec 2), let low := BitVec.ofNat 32 (b.th.reg o.a.toNat).val.toNat
        (k.toNat < 2 → o.b ≠ 0 → traps s core slot 0x01 0 0 (exec (.emit o k) s)) ∧
        (k.toNat < 2 → o.b = 0 → emission s s core slot b o.d [⟨low, k, 0⟩] (exec (.emit o k) s)) ∧
        (2 ≤ k.toNat → emission s s core slot b o.d [⟨low, k, BitVec.ofNat 16 (b.th.reg o.b.toNat).val.toNat⟩]
          (exec (.emit o k) s))) ∧
      (∀ (d : BitVec 5) (i : BitVec 14) s1 m,
        s.imageWord core b (b.kbank + BitVec.ofNat 64 (65536 + 4 * i.toNat)) = (s1, .ok (m, false)) →
        ((metaOf m).2.1 = false → ∀ a, ∀ w ∈ [Instr.emitb d i, .emitp d a i], traps s1 core slot 0x11 0 0 (exec w s)) ∧
        ((metaOf m).2.1 = true →
          (∀ s2 ms, s1.templateMeta core b i.toNat (16384 - i.toNat) = (s2, .ok ms) →
            (∀ s3 l, s2.templateWords core b i.toNat ms = (s3, .ok l) → emission s2 s3 core slot b d l (exec (.emitb d i) s)) ∧
            (hasRoom b ms.length → ∀ s3 va x, s2.templateWords core b i.toNat ms = (s3, .error (.fault x, va)) →
              traps s3 core slot (if x = 0x1000 then 0x23 else 0x22) (if x = 0x1000 then 0 else x) va
                (exec (.emitb d i) s))) ∧
          (∀ a, let hi := (metaOf m).2.2.2.2.1
            let lo := (metaOf m).2.2.2.2.2.1
            (((metaOf m).2.2.2.1 = false ∨ hi < lo) → traps s1 core slot 0x11 0 0 (exec (.emitp d a i) s)) ∧
            ((metaOf m).2.2.2.1 = true → lo ≤ hi → ∀ s2, (hasRoom b 1 → ∀ w, s1.kword core b i.toNat = (s2, .ok (w, true)) →
              traps s2 core slot 0x23 0 (b.kbank + BitVec.ofNat 64 (4 * i.toNat)) (exec (.emitp d a i) s)) ∧
              ∀ w, s1.kword core b i.toNat = (s2, .ok (w, false)) → ∃ x : Word, (∀ j, j < 32 → x.getLsbD j =
                  if lo ≤ j ∧ j ≤ hi then (b.th.reg a.toNat).val.getLsbD (j - lo) else w.getLsbD j) ∧
                emission s1 s2 core slot b d [⟨x, (metaOf m).1, (metaOf m).2.2.2.2.2.2⟩] (exec (.emitp d a i) s))))) ∧
      (∃ n, (b.e.toNat + n) % 3 = 0 ∧ n < 3 ∧
        emission s s core slot b 0 (List.replicate n ⟨0x34000000, 0, 0⟩) (exec .epad s)))

/-- R86, R78, R6: SEAL raises S to E; RECLAIM moves F to its operand, an exact sum, which lies from F to S (0x12). -/
def Sys2Proof.Claims.SealAndReclaim : Prop :=
  ∀ (s : State) (core slot : Nat) (b : Block), s.thread? = some (core, slot, b) →
    (b.control = true → ∀ a i, ∀ w ∈ [Instr.seal, .reclaim a i], traps s core slot 0x01 0 0 (exec w s)) ∧
    (b.control = false → goesOn (s.onBlock core slot fun x => { x with s := b.e }) core slot b (exec .seal s)) ∧
    ∀ (a : BitVec 5) (i : BitVec 16), b.control = false →
      let x := (b.th.reg a.toNat).val.toNat + i.toNat
      ((x < b.f.toNat ∨ b.s.toNat < x) → traps s core slot 0x12 0 0 (exec (.reclaim a i) s)) ∧
      (b.f.toNat ≤ x → x ≤ b.s.toNat →
        goesOn (s.onBlock core slot fun y => { y with f := BitVec.ofNat 32 x }) core slot b (exec (.reclaim a i) s))

/-- R79: an emission that finds no room faults where every gang is idle, and where every group of every gang waits for words that
are not sealed yet; it stalls where some group of a gang can issue. -/
def Sys2Proof.Claims.EmissionStallsWhileGangsRun : Prop :=
  ∀ (s : State) (core slot : Nat) (b : Block),
    ((∀ g ∈ b.gangs, g.st = .idle ∨ (g.st = .running ∧ g.groups ≠ [] ∧
      ∀ x ∈ g.groups, x.wait = .none ∧ x.parked = false ∧ b.s.toNat ≤ x.pc.toNat)) → s.allStuck core slot b = true) ∧
    ((∃ g ∈ b.gangs, g.st = .running ∧ ∃ x ∈ g.groups, x.wait = .none ∧ x.parked = false ∧ b.fetchStalled x.pc = false) →
      s.allStuck core slot b = false) ∧
    (∀ x : Word, x.toNat + 1 < b.s.toNat → b.fetchStalled x = false)

/-- R65, R78 to R86: the emit family, SEAL and RECLAIM. -/
def Obligations.FlumeWords : Prop :=
  Claims.EmissionWordsEmit ∧ Claims.SealAndReclaim ∧ Claims.EmissionStallsWhileGangsRun

/-- R88, R254: GSTART: the named gangs must exist (0x13) and be IDLE (0x14); each runs one group of its present slices at
the ordinal of ga, every lane enabled, with no result open, no spill and no containment; registers keep their values; what the
thread has done happens before the slices (R89). That every index is tested before any state is the model's choice (log 15,
DEDUCED). -/
def Obligations.GangsStart : Prop :=
  ∀ (s : State) (core slot : Nat) (b : Block) (a : BitVec 5) (m : BitVec 16), s.thread? = some (core, slot, b) →
    (b.control = true → ∀ k sl w, ∀ i ∈ [Instr.gstart a m, .gsteer a k sl, .gjoin m, .gend, .gwset a k w],
      traps s core slot 0x01 0 0 (exec i s)) ∧
    (b.control = false →
    ((∃ i, i < 16 ∧ m.getLsbD i = true ∧ b.shape.gangs ≤ i) → traps s core slot 0x13 0 0 (exec (.gstart a m) s)) ∧
    ((∀ i, i < 16 → m.getLsbD i = true → i < b.shape.gangs) →
      (∃ i g, i < 16 ∧ m.getLsbD i = true ∧ b.gangs[i]? = some g ∧ g.st ≠ .idle) →
      traps s core slot 0x14 0 0 (exec (.gstart a m) s)) ∧
    (named b m (fun g => g.st = .idle) → ∃ l, l.length = b.gangs.length ∧
      goesOn ((s.join ((namedGangs m).map fun i => .gang core slot i) (·.covers (.thread core slot))).onBlock core slot fun x =>
        { x with gangs := l }) core slot b (exec (.gstart a m) s) ∧
      (∀ i, m.getLsbD i = false → l[i]? = b.gangs[i]?) ∧
      ∀ i g, i < 16 → m.getLsbD i = true → b.gangs[i]? = some g → ∃ h, l[i]? = some h ∧
        h.st = .running ∧ h.exited = 0 ∧ h.pend = [] ∧ h.spp = 0 ∧ h.stack = [] ∧ h.window = [] ∧
        h.groups.map (fun x => (x.mask, x.pc, x.wait, x.parked, x.run)) =
          [(b.shape.present, BitVec.ofNat 32 (b.th.reg a.toNat).val.toNat, .none, false, none)] ∧
        (∀ L, L < 32 → h.dmask.getLsbD L = decide (L < 4 * b.shape.slices) ∧ h.pmask = h.dmask) ∧
        h.v = g.v ∧ h.w = g.w ∧ h.k = g.k ∧ h.spill = g.spill ∧ h.arr = g.arr))

/-- R88, R104: GSTEER needs a parked gang: its named live slices form one group at the ordinal of ga, the other slices keep
theirs; GJOIN waits until every named gang is IDLE, and what they have done happens before the thread (R89); GEND until every gang is; GWSET writes a uniform register of a gang that
does not run. -/
def Obligations.GangControlWords : Prop :=
  ∀ (s : State) (core slot : Nat) (b : Block), s.thread? = some (core, slot, b) → b.control = false →
    (∀ (a : BitVec 5) (k w : BitVec 4) (sl : BitVec 8), b.shape.gangs ≤ k.toNat →
      ∀ i ∈ [Instr.gsteer a k sl, .gwset a k w], traps s core slot 0x13 0 0 (exec i s)) ∧
    (∀ (a : BitVec 5) (k : BitVec 4) (sl : BitVec 8) g, k.toNat < b.shape.gangs → b.gangs[k.toNat]? = some g →
      (g.st ≠ .parked → traps s core slot 0x14 0 0 (exec (.gsteer a k sl) s)) ∧
      (g.st = .parked → ∃ t, goesOn t core slot b (exec (.gsteer a k sl) s) ∧
        t.mem = s.mem ∧ t.ctxs = s.ctxs ∧
        ∃ h, t.gang? core slot k.toNat = some h ∧ h = { g with groups := h.groups } ∧
          (sl &&& g.live = 0 → h.groups = g.groups) ∧
          (sl &&& g.live ≠ 0 → ∃ r, h.groups =
              Group.start (sl &&& g.live) (BitVec.ofNat 32 (b.th.reg a.toNat).val.toNat) g.wnum :: r ∧
            r.map (fun x => (x.mask, x.pc)) = (g.groups.filterMap fun x =>
              if x.mask &&& ~~~(sl &&& g.live) = 0 then none else some (x.mask &&& ~~~(sl &&& g.live), x.pc))))) ∧
    (∀ m : BitVec 16, b.th.handler = false →
      (named b m (fun g => g.st = .idle) →
        goesOn (s.join [.thread core slot] fun w => (namedGangs m).any fun i => w.ofGang core slot i) core slot b
          (exec (.gjoin m) s)) ∧
      (named b m (fun _ => True) → ¬named b m (fun g => g.st = .idle) →
        waits s core slot .join (exec (.gjoin m) s))) ∧
    (∀ m : BitVec 16, b.th.handler = true → ∀ w ∈ [Instr.gjoin m, .gend], traps s core slot 0x01 0 0 (exec w s)) ∧
    (b.th.handler = false →
      ((∀ g ∈ b.gangs, g.st = .idle) →
        exec .gend s = .next (s.genDone core slot b { onAt b.th (b.th.pc + 4) with ended := true })) ∧
      ((∃ g ∈ b.gangs, g.st ≠ .idle) → waits s core slot .gend (exec .gend s))) ∧
    (∀ (a : BitVec 5) (k w : BitVec 4) g, k.toNat < b.shape.gangs → b.gangs[k.toNat]? = some g →
      (g.st = .running → traps s core slot 0x14 0 0 (exec (.gwset a k w) s)) ∧
      (g.st ≠ .running → ∃ h, gangIs s core slot b k.toNat h (exec (.gwset a k w) s) ∧
        h = { g with w := h.w, pend := h.pend } ∧
        (∀ r, r < 16 → vat h.w SVal.zero r = if r = w.toNat then b.th.reg a.toNat else vat g.w SVal.zero r) ∧
        h.viewW 0 w.toNat = b.th.reg a.toNat))

/-- R90, R91: the scalar mailbox words: GMBWR fills a mailbox that is empty where no other writer waits before it; GMBRD empties a
full one where no other reader waits before it, takes its value and stamp, and acquires; both wait in the queue otherwise, once in
it; GMBPEEK tells whether it is full. -/
def Sys2Proof.Claims.GeneratorMailboxWords : Prop :=
  ∀ (s : State) (core slot : Nat) (b : Block) (a : BitVec 5) (m : BitVec 4), s.thread? = some (core, slot, b) →
    let x := vat b.mbs Mailbox.empty m.toNat
    let put (t : State) (y : Mailbox) : State := t.onBlock core slot fun z => { z with mbs := vput z.mbs m.toNat y }
    let first (l : List Waiter) := l = [] ∨ l.head? = some .thread
    let queue (l : List Waiter) := if .thread ∈ l then l else l ++ [.thread]
    (b.control = true → ∀ w ∈ [Instr.gmbwr a m, .gmbrd a m, .gmbpeek a m], traps s core slot 0x01 0 0 (exec w s)) ∧
    (b.control = false →
      (x.full = false → first x.writers →
        goesOn (put s { x with v := b.th.reg a.toNat, full := true, writers := x.writers.filter (· != .thread) }) core slot b
          (exec (.gmbwr a m) s)) ∧
      (x.full = true ∨ ¬first x.writers →
        waits (put s { x with writers := queue x.writers }) core slot (.mbwr m) (exec (.gmbwr a m) s)) ∧
      (x.full = true → first x.readers →
        gives (put (s.meetBlock core slot [.thread core slot]) { x with
          full := false, readers := x.readers.filter (· != .thread) }) core slot b a x.v (exec (.gmbrd a m) s)) ∧
      (x.full = false ∨ ¬first x.readers →
        waits (put s { x with readers := queue x.readers }) core slot (.mbrd m) (exec (.gmbrd a m) s)) ∧
      gives s core slot b a ⟨if x.full then 1 else 0, ageless⟩ (exec (.gmbpeek a m) s))

/-- R92, R93, R323: GLAUNCH: a packet address that is no multiple of 128 faults (0x20); it waits for the thread's writes;
with the packet read it is appended to the ring of its context's queue, and waits with that packet while the ring does not
take it. GLAUNCH.peer to this package is an arrival under the access-control table, for which the thread waits while the stack of
its entry is not ready (R366); to another it leaves by a trained cape, for whose acknowledgement the thread waits, and waits with
its packet while no cape is trained. That the packet is read once and kept while the thread waits is the model's choice (log 15,
DEDUCED), and so is the trained cape of lowest number (log 22, DESIGN CHOICE). -/
def Sys2Proof.Claims.LaunchWordsComplete : Prop :=
  ∀ (s : State) (core slot : Nat) (b : Block) (a : BitVec 5) (q : BitVec 6), s.thread? = some (core, slot, b) →
    let va := (b.th.reg a.toNat).val
    let has (s1 : State) (l : List Byte) : Prop := (b.th.wait = .launch l ∧ s1 = s) ∨
      ((∀ l, b.th.wait ≠ .launch l) ∧ va.toNat % 128 = 0 ∧ ackedFor b.th.outst 5 = true ∧
        (s.genEnv core slot b).packet s va 4 = (s1, .ok l))
    let hasPeer (s1 : State) (l : List Byte) : Prop := (b.th.wait = .launch l ∧ s1 = s) ∨
      ((∀ l, b.th.wait ≠ .launch l) ∧ va.toNat % 128 = 0 ∧ ackedFor b.th.outst 7 = true ∧
        (s.genEnv core slot b).packet s va 4 = (s1, .ok l))
    ((∀ l, b.th.wait ≠ .launch l) → va.toNat % 128 ≠ 0 →
      ∀ d, ∀ w ∈ [Instr.glaunch a q, .glaunchPeer d a q], traps s core slot 0x20 0 va (exec w s)) ∧
    ((∀ l, b.th.wait ≠ .launch l) → va.toNat % 128 = 0 →
      (ackedFor b.th.outst 5 = false → waits s core slot .ack (exec (.glaunch a q) s)) ∧
      (ackedFor b.th.outst 7 = false → ∀ d, waits s core slot .ack (exec (.glaunchPeer d a q) s))) ∧
    (∀ s1 l, has s1 l →
      let r := s1.lq b.ctx q.toNat
      let takes := r.full = false ∧ s1.memReady (r.slot r.tail 128) = true
      (¬takes → waits s1 core slot (.launch l) (exec (.glaunch a q) s)) ∧
      (takes → goesOn (s1.lqPut b.ctx q.toNat l) core slot b (exec (.glaunch a q) s))) ∧
    (∀ (d : BitVec 5) s1 l, let x := (b.th.reg d.toNat).val.toNat
      hasPeer s1 l →
      (x % 512 = s1.pkg.toNat →
        (s1.peerHeld s1.pkg.toNat (x / 65536 % 4096) q.toNat = true →
          waits s1 core slot (.launch l) (exec (.glaunchPeer d a q) s)) ∧
        (s1.peerHeld s1.pkg.toNat (x / 65536 % 4096) q.toNat = false →
          goesOn (s1.peerLaunch s1.pkg.toNat (x / 65536 % 4096) q.toNat l) core slot b (exec (.glaunchPeer d a q) s))) ∧
      (x % 512 ≠ s1.pkg.toNat →
        ((∀ c, c < 4 → s1.ready.getLsbD (36 + c) = false) → waits s1 core slot (.launch l) (exec (.glaunchPeer d a q) s)) ∧
        (∀ c, c < 4 → s1.ready.getLsbD (36 + c) = true → (∀ k, k < c → s1.ready.getLsbD (36 + k) = false) →
          waits (s1.sendBy c (launchFlitOf s1.pkg (BitVec.ofNat 9 x) (x / 65536 % 4096) q l)) core slot
            (.peer c (s1.cape c).sendSeq) (exec (.glaunchPeer d a q) s))))

/-- R90 to R93, R323: the scalar mailbox words and the launch words. -/
def Obligations.GeneratorQueueWords : Prop := Claims.GeneratorMailboxWords ∧ Claims.LaunchWordsComplete

/-- R350: a GDBG word outside the handler is illegal, and so is one on a control core but RDG and WRG. -/
def Sys2Proof.Claims.DebugWordsNeedHandler : Prop :=
  ∀ (s : State) (core slot : Nat) (b : Block) (i : Instr) (c : Bool), s.thread? = some (core, slot, b) → DebugWord i c →
    (b.th.handler = false ∨ (b.control = true ∧ c = false)) → traps s core slot 0x01 0 0 (exec i s)

/-- R350: the GDBG words in a handler: thread registers of the program; lanes, stamps, uniform registers and items of a
parked gang, each under its index and argument checks (0x13, 0x14, 0x16); an absent lane reads 0, AGELESS, and its write is
discarded; the restamp right (0x31) for WRS. -/
def Sys2Proof.Claims.DebugWordsReadAndWrite : Prop :=
  ∀ (s : State) (core slot : Nat) (b : Block) (o : GrOp), s.thread? = some (core, slot, b) → b.th.handler = true →
    let x := (b.th.reg o.a.toNat).val
    let y := b.th.reg o.b.toNat
    let k := x.toNat % 16
    let L := x.toNat / 2 ^ 8 % 32
    let r := x.toNat / 2 ^ 16 % 128
    gives s core slot b o.d (if x.toNat % 32 = 0 then ⟨0, ageless⟩ else vat b.th.g SVal.zero (x.toNat % 32))
      (exec (.gdbgRdg o) s) ∧
    (∃ th, exec (.gdbgWrg o) s = .next (s.genDone core slot b th) ∧ th = { onAt b.th (b.th.pc + 4) with g := th.g } ∧
      ∀ i, i < 32 → vat th.g SVal.zero i = if i = x.toNat % 32 ∧ i ≠ 0 then y else vat b.th.g SVal.zero i) ∧
    (b.control = false →
    debugs s core slot b k (exec (.gdbgRdv o) s) (fun g =>
      (b.shape.n ≤ r → traps s core slot 0x16 0 0 (exec (.gdbgRdv o) s)) ∧
      (r < b.shape.n → gives s core slot b o.d
        (if b.shape.present.getLsbD (L / 4) then
          ⟨BitVec.ofNat 64 (lane (g.readV 0 r).lanes L).toNat, stampAt (g.readV 0 r).stamps (L / 4)⟩
         else ⟨0, ageless⟩) (exec (.gdbgRdv o) s))) ∧
    debugs s core slot b k (exec (.gdbgWrv o) s) (fun g => r < b.shape.n → r < 126 → ∃ h,
      gangIs s core slot b k h (exec (.gdbgWrv o) s) ∧ h = { g with v := h.v, window := h.window, pend := h.pend } ∧
      (∀ i, i < 32 → lane (h.readV 0 r).lanes i =
        if i = L ∧ b.shape.present.getLsbD (L / 4) = true then BitVec.ofNat 32 y.val.toNat else lane (g.readV 0 r).lanes i) ∧
      ∀ q, q ≠ r → h.readV 0 q = g.readV 0 q) ∧
    debugs s core slot b k (exec (.gdbgRdw o) s) (fun g =>
      (16 ≤ r → traps s core slot 0x16 0 0 (exec (.gdbgRdw o) s)) ∧
      (r < 16 → gives s core slot b o.d (g.viewW 0 r) (exec (.gdbgRdw o) s))) ∧
    debugs s core slot b k (exec (.gdbgWrw o) s) (fun g => r < 16 → ∃ h,
      gangIs s core slot b k h (exec (.gdbgWrw o) s) ∧ h = { g with w := h.w, pend := h.pend } ∧ h.viewW 0 r = y) ∧
    debugs s core slot b k (exec (.gdbgRds o) s) (fun g => r < b.shape.n → gives s core slot b o.d
      ⟨BitVec.ofNat 64 (if b.shape.present.getLsbD (L / 4) then stampAt (g.readV 0 r).stamps (L / 4) else ageless).toNat,
       ageless⟩ (exec (.gdbgRds o) s)) ∧
    debugs s core slot b k (exec (.gdbgWrs o) s) (fun g => r < b.shape.n →
      ((s.ctx b.ctx).restamp = false → traps s core slot 0x31 0 0 (exec (.gdbgWrs o) s)) ∧
      ((s.ctx b.ctx).restamp = true → r < 126 → ∃ h, gangIs s core slot b k h (exec (.gdbgWrs o) s) ∧
        h = { g with v := h.v, window := h.window, pend := h.pend } ∧
        stampAt (h.bank r).stamps (L / 4) = (if b.shape.present.getLsbD (L / 4) then BitVec.ofNat 24 y.val.toNat
          else stampAt (g.bank r).stamps (L / 4)) ∧ (h.bank r).lanes = (g.bank r).lanes)) ∧
    debugs s core slot b k (exec (.gdbgRdx o) s) (fun g =>
      (20 < r → traps s core slot 0x16 0 0 (exec (.gdbgRdx o) s)) ∧
      (r ≤ 20 → ∃ v : Word, gives s core slot b o.d ⟨BitVec.ofNat 64 v.toNat, ageless⟩ (exec (.gdbgRdx o) s) ∧
        (r < 8 → v = vat g.k 0 r) ∧ (r = 8 → v = g.dmask) ∧ (r = 9 → v = g.pmask) ∧ (r = 10 → v = BitVec.ofNat 32 g.spp) ∧
        (r = 19 → v = BitVec.ofNat 32 g.stack.length) ∧
        (∀ q, 11 ≤ r → r ≤ 18 → g.groups.find? (fun z => z.mask.getLsbD (r - 11)) = some q → v = q.pc) ∧
        (r = 20 → ∀ n, g.snap = some n → v = n.ord))) ∧
    gives s core slot b o.d ⟨BitVec.ofNat 64 (vat b.fstat 0 (x.toNat % 64)).toNat, ageless⟩ (exec (.gdbgRdf o) s) ∧
    debugs s core slot b k (exec (.gdbgDump o) s) (fun _ => ∃ t, goesOn t core slot b (exec (.gdbgDump o) s)))

/-- R350: the GDBG words: where they are illegal, and what they read and write. -/
def Obligations.DebugWordsOfHandler : Prop := Claims.DebugWordsNeedHandler ∧ Claims.DebugWordsReadAndWrite

/-- R350, R161: GDBG.PUSHM and POPM move frames of 160 bytes of a parked gang: 1 and nothing else where the window has no
room, else 0 with SPP moved; what PUSHM saves of a register, POPM from the same place gives back to its present lanes. -/
def Obligations.DebugFramesMove : Prop :=
  ∀ (s : State) (core slot : Nat) (b : Block) (o : GrOp) (g : Gang), s.thread? = some (core, slot, b) →
    b.th.handler = true → b.control = false →
    let x := (b.th.reg o.a.toNat).val.toNat
    let k := x % 16
    let lo := x / 2 ^ 16 % 128
    let hi := x / 2 ^ 24 % 128
    k < b.shape.gangs → b.gangs[k]? = some g → g.st = .parked →
    x / 2 ^ 4 % 2 ^ 12 = 0 → x / 2 ^ 23 % 2 = 0 → x < 2 ^ 31 →
    ((hi < lo ∨ b.shape.n ≤ hi) → ∀ w ∈ [Instr.gdbgPushm o, .gdbgPopm o], traps s core slot 0x16 0 0 (exec w s)) ∧
    (lo ≤ hi → hi < b.shape.n →
      let n := hi + 1 - lo
      (b.shape.spill < g.spp + 160 * n → gives s core slot b o.d ⟨1, ageless⟩ (exec (.gdbgPushm o) s)) ∧
      (g.spp + 160 * n ≤ b.shape.spill → ∃ sp, gives (s.onGang core slot k fun _ => { g with spill := sp, spp := g.spp + 160 * n })
          core slot b o.d ⟨0, ageless⟩ (exec (.gdbgPushm o) s) ∧
        ∀ i, i < n → ∃ f, Tbl.get? sp (g.spp + 160 * i) = some f ∧
          ∀ L, L < 4 * b.shape.slices → L < 32 → lane f.lanes L = lane (g.readV 0 (lo + i)).lanes L) ∧
      (g.spp < 160 * n → gives s core slot b o.d ⟨1, ageless⟩ (exec (.gdbgPopm o) s)) ∧
      (160 * n ≤ g.spp → n ≤ 126 → lo + n ≤ 126 → ∃ h, gives (s.onGang core slot k fun _ => h) core slot b o.d ⟨0, ageless⟩
          (exec (.gdbgPopm o) s) ∧
        h = { g with v := h.v, window := h.window, pend := h.pend, spp := g.spp - 160 * n } ∧
        ∀ i f, i < n → Tbl.get? g.spill (g.spp - 160 * n + 160 * i) = some f →
          (∀ L, L < 32 → b.shape.present.getLsbD (L / 4) = true →
            lane (h.readV 0 (lo + i)).lanes L = lane f.lanes L) ∧
          ∀ j, j < 8 → b.shape.present.getLsbD j = true → stampAt (h.readV 0 (lo + i)).stamps j = stampAt f.stamps j))

/-- R65, R300: the cube's words are illegal on a SIMT core; on a control core a deferred fault of the cube is taken in place
of the word, as a deferred fault at it, and is cleared. CUBE.STAT reads the status whatever the cube does. -/
def Obligations.CubeWordsTakeDeferredFault : Prop :=
  ∀ (s : State) (core slot : Nat) (b : Block), s.thread? = some (core, slot, b) →
    (∀ i, CubeWord i →
      (b.control = false → traps s core slot 0x01 0 0 (exec i s)) ∧
      (b.control = true → ∀ f, (s.cube (core / 8)).fault = some f →
        exec i s = .next ((s.setCube (core / 8) { s.cube (core / 8) with fault := none }).gFault core slot f.code f.detail
          f.addr b.th.pc true))) ∧
    (∀ d : BitVec 5, (b.control = false → traps s core slot 0x01 0 0 (exec (.cubeStat d) s)) ∧
      (b.control = true → ∃ v : DWord, gives s core slot b d ⟨v, ageless⟩ (exec (.cubeStat d) s) ∧
        (let c := s.cube (core / 8)
         let n := v.toNat
         let depth := c.queue.length + if c.exec.isSome then 1 else 0
         let st (x : Bank) : Nat := match x.st with
           | .empty => 0
           | .active => 1
           | .full => 2
           | .draining => 3
         c.fop < 128 → depth < 512 → (c.bank c.dp).dcount < 256 → c.stepNow < 65536 →
         v.getLsbD 63 = c.fault.isSome ∧ n / 2 ^ 56 % 128 = c.fop ∧ n / 2 ^ 44 % 4096 = c.fstep % 4096 ∧
         n / 2 ^ 35 % 512 = depth ∧ v.getLsbD 34 = c.act ∧ v.getLsbD 33 = c.dp ∧ n / 2 ^ 30 % 4 = st (c.bank true) ∧
         n / 2 ^ 28 % 4 = st (c.bank false) ∧ v.getLsbD 27 = (c.bank true).suspect ∧
         v.getLsbD 26 = (c.bank false).suspect ∧ v.getLsbD 25 = (c.bank true).poison ∧
         v.getLsbD 24 = (c.bank false).poison ∧ n / 2 ^ 16 % 256 = (c.bank c.dp).dcount ∧ n % 65536 = c.stepNow)))

/-- R302 to R308: the cube's words with no fault pending: the checks made at issue (0x60, 0x61) on the values of the latest
words issued, then the queue. CUBE.WAIT needs 0 or 1 (0x61), waits until the cube is idle, and with 1 ends the thread. -/
def Obligations.CubeWordsEnterQueue : Prop :=
  ∀ (s : State) (core slot : Nat) (b : Block), s.thread? = some (core, slot, b) → b.control = true →
    let c := s.cube (core / 8)
    c.fault = none →
    (∀ o : GrOp, let r (i : BitVec 5) := (b.th.reg i.toNat).val
      enters s core slot b (.shape (r o.a) (r o.b) (r o.d)) { c with im := r o.a, inn := r o.b, ik := r o.d }
        (exec (.cubeShape o) s)) ∧
    (∀ (a : BitVec 5) (m : BitVec 13), let kc := if m.getLsbD 2 then (b.th.reg a.toNat).val else 1
      enters s core slot b (.mode (m.setWidth 16) kc) { c with imode := m.setWidth 16, ikc := kc } (exec (.cubeMode a m) s)) ∧
    (∀ o : WinOp, let x := (b.th.reg o.a.toNat).val
      let w := BitVec.ofNat 16 (o.en.toNat * 256 + o.dil.toNat * 128 + o.str.toNat * 64 + o.kw.toNat * 8 + o.kh.toNat)
      let ok := x.toNat / 2 ^ 48 ≠ 0 ∧ x.toNat / 2 ^ 32 % 2 ^ 16 ≠ 0 ∧ x.toNat / 2 ^ 16 % 2 ^ 16 ≠ 0 ∧
        x.toNat % 2 ^ 16 ≠ 0 ∧ x.toNat % 32 = 0
      (¬ok → traps s core slot 0x61 0 0 (exec (.cubeWin o) s)) ∧
      (ok → enters s core slot b (.win w x) { c with iwin := w, iwga := x } (exec (.cubeWin o) s))) ∧
    (∀ o : LdbOp, let r := (b.th.reg o.d.toNat).val
      let va := (b.th.reg o.a.toNat).val
      let pitch := (b.th.reg o.b.toNat).val
      let es := if o.size then 2 else 1
      let ok := r ≠ 0 ∧ r.toNat * es ≤ (if o.plane then 32768 else 65536) ∧ va.toNat % es = 0 ∧ pitch.toNat % es = 0
      (¬upTo128 c.inn → traps s core slot 0x60 0 0 (exec (.cubeLdb o) s)) ∧
      (upTo128 c.inn → ¬ok → traps s core slot 0x61 0 0 (exec (.cubeLdb o) s)) ∧
      (upTo128 c.inn → ok →
        enters s core slot b (.ldb o.plane o.size r va pitch (if o.acq then some o.scope else none) o.bnd) c
          (exec (.cubeLdb o) s))) ∧
    (∀ o : ScaleOp, let n := (b.th.reg o.d.toNat).val
      let va := (b.th.reg o.a.toNat).val
      let pitch := (b.th.reg o.b.toNat).val
      let ok := n ≠ 0 ∧ n.toNat ≤ 2048 ∧ va.toNat % 2 = 0 ∧ (o.which = 2 ∨ pitch.toNat % 2 = 0)
      (¬ok → traps s core slot 0x61 0 0 (exec (.cubeScale o) s)) ∧
      (ok → ((o.which = 0 ∧ ¬upTo128 c.im) ∨ (o.which = 1 ∧ ¬upTo128 c.inn)) →
        traps s core slot 0x60 0 0 (exec (.cubeScale o) s)) ∧
      (ok → (o.which = 0 → upTo128 c.im) → (o.which = 1 → upTo128 c.inn) →
        enters s core slot b (.scale o.which n va pitch (if o.acq then some o.scope else none) o.bnd) c
          (exec (.cubeScale o) s))) ∧
    (∀ o : CubeMulOp, let gd := (b.th.reg o.d.toNat).val
      let ga := (b.th.reg o.a.toNat).val
      let gb := (b.th.reg o.b.toNat).val
      (c.shapeOk = false → traps s core slot 0x60 0 0 (exec (.cubeMul o) s)) ∧
      (c.shapeOk = true → c.mulArgsOk gd ga gb o.fin = false → traps s core slot 0x61 0 0 (exec (.cubeMul o) s)) ∧
      (c.shapeOk = true → c.mulArgsOk gd ga gb o.fin = true →
        enters s core slot b (.mul gd ga gb o.fin (if o.rel then some o.scope else none) o.bnd) c (exec (.cubeMul o) s))) ∧
    enters s core slot b .zero c (exec .cubeZero s) ∧
    (∀ a : BitVec 5, let x := (b.th.reg a.toNat).val
      let idle := c.queue = [] ∧ c.exec = none ∧ c.image = []
      (2 ≤ x.toNat → traps s core slot 0x61 0 0 (exec (.cubeWait a) s)) ∧
      (x.toNat < 2 → ¬idle → waits s core slot .cubeWait (exec (.cubeWait a) s)) ∧
      (x = 0 → idle → goesOn s core slot b (exec (.cubeWait a) s)) ∧
      (x = 1 → idle → exec (.cubeWait a) s = .next (s.genDone core slot b { onAt b.th (b.th.pc + 4) with ended := true })))

end

namespace Sys2Proof.Claims

open Sys2Proof.Machine

/-! ### Issue, words that do not issue, decoding, the step, the whole machine -/

/-- The row of a unit's step. -/
inductive RowOf : Job → Instr → Prop
  | variableLatencyResultReturn c b g id : RowOf (.variableLatencyResultReturn c b g id) (.variableLatencyResultReturn c b g id)
  | handlerEntry c b : RowOf (.handlerEntry c b) (.handlerEntry c b)
  | preciseStop c b g : RowOf (.preciseStop c b g) (.preciseStop c b g)
  | breakpointMatch c b g m : RowOf (.breakpointMatch c b g m) (.breakpointMatch c b g m)
  | pauseExpiry c b g : RowOf (.pauseExpiry c b g) (.pauseExpiry c b g)
  | gpauseExpiry c b : RowOf (.gpauseExpiry c b) (.gpauseExpiry c b)
  | memorySetRecompute c : RowOf (.memorySetRecompute c) (.memorySetRecompute c)
  | barrierWatchdog c b t : RowOf (.barrierWatchdog c b t) (.barrierWatchdog c b t)
  | progressWatchdog c b t : RowOf (.progressWatchdog c b t) (.progressWatchdog c b t)
  | ferryAdmission c b g m : RowOf (.ferryAdmission c b g m) (.ferryAdmission c b g m)
  | ferryCompletion c id : RowOf (.ferryCompletion c id) (.ferryCompletion c id)
  | ferryStall c id : RowOf (.ferryStall c id) (.ferryStall c id)
  | feedCompletion c id : RowOf (.feedCompletion c id) (.feedCompletion c id)
  | drainCompletion c id : RowOf (.drainCompletion c id) (.drainCompletion c id)
  | sequencerOperationStart cl : RowOf (.sequencerOperationStart cl) (.sequencerOperationStart cl)
  | cubeLoadCompletion cl : RowOf (.cubeLoadCompletion cl) (.cubeLoadCompletion cl)
  | cubeMulStep cl : RowOf (.cubeMulStep cl) (.cubeMulStep cl)
  | imageDrainCompletion cl : RowOf (.imageDrainCompletion cl) (.imageDrainCompletion cl)
  | packetConsume : RowOf (.packetConsume) (.packetConsume)
  | harbourEntry : RowOf (.harbourEntry) (.harbourEntry)
  | blockDispatch i : RowOf (.blockDispatch i) (.blockDispatch i)
  | cubeNodeDispatch i : RowOf (.cubeNodeDispatch i) (.cubeNodeDispatch i)
  | blockEnd c b : RowOf (.blockEnd c b) (.blockEnd c b)
  | successorCompletion : RowOf (.successorCompletion) (.successorCompletion)
  | gangEviction i : RowOf (.gangEviction i) (.gangEviction i)
  | blockEviction i : RowOf (.blockEviction i) (.blockEviction i)
  | gangRestore c : RowOf (.gangRestore c) (.gangRestore c)
  | blockRestore i : RowOf (.blockRestore i) (.blockRestore i)
  | cutComplete x : RowOf (.cutComplete x) (.cutComplete x)
  | pageMigration x va : RowOf (.pageMigration x va) (.pageMigration x va)
  | shootdownCompletion : RowOf (.shootdownCompletion) (.shootdownCompletion)
  | tideFlitSend c : RowOf (.tideFlitSend c) (.tideFlitSend c)
  | writeAcknowledgement w n c : RowOf (.writeAcknowledgement w n c) (.writeAcknowledgement w n c)

/-- A word that has no register fields and no marks issues so, as far as its fault is concerned. -/
def noFields : How := ⟨false, false, .mem, 1, false, []⟩

/-- The machine elsewhere than in one gang of the word in hand: the state is `s` but for `cores`; in the word's core the
blocks and the lane-cycle counts of R357, in its block `b` as given, change. -/
structure Elsewhere1 (e : Env) (s t : State) (b : Block) : Prop where
  frame : t = { s with cores := t.cores }
  cores : ∀ c, c ≠ e.core → t.core c = s.core c
  core : t.core e.core = { s.core e.core with
    blocks := (t.core e.core).blocks, lccnt := (t.core e.core).lccnt, lcidle := (t.core e.core).lcidle }
  others : ∀ k, k ≠ e.slot → t.block? e.core k = s.block? e.core k
  block : t.block? e.core e.slot = some b

end Sys2Proof.Claims

section
open Sys2Proof Sys2Proof.Machine Sys2Proof.Claims

/-- R30, R31, R48, R121, R119, R125, R254, R344, R356: what the issue of a word does beside its own result: the group's PC
moves past the word; a chained run goes on only where R31 and R48 let it; at the end of the run an S mark parks the group
while results are open, and closes them otherwise; the window, the issue records, the last stop site and the region entry. -/
def Obligations.IssuedWordCompletes : Prop :=
  ∀ (s : State) (e : Env) (h : How) (g1 : Gang) (tr : Option Transient), s.env? = some e → e.accepts h →
    g1.groups = e.g.groups →
    let x := (e.b.slotFor e.grp).1
    let next := e.b.slotOf (e.pc + 1)
    let goes := h.c = true ∧ h.ctl = false ∧ h.size = 1 ∧ e.pc.toNat % 3 ≠ 2 ∧ e.pc.toNat + 1 < e.b.s.toNat ∧ next.kind ≠ 1 ∧
      (needsTrail next.word = true → e.pc.toNat + 2 < e.b.s.toNat)
    let marked := h.s = true ∨ ∃ r, e.grp.run = some r ∧ r.s = true
    let open' := ∃ p ∈ g1.pend, p.returned = false ∧ p.slices &&& e.m ≠ 0
    let t := e.completes h (.done (s.onGang e.core e.slot e.gang fun _ => g1) tr)
    ∃ (g2 : Gang) (run : Option Run) (park : Bool),
      Elsewhere1 e s t { e.b with gangs := modAt e.b.gangs e.gang fun _ => g2 } ∧
      (run.isSome = true ↔ goes) ∧ (park = true ↔ ¬goes ∧ marked ∧ open') ∧
      g2.groups = e.g.groups.map (fun y => if y.mask = e.m then
        { y with pc := y.pc + BitVec.ofNat 32 h.size, wait := .none, run := run, parked := y.parked || park
                 last := g1.wnum + 1, passed := false, matched := false, held := none, counted := []
                 site := if x.kind.toNat < 2 then y.site else some x.spord } else y) ∧
      g2 = { g1 with groups := g2.groups, v := g2.v, w := g2.w, pend := g2.pend, window := g2.window, wnum := g1.wnum + 1
                     site := g2.site, siteOrd := g2.siteOrd, snap := g2.snap, refires := g2.refires, afterRb := g2.afterRb
                     issues := ({ gpclo := x.gpclo, ord := e.pc, gthread := x.gthread, grp := e.m, kind := x.kind
                                  cyc := (s.core e.core).cycle } :: g1.issues).take 64 } ∧
      ((goes ∨ ¬marked ∨ open') → g2.v = g1.v ∧ g2.w = g1.w ∧ g2.pend = g1.pend ∧
        g2.window = (⟨g1.wnum, tr⟩ :: g1.window).take 8) ∧
      ((¬goes ∧ marked ∧ ¬open') → ∀ p ∈ g2.pend, p.slices &&& e.m = 0) ∧
      (x.kind.toNat < 2 → g2.site = g1.site ∧ g2.siteOrd = g1.siteOrd) ∧
      (2 ≤ x.kind.toNat → g2.site = some x.spord ∧ g2.siteOrd = e.pc) ∧
      (x.kind ≠ 3 → g2.snap = g1.snap ∧ g2.refires = g1.refires ∧ g2.afterRb = g1.afterRb) ∧
      (x.kind = 3 → g2.snap = some { ord := e.pc, spord := some x.spord, groups := e.g.groups.map fun y => (y.mask, y.pc)
                                     dmask := e.g.dmask, pmask := e.g.pmask, spp := e.g.spp, stack := e.g.stack } ∧
        g2.afterRb = false ∧ g2.refires = if g1.afterRb then g1.refires else 0)

/-- R45, R31: a word with an illegal register field faults with 0x02 and the field; one whose run has no pipe left for it
with 0x05; in neither case has it issued. -/
def Sys2Proof.Claims.IllegalRegistersAndChains : Prop :=
  ∀ (s : State) (e : Env) (i : Instr) (o : RegOp), s.env? = some e →
    ((∃ f, IntTwo i o f) ∨ (∃ f, FloatTwo i o f) ∨ (∃ f, FloatThree i o f) ∨ (∃ m f, PackedTwo i o m f) ∨
      ∃ f, PackedThree i o f) →
    let ok (r : BitVec 7) := r.toNat < e.b.shape.n ∨ r = 126
    let okB := ok o.b ∨ o.b = 127
    let stops (code detail : Nat) := exec i s = .next (e.finish (regHow o) none (.fault s code detail))
    (¬ok o.d → stops 0x02 o.d.toNat) ∧ (ok o.d → ¬ok o.a → stops 0x02 o.a.toNat) ∧
    (ok o.d → ok o.a → ¬okB → stops 0x02 o.b.toNat) ∧
    (ok o.d → ok o.a → okB → ∀ r, e.grp.run = some r → 2 ≤ r.fma → stops 0x05 0)

/-- R66, R67, R101: a word that decodes to nothing raises illegal-word in its gang, and in its thread. -/
def Sys2Proof.Claims.IllegalWordsFault : Prop :=
  ∀ (s : State) (w : Word),
    (∀ e, s.env? = some e → exec (.illegalWord w) s = .next (e.finish noFields none (.fault s 0x01 0))) ∧
    (∀ core slot b, s.thread? = some (core, slot, b) → traps s core slot 0x01 0 0 (exec (.illegalWord w) s))

/-- R104, R337: a W-level fault: the gang parks at its word with its groups where they stand; its record, of that word,
enters the thread's queue, which holds one record of a gang, the oldest first and of one cycle's the lower gang; nothing else of the machine changes but what the end of a
chained run closes (R31). -/
def Sys2Proof.Claims.FaultedWordParks : Prop :=
  ∀ (s : State) (e : Env) (h : How) (run : Option Run) (code detail : Nat), s.env? = some e →
    code < 2 ^ 16 → detail < 2 ^ 16 → e.b.ctx < 2 ^ 12 → e.gang < 16 →
    let t := e.finish h run (.fault s code detail)
    ∃ (b : Block) (g : Gang), Elsewhere1 e s t b ∧
      b = { e.b with gangs := modAt e.b.gangs e.gang (fun _ => g), mbs := b.mbs, th := { e.b.th with
             queue := b.th.queue, qcycle := b.th.qcycle, qtail := b.th.qtail } } ∧
      (∀ i, i < 16 → (vat b.mbs Mailbox.empty i).v = (vat e.b.mbs Mailbox.empty i).v ∧
        (vat b.mbs Mailbox.empty i).full = (vat e.b.mbs Mailbox.empty i).full) ∧
      g = { e.g with st := .parked, faultParked := true, halted := g.halted, groups := g.groups, v := g.v, w := g.w
                     pend := g.pend, window := g.window } ∧
      (g.halted = true ↔ e.g.halted = true ∨ e.g.req = .halt ∨ e.g.req = .step) ∧
      g.groups.map (fun y => (y.mask, y.pc)) = e.g.groups.map (fun y => (y.mask, y.pc)) ∧
      ((∃ q ∈ e.b.th.queue, q.loc.toNat % 16 = e.gang) → b.th.queue = e.b.th.queue) ∧
      ((∀ q ∈ e.b.th.queue, q.loc.toNat % 16 ≠ e.gang) → ∃ r l1 l2, e.b.th.queue = l1 ++ l2 ∧ b.th.queue = l1 ++ [r] ++ l2 ∧
        (e.b.th.qcycle ≠ (s.core e.core).cycle → l2 = []) ∧ (∀ q, l2.head? = some q → e.gang < q.loc.toNat % 16) ∧
        r.cause.toNat = e.b.ctx * 2 ^ 52 + detail * 2 ^ 16 + code ∧ r.loc.toNat = e.m.toNat * 2 ^ 16 + e.gang ∧
        r.addr.toNat = e.pc.toNat ∧ r.pc = e.b.th.pc ∧ r.node = e.b.node ∧
        ∀ y, e.g.groups.find? (fun y => y.mask &&& e.m != 0 && y.pc == e.pc) = some y →
          r.prov.toNat = (e.b.slotFor y).1.gthread.toNat * 2 ^ 32 + (e.b.slotFor y).1.gpclo.toNat)

/-- R45, R31, R66, R67, R104: the words that do not issue, and what their fault does. -/
def Obligations.FaultedWordsPark : Prop :=
  Claims.IllegalRegistersAndChains ∧ Claims.IllegalWordsFault ∧ Claims.FaultedWordParks

/-- R40 to R65: decoding inverts encoding: every well-formed word of every family, with every operand at every value its
encoding admits, is what its own words decode to, whatever stands after a word that takes no trailing word; and the decoder
answers nothing but well-formed instructions. -/
def Obligations.DecodeInvertsEncode : Prop :=
  (∀ i : Instr, i.wf = true →
    match encode i with
    | .wide w (some x) => needsTrail w = true ∧ decodeWide w x = .ok i
    | .wide w none => needsTrail w = false ∧ ∀ x, decodeWide w x = .ok i
    | .gen w => ∃ c, decodeGen c w = .ok i
    | .event => True) ∧
  (∀ w x i, decodeWide w x = .ok i → i.wf = true) ∧ (∀ c w i, decodeGen c w = .ok i → i.wf = true)

/-- The worked encodings of the spec's chapters 4 and 5 (R67 and after): words decode to what they are said to be. -/
def Obligations.SampleWordsDecode : Prop :=
  decodeWide 0xB0440120 0x02000000 = .ok (.ldx
    { s := true, c := false, d := 8, voff := 1, wsel := 2, bnd := 0, ord := 0, scope := 0, size := 2, aop := 0, policy := 0
      mode := 0, off := 0 }) ∧
  decodeWide 0xB0440120 0x62000000 = .ok (.ldx
    { s := true, c := false, d := 8, voff := 1, wsel := 2, bnd := 0, ord := 1, scope := 4, size := 2, aop := 0, policy := 0
      mode := 0, off := 0 }) ∧
  decodeWide 0x1A091004 0 = .ok (.fmulKc { s := false, c := false, d := 9, a := 8, i := 4 }) ∧
  decodeWide 0x35000000 0 = .ok (.exit false false) ∧
  decodeWide 0x02000000 0 = .ok (.umin { s := false, c := false, d := 0, a := 0, b := 0, t := false, lit := 0 }) ∧
  decodeWide 0x048284FE 0x3FA00000 = .ok (.fmul
    { s := false, c := false, d := 5, a := 4, b := 127, t := false, lit := 0x3FA00000 }) ∧
  decodeWide 0x2833FA00 0 = .ok (.fmovf { s := false, c := false, d := 3, i := 0x3FA00 }) ∧
  decodeWide 0x2033DCCC 0 = .ok (.faddf { s := false, c := false, d := 3, i := 0x3DCCC }) ∧
  decodeGen false 0x04E70001 = .ok (.addi { d := 7, a := 7, i := 1 }) ∧
  decodeGen false 0x64E8FFFA = .ok (.bne { a := 7, b := 8, j := 0xFFFA })

/-- R31, R67, R73, R77, R101, R125 to R127 (and log 1 for the agenda): a step runs the decoded instruction: the next word of
a chained run, of the group that issues (one that waits has fetched its word), of the thread whose turn it is; a word that fails tests 2 to 5 of R67 faults; a step
of a unit is the meaning of its row. -/
def Obligations.StepRunsDecodedInstruction : Prop :=
  (∀ (b : Block) (pc : Word) (i : Instr), pc.toNat < b.s.toNat → b.f.toNat ≤ pc.toNat → (b.slotOf pc).kind ≠ 1 →
    (needsTrail (b.slotOf pc).word = true → (b.slotOf (pc + 1)).kind = 1 ∧ pc.toNat + 1 < b.s.toNat) →
    decodeWide (b.slotOf pc).word (b.slotOf (pc + 1)).word = .ok i → ∀ x : Group, x.pc = pc → (x.wait = .none ∨ x.held = none) →
    b.fetchFor x = .instr i) ∧
  (∀ (b : Block) (x : Group) (w : Slot) (t : Word) (i : Instr), x.wait ≠ .none → x.held = some (w, t) →
    decodeWide w.word t = .ok i → b.fetchFor x = .instr i) ∧
  (∀ (s t u : State) (core pa : Nat) (b : Block) (w : Word) (i : Instr),
    s.translate core b.ctx b.th.pc false 4 = (t, .ok pa) → t.codeWord core pa b.born = (u, w) → u.homeBad (pa / 32) = false →
    decodeGen b.control w = .ok i → s.genFetch core b = (u, .instr i)) ∧
  (∀ (s : State) (core slot gang : Nat) (b : Block) (x : Group), s.inRun = some (core, slot, gang, b, x) →
    s.bpsAt b x = [] →
    let t := { s with cur := .wide core slot gang x.mask }
    (∀ i, b.fetchFor x = .instr i → step s = exec i t) ∧
    (∀ w, b.fetchFor x = .illegal w → step s = exec (.illegalWord w) t)) ∧
  (∀ (s : State) (core : Nat) (r : List Turn) (a : Cand) (x : Group), s.inRun = none → s.turns = .wide core :: r →
    let q := { s with turns := r }
    (q.core core).stopDue = none → q.pick core = some a → a.group = some x →
    let u := q.setCore core (q.pickCore core)
    u.bpsAt a.b x = [] →
    let t := { u with cur := .wide core a.slot a.gang x.mask }
    (∀ i, a.b.fetchFor x = .instr i → step s = exec i t) ∧
    (∀ w, a.b.fetchFor x = .illegal w → step s = exec (.illegalWord w) t) ∧
    (∀ e, t.env? = some e →
      (a.b.fetchFor x = .stale → step s = .next (e.finish noFields none (.fault t 0x04 0))) ∧
      (a.b.fetchFor x = .trailing → step s = .next (e.finish noFields none (.fault t 0x03 0))))) ∧
  (∀ (s : State) (core slot : Nat) (r : List Turn) (b : Block), s.inRun = none → s.turns = .gen core :: r →
    let q := { s with turns := r }
    q.genPick core = some (slot, b) → b.faultReady = none →
    let u := { q.setCore core { q.core core with genrr := slot } with cur := .gen core slot }
    (∀ t i, u.genFetch core b = (t, .instr i) → step s = exec i t) ∧
    (∀ t w, u.genFetch core b = (t, .illegal w) → step s = exec (.illegalWord w) t)) ∧
  (∀ (s : State) (r : List Turn), s.inRun = none →
    (∀ i, s.turns = .event i :: r → step s = exec i { s with turns := r }) ∧
    (∀ j i, RowOf j i → s.turns = .job j :: r → step s = exec i { s with turns := r }))

/-- R5, R203, R251, R317, R352, R365, R126 (and log 12 for what no rule gives): the machine right after power-up. -/
def Obligations.ResetValues : Prop :=
  let s := State.reset
  s.memOk ∧ s.ready = 0 ∧ s.tide = 0 ∧ s.turns = [] ∧ s.cores = [] ∧ s.insts = [] ∧
    (∀ a, s.mem.byte a = 0 ∧ s.mem.stamp (a / 32) = ancient ∧ s.mem.bad (a / 32) = false) ∧
    (∀ x, (s.ctx x).st = .free ∧ (s.ctx x).plog = 32 ∧ (s.ctx x).blog = 28 ∧ (s.ctx x).ben = true ∧ (s.ctx x).pen = true ∧
      (s.ctx x).hold = false ∧ (s.ctx x).shift = 0 ∧ (s.ctx x).offset = 0) ∧
    (∀ c, (s.core c).cycle = 0 ∧ (s.core c).t = 32 ∧ (s.core c).blocks = []) ∧
    s.free64.log2n = 4 ∧ s.victim.log2n = 4 ∧ s.done.log2n = 4

/-- The model's own invariant (R164, R193, R203 give the contents; the form is the model's): device memory keeps its
canonical form through every step of the machine, whatever it executes. -/
def Obligations.StepsKeepMemoryCanonical : Prop :=
  ∀ s t : State, s.memOk → step s = .next t → t.memOk

end

namespace Sys2Proof.Claims

open Sys2Proof.Machine

/-! ### Steps of a core -/

/-- A pending result of the gang other than `p` keeps the slices `m` waiting (R121). -/
def waitsOn (g : Gang) (p : Pend) (m : BitVec 8) : Prop := ∃ q ∈ g.pend, q.id ≠ p.id ∧ q.returned = false ∧ q.slices &&& m ≠ 0

/-- The gang `g'` is `g` after result `p` has returned: groups parked at a switch go on where nothing else keeps them. -/
def afterReturn (g g' : Gang) (p : Pend) : Prop :=
  g' = { g with groups := g'.groups, v := g'.v, w := g'.w, pend := g'.pend, window := g'.window } ∧
  (∀ q ∈ g'.pend, q.id = p.id → q.returned = true) ∧ g'.groups.length = g.groups.length ∧
  ∀ (i : Nat) (y y' : Group), g.groups[i]? = some y → g'.groups[i]? = some y' →
    y' = { y with parked := y'.parked } ∧ (y'.parked = true ↔ y.parked = true ∧ waitsOn g p y.mask)

/-- The context has ended by a fault with this cause code (R316). -/
def ended (t : State) (ctx code : Nat) : Prop :=
  (t.ctx ctx).st = .terminated ∧ (t.ctx ctx).cause = BitVec.ofNat 16 code ∧ t.insts.all (fun x => x.ctx != ctx) = true

/-- Code and detail of the W-level fault that a late cause gives (R104, R343); a refire and a held access give none. -/
def lateCode : LateCause → Option (Nat × Nat)
  | .translation d => some (0x22, d)
  | .poison => some (0x23, 0)
  | .pipeline u => some (0x80, u)
  | .freshness d => some (0x30, d)
  | .refire _ _ | .migrate _ => none

/-- The gang `g` as result `p` has left it with a late cause. -/
def withLate (g : Gang) (p : Pend) (c : LateCause) : Gang :=
  { g with pend := g.pend.filter fun q => q.id != p.id, late := some (c, p.ord, p.slices) }

/-- The gang `g'` stands where its region entry `n` stood (R255): PCs, masks, spill pointer and containment stack are those of
the entry, less the slices that have exited, and nothing is outstanding. -/
def backAtEntry (g g' : Gang) (n : Snapshot) : Prop :=
  g'.groups.map (fun x => (x.mask, x.pc)) =
    (n.groups.filter fun x => x.1 &&& ~~~g.exited != 0).map (fun x => (x.1 &&& ~~~g.exited, x.2)) ∧
  g'.dmask = n.dmask ∧ g'.pmask = n.pmask ∧ g'.spp = n.spp ∧ g'.stack = n.stack ∧ g'.pend = [] ∧ g'.window = [] ∧
  g'.late = none

end Sys2Proof.Claims

section
open Sys2Proof Sys2Proof.Machine Sys2Proof.Claims

/-- R120, R121, R253: a result none of whose stamps fails its bound entry returns: the gang's groups parked for it go on; the register of
an only result holds it in the lanes of the result; a result that failed is delivered nowhere; a second return is none. -/
def Sys2Proof.Claims.ResultsReturn : Prop :=
  ∀ (s : State) (core slot gang : Nat) (b : Block) (g : Gang) (p : Pend), s.block? core slot = some b →
    b.gangs[gang]? = some g → g.late = none → g.pend.Pairwise (fun x y => x.id ≠ y.id) → p ∈ g.pend →
    let out := exec (.variableLatencyResultReturn core slot gang p.id) s
    (p.returned = true → out = .next s) ∧
    (p.returned = false → p.fail = none → p.acq = none → p.atom = none →
      (∀ x ∈ p.checks (s.now b.ctx), s.boundFails b.ctx p.bnd.toNat x.1 = false) → (∀ w m, p.val ≠ .mail w m) →
      ∃ g', out = .next (s.onGang core slot gang fun _ => g') ∧ afterReturn g g' p ∧
        (g.pend = [p] → p.tr = false → p.dead.all (· == 0) = true →
          (∀ reg m x st, p.val = .spec reg m x st → reg < 126 → ∀ i, i < 32 → lane (g'.viewV 0 reg).lanes i =
            if m.getLsbD i then lane x i else lane (g.bank reg).lanes i) ∧
          (∀ reg m l sec adr k x, p.val = .lanes reg m l sec adr → l[k]? = some x → reg + k < 126 → ∀ i, i < 32 →
            lane (g'.viewV 0 (reg + k)).lanes i =
              if m.getLsbD i then lane x i else lane (g.bank (reg + k)).lanes i) ∧
          (∀ w x adr, p.val = .uni w x adr → p.deadUni = false → g'.viewW 0 w.toNat = x))) ∧
    (∀ c, p.returned = false → p.fail = some c → (∀ w m, p.val ≠ .mail w m) →
      (∃ q ∈ g.pend, q.id ≠ p.id ∧ q.returned = false) →
      out = .next (s.onGang core slot gang fun _ =>
        { g with pend := g.pend.filter fun q => q.id != p.id, late := some (c, p.ord, p.slices) }))

/-- R252, R253, R258: a result one of whose stamps fails its bound entry: the failure is counted once for the instruction; with
MARK the result returns all the same; else it is delivered nowhere, and the gang keeps a late fault of the first failing
slice, of freshness or, with REFIRE, for the address that slice names (none for scratchpad). -/
def Sys2Proof.Claims.LateChecksAct : Prop :=
  ∀ (s : State) (core slot gang : Nat) (b : Block) (g : Gang) (p : Pend) (x : Stamp × DWord), s.block? core slot = some b →
    b.gangs[gang]? = some g → g.late = none → g.pend.Pairwise (fun x y => x.id ≠ y.id) → p ∈ g.pend →
    p.returned = false → p.fail = none → p.acq = none → p.atom = none → (∀ w m, p.val ≠ .mail w m) →
    (p.checks (s.now b.ctx)).find? (fun x => s.boundFails b.ctx p.bnd.toNat x.1) = some x →
    let n := p.bnd.toNat
    let out := exec (.variableLatencyResultReturn core slot gang p.id) s
    let hit := if n ∈ p.counted then s else s.boundHit b.ctx n
    let act := (s.ctx b.ctx).boundAct n
    (act = .mark → ∃ g', out = .next (hit.onGang core slot gang fun _ => g') ∧ afterReturn g g' p) ∧
    (act ≠ .mark → (∃ q ∈ g.pend, q.id ≠ p.id ∧ q.returned = false) →
      out = .next (hit.onGang core slot gang fun _ => withLate g p
        (if act = .refire then .refire n (if p.scratch then none else some x.2) else .freshness n)))

/-- R212, R255, R259, R341, R343: the last outstanding result of a gang fails. A translation or freshness fault, and poison
or a pipeline error with an empty containment stack, takes the gang back to its region entry and parks it, with a record of
the entry's ordinal in the thread's queue; poison or a pipeline error with a containment stack unwinds the gang to the stack's
top handler with all masks full and W13 the word's ordinal, detail and code. A held access takes the gang back to wait for
the page; a refire takes it back to wait for the producer, or escalates. -/
def Sys2Proof.Claims.LateFaultsAct : Prop :=
  ∀ (s : State) (core slot gang : Nat) (b : Block) (g : Gang) (p : Pend) (c : LateCause), s.block? core slot = some b →
    b.gangs[gang]? = some g → gang < 16 → g.late = none → g.faultParked = false → b.queued gang = false →
    g.pend.Pairwise (fun x y => x.id ≠ y.id) → p ∈ g.pend → p.returned = false → p.fail = some c →
    (∀ w m, p.val ≠ .mail w m) → (∀ q ∈ g.pend, q.id ≠ p.id → q.returned = true) →
    let out := exec (.variableLatencyResultReturn core slot gang p.id) s
    let s1 := s.onGang core slot gang fun _ => withLate g p c
    let plain (g' : Gang) := g.pend = [p] → g.window = [] → g'.v = g.v
    (∀ code d n, lateCode c = some (code, d) → g.snap = some n → g.stack = [] ∨ code = 0x22 ∨ code = 0x30 →
      ∃ t g' b', out = .next t ∧ t.gang? core slot gang = some g' ∧ t.block? core slot = some b' ∧ backAtEntry g g' n ∧
        plain g' ∧ (g.pend = [p] → g.window = [] → g'.w = g.w) ∧ g'.st = .parked ∧ g'.faultParked = true ∧
        ∃ r ∈ b'.th.queue, r.loc = BitVec.ofNat 64 (p.slices.toNat * 2 ^ 16 + gang) ∧ r.addr = BitVec.ofNat 64 n.ord.toNat ∧
          r.cause = causeWord b.ctx false false false false d code) ∧
    (∀ code d h rest, lateCode c = some (code, d) → code = 0x23 ∨ code = 0x80 → g.stack = h :: rest →
      ∃ t g', out = .next t ∧ t.gang? core slot gang = some g' ∧ plain g' ∧
        g'.groups.map (fun x => (x.mask, x.pc)) = (if g.live = 0 then [] else [(g.live, h)]) ∧ g'.stack = rest ∧
        g'.dmask = laneMask b.shape.present ∧ g'.pmask = laneMask b.shape.present ∧ g'.pend = [] ∧ g'.window = [] ∧
        g'.late = none ∧ g'.st = g.st ∧
        vat g'.w SVal.zero 13 = ⟨BitVec.ofNat 64 (p.ord.toNat * 2 ^ 32 + d * 2 ^ 16 + code), ageless⟩ ∧
        (g.pend = [p] → ∀ w, w < 16 → w ≠ 13 → vat g'.w SVal.zero w = vat g.w SVal.zero w)) ∧
    (∀ va n, c = .migrate va → g.snap = some n →
      ∃ t g', out = .next t ∧ t.gang? core slot gang = some g' ∧ backAtEntry g g' n ∧ plain g' ∧ g'.heldOn = some va ∧
        g'.st = g.st) ∧
    (∀ d, c = .refire d none → out = .next (s1.lateFault core slot gang p.slices 0x30 (d + 96))) ∧
    (∀ d va, c = .refire d (some va) →
      let R := s1.refire b.ctx va g.refires (s.prioOf b.node)
      (R.2 = .wait → out = .next R.1) ∧
      (∀ x, R.2 = .escalate x → out = .next (R.1.lateFault core slot gang p.slices 0x30 (d + x * 32))) ∧
      (∀ node n, R.2 = .on node → g.snap = some n →
        ∃ t g', out = .next t ∧ t.gang? core slot gang = some g' ∧ backAtEntry g g' n ∧ plain g' ∧
          g'.refires = g.refires + 1 ∧ g'.refireOn = some node ∧ g'.st = g.st))

/-- R259: a refire finds the enabled producer entry that covers the address: without one it escalates with reason 1, with its
budget used up with reason 2, before anything else; an instance of the entry that stands is joined; else the entry's
template gives a new one, of priority one above the consumer's and at most 7, whose id it waits for. -/
def Sys2Proof.Claims.RefiresFindTheirProducer : Prop :=
  ∀ (s : State) (ctx : Nat) (va : DWord) (count p : Nat),
    ((s.ctx ctx).covering va = none → s.refire ctx va count p = (s, .escalate 1)) ∧
    ∀ e, (s.ctx ctx).covering va = some e →
      let pr := (s.ctx ctx).producer e
      (pr.budget.toNat ≤ count → s.refire ctx va count p = (s, .escalate 2)) ∧
      (count < pr.budget.toNat →
        (∀ x, s.insts.find? (fun x => x.ctx == ctx && x.producer == some e) = some x →
          s.refire ctx va count p = (s, .on x.node)) ∧
        (s.insts.find? (fun x => x.ctx == ctx && x.producer == some e) = none → fld pr.node 7 0 = 0 →
          ∀ r, (s.readRecord ctx pr.node).2 = .ok r →
            (r.refires va = false → s.refire ctx va count p = ((s.readRecord ctx pr.node).1, .escalate 1)) ∧
            (r.refires va = true → (s.readRecord ctx pr.node).1.insts.length < 16384 →
              ∃ t node x, s.refire ctx va count p = (t, .on node) ∧ x ∈ t.insts ∧ x.node = node ∧ x.ctx = ctx ∧
                x.record = pr.node ∧ x.producer = some e ∧ x.prio = min 7 (p + 1) ∧ x.hasKey = false)))

/-- R34, R124: a posted mailbox read is served when its mailbox is full, it is the first reader there, and its group has no
earlier one open: the mailbox empties and the result is its value; else nothing happens. -/
def Sys2Proof.Claims.PostedReadsAreServed : Prop :=
  ∀ (s : State) (core slot gang : Nat) (b : Block) (g : Gang) (p : Pend) (w m : BitVec 4), s.block? core slot = some b →
    b.gangs[gang]? = some g → g.late = none → g.pend.find? (fun q => q.id == p.id && !q.returned) = some p →
    p.val = .mail w m →
    let box := vat b.mbs Mailbox.empty m.toNat
    let first := box.full = true ∧ box.readers.head? = some (.read gang p.id) ∧
      ∀ q ∈ g.pend.takeWhile (fun q => q.id != p.id), q.returned = false → q.slices &&& p.slices ≠ 0 →
        ∀ w' m', q.val ≠ .mail w' m'
    let out := exec (.variableLatencyResultReturn core slot gang p.id) s
    (¬first → out = .next s) ∧
    (first → ∃ (g' : Gang) (mbs : Vector Mailbox 16),
      out = .next (s.onBlock core slot fun x => { x with mbs := mbs, gangs := modAt b.gangs gang fun _ => g' }) ∧
      (∀ i, i < 16 → vat mbs Mailbox.empty i = if i = m.toNat then
        { box with full := false, readers := box.readers.filter (· != .read gang p.id) } else vat b.mbs Mailbox.empty i) ∧
      (g.pend = [p] → p.tr = false → p.deadUni = false → g'.viewW 0 w.toNat = box.v))

/-- R105: the handler's entry for the oldest W-level fault: the trap bank takes the record and the PC to return to, the
record leaves the queue; without a handler the context ends with the record's code. DESIGN CHOICE, DEDUCED, log 20: the
handler interrupts every wait but that of GLAUNCH.peer, also those that R104 does not list, and a posted mailbox read that
has not been served does not hold it back. -/
def Sys2Proof.Claims.HandlerIsEntered : Prop :=
  ∀ (s : State) (core slot : Nat) (b : Block) (r : Record) (q : List Record), s.block? core slot = some b →
    b.th.handler = false → b.th.halted = false → (∀ c n, b.th.wait ≠ .peer c n) → b.th.queue = r :: q →
    (∀ g p, b.gangs[r.loc.toNat % 16]? = some g → p ∈ g.pend → p.returned = true ∨ ∃ w m, p.val = .mail w m) →
    (b.trap = 0 → ∃ t, exec (.handlerEntry core slot) s = .next t ∧ ended t b.ctx (r.cause.toNat % 2 ^ 16)) ∧
    (b.trap ≠ 0 → ∃ (th : Thread) (mbs : Vector Mailbox 16),
      exec (.handlerEntry core slot) s = .next (s.onBlock core slot fun x => { x with th := th, mbs := mbs }) ∧
      th = { b.th with h := th.h, handler := true, wait := .none, queue := q
                       pc := b.image + BitVec.ofNat 64 b.trap } ∧
      (∀ i, i < 32 → vat th.h SVal.zero i =
        if i = 25 then ⟨r.site, ageless⟩ else if i = 26 then ⟨r.prov, ageless⟩ else if i = 27 then ⟨r.loc, ageless⟩
        else if i = 28 then ⟨BitVec.ofNat 64 (r.cause.toNat % 2 ^ 32), ageless⟩ else if i = 29 then ⟨r.addr, ageless⟩
        else if i = 30 then ⟨b.th.pc, ageless⟩ else vat b.th.h SVal.zero i) ∧
      ∀ i, i < 16 → (vat mbs Mailbox.empty i).v = (vat b.mbs Mailbox.empty i).v ∧
        (vat mbs Mailbox.empty i).full = (vat b.mbs Mailbox.empty i).full)

/-- R81, R134, R331: a stop asked of a running gang with no result outstanding takes effect at a stop site, at a seal stop
(SEALSTOP), or where every group waits (WAITSTOP): the gang parks halted, or leaves for the save area; its slices stay
where they are. A fault that is late, an outstanding result or a group that can go on defers it. R331, R349, R359: of a gang
that a fault has parked a halt or step is done at once, and an eviction takes it as it stands. -/
def Sys2Proof.Claims.StopsTakeEffect : Prop :=
  ∀ (s : State) (core slot gang : Nat) (b : Block) (g : Gang), s.block? core slot = some b → b.gangs[gang]? = some g →
    let out := exec (.preciseStop core slot gang) s
    let ready := g.st = .running ∧ g.evicted = false ∧ g.late = none ∧ ∀ p ∈ g.pend, p.returned = true ∨ ∃ w m, p.val = .mail w m
    let dry (x : Group) := x.wait = .none ∧ x.parked = false ∧ b.fetchStalled x.pc = true
    let site (x : Group) := x.wait = .none ∧ x.parked = false ∧ b.fetchStalled x.pc = false ∧ b.f.toNat ≤ x.pc.toNat ∧
      2 ≤ (b.slotOf x.pc).kind.toNat ∧ x.passed = false
    (g.req = .none → out = .next s) ∧
    (g.req = .halt → g.st ≠ .parked → ¬ready → out = .next s) ∧
    (g.st = .parked → ∃ t g', out = .next t ∧ t.gang? core slot gang = some g' ∧
      g'.groups.map (fun x => (x.mask, x.pc)) = g.groups.map (fun x => (x.mask, x.pc)) ∧ g'.st = .parked ∧
      g'.faultParked = g.faultParked ∧
      (g.req = .halt ∨ g.req = .step → g'.halted = true ∧ g'.req = .none) ∧
      (g.req = .evict → g'.req = .none ∧ (b.stopping = false → g'.evicted = true))) ∧
    (ready → g.refireOn = none → g.heldOn = none → g.req ≠ .none → ∀ ss ws : Bool,
      (((∃ x ∈ g.groups, site x) ∧ ss = false ∧ ws = false) ∨
        ((∀ x ∈ g.groups, ¬site x) ∧ (∃ x ∈ g.groups, dry x) ∧ ss = true ∧ ws = false) ∨
        ((∀ x ∈ g.groups, ¬site x ∧ ¬dry x ∧ x.wait ≠ .none ∧ x.wait ≠ .exit ∧ x.wait ≠ .base ∧ x.wait ≠ .fence ∧
          x.wait ≠ .release) ∧ ss = false ∧ ws = true)) →
      ∃ t g', out = .next t ∧ t.gang? core slot gang = some g' ∧ g'.sealStop = ss ∧ g'.waitStop = ws ∧
        g'.groups.map (fun x => (x.mask, x.pc)) = g.groups.map (fun x => (x.mask, x.pc)) ∧
        (g.req = .halt ∨ g.req = .step → g'.st = .parked ∧ g'.halted = true ∧ g'.req = .none) ∧
        (g.req = .evict ∨ g.req = .cut → g'.st = .running ∧ g'.evicted = true))

/-- R347: a group at a site that one breakpoint register names: an event is posted and counted, and the group has matched;
with ACT 2 its gang runs on, with 0 it halts, with 1 every running gang of the block is asked to halt besides and one that
a fault has parked is halted where it is. -/
def Sys2Proof.Claims.BreakpointsAct : Prop :=
  ∀ (s : State) (core slot gang : Nat) (b : Block) (g : Gang) (x : Group) (n : Nat), s.block? core slot = some b →
    b.gangs[gang]? = some g → g.st = .running → g.evicted = false → g.groups.find? (·.mask == x.mask) = some x →
    s.bpsAt b x = [n] →
    let act := (Tbl.getD (s.ctx b.ctx).bps n Breakpoint.reset).act
    ∃ t g', exec (.breakpointMatch core slot gang x.mask) s = .next t ∧ t.gang? core slot gang = some g' ∧
      g'.groups.map (fun y => (y.mask, y.pc)) = g.groups.map (fun y => (y.mask, y.pc)) ∧
      (∃ y, g'.groups.find? (·.mask == x.mask) = some y ∧ y.matched = true) ∧ (act = 2 → g'.st = .running) ∧
      (act ≠ 2 → g'.st = .parked ∧ g'.halted = true) ∧
      (act = 1 → ∀ j h, j ≠ gang → b.gangs[j]? = some h → h.st = .running → h.req ≠ .step →
        ∃ h', t.gang? core slot j = some h' ∧ h'.req = .halt) ∧
      (act = 1 → ∀ j h, j ≠ gang → b.gangs[j]? = some h → h.st = .parked → h.req ≠ .halt → h.req ≠ .step →
        ∃ h', t.gang? core slot j = some h' ∧ h'.st = .parked ∧ h'.halted = true) ∧
      ((s.ctx b.ctx).dbgring.full = false → (t.ctx b.ctx).dbgring.tail = (s.ctx b.ctx).dbgring.tail + 1)

/-- R128, R104: a pause whose count stands at 1 ends, and the gang's wait count starts anew; an evicted gang's stays. -/
def Sys2Proof.Claims.PausesEnd : Prop :=
  ∀ (s : State) (core slot gang : Nat) (b : Block), s.block? core slot = some b →
    (∀ g, b.gangs[gang]? = some g → g.pause = 1 → exec (.pauseExpiry core slot gang) s =
      .next (s.onGang core slot gang fun _ => if g.evicted then g else { g with pause := 0, waitc := 0 })) ∧
    (b.th.pause = 1 → exec (.gpauseExpiry core slot) s = .next (s.onThread core slot fun _ => { b.th with pause := 0 }))

/-- R126: at the end of an interval T falls by 2 (not below 2) where the losses exceed 64, rises by 2 (not above 32) where
they are below 16; the losses start anew; the memory set holds at most T of the core's running gangs, and all of them where
they are no more than T. -/
def Sys2Proof.Claims.MemorySetIsRecomputed : Prop :=
  ∀ (s : State) (core : Nat), (s.core core).due = true →
    let c := s.core core
    let loss : Nat := (c.blocks.map fun e => (e.2.gangs.map (·.loss)).sum).sum
    ∃ (c' : Core) (l : List (Nat × Nat)), exec (.memorySetRecompute core) s = .next (s.setCore core c') ∧
      c' = { c with t := c'.t, due := false, memset := some l, blocks := c'.blocks } ∧
      c'.t = (if 64 < loss then max 2 (c.t - 2) else if loss < 16 then min 32 (c.t + 2) else c.t) ∧
      l.length = min c'.t (c.blocks.map fun e => (e.2.gangs.filter fun g => g.st == .running && !g.evicted).length).sum ∧
      (∀ e ∈ c'.blocks, ∀ g ∈ e.2.gangs, g.loss = 0 ∧ g.throttled = false) ∧
      c'.blocks.map (·.1) = c.blocks.map (·.1)

/-- R352, R353: an enabled timer that still runs and has reached its limit ends the context, with cause 0x81 for a barrier
and 0x82 for progress; below the limit nothing happens. -/
def Sys2Proof.Claims.WatchdogsFire : Prop :=
  ∀ (s : State) (core slot : Nat) (b : Block) (k : TimerKey) (n gang : Nat) (m : BitVec 8), s.block? core slot = some b →
    b.timers.find? (fun y => y.1 == k) = some (k, n, gang, m) → (s.timersOf core slot b).any (fun y => y.1 == k) = true →
    let c := s.ctx b.ctx
    let log := if k.progress then c.plog.toNat else c.blog.toNat
    let limit := if 20 ≤ log ∧ log ≤ 36 then 2 ^ log else 2 ^ 36
    let on := if k.progress then c.pen else c.ben
    let out := exec (if k.progress then .progressWatchdog core slot k else .barrierWatchdog core slot k) s
    (on = true → limit ≤ n → ∃ t, out = .next t ∧ ended t b.ctx (if k.progress then 0x82 else 0x81)) ∧
    (on = false ∨ n < limit → out = .next s)

/-- Results, late faults, refires, handler entries, stops, breakpoints, pauses, the memory set and the watchdogs of a core: each step of these
rows has its effect. -/
def Obligations.CoreStepsComplete : Prop :=
  Claims.ResultsReturn ∧ Claims.LateChecksAct ∧ Claims.LateFaultsAct ∧ Claims.RefiresFindTheirProducer ∧
    Claims.PostedReadsAreServed ∧ Claims.HandlerIsEntered ∧ Claims.StopsTakeEffect ∧
    Claims.BreakpointsAct ∧ Claims.PausesEnd ∧ Claims.MemorySetIsRecomputed ∧ Claims.WatchdogsFire

end

section
open Sys2Proof Sys2Proof.Machine Sys2Proof.Claims

/-! ### The ferry, FEED and DRAIN: steps of the engines -/

/-- R275, R276: the first command held in a core whose wheel tests pass is admitted where the queue has an entry for which no
other command that can go on has waited longer: it enters the queue, and its group goes on past its word. A wheel test that
fails holds it and begins no wait for an entry; a full queue holds it, and its wait for an entry runs from its first test. -/
def Sys2Proof.Claims.FerryIsAdmitted : Prop :=
  ∀ (s : State) (core slot gang : Nat) (m : BitVec 8) (b : Block) (g : Gang) (f : FerryCmd)
    (r : List (Nat × Nat × BitVec 8 × FerryCmd)), s.block? core slot = some b → b.gangs[gang]? = some g →
    g.st = .running → g.evicted = false → (s.core core).ferryWait = (slot, gang, m, f) :: r →
    (∀ x ∈ r, (x.1, x.2.1, x.2.2.1) ≠ (slot, gang, m)) →
    let c := s.core core
    let out := exec (.ferryAdmission core slot gang m) s
    let first := ∃ y ∈ c.ferryWait, s.ferryFirst core f.waits y = true
    (b.fixSides f = none → out = .next s) ∧
    (64 ≤ c.ferry.length ∨ first → b.fixSides f ≠ none →
      (f.waits ≠ none → out = .next s) ∧
      (f.waits = none → ∃ t, out = .next t ∧ (t.core core).ferry = c.ferry ∧ t.mem = s.mem ∧
        (∀ k, (t.core k).blocks = (s.core k).blocks) ∧
        (t.core core).ferryWait = (slot, gang, m, { f with waits := some s.clock }) :: r)) ∧
    (c.ferry.length < 64 → ¬first → ∀ x, b.fixSides f = some x → ∃ t, out = .next t ∧
      (t.core core).ferry = c.ferry ++ [{ x with id := s.clock, born := c.cycle.toNat }] ∧ (t.core core).ferryWait = r ∧
      t.gang? core slot gang = some { g with groups := g.groups.map fun y =>
        if y.mask = m ∧ y.wait = .ferry then { y with wait := .none, pc := y.pc + 2 } else y } ∧ t.mem = s.mem) ∧
    (f.srcWheel = none → f.dstWheel = none → b.fixSides f = some { f with stage := none })

/-- What is left of a FERRY command that has completed with status `k` (R280): its tag set and no longer pending, its
status, its error bit where the status is not 0; it has left the queue, and other tags are as they were. -/
def Sys2Proof.Claims.ferryOver (s t : State) (core : Nat) (b : Block) (f : FerryCmd) (k : Nat) : Prop :=
  ∃ b', t.block? core f.slot = some b' ∧ vat b'.fstat 0 f.tag.toNat = BitVec.ofNat 4 k ∧
    (∀ i, i < 64 → b'.tags.getLsbD i = (b.tags.getLsbD i || i == f.tag.toNat) ∧
      b'.tagpend.getLsbD i = (b.tagpend.getLsbD i && i != f.tag.toNat) ∧
      b'.tagerr.getLsbD i = (b.tagerr.getLsbD i || (i == f.tag.toNat && k != 0))) ∧
    (t.core core).ferry.map (·.id) = ((s.core core).ferry.filter fun x => x.id != f.id).map (·.id)

/-- A command of the eight in transfer of a core that has begun, with nothing left to wait for before its transfer, and no
release and no arrival to make (R236, R276, R280). -/
def Sys2Proof.Claims.ferryGoes (s : State) (core : Nat) (b : Block) (g : Gang) (f : FerryCmd) : Prop :=
  (s.core core).ferryAt f.id = some f ∧ (s.core core).ferry.Pairwise (fun x y => x.id ≠ y.id) ∧
    s.block? core f.slot = some b ∧ s.gang? core f.slot f.gang = some g ∧ (∀ p ∈ g.outst, p.1 ≠ f.id + 1) ∧
    f.begun = true ∧ f.done = false ∧ f.tail = [] ∧ f.rel = none ∧ f.flits = []

/-- What a command reads (R277): each destination sector with the bytes, stamp and poison that it takes, or what stops it. -/
def Sys2Proof.Claims.ferryPlan (s : State) (core : Nat) (b : Block) (f : FerryCmd) :
    State × List (Nat × Except CopyStop CopyData) × Bool :=
  (s.ferryAcq core f).plan core b.ctx (s.now b.ctx) f f.pairs (sectorsOf (f.pairs.map (·.1))).reverse

/-- R276, R273, R283: an admitted command begins its transfer once every earlier one has; it writes nothing then. The target of a
copy to another block is tested as it begins, and one that fails is over with that status; other commands stay. -/
def Sys2Proof.Claims.FerryBegins : Prop :=
  ∀ (s : State) (core : Nat) (b : Block) (f : FerryCmd), (s.core core).ferryAt f.id = some f → f.begun = false →
    (s.core core).ferry.Pairwise (fun x y => x.id ≠ y.id) → s.block? core f.slot = some b → f.done = false → f.status = none →
    let out := exec (.ferryCompletion core f.id) s
    ((∃ y ∈ (s.core core).ferry.takeWhile (·.id != f.id), y.begun = false) → out = .next s) ∧
    ((∀ y ∈ (s.core core).ferry.takeWhile (·.id != f.id), y.begun = true) →
      ∃ f', out = .next (s.setCore core { s.core core with
          ferry := (s.core core).ferry.map fun x => if x.id = f.id then f' else x }) ∧
        (f.kind ≠ .s2s → f' = { f with begun := true }) ∧
        (f.kind = .s2s → (∀ x, s.target core b f = .ok x → f' = { f with begun := true }) ∧
          ∀ k, s.target core b f = .error k → f' = { f with begun := true, done := true, status := some k }))

/-- R280: a command whose transfer is over, with its flits and its writes acknowledged, completes with the status it has. -/
def Sys2Proof.Claims.FerryEnds : Prop :=
  ∀ (s : State) (core : Nat) (b : Block) (f : FerryCmd), (s.core core).ferryAt f.id = some f → f.begun = true → f.done = true →
    (s.core core).ferry.Pairwise (fun x y => x.id ≠ y.id) → s.block? core f.slot = some b → f.rel = none →
    let out := exec (.ferryCompletion core f.id) s
    let open' := f.egress = true ∧ ∃ g, s.gang? core f.slot f.gang = some g ∧ ∃ p ∈ g.outst, p.1 = f.id + 1
    (f.flits ≠ [] ∨ open' → out = .next s) ∧
    (f.flits = [] → ¬open' → ∃ t, out = .next t ∧ ferryOver s t core b f (f.status.getD 0))

/-- R276 to R278: an engine's reads. Of a global sector, where no agent reads another device memory than its home holds, that
sector as the home holds it; a translation fault stops it, and a page that moves or a base die that is not ready holds it. Of
a sector of the scratchpad that no store has changed unordered, that sector. -/
def Sys2Proof.Claims.EngineReadsGive : Prop :=
  ∀ (s : State) (w : Who) (core slot ctx sec : Nat) (weak : Bool),
    let T := s.translate core ctx (BitVec.ofNat 64 (32 * sec)) false 32
    let G := s.engineRead w core slot ctx true weak sec
    (∀ u pa, T = (u, .ok pa) → quiet u → ∃ g v, G = (v, .ok g) ∧ g.bytes = u.mem.bytesAt (32 * (pa / 32)) 32 ∧
      g.stamp = u.mem.stamp (pa / 32) ∧ g.bad = u.homeBad (pa / 32) ∧ v.mem = u.mem) ∧
    (∀ u d, T = (u, .fault d) → G = (u, .error .translation)) ∧
    (∀ u, T = (u, .migrate) → G = (u, .error (.wait (some (BitVec.ofNat 64 (32 * sec)))))) ∧
    (∀ u, T = (u, .wait) → G = (u, .error (.wait none))) ∧
    ∀ b, s.block? core slot = some b → weak = false ∨ Tbl.get? b.spOld sec = none →
      s.engineRead w core slot ctx false weak sec = (s, .ok ⟨b.sp.bytesAt (32 * sec) 32, b.sp.stamp sec, b.sp.bad sec⟩)

/-- R277, R217: an engine's write of a global sector that is reached: the bytes named take the values named, with the sector's
stamp as R25 says, where the source is not poisoned and the sector is not or is covered; a poisoned source poisons it; memory
outside the line of the sector stays, and all of it where no agent holds the line dirty, but for the sector's bytes named. -/
def Sys2Proof.Claims.EngineWritesBytes : Prop :=
  ∀ (s u : State) (ws : List Who) (core slot ctx sec pa : Nat) (d : CopyData) (now : Stamp),
    s.translate core ctx (BitVec.ofNat 64 (32 * sec)) true 32 = (u, .ok pa) → pa % 32 = 0 → u.mem.wf = true →
    u.offline pa = false → (∀ p ∈ u.blocks, ∀ e ∈ p.2.2.stash, e.2.dirty = false) →
    (d.ws.map (·.1)).Nodup → (∀ p ∈ d.ws, p.1 / 32 = sec) →
    let t := s.engineWrite ws [] core slot ctx now sec d (.normal d.stamp)
    let whole := coversSector d.ws sec
    (d.bad = false → u.mem.bad (pa / 32) = false ∨ whole = true →
      t.mem.bad (pa / 32) = false ∧
      t.mem.stamp (pa / 32) = (if whole then d.stamp else older now (u.mem.stamp (pa / 32)) d.stamp) ∧
      (∀ p ∈ d.ws, t.mem.byte (pa + p.1 % 32) = p.2) ∧
      ∀ a, (∀ p ∈ d.ws, pa + p.1 % 32 ≠ a) → t.mem.byte a = u.mem.byte a) ∧
    (d.bad = true → t.mem.bad (pa / 32) = true ∧ ∀ a, a / 32 ≠ pa / 32 → t.mem.byte a = u.mem.byte a)

/-- What the scratchpad of `b` holds after the sectors of a plan have been written to it (R277): each byte of the tile that of its
source, outside the object bytes `skip`; sectors outside the tile as before; a poisoned source poisons its sector. -/
def Sys2Proof.Claims.scratchTakes (b b' : Block) (f : FerryCmd) (l : List (Nat × Except CopyStop CopyData)) (skip : Nat → Prop) :
    Prop :=
  (∀ a, (∀ p ∈ f.pairs, p.1 / 32 ≠ a / 32) → ¬skip a → b'.sp.byte a = b.sp.byte a) ∧
    ∀ sec d, (sec, Except.ok d) ∈ l → (∀ i, i < 32 → ¬skip (32 * sec + i)) →
      (d.bad = true → b'.sp.bad sec = true) ∧
      (d.bad = false → b.sp.bad sec = false ∨ coversSector d.ws sec = true →
        (∀ p ∈ d.ws, b'.sp.byte p.1 = p.2) ∧ b'.sp.bad sec = false) ∧
      (d.bad = false → b.sp.bad sec = true → coversSector d.ws sec = false → b'.sp.bad sec = true)

/-- The status that a plan gives a copy (R278, R253). -/
def Sys2Proof.Claims.planStatus (l : List (Nat × Except CopyStop CopyData)) : Nat :=
  match planStop l with
  | none => 0
  | some .translation => 3
  | some _ => 4

/-- R277 to R280: a copy to the scratchpad, of its own block (G2S) or of another (S2S): it waits where its reads are held; with
every source sector readable and fresh, each byte of its tile takes the byte of its source and it completes with status 0; a
translation fault gives status 3, a stale sector status 4. Bytes outside the tile's sectors keep theirs, but for the object at
which an S2S arrives. -/
def Sys2Proof.Claims.ScratchTransferCompletes : Prop :=
  ∀ (s : State) (core : Nat) (b : Block) (g : Gang) (f : FerryCmd), ferryGoes s core b g f →
    (f.pairs.map (·.1)).Nodup → f.kind = .g2s ∨ f.kind = .s2s →
    let P := ferryPlan s core b f
    let k := planStatus P.2.1
    let out := exec (.ferryCompletion core f.id) s
    (∀ x, planWaits P.2.1 = some x → out = .next (s.holdMove b.ctx x)) ∧
    (planWaits P.2.1 = none →
      (f.kind = .g2s → b.sp.wf = true → ∃ t b', out = .next t ∧ ferryOver s t core b f k ∧ t.block? core f.slot = some b' ∧
        (k = 0 → scratchTakes b b' f P.2.1 fun _ => False) ∧ (∀ a, (∀ p ∈ f.pairs, p.1 / 32 ≠ a / 32) → b'.sp.byte a = b.sp.byte a)) ∧
      (f.kind = .s2s → ∀ tc ts y, s.target core b f = .ok (tc, ts) → P.1.target core b f = .ok (tc, ts) →
        s.block? tc ts = some y → y.sp.wf = true → ∃ t y', out = .next t ∧ ferryOver s t core b f k ∧ t.block? tc ts = some y' ∧
          (k = 0 → scratchTakes y y' f P.2.1 fun a => f.pitch.toNat % 2 ^ 32 / 32 = a / 32)))

/-- R277, R278, R237: a copy to device memory (S2G, G2G): it waits where its reads or writes are held; else every sector is written
as an engine writes it, in the order of the tile, and it completes with status 0 in the same step; a translation fault gives
status 3, a stale sector status 4. -/
def Sys2Proof.Claims.DeviceTransferCompletes : Prop :=
  ∀ (s : State) (core : Nat) (b : Block) (g : Gang) (f : FerryCmd), ferryGoes s core b g f → f.kind = .s2g ∨ f.kind = .g2g →
    let P := ferryPlan s core b f
    let k := planStatus P.2.1
    let out := exec (.ferryCompletion core f.id) s
    (∀ x, planWaits P.2.1 = some x → out = .next (s.holdMove b.ctx x)) ∧
    (planWaits P.2.1 = none → ∃ t, out = .next t ∧ ferryOver s t core b f k ∧
      (k = 0 → t.mem = (P.2.1.foldl (fun u e => match e.2 with
        | .ok d => u.engineWrite [f.who core] [] core f.slot b.ctx (s.now b.ctx) e.1 d (.normal d.stamp)
        | .error _ => u) (if P.2.2 then P.1.boundHit b.ctx f.bnd.toNat else P.1)).mem))

/-- R274, R278, R343, R239: an egress of a tile whose sectors can all be read: poison ends it with status 5, a stale sector with
status 4, neither with a byte sent; else to the host its bytes are written there, and it stays until they are acknowledged, or
ends with status 9 where the host answers with an error; to a peer its bytes leave by the cape in flits of at most 192 bytes with
consecutive sequence numbers, for whose acknowledgements it stays; without a trained cape it waits. A translation fault ends it
with status 3. -/
def Sys2Proof.Claims.EgressTransferCompletes : Prop :=
  ∀ (s : State) (core : Nat) (b : Block) (g : Gang) (f : FerryCmd), ferryGoes s core b g f → f.kind = .egh ∨ f.kind = .egp →
    (f.pairs.map (·.1)).Nodup →
    let P := ferryPlan s core b f
    let u := if P.2.2 then P.1.boundHit b.ctx f.bnd.toNat else P.1
    let stale := P.2.2 = true ∧ (s.ctx b.ctx).boundAct f.bnd.toNat ≠ .mark
    let bytes := planBytes P.2.1
    let out := exec (.ferryCompletion core f.id) s
    let ends (k : Nat) := ∃ t, out = .next t ∧ ferryOver s t core b f k ∧ t.hostMem = P.1.hostMem ∧ t.outbox = P.1.outbox
    (∀ x, planWaits P.2.1 = some x → out = .next (s.holdMove b.ctx x)) ∧
    (planWaits P.2.1 = none →
      (planStop P.2.1 = some .translation → ends 3) ∧
      (planStop P.2.1 = none → planBad P.2.1 = true → ends 5) ∧
      (planStop P.2.1 = none → planBad P.2.1 = false → stale → ends 4) ∧
      (planStop P.2.1 = none → planBad P.2.1 = false → ¬stale →
        (f.kind = .egh → P.1.hostMem.wf = true →
          (Config.freeBit u.fresh = false → ∃ t, out = .next t ∧
            (t.core core).ferryAt f.id = some { f with done := true, status := some 0 } ∧
            t.gang? core f.slot f.gang = some { g with outst := g.outst ++ [(f.id + 1, 0)] } ∧
            (∀ p ∈ bytes, t.hostMem.byte p.1 = p.2) ∧ ∀ a, (∀ p ∈ bytes, p.1 ≠ a) → t.hostMem.byte a = P.1.hostMem.byte a) ∧
          (Config.freeBit u.fresh = true → ∃ t, out = .next t ∧ ferryOver s t core b f 9 ∧
            ∀ a, (∀ p ∈ bytes, p.1 / 64 ≠ a / 64) → t.hostMem.byte a = P.1.hostMem.byte a)) ∧
        (f.kind = .egp → u.outCape? = none → out = .next s) ∧
        (f.kind = .egp → ∀ k base, u.outCape? = some k → f.dst = .global base → base.toNat + f.size ≤ 2 ^ 57 →
          ∃ (t : State) (l : List Flit), out = .next t ∧ t.outbox = P.1.outbox ++ l.map (fun x => (k, x)) ∧
            (t.core core).ferryAt f.id = some { f with
              done := true, status := some 0
              flits := (List.range l.length).map fun i => (k, (u.cape k).sendSeq + BitVec.ofNat 12 i) } ∧
            (∀ i x, l[i]? = some x → x.kind = .data ∧ x.src = u.pkg ∧ x.dst = f.pitch.setWidth 9 ∧ x.ctx = BitVec.ofNat 12 b.ctx ∧
              x.seq = (u.cape k).sendSeq + BitVec.ofNat 12 i ∧ x.count.toNat + x.addr.toNat % 32 ≤ 192 ∧ x.poison = 0) ∧
            (l.flatMap fun x => (List.range x.count.toNat).map fun i =>
              (x.addr.toNat + i, x.body.getD (x.addr.toNat % 32 + i) 0)) =
              f.pairs.map fun p => (p.1, ((bytes.find? fun q => q.1 == p.1).map (·.2)).getD 0))))

/-- R276: a command that has been in the queue for 2^24 cycles completes with status 8; before, nothing happens. -/
def Sys2Proof.Claims.StalledFerryEnds : Prop :=
  ∀ (s : State) (core : Nat) (b : Block) (f : FerryCmd), (s.core core).ferry.find? (·.id == f.id) = some f →
    (s.core core).ferry.Pairwise (fun x y => x.id ≠ y.id) → s.block? core f.slot = some b →
    ((s.core core).cycle.toNat < f.born + 2 ^ 24 → exec (.ferryStall core f.id) s = .next s) ∧
    (f.born + 2 ^ 24 ≤ (s.core core).cycle.toNat →
      ∃ t, exec (.ferryStall core f.id) s = .next t ∧ ferryOver s t core b f 8)

/-- R310: a register-form FEED ends: the four sectors of the operand buffer hold its 32 lanes, with the stamps of its slices;
its slot is free. -/
def Sys2Proof.Claims.FeedWritesOperandBuffer : Prop :=
  ∀ (s : State) (core id slot gang : Nat) (mask : BitVec 8) (ord : Word) (b : Block) (data : Vector Word 32)
    (st : List Stamp) (dst : Nat),
    (s.core core).eng.find? (·.id == id) = some (.feed id slot gang mask ord none false data st dst 4 0 none none []) →
    s.block? core slot = some b → (s.cube (clusterOf core)).obuf.wf = true → dst % 32 = 0 →
    ∃ t o old, exec (.feedCompletion core id) s = .next t ∧
      t = { (s.setCube (clusterOf core) { s.cube (clusterOf core) with obuf := o, obufOld := old }).setCore core
        { s.core core with eng := (s.core core).eng.filter fun e => e.id != id } with olds := t.olds } ∧
      (∀ a, o.byte a = if dst ≤ a ∧ a < dst + 128 then
          BitVec.ofNat 8 ((lane data ((a - dst) / 4)).toNat / 256 ^ ((a - dst) % 4))
        else (s.cube (clusterOf core)).obuf.byte a) ∧
      ∀ i, i < 4 → o.stamp (dst / 32 + i) = st.getD i ageless ∧ o.bad (dst / 32 + i) = false

/-- R310, R253: a memory-form FEED whose tail reads are in: it waits where a source sector is held; with every source sector read and
fresh the sectors of the operand buffer take them whole, bytes, stamp and poison, and its slot is free; a stale sector ends it
with nothing written, a translation fault with each sector old or new. -/
def Sys2Proof.Claims.FeedCopiesSectors : Prop :=
  ∀ (s : State) (core id slot gang : Nat) (mask : BitVec 8) (ord : Word) (b : Block) (x : Side) (weak : Bool)
    (data : Vector Word 32) (st : List Stamp) (dst len : Nat) (bnd : BitVec 4),
    (s.core core).eng.find? (·.id == id) =
      some (.feed id slot gang mask ord (some x) weak data st dst len bnd none none []) →
    s.block? core slot = some b → (s.cube (clusterOf core)).obuf.wf = true → dst % 32 = 0 →
    let cl := clusterOf core
    let R := s.feedReads (.before core slot gang true) core slot b.ctx bnd.toNat x.isGlobal weak (x.sectors len)
    let out := exec (.feedCompletion core id) s
    (∀ va, R.2.2.1 = some (.wait va) → out = .next (s.holdMove b.ctx va)) ∧
    (∀ c, R.2.2.1 = some (.late c) → ∃ t, out = .next t ∧ (∀ e ∈ (t.core core).eng, e.id ≠ id) ∧
      ((∀ d, c ≠ .translation d) → (t.cube cl).obuf = (R.1.cube cl).obuf) ∧
      ∀ a, a < dst ∨ dst + 32 * len ≤ a → (t.cube cl).obuf.byte a = (R.1.cube cl).obuf.byte a) ∧
    (R.2.2.1 = none → (∀ g ∈ R.2.1, g.bytes.length = 32) → ∃ t, out = .next t ∧ (∀ e ∈ (t.core core).eng, e.id ≠ id) ∧
      R.2.1.length = len ∧ t.mem = R.1.mem ∧
      (∀ i g, R.2.1[i]? = some g → (t.cube cl).obuf.bytesAt (dst + 32 * i) 32 = g.bytes ∧
        (t.cube cl).obuf.stamp (dst / 32 + i) = g.stamp ∧ (t.cube cl).obuf.bad (dst / 32 + i) = g.bad) ∧
      ∀ a, a < dst ∨ dst + 32 * len ≤ a → (t.cube cl).obuf.byte a = (R.1.cube cl).obuf.byte a)

/-- R297, R311: a memory-form DRAIN whose writes are acknowledged for their class ends: it leaves its slot; with ARR it makes
a drain arrival, which at XC empties the bank and moves DP on. DESIGN CHOICE, log 24: a bank that becomes EMPTY clears DCOUNT, XC
and Nb. -/
def Sys2Proof.Claims.DrainEnds : Prop :=
  ∀ (s : State) (core id slot gang : Nat) (mask : BitVec 8) (arr : Bool) (g : Gang),
    (s.core core).eng.find? (·.id == id) = some (.drain id slot gang mask none arr) → s.gang? core slot gang = some g →
    let c := s.cube (clusterOf core)
    let b := c.bank c.dp
    let t := s.setCore core { s.core core with eng := (s.core core).eng.filter fun e => e.id != id }
    let out := exec (.drainCompletion core id) s
    let gives (c' : Cube) := ∃ u, out = .next u ∧ u = { t.setCube (clusterOf core) c' with olds := u.olds }
    ((∃ p ∈ g.outst, p.1 = id + 1 ∧ p.2 < 2) → out = .next s) ∧
    ((∀ p ∈ g.outst, p.1 = id + 1 → 2 ≤ p.2) →
      (arr = false → out = .next t) ∧
      (arr = true → b.dcount + 1 ≠ b.xc → gives (c.setBank c.dp { b with dcount := b.dcount + 1 })) ∧
      (arr = true → b.dcount + 1 = b.xc → gives { (c.setBank c.dp Bank.empty) with dp := !c.dp }))

/-- The steps of the ferry and of the FEED and DRAIN slots have their effects. -/
def Obligations.EngineStepsComplete : Prop :=
  Claims.FerryIsAdmitted ∧ Claims.FerryBegins ∧ Claims.FerryEnds ∧ Claims.EngineReadsGive ∧ Claims.EngineWritesBytes ∧
    Claims.ScratchTransferCompletes ∧ Claims.DeviceTransferCompletes ∧ Claims.EgressTransferCompletes ∧
    Claims.StalledFerryEnds ∧ Claims.FeedWritesOperandBuffer ∧ Claims.FeedCopiesSectors ∧ Claims.DrainEnds

/-! ### The cube's sequencer -/

/-- R296, R297: the head of the queue starts where nothing is in execution: register words and CUBE.ZERO (of a bank that is
EMPTY or ACTIVE) are over at once; loads and CUBE.MUL are in execution. -/
def Sys2Proof.Claims.SequencerStarts : Prop :=
  ∀ (s : State) (cl : Nat) (b : Block) (op : CubeOp) (r : List CubeOp), s.controlBlock? cl = some b →
    let c := s.cube cl
    c.exec = none → c.queue = op :: r →
    let now (x : Cube) := exec (.sequencerOperationStart cl) s = .next (s.setCube cl x)
    let finishes (x : Cube) := now { x with queue := r, refires := 0 }
    let starts := now { c with queue := r, exec := some ⟨op, 0, ⟨0⟩, ⟨0⟩, false, false⟩ }
    (∀ m n k, op = .shape m n k → finishes { c with m := m, n := n, k := k }) ∧
    (∀ m k, op = .mode m k → finishes { c with mode := m, kc := k }) ∧
    (∀ w a, op = .win w a → finishes { c with win := w, wga := a }) ∧
    (op = .zero → ((c.bank c.act).st = .empty ∨ (c.bank c.act).st = .active → finishes (c.setBank c.act Bank.empty)) ∧
      ((c.bank c.act).st = .full ∨ (c.bank c.act).st = .draining → now c)) ∧
    (∀ p z k va pi a n, op = .ldb p z k va pi a n → starts) ∧ (∀ w k va pi a n, op = .scale w k va pi a n → starts) ∧
    (∀ gd ga gb f rel n, op = .mul gd ga gb f rel n → starts)

/-- R304, R305, R300: a load whose source sectors are all readable and clean writes every byte of its tile and is over; one
that meets a translation fault stops with a deferred fault at the sector, and the queue is discarded. -/
def Sys2Proof.Claims.CubeLoadsComplete : Prop :=
  ∀ (s : State) (cl : Nat) (b : Block) (x : CubeExec), s.controlBlock? cl = some b →
    let c := s.cube cl
    c.exec = some x → c.refireOn = none → c.fault = none → c.stratum.wf = true → c.scale.wf = true →
    ((∃ p z k va pi a, x.op = .ldb p z k va pi a 0) ∨ ∃ w k va pi a, x.op = .scale w k va pi a 0) →
    let pairs := x.op.pairs c.m.toNat c.n.toNat
    let L := s.loadSources (cl * 8 + 4) b.ctx (sortNat (pairs.map fun p => p.2 / 32))
    let out := exec (.cubeLoadCompletion cl) s
    (∀ got, L.2 = (got, none) → (∀ g ∈ got, g.2.bad = false) → (pairs.map (·.1)).Nodup → ∃ t m, out = .next t ∧
      t.cube cl = { c with exec := none, refires := 0, stratum := (t.cube cl).stratum, scale := (t.cube cl).scale } ∧
      ((∃ p z k va pi a, x.op = .ldb p z k va pi a 0) → m = (t.cube cl).stratum ∧ (t.cube cl).scale = c.scale ∧
        ∀ a, (∀ p ∈ pairs, p.1 ≠ a) → m.byte a = c.stratum.byte a) ∧
      ((∃ w k va pi a, x.op = .scale w k va pi a 0) → m = (t.cube cl).scale ∧ (t.cube cl).stratum = c.stratum ∧
        ∀ a, (∀ p ∈ pairs, p.1 ≠ a) → m.byte a = c.scale.byte a) ∧
      ∀ p ∈ pairs, c.stratum.bad (p.1 / 32) = false → c.scale.bad (p.1 / 32) = false → m.byte p.1 = gotByte got p.2) ∧
    (∀ d sec, L.2.2 = some (.fault d sec) → ∃ t, out = .next t ∧ (t.cube cl).queue = [] ∧ (t.cube cl).exec = none ∧
      (t.cube cl).fault = some ⟨0x22, d, BitVec.ofNat 64 (32 * sec), x.op.opcode, 0⟩)

/-- R291, R292, R297 to R299: one step of CUBE.MUL on a free bank, from the operand buffer and the stratum (operations 0 and
1, no window, no wheel): every cell of M × N takes its old value plus the step's P, rounded; the bank's stamp is the Older
of it and the sectors read; the last step leaves the bank as FIN says. A poisoned sector stops it with a deferred fault. -/
def Sys2Proof.Claims.CubeMulSteps : Prop :=
  ∀ (s : State) (cl : Nat) (b : Block) (x : CubeExec) (gd ga gb : DWord) (fin : BitVec 2) (rel : Option (BitVec 3)),
    s.controlBlock? cl = some b →
    let c := s.cube cl
    let bank := c.bank c.act
    c.exec = some x → x.op = .mul gd ga gb fin rel 0 → c.fault = none → c.n.toNat ≤ 128 → modeOp c.mode < 2 →
    winEn c.win = false → srcWheel ga = false → bank.st = .empty ∨ bank.st = .active →
    let sc : StepCtx := ⟨c, x.step, min 32 (c.k.toNat - 32 * x.step), srcOff ga + x.step * panelSize true (cubeSize (modeFmtA c.mode)), 0⟩
    let out := exec (.cubeMulStep cl) s
    ((∃ p ∈ sc.sectors, p.2 = true) → ∃ t, out = .next t ∧ (t.cube cl).fault = some ⟨0x23, 0, 0, 0x3D, x.step⟩ ∧
      (t.cube cl).exec = none ∧ (t.cube cl).queue = [] ∧ ((t.cube cl).bank c.act).poison = true ∧
      ((t.cube cl).bank c.act).d = bank.d) ∧
    ((∀ p ∈ sc.sectors, p.2 = false) → (s.ctx b.ctx).suspact ≠ 1 → (s.ctx b.ctx).suspact ≠ 3 → ∃ t, out = .next t ∧
      let q := (t.cube cl).bank c.act
      let last := 32 * x.step < c.k.toNat ∧ c.k.toNat ≤ 32 * (x.step + 1)
      (∀ m n, m < c.m.toNat → n < c.n.toNat → Tbl.getD q.d (m * 128 + n) 0 =
        cellD (modeSat c.mode) (Tbl.getD bank.d (m * 128 + n) 0) (cellP (modeSat c.mode) (sc.terms m n) (sc.scales m n))) ∧
      (∀ i, (∀ m n, m < c.m.toNat → n < c.n.toNat → i ≠ m * 128 + n) → Tbl.get? q.d i = Tbl.get? bank.d i) ∧
      q.stamp = olderAll (s.now b.ctx) (bank.stamp :: sc.sectors.map (·.1)) ∧ q.poison = bank.poison ∧
      (t.cube cl).obuf = c.obuf ∧ (t.cube cl).stratum = c.stratum ∧ (t.cube cl).scale = c.scale ∧
      (¬last → q.st = .active ∧ (t.cube cl).act = c.act ∧ ∃ y, (t.cube cl).exec = some y ∧ y.step = x.step + 1 ∧ y.op = x.op) ∧
      (last → (t.cube cl).exec = none ∧
        (fin = 0 → q.st = .active ∧ (t.cube cl).act = c.act) ∧
        (fin = 1 → q.st = .full ∧ q.xc = gd.toNat ∧ q.dcount = 0 ∧ q.nb = c.n.toNat ∧ (t.cube cl).act = !c.act) ∧
        (fin = 2 → q.st = .draining ∧ (t.cube cl).act = (!c.act) ∧ (t.cube cl).image = c.image ++
          [{ bank := c.act, va := gd, m := c.m.toNat, n := c.n.toNat, rel := rel, written := false }])))

/-- R297, R306: an image drain writes every cell of its bank, FP32 at 512 bytes a row, where all of it can be reached; once
its writes are acknowledged for its class its bank is EMPTY and the drain over. -/
def Sys2Proof.Claims.ImagesDrain : Prop :=
  ∀ (s : State) (cl : Nat) (b : Block) (i : ImageDrain) (r : List ImageDrain), s.controlBlock? cl = some b →
    let c := s.cube cl
    let core := cl * 8 + 4
    c.image = i :: r →
    let bank := c.bank i.bank
    let ws := (List.range i.m).flatMap fun m => (List.range i.n).flatMap fun n =>
      atAddr ((i.va.toNat + 512 * m + 4 * n) % 2 ^ 64) (leBytes (Tbl.getD bank.d (m * 128 + n) 0).toNat 4)
    let secs := sortNat (ws.map fun p => p.1 / 32)
    let R := s.reachSectors core b.ctx secs
    let out := exec (.imageDrainCompletion cl) s
    (i.written = true → (∃ p ∈ b.th.outst, p.1 = 1 ∧ p.2 < relClass i.rel) → out = .next s) ∧
    (i.written = true → (∀ p ∈ b.th.outst, p.1 = 1 → relClass i.rel ≤ p.2) → ∃ t, out = .next t ∧
      t.cube cl = { (c.setBank i.bank Bank.empty) with image := r } ∧ t.mem = s.mem) ∧
    (i.written = false → R.2 = none → ∃ t, out = .next t ∧
      t.mem = (R.1.drainWrites [.seq core] (drainRels i.rel (.seq core) s.clock) core b.ctx (s.now b.ctx) true
        (s.bankBad b.ctx bank) bank.stamp ws secs).mem ∧
      (2 < relClass i.rel → (t.cube cl).bank i.bank = bank) ∧
      ((∀ p ∈ b.th.outst, p.1 = 1 → relClass i.rel ≤ p.2) → relClass i.rel = 2 → (t.cube cl).bank i.bank = Bank.empty))

/-- The steps of the cube's sequencer have their effects. -/
def Obligations.CubeStepsComplete : Prop :=
  Claims.SequencerStarts ∧ Claims.CubeLoadsComplete ∧ Claims.CubeMulSteps ∧ Claims.ImagesDrain

end

namespace Sys2Proof.Claims

open Sys2Proof.Machine

/-- A packet of 128 bytes has entered queue `q` of a context: its tail has moved on, and its entry holds the bytes where
the ring's memory is there and no stash line of it is dirty (R215, R323). -/
def enqueued (s t : State) (ctx q : Nat) (l : List Byte) : Prop :=
  let r := s.lq ctx q
  let pa := r.base.toNat * 256 + r.tail.toNat % r.entries * 128
  t.lq ctx q = { r with tail := r.tail + 1 } ∧ (∀ k, k ≠ q → t.lq ctx k = s.lq ctx k) ∧
    (s.mem.wf = true → (∀ p ∈ s.blocks, ∀ e ∈ p.2.2.stash, e.2.pa = pa → e.2.dirty = false) →
      backed pa 128 = true → s.offline pa = false → s.offline (pa + 32) = false →
      s.offline (pa + 64) = false → s.offline (pa + 96) = false → ∀ i, i < 128 → t.mem.byte (pa + i) = l.getD i 0)

/-- A context counter has risen by 1. -/
def counted (s t : State) (ctx : Nat) (k : CtxCounter) : Prop :=
  Tbl.getD (t.ctx ctx).counters (ctrIdx k) 0 = satAdd (Tbl.getD (s.ctx ctx).counters (ctrIdx k) 0) 1

/-- A launch is taken by a queue of a context that may take it and has room, and else counted in LAUNCH_DROP (R323). -/
def takesLaunch (s t : State) (ctx q : Nat) (l : List Byte) : Prop :=
  let st := (s.ctx ctx).st
  (((st = .live ∨ st = .stopping ∨ st = .stopped) ∧ (s.lq ctx q).full = false) → enqueued s t ctx q l) ∧
    (¬((st = .live ∨ st = .stopping ∨ st = .stopped) ∧ (s.lq ctx q).full = false) → counted s t ctx .launchDrop ∧
      t.mem = s.mem ∧ t.lq ctx q = s.lq ctx q)

/-- The state of a cape's sender after the acknowledgement that a flit carries, if it carries one (R370). -/
def afterAck (s : State) (cape : Nat) (f : Flit) : State :=
  match f.ack with
  | none => s
  | some q => s.ackedTo cape q

/-- R324, R5: a packet of a queue is refused for a reason: it counts in LAUNCH_BAD, and LERR records the queue, the reason and the
record where it is not valid, keeping OVF, and sets OVF where it is. -/
def refused (s t : State) (ctx q reason : Nat) (record : DWord) : Prop :=
  let e := (s.ctx ctx).lerr
  counted s t ctx .launchBad ∧ (t.ctx ctx).lerr = (if e.getLsbD 63 then e ||| 0x4000000000000000
    else (e &&& 0x4000000000000000) |||
      BitVec.ofNat 64 (2 ^ 63 + q * 2 ^ 56 + reason * 2 ^ 49 + record.toNat / 2 ^ 8 % 2 ^ 49))

/-- R71, R22, R164, R87, R54: a block as dispatch makes it: registers 0 and AGELESS, gangs idle, the flume and the
scratchpad empty, the thread at the image plus its entry offset, outside the handler. -/
def newBlock (x : Instance) (control : Bool) (lin : Nat) (b : Block) : Prop :=
  b.control = control ∧ b.ctx = x.ctx ∧ b.node = x.node ∧ b.lin = lin ∧ b.prio = x.prio ∧ b.e = 0 ∧ b.s = 0 ∧ b.f = 0 ∧
    b.flume = [] ∧ b.sp = Store.empty ∧ b.stash = [] ∧ b.tags = 0 ∧ b.sc = 0 ∧ b.image = x.dw 8 ∧
    b.th.pc = x.dw 8 + (if control then x.dw 0x10 >>> 32 else x.dw 0x10 &&& 0xFFFFFFFF) ∧ b.th.handler = false ∧
    b.th.queue = [] ∧ b.th.wait = .none ∧ (∀ r, r < 32 → b.th.reg r = ⟨0, ageless⟩) ∧
    (∀ g ∈ b.gangs, g.st = .idle ∧ g.groups = [] ∧ (∀ r, r < 126 → g.bank r = VReg.zero) ∧
      (∀ w, w < 16 → g.wreg w = ⟨0, ageless⟩) ∧ ∀ k, k < 8 → g.kreg k = 0) ∧
    (∀ i, i < 16 → vat b.mbs Mailbox.empty i = Mailbox.empty) ∧
    (control = true → b.gangs = []) ∧ (control = false → b.gangs.length ≤ 16 ∧ b.shape = x.recd.shape)

end Sys2Proof.Claims

section
open Sys2Proof Sys2Proof.Machine Sys2Proof.Claims

/-! ### The graph engine -/

/-- R323, R325: a write of the staging window's last doubleword, with the graph engine ready, launches the packet as it then
stands; a launch flit in sequence is acknowledged, and launched where the access-control table admits its package. An append
whose ring has room in a stack that is not ready waits (R366). -/
def Sys2Proof.Claims.LaunchesEnterQueues : Prop :=
  (∀ (s : State) (ctx q : Nat) (v : DWord), s.ready.getLsbD 4 = true → q < 64 →
    (s.lqHeld ctx q = true → exec (.stagingWindowAppend ctx q v) s = .next s) ∧
    (s.lqHeld ctx q = false → ∃ t, exec (.stagingWindowAppend ctx q v) s = .next t ∧ takesLaunch s t ctx q ((List.range 16).flatMap fun i =>
      leBytes (if i = 15 then v else Tbl.getD (s.ctx ctx).lqw (q * 16 + i) 0).toNat 8))) ∧
  (∀ (s : State) (cape : Nat) (f : Flit), cape < 4 → s.ready.getLsbD (36 + cape) = true → s.ready.getLsbD 4 = true →
    f.seq = (s.cape cape).recvSeq → s.lqHeld f.ctx.toNat (f.addr.toNat % 64) = false →
    let ok := ∃ e ∈ s.acl, e.2.getLsbD 63 = true ∧ e.2.getLsbD 62 = true ∧ e.2.toNat / 2 ^ 52 % 512 = f.src.toNat ∧
      e.2.toNat / 2 ^ 34 % 4096 = f.ctx.toNat ∧ e.2.toNat / 2 ^ 46 % 64 = f.addr.toNat % 64
    let a := afterAck s cape f
    ∃ t, exec (.launchFlit cape f) s = .next t ∧ (t.cape cape).recvSeq = (s.cape cape).recvSeq + 1 ∧
      (ok → takesLaunch a t f.ctx.toNat (f.addr.toNat % 64) (f.body.take 128)) ∧ (¬ok → counted a t f.ctx.toNat .aclDeny))

/-- R322 to R326: the head packet of the queue whose turn it is, when no completion goes before it: it leaves the queue; a
pending instance of its key counts down and is READY at 0; with none pending, a packet whose fields and record are in order
creates one; a malformed packet, and one whose record is not in order, is counted in LAUNCH_BAD and recorded in LERR, with
reason 1 or that of the record; one whose record is held waits. DEDUCED, log 15: of a packet for a pending key only the reserved
fields are checked. -/
def Sys2Proof.Claims.PacketsAreConsumed : Prop :=
  ∀ (s t : State) (c q : Nat) (p : Packet), s.ready.getLsbD 4 = true → s.completionReady = false →
    s.nextQueue = some (c, q) → s.headPacket (c, q) = (t, p) →
    let out := exec .packetConsume s
    let reserved := p.ctl.toNat / 2 ^ 12 = 0 ∧ p.rest.all (· == 0) = true
    let dec := p.ctl.toNat % 256
    let popped (u : State) := (u.lq c q).head = (t.lq c q).head + 1
    (∀ i, t.pending? c p.record p.group = some i → t.inst? i.node = some i → i.phase = .pending →
      (reserved → ∃ u j, out = .next u ∧ popped u ∧ u.inst? i.node = some j ∧ j.count = i.count - dec ∧
        j.phase = if i.count ≤ dec then .ready else .pending) ∧
      (¬reserved → ∃ u, out = .next u ∧ popped u ∧ u.insts = t.insts ∧ refused t u c q 1 p.record)) ∧
    (t.pending? c p.record p.group = none →
      let fields := reserved ∧ p.record.toNat % 256 = 0 ∧ p.kovr.toNat % 4096 = 0 ∧ p.doneva.toNat % 8 = 0 ∧
        p.podhome.toNat / 512 = 0
      (¬fields → ∃ u, out = .next u ∧ popped u ∧ u.insts = t.insts ∧ refused t u c q 1 p.record) ∧
      (fields → ∀ v k, t.readRecord c p.record = (v, .bad k) →
        ∃ u, out = .next u ∧ popped u ∧ u.insts = v.insts ∧ refused v u c q k p.record) ∧
      (fields → ∀ v, t.readRecord c p.record = (v, .wait) → out = .next (v.holdMove c (some p.record))) ∧
      (fields → ∀ v r, t.readRecord c p.record = (v, .ok r) → p.kovr = 0 → (r.podn = 0 → p.podhome = 0) →
        (v.insts.all fun y => y.node != BitVec.ofNat 64 (c * 2 ^ 52 + (v.ctx c).created % 2 ^ 52)) = true →
        ∃ u n, out = .next u ∧ popped u ∧ u.insts = v.insts ++ [n] ∧ n.record = p.record ∧ n.group = p.group ∧
          n.hasKey = true ∧ n.node = BitVec.ofNat 64 (c * 2 ^ 52 + (v.ctx c).created % 2 ^ 52) ∧
          n.doneva = p.doneva ∧ n.doneval = p.doneval ∧ n.count = (r.dw 0).toNat % 2 ^ 32 - dec ∧
          n.prio = (if p.ctl.getLsbD 8 then p.ctl.toNat / 2 ^ 9 % 8 else (r.dw 0).toNat / 2 ^ 59 % 8) ∧
          n.phase = if n.count = 0 then .ready else .pending))

/-- R326, R329: a READY instance takes a harbour entry where one of the 4,096 is free, and with it its launch stamp. -/
def Sys2Proof.Claims.HarbourIsEntered : Prop :=
  ∀ (s : State) (x : Instance), s.ready.getLsbD 4 = true → s.waitingHarbour = some x → s.inst? x.node = some x →
    ((s.insts.filter (·.harbour)).length < 4096 → exec .harbourEntry s = .next { s with
      insts := s.insts.map fun y => if y.node = x.node then { y with harbour := true, lstamp := s.now x.ctx } else y }) ∧
    (4096 ≤ (s.insts.filter (·.harbour)).length → exec .harbourEntry s = .next s)

/-- R327, R318, R331: the head block of an isle, with no restore before it and no eviction under way, takes the first core with room: it stands there as
dispatch makes it; its instance is RUNNING with the block noted, and frees its harbour entry after its last block. -/
def Sys2Proof.Claims.BlocksAreDispatched : Prop :=
  ∀ (s t : State) (isle core : Nat) (p : Placement) (x : Instance) (l : Nat), s.ready.getLsbD 4 = true →
    s.ready.getLsbD (28 + isle) = true → s.headInst isle = some x → s.inst? x.node = some x → x.recd.isCube = false →
    s.restoresFirst isle x.prio = false → s.evicting isle = false → x.recd.cor = false → x.recd.podn = 0 → x.nextOn isle = some l →
    x.isleAt l = isle → s.findCore isle x.recd.shape (isleCores isle) = (t, some (core, p)) → p.regs.length ≤ 16 →
    ∃ u b, exec (.blockDispatch isle) s = .next u ∧ u.block? core p.slot = some b ∧ newBlock x false l b ∧
      (∀ k, k ≠ p.slot → u.block? core k = t.block? core k) ∧ u.mem = s.mem ∧
      u.insts = s.insts.map fun y => if y.node = x.node then { y with
        dispatched := y.dispatched ++ [l], phase := .running
        harbour := y.harbour && decide (y.dispatched.length + 1 < y.recd.blocks) } else y

/-- R327, R309: a cube node at the head of an isle takes the first cluster with room: a control thread on its control core,
its feeding blocks, and the cube as dispatch leaves it. -/
def Sys2Proof.Claims.CubeNodesAreDispatched : Prop :=
  ∀ (s t : State) (isle cl : Nat) (l : List Placement) (x : Instance), s.ready.getLsbD 4 = true →
    s.ready.getLsbD (28 + isle) = true → s.headInst isle = some x → s.inst? x.node = some x → x.recd.isCube = true →
    s.restoresFirst isle x.prio = false → s.evicting isle = false → x.recd.podn = 0 →
    s.findCluster isle ((List.range x.recd.feeders).map fun k => (k, x.recd.shape)) (List.range 24) = (t, some (cl, l)) →
    ∃ u b, exec (.cubeNodeDispatch isle) s = .next u ∧ u.block? (coreNum isle cl 4) 0 = some b ∧ newBlock x true 0 b ∧
      u.cube (isle * 24 + cl) = { Cube.reset with wheels := (u.cube (isle * 24 + cl)).wheels } ∧ u.mem = s.mem ∧
      u.insts = s.insts.map fun y => if y.node = x.node then { y with
        dispatched := y.dispatched ++ List.range x.recd.feeders, phase := .running
        harbour := y.harbour && decide (y.dispatched.length + x.recd.feeders < y.recd.blocks) } else y

/-- R328, R326: a block whose thread has ended, with no engine command left and, where a DONEVA is to be written, its writes
acknowledged, leaves its core; while anything is left, it stays. The instance notes it. DEDUCED, log 21: the block's end waits for
its FEED and DRAIN commands as for its FERRY commands. -/
def Sys2Proof.Claims.BlocksEnd : Prop :=
  ∀ (s : State) (core slot : Nat) (b : Block) (x : Instance), s.block? core slot = some b → s.inst? b.node = some x →
    rising (s.core core).blocks = true → b.control = false →
    let c := s.core core
    let engines := (∃ f ∈ c.ferry, f.slot = slot) ∨ (∃ f ∈ c.ferryWait, f.1 = slot) ∨
      (∃ e ∈ c.eng, ∃ id g m o sr wk d st ds ln bn a ar tl, e = .feed id slot g m o sr wk d st ds ln bn a ar tl) ∨
      (∃ e ∈ c.eng, ∃ id g m r ar, e = .drain id slot g m r ar)
    let writes := x.doneva ≠ 0 ∧ (b.th.outst ≠ [] ∨ ∃ g ∈ b.gangs, g.outst ≠ [])
    (b.th.ended = false ∨ engines ∨ writes → exec (.blockEnd core slot) s = .next s) ∧
    (b.th.ended = true → ¬engines → ¬writes →
      x.ended.length + 1 ≠ x.recd.blocks ∨ (x.recd.isCube = true ∧ x.controlEnded = false) → x.phase = .running →
      ∃ u, exec (.blockEnd core slot) s = .next u ∧ u.block? core slot = none ∧
        u.insts = s.insts.map fun y => if y.node = b.node then { y with ended := y.ended ++ [b.lin] } else y) ∧
    (b.th.ended = true → ¬engines → ¬writes → x.ended.length + 1 = x.recd.blocks →
      (x.recd.isCube = true → x.controlEnded = true) → x.hasKey = false →
      ∃ u, exec (.blockEnd core slot) s = .next u ∧ u.block? core slot = none ∧ ∀ y ∈ u.insts, y.node ≠ b.node)

/-- R326, R328: with no instance still completing, the first completion that finds its key counts its instance down; it
leaves the list. -/
def Sys2Proof.Claims.CompletionsAreDelivered : Prop :=
  ∀ (s : State) (c : Completion) (i : Instance), s.ready.getLsbD 4 = true → s.insts.find? (·.phase == .completing) = none →
    s.compl.find? (fun d => (s.pending? d.ctx d.record d.group).isSome || decide (s.insts.length < 16384)) = some c →
    s.pending? c.ctx c.record c.group = some i → s.inst? i.node = some i → i.phase = .pending →
    ∃ u j, exec .successorCompletion s = .next u ∧ u.compl = s.compl.erase c ∧ u.inst? i.node = some j ∧
      j.count = i.count - 1 ∧ j.phase = if i.count ≤ 1 then .ready else .pending

/-- The launch of packets, the harbour, dispatch and the end of blocks and instances. -/
def Obligations.GraphStepsComplete : Prop :=
  Claims.LaunchesEnterQueues ∧ Claims.PacketsAreConsumed ∧ Claims.HarbourIsEntered ∧ Claims.BlocksAreDispatched ∧
    Claims.CubeNodesAreDispatched ∧ Claims.BlocksEnd ∧ Claims.CompletionsAreDelivered

end

section
open Sys2Proof Sys2Proof.Machine Sys2Proof.Claims

/-! ### Pre-emption, contexts, isles -/

/-- R331, R332: with no eviction under way, a single gang that makes room for the head of an isle is asked to stop where it
runs (a debugger's request to it stands), and leaves at once where it does not, halted first where a debugger's halt of it is
still to take effect: its save area is taken, its posted reads and waiting writes leave the mailbox queues (R134). The
model's choice, log 11: the units that a save takes. -/
def Sys2Proof.Claims.GangsAreEvicted : Prop :=
  ∀ (s t : State) (isle c b i : Nat) (k : Block) (g : Gang), s.ready.getLsbD 4 = true → s.ready.getLsbD (28 + isle) = true →
    s.evicting isle = false → s.plan? isle = (t, [.gang c b i]) → t.block? c b = some k → k.gangs[i]? = some g →
    (g.st = .running → exec (.gangEviction isle) s = .next (t.onGang c b i fun _ =>
      { g with req := if g.req = .none then .evict else g.req })) ∧
    (g.st ≠ .running → ∃ u w n, exec (.gangEviction isle) s = .next u ∧ u.block? c b = some w ∧
      (g.haltLeft = false →
        w.gangs[i]? = some { g with evicted := true, evictedAt := t.clock, req := .none, saved := k.gangSize }) ∧
      (g.haltLeft = true → w.gangs[i]? = some { g with
        halted := true, reqEvent := false, evicted := true, evictedAt := n, req := .none, saved := k.gangSize }) ∧
      (∀ j, j ≠ i → w.gangs[j]? = k.gangs[j]?) ∧ (∀ n, n < 16 → ∀ x, (x ∈ (vat w.mbs Mailbox.empty n).readers ↔
        x ∈ (vat k.mbs Mailbox.empty n).readers ∧ x.isGang i = false)) ∧
      (u.ctx k.ctx).saveUsed = (t.ctx k.ctx).saveUsed + k.gangSize ∧ counted t u k.ctx .evictGang)

/-- R331, R333, R175: a block asked to leave whose gangs all stand still and of which nothing is under way is saved: it
leaves its core, its record enters the save area with its threads, gangs, flume, mailboxes and scratchpad as they were. The
model's choice, log 11: the record and the units that it takes. -/
def Sys2Proof.Claims.BlocksAreEvicted : Prop :=
  ∀ (s : State) (isle c n : Nat) (b : Block), s.ready.getLsbD 4 = true → s.ready.getLsbD (28 + isle) = true →
    s.readyVictim isle = some (.block c n) → s.block? c n = some b → rising (s.core c).blocks = true →
    ∃ u w, exec (.blockEviction isle) s = .next u ∧ u.block? c n = none ∧
      u.saved = s.saved ++ [.block (isleOf c) w b.saveSize] ∧
      w = { b with stash := [], stopping := false, mbs := w.mbs, held := w.held
                   gangs := b.gangs.map fun g => { g with saved := 0 } } ∧
      (∀ i, i < 16 → (vat w.mbs Mailbox.empty i).v = (vat b.mbs Mailbox.empty i).v ∧
        (vat w.mbs Mailbox.empty i).full = (vat b.mbs Mailbox.empty i).full) ∧
      w.held = ((s.core c).ferryWait.filter fun f => f.1 == n).map (·.2) ∧
      (u.ctx b.ctx).saveUsed = (s.ctx b.ctx).saveUsed - b.gangUnits + b.saveSize ∧ counted s u b.ctx .evictBlock

/-- R332, R134: the first evicted gang of a core, where no waiting block is above it and it has room, goes on as it was, its
stop flags cleared; its pending mailbox reads stand in their queues again, and its save area is given back (log 11). -/
def Sys2Proof.Claims.GangsAreRestored : Prop :=
  ∀ (s : State) (core slot i v : Nat) (b : Block) (g : Gang) (r : List (Nat × Nat × Block × Gang)),
    s.evictedGangs core = (slot, i, b, g) :: r → s.gang? core slot i = some g → s.headOver (isleOf core) b.prio = false →
    ((s.core core).gangRoom b.shape.n = some v → ∃ u w, exec (.gangRestore core) s = .next u ∧ u.block? core slot = some w ∧
      w.gangs[i]? = some { g with evicted := false, vbase := v, sealStop := false, waitStop := false, saved := 0 } ∧
      (∀ j, j ≠ i → u.gang? core slot j = s.gang? core slot j) ∧ u.mem = s.mem ∧
      (∀ q ∈ g.pend, q.returned = false → ∀ d m, q.val = .mail d m →
        Waiter.read i q.id ∈ (vat w.mbs Mailbox.empty m.toNat).readers) ∧
      (u.ctx b.ctx).saveUsed = (s.ctx b.ctx).saveUsed - g.saved) ∧
    ((s.core core).gangRoom b.shape.n = none → exec (.gangRestore core) s = .next s)

/-- R333, R134, R283: saved work that comes next on an isle stands on a core again: every gang with its registers, masks,
PCs and stack as saved, words that had not issued to be tried again; its record leaves the save area (log 11), and its core's L1 is
empty (R229). DEDUCED, log 21: a debugger's request to a gang stands (R349). -/
def Sys2Proof.Claims.BlocksAreRestored : Prop :=
  ∀ (s t : State) (isle c z : Nat) (b : Block) (p : Placement), s.ready.getLsbD 4 = true →
    s.ready.getLsbD (28 + isle) = true → s.nextSaved isle = some (.block isle b z) → s.headOver isle b.prio = false →
    s.findCore isle b.shape (isleCores isle) = (t, some (c, p)) →
    ∃ u w, exec (.blockRestore isle) s = .next u ∧ u.block? c p.slot = some w ∧ (u.core c).l1 = [] ∧ u.saved = s.saved.erase (.block isle b z) ∧
      (u.ctx b.ctx).saveUsed = (s.ctx b.ctx).saveUsed - z ∧
      w = { b with fbase := p.fbase, sbase := p.sbase, born := w.born, th := { b.th with wait := w.th.wait }
                   gangs := w.gangs, mbs := w.mbs, held := [] } ∧
      w.gangs.length = b.gangs.length ∧
      ∀ (i : Nat) (g h : Gang), b.gangs[i]? = some g → w.gangs[i]? = some h →
        h = { g with evicted := false, req := if g.req = .halt ∨ g.req = .step then g.req else .none, sealStop := false, waitStop := false, vbase := h.vbase
                     groups := h.groups } ∧
          h.groups.map (fun x => (x.mask, x.pc)) = g.groups.map (fun x => (x.mask, x.pc))

/-- R335: a whole-job stop is over when every block of the context stands at the cut and nothing of it is under way: the
context is STOPPED; until then it goes on stopping, and a gang that is stalled fetching, of a block at T or whose thread does not
go on, comes to a seal stop (R81; DEDUCED, log 21). -/
def Sys2Proof.Claims.CutsComplete : Prop :=
  ∀ (s : State) (ctx : Nat) (n : BitVec 16), (s.ctx ctx).st = .stopping → (s.ctx ctx).cut = some n →
    (s.cutReady ctx n = true → ∃ u, exec (.cutComplete ctx) s = .next u ∧ (u.ctx ctx).st = .stopped ∧ (u.ctx ctx).cut = none) ∧
    (s.cutReady ctx n = false → ∃ u, exec (.cutComplete ctx) s = .next u ∧ u.mem = s.mem ∧ u.ctxs = s.ctxs ∧
      ∀ core slot i g, s.gang? core slot i = some g →
        let sealed := u.gang? core slot i = some { g with evicted := true, req := .cut, sealStop := true, waitStop := false }
        (u.gang? core slot i = some g ∨ sealed) ∧
        ∀ b ws, (core, slot, b) ∈ s.blocks → b.gangs[i]? = some g → b.ctx = ctx → b.control = false →
          n.toNat ≤ b.sc.toNat ∨ b.th.wait ≠ .none ∨ b.th.ended = true ∨ b.th.halted = true → b.stopAt g = some (true, ws) → g.req = .none → sealed)

/-- R316, R335: the commands of CTXCTL: each is taken only in the states it names; TERMINATE ends the context with cause
0x91, RELEASE frees it and keeps TCFG SHIFT and the age-bound table. -/
def Sys2Proof.Claims.ContextCommands : Prop :=
  ∀ (s : State) (x : Nat), s.ready.getLsbD 4 = true →
    let c := s.ctx x
    exec (.create x) s = .next (if c.st = .free then s.setCtx x { c with st := .live, dseq := 0 } else s) ∧
    (c.st = .live → ∃ n, exec (.stop x) s = .next (s.setCtx x { c with st := .stopping, cut := some n }) ∧
      ∀ e ∈ s.blocks, e.2.2.ctx = x → e.2.2.sc.toNat ≤ n.toNat) ∧
    (c.st ≠ .live → exec (.stop x) s = .next s) ∧
    exec (.resume x) s = .next (if c.st = .stopped then s.setCtx x { c with st := .live } else s) ∧
    (c.st = .live ∨ c.st = .stopping ∨ c.st = .stopped → ∃ t, exec (.terminate x) s = .next t ∧ ended t x 0x91) ∧
    (c.st = .free ∨ c.st = .terminated ∨ c.st = .lost → exec (.terminate x) s = .next s) ∧
    (c.st = .terminated ∨ c.st = .lost ∨ c.st = .stopped → ∃ t, exec (.release x) s = .next t ∧
      t.ctx x = { Ctx.reset with shift := c.shift, abent := c.abent } ∧ t.insts.all (fun i => i.ctx != x) = true ∧
      t.saved.all (fun w => w.ctx != x) = true) ∧
    (c.st = .live ∨ c.st = .stopping ∨ c.st = .free → exec (.release x) s = .next s)

/-- R222, R336: an isle that is cut off or reset: its READY bit falls, and no other; every context with a block or saved work
on it is LOST with cause 0x90, and no other; a reset leaves nothing of its cores. -/
def Sys2Proof.Claims.IslesGo : Prop :=
  ∀ (s : State) (isle : Nat) (i : Instr), isle < 8 → i = .isleLost isle ∨ i = .isleReset isle →
    let hit (x : Nat) := (∃ e ∈ s.blocks, isleOf e.1 = isle ∧ e.2.2.ctx = x) ∨ ∃ w ∈ s.saved, w.isle = isle ∧ w.ctx = x
    ∃ t, exec i s = .next t ∧ (∀ k, t.ready.getLsbD k = (s.ready.getLsbD k && k != 28 + isle)) ∧
      (∀ x, hit x → (t.ctx x).st = .lost ∧ (t.ctx x).cause = 0x90) ∧ (∀ x, ¬hit x → (t.ctx x).st = (s.ctx x).st) ∧
      (∀ x y, hit x → y ∈ t.insts → y.ctx ≠ x) ∧
      (i = .isleReset isle → ∀ e ∈ t.cores, isleOf e.1 ≠ isle)

/-- Pre-emption and restore, whole-job stops, the commands of contexts, the loss and the reset of isles. -/
def Obligations.PreemptionAndContexts : Prop :=
  Claims.GangsAreEvicted ∧ Claims.BlocksAreEvicted ∧ Claims.GangsAreRestored ∧ Claims.BlocksAreRestored ∧
    Claims.CutsComplete ∧ Claims.ContextCommands ∧ Claims.IslesGo

end

section
open Sys2Proof Sys2Proof.Machine Sys2Proof.Claims

/-! ### Tides, frames, sweepers; the lagoon's units; base dies -/

/-- R246 to R248: HOLD stops the context tide at its value and clearing HOLD lets it go on from there; STEP moves a held
tide on by 1; SHIFT and OFFSET are written only while the context has no block, no queued fault and no refire pending. -/
def Sys2Proof.Claims.TideRegistersAct : Prop :=
  ∀ (s : State) (x : Nat), s.ready.getLsbD 4 = true →
    let c := s.ctx x
    let still := (∀ e ∈ s.blocks, e.2.2.ctx ≠ x) ∧ (∀ i ∈ s.insts, i.ctx = x → i.producer = none) ∧
      ∀ y ∈ s.saved, y.ctx = x → (match y with
        | .block _ b _ => b.th.queue = []
        | .node _ c _ fs _ => c.th.queue = [] ∧ ∀ b ∈ fs, b.th.queue = [])
    (c.debug = true → c.hold = false → ∃ t, exec (.holdSet x) s = .next t ∧ (t.ctx x).hold = true ∧ t.ctide x = s.ctide x ∧
      ∀ v, ({ t with tide := v } : State).ctide x = s.ctide x) ∧
    (c.debug = true → c.hold = true → ∃ t, exec (.holdClear x) s = .next t ∧ (t.ctx x).hold = false ∧
      t.ctide x = c.hval) ∧
    (c.debug = false → exec (.holdSet x) s = .next s ∧ exec (.holdClear x) s = .next s) ∧
    (c.hold = true → exec (.tideStep x) s = .next (s.setCtx x { c with hval := c.hval + 1 })) ∧
    (c.hold = false → exec (.tideStep x) s = .next s) ∧
    (still → ∀ v w, exec (.shiftWrite x v) s = .next (s.setCtx x { c with shift := v }) ∧
      exec (.toffsetWrite x w) s = .next (s.setCtx x { c with offset := w })) ∧
    (¬still → ∀ v w, exec (.shiftWrite x v) s = .next s ∧ exec (.toffsetWrite x w) s = .next s)

/-- R261: FOWNSET with GO sets the owner of a frame or clears it; without GO it only holds its fields. -/
def Sys2Proof.Claims.FrameOwnersAreSet : Prop :=
  ∀ (s : State) (v : DWord), s.ready.getLsbD 2 = true →
    ∃ f, exec (.fownsetGo v) s = .next { s with fownset := v &&& 0x400003FFFFFF0FFF, fown := f } ∧
      (v.getLsbD 63 = false → f = s.fown) ∧
      (v.getLsbD 63 = true → v.getLsbD 62 = true → Tbl.get? f (v.toNat / 2 ^ 16 % 2 ^ 26) = some (v.toNat % 4096)) ∧
      (v.getLsbD 63 = true → v.getLsbD 62 = false → rising s.fown = true → Tbl.get? f (v.toNat / 2 ^ 16 % 2 ^ 26) = none) ∧
      ∀ k, k ≠ v.toNat / 2 ^ 16 % 2 ^ 26 → Tbl.get? f k = Tbl.get? s.fown k

/-- R27: a sweeper that finds a stamp whose age exceeds every bound that can be named makes it ANCIENT; any other it leaves. -/
def Sys2Proof.Claims.SweepersAgeStamps : Prop :=
  ∀ (s : State) (p : StampPlace) (st : Stamp) (tide : DWord) (ctr : Nat), s.placeStamp? p = some (st, tide, ctr) →
    let old := ∃ a, age (stampOf tide) st = some a ∧ 0x7FFFFF < a
    (¬old → exec (.scrub p) s = .next s) ∧
    (old → ∃ t, exec (.scrub p) s = .next t ∧ t.mem.bytes = s.mem.bytes ∧
      (s.mem.wf = true → (∀ c, (s.cube c).obuf.wf = true ∧ (s.cube c).stratum.wf = true ∧ (s.cube c).scale.wf = true) →
        (∀ c b n, p = .scratch c b n → ∃ k, s.block? c b = some k ∧ k.stashAt n = none ∧ k.sp.wf = true) →
        t.placeStamp? p = some (ancient, tide, ctr)))

/-- No stash line of the package is dirty (R174). -/
def Sys2Proof.Claims.clean (s : State) : Prop := ∀ e ∈ s.blocks, ∀ l ∈ e.2.2.stash, l.2.dirty = false

/-- The ranges of `n` bytes at `a` and `m` bytes at `b` do not meet. -/
def Sys2Proof.Claims.apart (a n b m : Nat) : Prop := a + n ≤ b ∨ b + m ≤ a

/-- R210: INVCTL with GO starts a shootdown where none is under way, with the range that the registers then name (DEDUCED,
log 25); when it is over no core holds a translation of its context in the range, or any where ALL is set, other contexts keep
theirs, and every stash line is written back. No write that used one is left to be made: the model makes a write in the step
that translates its address (log 25). -/
def Sys2Proof.Claims.ShootdownsDropTranslations : Prop :=
  (∀ (s : State) (v : DWord), s.ready.getLsbD 2 = true → ∃ k, exec (.shootdown v) s =
      .next { s with invctl := v &&& 0x3F80000000000FFF, shooting := k } ∧
    (v.getLsbD 62 = false ∨ s.shooting ≠ none → k = s.shooting) ∧
    (v.getLsbD 62 = true → s.shooting = none → ∃ n, k = some (v.toNat % 4096, s.invva, n) ∧ (n = none ↔ v.getLsbD 61 = true))) ∧
  (∀ (s : State) (x : Nat) (va : DWord) (n : Option Nat), s.shooting = some (x, va, n) →
    ∃ t, exec .shootdownCompletion s = .next t ∧ t.shooting = none ∧ (clean s → t.mem = s.mem) ∧
      (∀ core slot b k l, t.block? core slot = some b → Tbl.get? b.stash k = some l → l.dirty = false) ∧
      (n = none → ∀ e ∈ t.cores, ∀ y ∈ e.2.tlb, y.1 ≠ x) ∧
      (∀ k, n = some k → ∀ e ∈ t.cores, ∀ y ∈ e.2.tlb, y.1 = x →
        (y.2.2 ≤ k → y.2.1 / 2 ^ (k - y.2.2) ≠ va.toNat / 2 ^ k) ∧ (k < y.2.2 → y.2.1 ≠ va.toNat / 2 ^ y.2.2)) ∧
      ∀ c y, y ∈ (s.core c).tlb → y.1 ≠ x → y ∈ (t.core c).tlb) ∧
  (∀ s : State, s.shooting = none → exec .shootdownCompletion s = .next s)

/-- Nothing of a context is held any longer on the page of 2 to the `log` bytes that holds `v` (R213). -/
def Sys2Proof.Claims.released (t : State) (x v log : Nat) : Prop :=
  let there (y : DWord) := y.toNat % 2 ^ 57 / 2 ^ log = v / 2 ^ log
  (∀ p ∈ t.moves, ¬(p.1 = x ∧ there p.2)) ∧
    ∀ c ∈ t.cores, ∀ b ∈ c.2.blocks, b.2.ctx = x →
      (∀ y, b.2.th.wait = .migrate y → ¬there y) ∧ ∀ g ∈ b.2.gangs, ∀ y, g.heldOn = some y → ¬there y

/-- R212 to R214, R366: the fault unit takes up a page on which accesses are held: with the leaf migrated, and a near frame
free or a victim moved away, the page's bytes stand in the near frame, its entry names that frame in the near tier, and the move
is counted in MIG_DONE and recorded in the DONE ring where that has room; without one its entry is set to FAR where it lies and
nothing else of memory changes, counted in MIG_NOFRAME; then, or where the leaf is one no longer, the accesses of its context
held on the page go on; before a base die on the way is ready nothing happens. The model's choice, logs 5 and 25: the move is
one step, which every agent sees at once. -/
def Sys2Proof.Claims.PagesMigrate : Prop :=
  ∀ (s : State) (x : Nat) (va : DWord), s.ready.getLsbD 2 = true →
    let v := va.toNat % 2 ^ 57
    let W := (s.walk v s.clock (s.rootOf x) 4).2
    let out := exec (.pageMigration x va) s
    (W = .wait → out = .next s) ∧
    (∀ d, W = .fault d → ∃ t, out = .next t ∧ t.mem = s.mem ∧ released t x v 16) ∧
    (∀ e level pte, W = .leaf e level pte →
      let log := pageLog level
      let n := 2 ^ log
      let old := pteAddr e
      let ready := s.doneReady = true ∧ s.spanReady old n = true
      let F := s.takeFree log (if log = 16 then s.free64.tail - s.free64.head else s.free2m.tail - s.free2m.head).toNat
      let V := F.1.takeVictim level log (F.1.victim.tail - F.1.victim.head).toNat
      let G := if F.2 = .none then V else F
      let D := s.done.slot s.done.tail 16
      let sound := G.1.mem.wf = true ∧ clean G.1 ∧ G.1.mem.bad (pte / 32) = false ∧ G.1.offline pte = false ∧ pte % 8 = 0 ∧
        (s.done.full = true ∨ apart D 16 pte 8)
      let risen (t : State) (k : Nat) := Tbl.getD t.counters (lagoonCtr k) 0 = satAdd (Tbl.getD s.counters (lagoonCtr k) 0) 1
      let moved (t : State) := released t x v log ∧
        (s.done.full = false → t.done = { s.done with tail := s.done.tail + 1 }) ∧ (s.done.full = true → t.done = s.done)
      (pteTier e ≠ 2 → ∃ t, out = .next t ∧ t.mem = s.mem ∧ released t x v log) ∧
      (pteTier e = 2 → ¬ready ∨ G.2 = .wait → out = .next s) ∧
      (pteTier e = 2 → ready → ∀ f, G.2 = .got f → ∃ t, out = .next t ∧ moved t ∧ risen t 5 ∧
        (sound → apart f n pte 8 → s.done.full = true ∨ apart f n D 16 →
          t.mem.nat pte 8 = (movePte e 0 f).toNat ∧ ∀ i, i < n → t.mem.byte (f + i) = G.1.mem.byte (old + i))) ∧
      (pteTier e = 2 → ready → G.2 = .none → ∃ t, out = .next t ∧ moved t ∧ risen t 6 ∧
        (sound → t.mem.nat pte 8 = (movePte e 1 old).toNat ∧
          ∀ a, a < pte ∨ pte + 8 ≤ a → s.done.full = true ∨ a < D ∨ D + 16 ≤ a → t.mem.byte a = G.1.mem.byte a)))

/-- R198: a read request of an isle for a private region: the isle that asks first owns it; another isle's makes it
read-shared, for which the owner writes its dirty stash lines in the region back and keeps them clean and not exclusive. -/
def Sys2Proof.Claims.DirectoryAnswers : Prop :=
  ∀ (s : State) (isle pa : Nat), s.ready.getLsbD 2 = true → isle < 8 → backed pa 1 = true →
    let r := s.region (pa / 2 ^ 21)
    r.st = 0 →
    ∃ t, exec (.directoryRequest isle pa .read) s = .next t ∧
      ((∀ e ∈ s.blocks, ∀ l ∈ e.2.2.stash, l.2.dirty = false) → t.mem = s.mem) ∧
      (r.owner = none ∨ r.owner = some isle → t.mem = s.mem ∧ (t.region (pa / 2 ^ 21)).st = 0 ∧ (t.region (pa / 2 ^ 21)).owner = some isle) ∧
      (∀ j, r.owner = some j → j ≠ isle → (t.region (pa / 2 ^ 21)).st = 1 ∧ (t.region (pa / 2 ^ 21)).owner = none) ∧
      (∀ j, r.owner = some j → j ≠ isle →
        (∀ core slot b n l, isleOf core = j → t.block? core slot = some b → Tbl.get? b.stash n = some l →
          l.pa / 2 ^ 21 = pa / 2 ^ 21 → l.dirty = false ∧ l.excl = false) ∧
        ∀ core slot b n l, isleOf core = j → s.blocks = [(core, slot, b)] → b.stash = [(n, l)] → l.dirty = true →
          l.pa / 2 ^ 21 = pa / 2 ^ 21 → l.pa % 128 = 0 → l.bytes.length = 128 → s.mem.wf = true →
          (∀ k, k < 4 → s.memReady (l.pa + 32 * k) = true ∧ s.offline (l.pa + 32 * k) = false) →
          ∀ i, i < 128 → t.mem.byte (l.pa + i) = l.bytes.getD i 0) ∧
      ∀ k, k ≠ pa / 2 ^ 21 → t.region k = s.region k

/-- R196, R199, R217, R242, R364, R366: the host aperture, once ready: bytes written within one near sector stand at their
addresses, AGELESS; what is read, where no write is to be missed (R242), is memory, with its poison, and the sole-access counters
of its regions begin anew (R198); before that both miss, and a read gets poison alone. -/
def Sys2Proof.Claims.ApertureActs : Prop :=
  (∀ (s : State) (off : Nat) (l : List Byte), s.ready.getLsbD 5 = true → l ≠ [] → off % 32 + l.length ≤ 32 →
    off + l.length ≤ 0x10C388D0000 → s.memReady off = true → s.offline (off / 32 * 32) = false → s.mem.wf = true →
    s.blocks = [] → s.mem.bad (off / 32) = false ∨ l.length = 32 →
    ∃ t, exec (.apertureWrite off l) s = .next t ∧ (∀ i, i < l.length → t.mem.byte (off + i) = l.getD i 0) ∧
      t.mem.stamp (off / 32) = ageless ∧ t.mem.bad (off / 32) = false ∧
      ∀ a, a < off ∨ off + l.length ≤ a → t.mem.byte a = s.mem.byte a) ∧
  (∀ (s : State) (off n : Nat), s.ready.getLsbD 5 = true → off + n ≤ 0x10C388D0000 →
    (∀ i, i < n → s.memReady (off + i) = true) → s.olds = [] →
    ∃ t, exec (.apertureRead off n) s = .next t ∧ t.mem = s.mem ∧ t.hostRead = ((List.range n).map fun i =>
        (s.mem.byte (off + i), s.mem.bad ((off + i) / 32) || s.offline ((off + i) / 32 * 32))) ∧
      (∀ i, i < n → (t.region ((off + i) / 2 ^ 21)).sole = 0) ∧
      ∀ r, (∀ i, i < n → (off + i) / 2 ^ 21 ≠ r) → t.region r = s.region r) ∧
  (∀ (s : State) (off n : Nat) (l : List Byte), s.ready.getLsbD 5 = false →
    exec (.apertureWrite off l) s = .next (s.count (lagoonCtr 4) 1) ∧
    ∃ t, exec (.apertureRead off n) s = .next t ∧ t.mem = s.mem ∧ t.hostRead.length = n ∧ ∀ p ∈ t.hostRead, p.2 = true)

/-- R204 to R206, R216, R218: a gather packet of at most 32 words of ready memory is served; an uncorrectable error of its
first sector poisons that sector and is counted; a parity failure that no lane swap mends poisons the sectors of its transfer. -/
def Sys2Proof.Claims.GatherPacketsAreServed : Prop :=
  ∀ (s : State) (isle base o : Nat) (offs : List Nat), s.ready.getLsbD 2 = true → isle < 8 → offs.length < 32 →
    s.blocks = [] → (∀ x ∈ o :: offs, backed (base + x) 1 = true ∧ s.memReady (base + x) = true) → (∀ x ∈ offs, o ≤ x) →
    let ctr (t : State) (k : Nat) := Tbl.getD t.counters (baseCtr (baseOf (base + o)) k) 0
    (∃ t, exec (.gatherPacket isle base (o :: offs) []) s = .next t ∧ t.mem = s.mem) ∧
    (∃ t, exec (.gatherPacket isle base (o :: offs) [.uncorrectable]) s = .next t ∧ t.mem.bytes = s.mem.bytes ∧
      t.mem.bad ((base + o) / 32) = true ∧ ctr t 1 = satAdd (ctr s 1) 1) ∧
    ∀ ok, ∃ t, exec (.gatherPacket isle base (o :: offs) [.allFailed none ok]) s = .next t ∧ t.mem.bytes = s.mem.bytes ∧
      (∀ x ∈ o :: offs, (base + x) / 128 = (base + o) / 128 → t.mem.bad ((base + x) / 32) = true) ∧ ctr t 4 = satAdd (ctr s 4) 1

/-- R203, R365, R366, R368: a base die whose firmware has passed zeroes its stack, clean and ANCIENT, and sets its bit; the writes
that were held for it are then performed, and none for it is held any more; the other dies keep theirs; without its firmware
nothing happens. -/
def Sys2Proof.Claims.BaseDiesInitialise : Prop :=
  ∀ (s : State) (d : Nat), d < 24 → s.ready.getLsbD (40 + d) = false →
    (s.fwPassed (9 + d) = false → exec (.baseDieInitialisation d) s = .next s) ∧
    (s.fwPassed (9 + d) = true → ∃ t, exec (.baseDieInitialisation d) s = .next t ∧
      (∀ k, t.ready.getLsbD k = (s.ready.getLsbD k || k == 40 + d)) ∧
      t.heldPuts = (s.heldPuts.filter fun h => baseOf (32 * h.sec) != d) ∧
      (t.heldPuts = s.heldPuts →
        (∀ a, baseOf a = d → t.mem.byte a = 0) ∧ (∀ a, baseOf a ≠ d → t.mem.byte a = s.mem.byte a) ∧
        (∀ i, baseOf (32 * i) = d → t.mem.stamp i = ancient ∧ t.mem.bad i = false) ∧
        ∀ i, baseOf (32 * i) ≠ d → t.mem.stamp i = s.mem.stamp i ∧ t.mem.bad i = s.mem.bad i) ∧
      (∀ sec bytes st bad, s.heldPuts = [.line sec bytes st bad] → baseOf (32 * sec) = d → bytes.length = 32 →
        s.mem.wf = true → s.offline (32 * sec) = false →
        (∀ i, i < 32 → t.mem.byte (32 * sec + i) = bytes.getD i 0) ∧ t.mem.stamp sec = st ∧ t.mem.bad sec = bad))

/-- Tides and frames, sweepers, shootdowns, migration, the directory, the aperture, packets and base dies. -/
def Obligations.TideAndMemoryUnits : Prop :=
  Claims.TideRegistersAct ∧ Claims.FrameOwnersAreSet ∧ Claims.SweepersAgeStamps ∧ Claims.ShootdownsDropTranslations ∧
    Claims.PagesMigrate ∧ Claims.DirectoryAnswers ∧ Claims.ApertureActs ∧ Claims.GatherPacketsAreServed ∧
    Claims.BaseDiesInitialise

/-! ### Bring-up and registers -/

/-- R365, R366, R368, R245: a function sets its bit of READY once, and only with its prerequisites: the firmware of its die,
for the graph engine the lagoon and the tide too; the tide starts at 0; the graph engine's contexts and an isle's cores take
their reset state (R5), and nothing else of memory, contexts, cores or instances changes. -/
def Sys2Proof.Claims.FunctionsBecomeReady : Prop :=
  ∀ (s : State) (bit : Nat),
    let fw (u : Nat) := s.fwPassed u = true
    let may := bit = 0 ∨ (bit = 1 ∧ ∀ u, u < 37 → fw u) ∨ ((bit = 2 ∨ bit = 3) ∧ fw 0) ∨
      (bit = 4 ∧ fw 0 ∧ s.ready.getLsbD 2 = true ∧ s.ready.getLsbD 3 = true) ∨ (bit = 5 ∧ fw 0 ∧ s.ready.getLsbD 2 = true) ∨
      (28 ≤ bit ∧ bit < 36 ∧ fw (bit - 27))
    (s.ready.getLsbD bit = true ∨ ¬may → exec (.functionReady bit) s = .next s) ∧
    (s.ready.getLsbD bit = false → may → ∃ t, exec (.functionReady bit) s = .next t ∧
      (∀ k, t.ready.getLsbD k = (s.ready.getLsbD k || k == bit)) ∧ t.mem = s.mem ∧ t.insts = s.insts ∧
      t.ctxs = (if bit = 4 then [] else s.ctxs) ∧ (∀ e, e ∈ t.cores ↔ e ∈ s.cores ∧ isleOf e.1 + 28 ≠ bit) ∧
      t.tide = if bit = 3 then 0 else s.tide)

/-- R368, R369, R372: firmware loads only with its digest, key and signature in order; ATTGO begins a report where none is in
progress, and a report in progress goes to host memory with its signature after it, and sets ATTDONE; the clock, once
management is ready, moves by 50 MHz within 450 and 1800. DESIGN CHOICE, log 14: the report's items are those of the moment
of ATTGO, and the signature follows the report at ATTADDR. -/
def Sys2Proof.Claims.FirmwareReportClock : Prop :=
  (∀ (s : State) (u : Nat) (f : FwImage), u < 37 → ∃ t, exec (.firmwareVerification u f) s = .next t ∧
    (t.fwPassed u = true ↔ f.digest = Config.shake256 f.code ∧ Config.shake256 f.key = Config.rootKeyDigest ∧
      Config.falconVerifies f.key f.digest f.sig = true) ∧ ∀ v, v ≠ u → t.fwPassed v = s.fwPassed v) ∧
  (∀ s : State, s.ready.getLsbD 0 = true → s.ready.getLsbD 2 = true →
    (s.attReport = none → exec .attgo s =
      .next { s with attReport := some (s.attAddr.toNat, s.report ++ Config.falconSign s.report) }) ∧
    (s.attReport ≠ none → exec .attgo s = .next s)) ∧
  (∀ (s : State) (a : Nat) (l : List Byte), s.attReport = some (a, l) → s.hostMem.wf = true →
    s.reportOut = { s with attReport := none, attDone := true, hostMem := s.reportOut.hostMem } ∧
      (∀ i, i < l.length → s.reportOut.hostMem.byte (a + i) = l.getD i 0) ∧
      ∀ x, x < a ∨ a + l.length ≤ x → s.reportOut.hostMem.byte x = s.hostMem.byte x) ∧
  (∀ (s : State) (p : BitVec 14) (tj : BitVec 8), let clk := s.pwr.toNat / 2 ^ 37 % 2 ^ 13
    (s.ready.getLsbD 0 = false → exec (.clockStep p tj) s = .next s) ∧
    (s.ready.getLsbD 0 = true → 450 ≤ clk → clk ≤ 1800 →
    ∃ t, exec (.clockStep p tj) s = .next t ∧ t.pwr.toNat / 2 ^ 23 % 2 ^ 14 = p.toNat ∧ t.pwr.toNat / 2 ^ 15 % 2 ^ 8 = tj.toNat ∧
      t.pwr.toNat / 2 ^ 50 = s.pwr.toNat / 2 ^ 50 ∧
      (pcap s.pwr < p.toNat ∨ 100 ≤ tj.toNat → t.pwr.toNat / 2 ^ 37 % 2 ^ 13 = max 450 (clk - 50)) ∧
      (¬(pcap s.pwr < p.toNat ∨ 100 ≤ tj.toNat) → t.pwr.toNat / 2 ^ 37 % 2 ^ 13 = min 1800 (clk + 50))))

/-- R365, R367, R366: power-up and a reset of the package leave every bit of READY clear and memory, contexts, cores and
instances as at reset, but not the host's memory; a reset of a base die clears its bit; one of an isle is ISLE_RESET. -/
def Sys2Proof.Claims.ResetsRestart : Prop :=
  (∀ (s : State) (i : Instr), i = .powerUp ∨ i = .managementResetRequest .package → ∃ t, exec i s = .next t ∧ t.ready = 0 ∧
    t.tide = 0 ∧ t.mem = Store.empty ∧ t.ctxs = [] ∧ t.cores = [] ∧ t.cubes = [] ∧ t.insts = [] ∧ t.hostMem = s.hostMem) ∧
  (∀ (s : State) (d : Nat), d < 24 → ∃ t, exec (.managementResetRequest (.base d)) s = .next t ∧ t.mem = s.mem ∧
    ∀ k, t.ready.getLsbD k = (s.ready.getLsbD k && k != 40 + d)) ∧
  ∀ (s : State) (n : Nat), exec (.managementResetRequest (.isle n)) s = exec (.isleReset n) s

/-- R375, R317: SPSIZE is written only while its core holds no block, and drops its L1; CTXROOT and CTXSAVE only while the
context is FREE or STOPPED. -/
def Sys2Proof.Claims.GuardedRegisters : Prop :=
  (∀ (s : State) (c : Nat) (v : DWord), c < 1536 → c % 8 < 4 → s.ready.getLsbD (28 + isleOf c) = true →
    ((s.core c).blocks = [] → exec (.corecfgWrite c v) s =
      .next (s.setCore c { s.core c with spsize := v.setWidth 5, l1 := [] })) ∧
    ((s.core c).blocks ≠ [] → exec (.corecfgWrite c v) s = .next s)) ∧
  (∀ (s : State) (x : Nat) (v : BitVec 128), s.ready.getLsbD 4 = true → let c := s.ctx x
    (c.st = .free ∨ c.st = .stopped →
      exec (.ctxrootWrite x false v) s = .next (s.setCtx x { c with root := v.extractLsb' 14 28 }) ∧
      exec (.ctxrootWrite x true v) s = .next (s.setCtx x { c with
        saveBase := v.extractLsb' 12 30, saveSize := v.extractLsb' 64 32 })) ∧
    (c.st ≠ .free → c.st ≠ .stopped → ∀ b, exec (.ctxrootWrite x b v) s = .next s))

/-- R5, R366: a register of a function that is not ready ignores a write and reads 0; else these registers read back what
was written in their RW fields, W1C bits fall where 1 is written, a write of CTXCTL makes its command, and READY and TNOW
read as they stand. R363, R374: READY is the doubleword at offset 0 of management space; an offset that names no register reads 0
and ignores a write. -/
def Sys2Proof.Claims.RegistersReadBack : Prop :=
  (∀ (s : State) (r : MReg) (v : BitVec 256), s.ready.getLsbD r.owner = false →
    exec (.registerWrite r v) s = .next s ∧ s.regRead r = 0) ∧
  (∀ (s : State) (x n : Nat) (v : BitVec 256), s.ready.getLsbD 4 = true → x < 4096 →
    (1 ≤ n → n < 16 → ∃ t, exec (.registerWrite (.abent x n) v) s = .next t ∧
      t.regRead (.abent x n) = (v.setWidth 32 &&& 0xC07FFFFF : Word).toNat) ∧
    (∃ t, exec (.registerWrite (.absticky x) v) s = .next t ∧
      t.regRead (.absticky x) = ((s.ctx x).absticky &&& ~~~(v.setWidth 32)).toNat) ∧
    (∃ t, exec (.registerWrite (.cubecfg x) v) s = .next t ∧ t.regRead (.cubecfg x) = v.toNat % 4) ∧
    (∃ t, exec (.registerWrite (.wdcfg x) v) s = .next t ∧ t.regRead (.wdcfg x) =
      (v.setWidth 64 &&& 0xC000000000000FFF : DWord).toNat) ∧
    (n < 256 → ∃ t, exec (.registerWrite (.prod x n) v) s = .next t ∧
      t.regRead (.prod x n) = v.toNat / 2 ^ 64 * 2 ^ 64 + v.toNat % 16) ∧
    s.regRead (.tnow x) = (s.ctide x).toNat ∧
    ((s.ctx x).st = .free ∨ (s.ctx x).st = .stopped →
      (∃ t, exec (.registerWrite (.ctxroot x) v) s = .next t ∧ t.regRead (.ctxroot x) = v.toNat / 2 ^ 14 % 2 ^ 28 * 2 ^ 14) ∧
      ∃ t, exec (.registerWrite (.ctxsave x) v) s = .next t ∧ t.regRead (.ctxsave x) =
        v.toNat / 2 ^ 64 % 2 ^ 32 * 2 ^ 64 + v.toNat / 2 ^ 12 % 2 ^ 30 * 2 ^ 12) ∧
    (s.ctxStill x = true → ∃ t, exec (.registerWrite (.toffset x) v) s = .next t ∧ t.regRead (.toffset x) = v.toNat % 2 ^ 64) ∧
    ((s.ctx x).st = .free → v.toNat / 2 ^ 56 % 8 = 1 → ∃ t, exec (.registerWrite (.ctxctl x) v) s = .next t ∧
      (t.ctx x).st = .live ∧ (t.ctx x).debug = v.getLsbD 60 ∧ (t.ctx x).restamp = v.getLsbD 59)) ∧
  (∀ s : State, s.ready.getLsbD 0 = true → s.regRead .ready = s.ready.toNat ∧ s.barRead 0 = s.ready.toNat) ∧
  (∀ (s : State) (o : Nat) (v : BitVec 256), barReg o = none →
    s.barRead o = 0 ∧ exec (.registerWrite (.bar o) v) s = .next s) ∧
  (∀ (s : State) (c : Nat) (v : BitVec 256), c < 1536 → c % 8 < 4 → s.ready.getLsbD (28 + isleOf c) = true →
    (s.core c).blocks = [] → ∃ t, exec (.registerWrite (.corecfg c) v) s = .next t ∧ t.regRead (.corecfg c) = v.toNat % 32) ∧
  ∀ (s : State) (n : Nat) (v : BitVec 256), s.ready.getLsbD 2 = true →
    (n < 4096 → ∃ t, exec (.registerWrite (.acl n) v) s = .next t ∧
      t.regRead (.acl n) = (v.setWidth 64 &&& 0xFFFFFFFC00000000 : DWord).toNat) ∧
    ∃ t, exec (.registerWrite .invva v) s = .next t ∧ t.regRead .invva = (v.setWidth 64 &&& 0x01FFFFFFFFFF0000 : DWord).toNat

/-- R233, R239: an acknowledgement of an outstanding write holds for its class and every narrower one; of class SYSTEM the write is
outstanding no longer. DESIGN CHOICE, log 17: one step acknowledges one item, and a peer egress whose flits are not acknowledged for
PACKAGE at most. -/
def Sys2Proof.Claims.WritesAreAcknowledged : Prop :=
  ∀ (s : State) (core slot : Nat) (b : Block) (c : AckClass), s.block? core slot = some b →
    let k := match c with
      | .core => 1
      | .die => 2
      | .package => 3
      | .system => 4
    (∀ i g a p z, b.gangs[i]? = some g → g.outst = a ++ p :: z →
      let flies := ∃ f ∈ (s.core core).ferry, f.slot = slot ∧ f.gang = i ∧ f.id + 1 = p.1 ∧ f.flits ≠ []
      ∃ n, (flies → n = min k 3) ∧ (¬flies → n = k) ∧
        exec (.writeAcknowledgement (.gang core slot i) a.length c) s = .next (s.onGang core slot i fun _ => { g with
          outst := a ++ (if 4 ≤ max p.2 n then [] else [(p.1, max p.2 n)]) ++ z })) ∧
    ∀ a p z, b.th.outst = a ++ p :: z →
      exec (.writeAcknowledgement (.thread core slot) a.length c) s = .next (s.onThread core slot fun _ => { b.th with
        outst := a ++ (if max p.2 k = 4 ∨ 4 < max p.2 k then [] else [(p.1, max p.2 k)]) ++ z })

/-- Bring-up, firmware, attestation, power, resets, the registers of management space, acknowledgements. -/
def Obligations.BringUpAndRegisters : Prop :=
  Claims.FunctionsBecomeReady ∧ Claims.FirmwareReportClock ∧ Claims.ResetsRestart ∧ Claims.GuardedRegisters ∧
    Claims.RegistersReadBack ∧ Claims.WritesAreAcknowledged

end

namespace Sys2Proof.Claims

open Sys2Proof.Machine

/-- DBGCMD after a command: its RW fields, and STAT (R349). -/
def dbgDone (s : State) (x : Nat) (v : DWord) (stat : Nat) : State :=
  s.setCtx x { s.ctx x with dbgcmd := (v &&& 0x03FFFFFFFF000000) ||| BitVec.ofNat 64 (stat * 2 ^ 58) }

/-- A command of the debugger to a gang. -/
inductive GangCommand (x : Nat) (v : DWord) : Instr → Prop
  | halt : GangCommand x v (.halt x v)
  | resume : GangCommand x v (.debugResume x v)
  | step : GangCommand x v (.debugStep x v)
  | readv : GangCommand x v (.readv x v)
  | writev : GangCommand x v (.writev x v)
  | dump : GangCommand x v (.dump x v)

/-- A command of the debugger to a generator thread. -/
inductive ThreadCommand (x : Nat) (v : DWord) : Instr → Prop
  | halt : ThreadCommand x v (.ghalt x v)
  | step : ThreadCommand x v (.gstep x v)
  | resume : ThreadCommand x v (.gresume x v)

/-- The core that a command names: ISLE, CLUSTER, CORE. -/
def dbgTarget (v : DWord) : Nat := (v.toNat / 2 ^ 51 % 8 * 24 + v.toNat / 2 ^ 46 % 32) * 8 + v.toNat / 2 ^ 44 % 4

/-- The flit has been taken: the next one in sequence is expected, and an acknowledgement with a code goes out (R370). -/
def taken (s t : State) (cape : Nat) (f : Flit) (code : Byte) : Prop :=
  (t.cape cape).recvSeq = (s.cape cape).recvSeq + 1 ∧
    ∃ a ∈ t.outbox, a.1 = cape ∧ a.2.kind = .ack ∧ a.2.seq = f.seq ∧ a.2.dst = f.src ∧ a.2.body = [code]

end Sys2Proof.Claims

section
open Sys2Proof Sys2Proof.Machine Sys2Proof.Claims

/-! ### The debugger -/

/-- R349: a command with GO: STAT 4 outside a DEBUG context, 1 where no block or no gang of the context is named, 2 where
the target is not halted, 3 for a register the gang has not; nothing else changes then. -/
def Sys2Proof.Claims.CommandsAreRefused : Prop :=
  ∀ (s : State) (x : Nat) (v : DWord) (i : Instr), s.graphUp = true → v.getLsbD 63 = true →
    let c := dbgTarget v
    let k := v.toNat / 2 ^ 40 % 16
    let j := v.toNat / 2 ^ 36 % 16
    let found := v.toNat / 2 ^ 46 % 32 < 24 ∧ ∃ b, s.block? c k = some b ∧ b.ctx = x ∧ b.control = false
    let stat (n : Nat) := exec i s = .next (dbgDone s x v n)
    (GangCommand x v i ∨ ThreadCommand x v i → (s.ctx x).debug = false → stat 4) ∧
    (GangCommand x v i ∨ ThreadCommand x v i → (s.ctx x).debug = true → ¬found → stat 1) ∧
    (GangCommand x v i → (s.ctx x).debug = true → found → s.gang? c k j = none → stat 1) ∧
    (∀ b, (s.ctx x).debug = true → v.toNat / 2 ^ 46 % 32 < 24 → s.block? c k = some b → b.ctx = x → b.control = false →
      (i = .gstep x v ∨ i = .gresume x v → b.th.halted = false → stat 2) ∧
      ∀ g, b.gangs[j]? = some g →
        (GangCommand x v i → i ≠ .halt x v → i ≠ .dump x v → g.halted = false → stat 2) ∧
        (i = .readv x v ∨ i = .writev x v → g.halted = true → b.shape.n ≤ v.toNat / 2 ^ 29 % 128 → stat 3))

/-- R349, R87: the commands in a DEBUG context, each with STAT 0: HALT halts a parked gang and asks a running one to halt;
RESUME and STEP let a halted gang go; the thread's three; READV gives a lane and its stamp, an absent lane 0 and AGELESS
(R109); WRITEV sets a lane, an absent one is not written; DUMP leaves the gang as it is. DEDUCED, log 26: HALT of an idle gang has
no effect. -/
def Sys2Proof.Claims.CommandsAct : Prop :=
  ∀ (s : State) (x : Nat) (v : DWord) (b : Block), s.graphUp = true → v.getLsbD 63 = true → (s.ctx x).debug = true →
    v.toNat / 2 ^ 46 % 32 < 24 → s.block? (dbgTarget v) (v.toNat / 2 ^ 40 % 16) = some b → b.ctx = x → b.control = false →
    let c := dbgTarget v
    let k := v.toNat / 2 ^ 40 % 16
    let j := v.toNat / 2 ^ 36 % 16
    let r := v.toNat / 2 ^ 29 % 128
    let L := v.toNat / 2 ^ 24 % 32
    let gang (i : Instr) (P : Gang → Prop) := ∃ u g', exec i s = .next (dbgDone u x v 0) ∧ u.gang? c k j = some g' ∧ P g'
    let thread (i : Instr) (P : Thread → Prop) := ∃ u b', exec i s = .next (dbgDone u x v 0) ∧ u.block? c k = some b' ∧ P b'.th
    (∀ g, b.gangs[j]? = some g →
      (g.st = .running → gang (.halt x v) (· = { g with req := .halt, reqEvent := true })) ∧
      (g.st = .idle → exec (.halt x v) s = .next (dbgDone s x v 0)) ∧
      (g.st = .parked → g.halted = false →
        gang (.halt x v) (· = { g with halted := true, req := .none, reqEvent := false })) ∧
      (g.halted = true → ∀ p ∈ [(Instr.debugResume x v, StopReq.none), (.debugStep x v, .step)], gang p.1 fun h =>
        h.halted = false ∧ h.req = p.2 ∧ (g.faultParked = true → h.st = g.st) ∧
          (g.faultParked = false → g.groups ≠ [] → h.st = .running) ∧
          h = { g with
            halted := false, req := h.req, reqEvent := false, st := h.st, sealStop := false, waitStop := false
            groups := h.groups } ∧
          h.groups.map (fun y => { y with passed := true }) = g.groups.map (fun y => { y with passed := true })) ∧
      (g.halted = true → r < b.shape.n → r < 126 →
        exec (.readv x v) s = .next (dbgDone (s.setCtx x { s.ctx x with
          dbgval := if L / 4 < b.shape.slices then BitVec.ofNat 64 ((lane (g.readV 0 r).lanes L).toNat +
            (stampAt (g.readV 0 r).stamps (L / 4)).toNat * 2 ^ 40) else 0xFFFFFF0000000000 }) x v 0) ∧
        gang (.writev x v) fun h => h = { g with v := h.v, window := h.window, pend := h.pend } ∧
          (b.shape.slices ≤ L / 4 → h = g) ∧
          (L / 4 < b.shape.slices → ∀ i, i < 32 → lane (h.readV 0 r).lanes i =
            if i = L then BitVec.ofNat 32 (s.ctx x).dbgval.toNat else lane (g.readV 0 r).lanes i) ∧
          ∀ q, q ≠ r → h.readV 0 q = g.readV 0 q) ∧
      gang (.dump x v) (· = g)) ∧
    (b.th.halted = true → exec (.ghalt x v) s = .next (dbgDone s x v 0)) ∧
    (b.th.halted = false → thread (.ghalt x v) (· = { b.th with halted := true, stepOne := false })) ∧
    (b.th.halted = true → thread (.gstep x v) (· = { b.th with halted := false, stepOne := true }) ∧
      thread (.gresume x v) (· = { b.th with halted := false, stepOne := false }))

/-! ### The link -/

/-- R370, R274, R325, R277: a data flit in sequence: refused where no entry of the access-control table allows the write (what it
carries for the cape's sender is taken all the same); else the bytes from its address on, up to its count, are written, sector by sector, with the carried stamps and poison. -/
def Sys2Proof.Claims.DataFlitsWrite : Prop :=
  ∀ (s : State) (cape : Nat) (f : Flit), (s.inSeq cape f = false → exec (.dataFlit cape f) s = .next s) ∧
    (s.inSeq cape f = true → let ctx := f.ctx.toNat
      (s.aclAllows false f.src.toNat ctx none = false →
        ∃ t, exec (.dataFlit cape f) s = .next t ∧ taken s t cape f 2 ∧ t.mem = (afterAck s cape f).mem ∧
          t.cores = (afterAck s cape f).cores) ∧
      (s.aclAllows false f.src.toNat ctx none = true →
        (∀ u w, s.flitPlace ctx f f.sectors = (u, .wait w) → ∃ t, exec (.dataFlit cape f) s = .next t ∧
          (t.cape cape).recvSeq = (u.cape cape).recvSeq ∧ t.mem = u.mem) ∧
        ∀ u l, s.flitPlace ctx f f.sectors = (u, .ok l) → ∃ t, exec (.dataFlit cape f) s = .next t ∧ taken u t cape f 0 ∧
          (u.blocks = [] → u.mem.wf = true → (l.map (·.2)).Nodup → ∀ p ∈ l, u.offline (32 * p.2) = false →
            let o := f.addr.toNat % 32
            let n := min f.count.toNat (192 - o)
            let whole := (List.range 32).all fun q => o ≤ 32 * p.1 + q && 32 * p.1 + q < o + n
            t.mem.bad p.2 = (f.poison.getLsbD p.1 || (u.mem.bad p.2 && !whole)) ∧
            (f.poison.getLsbD p.1 = false → u.mem.bad p.2 = false ∨ whole = true →
              t.mem.stamp p.2 = (if whole then f.stamps.getD p.1 ageless
                else older (u.now ctx) (u.mem.stamp p.2) (f.stamps.getD p.1 ageless)) ∧
              ∀ q, q < 32 → t.mem.byte (32 * p.2 + q) =
                if o ≤ 32 * p.1 + q ∧ 32 * p.1 + q < o + n then f.body.getD (32 * p.1 + q) 0
                else u.mem.byte (32 * p.2 + q)))))

/-- R370, R274, R93, R233: an acknowledgement retires the replay buffer up to its flit, and what waited for one of these waits
no longer, a write that was refused with status 6, for which its gang waits no longer once no other flit of the command is out; a
flit that carries an acknowledgement does the same for the flits up to that one; a negative one sends the rest again; a flit out of order or with a bad
CRC is asked for again. -/
def Sys2Proof.Claims.AcknowledgementsRetire : Prop :=
  (∀ (s : State) (cape : Nat) (seq : BitVec 12) (refused : Bool), (∀ e ∈ (s.cape cape).replay, e.1 ≠ seq) →
    exec (.ack cape seq refused) s = .next s) ∧
  (∀ (s : State) (cape : Nat) (refused : Bool) (a z : List (BitVec 12 × Flit × Nat)) (e : BitVec 12 × Flit × Nat),
    (s.cape cape).replay = a ++ e :: z → (∀ y ∈ a, y.1 ≠ e.1) →
    ∃ t, exec (.ack cape e.1 refused) s = .next t ∧ (t.cape cape).replay = z ∧
      (∀ k ∈ t.cores, ∀ c ∈ k.2.ferry, ∀ y ∈ a ++ [e], (cape, y.1) ∉ c.flits) ∧
      (∀ k c, c ∈ (s.core k).ferry → (cape, e.1) ∈ c.flits → c.status.getD 0 = 0 → ∃ d ∈ (t.core k).ferry, d.id = c.id ∧
        d.status = if refused then some 6 else c.status) ∧
      (refused = true → ∀ k c g, c ∈ (s.core k).ferry → c.flits = [(cape, e.1)] → s.gang? k c.slot c.gang = some g →
        ∃ g', t.gang? k c.slot c.gang = some g' ∧ ∀ p ∈ g'.outst, p.1 ≠ c.id + 1) ∧
      (refused = false → s.ackedTo cape e.1 = t) ∧
      ∀ core slot b, s.block? core slot = some b → ((s.blocks.map fun p => (p.1, p.2.1)).Nodup) → b.th.wait = .peer cape e.1 →
        ∃ b', t.block? core slot = some b' ∧ b'.th = b.th.complete (b.th.pc + 4)) ∧
  (∀ (s : State) (cape : Nat) (a z : List (BitVec 12 × Flit × Nat)) (e : BitVec 12 × Flit × Nat),
    (s.cape cape).replay = a ++ e :: z → (∀ y ∈ a, y.1 ≠ e.1) →
    ∃ t, exec (.negativeAcknowledgement cape e.1) s = .next t ∧ t.mem = s.mem ∧ t.cores = s.cores ∧
      (t.cape cape).replay = a ++ (e :: z).map (fun y => (y.1, y.2.1, y.2.2 + 1)) ∧
      t.outbox = s.outbox ++ (e :: z).map fun y => (cape, y.2.1)) ∧
  ∀ (s : State) (cape : Nat) (f : Flit), cape < 4 → s.ready.getLsbD (36 + cape) = true →
    ∃ t a, exec (.badCrcOrSequenceGap cape f) s = .next t ∧ t = { s with outbox := s.outbox ++ [(cape, a)] } ∧
      a.kind = .ack ∧ a.seq = (s.cape cape).recvSeq ∧ a.body = [1]

/-- R370, R239, R274, R233: the oldest flit, after 8 failed retries, is dropped: counted in LINK_DROP, its place taken by a notice
with its header, its command failed with link-drop, and its gang waits for the command no longer once no other flit of it is out; at
the receiver a notice of a launch counts in LAUNCH_DROP of its context, and one of data poisons every sector that the flit
addressed. DESIGN CHOICE, log 22: the notice's body is the kind, 0 data and 1 launch, and the receiver counts in its own
LINK_DROP too. -/
def Sys2Proof.Claims.FlitsAreDropped : Prop :=
  (∀ (s : State) (cape n : Nat) (seq : BitVec 12) (f : Flit) (z : List (BitVec 12 × Flit × Nat)), cape < 4 →
    (s.cape cape).replay = (seq, f, n) :: z →
    (n < 8 ∨ f.kind = .dropNotice → exec (.flitDrop cape) s = .next s) ∧
    (8 ≤ n → f.kind = .data ∨ f.kind = .launch → ∃ t g, exec (.flitDrop cape) s = .next t ∧
      (t.cape cape).replay = (seq, g, 0) :: z ∧ (cape, g) ∈ t.outbox ∧
      g = { f with kind := .dropNotice, body := g.body, stamps := [], poison := 0 } ∧
      Tbl.getD t.counters (capeCtr cape 0) 0 = satAdd (Tbl.getD s.counters (capeCtr cape 0) 0) 1 ∧
      (∀ k c, c ∈ (s.core k).ferry → (cape, seq) ∈ c.flits → c.status.getD 0 = 0 → ∃ d ∈ (t.core k).ferry, d.id = c.id ∧
        d.status = some 7 ∧ (cape, seq) ∉ d.flits) ∧
      (∀ k c h, c ∈ (s.core k).ferry → c.flits = [(cape, seq)] → s.gang? k c.slot c.gang = some h →
        ∃ g', t.gang? k c.slot c.gang = some g' ∧ ∀ p ∈ g'.outst, p.1 ≠ c.id + 1))) ∧
  (∀ (s : State) (cape : Nat), (s.cape cape).replay = [] → exec (.flitDrop cape) s = .next s) ∧
  ∀ (s : State) (cape : Nat) (f : Flit), (s.inSeq cape f = false → exec (.dropNotice cape f) s = .next s) ∧
    (s.inSeq cape f = true →
      let more (u t : State) := Tbl.getD t.counters (capeCtr cape 0) 0 = satAdd (Tbl.getD u.counters (capeCtr cape 0) 0) 1
      let a := afterAck s cape f
      (f.body.headD 0 = 1 → ∃ t, exec (.dropNotice cape f) s = .next t ∧ taken s t cape f 0 ∧ t.mem = a.mem ∧ more s t ∧
        counted a t f.ctx.toNat .launchDrop) ∧
      (f.body.headD 0 = 0 → ∀ u l, s.flitPlace f.ctx.toNat f f.sectors = (u, .ok l) → u.blocks = [] →
        ∃ t, exec (.dropNotice cape f) s = .next t ∧ taken u t cape f 0 ∧ more u t ∧ t.mem.bytes = u.mem.bytes ∧
          ∀ p ∈ l, t.mem.bad p.2 = true))

/-- R370, R371, R245, R365, R366: a tide flit in its cape's sequence is taken, and the tide it carries, with the link's delay
added, moves the tide forward and never back, and the correction is sent at once; one out of sequence is not; a tide flit goes
out every 2^16 ticks, under the cape's next sequence number, and stands in the replay buffer; training takes the peer and the
delay, hears its tide, and sets the CAPE bit, once, with the tide ready and the cape's firmware in order; the barrier flits that
waited for it then go. DESIGN CHOICE, log 23: before the tide moves, every stamp that could reach the age 0xC0_0000 before the next
sweep but one becomes ANCIENT, and no other changes: that is earlier than R27's deadline. -/
def Sys2Proof.Claims.TidesAlign : Prop :=
  (∀ (s : State) (cape : Nat) (f : Flit), s.inSeq cape f = true →
    let a := afterAck s cape f
    let w := Flit.tide f + (s.cape cape).delay
    ∃ t, exec (.tideFlit cape f) s = .next t ∧ taken s t cape f 0 ∧
      (w.toNat ≤ s.tide.toNat → t.tide = s.tide ∧ t.mem = a.mem ∧ t.cores = a.cores) ∧
      (s.tide.toNat < w.toNat → t.tide = w ∧ t.mem.bytes = a.mem.bytes ∧
        t.mem.poison = a.mem.poison ∧ (a.mem.wf = true → ∀ i, t.mem.stamp i =
          if overdue (a.frameAging w i) (a.mem.stamp i) = true then ancient else a.mem.stamp i) ∧
        (∀ c k b, a.block? c k = some b → t.block? c k = some (b.scrub (a.aging w b.ctx) (a.saveAging w b.ctx).2)) ∧
        ∀ c, c < 4 → s.ready.getLsbD (36 + c) = true → ∃ f, (c, f) ∈ t.outbox ∧ f.kind = .tide ∧ f.body = leBytes w.toNat 8)) ∧
  (∀ (s : State) (cape : Nat) (f : Flit), s.inSeq cape f = false → exec (.tideFlit cape f) s = .next s) ∧
  (∀ (s : State) (cape : Nat) (f : Flit), 4 ≤ cape ∨ s.ready.getLsbD (36 + cape) = false →
    exec (.tideFlit cape f) s = .next s ∧ exec (.tideFlitSend cape) s = .next s) ∧
  (∀ (s : State) (cape : Nat), cape < 4 → s.ready.getLsbD (36 + cape) = true →
    let gone := (s.tide - (s.cape cape).lastTide).toNat
    (gone < 65536 → exec (.tideFlitSend cape) s = .next s) ∧
    (65536 ≤ gone → ∃ t f, exec (.tideFlitSend cape) s = .next t ∧ t.outbox = s.outbox ++ [(cape, f)] ∧ f.kind = .tide ∧
      f.body = leBytes s.tide.toNat 8 ∧ f.dst = (s.cape cape).peer ∧ f.seq = (s.cape cape).sendSeq ∧
      (t.cape cape).replay = (s.cape cape).replay ++ [(f.seq, f, 0)] ∧ (t.cape cape).lastTide = s.tide ∧ t.tide = s.tide)) ∧
  (∀ (s : State) (cape : Nat) (peer : BitVec 9) (delay heard : DWord), 4 ≤ cape ∨ s.ready.getLsbD (36 + cape) = true →
    exec (.capeTraining cape peer delay heard) s = .next s) ∧
  ∀ (s : State) (cape : Nat) (peer : BitVec 9) (delay heard : DWord), cape < 4 → s.ready.getLsbD (36 + cape) = false →
    let may := s.ready.getLsbD 3 = true ∧ s.fwPassed (33 + cape) = true
    (¬may → exec (.capeTraining cape peer delay heard) s = .next s) ∧
    (may → ∃ t, exec (.capeTraining cape peer delay heard) s = .next t ∧
      (∀ k, t.ready.getLsbD k = (s.ready.getLsbD k || k == 36 + cape)) ∧ (t.cape cape).peer = peer ∧
      (t.cape cape).delay = delay ∧ (t.cape cape).recvSeq = 1 ∧
      t.tide.toNat = max s.tide.toNat (heard + delay).toNat ∧ t.mem.bytes = s.mem.bytes ∧
      t.unsent = [] ∧ (∀ f ∈ s.unsent, ∃ c q k, (c, { f with seq := q, ack := k }) ∈ t.outbox) ∧
      ∃ f, (cape, f) ∈ t.outbox ∧ f.kind = .tide ∧ f.seq = 0 ∧ f.dst = peer ∧ f.body = leBytes t.tide.toNat 8)

/-- R132: a barrier-arrival flit in sequence is held in a table of 1,024 where the home has no member, and with a full table
not taken; at a dispatched member it is counted where the access-control table allows launches of its package, else in
ACL_DENY; a completion flit clears its member's barrier where every block of the member has arrived. -/
def Sys2Proof.Claims.PodBarrierFlits : Prop :=
  ∀ (s : State) (cape : Nat) (f : Flit),
    (s.inSeq cape f = false →
      exec (.barrierArrivalFlit cape f) s = .next s ∧ exec (.barrierCompletionFlit cape f) s = .next s) ∧
    (s.inSeq cape f = true →
      let home := flitHome f
      let group := flitGroup f
      let b := flitBar f
      let a := afterAck s cape f
      (s.podMember? home group = none →
        (s.early.length < 1024 → ∃ t, exec (.barrierArrivalFlit cape f) s = .next t ∧ taken s t cape f 0 ∧
          t.early = s.early ++ [f] ∧ t.pods = s.pods) ∧
        (1024 ≤ s.early.length → exec (.barrierArrivalFlit cape f) s = .next s) ∧
        ∃ t, exec (.barrierCompletionFlit cape f) s = .next t ∧ taken s t cape f 0 ∧ t.cores = a.cores) ∧
      (∀ m, s.podMember? home group = some m →
        (m.dispatched ≠ [] → let may := ∃ e ∈ s.acl, e.2.getLsbD 63 = true ∧ e.2.getLsbD 62 = true ∧
              e.2.toNat / 2 ^ 52 % 512 = f.src.toNat ∧ e.2.toNat / 2 ^ 34 % 4096 = m.ctx
          (¬may → ∃ t, exec (.barrierArrivalFlit cape f) s = .next t ∧ taken s t cape f 0 ∧ counted a t m.ctx .aclDeny ∧
            t.pods = s.pods) ∧
          (may → (∀ p ∈ s.pods, ¬(p.home = home ∧ p.group = group ∧ p.b = b)) → 1 < m.recd.podn →
            ∃ t, exec (.barrierArrivalFlit cape f) s = .next t ∧ taken s t cape f 0 ∧
              ⟨home, group, b, 1, false, [(f.src, f.ctx.toNat)]⟩ ∈ t.pods)) ∧
        ∃ t, exec (.barrierCompletionFlit cape f) s = .next t ∧
          taken s t cape f 0 ∧ t.mem = a.mem ∧
          let all := s.netExpect m.node 3 0 ≤ (s.net m.node 3 0 b).count ∧ 0 < (s.net m.node 3 0 b).count
          (¬all → t.net m.node 3 0 b = s.net m.node 3 0 b) ∧ (all → ∀ n ∈ t.nets, n.node = m.node → n.level = 3 → n.isle = 0 → n.b = b →
            n.count = 0 ∧ n.arrived = [])))

/-- The debugger's commands and the flits of the link. -/
def Obligations.DebuggerAndLink : Prop :=
  Claims.CommandsAreRefused ∧ Claims.CommandsAct ∧ Claims.DataFlitsWrite ∧ Claims.AcknowledgementsRetire ∧
    Claims.FlitsAreDropped ∧ Claims.TidesAlign ∧ Claims.PodBarrierFlits

end
end

