-- ==== Sys2Proof/Laws/Basic.lean ====
section
/-! SUPPORT. Laws of the plain data structures: sparse tables, vectors by index, lists changed at an index. -/

namespace Sys2Proof

/-! ### Tables -/

@[simp] theorem Tbl.get?_set_same {α : Type} (t : Tbl α) (k : Nat) (x : α) : Tbl.get? (Tbl.set t k x) k = some x := by
  induction t with
  | nil => simp [Tbl.set, Tbl.get?]
  | cons e r ih =>
    obtain ⟨j, y⟩ := e
    simp only [Tbl.set]
    split
    · simp [Tbl.get?]
    · split
      · simp [Tbl.get?]
      · rename_i h1 h2
        simp only [Tbl.get?]
        rw [if_neg (fun h => h2 h.symm)]
        exact ih

theorem Tbl.get?_set_ne {α : Type} (t : Tbl α) {k j : Nat} (x : α) (h : j ≠ k) :
    Tbl.get? (Tbl.set t k x) j = Tbl.get? t j := by
  induction t with
  | nil => simp [Tbl.set, Tbl.get?, Ne.symm h]
  | cons e r ih =>
    obtain ⟨i, y⟩ := e
    simp only [Tbl.set]
    split
    · simp [Tbl.get?, Ne.symm h]
    · split
      · rename_i h2
        subst h2
        simp [Tbl.get?, Ne.symm h]
      · simp only [Tbl.get?, ih]

theorem Tbl.get?_set {α : Type} (t : Tbl α) (k j : Nat) (x : α) :
    Tbl.get? (Tbl.set t k x) j = if j = k then some x else Tbl.get? t j := by
  split
  · rename_i h; subst h; simp
  · rename_i h; exact Tbl.get?_set_ne t x h

@[simp] theorem Tbl.getD_set_same {α : Type} (t : Tbl α) (k : Nat) (x d : α) : Tbl.getD (Tbl.set t k x) k d = x := by
  simp [Tbl.getD]

theorem Tbl.getD_set {α : Type} (t : Tbl α) (k j : Nat) (x d : α) :
    Tbl.getD (Tbl.set t k x) j d = if j = k then x else Tbl.getD t j d := by
  simp only [Tbl.getD, Tbl.get?_set]
  by_cases h : j = k <;> simp [h]

theorem Tbl.get?_erase_ne {α : Type} (t : Tbl α) {k j : Nat} (h : j ≠ k) :
    Tbl.get? (Tbl.erase t k) j = Tbl.get? t j := by
  induction t with
  | nil => rfl
  | cons e r ih =>
    obtain ⟨i, y⟩ := e
    simp only [Tbl.erase]
    split
    · rename_i h2
      subst h2
      simp [Tbl.get?, Ne.symm h]
    · simp only [Tbl.get?, ih]

theorem Tbl.getD_erase_ne {α : Type} (t : Tbl α) {k j : Nat} (d : α) (h : j ≠ k) :
    Tbl.getD (Tbl.erase t k) j d = Tbl.getD t j d := by
  simp [Tbl.getD, Tbl.get?_erase_ne t h]

namespace Machine

/-! ### Vectors by index -/

@[simp] theorem vat_vec {α : Type} (n : Nat) (f : Nat → α) (d : α) (i : Nat) (h : i < n) : vat (vec n f) d i = f i := by
  simp [vat, vec, Vector.toList, h]

theorem vat_vput {α : Type} {n : Nat} (v : Vector α n) (i j : Nat) (x d : α) (h : j < n) :
    vat (vput v i x) d j = if j = i then x else vat v d j := by
  have hl : v.toList.length = n := by simp
  simp only [vat, vput, Vector.toList, List.getD_eq_getElem?_getD, List.getElem?_set] at *
  by_cases e : i = j
  · subst e; simp [h]
  · simp [e, Ne.symm e]

@[simp] theorem vat_replicate {α : Type} (n : Nat) (x d : α) (i : Nat) (h : i < n) : vat (Vector.replicate n x) d i = x := by
  simp [vat, Vector.toList_replicate, h]

@[simp] theorem lane_vec (f : Nat → Word) (i : Nat) (h : i < 32) : lane (vec 32 f) i = f i := vat_vec 32 f 0 i h

@[simp] theorem stampAt_vec (f : Nat → Stamp) (j : Nat) (h : j < 8) : stampAt (vec 8 f) j = f j := vat_vec 8 f ancient j h

/-! ### Lists changed at an index -/

theorem getElem?_modAt {α : Type} (l : List α) (i j : Nat) (f : α → α) :
    (modAt l i f)[j]? = if j = i then l[j]?.map f else l[j]? := by
  induction l generalizing i j with
  | nil => simp [modAt]
  | cons y r ih =>
    cases i with
    | zero => cases j <;> simp [modAt]
    | succ i => cases j <;> simp [modAt, ih]

theorem modAt_eq_self {α : Type} (l : List α) (i : Nat) (f : α → α) (x : α) (h : l[i]? = some x) (e : f x = x) :
    modAt l i f = l := by
  induction l generalizing i with
  | nil => rfl
  | cons y r ih =>
    cases i with
    | zero => simp_all [modAt]
    | succ i => simp_all [modAt]

theorem modAt_congr {α : Type} (l : List α) (i : Nat) (f g : α → α) (x : α) (h : l[i]? = some x) (e : f x = g x) :
    modAt l i f = modAt l i g := by
  induction l generalizing i with
  | nil => rfl
  | cons y r ih =>
    cases i with
    | zero => simp_all [modAt]
    | succ i => simp_all [modAt]

theorem modAt_modAt {α : Type} (l : List α) (i : Nat) (f g : α → α) : modAt (modAt l i f) i g = modAt l i (g ∘ f) := by
  induction l generalizing i with
  | nil => rfl
  | cons y r ih =>
    cases i with
    | zero => simp [modAt]
    | succ i => simp [modAt, ih]

@[simp] theorem length_modAt {α : Type} (l : List α) (i : Nat) (f : α → α) : (modAt l i f).length = l.length := by
  induction l generalizing i with
  | nil => rfl
  | cons y r ih => cases i <;> simp [modAt, ih]

end Machine

end Sys2Proof
end

