-- ==== Sys2Proof/Laws/State.lean ====
section
/-! SUPPORT. The fields of State under its updates, and what is read of cores, blocks, gangs and threads after one. -/

namespace Sys2Proof.Machine


/-! `setCtx` changes `ctxs` alone. -/

@[simp] theorem State.setCtx_ready (s : State) (x : Nat) (c : Ctx) : (s.setCtx x c).ready = s.ready := rfl
@[simp] theorem State.setCtx_tide (s : State) (x : Nat) (c : Ctx) : (s.setCtx x c).tide = s.tide := rfl
@[simp] theorem State.setCtx_mem (s : State) (x : Nat) (c : Ctx) : (s.setCtx x c).mem = s.mem := rfl
@[simp] theorem State.setCtx_hist (s : State) (x : Nat) (c : Ctx) : (s.setCtx x c).hist = s.hist := rfl
@[simp] theorem State.setCtx_olds (s : State) (x : Nat) (c : Ctx) : (s.setCtx x c).olds = s.olds := rfl
@[simp] theorem State.setCtx_heads (s : State) (x : Nat) (c : Ctx) : (s.setCtx x c).heads = s.heads := rfl
@[simp] theorem State.setCtx_tails (s : State) (x : Nat) (c : Ctx) : (s.setCtx x c).tails = s.tails := rfl
@[simp] theorem State.setCtx_fenced (s : State) (x : Nat) (c : Ctx) : (s.setCtx x c).fenced = s.fenced := rfl
@[simp] theorem State.setCtx_heldPuts (s : State) (x : Nat) (c : Ctx) : (s.setCtx x c).heldPuts = s.heldPuts := rfl
@[simp] theorem State.setCtx_attReport (s : State) (x : Nat) (c : Ctx) : (s.setCtx x c).attReport = s.attReport := rfl
@[simp] theorem State.setCtx_cycles (s : State) (x : Nat) (c : Ctx) : (s.setCtx x c).cycles = s.cycles := rfl
@[simp] theorem State.setCtx_walks (s : State) (x : Nat) (c : Ctx) : (s.setCtx x c).walks = s.walks := rfl
@[simp] theorem State.setCtx_unsent (s : State) (x : Nat) (c : Ctx) : (s.setCtx x c).unsent = s.unsent := rfl
@[simp] theorem State.setCtx_shots (s : State) (x : Nat) (c : Ctx) : (s.setCtx x c).shots = s.shots := rfl
@[simp] theorem State.setCtx_clock (s : State) (x : Nat) (c : Ctx) : (s.setCtx x c).clock = s.clock := rfl
@[simp] theorem State.setCtx_moves (s : State) (x : Nat) (c : Ctx) : (s.setCtx x c).moves = s.moves := rfl
@[simp] theorem State.setCtx_hostMem (s : State) (x : Nat) (c : Ctx) : (s.setCtx x c).hostMem = s.hostMem := rfl
@[simp] theorem State.setCtx_dir (s : State) (x : Nat) (c : Ctx) : (s.setCtx x c).dir = s.dir := rfl
@[simp] theorem State.setCtx_fine (s : State) (x : Nat) (c : Ctx) : (s.setCtx x c).fine = s.fine := rfl
@[simp] theorem State.setCtx_fown (s : State) (x : Nat) (c : Ctx) : (s.setCtx x c).fown = s.fown := rfl
@[simp] theorem State.setCtx_fownset (s : State) (x : Nat) (c : Ctx) : (s.setCtx x c).fownset = s.fownset := rfl
@[simp] theorem State.setCtx_invva (s : State) (x : Nat) (c : Ctx) : (s.setCtx x c).invva = s.invva := rfl
@[simp] theorem State.setCtx_invctl (s : State) (x : Nat) (c : Ctx) : (s.setCtx x c).invctl = s.invctl := rfl
@[simp] theorem State.setCtx_shooting (s : State) (x : Nat) (c : Ctx) : (s.setCtx x c).shooting = s.shooting := rfl
@[simp] theorem State.setCtx_free64 (s : State) (x : Nat) (c : Ctx) : (s.setCtx x c).free64 = s.free64 := rfl
@[simp] theorem State.setCtx_free2m (s : State) (x : Nat) (c : Ctx) : (s.setCtx x c).free2m = s.free2m := rfl
@[simp] theorem State.setCtx_victim (s : State) (x : Nat) (c : Ctx) : (s.setCtx x c).victim = s.victim := rfl
@[simp] theorem State.setCtx_done (s : State) (x : Nat) (c : Ctx) : (s.setCtx x c).done = s.done := rfl
@[simp] theorem State.setCtx_acl (s : State) (x : Nat) (c : Ctx) : (s.setCtx x c).acl = s.acl := rfl
@[simp] theorem State.setCtx_counters (s : State) (x : Nat) (c : Ctx) : (s.setCtx x c).counters = s.counters := rfl
@[simp] theorem State.setCtx_pwr (s : State) (x : Nat) (c : Ctx) : (s.setCtx x c).pwr = s.pwr := rfl
@[simp] theorem State.setCtx_fwOk (s : State) (x : Nat) (c : Ctx) : (s.setCtx x c).fwOk = s.fwOk := rfl
@[simp] theorem State.setCtx_fwDigest (s : State) (x : Nat) (c : Ctx) : (s.setCtx x c).fwDigest = s.fwDigest := rfl
@[simp] theorem State.setCtx_attNonce (s : State) (x : Nat) (c : Ctx) : (s.setCtx x c).attNonce = s.attNonce := rfl
@[simp] theorem State.setCtx_attAddr (s : State) (x : Nat) (c : Ctx) : (s.setCtx x c).attAddr = s.attAddr := rfl
@[simp] theorem State.setCtx_attDone (s : State) (x : Nat) (c : Ctx) : (s.setCtx x c).attDone = s.attDone := rfl
@[simp] theorem State.setCtx_cores (s : State) (x : Nat) (c : Ctx) : (s.setCtx x c).cores = s.cores := rfl
@[simp] theorem State.setCtx_cubes (s : State) (x : Nat) (c : Ctx) : (s.setCtx x c).cubes = s.cubes := rfl
@[simp] theorem State.setCtx_insts (s : State) (x : Nat) (c : Ctx) : (s.setCtx x c).insts = s.insts := rfl
@[simp] theorem State.setCtx_compl (s : State) (x : Nat) (c : Ctx) : (s.setCtx x c).compl = s.compl := rfl
@[simp] theorem State.setCtx_rr (s : State) (x : Nat) (c : Ctx) : (s.setCtx x c).rr = s.rr := rfl
@[simp] theorem State.setCtx_saved (s : State) (x : Nat) (c : Ctx) : (s.setCtx x c).saved = s.saved := rfl
@[simp] theorem State.setCtx_nets (s : State) (x : Nat) (c : Ctx) : (s.setCtx x c).nets = s.nets := rfl
@[simp] theorem State.setCtx_pods (s : State) (x : Nat) (c : Ctx) : (s.setCtx x c).pods = s.pods := rfl
@[simp] theorem State.setCtx_early (s : State) (x : Nat) (c : Ctx) : (s.setCtx x c).early = s.early := rfl
@[simp] theorem State.setCtx_bases (s : State) (x : Nat) (c : Ctx) : (s.setCtx x c).bases = s.bases := rfl
@[simp] theorem State.setCtx_capes (s : State) (x : Nat) (c : Ctx) : (s.setCtx x c).capes = s.capes := rfl
@[simp] theorem State.setCtx_outbox (s : State) (x : Nat) (c : Ctx) : (s.setCtx x c).outbox = s.outbox := rfl
@[simp] theorem State.setCtx_hostRead (s : State) (x : Nat) (c : Ctx) : (s.setCtx x c).hostRead = s.hostRead := rfl
@[simp] theorem State.setCtx_pkg (s : State) (x : Nat) (c : Ctx) : (s.setCtx x c).pkg = s.pkg := rfl
@[simp] theorem State.setCtx_cur (s : State) (x : Nat) (c : Ctx) : (s.setCtx x c).cur = s.cur := rfl
@[simp] theorem State.setCtx_turns (s : State) (x : Nat) (c : Ctx) : (s.setCtx x c).turns = s.turns := rfl
@[simp] theorem State.setCtx_fresh (s : State) (x : Nat) (c : Ctx) : (s.setCtx x c).fresh = s.fresh := rfl

/-! `setCore` changes `cores` alone. -/

@[simp] theorem State.setCore_ready (s : State) (c : Nat) (x : Core) : (s.setCore c x).ready = s.ready := rfl
@[simp] theorem State.setCore_tide (s : State) (c : Nat) (x : Core) : (s.setCore c x).tide = s.tide := rfl
@[simp] theorem State.setCore_mem (s : State) (c : Nat) (x : Core) : (s.setCore c x).mem = s.mem := rfl
@[simp] theorem State.setCore_hist (s : State) (c : Nat) (x : Core) : (s.setCore c x).hist = s.hist := rfl
@[simp] theorem State.setCore_olds (s : State) (c : Nat) (x : Core) : (s.setCore c x).olds = s.olds := rfl
@[simp] theorem State.setCore_heads (s : State) (c : Nat) (x : Core) : (s.setCore c x).heads = s.heads := rfl
@[simp] theorem State.setCore_tails (s : State) (c : Nat) (x : Core) : (s.setCore c x).tails = s.tails := rfl
@[simp] theorem State.setCore_fenced (s : State) (c : Nat) (x : Core) : (s.setCore c x).fenced = s.fenced := rfl
@[simp] theorem State.setCore_heldPuts (s : State) (c : Nat) (x : Core) : (s.setCore c x).heldPuts = s.heldPuts := rfl
@[simp] theorem State.setCore_attReport (s : State) (c : Nat) (x : Core) : (s.setCore c x).attReport = s.attReport := rfl
@[simp] theorem State.setCore_cycles (s : State) (c : Nat) (x : Core) : (s.setCore c x).cycles = s.cycles := rfl
@[simp] theorem State.setCore_walks (s : State) (c : Nat) (x : Core) : (s.setCore c x).walks = s.walks := rfl
@[simp] theorem State.setCore_unsent (s : State) (c : Nat) (x : Core) : (s.setCore c x).unsent = s.unsent := rfl
@[simp] theorem State.setCore_shots (s : State) (c : Nat) (x : Core) : (s.setCore c x).shots = s.shots := rfl
@[simp] theorem State.setCore_clock (s : State) (c : Nat) (x : Core) : (s.setCore c x).clock = s.clock := rfl
@[simp] theorem State.setCore_moves (s : State) (c : Nat) (x : Core) : (s.setCore c x).moves = s.moves := rfl
@[simp] theorem State.setCore_hostMem (s : State) (c : Nat) (x : Core) : (s.setCore c x).hostMem = s.hostMem := rfl
@[simp] theorem State.setCore_dir (s : State) (c : Nat) (x : Core) : (s.setCore c x).dir = s.dir := rfl
@[simp] theorem State.setCore_fine (s : State) (c : Nat) (x : Core) : (s.setCore c x).fine = s.fine := rfl
@[simp] theorem State.setCore_fown (s : State) (c : Nat) (x : Core) : (s.setCore c x).fown = s.fown := rfl
@[simp] theorem State.setCore_fownset (s : State) (c : Nat) (x : Core) : (s.setCore c x).fownset = s.fownset := rfl
@[simp] theorem State.setCore_invva (s : State) (c : Nat) (x : Core) : (s.setCore c x).invva = s.invva := rfl
@[simp] theorem State.setCore_invctl (s : State) (c : Nat) (x : Core) : (s.setCore c x).invctl = s.invctl := rfl
@[simp] theorem State.setCore_shooting (s : State) (c : Nat) (x : Core) : (s.setCore c x).shooting = s.shooting := rfl
@[simp] theorem State.setCore_free64 (s : State) (c : Nat) (x : Core) : (s.setCore c x).free64 = s.free64 := rfl
@[simp] theorem State.setCore_free2m (s : State) (c : Nat) (x : Core) : (s.setCore c x).free2m = s.free2m := rfl
@[simp] theorem State.setCore_victim (s : State) (c : Nat) (x : Core) : (s.setCore c x).victim = s.victim := rfl
@[simp] theorem State.setCore_done (s : State) (c : Nat) (x : Core) : (s.setCore c x).done = s.done := rfl
@[simp] theorem State.setCore_acl (s : State) (c : Nat) (x : Core) : (s.setCore c x).acl = s.acl := rfl
@[simp] theorem State.setCore_counters (s : State) (c : Nat) (x : Core) : (s.setCore c x).counters = s.counters := rfl
@[simp] theorem State.setCore_pwr (s : State) (c : Nat) (x : Core) : (s.setCore c x).pwr = s.pwr := rfl
@[simp] theorem State.setCore_fwOk (s : State) (c : Nat) (x : Core) : (s.setCore c x).fwOk = s.fwOk := rfl
@[simp] theorem State.setCore_fwDigest (s : State) (c : Nat) (x : Core) : (s.setCore c x).fwDigest = s.fwDigest := rfl
@[simp] theorem State.setCore_attNonce (s : State) (c : Nat) (x : Core) : (s.setCore c x).attNonce = s.attNonce := rfl
@[simp] theorem State.setCore_attAddr (s : State) (c : Nat) (x : Core) : (s.setCore c x).attAddr = s.attAddr := rfl
@[simp] theorem State.setCore_attDone (s : State) (c : Nat) (x : Core) : (s.setCore c x).attDone = s.attDone := rfl
@[simp] theorem State.setCore_ctxs (s : State) (c : Nat) (x : Core) : (s.setCore c x).ctxs = s.ctxs := rfl
@[simp] theorem State.setCore_cubes (s : State) (c : Nat) (x : Core) : (s.setCore c x).cubes = s.cubes := rfl
@[simp] theorem State.setCore_insts (s : State) (c : Nat) (x : Core) : (s.setCore c x).insts = s.insts := rfl
@[simp] theorem State.setCore_compl (s : State) (c : Nat) (x : Core) : (s.setCore c x).compl = s.compl := rfl
@[simp] theorem State.setCore_rr (s : State) (c : Nat) (x : Core) : (s.setCore c x).rr = s.rr := rfl
@[simp] theorem State.setCore_saved (s : State) (c : Nat) (x : Core) : (s.setCore c x).saved = s.saved := rfl
@[simp] theorem State.setCore_nets (s : State) (c : Nat) (x : Core) : (s.setCore c x).nets = s.nets := rfl
@[simp] theorem State.setCore_pods (s : State) (c : Nat) (x : Core) : (s.setCore c x).pods = s.pods := rfl
@[simp] theorem State.setCore_early (s : State) (c : Nat) (x : Core) : (s.setCore c x).early = s.early := rfl
@[simp] theorem State.setCore_bases (s : State) (c : Nat) (x : Core) : (s.setCore c x).bases = s.bases := rfl
@[simp] theorem State.setCore_capes (s : State) (c : Nat) (x : Core) : (s.setCore c x).capes = s.capes := rfl
@[simp] theorem State.setCore_outbox (s : State) (c : Nat) (x : Core) : (s.setCore c x).outbox = s.outbox := rfl
@[simp] theorem State.setCore_hostRead (s : State) (c : Nat) (x : Core) : (s.setCore c x).hostRead = s.hostRead := rfl
@[simp] theorem State.setCore_pkg (s : State) (c : Nat) (x : Core) : (s.setCore c x).pkg = s.pkg := rfl
@[simp] theorem State.setCore_cur (s : State) (c : Nat) (x : Core) : (s.setCore c x).cur = s.cur := rfl
@[simp] theorem State.setCore_turns (s : State) (c : Nat) (x : Core) : (s.setCore c x).turns = s.turns := rfl
@[simp] theorem State.setCore_fresh (s : State) (c : Nat) (x : Core) : (s.setCore c x).fresh = s.fresh := rfl

/-! `setCube` changes `cubes` alone. -/

@[simp] theorem State.setCube_ready (s : State) (c : Nat) (x : Cube) : (s.setCube c x).ready = s.ready := rfl
@[simp] theorem State.setCube_tide (s : State) (c : Nat) (x : Cube) : (s.setCube c x).tide = s.tide := rfl
@[simp] theorem State.setCube_mem (s : State) (c : Nat) (x : Cube) : (s.setCube c x).mem = s.mem := rfl
@[simp] theorem State.setCube_hist (s : State) (c : Nat) (x : Cube) : (s.setCube c x).hist = s.hist := rfl
@[simp] theorem State.setCube_olds (s : State) (c : Nat) (x : Cube) : (s.setCube c x).olds = s.olds := rfl
@[simp] theorem State.setCube_heads (s : State) (c : Nat) (x : Cube) : (s.setCube c x).heads = s.heads := rfl
@[simp] theorem State.setCube_tails (s : State) (c : Nat) (x : Cube) : (s.setCube c x).tails = s.tails := rfl
@[simp] theorem State.setCube_fenced (s : State) (c : Nat) (x : Cube) : (s.setCube c x).fenced = s.fenced := rfl
@[simp] theorem State.setCube_heldPuts (s : State) (c : Nat) (x : Cube) : (s.setCube c x).heldPuts = s.heldPuts := rfl
@[simp] theorem State.setCube_attReport (s : State) (c : Nat) (x : Cube) : (s.setCube c x).attReport = s.attReport := rfl
@[simp] theorem State.setCube_cycles (s : State) (c : Nat) (x : Cube) : (s.setCube c x).cycles = s.cycles := rfl
@[simp] theorem State.setCube_walks (s : State) (c : Nat) (x : Cube) : (s.setCube c x).walks = s.walks := rfl
@[simp] theorem State.setCube_unsent (s : State) (c : Nat) (x : Cube) : (s.setCube c x).unsent = s.unsent := rfl
@[simp] theorem State.setCube_shots (s : State) (c : Nat) (x : Cube) : (s.setCube c x).shots = s.shots := rfl
@[simp] theorem State.setCube_clock (s : State) (c : Nat) (x : Cube) : (s.setCube c x).clock = s.clock := rfl
@[simp] theorem State.setCube_moves (s : State) (c : Nat) (x : Cube) : (s.setCube c x).moves = s.moves := rfl
@[simp] theorem State.setCube_hostMem (s : State) (c : Nat) (x : Cube) : (s.setCube c x).hostMem = s.hostMem := rfl
@[simp] theorem State.setCube_dir (s : State) (c : Nat) (x : Cube) : (s.setCube c x).dir = s.dir := rfl
@[simp] theorem State.setCube_fine (s : State) (c : Nat) (x : Cube) : (s.setCube c x).fine = s.fine := rfl
@[simp] theorem State.setCube_fown (s : State) (c : Nat) (x : Cube) : (s.setCube c x).fown = s.fown := rfl
@[simp] theorem State.setCube_fownset (s : State) (c : Nat) (x : Cube) : (s.setCube c x).fownset = s.fownset := rfl
@[simp] theorem State.setCube_invva (s : State) (c : Nat) (x : Cube) : (s.setCube c x).invva = s.invva := rfl
@[simp] theorem State.setCube_invctl (s : State) (c : Nat) (x : Cube) : (s.setCube c x).invctl = s.invctl := rfl
@[simp] theorem State.setCube_shooting (s : State) (c : Nat) (x : Cube) : (s.setCube c x).shooting = s.shooting := rfl
@[simp] theorem State.setCube_free64 (s : State) (c : Nat) (x : Cube) : (s.setCube c x).free64 = s.free64 := rfl
@[simp] theorem State.setCube_free2m (s : State) (c : Nat) (x : Cube) : (s.setCube c x).free2m = s.free2m := rfl
@[simp] theorem State.setCube_victim (s : State) (c : Nat) (x : Cube) : (s.setCube c x).victim = s.victim := rfl
@[simp] theorem State.setCube_done (s : State) (c : Nat) (x : Cube) : (s.setCube c x).done = s.done := rfl
@[simp] theorem State.setCube_acl (s : State) (c : Nat) (x : Cube) : (s.setCube c x).acl = s.acl := rfl
@[simp] theorem State.setCube_counters (s : State) (c : Nat) (x : Cube) : (s.setCube c x).counters = s.counters := rfl
@[simp] theorem State.setCube_pwr (s : State) (c : Nat) (x : Cube) : (s.setCube c x).pwr = s.pwr := rfl
@[simp] theorem State.setCube_fwOk (s : State) (c : Nat) (x : Cube) : (s.setCube c x).fwOk = s.fwOk := rfl
@[simp] theorem State.setCube_fwDigest (s : State) (c : Nat) (x : Cube) : (s.setCube c x).fwDigest = s.fwDigest := rfl
@[simp] theorem State.setCube_attNonce (s : State) (c : Nat) (x : Cube) : (s.setCube c x).attNonce = s.attNonce := rfl
@[simp] theorem State.setCube_attAddr (s : State) (c : Nat) (x : Cube) : (s.setCube c x).attAddr = s.attAddr := rfl
@[simp] theorem State.setCube_attDone (s : State) (c : Nat) (x : Cube) : (s.setCube c x).attDone = s.attDone := rfl
@[simp] theorem State.setCube_ctxs (s : State) (c : Nat) (x : Cube) : (s.setCube c x).ctxs = s.ctxs := rfl
@[simp] theorem State.setCube_cores (s : State) (c : Nat) (x : Cube) : (s.setCube c x).cores = s.cores := rfl
@[simp] theorem State.setCube_insts (s : State) (c : Nat) (x : Cube) : (s.setCube c x).insts = s.insts := rfl
@[simp] theorem State.setCube_compl (s : State) (c : Nat) (x : Cube) : (s.setCube c x).compl = s.compl := rfl
@[simp] theorem State.setCube_rr (s : State) (c : Nat) (x : Cube) : (s.setCube c x).rr = s.rr := rfl
@[simp] theorem State.setCube_saved (s : State) (c : Nat) (x : Cube) : (s.setCube c x).saved = s.saved := rfl
@[simp] theorem State.setCube_nets (s : State) (c : Nat) (x : Cube) : (s.setCube c x).nets = s.nets := rfl
@[simp] theorem State.setCube_pods (s : State) (c : Nat) (x : Cube) : (s.setCube c x).pods = s.pods := rfl
@[simp] theorem State.setCube_early (s : State) (c : Nat) (x : Cube) : (s.setCube c x).early = s.early := rfl
@[simp] theorem State.setCube_bases (s : State) (c : Nat) (x : Cube) : (s.setCube c x).bases = s.bases := rfl
@[simp] theorem State.setCube_capes (s : State) (c : Nat) (x : Cube) : (s.setCube c x).capes = s.capes := rfl
@[simp] theorem State.setCube_outbox (s : State) (c : Nat) (x : Cube) : (s.setCube c x).outbox = s.outbox := rfl
@[simp] theorem State.setCube_hostRead (s : State) (c : Nat) (x : Cube) : (s.setCube c x).hostRead = s.hostRead := rfl
@[simp] theorem State.setCube_pkg (s : State) (c : Nat) (x : Cube) : (s.setCube c x).pkg = s.pkg := rfl
@[simp] theorem State.setCube_cur (s : State) (c : Nat) (x : Cube) : (s.setCube c x).cur = s.cur := rfl
@[simp] theorem State.setCube_turns (s : State) (c : Nat) (x : Cube) : (s.setCube c x).turns = s.turns := rfl
@[simp] theorem State.setCube_fresh (s : State) (c : Nat) (x : Cube) : (s.setCube c x).fresh = s.fresh := rfl

/-! `setBase` changes `bases` alone. -/

@[simp] theorem State.setBase_ready (s : State) (d : Nat) (x : BaseDie) : (s.setBase d x).ready = s.ready := rfl
@[simp] theorem State.setBase_tide (s : State) (d : Nat) (x : BaseDie) : (s.setBase d x).tide = s.tide := rfl
@[simp] theorem State.setBase_mem (s : State) (d : Nat) (x : BaseDie) : (s.setBase d x).mem = s.mem := rfl
@[simp] theorem State.setBase_hist (s : State) (d : Nat) (x : BaseDie) : (s.setBase d x).hist = s.hist := rfl
@[simp] theorem State.setBase_olds (s : State) (d : Nat) (x : BaseDie) : (s.setBase d x).olds = s.olds := rfl
@[simp] theorem State.setBase_heads (s : State) (d : Nat) (x : BaseDie) : (s.setBase d x).heads = s.heads := rfl
@[simp] theorem State.setBase_tails (s : State) (d : Nat) (x : BaseDie) : (s.setBase d x).tails = s.tails := rfl
@[simp] theorem State.setBase_fenced (s : State) (d : Nat) (x : BaseDie) : (s.setBase d x).fenced = s.fenced := rfl
@[simp] theorem State.setBase_heldPuts (s : State) (d : Nat) (x : BaseDie) : (s.setBase d x).heldPuts = s.heldPuts := rfl
@[simp] theorem State.setBase_attReport (s : State) (d : Nat) (x : BaseDie) : (s.setBase d x).attReport = s.attReport := rfl
@[simp] theorem State.setBase_cycles (s : State) (d : Nat) (x : BaseDie) : (s.setBase d x).cycles = s.cycles := rfl
@[simp] theorem State.setBase_walks (s : State) (d : Nat) (x : BaseDie) : (s.setBase d x).walks = s.walks := rfl
@[simp] theorem State.setBase_unsent (s : State) (d : Nat) (x : BaseDie) : (s.setBase d x).unsent = s.unsent := rfl
@[simp] theorem State.setBase_shots (s : State) (d : Nat) (x : BaseDie) : (s.setBase d x).shots = s.shots := rfl
@[simp] theorem State.setBase_clock (s : State) (d : Nat) (x : BaseDie) : (s.setBase d x).clock = s.clock := rfl
@[simp] theorem State.setBase_moves (s : State) (d : Nat) (x : BaseDie) : (s.setBase d x).moves = s.moves := rfl
@[simp] theorem State.setBase_hostMem (s : State) (d : Nat) (x : BaseDie) : (s.setBase d x).hostMem = s.hostMem := rfl
@[simp] theorem State.setBase_dir (s : State) (d : Nat) (x : BaseDie) : (s.setBase d x).dir = s.dir := rfl
@[simp] theorem State.setBase_fine (s : State) (d : Nat) (x : BaseDie) : (s.setBase d x).fine = s.fine := rfl
@[simp] theorem State.setBase_fown (s : State) (d : Nat) (x : BaseDie) : (s.setBase d x).fown = s.fown := rfl
@[simp] theorem State.setBase_fownset (s : State) (d : Nat) (x : BaseDie) : (s.setBase d x).fownset = s.fownset := rfl
@[simp] theorem State.setBase_invva (s : State) (d : Nat) (x : BaseDie) : (s.setBase d x).invva = s.invva := rfl
@[simp] theorem State.setBase_invctl (s : State) (d : Nat) (x : BaseDie) : (s.setBase d x).invctl = s.invctl := rfl
@[simp] theorem State.setBase_shooting (s : State) (d : Nat) (x : BaseDie) : (s.setBase d x).shooting = s.shooting := rfl
@[simp] theorem State.setBase_free64 (s : State) (d : Nat) (x : BaseDie) : (s.setBase d x).free64 = s.free64 := rfl
@[simp] theorem State.setBase_free2m (s : State) (d : Nat) (x : BaseDie) : (s.setBase d x).free2m = s.free2m := rfl
@[simp] theorem State.setBase_victim (s : State) (d : Nat) (x : BaseDie) : (s.setBase d x).victim = s.victim := rfl
@[simp] theorem State.setBase_done (s : State) (d : Nat) (x : BaseDie) : (s.setBase d x).done = s.done := rfl
@[simp] theorem State.setBase_acl (s : State) (d : Nat) (x : BaseDie) : (s.setBase d x).acl = s.acl := rfl
@[simp] theorem State.setBase_counters (s : State) (d : Nat) (x : BaseDie) : (s.setBase d x).counters = s.counters := rfl
@[simp] theorem State.setBase_pwr (s : State) (d : Nat) (x : BaseDie) : (s.setBase d x).pwr = s.pwr := rfl
@[simp] theorem State.setBase_fwOk (s : State) (d : Nat) (x : BaseDie) : (s.setBase d x).fwOk = s.fwOk := rfl
@[simp] theorem State.setBase_fwDigest (s : State) (d : Nat) (x : BaseDie) : (s.setBase d x).fwDigest = s.fwDigest := rfl
@[simp] theorem State.setBase_attNonce (s : State) (d : Nat) (x : BaseDie) : (s.setBase d x).attNonce = s.attNonce := rfl
@[simp] theorem State.setBase_attAddr (s : State) (d : Nat) (x : BaseDie) : (s.setBase d x).attAddr = s.attAddr := rfl
@[simp] theorem State.setBase_attDone (s : State) (d : Nat) (x : BaseDie) : (s.setBase d x).attDone = s.attDone := rfl
@[simp] theorem State.setBase_ctxs (s : State) (d : Nat) (x : BaseDie) : (s.setBase d x).ctxs = s.ctxs := rfl
@[simp] theorem State.setBase_cores (s : State) (d : Nat) (x : BaseDie) : (s.setBase d x).cores = s.cores := rfl
@[simp] theorem State.setBase_cubes (s : State) (d : Nat) (x : BaseDie) : (s.setBase d x).cubes = s.cubes := rfl
@[simp] theorem State.setBase_insts (s : State) (d : Nat) (x : BaseDie) : (s.setBase d x).insts = s.insts := rfl
@[simp] theorem State.setBase_compl (s : State) (d : Nat) (x : BaseDie) : (s.setBase d x).compl = s.compl := rfl
@[simp] theorem State.setBase_rr (s : State) (d : Nat) (x : BaseDie) : (s.setBase d x).rr = s.rr := rfl
@[simp] theorem State.setBase_saved (s : State) (d : Nat) (x : BaseDie) : (s.setBase d x).saved = s.saved := rfl
@[simp] theorem State.setBase_nets (s : State) (d : Nat) (x : BaseDie) : (s.setBase d x).nets = s.nets := rfl
@[simp] theorem State.setBase_pods (s : State) (d : Nat) (x : BaseDie) : (s.setBase d x).pods = s.pods := rfl
@[simp] theorem State.setBase_early (s : State) (d : Nat) (x : BaseDie) : (s.setBase d x).early = s.early := rfl
@[simp] theorem State.setBase_capes (s : State) (d : Nat) (x : BaseDie) : (s.setBase d x).capes = s.capes := rfl
@[simp] theorem State.setBase_outbox (s : State) (d : Nat) (x : BaseDie) : (s.setBase d x).outbox = s.outbox := rfl
@[simp] theorem State.setBase_hostRead (s : State) (d : Nat) (x : BaseDie) : (s.setBase d x).hostRead = s.hostRead := rfl
@[simp] theorem State.setBase_pkg (s : State) (d : Nat) (x : BaseDie) : (s.setBase d x).pkg = s.pkg := rfl
@[simp] theorem State.setBase_cur (s : State) (d : Nat) (x : BaseDie) : (s.setBase d x).cur = s.cur := rfl
@[simp] theorem State.setBase_turns (s : State) (d : Nat) (x : BaseDie) : (s.setBase d x).turns = s.turns := rfl
@[simp] theorem State.setBase_fresh (s : State) (d : Nat) (x : BaseDie) : (s.setBase d x).fresh = s.fresh := rfl

/-! `setCape` changes `capes` alone. -/

@[simp] theorem State.setCape_ready (s : State) (c : Nat) (x : Cape) : (s.setCape c x).ready = s.ready := rfl
@[simp] theorem State.setCape_tide (s : State) (c : Nat) (x : Cape) : (s.setCape c x).tide = s.tide := rfl
@[simp] theorem State.setCape_mem (s : State) (c : Nat) (x : Cape) : (s.setCape c x).mem = s.mem := rfl
@[simp] theorem State.setCape_hist (s : State) (c : Nat) (x : Cape) : (s.setCape c x).hist = s.hist := rfl
@[simp] theorem State.setCape_olds (s : State) (c : Nat) (x : Cape) : (s.setCape c x).olds = s.olds := rfl
@[simp] theorem State.setCape_heads (s : State) (c : Nat) (x : Cape) : (s.setCape c x).heads = s.heads := rfl
@[simp] theorem State.setCape_tails (s : State) (c : Nat) (x : Cape) : (s.setCape c x).tails = s.tails := rfl
@[simp] theorem State.setCape_fenced (s : State) (c : Nat) (x : Cape) : (s.setCape c x).fenced = s.fenced := rfl
@[simp] theorem State.setCape_heldPuts (s : State) (c : Nat) (x : Cape) : (s.setCape c x).heldPuts = s.heldPuts := rfl
@[simp] theorem State.setCape_attReport (s : State) (c : Nat) (x : Cape) : (s.setCape c x).attReport = s.attReport := rfl
@[simp] theorem State.setCape_cycles (s : State) (c : Nat) (x : Cape) : (s.setCape c x).cycles = s.cycles := rfl
@[simp] theorem State.setCape_walks (s : State) (c : Nat) (x : Cape) : (s.setCape c x).walks = s.walks := rfl
@[simp] theorem State.setCape_unsent (s : State) (c : Nat) (x : Cape) : (s.setCape c x).unsent = s.unsent := rfl
@[simp] theorem State.setCape_shots (s : State) (c : Nat) (x : Cape) : (s.setCape c x).shots = s.shots := rfl
@[simp] theorem State.setCape_clock (s : State) (c : Nat) (x : Cape) : (s.setCape c x).clock = s.clock := rfl
@[simp] theorem State.setCape_moves (s : State) (c : Nat) (x : Cape) : (s.setCape c x).moves = s.moves := rfl
@[simp] theorem State.setCape_hostMem (s : State) (c : Nat) (x : Cape) : (s.setCape c x).hostMem = s.hostMem := rfl
@[simp] theorem State.setCape_dir (s : State) (c : Nat) (x : Cape) : (s.setCape c x).dir = s.dir := rfl
@[simp] theorem State.setCape_fine (s : State) (c : Nat) (x : Cape) : (s.setCape c x).fine = s.fine := rfl
@[simp] theorem State.setCape_fown (s : State) (c : Nat) (x : Cape) : (s.setCape c x).fown = s.fown := rfl
@[simp] theorem State.setCape_fownset (s : State) (c : Nat) (x : Cape) : (s.setCape c x).fownset = s.fownset := rfl
@[simp] theorem State.setCape_invva (s : State) (c : Nat) (x : Cape) : (s.setCape c x).invva = s.invva := rfl
@[simp] theorem State.setCape_invctl (s : State) (c : Nat) (x : Cape) : (s.setCape c x).invctl = s.invctl := rfl
@[simp] theorem State.setCape_shooting (s : State) (c : Nat) (x : Cape) : (s.setCape c x).shooting = s.shooting := rfl
@[simp] theorem State.setCape_free64 (s : State) (c : Nat) (x : Cape) : (s.setCape c x).free64 = s.free64 := rfl
@[simp] theorem State.setCape_free2m (s : State) (c : Nat) (x : Cape) : (s.setCape c x).free2m = s.free2m := rfl
@[simp] theorem State.setCape_victim (s : State) (c : Nat) (x : Cape) : (s.setCape c x).victim = s.victim := rfl
@[simp] theorem State.setCape_done (s : State) (c : Nat) (x : Cape) : (s.setCape c x).done = s.done := rfl
@[simp] theorem State.setCape_acl (s : State) (c : Nat) (x : Cape) : (s.setCape c x).acl = s.acl := rfl
@[simp] theorem State.setCape_counters (s : State) (c : Nat) (x : Cape) : (s.setCape c x).counters = s.counters := rfl
@[simp] theorem State.setCape_pwr (s : State) (c : Nat) (x : Cape) : (s.setCape c x).pwr = s.pwr := rfl
@[simp] theorem State.setCape_fwOk (s : State) (c : Nat) (x : Cape) : (s.setCape c x).fwOk = s.fwOk := rfl
@[simp] theorem State.setCape_fwDigest (s : State) (c : Nat) (x : Cape) : (s.setCape c x).fwDigest = s.fwDigest := rfl
@[simp] theorem State.setCape_attNonce (s : State) (c : Nat) (x : Cape) : (s.setCape c x).attNonce = s.attNonce := rfl
@[simp] theorem State.setCape_attAddr (s : State) (c : Nat) (x : Cape) : (s.setCape c x).attAddr = s.attAddr := rfl
@[simp] theorem State.setCape_attDone (s : State) (c : Nat) (x : Cape) : (s.setCape c x).attDone = s.attDone := rfl
@[simp] theorem State.setCape_ctxs (s : State) (c : Nat) (x : Cape) : (s.setCape c x).ctxs = s.ctxs := rfl
@[simp] theorem State.setCape_cores (s : State) (c : Nat) (x : Cape) : (s.setCape c x).cores = s.cores := rfl
@[simp] theorem State.setCape_cubes (s : State) (c : Nat) (x : Cape) : (s.setCape c x).cubes = s.cubes := rfl
@[simp] theorem State.setCape_insts (s : State) (c : Nat) (x : Cape) : (s.setCape c x).insts = s.insts := rfl
@[simp] theorem State.setCape_compl (s : State) (c : Nat) (x : Cape) : (s.setCape c x).compl = s.compl := rfl
@[simp] theorem State.setCape_rr (s : State) (c : Nat) (x : Cape) : (s.setCape c x).rr = s.rr := rfl
@[simp] theorem State.setCape_saved (s : State) (c : Nat) (x : Cape) : (s.setCape c x).saved = s.saved := rfl
@[simp] theorem State.setCape_nets (s : State) (c : Nat) (x : Cape) : (s.setCape c x).nets = s.nets := rfl
@[simp] theorem State.setCape_pods (s : State) (c : Nat) (x : Cape) : (s.setCape c x).pods = s.pods := rfl
@[simp] theorem State.setCape_early (s : State) (c : Nat) (x : Cape) : (s.setCape c x).early = s.early := rfl
@[simp] theorem State.setCape_bases (s : State) (c : Nat) (x : Cape) : (s.setCape c x).bases = s.bases := rfl
@[simp] theorem State.setCape_outbox (s : State) (c : Nat) (x : Cape) : (s.setCape c x).outbox = s.outbox := rfl
@[simp] theorem State.setCape_hostRead (s : State) (c : Nat) (x : Cape) : (s.setCape c x).hostRead = s.hostRead := rfl
@[simp] theorem State.setCape_pkg (s : State) (c : Nat) (x : Cape) : (s.setCape c x).pkg = s.pkg := rfl
@[simp] theorem State.setCape_cur (s : State) (c : Nat) (x : Cape) : (s.setCape c x).cur = s.cur := rfl
@[simp] theorem State.setCape_turns (s : State) (c : Nat) (x : Cape) : (s.setCape c x).turns = s.turns := rfl
@[simp] theorem State.setCape_fresh (s : State) (c : Nat) (x : Cape) : (s.setCape c x).fresh = s.fresh := rfl

/-! `setRegion` changes `dir` alone. -/

@[simp] theorem State.setRegion_ready (s : State) (r : Nat) (x : Region) : (s.setRegion r x).ready = s.ready := rfl
@[simp] theorem State.setRegion_tide (s : State) (r : Nat) (x : Region) : (s.setRegion r x).tide = s.tide := rfl
@[simp] theorem State.setRegion_mem (s : State) (r : Nat) (x : Region) : (s.setRegion r x).mem = s.mem := rfl
@[simp] theorem State.setRegion_hist (s : State) (r : Nat) (x : Region) : (s.setRegion r x).hist = s.hist := rfl
@[simp] theorem State.setRegion_olds (s : State) (r : Nat) (x : Region) : (s.setRegion r x).olds = s.olds := rfl
@[simp] theorem State.setRegion_heads (s : State) (r : Nat) (x : Region) : (s.setRegion r x).heads = s.heads := rfl
@[simp] theorem State.setRegion_tails (s : State) (r : Nat) (x : Region) : (s.setRegion r x).tails = s.tails := rfl
@[simp] theorem State.setRegion_fenced (s : State) (r : Nat) (x : Region) : (s.setRegion r x).fenced = s.fenced := rfl
@[simp] theorem State.setRegion_heldPuts (s : State) (r : Nat) (x : Region) : (s.setRegion r x).heldPuts = s.heldPuts := rfl
@[simp] theorem State.setRegion_attReport (s : State) (r : Nat) (x : Region) : (s.setRegion r x).attReport = s.attReport := rfl
@[simp] theorem State.setRegion_cycles (s : State) (r : Nat) (x : Region) : (s.setRegion r x).cycles = s.cycles := rfl
@[simp] theorem State.setRegion_walks (s : State) (r : Nat) (x : Region) : (s.setRegion r x).walks = s.walks := rfl
@[simp] theorem State.setRegion_unsent (s : State) (r : Nat) (x : Region) : (s.setRegion r x).unsent = s.unsent := rfl
@[simp] theorem State.setRegion_shots (s : State) (r : Nat) (x : Region) : (s.setRegion r x).shots = s.shots := rfl
@[simp] theorem State.setRegion_clock (s : State) (r : Nat) (x : Region) : (s.setRegion r x).clock = s.clock := rfl
@[simp] theorem State.setRegion_moves (s : State) (r : Nat) (x : Region) : (s.setRegion r x).moves = s.moves := rfl
@[simp] theorem State.setRegion_hostMem (s : State) (r : Nat) (x : Region) : (s.setRegion r x).hostMem = s.hostMem := rfl
@[simp] theorem State.setRegion_fine (s : State) (r : Nat) (x : Region) : (s.setRegion r x).fine = s.fine := rfl
@[simp] theorem State.setRegion_fown (s : State) (r : Nat) (x : Region) : (s.setRegion r x).fown = s.fown := rfl
@[simp] theorem State.setRegion_fownset (s : State) (r : Nat) (x : Region) : (s.setRegion r x).fownset = s.fownset := rfl
@[simp] theorem State.setRegion_invva (s : State) (r : Nat) (x : Region) : (s.setRegion r x).invva = s.invva := rfl
@[simp] theorem State.setRegion_invctl (s : State) (r : Nat) (x : Region) : (s.setRegion r x).invctl = s.invctl := rfl
@[simp] theorem State.setRegion_shooting (s : State) (r : Nat) (x : Region) : (s.setRegion r x).shooting = s.shooting := rfl
@[simp] theorem State.setRegion_free64 (s : State) (r : Nat) (x : Region) : (s.setRegion r x).free64 = s.free64 := rfl
@[simp] theorem State.setRegion_free2m (s : State) (r : Nat) (x : Region) : (s.setRegion r x).free2m = s.free2m := rfl
@[simp] theorem State.setRegion_victim (s : State) (r : Nat) (x : Region) : (s.setRegion r x).victim = s.victim := rfl
@[simp] theorem State.setRegion_done (s : State) (r : Nat) (x : Region) : (s.setRegion r x).done = s.done := rfl
@[simp] theorem State.setRegion_acl (s : State) (r : Nat) (x : Region) : (s.setRegion r x).acl = s.acl := rfl
@[simp] theorem State.setRegion_counters (s : State) (r : Nat) (x : Region) : (s.setRegion r x).counters = s.counters := rfl
@[simp] theorem State.setRegion_pwr (s : State) (r : Nat) (x : Region) : (s.setRegion r x).pwr = s.pwr := rfl
@[simp] theorem State.setRegion_fwOk (s : State) (r : Nat) (x : Region) : (s.setRegion r x).fwOk = s.fwOk := rfl
@[simp] theorem State.setRegion_fwDigest (s : State) (r : Nat) (x : Region) : (s.setRegion r x).fwDigest = s.fwDigest := rfl
@[simp] theorem State.setRegion_attNonce (s : State) (r : Nat) (x : Region) : (s.setRegion r x).attNonce = s.attNonce := rfl
@[simp] theorem State.setRegion_attAddr (s : State) (r : Nat) (x : Region) : (s.setRegion r x).attAddr = s.attAddr := rfl
@[simp] theorem State.setRegion_attDone (s : State) (r : Nat) (x : Region) : (s.setRegion r x).attDone = s.attDone := rfl
@[simp] theorem State.setRegion_ctxs (s : State) (r : Nat) (x : Region) : (s.setRegion r x).ctxs = s.ctxs := rfl
@[simp] theorem State.setRegion_cores (s : State) (r : Nat) (x : Region) : (s.setRegion r x).cores = s.cores := rfl
@[simp] theorem State.setRegion_cubes (s : State) (r : Nat) (x : Region) : (s.setRegion r x).cubes = s.cubes := rfl
@[simp] theorem State.setRegion_insts (s : State) (r : Nat) (x : Region) : (s.setRegion r x).insts = s.insts := rfl
@[simp] theorem State.setRegion_compl (s : State) (r : Nat) (x : Region) : (s.setRegion r x).compl = s.compl := rfl
@[simp] theorem State.setRegion_rr (s : State) (r : Nat) (x : Region) : (s.setRegion r x).rr = s.rr := rfl
@[simp] theorem State.setRegion_saved (s : State) (r : Nat) (x : Region) : (s.setRegion r x).saved = s.saved := rfl
@[simp] theorem State.setRegion_nets (s : State) (r : Nat) (x : Region) : (s.setRegion r x).nets = s.nets := rfl
@[simp] theorem State.setRegion_pods (s : State) (r : Nat) (x : Region) : (s.setRegion r x).pods = s.pods := rfl
@[simp] theorem State.setRegion_early (s : State) (r : Nat) (x : Region) : (s.setRegion r x).early = s.early := rfl
@[simp] theorem State.setRegion_bases (s : State) (r : Nat) (x : Region) : (s.setRegion r x).bases = s.bases := rfl
@[simp] theorem State.setRegion_capes (s : State) (r : Nat) (x : Region) : (s.setRegion r x).capes = s.capes := rfl
@[simp] theorem State.setRegion_outbox (s : State) (r : Nat) (x : Region) : (s.setRegion r x).outbox = s.outbox := rfl
@[simp] theorem State.setRegion_hostRead (s : State) (r : Nat) (x : Region) : (s.setRegion r x).hostRead = s.hostRead := rfl
@[simp] theorem State.setRegion_pkg (s : State) (r : Nat) (x : Region) : (s.setRegion r x).pkg = s.pkg := rfl
@[simp] theorem State.setRegion_cur (s : State) (r : Nat) (x : Region) : (s.setRegion r x).cur = s.cur := rfl
@[simp] theorem State.setRegion_turns (s : State) (r : Nat) (x : Region) : (s.setRegion r x).turns = s.turns := rfl
@[simp] theorem State.setRegion_fresh (s : State) (r : Nat) (x : Region) : (s.setRegion r x).fresh = s.fresh := rfl

/-! `count` changes `counters` alone. -/

@[simp] theorem State.count_ready (s : State) (off n : Nat) : (s.count off n).ready = s.ready := rfl
@[simp] theorem State.count_tide (s : State) (off n : Nat) : (s.count off n).tide = s.tide := rfl
@[simp] theorem State.count_mem (s : State) (off n : Nat) : (s.count off n).mem = s.mem := rfl
@[simp] theorem State.count_hist (s : State) (off n : Nat) : (s.count off n).hist = s.hist := rfl
@[simp] theorem State.count_olds (s : State) (off n : Nat) : (s.count off n).olds = s.olds := rfl
@[simp] theorem State.count_heads (s : State) (off n : Nat) : (s.count off n).heads = s.heads := rfl
@[simp] theorem State.count_tails (s : State) (off n : Nat) : (s.count off n).tails = s.tails := rfl
@[simp] theorem State.count_fenced (s : State) (off n : Nat) : (s.count off n).fenced = s.fenced := rfl
@[simp] theorem State.count_heldPuts (s : State) (off n : Nat) : (s.count off n).heldPuts = s.heldPuts := rfl
@[simp] theorem State.count_attReport (s : State) (off n : Nat) : (s.count off n).attReport = s.attReport := rfl
@[simp] theorem State.count_cycles (s : State) (off n : Nat) : (s.count off n).cycles = s.cycles := rfl
@[simp] theorem State.count_walks (s : State) (off n : Nat) : (s.count off n).walks = s.walks := rfl
@[simp] theorem State.count_unsent (s : State) (off n : Nat) : (s.count off n).unsent = s.unsent := rfl
@[simp] theorem State.count_shots (s : State) (off n : Nat) : (s.count off n).shots = s.shots := rfl
@[simp] theorem State.count_clock (s : State) (off n : Nat) : (s.count off n).clock = s.clock := rfl
@[simp] theorem State.count_moves (s : State) (off n : Nat) : (s.count off n).moves = s.moves := rfl
@[simp] theorem State.count_hostMem (s : State) (off n : Nat) : (s.count off n).hostMem = s.hostMem := rfl
@[simp] theorem State.count_dir (s : State) (off n : Nat) : (s.count off n).dir = s.dir := rfl
@[simp] theorem State.count_fine (s : State) (off n : Nat) : (s.count off n).fine = s.fine := rfl
@[simp] theorem State.count_fown (s : State) (off n : Nat) : (s.count off n).fown = s.fown := rfl
@[simp] theorem State.count_fownset (s : State) (off n : Nat) : (s.count off n).fownset = s.fownset := rfl
@[simp] theorem State.count_invva (s : State) (off n : Nat) : (s.count off n).invva = s.invva := rfl
@[simp] theorem State.count_invctl (s : State) (off n : Nat) : (s.count off n).invctl = s.invctl := rfl
@[simp] theorem State.count_shooting (s : State) (off n : Nat) : (s.count off n).shooting = s.shooting := rfl
@[simp] theorem State.count_free64 (s : State) (off n : Nat) : (s.count off n).free64 = s.free64 := rfl
@[simp] theorem State.count_free2m (s : State) (off n : Nat) : (s.count off n).free2m = s.free2m := rfl
@[simp] theorem State.count_victim (s : State) (off n : Nat) : (s.count off n).victim = s.victim := rfl
@[simp] theorem State.count_done (s : State) (off n : Nat) : (s.count off n).done = s.done := rfl
@[simp] theorem State.count_acl (s : State) (off n : Nat) : (s.count off n).acl = s.acl := rfl
@[simp] theorem State.count_pwr (s : State) (off n : Nat) : (s.count off n).pwr = s.pwr := rfl
@[simp] theorem State.count_fwOk (s : State) (off n : Nat) : (s.count off n).fwOk = s.fwOk := rfl
@[simp] theorem State.count_fwDigest (s : State) (off n : Nat) : (s.count off n).fwDigest = s.fwDigest := rfl
@[simp] theorem State.count_attNonce (s : State) (off n : Nat) : (s.count off n).attNonce = s.attNonce := rfl
@[simp] theorem State.count_attAddr (s : State) (off n : Nat) : (s.count off n).attAddr = s.attAddr := rfl
@[simp] theorem State.count_attDone (s : State) (off n : Nat) : (s.count off n).attDone = s.attDone := rfl
@[simp] theorem State.count_ctxs (s : State) (off n : Nat) : (s.count off n).ctxs = s.ctxs := rfl
@[simp] theorem State.count_cores (s : State) (off n : Nat) : (s.count off n).cores = s.cores := rfl
@[simp] theorem State.count_cubes (s : State) (off n : Nat) : (s.count off n).cubes = s.cubes := rfl
@[simp] theorem State.count_insts (s : State) (off n : Nat) : (s.count off n).insts = s.insts := rfl
@[simp] theorem State.count_compl (s : State) (off n : Nat) : (s.count off n).compl = s.compl := rfl
@[simp] theorem State.count_rr (s : State) (off n : Nat) : (s.count off n).rr = s.rr := rfl
@[simp] theorem State.count_saved (s : State) (off n : Nat) : (s.count off n).saved = s.saved := rfl
@[simp] theorem State.count_nets (s : State) (off n : Nat) : (s.count off n).nets = s.nets := rfl
@[simp] theorem State.count_pods (s : State) (off n : Nat) : (s.count off n).pods = s.pods := rfl
@[simp] theorem State.count_early (s : State) (off n : Nat) : (s.count off n).early = s.early := rfl
@[simp] theorem State.count_bases (s : State) (off n : Nat) : (s.count off n).bases = s.bases := rfl
@[simp] theorem State.count_capes (s : State) (off n : Nat) : (s.count off n).capes = s.capes := rfl
@[simp] theorem State.count_outbox (s : State) (off n : Nat) : (s.count off n).outbox = s.outbox := rfl
@[simp] theorem State.count_hostRead (s : State) (off n : Nat) : (s.count off n).hostRead = s.hostRead := rfl
@[simp] theorem State.count_pkg (s : State) (off n : Nat) : (s.count off n).pkg = s.pkg := rfl
@[simp] theorem State.count_cur (s : State) (off n : Nat) : (s.count off n).cur = s.cur := rfl
@[simp] theorem State.count_turns (s : State) (off n : Nat) : (s.count off n).turns = s.turns := rfl
@[simp] theorem State.count_fresh (s : State) (off n : Nat) : (s.count off n).fresh = s.fresh := rfl

/-! `setBlock` changes `cores` alone. -/

@[simp] theorem State.setBlock_ready (s : State) (c b : Nat) (x : Block) : (s.setBlock c b x).ready = s.ready := rfl
@[simp] theorem State.setBlock_tide (s : State) (c b : Nat) (x : Block) : (s.setBlock c b x).tide = s.tide := rfl
@[simp] theorem State.setBlock_mem (s : State) (c b : Nat) (x : Block) : (s.setBlock c b x).mem = s.mem := rfl
@[simp] theorem State.setBlock_hist (s : State) (c b : Nat) (x : Block) : (s.setBlock c b x).hist = s.hist := rfl
@[simp] theorem State.setBlock_olds (s : State) (c b : Nat) (x : Block) : (s.setBlock c b x).olds = s.olds := rfl
@[simp] theorem State.setBlock_heads (s : State) (c b : Nat) (x : Block) : (s.setBlock c b x).heads = s.heads := rfl
@[simp] theorem State.setBlock_tails (s : State) (c b : Nat) (x : Block) : (s.setBlock c b x).tails = s.tails := rfl
@[simp] theorem State.setBlock_fenced (s : State) (c b : Nat) (x : Block) : (s.setBlock c b x).fenced = s.fenced := rfl
@[simp] theorem State.setBlock_heldPuts (s : State) (c b : Nat) (x : Block) : (s.setBlock c b x).heldPuts = s.heldPuts := rfl
@[simp] theorem State.setBlock_attReport (s : State) (c b : Nat) (x : Block) : (s.setBlock c b x).attReport = s.attReport := rfl
@[simp] theorem State.setBlock_cycles (s : State) (c b : Nat) (x : Block) : (s.setBlock c b x).cycles = s.cycles := rfl
@[simp] theorem State.setBlock_walks (s : State) (c b : Nat) (x : Block) : (s.setBlock c b x).walks = s.walks := rfl
@[simp] theorem State.setBlock_unsent (s : State) (c b : Nat) (x : Block) : (s.setBlock c b x).unsent = s.unsent := rfl
@[simp] theorem State.setBlock_shots (s : State) (c b : Nat) (x : Block) : (s.setBlock c b x).shots = s.shots := rfl
@[simp] theorem State.setBlock_clock (s : State) (c b : Nat) (x : Block) : (s.setBlock c b x).clock = s.clock := rfl
@[simp] theorem State.setBlock_moves (s : State) (c b : Nat) (x : Block) : (s.setBlock c b x).moves = s.moves := rfl
@[simp] theorem State.setBlock_hostMem (s : State) (c b : Nat) (x : Block) : (s.setBlock c b x).hostMem = s.hostMem := rfl
@[simp] theorem State.setBlock_dir (s : State) (c b : Nat) (x : Block) : (s.setBlock c b x).dir = s.dir := rfl
@[simp] theorem State.setBlock_fine (s : State) (c b : Nat) (x : Block) : (s.setBlock c b x).fine = s.fine := rfl
@[simp] theorem State.setBlock_fown (s : State) (c b : Nat) (x : Block) : (s.setBlock c b x).fown = s.fown := rfl
@[simp] theorem State.setBlock_fownset (s : State) (c b : Nat) (x : Block) : (s.setBlock c b x).fownset = s.fownset := rfl
@[simp] theorem State.setBlock_invva (s : State) (c b : Nat) (x : Block) : (s.setBlock c b x).invva = s.invva := rfl
@[simp] theorem State.setBlock_invctl (s : State) (c b : Nat) (x : Block) : (s.setBlock c b x).invctl = s.invctl := rfl
@[simp] theorem State.setBlock_shooting (s : State) (c b : Nat) (x : Block) : (s.setBlock c b x).shooting = s.shooting := rfl
@[simp] theorem State.setBlock_free64 (s : State) (c b : Nat) (x : Block) : (s.setBlock c b x).free64 = s.free64 := rfl
@[simp] theorem State.setBlock_free2m (s : State) (c b : Nat) (x : Block) : (s.setBlock c b x).free2m = s.free2m := rfl
@[simp] theorem State.setBlock_victim (s : State) (c b : Nat) (x : Block) : (s.setBlock c b x).victim = s.victim := rfl
@[simp] theorem State.setBlock_done (s : State) (c b : Nat) (x : Block) : (s.setBlock c b x).done = s.done := rfl
@[simp] theorem State.setBlock_acl (s : State) (c b : Nat) (x : Block) : (s.setBlock c b x).acl = s.acl := rfl
@[simp] theorem State.setBlock_counters (s : State) (c b : Nat) (x : Block) : (s.setBlock c b x).counters = s.counters := rfl
@[simp] theorem State.setBlock_pwr (s : State) (c b : Nat) (x : Block) : (s.setBlock c b x).pwr = s.pwr := rfl
@[simp] theorem State.setBlock_fwOk (s : State) (c b : Nat) (x : Block) : (s.setBlock c b x).fwOk = s.fwOk := rfl
@[simp] theorem State.setBlock_fwDigest (s : State) (c b : Nat) (x : Block) : (s.setBlock c b x).fwDigest = s.fwDigest := rfl
@[simp] theorem State.setBlock_attNonce (s : State) (c b : Nat) (x : Block) : (s.setBlock c b x).attNonce = s.attNonce := rfl
@[simp] theorem State.setBlock_attAddr (s : State) (c b : Nat) (x : Block) : (s.setBlock c b x).attAddr = s.attAddr := rfl
@[simp] theorem State.setBlock_attDone (s : State) (c b : Nat) (x : Block) : (s.setBlock c b x).attDone = s.attDone := rfl
@[simp] theorem State.setBlock_ctxs (s : State) (c b : Nat) (x : Block) : (s.setBlock c b x).ctxs = s.ctxs := rfl
@[simp] theorem State.setBlock_cubes (s : State) (c b : Nat) (x : Block) : (s.setBlock c b x).cubes = s.cubes := rfl
@[simp] theorem State.setBlock_insts (s : State) (c b : Nat) (x : Block) : (s.setBlock c b x).insts = s.insts := rfl
@[simp] theorem State.setBlock_compl (s : State) (c b : Nat) (x : Block) : (s.setBlock c b x).compl = s.compl := rfl
@[simp] theorem State.setBlock_rr (s : State) (c b : Nat) (x : Block) : (s.setBlock c b x).rr = s.rr := rfl
@[simp] theorem State.setBlock_saved (s : State) (c b : Nat) (x : Block) : (s.setBlock c b x).saved = s.saved := rfl
@[simp] theorem State.setBlock_nets (s : State) (c b : Nat) (x : Block) : (s.setBlock c b x).nets = s.nets := rfl
@[simp] theorem State.setBlock_pods (s : State) (c b : Nat) (x : Block) : (s.setBlock c b x).pods = s.pods := rfl
@[simp] theorem State.setBlock_early (s : State) (c b : Nat) (x : Block) : (s.setBlock c b x).early = s.early := rfl
@[simp] theorem State.setBlock_bases (s : State) (c b : Nat) (x : Block) : (s.setBlock c b x).bases = s.bases := rfl
@[simp] theorem State.setBlock_capes (s : State) (c b : Nat) (x : Block) : (s.setBlock c b x).capes = s.capes := rfl
@[simp] theorem State.setBlock_outbox (s : State) (c b : Nat) (x : Block) : (s.setBlock c b x).outbox = s.outbox := rfl
@[simp] theorem State.setBlock_hostRead (s : State) (c b : Nat) (x : Block) : (s.setBlock c b x).hostRead = s.hostRead := rfl
@[simp] theorem State.setBlock_pkg (s : State) (c b : Nat) (x : Block) : (s.setBlock c b x).pkg = s.pkg := rfl
@[simp] theorem State.setBlock_cur (s : State) (c b : Nat) (x : Block) : (s.setBlock c b x).cur = s.cur := rfl
@[simp] theorem State.setBlock_turns (s : State) (c b : Nat) (x : Block) : (s.setBlock c b x).turns = s.turns := rfl
@[simp] theorem State.setBlock_fresh (s : State) (c b : Nat) (x : Block) : (s.setBlock c b x).fresh = s.fresh := rfl

/-! `ctxCount` changes `ctxs` alone. -/

@[simp] theorem State.ctxCount_ready (s : State) (x : Nat) (c : CtxCounter) : (s.ctxCount x c).ready = s.ready := rfl
@[simp] theorem State.ctxCount_tide (s : State) (x : Nat) (c : CtxCounter) : (s.ctxCount x c).tide = s.tide := rfl
@[simp] theorem State.ctxCount_mem (s : State) (x : Nat) (c : CtxCounter) : (s.ctxCount x c).mem = s.mem := rfl
@[simp] theorem State.ctxCount_hist (s : State) (x : Nat) (c : CtxCounter) : (s.ctxCount x c).hist = s.hist := rfl
@[simp] theorem State.ctxCount_olds (s : State) (x : Nat) (c : CtxCounter) : (s.ctxCount x c).olds = s.olds := rfl
@[simp] theorem State.ctxCount_heads (s : State) (x : Nat) (c : CtxCounter) : (s.ctxCount x c).heads = s.heads := rfl
@[simp] theorem State.ctxCount_tails (s : State) (x : Nat) (c : CtxCounter) : (s.ctxCount x c).tails = s.tails := rfl
@[simp] theorem State.ctxCount_fenced (s : State) (x : Nat) (c : CtxCounter) : (s.ctxCount x c).fenced = s.fenced := rfl
@[simp] theorem State.ctxCount_heldPuts (s : State) (x : Nat) (c : CtxCounter) : (s.ctxCount x c).heldPuts = s.heldPuts := rfl
@[simp] theorem State.ctxCount_attReport (s : State) (x : Nat) (c : CtxCounter) : (s.ctxCount x c).attReport = s.attReport := rfl
@[simp] theorem State.ctxCount_cycles (s : State) (x : Nat) (c : CtxCounter) : (s.ctxCount x c).cycles = s.cycles := rfl
@[simp] theorem State.ctxCount_walks (s : State) (x : Nat) (c : CtxCounter) : (s.ctxCount x c).walks = s.walks := rfl
@[simp] theorem State.ctxCount_unsent (s : State) (x : Nat) (c : CtxCounter) : (s.ctxCount x c).unsent = s.unsent := rfl
@[simp] theorem State.ctxCount_shots (s : State) (x : Nat) (c : CtxCounter) : (s.ctxCount x c).shots = s.shots := rfl
@[simp] theorem State.ctxCount_clock (s : State) (x : Nat) (c : CtxCounter) : (s.ctxCount x c).clock = s.clock := rfl
@[simp] theorem State.ctxCount_moves (s : State) (x : Nat) (c : CtxCounter) : (s.ctxCount x c).moves = s.moves := rfl
@[simp] theorem State.ctxCount_hostMem (s : State) (x : Nat) (c : CtxCounter) : (s.ctxCount x c).hostMem = s.hostMem := rfl
@[simp] theorem State.ctxCount_dir (s : State) (x : Nat) (c : CtxCounter) : (s.ctxCount x c).dir = s.dir := rfl
@[simp] theorem State.ctxCount_fine (s : State) (x : Nat) (c : CtxCounter) : (s.ctxCount x c).fine = s.fine := rfl
@[simp] theorem State.ctxCount_fown (s : State) (x : Nat) (c : CtxCounter) : (s.ctxCount x c).fown = s.fown := rfl
@[simp] theorem State.ctxCount_fownset (s : State) (x : Nat) (c : CtxCounter) : (s.ctxCount x c).fownset = s.fownset := rfl
@[simp] theorem State.ctxCount_invva (s : State) (x : Nat) (c : CtxCounter) : (s.ctxCount x c).invva = s.invva := rfl
@[simp] theorem State.ctxCount_invctl (s : State) (x : Nat) (c : CtxCounter) : (s.ctxCount x c).invctl = s.invctl := rfl
@[simp] theorem State.ctxCount_shooting (s : State) (x : Nat) (c : CtxCounter) : (s.ctxCount x c).shooting = s.shooting := rfl
@[simp] theorem State.ctxCount_free64 (s : State) (x : Nat) (c : CtxCounter) : (s.ctxCount x c).free64 = s.free64 := rfl
@[simp] theorem State.ctxCount_free2m (s : State) (x : Nat) (c : CtxCounter) : (s.ctxCount x c).free2m = s.free2m := rfl
@[simp] theorem State.ctxCount_victim (s : State) (x : Nat) (c : CtxCounter) : (s.ctxCount x c).victim = s.victim := rfl
@[simp] theorem State.ctxCount_done (s : State) (x : Nat) (c : CtxCounter) : (s.ctxCount x c).done = s.done := rfl
@[simp] theorem State.ctxCount_acl (s : State) (x : Nat) (c : CtxCounter) : (s.ctxCount x c).acl = s.acl := rfl
@[simp] theorem State.ctxCount_counters (s : State) (x : Nat) (c : CtxCounter) : (s.ctxCount x c).counters = s.counters := rfl
@[simp] theorem State.ctxCount_pwr (s : State) (x : Nat) (c : CtxCounter) : (s.ctxCount x c).pwr = s.pwr := rfl
@[simp] theorem State.ctxCount_fwOk (s : State) (x : Nat) (c : CtxCounter) : (s.ctxCount x c).fwOk = s.fwOk := rfl
@[simp] theorem State.ctxCount_fwDigest (s : State) (x : Nat) (c : CtxCounter) : (s.ctxCount x c).fwDigest = s.fwDigest := rfl
@[simp] theorem State.ctxCount_attNonce (s : State) (x : Nat) (c : CtxCounter) : (s.ctxCount x c).attNonce = s.attNonce := rfl
@[simp] theorem State.ctxCount_attAddr (s : State) (x : Nat) (c : CtxCounter) : (s.ctxCount x c).attAddr = s.attAddr := rfl
@[simp] theorem State.ctxCount_attDone (s : State) (x : Nat) (c : CtxCounter) : (s.ctxCount x c).attDone = s.attDone := rfl
@[simp] theorem State.ctxCount_cores (s : State) (x : Nat) (c : CtxCounter) : (s.ctxCount x c).cores = s.cores := rfl
@[simp] theorem State.ctxCount_cubes (s : State) (x : Nat) (c : CtxCounter) : (s.ctxCount x c).cubes = s.cubes := rfl
@[simp] theorem State.ctxCount_insts (s : State) (x : Nat) (c : CtxCounter) : (s.ctxCount x c).insts = s.insts := rfl
@[simp] theorem State.ctxCount_compl (s : State) (x : Nat) (c : CtxCounter) : (s.ctxCount x c).compl = s.compl := rfl
@[simp] theorem State.ctxCount_rr (s : State) (x : Nat) (c : CtxCounter) : (s.ctxCount x c).rr = s.rr := rfl
@[simp] theorem State.ctxCount_saved (s : State) (x : Nat) (c : CtxCounter) : (s.ctxCount x c).saved = s.saved := rfl
@[simp] theorem State.ctxCount_nets (s : State) (x : Nat) (c : CtxCounter) : (s.ctxCount x c).nets = s.nets := rfl
@[simp] theorem State.ctxCount_pods (s : State) (x : Nat) (c : CtxCounter) : (s.ctxCount x c).pods = s.pods := rfl
@[simp] theorem State.ctxCount_early (s : State) (x : Nat) (c : CtxCounter) : (s.ctxCount x c).early = s.early := rfl
@[simp] theorem State.ctxCount_bases (s : State) (x : Nat) (c : CtxCounter) : (s.ctxCount x c).bases = s.bases := rfl
@[simp] theorem State.ctxCount_capes (s : State) (x : Nat) (c : CtxCounter) : (s.ctxCount x c).capes = s.capes := rfl
@[simp] theorem State.ctxCount_outbox (s : State) (x : Nat) (c : CtxCounter) : (s.ctxCount x c).outbox = s.outbox := rfl
@[simp] theorem State.ctxCount_hostRead (s : State) (x : Nat) (c : CtxCounter) : (s.ctxCount x c).hostRead = s.hostRead := rfl
@[simp] theorem State.ctxCount_pkg (s : State) (x : Nat) (c : CtxCounter) : (s.ctxCount x c).pkg = s.pkg := rfl
@[simp] theorem State.ctxCount_cur (s : State) (x : Nat) (c : CtxCounter) : (s.ctxCount x c).cur = s.cur := rfl
@[simp] theorem State.ctxCount_turns (s : State) (x : Nat) (c : CtxCounter) : (s.ctxCount x c).turns = s.turns := rfl
@[simp] theorem State.ctxCount_fresh (s : State) (x : Nat) (c : CtxCounter) : (s.ctxCount x c).fresh = s.fresh := rfl

/-! ### Reading after an update -/

@[simp] theorem State.core_setCore_same (s : State) (c : Nat) (x : Core) : (s.setCore c x).core c = x := by
  simp [State.core, State.setCore]

theorem State.core_setCore (s : State) (c d : Nat) (x : Core) :
    (s.setCore c x).core d = if d = c then x else s.core d := by
  simp [State.core, State.setCore, Tbl.getD_set]

@[simp] theorem State.ctx_setCtx_same (s : State) (x : Nat) (c : Ctx) : (s.setCtx x c).ctx x = c := by
  simp [State.ctx, State.setCtx]

theorem State.ctx_setCtx (s : State) (x y : Nat) (c : Ctx) : (s.setCtx x c).ctx y = if y = x then c else s.ctx y := by
  simp [State.ctx, State.setCtx, Tbl.getD_set]

@[simp] theorem State.ctx_setCore (s : State) (c : Nat) (x : Core) (y : Nat) : (s.setCore c x).ctx y = s.ctx y := rfl
@[simp] theorem State.ctx_setBlock (s : State) (c b : Nat) (x : Block) (y : Nat) : (s.setBlock c b x).ctx y = s.ctx y := rfl
@[simp] theorem State.now_setCore (s : State) (c : Nat) (x : Core) (y : Nat) : (s.setCore c x).now y = s.now y := rfl
@[simp] theorem State.now_setBlock (s : State) (c b : Nat) (x : Block) (y : Nat) : (s.setBlock c b x).now y = s.now y := rfl
@[simp] theorem State.core_setCtx (s : State) (x : Nat) (c : Ctx) (d : Nat) : (s.setCtx x c).core d = s.core d := rfl
@[simp] theorem State.block?_setCtx (s : State) (x : Nat) (c : Ctx) (d b : Nat) : (s.setCtx x c).block? d b = s.block? d b := rfl
@[simp] theorem State.gang?_setCtx (s : State) (x : Nat) (c : Ctx) (d b i : Nat) : (s.setCtx x c).gang? d b i = s.gang? d b i := rfl

@[simp] theorem State.block?_setBlock_same (s : State) (c b : Nat) (x : Block) : (s.setBlock c b x).block? c b = some x := by
  simp [State.block?, State.setBlock]

theorem State.block?_setBlock (s : State) (c b d e : Nat) (x : Block) :
    (s.setBlock c b x).block? d e = if d = c ∧ e = b then some x else s.block? d e := by
  simp only [State.block?, State.setBlock, State.core_setCore]
  by_cases h : d = c
  · subst h; simp [Tbl.get?_set]
  · simp [h]

theorem State.core_onBlock_other (s : State) {c d : Nat} (b : Nat) (f : Block → Block) (h : d ≠ c) :
    (s.onBlock c b f).core d = s.core d := by
  simp only [State.onBlock]
  split
  · simp [State.setBlock, State.core_setCore, h]
  · rfl

theorem State.block?_onBlock (s : State) (c b d e : Nat) (f : Block → Block) :
    (s.onBlock c b f).block? d e = if d = c ∧ e = b then (s.block? d e).map f else s.block? d e := by
  simp only [State.onBlock]
  split
  · rename_i x hx
    rw [State.block?_setBlock]
    split
    · rename_i h; obtain ⟨rfl, rfl⟩ := h; simp [hx]
    · rfl
  · rename_i hx
    split
    · rename_i h; obtain ⟨rfl, rfl⟩ := h; simp [hx]
    · rfl

@[simp] theorem State.block?_onBlock_same (s : State) (c b : Nat) (f : Block → Block) :
    (s.onBlock c b f).block? c b = (s.block? c b).map f := by simp [State.block?_onBlock]

@[simp] theorem State.block?_onGang_same (s : State) (c b i : Nat) (f : Gang → Gang) :
    (s.onGang c b i f).block? c b = (s.block? c b).map (·.onGang i f) := by simp [State.onGang]

@[simp] theorem State.block?_onThread_same (s : State) (c b : Nat) (f : Thread → Thread) :
    (s.onThread c b f).block? c b = (s.block? c b).map fun x => { x with th := f x.th } := by simp [State.onThread]

@[simp] theorem State.gang?_onGang_same (s : State) (c b i : Nat) (f : Gang → Gang) :
    (s.onGang c b i f).gang? c b i = (s.gang? c b i).map f := by
  simp only [State.gang?, State.block?_onGang_same]
  cases s.block? c b with
  | none => rfl
  | some x => simp [Block.onGang, getElem?_modAt]

theorem State.onBlock_eq (s : State) (c b : Nat) (f : Block → Block) {x : Block} (h : s.block? c b = some x) :
    s.onBlock c b f = s.setBlock c b (f x) := by simp [State.onBlock, h]

theorem Tbl.set_set_same {α : Type} (t : Tbl α) (k : Nat) (x y : α) : Tbl.set (Tbl.set t k x) k y = Tbl.set t k y := by
  induction t with
  | nil => simp [Tbl.set]
  | cons e r ih =>
    obtain ⟨j, z⟩ := e
    simp only [Tbl.set]
    split
    · simp [Tbl.set]
    · split
      · simp [Tbl.set]
      · rename_i h1 h2
        simp [Tbl.set, h1, h2, ih]

@[simp] theorem State.setCore_setCore (s : State) (c : Nat) (x y : Core) : (s.setCore c x).setCore c y = s.setCore c y := by
  simp [State.setCore, Tbl.set_set_same]

@[simp] theorem State.setBlock_setBlock (s : State) (c b : Nat) (x y : Block) :
    (s.setBlock c b x).setBlock c b y = s.setBlock c b y := by
  simp [State.setBlock, Tbl.set_set_same]

/-- Two changes of one block are one change. -/
theorem State.onBlock_onBlock (s : State) (c b : Nat) (f g : Block → Block) :
    (s.onBlock c b f).onBlock c b g = s.onBlock c b (g ∘ f) := by
  simp only [State.onBlock]
  cases h : s.block? c b with
  | none => simp [h]
  | some x => simp

theorem State.onGang_onGang (s : State) (c b i : Nat) (f g : Gang → Gang) :
    (s.onGang c b i f).onGang c b i g = s.onGang c b i (g ∘ f) := by
  simp only [State.onGang, State.onBlock_onBlock]
  congr 1
  funext x
  simp [Block.onGang, modAt_modAt]

theorem State.onThread_onThread (s : State) (c b : Nat) (f g : Thread → Thread) :
    (s.onThread c b f).onThread c b g = s.onThread c b (g ∘ f) := by
  simp only [State.onThread, State.onBlock_onBlock]
  rfl

/-- A change of one gang depends on that gang alone. -/
theorem State.onGang_congr (s : State) (c b i : Nat) (f g : Gang → Gang) {x : Gang} (h : s.gang? c b i = some x)
    (e : f x = g x) : s.onGang c b i f = s.onGang c b i g := by
  simp only [State.onGang, State.onBlock]
  simp only [State.gang?] at h
  cases hb : s.block? c b with
  | none => rfl
  | some y =>
    simp only [hb, Option.bind] at h
    simp [Block.onGang, modAt_congr _ _ f g x h e]

theorem State.onThread_congr (s : State) (c b : Nat) (f g : Thread → Thread) {x : Block} (h : s.block? c b = some x)
    (e : f x.th = g x.th) : s.onThread c b f = s.onThread c b g := by
  simp [State.onThread, State.onBlock, h, e]

/-- What a change of one block leaves alone: everything but `cores`. -/
theorem State.onBlock_frame (s : State) (c b : Nat) (f : Block → Block) :
    s.onBlock c b f = { s with cores := (s.onBlock c b f).cores } := by
  simp only [State.onBlock]
  split <;> rfl

@[simp] theorem State.onBlock_mem (s : State) (c b : Nat) (f : Block → Block) : (s.onBlock c b f).mem = s.mem := by
  rw [State.onBlock_frame]
@[simp] theorem State.onGang_mem (s : State) (c b i : Nat) (f : Gang → Gang) : (s.onGang c b i f).mem = s.mem := by
  simp [State.onGang]
@[simp] theorem State.onThread_mem (s : State) (c b : Nat) (f : Thread → Thread) : (s.onThread c b f).mem = s.mem := by
  simp [State.onThread]
@[simp] theorem State.ctx_onBlock (s : State) (c b : Nat) (f : Block → Block) (x : Nat) : (s.onBlock c b f).ctx x = s.ctx x := by
  rw [State.onBlock_frame]; rfl
@[simp] theorem State.ctx_onGang (s : State) (c b i : Nat) (f : Gang → Gang) (x : Nat) : (s.onGang c b i f).ctx x = s.ctx x := by
  simp [State.onGang]
@[simp] theorem State.ctx_onThread (s : State) (c b : Nat) (f : Thread → Thread) (x : Nat) : (s.onThread c b f).ctx x = s.ctx x := by
  simp [State.onThread]

end Sys2Proof.Machine
end

