-- ==== Sys2Proof/Laws/Registers.lean ====
section
/-! SUPPORT. The registers of a gang: what a fixed-latency write changes in what words read (R116, R119, R120). -/

namespace Sys2Proof.Machine

/-! ### Lanes and slices -/

theorem nib_eq (m : Word) (j : Nat) : nib m j = (m.extractLsb' (4 * j) 4).toNat := by
  have h : (16 : Nat) ^ j = 2 ^ (4 * j) := by rw [Nat.pow_mul]
  simp [nib, h, BitVec.extractLsb'_toNat, Nat.shiftRight_eq_div_pow]

theorem nib_zero_iff (m : Word) (j : Nat) : nib m j = 0 ↔ ∀ i < 4, m.getLsbD (4 * j + i) = false := by
  rw [nib_eq]
  constructor
  · intro h i hi
    have h0 : m.extractLsb' (4 * j) 4 = 0 := BitVec.eq_of_toNat_eq (by simpa using h)
    have := congrArg (fun x : BitVec 4 => x.getLsbD i) h0
    simp only [BitVec.getLsbD_extractLsb', hi, decide_true, Bool.true_and] at this
    simpa using this
  · intro h
    have h0 : m.extractLsb' (4 * j) 4 = 0 := by
      apply BitVec.eq_of_getLsbD_eq
      intro i hi
      simp [hi, h i hi]
    simp [h0]

theorem nib_full_iff (m : Word) (j : Nat) : nib m j = 15 ↔ ∀ i < 4, m.getLsbD (4 * j + i) = true := by
  rw [nib_eq]
  constructor
  · intro h i hi
    have h0 : m.extractLsb' (4 * j) 4 = 15#4 := BitVec.eq_of_toNat_eq (by simpa using h)
    have := congrArg (fun x : BitVec 4 => x.getLsbD i) h0
    have h15 : (15#4).getLsbD i = true := by
      have : i = 0 ∨ i = 1 ∨ i = 2 ∨ i = 3 := by omega
      rcases this with rfl | rfl | rfl | rfl <;> rfl
    simp only [BitVec.getLsbD_extractLsb', hi, decide_true, Bool.true_and, h15] at this
    exact this
  · intro h
    have h0 : m.extractLsb' (4 * j) 4 = 15#4 := by
      apply BitVec.eq_of_getLsbD_eq
      intro i hi
      have h15 : (15#4).getLsbD i = true := by
        have : i = 0 ∨ i = 1 ∨ i = 2 ∨ i = 3 := by omega
        rcases this with rfl | rfl | rfl | rfl <;> rfl
      simp only [BitVec.getLsbD_extractLsb', hi, h i hi, h15, decide_true, Bool.true_and]
    simp [h0]

/-- No lane of slice `j` is left of a mask without the lanes of a full slice. -/
theorem nib_diff_full {a m : Word} {j : Nat} (h : nib m j = 15) : nib (a &&& ~~~m) j = 0 := by
  rw [nib_full_iff] at h
  rw [nib_zero_iff]
  intro i hi
  simp [h i hi]

theorem nib_diff_none {a m : Word} {j : Nat} (h : nib m j = 0) : nib (a &&& ~~~m) j = nib a j := by
  rw [nib_zero_iff] at h
  rw [nib_eq, nib_eq]
  congr 1
  apply BitVec.eq_of_getLsbD_eq
  intro i hi
  simp only [BitVec.getLsbD_extractLsb', hi, decide_true, Bool.true_and, BitVec.getLsbD_and, BitVec.getLsbD_not, h i hi,
    Bool.not_false, Bool.and_true]
  by_cases hw : 4 * j + i < 32
  · simp [hw]
  · simp [hw, BitVec.getLsbD_of_ge a (4 * j + i) (by omega)]

@[simp] theorem lane_mergeLanes (m : Word) (a b : Vector Word 32) (i : Nat) (h : i < 32) :
    lane (mergeLanes m a b) i = if m.getLsbD i then lane a i else lane b i := by simp [mergeLanes, h]

@[simp] theorem stampAt_mergeStamps (now : Stamp) (m : Word) (a b : Vector Stamp 8) (j : Nat) (h : j < 8) :
    stampAt (mergeStamps now m a b) j =
      if nib m j = 15 then stampAt a j else if nib m j = 0 then stampAt b j else older now (stampAt b j) (stampAt a j) := by
  simp [mergeStamps, h]

/-! ### Lists made longer -/

theorem getD_padAt {α : Type} (l : List α) (d : α) (i j : Nat) (x : α) :
    (padAt l d i x).getD j d = if j = i then x else l.getD j d := by
  induction i generalizing l j with
  | zero =>
    cases l <;> cases j <;> simp [padAt]
  | succ i ih =>
    cases l with
    | nil => cases j with
      | zero => simp [padAt]
      | succ j => simpa [padAt] using ih [] j
    | cons y r => cases j with
      | zero => simp [padAt]
      | succ j => simpa [padAt] using ih r j

/-! ### A result beside a later write -/

theorem idxOf?_of_getElem? {l : List Nat} (h : l.Nodup) {i r : Nat} (hi : l[i]? = some r) : l.idxOf? r = some i := by
  rw [List.idxOf?_eq_some_iff]
  obtain ⟨hl, hv⟩ := List.getElem?_eq_some_iff.1 hi
  refine ⟨hl, by simp [hv], ?_⟩
  intro j hj e
  have := (List.Nodup.getElem_inj_iff h (hi := by omega) (hj := hl)).1 (e.trans hv.symm)
  omega

theorem nodup_regs (p : Pend) : p.regs.Nodup := by
  have key (n reg : Nat) : ((List.range n).map (· + reg)).Nodup := by
    apply List.Nodup.map _ List.nodup_range
    intro a b h
    simpa using h
  unfold Pend.regs
  split <;> first | exact key _ _ | simp

/-- The position of register `r` among those a result writes, with what `onBank` does there. -/
theorem Pend.regs_getElem? (p : Pend) (i r : Nat) (h : p.regs[i]? = some r) : p.regs.idxOf? r = some i :=
  idxOf?_of_getElem? (nodup_regs p) h

theorem Pend.kill_dead (p : Pend) (r k : Nat) (m : Word) :
    (p.kill r m).dead.getD k 0 = if p.regs[k]? = some r then p.dead.getD k 0 ||| m else p.dead.getD k 0 := by
  unfold Pend.kill
  split
  · rename_i i hi
    simp only [getD_padAt]
    by_cases hk : k = i
    · subst hk
      have : p.regs[k]? = some r := by
        rw [List.idxOf?_eq_some_iff] at hi
        obtain ⟨hl, hv, -⟩ := hi
        simp [hl, hv]
      simp [this]
    · have : p.regs[k]? ≠ some r := by
        intro h
        have := Pend.regs_getElem? p k r h
        rw [hi] at this
        exact hk (by simpa using this.symm)
      simp [hk, this]
  · rename_i hn
    have : p.regs[k]? ≠ some r := by
      intro h
      have := Pend.regs_getElem? p k r h
      rw [hn] at this
      simp at this
    simp [this]

theorem Pend.kill_frame (p : Pend) (r : Nat) (m : Word) : p.kill r m = { p with dead := (p.kill r m).dead } := by
  unfold Pend.kill
  split <;> rfl

@[simp] theorem Pend.kill_regs (p : Pend) (m : Word) (q : Nat) : (p.kill q m).regs = p.regs := by
  rw [Pend.kill_frame]; rfl
@[simp] theorem Pend.kill_val (p : Pend) (r : Nat) (m : Word) : (p.kill r m).val = p.val := by rw [Pend.kill_frame]
@[simp] theorem Pend.kill_returned (p : Pend) (r : Nat) (m : Word) : (p.kill r m).returned = p.returned := by rw [Pend.kill_frame]
@[simp] theorem Pend.kill_tr (p : Pend) (r : Nat) (m : Word) : (p.kill r m).tr = p.tr := by rw [Pend.kill_frame]
@[simp] theorem Pend.kill_slices (p : Pend) (r : Nat) (m : Word) : (p.kill r m).slices = p.slices := by rw [Pend.kill_frame]
@[simp] theorem Pend.kill_deadSt (p : Pend) (r : Nat) (m : Word) : (p.kill r m).deadSt = p.deadSt := by rw [Pend.kill_frame]
@[simp] theorem Pend.kill_deadUni (p : Pend) (r : Nat) (m : Word) : (p.kill r m).deadUni = p.deadUni := by rw [Pend.kill_frame]

@[simp] theorem Pend.kill_at' (p : Pend) (r : Nat) (m : Word) : (p.kill r m).at' = p.at' := by rw [Pend.kill_frame]
@[simp] theorem Pend.kill_hidden (p : Pend) (r : Nat) (m : Word) (mm : BitVec 8) : (p.kill r m).hidden mm = p.hidden mm := by
  simp [Pend.hidden]

/-- What a result does to one register, by its position among the registers it writes. -/
theorem Pend.onBank_eq (p : Pend) (hid : Word) (get : Nat → VReg) (r : Nat) :
    p.onBank hid get r = match p.regs.idxOf? r with
      | none => get r
      | some i => match p.val with
        | .lanes _ m vals secs _ =>
          applyVals p.at' (get r) (p.live i m &&& ~~~hid) (vals.getD i (Vector.replicate 32 0)) (laneStamps p.at' m secs)
            (p.deadSt.getD i 0)
        | .spec _ m vals st => applyVals p.at' (get r) (p.live i m &&& ~~~hid) vals st (p.deadSt.getD i 0)
        | .frames _ regs =>
          ⟨mergeLanes (p.live i 0xFFFFFFFF &&& ~~~hid) (regs.getD i VReg.zero).lanes (get r).lanes, vec 8 fun j =>
            if nib (p.live i 0xFFFFFFFF &&& ~~~hid) j = 0 ∨ (p.deadSt.getD i 0).getLsbD j then stampAt (get r).stamps j
            else if nib (p.live i 0xFFFFFFFF &&& ~~~hid) j = 15 then stampAt (regs.getD i VReg.zero).stamps j
            else older p.at' (stampAt (get r).stamps j) (stampAt (regs.getD i VReg.zero).stamps j)⟩
        | _ => get r := by
  have rangeIdx (n reg : Nat) : ((List.range n).map (· + reg)).idxOf? r = if reg ≤ r ∧ r < reg + n then some (r - reg) else none := by
    have nd : ((List.range n).map (· + reg)).Nodup := by
      apply List.Nodup.map _ List.nodup_range
      intro a b h
      simpa using h
    split
    · rename_i h
      apply idxOf?_of_getElem? nd
      have : r - reg < n := by omega
      simp [this]
      omega
    · rename_i h
      rw [List.idxOf?_eq_none_iff]
      simp only [List.mem_map, List.mem_range, not_exists, not_and]
      intro a ha e
      omega
  unfold Pend.onBank Pend.regs
  cases hv : p.val with
  | lanes reg m vals secs adr =>
    simp only [rangeIdx]
    by_cases h : reg ≤ r ∧ r < reg + vals.length <;> simp [h]
  | spec reg m vals st =>
    by_cases h : r = reg
    · subst h; simp [List.idxOf?, List.findIdx?_cons]
    · simp [h, List.idxOf?, List.findIdx?_cons, Ne.symm h]
  | frames reg regs =>
    simp only [rangeIdx]
    by_cases h : reg ≤ r ∧ r < reg + regs.length <;> simp [h]
  | uni w v a => simp
  | mail w mb => simp

theorem Pend.onBank_kill_ne (p : Pend) (hid : Word) (get : Nat → VReg) {r d : Nat} (m : Word) (h : r ≠ d) :
    (p.kill d m).onBank hid get r = p.onBank hid get r := by
  have hl (i : Nat) (mm : Word) (hi : p.regs.idxOf? r = some i) : (p.kill d m).live i mm = p.live i mm := by
    have : p.regs[i]? = some r := by
      rw [List.idxOf?_eq_some_iff] at hi
      obtain ⟨hl, hv, -⟩ := hi
      simp [hl, hv]
    simp only [Pend.live, Pend.kill_dead, this, Option.some.injEq, h, if_false]
  rw [Pend.onBank_eq, Pend.onBank_eq, Pend.kill_regs]
  cases hi : p.regs.idxOf? r with
  | none => rfl
  | some i => simp only [Pend.kill_val, Pend.kill_deadSt, Pend.kill_at', hl i _ hi]

/-- `y` is `x` after a write of the lanes `m` with `lanes` and, where a slice is written whole, `st` (R116). -/
structure Covered (m : Word) (lanes : Vector Word 32) (st : Vector Stamp 8) (x y : VReg) : Prop where
  lane : ∀ i < 32, Machine.lane y.lanes i = if m.getLsbD i then Machine.lane lanes i else Machine.lane x.lanes i
  full : ∀ j < 8, nib m j = 15 → stampAt y.stamps j = stampAt st j
  kept : ∀ j < 8, nib m j = 0 → stampAt y.stamps j = stampAt x.stamps j

theorem covered_mergeReg (r : VReg) (now : Stamp) (m : Word) (lanes : Vector Word 32) (st : Vector Stamp 8) :
    Covered m lanes st r (mergeReg r now m lanes st) := by
  constructor
  · intro i hi; simp [mergeReg, hi]
  · intro j hj h; simp [mergeReg, hj, h]
  · intro j hj h; simp [mergeReg, hj, h]

theorem live_kill (p : Pend) (d i : Nat) (m mm hid : Word) (hi : p.regs.idxOf? d = some i) :
    (p.kill d m).live i mm &&& ~~~hid = (p.live i mm &&& ~~~hid) &&& ~~~m := by
  have : p.regs[i]? = some d := by
    rw [List.idxOf?_eq_some_iff] at hi
    obtain ⟨hl, hv, -⟩ := hi
    simp [hl, hv]
  simp only [Pend.live, Pend.kill_dead, this, if_true]
  apply BitVec.eq_of_getLsbD_eq
  intro k hk
  simp [hk, Bool.and_comm, Bool.and_left_comm]

theorem covered_onBank (p : Pend) (hid : Word) (d : Nat) {m : Word} {lanes : Vector Word 32} {st : Vector Stamp 8}
    {x y : VReg} (h : Covered m lanes st x y) :
    Covered m lanes st (p.onBank hid (fun _ => x) d) ((p.kill d m).onBank hid (fun _ => y) d) := by
  obtain ⟨hl, hf, hk⟩ := h
  rw [Pend.onBank_eq, Pend.onBank_eq, Pend.kill_regs]
  cases hi : p.regs.idxOf? d with
  | none => exact ⟨hl, hf, hk⟩
  | some i =>
    simp only [Pend.kill_val, Pend.kill_deadSt, Pend.kill_at', live_kill p d i m _ hid hi]
    cases hv : p.val with
    | lanes reg a vals secs adr =>
      constructor
      · intro L hL
        simp only [applyVals, mergeReg, lane_mergeLanes _ _ _ _ hL, hl L hL]
        simp only [BitVec.getLsbD_and, BitVec.getLsbD_not, hL, decide_true, Bool.true_and]
        cases m.getLsbD L <;> simp
      · intro j hj hn
        simp only [applyVals, mergeReg, stampAt_vec _ _ hj, stampAt_mergeStamps _ _ _ _ _ hj, nib_diff_full hn, hf j hj hn]
        simp
      · intro j hj hn
        simp only [applyVals, mergeReg, stampAt_vec _ _ hj, stampAt_mergeStamps _ _ _ _ _ hj, nib_diff_none hn, hk j hj hn]
    | spec reg a vals s2 =>
      constructor
      · intro L hL
        simp only [applyVals, mergeReg, lane_mergeLanes _ _ _ _ hL, hl L hL]
        simp only [BitVec.getLsbD_and, BitVec.getLsbD_not, hL, decide_true, Bool.true_and]
        cases m.getLsbD L <;> simp
      · intro j hj hn
        simp only [applyVals, mergeReg, stampAt_vec _ _ hj, stampAt_mergeStamps _ _ _ _ _ hj, nib_diff_full hn, hf j hj hn]
        simp
      · intro j hj hn
        simp only [applyVals, mergeReg, stampAt_vec _ _ hj, stampAt_mergeStamps _ _ _ _ _ hj, nib_diff_none hn, hk j hj hn]
    | frames reg regs =>
      constructor
      · intro L hL
        simp only [lane_mergeLanes _ _ _ _ hL, hl L hL]
        simp only [BitVec.getLsbD_and, BitVec.getLsbD_not, hL, decide_true, Bool.true_and]
        cases m.getLsbD L <;> simp
      · intro j hj hn
        simp only [stampAt_vec _ _ hj, nib_diff_full hn, hf j hj hn]
        simp
      · intro j hj hn
        simp only [stampAt_vec _ _ hj, nib_diff_none hn, hk j hj hn]
    | uni w v a => exact ⟨hl, hf, hk⟩
    | mail w mb => exact ⟨hl, hf, hk⟩

theorem Gang.seen_kill (g : Gang) (d : Nat) (m : Word) :
    ({ g with pend := g.pend.map fun (p : Pend) => p.kill d m }).seen = g.seen.map fun (p : Pend) => p.kill d m := by
  simp only [Gang.seen, List.filter_map]
  congr 1
  apply List.filter_congr
  intro p _
  simp

theorem foldl_onBank_kill_ne (l : List Pend) (mm : BitVec 8) {r d : Nat} (m : Word) (h : r ≠ d) (x : VReg) :
    (l.map fun p => p.kill d m).foldl (fun x (p : Pend) => p.onBank (p.hidden mm) (fun _ => x) r) x =
      l.foldl (fun x (p : Pend) => p.onBank (p.hidden mm) (fun _ => x) r) x := by
  induction l generalizing x with
  | nil => rfl
  | cons p t ih => simp only [List.map_cons, List.foldl_cons, Pend.kill_hidden, Pend.onBank_kill_ne p _ _ m h, ih]

theorem covered_fold (l : List Pend) (mm : BitVec 8) (d : Nat) {m : Word} {lanes : Vector Word 32} {st : Vector Stamp 8}
    {x y : VReg} (h : Covered m lanes st x y) :
    Covered m lanes st (l.foldl (fun x (p : Pend) => p.onBank (p.hidden mm) (fun _ => x) d) x)
      ((l.map fun p => p.kill d m).foldl (fun x (p : Pend) => p.onBank (p.hidden mm) (fun _ => x) d) y) := by
  induction l generalizing x y with
  | nil => exact h
  | cons p t ih =>
    simp only [List.map_cons, List.foldl_cons, Pend.kill_hidden]
    exact ih (covered_onBank p _ d h)

/-- The window of a gang after a banked write of the lanes `m` of register `d`. -/
def underWindow (win : List WinEnt) (d : Nat) (now : Stamp) (m : Word) (st : Vector Stamp 8) : List WinEnt :=
  win.map fun e => { e with tr := e.tr.map fun t => if t.reg = d then t.under now m st else t }

/-- One transient result laid over a register, for a reader with slices `mm`. -/
def layOver (mm : BitVec 8) (r : Nat) (o : Option Transient) (x : VReg) : VReg :=
  match o with
  | some t =>
    if t.reg = r then
      ⟨mergeLanes (t.shown mm) t.lanes x.lanes, vec 8 fun j => if nib (t.shown mm) j = 0 then stampAt x.stamps j else stampAt t.stamps j⟩
    else x
  | none => x

theorem overlay_cons (mm : BitVec 8) (r : Nat) (e : WinEnt) (l : List WinEnt) (x : VReg) :
    overlay mm r (e :: l) x = layOver mm r e.tr (overlay mm r l x) := rfl

/-- A later banked write takes its lanes from what a reader sees of a transient result. -/
theorem shown_under (t : Transient) (now : Stamp) (m : Word) (st : Vector Stamp 8) (mm : BitVec 8) :
    (t.under now m st).shown mm = t.shown mm &&& ~~~m := by
  apply BitVec.eq_of_getLsbD_eq
  intro k hk
  simp [Transient.shown, Transient.under, hk, Bool.and_assoc, Bool.and_comm]

theorem underWindow_cons (e : WinEnt) (l : List WinEnt) (d : Nat) (now : Stamp) (m : Word) (st : Vector Stamp 8) :
    underWindow (e :: l) d now m st =
      { e with tr := e.tr.map fun t => if t.reg = d then t.under now m st else t } :: underWindow l d now m st := rfl

theorem overlay_under_ne (mm : BitVec 8) (win : List WinEnt) {r d : Nat} (now : Stamp) (m : Word) (st : Vector Stamp 8) (h : r ≠ d)
    (x : VReg) : overlay mm r (underWindow win d now m st) x = overlay mm r win x := by
  induction win with
  | nil => rfl
  | cons e l ih =>
    rw [underWindow_cons, overlay_cons, overlay_cons, ih]
    cases e.tr with
    | none => rfl
    | some t =>
      by_cases hd : t.reg = d
      · simp [hd, layOver, Transient.under, Ne.symm h]
      · simp [hd]

theorem covered_overlay (mm : BitVec 8) (win : List WinEnt) (d : Nat) (now : Stamp) {m : Word} {lanes : Vector Word 32}
    {st : Vector Stamp 8} {x y : VReg} (h : Covered m lanes st x y) :
    Covered m lanes st (overlay mm d win x) (overlay mm d (underWindow win d now m st) y) := by
  induction win with
  | nil => exact h
  | cons e l ih =>
    rw [underWindow_cons, overlay_cons, overlay_cons]
    obtain ⟨hl, hf, hk⟩ := ih
    cases e.tr with
    | none => exact ⟨hl, hf, hk⟩
    | some t =>
      by_cases hd : t.reg = d
      · have hr : (t.under now m st).reg = d := hd
        simp only [Option.map_some, hd, hr, if_true, layOver, shown_under]
        constructor
        · intro i hi
          simp only [lane_mergeLanes _ _ _ _ hi, hl i hi]
          simp only [BitVec.getLsbD_and, BitVec.getLsbD_not, hi, decide_true, Bool.true_and]
          cases m.getLsbD i <;> cases (t.shown mm).getLsbD i <;> simp [Transient.under]
        · intro j hj hn
          simp only [stampAt_vec _ _ hj, nib_diff_full hn, if_true, hf j hj hn]
        · intro j hj hn
          simp only [stampAt_vec _ _ hj, nib_diff_none hn, hk j hj hn]
          simp [Transient.under, hj, hn]
      · simp only [Option.map_some, hd, if_false, layOver]
        exact ⟨hl, hf, hk⟩

/-- A fixed-latency write of register `d` leaves every other register as words read it. -/
theorem Gang.readV_writeV_ne (g : Gang) (now : Stamp) (mm : BitVec 8) {d r : Nat} (m : Word) (lanes : Vector Word 32)
    (st : Vector Stamp 8) (h : r ≠ d) : (g.writeV now d m lanes st).readV mm r = g.readV mm r := by
  unfold Gang.writeV
  split
  · rfl
  · simp only [Gang.readV]
    split
    · rfl
    · show overlay mm r (underWindow g.window d now m st) _ = _
      rw [overlay_under_ne _ _ _ _ _ h]
      congr 1
      simp only [Gang.viewV, Gang.bank]
      rw [Tbl.getD_set, if_neg h]
      have := Gang.seen_kill g d m
      simp only [Gang.seen] at this ⊢
      rw [this, foldl_onBank_kill_ne _ _ _ h]

/-- What a fixed-latency write does to its register as words read it: its lanes take the values, the others keep theirs; a
slice written whole takes the stamp, one without a lane of the mask keeps its own. -/
theorem Gang.readV_writeV_same (g : Gang) (now : Stamp) (mm : BitVec 8) {d : Nat} (m : Word) (lanes : Vector Word 32)
    (st : Vector Stamp 8) (h : d ≠ 126) :
    Covered m lanes st (g.readV mm d) ((g.writeV now d m lanes st).readV mm d) := by
  unfold Gang.writeV
  simp only [h, if_false, Gang.readV]
  refine covered_overlay mm g.window d now ?_
  simp only [Gang.viewV, Gang.bank]
  rw [Tbl.getD_set, if_pos rfl]
  have := Gang.seen_kill g d m
  simp only [Gang.seen] at this ⊢
  rw [this]
  exact covered_fold _ _ _ (covered_mergeReg _ _ _ _ _)

end Sys2Proof.Machine
end

