-- ==== Sys2Proof/Laws/Masks.lean ====
section
/-! SUPPORT. The bits of masks that words compute. -/

namespace Sys2Proof.Machine

theorem sum_bits_lt (p : Nat → Bool) (n : Nat) :
    (List.range n).foldl (fun a i => if p i then a + 2 ^ i else a) 0 < 2 ^ n := by
  induction n with
  | zero => simp
  | succ n ih =>
    rw [List.range_succ, List.foldl_append]
    simp only [List.foldl_cons, List.foldl_nil]
    split <;> rw [Nat.pow_succ] <;> omega

/-- A sum of distinct powers of two has those bits. -/
theorem testBit_sum (p : Nat → Bool) (n i : Nat) :
    ((List.range n).foldl (fun a i => if p i then a + 2 ^ i else a) 0).testBit i = (decide (i < n) && p i) := by
  induction n with
  | zero => simp
  | succ n ih =>
    have hlt := sum_bits_lt p n
    rw [List.range_succ, List.foldl_append]
    simp only [List.foldl_cons, List.foldl_nil]
    generalize (List.range n).foldl (fun a i => if p i then a + 2 ^ i else a) 0 = x at *
    rcases Nat.lt_trichotomy i n with h | h | h
    · have h1 : i < n + 1 := by omega
      have e : (if p n = true then x + 2 ^ n else x).testBit i = x.testBit i := by
        split
        · rw [Nat.add_comm]; exact Nat.testBit_two_pow_add_gt h x
        · rfl
      rw [e, ih]; simp [h, h1]
    · subst h
      have hx : x.testBit i = false := Nat.testBit_lt_two_pow hlt
      by_cases hp : p i = true
      · simp only [hp, if_true]
        rw [Nat.add_comm, Nat.testBit_two_pow_add_eq, hx]; simp
      · simp only [hp]; simp [hx]
    · have h1 : ¬ i < n + 1 := by omega
      have hle : 2 ^ (n + 1) ≤ 2 ^ i := Nat.pow_le_pow_right (by omega) (by omega)
      rw [Nat.pow_succ] at hle
      have : (if p n = true then x + 2 ^ n else x) < 2 ^ i := by split <;> omega
      rw [Nat.testBit_lt_two_pow this]
      simp [h1]

@[simp] theorem getLsbD_lanesWhere (act : Word) (p : Nat → Bool) (i : Nat) (h : i < 32) :
    (lanesWhere act p).getLsbD i = (act.getLsbD i && p i) := by
  unfold lanesWhere
  rw [BitVec.getLsbD_ofNat, testBit_sum]
  simp [h]

@[simp] theorem getLsbD_takenMask (e : Env) (p : Nat → Bool) (j : Nat) (h : j < 8) :
    (e.takenMask p).getLsbD j = (e.m.getLsbD j && p j) := by
  unfold Env.takenMask
  rw [BitVec.getLsbD_ofNat, testBit_sum]
  simp [h]

theorem slicesOf_eq (m : Word) : slicesOf m =
    BitVec.ofNat 8 ((List.range 8).foldl (fun a j => if (nib m j != 0) = true then a + 2 ^ j else a) 0) := by
  unfold slicesOf
  congr 1
  congr 1
  funext a j
  by_cases h : nib m j = 0 <;> simp [h]

@[simp] theorem getLsbD_slicesOf (m : Word) (j : Nat) (h : j < 8) : (slicesOf m).getLsbD j = (nib m j != 0) := by
  rw [slicesOf_eq, BitVec.getLsbD_ofNat, testBit_sum]
  simp [h]

theorem sum_slices (p : Nat → Bool) (n : Nat) :
    (List.range n).foldl (fun a j => if p j then a + 15 * 16 ^ j else a) 0 =
      (List.range (4 * n)).foldl (fun a i => if p (i / 4) then a + 2 ^ i else a) 0 := by
  induction n with
  | zero => rfl
  | succ n ih =>
    have e : 4 * (n + 1) = 4 * n + 1 + 1 + 1 + 1 := by omega
    have h : (2 : Nat) ^ (4 * n) = 16 ^ n := by rw [Nat.pow_mul]
    rw [List.range_succ, List.foldl_append, ih, e, List.range_succ, List.range_succ, List.range_succ, List.range_succ]
    simp only [List.foldl_append, List.foldl_cons, List.foldl_nil]
    have d0 : 4 * n / 4 = n := by omega
    have d1 : (4 * n + 1) / 4 = n := by omega
    have d2 : (4 * n + 1 + 1) / 4 = n := by omega
    have d3 : (4 * n + 1 + 1 + 1) / 4 = n := by omega
    rw [d0, d1, d2, d3]
    split
    · simp only [Nat.pow_succ, h]; omega
    · rfl

/-- The lanes of a set of slices (R110). -/
@[simp] theorem getLsbD_laneMask (m : BitVec 8) (i : Nat) (h : i < 32) : (laneMask m).getLsbD i = m.getLsbD (i / 4) := by
  unfold laneMask
  have e := sum_slices (fun j => m.getLsbD j) 8
  rw [e, BitVec.getLsbD_ofNat, testBit_sum (fun i => m.getLsbD (i / 4))]
  simp [h]

@[simp] theorem getLsbD_mergeMask (l new old : Word) (i : Nat) (h : i < 32) :
    (mergeMask l new old).getLsbD i = if l.getLsbD i then new.getLsbD i else old.getLsbD i := by
  simp only [mergeMask, BitVec.getLsbD_or, BitVec.getLsbD_and, BitVec.getLsbD_not, h, decide_true, Bool.true_and]
  cases l.getLsbD i <;> cases new.getLsbD i <;> cases old.getLsbD i <;> rfl

end Sys2Proof.Machine
end

