-- ==== Sys2Proof/Laws/Memory.lean ====
section
/-! SUPPORT. The canonical form of a store: what reads give after writes, and that every operation keeps the form. -/

namespace Sys2Proof

theorem Machine.rising_iff {α : Type} (l : List (Nat × α)) :
    Machine.rising l = true ↔ l.Pairwise fun a b => a.1 < b.1 := by
  induction l with
  | nil => simp [Machine.rising]
  | cons e r ih =>
    cases r with
    | nil => simp [Machine.rising]
    | cons f r =>
      simp only [Machine.rising, Bool.and_eq_true, decide_eq_true_eq] at ih ⊢
      rw [ih, List.pairwise_cons (a := e)]
      constructor
      · rintro ⟨h1, h2⟩
        refine ⟨?_, h2⟩
        intro x hx
        rcases List.mem_cons.1 hx with h | h
        · subst h; exact h1
        · exact lt_trans h1 ((List.pairwise_cons.1 h2).1 x h)
      · rintro ⟨h1, h2⟩
        exact ⟨h1 f (by simp), h2⟩

theorem Tbl.mem_set {α : Type} {t : Tbl α} {k : Nat} {x : α} {e : Nat × α} (h : e ∈ Tbl.set t k x) : e = (k, x) ∨ e ∈ t := by
  induction t with
  | nil => simpa [Tbl.set] using h
  | cons f r ih =>
    simp only [Tbl.set] at h
    split at h
    · simpa using h
    · split at h
      · rcases List.mem_cons.1 h with h | h
        · exact .inl h
        · exact .inr (List.mem_cons_of_mem _ h)
      · rcases List.mem_cons.1 h with h | h
        · exact .inr (by simp [h])
        · rcases ih h with h | h
          · exact .inl h
          · exact .inr (List.mem_cons_of_mem _ h)

theorem Tbl.erase_sublist {α : Type} (t : Tbl α) (k : Nat) : (Tbl.erase t k).Sublist t := by
  induction t with
  | nil => simp [Tbl.erase]
  | cons f r ih =>
    simp only [Tbl.erase]
    split
    · exact List.sublist_cons_self _ _
    · exact ih.cons_cons _

namespace Machine

/-! ### The form -/

theorem rising_set {α : Type} {t : Tbl α} (k : Nat) (x : α) (h : rising t = true) : rising (Tbl.set t k x) = true := by
  rw [rising_iff] at h ⊢
  induction t with
  | nil => simp [Tbl.set]
  | cons f r ih =>
    obtain ⟨h1, h2⟩ := List.pairwise_cons.1 h
    simp only [Tbl.set]
    split
    · rename_i hk
      refine List.pairwise_cons.2 ⟨?_, h⟩
      intro e he
      rcases List.mem_cons.1 he with he | he
      · subst he; exact hk
      · exact lt_trans hk (h1 e he)
    · split
      · rename_i hk
        exact List.pairwise_cons.2 ⟨fun e he => by simpa [hk] using h1 e he, h2⟩
      · rename_i hk hn
        refine List.pairwise_cons.2 ⟨?_, ih h2⟩
        intro e he
        rcases Tbl.mem_set he with he | he
        · subst he; simp only; omega
        · exact h1 e he

theorem rising_erase {α : Type} {t : Tbl α} (k : Nat) (h : rising t = true) : rising (Tbl.erase t k) = true := by
  rw [rising_iff] at h ⊢
  exact h.sublist (Tbl.erase_sublist t k)

theorem rising_filter {α : Type} {t : Tbl α} (p : Nat × α → Bool) (h : rising t = true) : rising (t.filter p) = true := by
  rw [rising_iff] at h ⊢
  exact h.filter _

theorem bytesWf_iff (l : List (Nat × BitVec 8)) : bytesWf l = (rising l && l.all fun e => e.2 != 0) := by
  induction l with
  | nil => rfl
  | cons e r ih =>
    cases r with
    | nil => simp [bytesWf, rising]
    | cons f r =>
      simp only [bytesWf, rising, List.all_cons] at ih ⊢
      rw [ih]
      cases (e.2 != 0) <;> simp [Bool.and_assoc, Bool.and_comm, Bool.and_left_comm]

theorem all_set {α : Type} {t : Tbl α} (k : Nat) (x : α) (p : Nat × α → Bool) (hx : p (k, x) = true) (h : t.all p = true) :
    (Tbl.set t k x).all p = true := by
  rw [List.all_eq_true] at h ⊢
  intro e he
  rcases Tbl.mem_set he with he | he
  · rw [he]; exact hx
  · exact h e he

theorem all_erase {α : Type} {t : Tbl α} (k : Nat) (p : Nat × α → Bool) (h : t.all p = true) :
    (Tbl.erase t k).all p = true := by
  rw [List.all_eq_true] at h ⊢
  exact fun e he => h e ((Tbl.erase_sublist t k).subset he)

theorem bytesWf_putByte {l : List (Nat × BitVec 8)} (a : Nat) (x : Byte) (h : bytesWf l = true) :
    bytesWf (putByte l a x) = true := by
  rw [bytesWf_iff, Bool.and_eq_true] at h ⊢
  unfold putByte
  split
  · exact ⟨rising_erase _ h.1, all_erase _ _ h.2⟩
  · rename_i hx
    exact ⟨rising_set _ _ h.1, all_set _ _ _ (by simpa using hx) h.2⟩

/-- What the form is, list by list. -/
theorem Store.wf_iff (m : Store) : m.wf = true ↔
    bytesWf m.bytes = true ∧ (rising m.stamps = true ∧ (m.stamps.all fun e => e.2 != ancient) = true) ∧
      rising m.poison = true := by
  simp [Store.wf, Bool.and_eq_true, and_assoc]

theorem Store.wf_empty : Store.empty.wf = true := by decide

theorem Store.wf_setByte {m : Store} (a : Nat) (x : Byte) (h : m.wf = true) : (m.setByte a x).wf = true := by
  rw [Store.wf_iff] at h ⊢
  exact ⟨bytesWf_putByte _ _ h.1, h.2⟩

theorem Store.wf_setBytes {m : Store} (a : Nat) (l : List Byte) (h : m.wf = true) : (m.setBytes a l).wf = true := by
  induction l generalizing m a with
  | nil => exact h
  | cons b r ih => exact ih _ (Store.wf_setByte _ _ h)

theorem Store.wf_writes {m : Store} (l : List (Nat × Byte)) (h : m.wf = true) : (m.writes l).wf = true := by
  induction l generalizing m with
  | nil => exact h
  | cons e r ih => exact ih (Store.wf_setByte _ _ h)

theorem Store.wf_setStamp {m : Store} (i : Nat) (st : Stamp) (h : m.wf = true) : (m.setStamp i st).wf = true := by
  rw [Store.wf_iff] at h ⊢
  refine ⟨h.1, ?_, h.2.2⟩
  simp only [Store.setStamp]
  split
  · exact ⟨rising_erase _ h.2.1.1, all_erase _ _ h.2.1.2⟩
  · rename_i hx
    exact ⟨rising_set _ _ h.2.1.1, all_set _ _ _ (by simpa using hx) h.2.1.2⟩

theorem Store.wf_setBad {m : Store} (i : Nat) (b : Bool) (h : m.wf = true) : (m.setBad i b).wf = true := by
  rw [Store.wf_iff] at h ⊢
  refine ⟨h.1, h.2.1, ?_⟩
  simp only [Store.setBad]
  split
  · exact rising_set _ _ h.2.2
  · exact rising_erase _ h.2.2

theorem Store.wf_putSector {m : Store} (now : Stamp) (i : Nat) (l : List (Nat × Byte)) (r : StampRule) (h : m.wf = true) :
    (m.putSector now i l r).wf = true := by
  unfold Store.putSector
  simp only
  split
  · exact h
  · exact Store.wf_setBad _ _ (Store.wf_setStamp _ _ (Store.wf_writes _ h))

theorem Store.wf_putBytes {m : Store} (now : Stamp) (a : Nat) (l : List Byte) (r : StampRule) (h : m.wf = true) :
    (m.putBytes now a l r).wf = true := by
  unfold Store.putBytes
  simp only
  generalize sectorsIn a l.length = ss
  induction ss generalizing m with
  | nil => exact h
  | cons i r ih => exact ih (Store.wf_putSector _ _ _ _ h)

theorem rising_moveRun {α : Type} {t : Tbl α} (a b n : Nat) (h : rising t = true) : rising (moveRun t a b n) = true := by
  rw [rising_iff] at h ⊢
  unfold moveRun
  rw [List.pairwise_append, List.pairwise_append]
  refine ⟨⟨h.filter _, ?_, ?_⟩, h.filter _, ?_⟩
  · rw [List.pairwise_map]
    refine (List.pairwise_filter.2 (h.imp ?_))
    intro x y hxy hx hy
    simp only [Bool.and_eq_true, decide_eq_true_eq] at hx hy
    omega
  · intro x hx y hy
    simp only [List.mem_filter, decide_eq_true_eq] at hx
    obtain ⟨z, hz, rfl⟩ := List.mem_map.1 hy
    simp only
    omega
  · intro x hx y hy
    simp only [List.mem_filter, decide_eq_true_eq] at hy
    rcases List.mem_append.1 hx with hx | hx
    · simp only [List.mem_filter, decide_eq_true_eq] at hx
      omega
    · obtain ⟨z, hz, rfl⟩ := List.mem_map.1 hx
      simp only [List.mem_filter, Bool.and_eq_true, decide_eq_true_eq] at hz
      simp only
      omega

theorem all_moveRun {α : Type} {t : Tbl α} (a b n : Nat) (p : α → Bool) (h : (t.all fun e => p e.2) = true) :
    ((moveRun t a b n).all fun e => p e.2) = true := by
  rw [List.all_eq_true] at h ⊢
  intro x hx
  simp only [moveRun, List.mem_append, List.mem_filter, List.mem_map] at hx
  rcases hx with (hx | ⟨z, hz, rfl⟩) | hx
  · exact h x hx.1
  · exact h z hz.1
  · exact h x hx.1

theorem rising_mergeMarks {t : Tbl Unit} (a n : Nat) (h : rising t = true) : rising (mergeMarks a n t) = true := by
  rw [rising_iff] at h ⊢
  unfold mergeMarks
  rw [List.pairwise_append, List.pairwise_append]
  refine ⟨⟨h.filter _, ?_, ?_⟩, h.filter _, ?_⟩
  · rw [List.pairwise_map]
    exact List.pairwise_lt_range.imp (by intro x y hxy; simp only; omega)
  · intro x hx y hy
    simp only [List.mem_filter, decide_eq_true_eq] at hx
    obtain ⟨z, hz, rfl⟩ := List.mem_map.1 hy
    simp only
    omega
  · intro x hx y hy
    simp only [List.mem_filter, decide_eq_true_eq] at hy
    rcases List.mem_append.1 hx with hx | hx
    · simp only [List.mem_filter, decide_eq_true_eq] at hx
      omega
    · obtain ⟨z, hz, rfl⟩ := List.mem_map.1 hx
      simp only [List.mem_range] at hz
      simp only
      omega

theorem Store.wf_wipe {m : Store} (d : Nat) (h : m.wf = true) : (m.wipe d).wf = true := by
  rw [Store.wf_iff, bytesWf_iff, Bool.and_eq_true] at h ⊢
  refine ⟨⟨rising_filter _ h.1.1, ?_⟩, ⟨rising_filter _ h.2.1.1, ?_⟩, rising_filter _ h.2.2⟩
  · have := h.1.2
    rw [List.all_eq_true] at this ⊢
    exact fun e he => this e (List.mem_filter.1 he).1
  · have := h.2.1.2
    rw [List.all_eq_true] at this ⊢
    exact fun e he => this e (List.mem_filter.1 he).1

/-! ### Reads after writes -/

theorem Store.byte_setByte_ne (m : Store) {a x : Nat} (b : Byte) (h : x ≠ a) : (m.setByte a b).byte x = m.byte x := by
  simp only [Store.byte, Store.setByte, putByte]
  split
  · exact Tbl.getD_erase_ne _ _ h
  · rw [Tbl.getD_set, if_neg h]

theorem get?_none_of_lt {α : Type} {t : Tbl α} {k : Nat} (h : ∀ e ∈ t, k < e.1) : Tbl.get? t k = none := by
  induction t with
  | nil => rfl
  | cons e r ih =>
    have h0 := h e (by simp)
    simp only [Tbl.get?]
    rw [if_neg (by omega)]
    exact ih fun e he => h e (List.mem_cons_of_mem _ he)

theorem get?_erase_same {α : Type} {t : Tbl α} (k : Nat) (h : rising t = true) : Tbl.get? (Tbl.erase t k) k = none := by
  rw [rising_iff] at h
  induction t with
  | nil => rfl
  | cons e r ih =>
    obtain ⟨h1, h2⟩ := List.pairwise_cons.1 h
    simp only [Tbl.erase]
    split
    · rename_i hk
      exact get?_none_of_lt fun f hf => by rw [hk]; exact h1 f hf
    · rename_i hk
      simp only [Tbl.get?]
      rw [if_neg (fun h => hk h.symm)]
      exact ih h2

/-- A byte reads as it was written. -/
theorem Store.byte_setByte_same {m : Store} (a : Nat) (b : Byte) (h : m.wf = true) : (m.setByte a b).byte a = b := by
  rw [Store.wf_iff, bytesWf_iff, Bool.and_eq_true] at h
  simp only [Store.byte, Store.setByte, putByte]
  split
  · rename_i hb
    simp [Tbl.getD, get?_erase_same a h.1.1, hb]
  · simp

theorem Store.byte_setBytes_out (m : Store) (a x : Nat) (l : List Byte) (h : x < a ∨ a + l.length ≤ x) :
    (m.setBytes a l).byte x = m.byte x := by
  induction l generalizing m a with
  | nil => rfl
  | cons b r ih =>
    simp only [Store.setBytes, List.length_cons] at *
    rw [ih _ _ (by omega), Store.byte_setByte_ne _ _ (by omega)]

theorem Store.byte_writes_out (m : Store) (x : Nat) (l : List (Nat × Byte)) (h : ∀ e ∈ l, e.1 ≠ x) :
    (m.writes l).byte x = m.byte x := by
  induction l generalizing m with
  | nil => rfl
  | cons e r ih =>
    simp only [Store.writes]
    rw [ih _ fun f hf => h f (List.mem_cons_of_mem _ hf), Store.byte_setByte_ne _ _ (fun hx => h e (by simp) hx.symm)]

@[simp] theorem Store.byte_setStamp (m : Store) (i a : Nat) (st : Stamp) : (m.setStamp i st).byte a = m.byte a := rfl
@[simp] theorem Store.byte_setBad (m : Store) (i a : Nat) (b : Bool) : (m.setBad i b).byte a = m.byte a := rfl
@[simp] theorem Store.stamp_setBad (m : Store) (i j : Nat) (b : Bool) : (m.setBad i b).stamp j = m.stamp j := rfl
@[simp] theorem Store.stamp_setByte (m : Store) (a j : Nat) (b : Byte) : (m.setByte a b).stamp j = m.stamp j := rfl

/-- A sector's stamp reads as it was set. -/
theorem Store.stamp_setStamp {m : Store} (i j : Nat) (st : Stamp) (h : m.wf = true) :
    (m.setStamp i st).stamp j = if j = i then st else m.stamp j := by
  rw [Store.wf_iff] at h
  simp only [Store.stamp, Store.setStamp]
  split
  · rename_i hst
    split
    · rename_i hj; subst hj
      simp [Tbl.getD, get?_erase_same _ h.2.1.1, hst]
    · rename_i hj
      exact Tbl.getD_erase_ne _ _ hj
  · rw [Tbl.getD_set]

/-- A write to one sector changes no byte that it does not name. -/
theorem Store.byte_putSector_out (m : Store) (now : Stamp) (i x : Nat) (l : List (Nat × Byte)) (r : StampRule)
    (h : ∀ e ∈ l, e.1 ≠ x) : (m.putSector now i l r).byte x = m.byte x := by
  unfold Store.putSector
  simp only
  split
  · rfl
  · rw [Store.byte_setBad, Store.byte_setStamp, Store.byte_writes_out _ _ _ h]

/-- The memory of the machine right after reset is in its form. -/
theorem reset_memOk : State.reset.memOk := by
  show State.reset.mem.wf = true
  decide

end Machine

end Sys2Proof
end

