-- ==== Sys2Proof/Laws/Order.lean ====
section
/-! SUPPORT. What the operations of the ordering rules change (R224 to R232): the agents of former states, the releases observed,
the counter of free values, and nothing else. -/

namespace Sys2Proof.Machine

/-- A free choice is one of the values, and moves `fresh` alone. -/
theorem State.choose_spec {α : Type} (s : State) (cur : α) (olds : List α) :
    (s.choose cur olds).1 = { s with fresh := (s.choose cur olds).1.fresh } ∧ (s.choose cur olds).2 ∈ cur :: olds := by
  induction olds generalizing s cur with
  | nil => simp [State.choose]
  | cons o r ih =>
    simp only [State.choose]
    obtain ⟨h1, h2⟩ := ih { s with fresh := s.fresh + 1 } (if Config.freeBit s.fresh then o else cur)
    refine ⟨h1, ?_⟩
    rcases List.mem_cons.1 h2 with h | h
    · rw [h]
      by_cases c : Config.freeBit s.fresh = true <;> simp [c]
    · simp [h]

@[simp] theorem State.choose_nil {α : Type} (s : State) (cur : α) : s.choose cur [] = (s, cur) := rfl

/-- `see`, `seeUpto`, `join`, `meetBlock` change what agents may still read, alone. -/
theorem State.see_frame (s : State) (ws : List Who) (v : List Nat) : s.see ws v = { s with olds := (s.see ws v).olds } := rfl

theorem State.seeUpto_frame (s : State) (ws : List Who) (sec n : Nat) :
    s.seeUpto ws sec n = { s with olds := (s.seeUpto ws sec n).olds } := rfl

theorem State.join_frame (s : State) (ws : List Who) (p : Who → Bool) : s.join ws p = { s with olds := (s.join ws p).olds } := rfl

theorem State.meetBlock_frame (s : State) (core slot : Nat) (ws : List Who) :
    s.meetBlock core slot ws = { s with olds := (s.meetBlock core slot ws).olds } := rfl

theorem State.observe_frame (s : State) (w : Who) (hs : List Head) (a n : Nat) :
    s.observe w hs a n = { s with tails := (s.observe w hs a n).tails } := rfl

/-- A fold of steps each of which changes `olds` alone changes `olds` alone. -/
theorem foldl_olds_frame {α : Type} (l : List α) (f : State → α → State)
    (h : ∀ s a, f s a = { s with olds := (f s a).olds }) (s : State) :
    l.foldl f s = { s with olds := (l.foldl f s).olds } := by
  induction l generalizing s with
  | nil => rfl
  | cons a r ih =>
    rw [List.foldl_cons, ih (f s a)]
    rw [h s a]

theorem State.sync_frame (s : State) (ws : List Who) (p : Who → Bool) (scope : BitVec 3) :
    s.sync ws p scope = { s with olds := (s.sync ws p scope).olds } :=
  foldl_olds_frame _ _ (fun s a => by by_cases h : p a.1 = true <;> simp [h, State.see]) s

theorem State.engineSync_frame (s : State) (w : Who) (by' : List Who) (p : Who → Bool) (scope : BitVec 3) :
    s.engineSync w by' p scope = { s with olds := (s.engineSync w by' p scope).olds } :=
  foldl_olds_frame _ _ (fun s a => by split <;> rfl) s

/-- What an agent finds of a sector is as its home holds it, or a former state whose replacement does not happen before it (R231). -/
theorem State.versionFor_spec (s : State) (w : Who) (sec : Nat) :
    (s.versionFor w sec).1 = { s with fresh := (s.versionFor w sec).1.fresh } ∧
      ((s.versionFor w sec).2 = s.current sec ∨ ∃ o ∈ s.olds, o.sec = sec ∧ o.has w = false ∧ (s.versionFor w sec).2.bytes = o.bytes ∧
        (s.versionFor w sec).2.stamp = o.stamp) := by
  obtain ⟨h1, h2⟩ := s.choose_spec (s.current sec) ((s.olds.filter fun o => o.sec == sec && !o.has w).map fun o =>
    (⟨o.bytes, o.stamp, o.bad || s.offline (32 * sec), o.till, o.heads⟩ : Version))
  refine ⟨h1, ?_⟩
  rcases List.mem_cons.1 h2 with h | h
  · exact .inl h
  · obtain ⟨o, ho, e⟩ := List.mem_map.1 h
    simp only [List.mem_filter, Bool.and_eq_true, beq_iff_eq, Bool.not_eq_true'] at ho
    exact .inr ⟨o, ho.1, ho.2.1, ho.2.2, by rw [State.versionFor, ← e], by rw [State.versionFor, ← e]⟩

/-- An agent finds a sector as its home holds it where every write that has replaced a former state happens before it. -/
theorem State.versionFor_current (s : State) (w : Who) (sec : Nat) (h : ∀ o ∈ s.olds, o.sec = sec → o.has w = true) :
    s.versionFor w sec = (s, s.current sec) := by
  have e : (s.olds.filter fun o => o.sec == sec && !o.has w) = [] := by
    simp only [List.filter_eq_nil_iff, Bool.and_eq_true, beq_iff_eq, Bool.not_eq_true', not_and, Bool.not_eq_false]
    exact h
  simp [State.versionFor, e]

end Sys2Proof.Machine
end

