-- ==== Sys2Proof/Laws/Threads.lean ====
section
/-! SUPPORT. What the shared operations of generator words do: the thread in hand, registers, completion, faults. -/

namespace Sys2Proof.Machine

/-- What `thread?` answers. -/
theorem State.thread?_some {s : State} {core slot : Nat} {b : Block} (h : s.thread? = some (core, slot, b)) :
    s.cur = .gen core slot ∧ s.block? core slot = some b := by
  unfold State.thread? at h
  split at h
  · rename_i c sl hc
    split at h
    · rename_i x hx
      cases h
      exact ⟨hc, hx⟩
    · exact absurd h (by simp)
  · exact absurd h (by simp)

/-- A generator word of the thread in hand is finished with the result of its meaning. -/
theorem gen_of {s : State} {core slot : Nat} {b : Block} (h : s.thread? = some (core, slot, b)) (body : GEnv → GRes) :
    gen s body = .next ((s.genEnv core slot b).finish (body (s.genEnv core slot b))) := by
  simp [gen, h, State.genEnv]

/-- The thread of a block, said of the block. -/
theorem State.onThread_const {t : State} {core slot : Nat} {th : Thread} (f : Thread → Thread)
    (h : (t.block? core slot).map (·.th) = some th) : t.onThread core slot f = t.onThread core slot fun _ => f th := by
  cases hb : t.block? core slot with
  | none => simp [hb] at h
  | some x =>
    simp only [hb, Option.map_some, Option.some.injEq] at h
    exact State.onThread_congr t core slot _ _ hb (by rw [h])

/-- A word that completes with the thread changed by `f`, in a state that still has the thread. -/
theorem finish_thread {s t : State} {core slot : Nat} {b : Block} (f : Thread → Thread)
    (h : (t.block? core slot).map (·.th) = some b.th) :
    (s.genEnv core slot b).finish (.done (t.onThread core slot f)) =
      t.genDone core slot b ((f b.th).complete (b.th.pc + 4)) := by
  have e : (t.onThread core slot f).onThread core slot (fun x => x.complete (b.th.pc + 4)) =
      t.onThread core slot fun _ => (f b.th).complete (b.th.pc + 4) := by
    rw [State.onThread_onThread, State.onThread_const _ h]
    rfl
  show (if b.th.stepOne then ((t.onThread core slot f).onThread core slot fun x => x.complete (b.th.pc + 4)).threadEvent core slot
    else (t.onThread core slot f).onThread core slot fun x => x.complete (b.th.pc + 4)) = _
  rw [e]
  rfl

/-- A word that completes without a change of the thread. -/
theorem finish_done {s t : State} {core slot : Nat} {b : Block} (h : (t.block? core slot).map (·.th) = some b.th) :
    (s.genEnv core slot b).finish (.done t) = t.genDone core slot b (b.th.complete (b.th.pc + 4)) := by
  show (if b.th.stepOne then (t.onThread core slot fun x => x.complete (b.th.pc + 4)).threadEvent core slot
    else t.onThread core slot fun x => x.complete (b.th.pc + 4)) = _
  rw [State.onThread_const _ h]
  rfl

/-- A word that completes and goes on elsewhere, with the thread changed by `f`. -/
theorem finish_jump {s t : State} {core slot : Nat} {b : Block} (f : Thread → Thread) (pc : DWord)
    (h : (t.block? core slot).map (·.th) = some b.th) :
    (s.genEnv core slot b).finish (.jump (t.onThread core slot f) pc) = t.genDone core slot b ((f b.th).complete pc) := by
  have e : (t.onThread core slot f).onThread core slot (fun x => x.complete pc) =
      t.onThread core slot fun _ => (f b.th).complete pc := by
    rw [State.onThread_onThread, State.onThread_const _ h]
    rfl
  show (if b.th.stepOne then ((t.onThread core slot f).onThread core slot fun x => x.complete pc).threadEvent core slot
    else (t.onThread core slot f).onThread core slot fun x => x.complete pc) = _
  rw [e]
  rfl

/-- What completing an instruction does to its thread. -/
theorem Thread.complete_eq (t : Thread) (pc : DWord) :
    t.complete pc = { t with pc := pc, wait := .none, refires := 0, stepOne := false, halted := t.halted || t.stepOne } := by
  unfold Thread.complete Thread.stepped
  cases h : t.stepOne <;> simp

/-- A register of the active set after a write (R72). -/
theorem Thread.reg_setReg (t : Thread) (d r : Nat) (x : SVal) (hd : d < 32) :
    (t.setReg d x).reg r = if r = 0 then SVal.zero else if r = d then x else t.reg r := by
  unfold Thread.setReg Thread.reg
  by_cases h0 : d = 0
  · subst h0
    by_cases hr : r = 0 <;> simp [hr]
  · by_cases hr : r = 0
    · simp [hr]
    · simp only [if_neg h0, if_neg hr]
      have key (v : Vector SVal 32) : vat (vput v d x) SVal.zero r = if r = d then x else vat v SVal.zero r := by
        by_cases h32 : r < 32
        · exact vat_vput _ _ _ _ _ h32
        · have hne : r ≠ d := by omega
          simp [vat, vput, Vector.toList, hne, Ne.symm hne]
      cases hh : t.handler <;> simp [key]

end Sys2Proof.Machine
end

