-- ==== Sys2Proof/Laws/Wide.lean ====
section
/-! SUPPORT. What the shared operations of wide words do: the agent in hand, issue, and completion. -/

namespace Sys2Proof.Machine

/-- What `env?` answers. -/
theorem State.env?_some {s : State} {e : Env} (h : s.env? = some e) :
    e.s = s ∧ s.cur = .wide e.core e.slot e.gang e.grp.mask ∧ s.block? e.core e.slot = some e.b ∧
      e.b.gangs[e.gang]? = some e.g ∧ e.g.groups.find? (·.mask == e.grp.mask) = some e.grp ∧ e.now = s.now e.b.ctx := by
  unfold State.env? at h
  split at h
  · rename_i core slot gang mask hc
    split at h
    · rename_i b hb
      split at h
      · rename_i g hg
        split at h
        · rename_i grp hgrp
          have hm : grp.mask = mask := by simpa using List.find?_some hgrp
          cases h
          exact ⟨rfl, by simp [hc, hm], hb, hg, by simpa [hm] using hgrp, rfl⟩
        · exact absurd h (by simp)
      · exact absurd h (by simp)
    · exact absurd h (by simp)
  · exact absurd h (by simp)

/-- A word that is accepted issues, and its result is what its meaning says. -/
theorem wide_completes {s : State} {e : Env} {h : How} (he : s.env? = some e) (ha : e.accepts h) (body : Env → Res) :
    wide s h body = .next (e.completes h (body e)) := by
  obtain ⟨ha, hr⟩ := ha
  simp only [wide, he, Env.issue, Env.completes, Env.nextRun] at *
  have hf : (h.fields.find? fun f => !f.ok e.b.shape.n) = none := by
    simp only [List.find?_eq_none]
    intro f hf
    simp [List.all_eq_true.1 ha f hf]
  rw [hf]
  cases hg : e.grp.run with
  | none => simp
  | some r =>
    simp only [hg, Option.getD_some] at hr ⊢
    cases hx : Run.add r h.pipe with
    | none => simp [hx] at hr
    | some x => simp

/-- A word with an illegal register field faults, whatever it is (R45). -/
theorem wide_badReg {s : State} {e : Env} {h : How} {f : RegField} (he : s.env? = some e)
    (hf : (h.fields.find? fun f => !f.ok e.b.shape.n) = some f) (body : Env → Res) :
    wide s h body = .next (e.finish h none (.fault s 0x02 f.val)) := by
  have hs := (State.env?_some he).1
  simp [wide, he, Env.issue, hf, hs]

theorem Env.gang?_of {s : State} {e : Env} (h : s.env? = some e) : s.gang? e.core e.slot e.gang = some e.g := by
  obtain ⟨-, -, hb, hg, -, -⟩ := State.env?_some h
  simp [State.gang?, hb, hg]

theorem Env.onGang_congr {s : State} {e : Env} (h : s.env? = some e) (f : Gang → Gang) :
    e.onGang f = e.onGang fun _ => f e.g := by
  have hs := (State.env?_some h).1
  have hg := Env.gang?_of h
  unfold Env.onGang
  rw [hs]
  exact State.onGang_congr s _ _ _ _ _ hg rfl

/-- Everything a fixed-latency write does to the gang in hand. -/
theorem Env.banked_writeV (e : Env) (d : Nat) (lanes : Vector Word 32) (st : Vector Stamp 8) :
    e.Banked (e.g.writeV e.now d e.act lanes st) d (lane lanes) (stampAt st) := by
  have fr : e.g.writeV e.now d e.act lanes st = { e.g with
      v := (e.g.writeV e.now d e.act lanes st).v, window := (e.g.writeV e.now d e.act lanes st).window
      pend := (e.g.writeV e.now d e.act lanes st).pend } := by
    unfold Gang.writeV
    split <;> rfl
  refine ⟨fr, fun r h m => Gang.readV_writeV_ne _ _ _ _ _ _ h, ?_, ?_, ?_, ?_, ?_⟩
  · intro h; simp [Gang.writeV, h]
  · intro h m i hi; exact (Gang.readV_writeV_same e.g e.now m e.act lanes st h).lane i hi
  · intro h m j hj hn; exact (Gang.readV_writeV_same e.g e.now m e.act lanes st h).full j hj hn
  · intro h m j hj hn; exact (Gang.readV_writeV_same e.g e.now m e.act lanes st h).kept j hj hn
  · intro h j hj h0 h1
    simp [Gang.writeV, h, Gang.bank, mergeReg, hj, h0, h1]

/-- Everything a transient result is. -/
theorem Env.forwarded_mk (e : Env) (d : Nat) (lanes : Vector Word 32) (st : Vector Stamp 8) :
    e.Forwarded (mkTransient e.g e.now e.m d e.act lanes st) d (lane lanes) (stampAt st) := by
  constructor
  · intro h; simp [mkTransient, h]
  · intro h
    refine ⟨_, by simp only [mkTransient, h, if_false]; rfl, rfl, rfl, fun _ _ _ => rfl, ?_, ?_⟩
    · intro j hj hn; simp [hj, hn]
    · intro j hj h0 h1; simp [hj, h0, h1]

/-- A word whose meaning gives a fixed-latency vector result, after a read that has left the gang alone, completes with
that result. -/
theorem wide_result {s s1 : State} {e : Env} {h : How} (he : s.env? = some e) (ha : e.accepts h) {body : Env → Res}
    {d : Nat} {t : Bool} {lanes : Vector Word 32} {st : Vector Stamp 8} (hg : s1.gang? e.core e.slot e.gang = some e.g)
    (hb : body e = Env.result { e with s := s1 } d t lanes st) :
    e.writes s1 h d t (lane lanes) (stampAt st) (wide s h body) := by
  rw [wide_completes he ha, hb]
  constructor
  · intro ht
    refine ⟨_, e.banked_writeV d lanes st, ?_⟩
    subst ht
    simp only [Env.result, Bool.false_eq_true, if_false, Env.onGang]
    rw [State.onGang_congr s1 _ _ _ _ (fun _ => e.g.writeV e.now d e.act lanes st) hg rfl]
  · intro ht
    refine ⟨_, e.forwarded_mk d lanes st, ?_⟩
    subst ht
    simp only [Env.result, if_true]
    rfl

/-- The same, with the values said lane by lane and slice by slice. -/
theorem Env.writes_congr {e : Env} {s1 : State} {h : How} {d : Nat} {t : Bool} {x y : Nat → Word} {st su : Nat → Stamp}
    {out : Host.Outcome State Fault Refusal} (hx : ∀ i < 32, x i = y i) (hs : ∀ j < 8, st j = su j)
    (hw : e.writes s1 h d t x st out) : e.writes s1 h d t y su out := by
  obtain ⟨h1, h2⟩ := hw
  constructor
  · intro ht
    obtain ⟨g, b, ho⟩ := h1 ht
    refine ⟨g, ⟨b.frame, b.others, b.discarded, ?_, ?_, b.kept, ?_⟩, ho⟩
    · intro hd m i hi; rw [b.lanes hd m i hi, hx i hi]
    · intro hd m j hj hn; rw [b.whole hd m j hj hn, hs j hj]
    · intro hd j hj h0 h1; rw [b.part hd j hj h0 h1, hs j hj]
  · intro ht
    obtain ⟨o, f, ho⟩ := h2 ht
    refine ⟨o, ⟨f.discarded, ?_⟩, ho⟩
    intro hd
    obtain ⟨t, e1, e2, e3, e4, e5, e6⟩ := f.entry hd
    refine ⟨t, e1, e2, e3, ?_, ?_, ?_⟩
    · intro i hi ha; rw [e4 i hi ha, hx i hi]
    · intro j hj hn; rw [e5 j hj hn, hs j hj]
    · intro j hj h0 h1; rw [e6 j hj h0 h1, hs j hj]

/-- A fixed-latency vector result in the state of the word. -/
theorem wide_result' {s : State} {e : Env} {h : How} (he : s.env? = some e) (ha : e.accepts h) {body : Env → Res}
    {d : Nat} {t : Bool} {lanes : Vector Word 32} {st : Vector Stamp 8} (hb : body e = e.result d t lanes st)
    {x : Nat → Word} {su : Nat → Stamp} (hx : ∀ i < 32, lane lanes i = x i) (hs : ∀ j < 8, stampAt st j = su j) :
    e.writes s h d t x su (wide s h body) := by
  have h0 := (State.env?_some he).1
  have hb' : body e = Env.result { e with s := s } d t lanes st := by rw [hb, ← h0]
  exact Env.writes_congr hx hs (wide_result he ha (Env.gang?_of he) hb')

/-- A word that changes the gang in hand alone completes with the gang changed. -/
theorem wide_gang {s : State} {e : Env} {h : How} (he : s.env? = some e) (ha : e.accepts h) {body : Env → Res}
    {f : Gang → Gang} (hb : body e = .done (e.onGang f) none) :
    wide s h body = .next (e.completes h (.done (e.onGang fun _ => f e.g) none)) := by
  rw [wide_completes he ha, hb, Env.onGang_congr he f]

@[simp] theorem lane_lanes1 (f : Word → Word) (a : VReg) (i : Nat) (h : i < 32) : lane (lanes1 f a) i = f (lane a.lanes i) := by
  simp [lanes1, h]
@[simp] theorem lane_lanes2 (f : Word → Word → Word) (a b : VReg) (i : Nat) (h : i < 32) :
    lane (lanes2 f a b) i = f (lane a.lanes i) (lane b.lanes i) := by simp [lanes2, h]
@[simp] theorem lane_lanes3 (f : Word → Word → Word → Word) (d a b : VReg) (i : Nat) (h : i < 32) :
    lane (lanes3 f d a b) i = f (lane d.lanes i) (lane a.lanes i) (lane b.lanes i) := by simp [lanes3, h]
@[simp] theorem stampAt_olderOf2 (now : Stamp) (a b : VReg) (j : Nat) (h : j < 8) :
    stampAt (olderOf now [a, b]) j = older now (stampAt a.stamps j) (stampAt b.stamps j) := by
  simp [olderOf, h, olderAll]
@[simp] theorem stampAt_olderOf3 (now : Stamp) (a b c : VReg) (j : Nat) (h : j < 8) :
    stampAt (olderOf now [a, b, c]) j = older now (older now (stampAt a.stamps j) (stampAt b.stamps j)) (stampAt c.stamps j) := by
  simp [olderOf, h, olderAll]

end Sys2Proof.Machine
end

