-- ==== Sys2Proof/Tests/Slice0.lean ====
section
/-! SUPPORT. The model's own tests: ill-formed terms that WellFormed refuses, words of every family decoded as the manual
encodes them, single steps with results worked out by hand from the rules, and for every statement of Obligations.lean a
state and operands that meet its hypotheses. -/

namespace Sys2Proof.Tests

set_option Elab.async false

open Sys2Proof.Machine Sys2Proof.Claims

/-! ### WellFormed: an ill-formed term for every check -/

def reg3 (d a b : BitVec 7) : RegOp := { s := false, c := false, d := d, a := a, b := b, t := false, lit := 0 }
def mem0 : MemOp :=
  { s := false, c := false, d := 0, voff := 126, wsel := 14, bnd := 0, ord := 0, scope := 0, size := 2, aop := 0, policy := 0
    mode := 0, off := 0 }
def ferry0 : FerryOp :=
  { s := false, c := false, tag := 0, bnd := 0, ord := 0, scope := 0, vdst := 126, vsrc := 126, dsel := 14, ssel := 0 }
def feedR : FeedRegOp := { s := false, c := false, va := 0, vo := 126, bnd := 0, scope := 0, arr := false, dw := false }
def feedM : FeedMemOp :=
  { s := false, c := false, va := 126, vo := 126, bnd := 0, ord := 0, scope := 0, ssel := 0, len := 0, arr := false
    dw := false }
def drainR : DrainRegOp := { s := false, c := false, vd := 0, bnd := 0, scope := 0, row := 0, seg := 0, arr := false }
def drainM : DrainMemOp :=
  { s := false, c := false, vd := 126, dsel := 14, bnd := 0, ord := 0, scope := 0, row := 0, nrm1 := 0, fmt := 0
    sat := false, arr := false }
def cvt0 : CvtOp := { s := false, c := false, d := 0, a := 0, p := 0, fmt := false, sat := false, t := false }
def gmem0 : GMemOp := { d := 1, a := 0, b := 0, ord := 0, scope := 0, size := 3, bnd := 0 }
def gatom0 : GAtomOp := { d := 1, a := 0, b := 0, ord := 0, scope := 0, size := true, aop := 0, adopt := false }
def ldb0 : LdbOp := { d := 1, a := 0, b := 0, plane := false, size := false, acq := false, scope := 0, bnd := 0 }
def scale0 : ScaleOp := { d := 1, a := 0, b := 0, which := 0, acq := false, scope := 0, bnd := 0 }
def win0 : WinOp := { a := 1, en := false, dil := false, str := false, kw := 0, kh := 0 }
def mul0 : CubeMulOp := { d := 0, a := 1, b := 2, fin := 0, rel := false, scope := 0, bnd := 0 }

theorem test_wf_literal : (Instr.iadd { reg3 0 0 1 with lit := 1 }).wf = false := by decide
theorem test_wf_compare_literal :
    (Instr.icmpeq { s := false, c := false, d := 0, a := 0, b := 1, lit := 1 }).wf = false := by decide
theorem test_wf_shift : (Instr.ishlImm { s := false, c := false, d := 0, a := 0, i := 32 }).wf = false := by decide
theorem test_wf_part : (Instr.cvtfi { cvt0 with p := 2 }).wf = false ∧ (Instr.cvthf { cvt0 with sat := true }).wf = false ∧
    (Instr.cvtfh { cvt0 with fmt := true }).wf = false ∧ (Instr.cvt8f { cvt0 with sat := true }).wf = false := by decide
theorem test_wf_pause : (Instr.pause false false 0).wf = false := by decide
theorem test_wf_ldx : (Instr.ldx { mem0 with ord := 2 }).wf = false ∧ (Instr.ldx { mem0 with size := 5 }).wf = false ∧
    (Instr.ldx { mem0 with aop := 1 }).wf = false ∧ (Instr.ldx { mem0 with mode := 1 }).wf = false := by decide
theorem test_wf_stx : (Instr.stx { mem0 with ord := 1 }).wf = false ∧ (Instr.stx { mem0 with mode := 3 }).wf = false := by
  decide
theorem test_wf_atom : (Instr.atom { mem0 with size := 1 }).wf = false ∧
    (Instr.atom { mem0 with size := 3, aop := 3 }).wf = false ∧ (Instr.atom { mem0 with aop := 11 }).wf = false := by decide
theorem test_wf_ldw : (Instr.ldw { mem0 with size := 1 }).wf = false ∧ (Instr.ldw { mem0 with voff := 1 }).wf = false := by
  decide
theorem test_wf_pref : (Instr.pref mem0).wf = false ∧ (Instr.pref { mem0 with d := 126, policy := 2 }).wf = false ∧
    (Instr.stflush { mem0 with d := 126, policy := 3 }).wf = false ∧
    (Instr.stunmap { mem0 with d := 126, policy := 2 }).wf = false := by decide
theorem test_wf_ferry : (Instr.ferryG2s { ferry0 with dsel := 0 }).wf = false ∧ (Instr.ferryS2g ferry0).wf = false ∧
    (Instr.ferryG2g ferry0).wf = false ∧ (Instr.ferryS2s { ferry0 with dsel := 0 }).wf = false ∧
    (Instr.ferryEgh ferry0).wf = false ∧ (Instr.ferryEgp ferry0).wf = false := by decide
theorem test_wf_nbar : (Instr.nbar false false 3 0).wf = false := by decide
theorem test_wf_srd : (Instr.srd false false 0 0x0E).wf = false ∧ (Instr.gsrd 1 0x13).wf = false := by decide
theorem test_wf_spill : (Instr.pushm false false 3 2).wf = false ∧ (Instr.popm false false 3 2).wf = false := by decide
theorem test_wf_feed : (Instr.feedRegisterForm { feedR with arr := true }).wf = false ∧
    (Instr.feedMemoryForm { feedM with arr := true }).wf = false ∧ (Instr.feedMemoryForm { feedM with ord := 2 }).wf = false := by
  decide
theorem test_wf_drain : (Instr.drainCubeMemoryForm { drainM with ord := 1 }).wf = false ∧
    (Instr.drainCubeMemoryForm { drainM with fmt := 5 }).wf = false ∧
    (Instr.drainCubeMemoryForm { drainM with row := 127, nrm1 := 1 }).wf = false := by decide
theorem test_wf_generator_memory : (Instr.gld { gmem0 with ord := 2 }).wf = false ∧
    (Instr.gst { gmem0 with ord := 1 }).wf = false ∧ (Instr.gatom { gatom0 with aop := 3 }).wf = false ∧
    (Instr.gatom { gatom0 with aop := 11 }).wf = false ∧ (Instr.gfence 1 0).wf = false := by decide
theorem test_wf_emit : (Instr.emit { d := 0, a := 1, b := 1 } 0).wf = false := by decide
theorem test_wf_launch : (Instr.glaunchPeer 0 1 0).wf = false := by decide
theorem test_wf_gpause : (Instr.gpause 0).wf = false := by decide
theorem test_wf_cube : (Instr.cubeMode 1 0x180).wf = false ∧ (Instr.cubeMode 1 0x004).wf = false ∧
    (Instr.cubeLdb { ldb0 with scope := 1 }).wf = false ∧ (Instr.cubeScale { scale0 with which := 3 }).wf = false ∧
    (Instr.cubeScale { scale0 with scope := 1 }).wf = false ∧ (Instr.cubeWin { win0 with kw := 7 }).wf = false ∧
    (Instr.cubeWin { win0 with kh := 7 }).wf = false := by decide
theorem test_wf_cube_mul : (Instr.cubeMul { mul0 with fin := 3 }).wf = false ∧ (Instr.cubeMul { mul0 with rel := true }).wf = false ∧
    (Instr.cubeMul { mul0 with scope := 1 }).wf = false ∧ (Instr.cubeMul { mul0 with d := 1 }).wf = false := by decide

/-! ### Decoding: words written out from the manual's layouts, at least one of every family -/

/-- R41, R59: IADD.S v1, v2, v3 (op 0x01). -/
theorem test_decode_register :
    decodeWide (2 ^ 31 + 0x01 * 2 ^ 22 + 1 * 2 ^ 15 + 2 * 2 ^ 8 + 3 * 2) 0 = .ok (.iadd { reg3 1 2 3 with s := true }) := rfl

/-- R41, R50: HFMA v4, v5, =0x3C003C00 (op 0x22, vb 127). -/
theorem test_decode_literal : decodeWide (0x22 * 2 ^ 22 + 4 * 2 ^ 15 + 5 * 2 ^ 8 + 127 * 2) 0x3C003C00 =
    .ok (.hfma { reg3 4 5 127 with lit := 0x3C003C00 }) := rfl

/-- R41, R59: FRCP.t v1, v2 (op 0x17, vb 0, T). -/
theorem test_decode_unary : decodeWide (0x17 * 2 ^ 22 + 1 * 2 ^ 15 + 2 * 2 ^ 8 + 1) 0 =
    .ok (.frcp { s := false, c := false, d := 1, a := 2, t := true }) := rfl

/-- R41, R59: FCMPLE.C k1, v2, v3 (op 0x1E). -/
theorem test_decode_compare : decodeWide (2 ^ 30 + 0x1E * 2 ^ 22 + 1 * 2 ^ 15 + 2 * 2 ^ 8 + 3 * 2) 0 =
    .ok (.fcmple { s := false, c := true, d := 1, a := 2, b := 3, lit := 0 }) := rfl

/-- R41: CVTF8 v1, v2: part 3, E5M2, saturating: vb = 3 + 4 + 8 (op 0x2E). -/
theorem test_decode_conversion : decodeWide (0x2E * 2 ^ 22 + 1 * 2 ^ 15 + 2 * 2 ^ 8 + 15 * 2) 0 =
    .ok (.cvtf8 { cvt0 with d := 1, a := 2, p := 3, fmt := true, sat := true }) := rfl

/-- R59: VDOT8.e5m2 v1, v2, v4, #1 (op 0x33). -/
theorem test_decode_dot : decodeWide (0x33 * 2 ^ 22 + 1 * 2 ^ 15 + 2 * 2 ^ 8 + 4 * 2) 0 =
    .ok (.vdot8 { s := false, c := false, f := true, h := true, d := 1, a := 2, b := 4, t := false }) := rfl

/-- R42, R60: ISAR v1, v2, #31 (op 0x08) and FFMA v1, v2, kc[511] (op 0x15). -/
theorem test_decode_immediate : decodeWide (1 * 2 ^ 28 + 0x08 * 2 ^ 23 + 1 * 2 ^ 16 + 2 * 2 ^ 9 + 31) 0 =
      .ok (.isarImm { s := false, c := false, d := 1, a := 2, i := 31 }) ∧
    decodeWide (1 * 2 ^ 28 + 0x15 * 2 ^ 23 + 1 * 2 ^ 16 + 2 * 2 ^ 9 + 511) 0 =
      .ok (.ffmaKc { s := false, c := false, d := 1, a := 2, i := 511 }) := ⟨rfl, rfl⟩

/-- R42, R60: FNMA.adopt v1, v2, v126 (op 0x1C). -/
theorem test_decode_adopt : decodeWide (1 * 2 ^ 28 + 0x1C * 2 ^ 23 + 1 * 2 ^ 16 + 2 * 2 ^ 9 + 126) 0 =
    .ok (.fnmaAdopt { s := false, c := false, d := 1, a := 2, b := 126 }) := rfl

/-- R44, R62: JMP −1 (op 0x02), BR.uz w15, −1 (op 0x05), REGANG #0xFF (op 0x07), PMAND k7 (op 0x10). -/
theorem test_decode_control : decodeWide (0x34000000 + 0x02 * 2 ^ 21 + 0x1FFFFF) 0 = .ok (.jmp false false 0x1FFFFF) ∧
    decodeWide (0x34000000 + 0x05 * 2 ^ 21 + 15 * 2 ^ 17 + 0x1FFFF) 0 = .ok (.brUz false false 15 0x1FFFF) ∧
    decodeWide (0x34000000 + 0x07 * 2 ^ 21 + 0xFF) 0 = .ok (.regang false false 0xFF) ∧
    decodeWide (0x34000000 + 0x10 * 2 ^ 21 + 7 * 2 ^ 18) 0 = .ok (.pmand false false 7) := ⟨rfl, rfl, rfl, rfl⟩

/-- R44, R51, R61: ATOM (op 0x3): CAS of 64 bits, acq_rel at SYSTEM, adopt, policy 3, offset −1. -/
theorem test_decode_memory : decodeWide (0x30000000 + 0x3 * 2 ^ 22 + 8 * 2 ^ 15 + 1 * 2 ^ 8 + 13 * 2 ^ 4 + 15)
      (3 * 2 ^ 30 + 7 * 2 ^ 27 + 3 * 2 ^ 24 + 1 * 2 ^ 20 + 3 * 2 ^ 18 + 1 * 2 ^ 16 + 0xFFFF) =
    .ok (.atom { s := false, c := false, d := 8, voff := 1, wsel := 13, bnd := 15, ord := 3, scope := 7, size := 3, aop := 1
                 policy := 3, mode := 1, off := 0xFFFF }) := rfl

/-- R63, R268: FERRY.s2s #63, bnd 15 (op 0x01, kind 3): acquire at CORE, vdst 2, vsrc 3, dsel 13, ssel 15. -/
theorem test_decode_ferry : decodeWide (0x38000000 + 0x01 * 2 ^ 20 + 3 * 2 ^ 17 + 63 * 2 ^ 11 + 15 * 2 ^ 7)
      (1 * 2 ^ 30 + 2 * 2 ^ 27 + 2 * 2 ^ 20 + 3 * 2 ^ 13 + 13 * 2 ^ 9 + 15 * 2 ^ 5) =
    .ok (.ferryS2s { s := false, c := false, tag := 63, bnd := 15, ord := 1, scope := 2, vdst := 2, vsrc := 3, dsel := 13
                     ssel := 15 }) := rfl

/-- R63: TAGRD w3, #1 (0x06), STOLD v1, v2, v63 (0x15), MBRD w1, mb2 (0x19), NBAR.pod #15 (0x22). -/
theorem test_decode_engine : decodeWide (0x38000000 + 0x06 * 2 ^ 20 + 2 ^ 8 + 3 * 2 ^ 4) 0 = .ok (.tagrd false false true 3) ∧
    decodeWide (0x38000000 + 0x15 * 2 ^ 20 + 1 * 2 ^ 13 + 2 * 2 ^ 6 + 63) 0 = .ok (.stold false false 1 2 63) ∧
    decodeWide (0x38000000 + 0x19 * 2 ^ 20 + 2 * 2 ^ 4 + 1) 0 = .ok (.mbrd false false 2 1) ∧
    decodeWide (0x38000000 + 0x22 * 2 ^ 20 + 2 * 2 ^ 6 + 15 * 2 ^ 2) 0 = .ok (.nbar false false 2 15) := ⟨rfl, rfl, rfl, rfl⟩

/-- R63: CONTAIN.OPEN −1 (0x24), SRD v1, #0x0D (0x29), PUSHM v1..v2 (0x30), FENCE.all.system (0x32), WMOV w1, v2, #31
(0x33), VBCAST v1, w2, #1 (0x34), WADDI w1, w2, #−1 (0x35). -/
theorem test_decode_system : decodeWide (0x38000000 + 0x24 * 2 ^ 20 + 0xFFFFF) 0 = .ok (.containOpen false false 0xFFFFF) ∧
    decodeWide (0x38000000 + 0x29 * 2 ^ 20 + 1 * 2 ^ 13 + 0x0D) 0 = .ok (.srd false false 1 0x0D) ∧
    decodeWide (0x38000000 + 0x30 * 2 ^ 20 + 1 * 2 ^ 13 + 2 * 2 ^ 6) 0 = .ok (.pushm false false 1 2) ∧
    decodeWide (0x38000000 + 0x32 * 2 ^ 20 + 3 * 2 ^ 18 + 7 * 2 ^ 15) 0 = .ok (.fence false false 3 7) ∧
    decodeWide (0x38000000 + 0x33 * 2 ^ 20 + 1 * 2 ^ 16 + 2 * 2 ^ 9 + 31) 0 = .ok (.wmov false false 1 2 31) ∧
    decodeWide (0x38000000 + 0x34 * 2 ^ 20 + 1 * 2 ^ 13 + 1 * 2 ^ 4 + 2) 0 = .ok (.vbcast false false 1 true 2) ∧
    decodeWide (0x38000000 + 0x35 * 2 ^ 20 + 1 * 2 ^ 16 + 2 * 2 ^ 12 + 0xFFF) 0 = .ok (.waddi false false 1 2 0xFFF) :=
  ⟨rfl, rfl, rfl, rfl, rfl, rfl, rfl⟩

/-- R310, R311: FEED of both forms and DRAIN of both forms. -/
theorem test_decode_feed_drain :
    decodeWide (0x3B800000 + 1 * 2 ^ 13 + 2 * 2 ^ 6 + 1 * 2 ^ 5 + 3) (1 * 2 ^ 7 + 1 * 2 ^ 6) =
      .ok (.feedRegisterForm { s := false, c := false, va := 1, vo := 2, bnd := 3, scope := 0, arr := true, dw := true }) ∧
    decodeWide (0x3B800000 + 1 * 2 ^ 13 + 2 * 2 ^ 6) (1 * 2 ^ 30 + 4 * 2 ^ 27 + 14 * 2 ^ 23 + 0x7FFF * 2 ^ 8 + 1 * 2 ^ 6) =
      .ok (.feedMemoryForm { s := false, c := false, va := 1, vo := 2, bnd := 0, ord := 1, scope := 4, ssel := 14
                             len := 0x7FFF, arr := false, dw := true }) ∧
    decodeWide (0x3B900000 + 1 * 2 ^ 13 + 1 * 2 ^ 8) (127 * 2 ^ 20 + 1 * 2 ^ 8 + 3 * 2 ^ 6) =
      .ok (.drainCubeRegisterForm { s := false, c := false, vd := 1, bnd := 0, scope := 0, row := 127, seg := 3, arr := true }) ∧
    decodeWide (0x3B900000 + 1 * 2 ^ 13 + 14 * 2 ^ 9) (2 * 2 ^ 30 + 4 * 2 ^ 27 + 3 * 2 ^ 20 + 124 * 2 ^ 13 + 4 * 2 ^ 10 + 2 ^ 9) =
      .ok (.drainCubeMemoryForm { s := false, c := false, vd := 1, dsel := 14, bnd := 0, ord := 2, scope := 4, row := 3
                                  nrm1 := 124, fmt := 4, sat := true, arr := false }) := ⟨rfl, rfl, rfl, rfl⟩

/-- R57, R64: MULHU g1, g2, g3 (0x00, func 4), SHLI g1, g2, #63 (0x05), LUI g1, #0xFFFF (0x09), BGEU g1, g2, −1 (0x1D),
JAL −1 (0x1F). -/
theorem test_decode_generator : decodeGen false (1 * 2 ^ 21 + 2 * 2 ^ 16 + 3 * 2 ^ 11 + 4) = .ok (.mulhu { d := 1, a := 2, b := 3 }) ∧
    decodeGen false (0x05 * 2 ^ 26 + 1 * 2 ^ 21 + 2 * 2 ^ 16 + 63) = .ok (.shli 1 2 63) ∧
    decodeGen false (0x09 * 2 ^ 26 + 1 * 2 ^ 21 + 0xFFFF) = .ok (.lui 1 0xFFFF) ∧
    decodeGen false (0x1D * 2 ^ 26 + 1 * 2 ^ 21 + 2 * 2 ^ 16 + 0xFFFF) = .ok (.bgeu { a := 1, b := 2, j := 0xFFFF }) ∧
    decodeGen false (0x1F * 2 ^ 26 + 0x3FFFFFF) = .ok (.jal 0x3FFFFFF) := ⟨rfl, rfl, rfl, rfl, rfl⟩

/-- R64: GST.rel.system g1 (0x11) with bound 15, GATOM (0x12) of 64 bits with op 10, GFENCE.all.system (0x15). -/
theorem test_decode_generator_memory :
    decodeGen false (0x11 * 2 ^ 26 + 1 * 2 ^ 21 + 2 * 2 ^ 16 + 3 * 2 ^ 11 + 2 * 2 ^ 9 + 7 * 2 ^ 6 + 3 * 2 ^ 4 + 15) =
      .ok (.gst { d := 1, a := 2, b := 3, ord := 2, scope := 7, size := 3, bnd := 15 }) ∧
    decodeGen false (0x12 * 2 ^ 26 + 1 * 2 ^ 21 + 2 * 2 ^ 16 + 3 * 2 ^ 11 + 3 * 2 ^ 9 + 7 * 2 ^ 6 + 1 * 2 ^ 5 + 10 * 2 + 1) =
      .ok (.gatom { d := 1, a := 2, b := 3, ord := 3, scope := 7, size := true, aop := 10, adopt := true }) ∧
    decodeGen false (0x15 * 2 ^ 26 + 3 * 2 ^ 3 + 7) = .ok (.gfence 3 7) := ⟨rfl, rfl, rfl⟩

/-- R64: EMIT.ientry g1, g2, g3 (0x20), GSTEER #15, #0xFF, g2 (0x29), GMBPEEK g1, mb15 (0x2D), GLAUNCH.peer g1, g2, #63
(0x2F), GSRD g1, #0x12 (0x32), GTRAP (0x33). -/
theorem test_decode_flume : decodeGen false (0x20 * 2 ^ 26 + 1 * 2 ^ 21 + 2 * 2 ^ 16 + 3 * 2 ^ 11 + 3) =
      .ok (.emit { d := 1, a := 2, b := 3 } 3) ∧
    decodeGen false (0x29 * 2 ^ 26 + 2 * 2 ^ 16 + 15 * 2 ^ 12 + 0xFF * 2 ^ 4) = .ok (.gsteer 2 15 0xFF) ∧
    decodeGen false (0x2D * 2 ^ 26 + 1 * 2 ^ 21 + 2 ^ 15 + 15) = .ok (.gmbpeek 1 15) ∧
    decodeGen false (0x2F * 2 ^ 26 + 1 * 2 ^ 21 + 2 * 2 ^ 16 + 63) = .ok (.glaunchPeer 1 2 63) ∧
    decodeGen false (0x32 * 2 ^ 26 + 1 * 2 ^ 21 + 0x12) = .ok (.gsrd 1 0x12) ∧
    decodeGen false (0x33 * 2 ^ 26 + 0xFFFF) = .ok (.gtrap 0xFFFF) := ⟨rfl, rfl, rfl, rfl, rfl, rfl⟩

/-- R302: the cube's words, which a control core alone takes (R65). -/
theorem test_decode_cube : decodeGen true (0xE0000000 + 3 * 2 ^ 21 + 1 * 2 ^ 16 + 2 * 2 ^ 11) =
      .ok (.cubeShape { d := 3, a := 1, b := 2 }) ∧
    decodeGen true (0xE8000000 + 3 * 2 ^ 21 + 1 * 2 ^ 16 + 2 * 2 ^ 11 + 2 ^ 10 + 2 ^ 9 + 2 ^ 7 + 5 * 2 ^ 4 + 15) =
      .ok (.cubeLdb { d := 3, a := 1, b := 2, plane := true, size := true, acq := true, scope := 5, bnd := 15 }) ∧
    decodeGen true (0xF4000000 + 3 * 2 ^ 21 + 1 * 2 ^ 16 + 2 * 2 ^ 11 + 2 * 2 ^ 9 + 2 ^ 8 + 5 * 2 ^ 4 + 1) =
      .ok (.cubeMul { d := 3, a := 1, b := 2, fin := 2, rel := true, scope := 5, bnd := 1 }) ∧
    decodeGen true 0xF8000001 = .ok .cubeZero ∧ decodeGen true (0xF8000002 + 4 * 2 ^ 16) = .ok (.cubeWait 4) ∧
    decodeGen false 0xF8000001 = .error .wrongProcessor ∧ decodeGen true (0x24 * 2 ^ 26) = .error .wrongProcessor :=
  ⟨rfl, rfl, rfl, rfl, rfl, rfl, rfl⟩

/-- R46, R52, R66: reserved fields and unassigned opcodes are no instruction. -/
theorem test_decode_refuses : (∀ i, decodeWide 0 0 ≠ .ok i) ∧ (∀ i, decodeWide 0x3C000000 0 ≠ .ok i) ∧
    (∀ i, decodeWide 0x34000001 0 ≠ .ok i) ∧ (∀ i, decodeWide 0x30400000 0x05000000 ≠ .ok i) ∧
    (∀ i, decodeGen false 0x2C000000 ≠ .ok i) ∧ ∀ i, decodeGen false 0x00000010 ≠ .ok i :=
  ⟨(fun _ h => nomatch h), (fun _ h => nomatch h), (fun _ h => nomatch h), (fun _ h => nomatch h), (fun _ h => nomatch h),
   (fun _ h => nomatch h)⟩

/-! ### States that meet the hypotheses of the statements -/

/-- One gang of 8 slices, every lane enabled, at ordinal 0. -/
def tGang : Gang := (Gang.fresh 0).start 0xFF 0 0

/-- A block of that gang, with two sealed words. -/
def tBlock (g : Gang) : Block := { placedBlock false with e := 2, s := 2, flume := [(0, Slot.zero)], gangs := [g] }

/-- A state whose word in hand is the first of the gang of `b`. -/
def tState (b : Block) : State := { State.reset.withBlock 0 b with cur := .wide 0 0 0 0xFF }

/-- The gang `g` with its word in hand. -/
def tOf (g : Gang) : State := tState (tBlock g)

/-- What the word in hand sees there. -/
def tEnvOf (g : Gang) : Env := ⟨tOf g, 0, 0, 0, tBlock g, g, Group.start 0xFF 0 0, (tOf g).now 0⟩

def tEnv : Env := tEnvOf tGang
def tS : State := tOf tGang

theorem test_env : tS.env? = some tEnv := rfl

/-- The word in hand is accepted whenever its register fields are legal in a gang of 120 registers: no run is open. -/
theorem test_accepts (h : How) (hf : (h.fields.all fun f => f.ok 120) = true) : tEnv.accepts h :=
  And.intro hf (by cases h with | mk s c p n l f => cases p <;> rfl)

/-- A state and a result, where the result is in order. -/
def okWith {σ ε α : Type} (p : α → Bool) (x : σ × Except ε α) : Bool :=
  match x.2 with
  | .ok a => p a
  | .error _ => false

theorem okWith_exists {σ ε α : Type} {p : α → Bool} {x : σ × Except ε α} (h : okWith p x = true) :
    ∃ t a, x = (t, .ok a) ∧ p a = true := by
  rcases x with ⟨t, _ | a⟩
  · exact nomatch h
  · exact ⟨t, a, rfl, h⟩

def immLo : ImmOp := { s := false, c := false, d := 0, a := 119, i := 0x100 }
def immHi : ImmOp := { s := true, c := true, d := 126, a := 0, i := 31 }
def cmp7 : CmpOp := { s := false, c := false, d := 7, a := 119, b := 127, lit := 1 }
def un0 : UnOp := { s := false, c := false, d := 119, a := 126, t := true }

/-- Witnesses of IntegerWordsCompute: registers 119, vz and the literal; the widest shift and the least immediate. -/
theorem test_witness_IntegerWordsCompute : tS.env? = some tEnv ∧
    (IntTwo (.iadd (reg3 119 126 127)) (reg3 119 126 127) fun a b => a + b) ∧
    tEnv.accepts (regHow (reg3 119 126 127)) ∧ tEnv.accepts (regHow (reg3 0 1 2)) ∧
    (IntImm (.iaddImm immLo) immLo fun a => a + BitVec.ofInt 32 immLo.i.toInt) ∧
    (IntImm (.ishlImm immHi) immHi fun a => BitVec.ofNat 32 (a.toNat * 2 ^ immHi.i.toNat)) ∧
    tEnv.accepts (immHow immLo) ∧ tEnv.accepts (immHow immHi) :=
  ⟨rfl, .iadd _, test_accepts _ rfl, test_accepts _ rfl, .iadd _, .ishl _ (by decide), test_accepts _ rfl, test_accepts _ rfl⟩

theorem test_witness_FloatWordsCompute : tS.env? = some tEnv ∧
    (FloatTwo (.fmin (reg3 119 126 127)) (reg3 119 126 127) fp32.fmin) ∧
    (∃ f, FloatThree (.ffma (reg3 119 126 127)) (reg3 119 126 127) f) ∧ tEnv.accepts (regHow (reg3 119 126 127)) ∧
    tEnv.accepts ⟨false, false, .fma, 1, false, [.v un0.d, .v un0.a]⟩ :=
  ⟨rfl, .fmin _, ⟨_, .ffma _⟩, test_accepts _ rfl, test_accepts _ rfl⟩

theorem test_witness_PackedWordsCompute : tS.env? = some tEnv ∧
    (PackedTwo (.hmax (reg3 119 126 127)) (reg3 119 126 127) fp16 fp16.fmax) ∧
    (∃ f, PackedThree (.bfma (reg3 119 126 127)) (reg3 119 126 127) f) ∧ tEnv.accepts (regHow (reg3 119 126 127)) :=
  ⟨rfl, .hmax _, ⟨_, .bfma _⟩, test_accepts _ rfl⟩

/-- The bank's last word of an immediate form is read; adopt and float-immediate words at register 119. -/
theorem test_witness_AdoptAndBankWordsCompute : tS.env? = some tEnv ∧
    (∃ o f, Adopt (.hfmaAdopt o) o f ∧ o.d = 119 ∧ tEnv.accepts ⟨o.s, o.c, .fma, 1, false, [.v o.d, .v o.a, .v o.b]⟩) ∧
    tEnv.accepts ⟨true, false, .fma, 1, false, [.v 119]⟩ ∧ tEnv.accepts (immHow { immLo with i := 0x1FF }) ∧
    (∃ t w, tS.kword tEnv.core tEnv.b 0x1FF = (t, .ok w) ∧ (!w.2) = true) ∧ ∃ f, KcTwo (.iaddKc immLo) immLo f :=
  ⟨rfl, ⟨{ s := false, c := false, d := 119, a := 126, b := 0 }, _, .hfma _, rfl, test_accepts _ rfl⟩, test_accepts _ rfl,
   test_accepts _ rfl, okWith_exists (p := fun w : Word × Bool => !w.2) (by decide +kernel), ⟨_, .iadd _⟩⟩

theorem test_witness_SpecialFunctionsArePosted : tS.env? = some tEnv ∧ (∃ f, Special (.flog2 un0) un0 f) ∧
    tEnv.accepts ⟨un0.s, un0.c, .sf, 1, false, [.v un0.d, .v un0.a]⟩ := ⟨rfl, ⟨_, .flog2 _⟩, test_accepts _ rfl⟩

/-- Conversions of the last part, and VDOT8 at the last pair of registers. -/
theorem test_witness_ConversionsAndDotProduct : tS.env? = some tEnv ∧
    (∃ f, CvtLane (.cvt8f { cvt0 with p := 3 }) { cvt0 with p := 3 } f) ∧
    (∃ f, CvtPart (.cvtf8 { cvt0 with p := 3 }) { cvt0 with p := 3 } 8 3 f) ∧ tEnv.accepts (cvtHow { cvt0 with p := 3 }) ∧
    tEnv.accepts ⟨false, false, .fma, 1, false, [.v 0, .pair 118, .pair 118]⟩ :=
  ⟨rfl, ⟨_, .cvt8f _⟩, ⟨_, .cvtf8 _⟩, test_accepts _ rfl, test_accepts _ rfl⟩

theorem test_witness_LaneMovementComputes : tS.env? = some tEnv ∧ tEnv.accepts { regHow (reg3 3 1 2) with pipe := .sf } ∧
    tEnv.accepts (regHow (reg3 3 1 127)) := ⟨rfl, test_accepts _ rfl, test_accepts _ rfl⟩

theorem test_witness_ComparesSetMasks : tS.env? = some tEnv ∧ (∃ p, Compare (.fcmplt cmp7) cmp7 p) ∧
    tEnv.accepts ⟨false, false, .fma, 2, false, [.kreg cmp7.d, .v cmp7.a, .b cmp7.b]⟩ ∧
    (∃ p, CompareImm (.icmpltImm { immLo with d := 7 }) { immLo with d := 7 } p) ∧
    tEnv.accepts ⟨false, false, .fma, 1, false, [.kreg 7, .v immLo.a]⟩ :=
  ⟨rfl, ⟨_, .fcmplt _⟩, test_accepts _ rfl, ⟨_, .icmplt _⟩, test_accepts _ rfl⟩

theorem test_witness_MaskLogicActsOnPresentLanes : tS.env? = some tEnv ∧
    (∃ o f, MaskOp (.kandn o) o f ∧ tEnv.accepts ⟨o.s, o.c, .fma, 1, false, [.kreg o.d, .kreg o.a, .kreg o.b]⟩) :=
  ⟨rfl, { s := false, c := false, d := 7, a := 0, b := 7 }, _, .kandn _, test_accepts _ rfl⟩

theorem test_witness_DivergenceWordsChangeMasks : tS.env? = some tEnv ∧ (∃ f, Diverge (.dmandn false true 7) false true 7 f) ∧
    tEnv.accepts (ctlHow false true) := ⟨rfl, ⟨_, .dmandn _ _ _⟩, test_accepts _ rfl⟩

/-- The gang with k1 set in slice 0 alone. -/
def tSplit : Gang := { tGang with k := vput tGang.k 1 0xF }

/-- Branches: taken by every slice, by none, by slice 0 alone; targets 0 and 2^32 − 1 at the edges, and one beyond; a group
that splits and one that comes back whole go on. -/
theorem test_witness_BranchWordsSplitGroups :
    (tS.env? = some tEnv ∧ tEnv.accepts (ctlHow false false) ∧ Branch tEnv (.jmp false false 0) false false 0 (fun _ => True) ∧
      (∀ j, j < 8 → ((0xFF : BitVec 8).getLsbD j = true ↔ tEnv.m.getLsbD j = true ∧ True)) ∧
      ((0 : Word).toNat : Int) = tEnv.pc.toNat + 0 ∧ (0xFF : BitVec 8) ≠ 0 ∧ 0xFF = tEnv.m ∧
      Branch tEnv (.jmp true false 0x1FFFFF) true false (-1) (fun _ => True) ∧ (tEnv.pc.toNat : Int) + -1 < 0) ∧
    ((tOf tSplit).env? = some (tEnvOf tSplit) ∧ (tEnvOf tSplit).accepts (ctlHow false false) ∧
      (∃ p, Branch (tEnvOf tSplit) (.brAny false false 1 5) false false 5 p ∧
        (∀ j, j < 8 → ((0x01 : BitVec 8).getLsbD j = true ↔ (tEnvOf tSplit).m.getLsbD j = true ∧ p j))) ∧
      (∃ p, Branch (tEnvOf tSplit) (.brAll false false 0 5) false false 5 p ∧
        (∀ j, j < 8 → ((0 : BitVec 8).getLsbD j = true ↔ (tEnvOf tSplit).m.getLsbD j = true ∧ p j))) ∧
      ((5 : Word).toNat : Int) = (tEnvOf tSplit).pc.toNat + 5 ∧ (0x01 : BitVec 8) ≠ (tEnvOf tSplit).m ∧
      (([(0x01, 5), (0xFE, 1)] : List (BitVec 8 × Word)).map (·.1)).Nodup) :=
  ⟨⟨rfl, test_accepts _ rfl, .jmp _ _ _, by decide, rfl, by decide, rfl, .jmp _ _ _, by decide⟩,
   ⟨rfl, And.intro rfl rfl, ⟨_, .any _ _ _ _, by decide⟩, ⟨_, .all _ _ _ _, by decide⟩, rfl, by decide, by decide⟩⟩

/-- A gang with the result of one load open. -/
def tWaits : Gang := tGang.pushPend (Pend.new 0xFF 0 (.uni 0 SVal.zero 0) 0)

/-- REGANG of slices of the group and beyond it (a group of slice 0 is in the next theorem); EXIT with and without an open
result; slices that exit. -/
theorem test_witness_ControlWordsAndExit : tS.env? = some tEnv ∧ tEnv.accepts (ctlHow true true) ∧
    (0xFF : BitVec 8) &&& ~~~tEnv.m = 0 ∧ tEnv.g.awaits tEnv.m = false ∧
    (tOf tWaits).env? = some (tEnvOf tWaits) ∧ (tEnvOf tWaits).accepts (ctlHow false false) ∧
    (tEnvOf tWaits).g.awaits (tEnvOf tWaits).m = true ∧
    tS.gang? 0 0 0 = some tGang ∧ ∀ x ∈ tGang.groups, x.mask = 0xFF :=
  ⟨rfl, test_accepts _ rfl, rfl, rfl, rfl, And.intro rfl rfl, rfl, rfl, by decide⟩

/-- A gang of two groups: slice 0 and the others. -/
def tTwo : Gang := { tGang with groups := [Group.start 0x01 0 0, Group.start 0xFE 0 0] }
def tTwoS : State := { tOf tTwo with cur := .wide 0 0 0 0x01 }

theorem test_witness_RegangWaits : ∃ e, tTwoS.env? = some e ∧ e.accepts (ctlHow false false) ∧ (0x80 : BitVec 8) &&& ~~~e.m ≠ 0 :=
  ⟨_, rfl, And.intro rfl rfl, by decide⟩

theorem test_witness_UniformMovesAndSpecialRegisters : tS.env? = some tEnv ∧ tEnv.accepts (sysHow false true .fma [.v 119]) ∧
    tEnv.accepts (sysHow true false .fma []) := ⟨rfl, test_accepts _ rfl, test_accepts _ rfl⟩

/-- PUSHM of six registers fills the 1,024 bytes to 960, of seven finds no room; POPM of what a gang holds, and of more. -/
theorem test_witness_SpillMovesFrames : tS.env? = some tEnv ∧ (114 : BitVec 7).toNat ≤ (119 : BitVec 7).toNat ∧
    tEnv.accepts (sysHow false false .mem [.strict 114, .strict 119]) ∧ tEnv.g.spp + 160 * 6 ≤ tEnv.b.shape.spill ∧
    tEnv.b.shape.spill < tEnv.g.spp + 160 * 7 ∧ tEnv.g.spp < 160 * 1 ∧
    (∃ e, (tOf { tGang with spp := 160, spill := [(0, VReg.zero)] }).env? = some e ∧
      e.accepts (sysHow false false .mem [.strict 119, .strict 119]) ∧ 160 * 1 ≤ e.g.spp) :=
  ⟨rfl, by decide, test_accepts _ rfl, by decide, by decide, by decide, ⟨_, rfl, And.intro rfl rfl, by decide⟩⟩

/-! Memory, engine and synchronisation words. -/

/-- An access of a lane, or a translation, with nothing that stops it. -/
theorem reach_exists {x : State × Option LateCause × Bool} (h : (x.2.1.isNone && !x.2.2) = true) :
    ∃ t, x = (t, none, false) := by
  rcases x with ⟨t, _ | c, _ | _⟩
  · exact ⟨t, rfl⟩
  all_goals exact nomatch h

theorem got_exists {x : State × List (Nat × Got) × Option LateCause} (h : x.2.2.isNone = true) :
    ∃ t g, x = (t, g, none) := by
  rcases x with ⟨t, g, _ | c⟩
  · exact ⟨t, g, rfl⟩
  · exact nomatch h

/-- Addresses at the ends of what is canonical; the tests one by one, each at its boundary. -/
theorem test_witness_AddressesAndTests : ({ mem0 with wsel := 13 } : MemOp).wsel.toNat < 14 ∧ mem0.wsel = 14 ∧
    (∀ p ∈ ([(0, .scratch 0), (31, .global 0)] : List (Nat × LaneAddr)), p.2 ≠ .extent ∧ ∀ va, p.2 ≠ .badVa va) ∧
    ({ mem0 with ord := 1, scope := 3 } : MemOp).ord ≠ 0 ∧ (3 : Nat) ≤ ({ mem0 with ord := 1, scope := 3 } : MemOp).scope.toNat ∧
    14 ≤ mem0.wsel.toNat ∧ ({ mem0 with mode := 2 } : MemOp).mode = 2 ∧ (tS.ctx tEnv.b.ctx).restamp = false ∧
    (∃ p ∈ ([(0, .stall)] : List (Nat × LaneAddr)), p.2 = .stall) :=
  ⟨by decide, rfl, by simp, by decide, by decide, by decide, rfl, rfl, _,
   List.mem_singleton_self _, rfl⟩

/-- A gang with no active lane, and one with lane 31 alone. -/
def tNone : Gang := { tGang with pmask := 0 }
def tLast : Gang := { tGang with pmask := 0x80000000 }

def gmem : MemOp := { mem0 with wsel := 0 }

/-- Loads of the plain scratchpad and of device memory by 32 lanes, of none, and LDW of both. -/
theorem test_witness_LoadsArePosted : tS.env? = some tEnv ∧ tEnv.accepts (memHow mem0 [.group mem0.d mem0.regs, .v mem0.voff]) ∧
    tEnv.act ≠ 0 ∧ tEnv.memTests mem0 (tEnv.lanes mem0) (tEnv.misaligned mem0 (tEnv.lanes mem0)) = none ∧
    (∃ t, tS.reach 0 0 0 (.word tEnv.m) 0 false 4 true (tEnv.lanes mem0) = (t, none, false)) ∧
    (∃ t g, (tEnv.meetWheel mem0 tS).acquiring tEnv.ws mem0.acq? (fun t => tEnv.reads mem0 false (tEnv.lanes mem0) t (tEnv.lanes mem0)) =
      (t, g, none)) ∧
    (∀ q ∈ tEnv.lanes mem0, ∃ off, q.2 = .scratch off) ∧
    (∃ t, tS.reach 0 0 0 (.word tEnv.m) 0 false 4 true (tEnv.lanes gmem) = (t, none, false)) ∧
    (∃ e, (tOf tNone).env? = some e ∧ e.accepts (memHow mem0 [.group mem0.d mem0.regs, .v mem0.voff]) ∧ e.act = 0) ∧
    tEnv.accepts (memHow { mem0 with size := 3 } [.wreg 0]) ∧
    tEnv.memTests { mem0 with size := 3 } [(0, tEnv.address { mem0 with size := 3 } 0)] false = none ∧
    (let o : MemOp := { mem0 with size := 3, ord := 1, scope := 2 }
     let l := [(0, tEnv.address o 0)]
     ∃ t got, tS.acquiring tEnv.ws o.acq? (fun t => tEnv.reads o true l t l) = (t, [(0, got)], none)) :=
  ⟨rfl, test_accepts _ rfl, by decide, rfl, reach_exists (by decide +kernel), got_exists (by decide +kernel),
   by
     have h : (tEnv.lanes mem0).all (fun q => q.2 == .scratch 0) = true := by decide +kernel
     intro q hq
     exact ⟨0, by simpa using List.all_eq_true.mp h q hq⟩,
   reach_exists (by decide +kernel), ⟨_, rfl, And.intro rfl rfl, by decide⟩, test_accepts _ rfl, rfl, ⟨_, _, rfl⟩⟩

/-- A store of 32 lanes to one place, of lane 31 alone, and the other hypotheses. -/
theorem test_witness_ScratchStoresWriteTheirBytes : tS.env? = some tEnv ∧ mem0.wsel = 14 ∧ mem0.ord = 0 ∧
    tEnv.accepts (memHow mem0 [.group mem0.d mem0.regs, .v mem0.voff]) ∧ tEnv.act ≠ 0 ∧ bytesWf tEnv.b.sp.bytes = true ∧
    tEnv.memTests mem0 (tEnv.lanes mem0) (tEnv.misaligned mem0 (tEnv.lanes mem0)) = none ∧
    tEnv.storeFails mem0.bnd.toNat (fun j => tEnv.groupStamp mem0.d.toNat mem0.regs j) = false ∧
    (31, LaneAddr.scratch 0) ∈ tEnv.lanes mem0 ∧ (3, (0 : Byte)) ∈ laneStore tEnv mem0 31 0 ∧
    (∀ M of, 31 < M → (M, LaneAddr.scratch of) ∈ tEnv.lanes mem0 → 3 < of ∨ of + 2 ^ mem0.size.toNat ≤ 3) ∧
    tEnv.b.sp.bad (3 / 32) = false :=
  ⟨rfl, rfl, rfl, test_accepts _ rfl, by decide, rfl, rfl, by decide +kernel, by decide +kernel, by decide +kernel,
   by
     have h : (tEnv.lanes mem0).all (fun q => decide (q.1 < 32)) = true := by decide +kernel
     intro M of hM hin
     have := List.all_eq_true.mp h _ hin
     simp at this
     omega,
   rfl⟩

/-- A gang with a write not yet acknowledged. -/
def tWrites : Gang := { tGang with outst := [(0, 0)] }
def rmem : MemOp := { gmem with ord := 2, scope := 7 }

theorem test_witness_StoresComplete : tS.env? = some tEnv ∧ tEnv.accepts (memHow gmem [.group gmem.d gmem.regs, .v gmem.voff]) ∧
    tEnv.act ≠ 0 ∧ tEnv.memTests gmem (tEnv.lanes gmem) (tEnv.misaligned gmem (tEnv.lanes gmem)) = none ∧
    tEnv.releaseWait gmem = (tS, false) ∧
    tEnv.storeBound 0 tS (tEnv.storeFails 0 fun j => tEnv.groupStamp gmem.d.toNat gmem.regs j) = (tS, none) ∧
    (∃ t, tS.reach 0 0 0 (.word tEnv.m) 0 true 4 true (tEnv.lanes gmem) = (t, none, false)) ∧
    (∃ e t, (tOf tWrites).env? = some e ∧ e.accepts (memHow rmem [.group rmem.d rmem.regs, .v rmem.voff]) ∧
      e.memTests rmem (e.lanes rmem) (e.misaligned rmem (e.lanes rmem)) = none ∧ e.releaseWait rmem = (t, true)) ∧
    (∃ e, (tOf tNone).env? = some e ∧ e.act = 0) :=
  ⟨rfl, test_accepts _ rfl, by decide, rfl, rfl, by decide +kernel, reach_exists (by decide +kernel),
   ⟨_, _, rfl, And.intro rfl rfl, rfl, rfl⟩, ⟨_, rfl, by decide⟩⟩

theorem test_witness_ScratchAtomicsPerform : ∃ e, (tOf tLast).env? = some e ∧ mem0.wsel = 14 ∧ mem0.ord = 0 ∧ mem0.mode ≠ 2 ∧
    e.accepts (memHow mem0 [.group mem0.d mem0.atomGroup, .v mem0.voff]) ∧ e.lanes mem0 = [(31, .scratch 0)] ∧
    0 % 2 ^ mem0.size.toNat = 0 ∧ e.misaligned mem0 (e.lanes mem0) = false ∧ mem0.bnd = 0 ∧ mem0.scope.toNat ≤ 2 ∧
    e.b.sp.bad (0 / 32) = false ∧
    (∃ x, atomSpec mem0.aop.toNat (2 ^ mem0.size.toNat) (e.b.sp.nat 0 (2 ^ mem0.size.toNat))
      (leVal (e.laneBytes mem0.operandReg (2 ^ mem0.size.toNat) 31)) (leVal (e.laneBytes mem0.d.toNat (2 ^ mem0.size.toNat) 31)) =
        some x) ∧
    atomSpec 1 4 0 5 1 = none :=
  ⟨_, rfl, rfl, rfl, by decide, And.intro rfl rfl, rfl, rfl, rfl, rfl, by decide, rfl, ⟨_, rfl⟩, rfl⟩

def pref0 : MemOp := { mem0 with d := 126, policy := 1 }

theorem ends_with {α : Type} {x : State × α} {a : α} (h : x.2 = a) : ∃ t, x = (t, a) := ⟨x.1, by rw [← h]⟩

/-- A line that can be reached, and one beyond what is mapped. -/
theorem test_witness_PrefetchWordsComplete : tS.env? = some tEnv ∧ tEnv.accepts (memHow pref0 [.v pref0.voff]) ∧
    14 ≤ pref0.wsel.toNat ∧ ({ pref0 with wsel := 13 } : MemOp).wsel.toNat < 14 ∧ linesOf 127 1 = [0] ∧
    (∃ t, tEnv.prefOk 0 tS 0 = (t, true)) ∧ linesOf 0x100000000 4 = [0x100000000] ∧
    ∃ t, tEnv.prefOk 0 tS 0x100000000 = (t, false) :=
  ⟨rfl, test_accepts _ rfl, by decide, by decide, by decide, ends_with (by decide +kernel), by decide, ends_with (by decide +kernel)⟩

def ferryIn : FerryOp := { ferry0 with tag := 63 }

/-- FERRY.G2S of 4 bytes under tag 63: every test passes; with PITCH bit 0 the shape is refused; a pending tag. -/
theorem test_witness_FerryWordsIssue : tS.env? = some tEnv ∧ FerryWord (.ferryG2s ferryIn) ferryIn .g2s ∧
    tEnv.accepts ⟨ferryIn.s, ferryIn.c, .mem, 2, false, [.v ferryIn.vdst, .v ferryIn.vsrc]⟩ ∧ tEnv.act ≠ 0 ∧
    (let c := tEnv.ferryCmd ferryIn .g2s
     c.shapeOk = true ∧ tEnv.b.sideFits c.src c.srcWheel c.size = true ∧ tEnv.b.sideFits c.dst c.dstWheel c.size = true ∧
       sideAligned c.src c.srcWheel c.esize = true ∧ sideAligned c.dst c.dstWheel c.esize = true ∧
       tEnv.b.tagpend.getLsbD 63 = false ∧ tEnv.b.meetsStash c c.src = false ∧ tEnv.b.meetsStash c c.dst = false) ∧
    (∃ e, (tOf { tGang with w := vput tGang.w 15 ⟨1, ageless⟩ }).env? = some e ∧
      e.accepts ⟨ferryIn.s, ferryIn.c, .mem, 2, false, [.v ferryIn.vdst, .v ferryIn.vsrc]⟩ ∧ e.act ≠ 0 ∧
      (e.ferryCmd ferryIn .g2s).shapeOk = false) ∧
    (∃ e, (tState { tBlock tGang with tagpend := 0x8000000000000000 }).env? = some e ∧ e.b.tagpend.getLsbD 63 = true ∧
      (e.ferryCmd ferryIn .g2s).shapeOk = true) ∧
    ∃ e, (tOf tNone).env? = some e ∧ e.act = 0 :=
  ⟨rfl, .g2s _, test_accepts _ rfl, by decide, ⟨rfl, rfl, rfl, rfl, rfl, rfl, rfl, rfl⟩,
   ⟨_, rfl, And.intro rfl rfl, by decide, rfl⟩, ⟨_, rfl, rfl, rfl⟩, ⟨_, rfl, by decide⟩⟩

/-- Tags: an empty mask, a mask of which tag 63 is complete and none, TAGFIND at 0, at 63 and at 64. -/
theorem test_witness_TagWordsComplete : tS.env? = some tEnv ∧ tEnv.accepts (engHow false false) ∧ (tEnv.wreg 0).val = 0 ∧
    (∃ e, (tState { tBlock { tGang with w := vput tGang.w 1 ⟨0x8000000000000000, ageless⟩ } with tags := 0x8000000000000000 }).env? =
        some e ∧ e.accepts (engHow false false) ∧ e.b.tags &&& (e.wreg 1).val ≠ 0 ∧ e.b.tags &&& (e.wreg 1).val = (e.wreg 1).val ∧
      (∀ i, i < 63 → (e.b.tags &&& (e.wreg 1).val).getLsbD i = false) ∧ (e.b.tags &&& (e.wreg 1).val).getLsbD 63 = true) ∧
    (∃ e, (tOf { tGang with w := vput tGang.w 1 ⟨1, ageless⟩ }).env? = some e ∧ (e.wreg 1).val ≠ 0 ∧
      e.b.tags &&& (e.wreg 1).val = 0 ∧ e.b.tags &&& (e.wreg 1).val ≠ (e.wreg 1).val ∧
      ∀ i, i < 64 → (e.b.tags &&& (e.wreg 1).val).getLsbD i = false) :=
  ⟨rfl, test_accepts _ rfl, rfl,
   ⟨_, rfl, And.intro rfl rfl, by decide +kernel, by decide +kernel, by decide +kernel, by decide +kernel⟩,
   ⟨_, rfl, by decide +kernel, by decide +kernel, by decide +kernel, by decide +kernel⟩⟩

/-- The same in a context with the restamp right. -/
def restamps (s : State) : State := s.setCtx 0 { s.ctx 0 with restamp := true }

theorem test_witness_StampWordsComplete : tS.env? = some tEnv ∧ tEnv.accepts (sysHow false false .fma [.v 119, .v 126]) ∧
    tEnv.accepts (sysHow false false .fma [.v 119]) ∧ tEnv.accepts (sysHow false false .fma [.v 119, .v 126, .strict 63]) ∧
    (tS.ctx tEnv.b.ctx).restamp = false ∧ Instr.stageless false false 119 ≠ Instr.stold false false 119 126 63 ∧
    ∃ e, (restamps tS).env? = some e ∧ e.accepts (sysHow false false .fma [.v 119]) ∧ ((restamps tS).ctx e.b.ctx).restamp = true :=
  ⟨rfl, test_accepts _ rfl, test_accepts _ rfl, test_accepts _ rfl, rfl, nofun, ⟨_, rfl, And.intro rfl rfl, rfl⟩⟩

/-- A block whose mailbox 15 is full. -/
def tFull : Block := { tBlock tGang with mbs := vput (tBlock tGang).mbs 15 ⟨⟨7, ageless⟩, true, [], []⟩ }

theorem test_witness_MailboxWordsComplete : tS.env? = some tEnv ∧ tEnv.accepts (engHow false false) ∧
    vat tEnv.b.mbs Mailbox.empty 15 = Mailbox.empty ∧ Mailbox.empty.full = false ∧ Mailbox.empty.writers = [] ∧
    .read tEnv.gang tEnv.g.pid ∉ Mailbox.empty.readers ∧
    ∃ e b, (tState tFull).env? = some e ∧ e.accepts (engHow false false) ∧ vat e.b.mbs Mailbox.empty 15 = b ∧ b.full = true ∧
      .group e.gang e.m ∉ b.writers :=
  ⟨rfl, test_accepts _ rfl, rfl, rfl, rfl, nofun, ⟨_, _, rfl, And.intro rfl rfl, rfl, rfl, nofun⟩⟩

/-- A block of a cooperative graph that feeds a cube, with a wheel of 2 stages, empty or full, and its barrier 15 reached by
gang 0. -/
def tWheel (f : Word) : Wheel := { Wheel.start { valid := true, drains := 1, fills := 1, count := 2, size := 5, base := 0 } with f := f }
def tSync (f : Word) : Block :=
  { tBlock tGang with
    cor := true
    feeding := true
    wheels := vput (tBlock tGang).wheels 3 (tWheel f)
    bars := vput (tBlock tGang).bars 15 ⟨1, false⟩ }

/-- W1 names offset 4,080, the last barrier object, with phase 0; W2 offset 8; W3 offset 4,096. W4 waits for phase 2^31. -/
def tObj : Gang :=
  let w := vput (vput (vput tGang.w 1 ⟨4080, ageless⟩) 2 ⟨8, ageless⟩) 3 ⟨4096, ageless⟩
  { tGang with w := vput w 4 ⟨0x8000000000000000, ageless⟩ }

theorem test_witness_BarrierWordsComplete :
    (tS.env? = some tEnv ∧ tEnv.accepts (engHow false false) ∧ tEnv.b.feeding = false ∧ tEnv.b.cor = false ∧
      (vat tEnv.b.bars ⟨0, false⟩ 15).mask.getLsbD tEnv.gang = false ∧
      (vat tEnv.b.wheels (Wheel.start WheelDesc.none) 3).desc.valid = false) ∧
    (∃ e, (tState (tSync 2)).env? = some e ∧ e.accepts (engHow false false) ∧
      (vat e.b.bars ⟨0, false⟩ 15).mask.getLsbD e.gang = true ∧ e.b.feeding = true ∧ e.b.cor = true ∧
      Tbl.get? e.g.arr (132 + 16 * 4 + 15) = none ∧
      (let w := vat e.b.wheels (Wheel.start WheelDesc.none) 3
       w.desc.valid = true ∧ (w.f - w.p).toNat = w.desc.count ∧ w.f ≠ w.p)) ∧
    (∃ e, (tState (tSync 0)).env? = some e ∧ e.accepts (engHow false false) ∧
      (let w := vat e.b.wheels (Wheel.start WheelDesc.none) 3
       w.desc.valid = true ∧ (w.f - w.p).toNat ≠ w.desc.count ∧ w.f = w.p)) ∧
    (∃ e, (tOf tObj).env? = some e ∧ e.accepts (engHow false false) ∧
      (e.wreg 2).val.toNat % 2 ^ 32 % 16 ≠ 0 ∧ e.b.shape.plain < (e.wreg 3).val.toNat % 2 ^ 32 + 16 ∧
      (e.wreg 3).val.toNat % 2 ^ 32 % 16 = 0 ∧ (e.wreg 1).val.toNat % 2 ^ 32 + 16 ≤ e.b.shape.plain ∧
      (BitVec.ofNat 32 (e.b.sp.nat (4080 + 8) 4) - (e.wreg 1).val.extractLsb' 32 32 : Word).toNat < 2 ^ 31 ∧
      2 ^ 31 ≤ (BitVec.ofNat 32 (e.b.sp.nat (0 + 8) 4) - (e.wreg 4).val.extractLsb' 32 32 : Word).toNat) :=
  ⟨⟨rfl, test_accepts _ rfl, rfl, rfl, rfl, rfl⟩,
   ⟨_, rfl, And.intro rfl rfl, rfl, rfl, rfl, rfl, rfl, rfl, by decide⟩,
   ⟨_, rfl, And.intro rfl rfl, rfl, by decide, rfl⟩,
   ⟨_, rfl, And.intro rfl rfl, by decide +kernel, by decide +kernel, by decide +kernel, by decide +kernel, by decide +kernel,
    by decide +kernel⟩⟩

/-- A block of two gangs: the first to arrive, and the last, whose arrival completes the barrier. -/
def tPair (m : BitVec 16) : Block :=
  { tBlock tGang with
    shape := { (tBlock tGang).shape with gangs := 2 }
    gangs := [tGang, { tGang with groups := [{ Group.start 0xFF 0 0 with wait := .barDone 15 }] }]
    bars := vput (tBlock tGang).bars 15 ⟨m, false⟩ }

theorem test_witness_BlockBarrierCompletes : 1 < (tPair 0).gangs.length ∧
    (vat (tPair 0).bars ⟨0, false⟩ 15).mask ||| BitVec.ofNat 16 (2 ^ 1) ≠ BitVec.ofNat 16 (2 ^ (tPair 0).shape.gangs - 1) ∧
    (vat (tPair 2).bars ⟨0, false⟩ 15).mask ||| BitVec.ofNat 16 (2 ^ 0) = BitVec.ofNat 16 (2 ^ (tPair 2).shape.gangs - 1) ∧
    (tPair 2).gangs[1]? ≠ none := ⟨by decide, by decide, by decide, by decide⟩

/-- A gang inside three containments, one inside four, a group that is not the whole gang, a context that is being cut. -/
def tDeep (n : Nat) : Gang := { tGang with stack := List.replicate n 5 }
def tCutB : Block := { tBlock { tGang with groups := [Group.start 0xFF 1 0] } with flume := [(0, { Slot.zero with kind := 2 })], sc := 9 }
def tCut : State := let s := tState tCutB; s.setCtx 0 { s.ctx 0 with cut := some 9 }

theorem test_witness_ContainmentStepsAndTraps :
    (∃ e, (tOf (tDeep 3)).env? = some e ∧ e.accepts (sysHow false false .sf []) ∧ e.m = e.g.live ∧ e.g.stack.length < 4 ∧
      (∃ x l, e.g.stack = x :: l) ∧ ((tOf (tDeep 3)).ctx e.b.ctx).cut = none) ∧
    (∃ e, (tOf (tDeep 4)).env? = some e ∧ e.accepts (sysHow false false .sf []) ∧ e.m = e.g.live ∧ 4 ≤ e.g.stack.length) ∧
    (∃ e, tTwoS.env? = some e ∧ e.accepts (sysHow false false .sf []) ∧ e.m ≠ e.g.live) ∧
    (∃ e t, tCut.env? = some e ∧ e.accepts (sysHow false false .sf []) ∧ (tCut.ctx e.b.ctx).cut = some t ∧
      t.toNat ≤ e.b.sc.toNat ∧ e.b.afterSite e.g e.pc = true) ∧
    (tS.ctx 0).debug = false ∧ (tS.setCtx 0 { tS.ctx 0 with debug := true }).ctx 0 = { tS.ctx 0 with debug := true } :=
  ⟨⟨_, rfl, And.intro rfl rfl, by decide, by decide, ⟨_, _, rfl⟩, rfl⟩, ⟨_, rfl, And.intro rfl rfl, by decide, by decide⟩,
   ⟨_, rfl, And.intro rfl rfl, by decide⟩, ⟨_, _, rfl, And.intro rfl rfl, rfl, by decide, rfl⟩, rfl, rfl⟩

theorem test_witness_FencesWait : tS.env? = some tEnv ∧ tEnv.accepts (engHow false false) ∧
    (∃ g, (tS.stashBackAll 0 0 0).gang? 0 0 0 = some g ∧ (g.pend.any (fun p => p.isLoad && !p.returned) || !(ackedFor g.outst 7)) = false) ∧
    (∃ e g, (tOf tWrites).env? = some e ∧ e.accepts (engHow false false) ∧ (tOf tWrites).gang? 0 0 0 = some g ∧
      ackedFor g.outst 3 = false) :=
  ⟨rfl, test_accepts _ rfl, ⟨_, rfl, rfl⟩, ⟨_, _, rfl, And.intro rfl rfl, rfl, by decide⟩⟩

/-- A feeding block; a cube whose bank 0 is FULL, with 128 columns; an open command less than the slots hold. -/
def tFeeder (g : Gang) : Block := { tBlock g with feeding := true }
def tFullCube : Cube := Cube.reset.setBank false { Bank.empty with st := .full, xc := 2, nb := 128 }
def tFeed (g : Gang) : State := (tState (tFeeder g)).setCube 0 tFullCube

/-- FEED to the last 128 bytes of the operand buffer, of one sector and of 32,768; DRAIN of row 127. W15 gives PITCH. -/
theorem test_witness_FeedAndDrainIssue :
    (tS.env? = some tEnv ∧ tEnv.accepts ⟨false, false, .mem, 2, false, [.v 0, .v 126]⟩ ∧ tEnv.act ≠ 0 ∧ tEnv.b.feeding = false) ∧
    (∃ e, (tOf tNone).env? = some e ∧ e.act = 0) ∧
    (∃ e, (tFeed { tGang with v := [(1, ⟨Vector.replicate 32 0xFFF80, Vector.replicate 8 ageless⟩)] }).env? = some e ∧
      e.accepts ⟨false, false, .mem, 2, false, [.v 0, .v 1]⟩ ∧ e.act ≠ 0 ∧ e.b.feeding = true ∧
      (lane (e.reg 1).lanes e.lowActive).toNat + 128 ≤ 2 ^ 20 ∧ (lane (e.reg 1).lanes e.lowActive).toNat % 32 = 0 ∧
      (e.s.core e.core).eng.length < 8) ∧
    (∃ e, (tFeed tGang).env? = some e ∧ e.accepts ⟨false, false, .mem, 2, false, [.v 126, .v 126]⟩ ∧ e.act ≠ 0 ∧
      e.b.feeding = true ∧ (lane (e.reg 126).lanes e.lowActive).toNat + 32 * ((0x7FFF : BitVec 15).toNat + 1) ≤ 2 ^ 20 ∧
      ((e.wreg 0).val + BitVec.ofInt 64 (lane (e.reg 126).lanes e.lowActive).toInt).toNat % 32 = 0 ∧
      (e.s.cube (clusterOf e.core)).dp = false ∧ ((e.s.cube (clusterOf e.core)).bank false).st = .full ∧
      e.s.bankBad e.b.ctx ((e.s.cube (clusterOf e.core)).bank false) = false ∧
      0 + (7 : BitVec 7).toNat * ((e.wreg 15).val.toNat / 2 ^ 10 % 2 ^ 24) + 128 * drainSize 0 ≤ e.b.shape.plain) :=
  ⟨⟨rfl, test_accepts _ rfl, by decide, rfl⟩, ⟨_, rfl, by decide⟩,
   ⟨_, rfl, And.intro rfl rfl, by decide, rfl, by decide +kernel, by decide +kernel, by decide⟩,
   ⟨_, rfl, And.intro rfl rfl, by decide, rfl, by decide +kernel, by decide +kernel, rfl, rfl, rfl, by decide +kernel⟩⟩

/-! Generator words. -/

/-- The thread of a SIMT core, and of a control core, at its word. -/
def gState (b : Block) : State := { State.reset.withBlock 0 b with cur := .gen 0 0 }
def gBlock : Block := placedBlock false
def gS : State := gState gBlock
def cBlock : Block := placedBlock true
def cState (b : Block) : State := { State.reset.withBlock 4 b with cur := .gen 4 0 }
def cS : State := cState cBlock

/-- The thread in its handler. -/
def gHandler : Block := { gBlock with th := { gBlock.th with handler := true } }

theorem test_thread : gS.thread? = some (0, 0, gBlock) ∧ cS.thread? = some (4, 0, cBlock) ∧
    (gState gHandler).thread? = some (0, 0, gHandler) := ⟨rfl, rfl, rfl⟩

def gr (d a b : BitVec 5) : GrOp := { d := d, a := a, b := b }
def gi (d a : BitVec 5) (i : BitVec 16) : GiOp := { d := d, a := a, i := i }

theorem test_witness_GeneratorArithmeticComputes : gS.thread? = some (0, 0, gBlock) ∧
    (∃ f, GenTwo (.divu (gr 31 0 0)) (gr 31 0 0) f) ∧ ∃ f, GenImm (.sari 0 31 63) 0 31 f :=
  ⟨rfl, ⟨_, .divu _⟩, ⟨_, .sari _ _ _⟩⟩

/-- g1 = 2 is no target of JR, g0 = 0 is one. -/
def gSet (r : Nat) (x : DWord) : Block := { gBlock with th := { gBlock.th with g := vput gBlock.th.g r ⟨x, ageless⟩ } }

theorem test_witness_GeneratorBranchesGo : (gState (gSet 1 2)).thread? = some (0, 0, gSet 1 2) ∧
    (∃ p, GenBranch (.bltu ⟨0, 1, 0x8000⟩) ⟨0, 1, 0x8000⟩ p ∧ p ((gSet 1 2).th.reg 0).val ((gSet 1 2).th.reg 1).val) ∧
    (∃ p, GenBranch (.beq ⟨0, 1, 0x8000⟩) ⟨0, 1, 0x8000⟩ p ∧ ¬p ((gSet 1 2).th.reg 0).val ((gSet 1 2).th.reg 1).val) ∧
    ((gSet 1 2).th.reg 0).val.toNat % 4 = 0 ∧ ((gSet 1 2).th.reg 1).val.toNat % 4 ≠ 0 :=
  ⟨rfl, ⟨_, .bltu _, by decide⟩, ⟨_, .beq _, by decide⟩, by decide, by decide⟩

/-- A translation that answers an address, and one that faults. -/
def isOk (x : State × Trans) : Bool :=
  match x.2 with
  | .ok _ => true
  | _ => false

theorem isOk_exists {x : State × Trans} (h : isOk x = true) : ∃ t pa, x = (t, .ok pa) := by
  rcases x with ⟨t, pa | d | _ | _⟩
  · exact ⟨t, pa, rfl⟩
  all_goals exact nomatch h

def isFault (x : State × Trans) : Bool :=
  match x.2 with
  | .fault _ => true
  | _ => false

theorem isFault_exists {x : State × Trans} (h : isFault x = true) : ∃ t d, x = (t, .fault d) := by
  rcases x with ⟨t, pa | d | _ | _⟩
  · exact nomatch h
  · exact ⟨t, d, rfl⟩
  all_goals exact nomatch h

/-- The widest access in g0 and the largest canonical address; not canonical; not aligned; a fault beyond 4 GiB; a poisoned
sector. -/
theorem test_witness_GeneratorLoadsRead : gS.thread? = some (0, 0, gBlock) ∧
    (∃ ea acq, GenAccess gBlock false (.gld gmem0) gmem0.d ea 8 acq gmem0.bnd ∧ ea = 0 ∧ canon ea ∧ ea.toNat % 8 = 0) ∧
    canon 0x00FFFFFFFFFFFFF8 ∧ ¬canon 0x0100000000000000 ∧ (4 : DWord).toNat % 8 ≠ 0 ∧
    (∃ t pa, gS.translate 0 0 0 false 8 = (t, .ok pa)) ∧
    (∃ t d, gS.translate 0 0 0x100000000 false 8 = (t, .fault d)) ∧
    Tbl.get? (gS.core 0).l1 0 = none ∧ quiet gS ∧ gS.homeBad 0 = false ∧ (gS.readSector (.thread 0 0) 0 0 16 0 8 true true).2.2.2 = false ∧
    ({ gS with mem := { gS.mem with poison := [(0, ())] } }).homeBad 0 = true ∧
    gS.boundFails 0 0 (gS.mem.stamp 0) = false :=
  ⟨rfl, ⟨_, _, .gld gmem0, rfl, by unfold canon; decide, by decide⟩, by unfold canon; decide, by unfold canon; decide,
   by decide, isOk_exists (by decide +kernel), isFault_exists (by decide +kernel), rfl, by unfold quiet; decide, by decide +kernel, by decide +kernel,
   by decide +kernel, by decide +kernel⟩

/-- A context whose bound 15 admits ages to 0 under TRAP; device memory is ANCIENT and fails it. -/
def bounded (act : Word) (s : State) : State := s.setCtx 0 { s.ctx 0 with abent := [(15, act)] }

theorem test_witness_LoadBoundTraps : ((bounded 0x40000000 gS).boundFails 0 15 (gS.mem.stamp 0)) = true ∧
    ((bounded 0x40000000 gS).ctx 0).boundAct 15 = .trap ∧ ((bounded 0x40000000 gS).boundFails 0 15 ageless) = false ∧
    ((bounded 0x80000000 gS).ctx 0).boundAct 15 = .refire := by decide +kernel

/-- A thread with a write not yet acknowledged, for a releasing word. -/
def gWrites : Block := { gBlock with th := { gBlock.th with outst := [(0, 0)] } }

theorem test_witness_GeneratorStoresWrite : gS.thread? = some (0, 0, gBlock) ∧
    (∃ ea rel, GenAccess gBlock true (.gst gmem0) gmem0.d ea 8 rel gmem0.bnd ∧ canon ea ∧ ea.toNat % 8 = 0) ∧
    (∃ ea, GenAccess gWrites true (.gst { gmem0 with ord := 2, scope := 7 }) gmem0.d ea 8 (some 7) gmem0.bnd ∧
      ackedFor gWrites.th.outst 7 = false) ∧
    ackedFor gBlock.th.outst 7 = true ∧ gS.boundFails 0 0 (gBlock.th.reg 1).stamp = false ∧
    (∃ t pa, gS.translate 0 0 (BitVec.ofNat 64 (32 * 0)) true 32 = (t, .ok pa)) ∧ gS.memOk ∧ quiet gS ∧
    gS.offline 0 = false ∧ gS.mem.bad 0 = false :=
  ⟨rfl, ⟨_, _, .gst gmem0, by unfold canon; decide, by decide⟩, ⟨_, .gst _, by decide⟩, by decide, by decide +kernel,
   isOk_exists (by decide +kernel), by unfold State.memOk; decide +kernel, by unfold quiet; decide, by decide +kernel,
   by decide +kernel⟩

/-- A compare-and-swap that fails, and one that stores. -/
theorem test_witness_GeneratorAtomicsPerform : gS.thread? = some (0, 0, gBlock) ∧ canon (gBlock.th.reg gatom0.a.toNat).val ∧
    (∃ t pa, gS.translate 0 0 0 true 8 = (t, .ok pa)) ∧ quiet gS ∧ gS.memOk ∧ gS.homeBad 0 = false ∧
    gatom0.ord.getLsbD 1 = false ∧ ackedFor gWrites.th.outst 7 = false ∧ atomSpec 1 8 0 5 1 = none ∧ atomSpec 1 8 0 5 0 = some 5 ∧
    atomSpec 2 8 (2 ^ 64 - 1) 1 0 = some 0 :=
  ⟨rfl, by unfold canon; decide, isOk_exists (by decide +kernel), by unfold quiet; decide, by unfold State.memOk; decide +kernel,
   by decide +kernel, rfl, rfl, rfl, rfl, by decide⟩

/-- GFENCE of kinds 0 to 3 on both cores, with writes acknowledged and not; the last word of the bank, read, poisoned and
beyond what is mapped. -/
theorem test_witness_GeneratorSystemAndFence : gS.thread? = some (0, 0, gBlock) ∧ cS.thread? = some (4, 0, cBlock) ∧
    gBlock.control = false ∧ (2 : BitVec 2).toNat < 4 ∧ ackedFor gBlock.th.outst 7 = true ∧ ackedFor gWrites.th.outst 7 = false ∧
    (gState gWrites).thread? = some (0, 0, gWrites) ∧ (cS.cube (4 / 8)).queue = [] ∧
    (∃ t w, gS.kword 0 gBlock 16383 = (t, .ok w) ∧ (!w.2) = true) ∧
    (∃ t w, { gS with mem := { gS.mem with poison := [(2047, ())] } }.kword 0 gBlock 16383 = (t, .ok w) ∧ w.2 = true) ∧
    (gS.ctx 0).restamp = false ∧ ((restamps gS).ctx 0).restamp = true ∧ 0x12 < (0x13 : BitVec 6).toNat ∧
    (∃ v, (specials gS 0 0 gBlock)[0x12]? = some v) ∧ gBlock.th.handler = false ∧ gBlock.trap ≠ 0 :=
  ⟨rfl, rfl, rfl, by decide, rfl, rfl, rfl, rfl, okWith_exists (p := fun w : Word × Bool => !w.2) (by decide +kernel),
   okWith_exists (p := fun w : Word × Bool => w.2) (by decide +kernel), rfl, rfl, by decide, ⟨_, rfl⟩, rfl, by decide⟩

/-- A fault outside the handler, in it, and in a block without one. -/
theorem test_witness_GeneratorFaults : gS.block? 0 0 = some gBlock ∧ gBlock.th.handler = false ∧ gBlock.trap ≠ 0 ∧
    (gState gHandler).block? 0 0 = some gHandler ∧ gHandler.th.handler = true ∧
    (gState { gBlock with trap := 0 }).block? 0 0 = some { gBlock with trap := 0 } ∧ (0xFFFF : Nat) < 2 ^ 16 :=
  ⟨rfl, rfl, by decide, rfl, rfl, rfl, by decide⟩

/-- A handler whose h27 names no gang, gang 0 parked by its fault, and gang 0 not so parked. -/
def gReturn (top : Bool) (g : Gang) : Block :=
  { gBlock with
    gangs := [g]
    th := { gBlock.th with handler := true, h := vput gBlock.th.h 27 ⟨if top then 0x8000000000000000 else 0, ageless⟩ } }

theorem test_witness_ReturnFromHandler : gS.thread? = some (0, 0, gBlock) ∧ gBlock.th.handler = false ∧
    (gState (gReturn true tGang)).thread? = some (0, 0, gReturn true tGang) ∧
    (vat (gReturn true tGang).th.h SVal.zero 27).val.getLsbD 63 = true ∧
    (vat (gReturn false tGang).th.h SVal.zero 27).val.getLsbD 63 = false ∧
    (gReturn false tGang).gangs[0]? = some tGang ∧ tGang.faultParked = false ∧
    (gReturn false { tGang with faultParked := true }).gangs[0]? = some { tGang with faultParked := true } :=
  ⟨rfl, rfl, rfl, by decide, by decide, rfl, rfl, rfl⟩

/-- Template word 0 in memory, with metadata `m` at the bank's 64 KiB. -/
def templates (m : Nat) (s : State) : State := { s with mem := s.mem.setBytes 0x10000 (leBytes m 4) }

/-- A read that stops with an error that can be told. -/
def stopsWith {α : Type} (x : State × Except (Stop × DWord) α) (e : Stop × DWord) : Bool :=
  match x.2 with
  | .error y => y == e
  | .ok _ => false

theorem failsWith {α : Type} {x : State × Except (Stop × DWord) α} {e : Stop × DWord} (h : stopsWith x e = true) :
    ∃ t, x = (t, .error e) := by
  rcases x with ⟨t, y | _⟩
  · exact ⟨t, by rw [show y = e by simpa [stopsWith] using h]⟩
  · exact nomatch h

/-- A flume with no room left for a word, whose gang runs or does not; an emission that can never be admitted; E at the
last ordinal; metadata without BODY, and with BODY, LAST and PATCH over all bits, and with HI below LO. -/
theorem test_witness_FlumeWords : gS.thread? = some (0, 0, gBlock) ∧ cS.thread? = some (4, 0, cBlock) ∧
    gBlock.control = false ∧ cBlock.control = true ∧ (1 : BitVec 2).toNat < 2 ∧ 2 ≤ (2 : BitVec 2).toNat ∧
    (let b := { gBlock with e := 48 }
     ¬(b.e.toNat + 1 - b.f.toNat ≤ b.shape.w) ∧ (gState b).allStuck 0 0 b = true) ∧
    (let b := { tBlock tGang with e := 48, s := 48 }
     ¬(b.e.toNat + 1 - b.f.toNat ≤ b.shape.w) ∧ ¬(b.shape.w < 1 ∨ (gState b).allStuck 0 0 b = true)) ∧
    2 ^ 32 ≤ ({ gBlock with e := 0xFFFFFFFF } : Block).e.toNat + 1 ∧
    (∃ t m, gS.imageWord 0 gBlock (gBlock.kbank + BitVec.ofNat 64 (65536 + 4 * 0)) = (t, .ok m) ∧
      (!m.2 && !(metaOf m.1).2.1) = true) ∧
    (∃ t m, (templates 0x3FC00000 gS).imageWord 0 gBlock (gBlock.kbank + BitVec.ofNat 64 (65536 + 4 * 0)) = (t, .ok m) ∧
      (!m.2 && (metaOf m.1).2.1 && (metaOf m.1).2.2.2.1 && (metaOf m.1).2.2.2.2.1 == 31 && (metaOf m.1).2.2.2.2.2.1 == 0) = true) ∧
    (∃ t m, (templates 0x38020000 gS).imageWord 0 gBlock (gBlock.kbank + BitVec.ofNat 64 (65536 + 4 * 0)) = (t, .ok m) ∧
      ((metaOf m.1).2.1 && decide ((metaOf m.1).2.2.2.2.1 < (metaOf m.1).2.2.2.2.2.1)) = true) ∧
    (∃ t l, (templates 0x3FC00000 gS).templateMeta 0 gBlock 0 16384 = (t, .ok l) ∧ (l.length == 1) = true) ∧
    (∃ t l, (templates 0x3FC00000 gS).templateWords 0 gBlock 0 [0x3FC00000] = (t, .ok l) ∧ (l.length == 1) = true) ∧
    hasRoom gBlock 1 ∧
    (∃ t, { gS with mem := { gS.mem with poison := [(0, ())] } }.templateWords 0 gBlock 0 [0x3FC00000] =
      (t, .error (.fault 0x1000, 0))) ∧
    (let b := { gBlock with e := 3, s := 3, f := 1 }
     0 < b.f.toNat ∧ b.s.toNat < 4 ∧ b.f.toNat ≤ 3 ∧ 3 ≤ b.s.toNat) :=
  ⟨rfl, rfl, rfl, rfl, by decide, by decide, by decide +kernel, by decide +kernel, by decide,
   okWith_exists (p := fun m : Word × Bool => !m.2 && !(metaOf m.1).2.1) (by decide +kernel),
   okWith_exists (p := fun m : Word × Bool => !m.2 && (metaOf m.1).2.1 && (metaOf m.1).2.2.2.1 &&
     (metaOf m.1).2.2.2.2.1 == 31 && (metaOf m.1).2.2.2.2.2.1 == 0) (by decide +kernel),
   okWith_exists (p := fun m : Word × Bool => (metaOf m.1).2.1 && decide ((metaOf m.1).2.2.2.2.1 < (metaOf m.1).2.2.2.2.2.1))
     (by decide +kernel),
   okWith_exists (p := fun l : List Word => l.length == 1) (by decide +kernel),
   okWith_exists (p := fun l : List Emit => l.length == 1) (by decide +kernel), by unfold hasRoom; decide,
   failsWith (by decide +kernel), by decide⟩

/-- Gang 0 of a block of one exists and is idle, or runs; gang 15 does not exist. -/
theorem test_witness_GangsStart : gS.thread? = some (0, 0, gBlock) ∧ named gBlock 1 (fun g => g.st = .idle) ∧
    (∃ i, i < 16 ∧ (0x8000 : BitVec 16).getLsbD i = true ∧ gBlock.shape.gangs ≤ i) ∧
    (∃ i g, i < 16 ∧ (1 : BitVec 16).getLsbD i = true ∧ (tBlock tGang).gangs[i]? = some g ∧ g.st ≠ .idle) :=
  ⟨rfl, by
     intro i hi hm
     have : i = 0 := by
       have h : ∀ i, i < 16 → (1 : BitVec 16).getLsbD i = true → i = 0 := by decide
       exact h i hi hm
     subst this
     exact ⟨by decide, _, rfl, rfl⟩,
   ⟨15, by decide, by decide, by decide⟩, ⟨0, _, by decide, by decide, rfl, by decide⟩⟩

/-- A parked gang of two groups: a steer of slice 0 of them, and of none that is live. -/
def tParked : Gang := { tTwo with st := .parked }

theorem test_witness_GangControlWords : (gState (tBlock tParked)).thread? = some (0, 0, tBlock tParked) ∧
    (tBlock tParked).control = false ∧ (tBlock tParked).gangs[0]? = some tParked ∧ tParked.st = .parked ∧
    (0x81 : BitVec 8) &&& tParked.live ≠ 0 ∧ (0 : BitVec 8) &&& tParked.live = 0 ∧ (1 : Nat) ≤ (1 : BitVec 4).toNat ∧
    (tBlock tGang).gangs[0]? = some tGang ∧ tGang.st = .running ∧ gHandler.th.handler = true ∧ gBlock.th.handler = false ∧
    (∀ g ∈ gBlock.gangs, g.st = .idle) ∧ (∃ g ∈ (tBlock tGang).gangs, g.st ≠ .idle) ∧
    named (tBlock tGang) 0 (fun g => g.st = .idle) :=
  ⟨rfl, rfl, rfl, rfl, by decide, by decide, by decide, rfl, rfl, rfl, rfl, by decide, by decide, by
     intro i _ hm
     simp at hm⟩

/-- Mailbox 15 empty and full; a packet at address 0, and at 1; a queue with room and one without; this package as peer. -/
def fullQueue (s : State) : State := s.setCtx 0 { s.ctx 0 with lqd := [(63, { Ring.reset with tail := 16 })] }

theorem test_witness_GeneratorQueueWords : gS.thread? = some (0, 0, gBlock) ∧ cS.thread? = some (4, 0, cBlock) ∧
    (vat gBlock.mbs Mailbox.empty 15).full = false ∧ (vat gBlock.mbs Mailbox.empty 15).writers = [] ∧
    (vat tFull.mbs Mailbox.empty 15).full = true ∧ (vat tFull.mbs Mailbox.empty 15).readers = [] ∧
    .thread ∉ (vat tFull.mbs Mailbox.empty 15).writers ∧
    ((gSet 1 1).th.reg 1).val.toNat % 128 ≠ 0 ∧ ackedFor gWrites.th.outst 5 = false ∧ ackedFor gBlock.th.outst 7 = true ∧
    (∃ t l, (gS.genEnv 0 0 gBlock).packet gS 0 4 = (t, .ok l) ∧ (!(t.lq 0 63).full && t.pkg == 0) = true) ∧
    ((fullQueue gS).lq 0 63).full = true ∧ (0 : DWord).toNat % 512 = gS.pkg.toNat := by
  refine ⟨rfl, rfl, rfl, rfl, rfl, rfl, nofun, by decide, rfl, rfl, ?_, by decide, rfl⟩
  obtain ⟨t, l, h, _⟩ := okWith_exists (p := fun _ : List Byte => true) (x := (gS.genEnv 0 0 gBlock).packet gS 0 4)
    (by decide +kernel)
  refine ⟨t, l, h, ?_⟩
  have := congrArg Prod.fst h
  simp only at this
  rw [← this]
  decide +kernel

/-- A handler above a parked gang; the last register and the first that is none; the restamp right. -/
def gDebug : Block := { tBlock tParked with th := { gBlock.th with handler := true } }

theorem test_witness_DebugWordsOfHandler : (∃ c, DebugWord (.gdbgRdv (gr 1 2 3)) c ∧ c = false) ∧
    gS.thread? = some (0, 0, gBlock) ∧ gBlock.th.handler = false ∧ cS.thread? = some (4, 0, cBlock) ∧ cBlock.control = true ∧
    (gState gDebug).thread? = some (0, 0, gDebug) ∧ gDebug.th.handler = true ∧ gDebug.control = false ∧
    0 < gDebug.shape.gangs ∧ gDebug.shape.gangs ≤ 1 ∧ gDebug.gangs[0]? = some tParked ∧ tParked.st = .parked ∧
    119 < gDebug.shape.n ∧ gDebug.shape.n ≤ 120 ∧ (119 : Nat) < 126 ∧ (tBlock tGang).gangs[0]? = some tGang ∧ tGang.st ≠ .parked ∧
    ((gState gDebug).ctx gDebug.ctx).restamp = false ∧ ((restamps (gState gDebug)).ctx gDebug.ctx).restamp = true ∧
    (∃ q, tParked.groups.find? (fun z => z.mask.getLsbD (18 - 11)) = some q) ∧ ∃ n, tParked.snap = some n :=
  ⟨⟨_, .rdv _, rfl⟩, rfl, rfl, rfl, rfl, rfl, rfl, rfl, by decide, by decide, rfl, rfl, by decide, by decide, by decide, rfl,
   by decide, rfl, rfl, ⟨_, rfl⟩, ⟨_, rfl⟩⟩

/-- GDBG.PUSHM and POPM of registers 114 to 119: 960 of the 1,024 bytes; ranges that are none. -/
def gFrames (x : DWord) (spp : Nat) : Block :=
  { tBlock { tParked with spp := spp } with
    th := { gBlock.th with handler := true, h := vput gBlock.th.h 1 ⟨x, ageless⟩ } }

theorem test_witness_DebugFramesMove : (gState (gFrames 0x77720000 960)).thread? = some (0, 0, gFrames 0x77720000 960) ∧
    (let x := ((gFrames 0x77720000 960).th.reg 1).val.toNat
     x % 16 < (gFrames 0x77720000 960).shape.gangs ∧ x / 2 ^ 4 % 2 ^ 12 = 0 ∧ x / 2 ^ 23 % 2 = 0 ∧ x < 2 ^ 31 ∧
       x / 2 ^ 16 % 128 = 114 ∧ x / 2 ^ 24 % 128 = 119) ∧
    119 < (gFrames 0x77720000 960).shape.n ∧ (gFrames 0x77720000 960).shape.spill < 960 + 160 * 6 ∧
    0 + 160 * 6 ≤ (gFrames 0x77720000 0).shape.spill ∧ 160 * 6 ≤ 960 ∧ 0 < 160 * 6 ∧ 114 + 6 ≤ 126 ∧
    ((0x70720000 : Nat) / 2 ^ 24 % 128 < 0x70720000 / 2 ^ 16 % 128) := by
  refine ⟨rfl, by decide +kernel, by decide, by decide, by decide, by decide, by decide, by decide, by decide⟩

/-- A control core's word with a deferred fault of its cube, and without. -/
theorem test_witness_CubeWordsTakeDeferredFault : cS.thread? = some (4, 0, cBlock) ∧ gS.thread? = some (0, 0, gBlock) ∧
    CubeWord (.cubeMul mul0) ∧ cBlock.control = true ∧ gBlock.control = false ∧
    (cS.setCube 0 { Cube.reset with fault := some ⟨0x23, 0, 0, 0x3D, 4⟩ }).thread? = some (4, 0, cBlock) ∧
    ((cS.setCube 0 { Cube.reset with fault := some ⟨0x23, 0, 0, 0x3D, 4⟩ }).cube (4 / 8)).fault = some ⟨0x23, 0, 0, 0x3D, 4⟩ ∧
    (let c := Cube.reset
     c.fop < 128 ∧ c.queue.length + (if c.exec.isSome then 1 else 0) < 512 ∧ (c.bank c.dp).dcount < 256 ∧ c.stepNow < 65536) :=
  ⟨rfl, rfl, .mul _, rfl, rfl, rfl, rfl, by decide⟩

/-- Shapes of 1 and of 128; a full queue; a window that is in order; 65,536 bytes of stratum and one more row; 2,048 scales
and 2,049; a CUBE.MUL whose shape and arguments are in order, and such as are not. -/
def cShaped : Cube := { Cube.reset with im := 1, inn := 128, ik := 32 }

theorem test_witness_CubeWordsEnterQueue : cS.thread? = some (4, 0, cBlock) ∧ (cS.cube (4 / 8)).fault = none ∧
    (cS.setCube 0 cShaped).thread? = some (4, 0, cBlock) ∧ ((cS.setCube 0 cShaped).cube (4 / 8)) = cShaped ∧
    upTo128 cShaped.inn ∧ upTo128 cShaped.im ∧ ¬upTo128 (cS.cube (4 / 8)).inn ∧
    ((65536 : DWord).toNat * 1 ≤ 65536 ∧ ¬((65537 : DWord).toNat * 1 ≤ 65536)) ∧
    ((2048 : DWord) ≠ 0 ∧ (2048 : DWord).toNat ≤ 2048 ∧ ¬((2049 : DWord).toNat ≤ 2048)) ∧
    (let x : DWord := 0x0001000100010020
     x.toNat / 2 ^ 48 ≠ 0 ∧ x.toNat / 2 ^ 32 % 2 ^ 16 ≠ 0 ∧ x.toNat / 2 ^ 16 % 2 ^ 16 ≠ 0 ∧ x.toNat % 2 ^ 16 ≠ 0 ∧
       x.toNat % 32 = 0) ∧
    cShaped.shapeOk = true ∧ Cube.reset.shapeOk = false ∧ cShaped.mulArgsOk 0 0 0 0 = true ∧ cShaped.mulArgsOk 0 0 0 1 = false ∧
    16 ≤ ({ cShaped with queue := List.replicate 16 .zero } : Cube).queue.length ∧
    (2 : Nat) ≤ (2 : DWord).toNat ∧ ({ cShaped with queue := [.zero] } : Cube).queue ≠ [] :=
  ⟨rfl, rfl, rfl, rfl, by unfold upTo128; decide, by unfold upTo128; decide, by unfold upTo128; decide, by decide, by decide,
   by decide, by decide +kernel, by decide +kernel, by decide +kernel, by decide +kernel, by decide, by decide, nofun⟩

/-! Issue, decoding, the step, the whole machine. -/

/-- A block whose slots 0 and 1 hold NOP, the first of kind `k`; its gang has a run open with an S mark. -/
def tNops (k : BitVec 2) (g : Gang) : Block :=
  { tBlock g with flume := [(0, { Slot.zero with word := 0x34000000, kind := k }), (1, { Slot.zero with word := 0x34000000 })] }
def tRun : Gang := { tGang with groups := [{ Group.start 0xFF 0 0 with run := some ⟨1, false, false, true, false⟩ }] }
def chained : How := ⟨false, true, .fma, 1, false, []⟩
def ends : How := ⟨false, false, .fma, 1, false, []⟩

/-- A run that goes on to the last word below S; one that ends with its mark, with and without a result open; slots of
every kind. -/
theorem test_witness_IssuedWordCompletes : (∃ e, (tState (tNops 0 tRun)).env? = some e ∧ e.accepts chained ∧
      (∃ r, e.grp.run = some r ∧ r.s = true) ∧ e.g.groups = e.g.groups ∧ chained.c = true ∧ chained.ctl = false ∧ e.pc.toNat % 3 ≠ 2 ∧
      e.pc.toNat + 1 < e.b.s.toNat ∧ (e.b.slotOf (e.pc + 1)).kind ≠ 1 ∧ needsTrail (e.b.slotOf (e.pc + 1)).word = false ∧
      (e.b.slotOf e.pc).kind = 0) ∧
    (∃ e, (tState (tNops 3 tRun)).env? = some e ∧ e.accepts ends ∧ ends.c = false ∧ (∀ p ∈ e.g.pend, p.returned = true) ∧
      (e.b.slotOf e.pc).kind = 3) ∧
    ∃ e, (tState (tNops 2 tWaits)).env? = some e ∧ e.accepts { ends with s := true } ∧
      (∃ p ∈ e.g.pend, p.returned = false ∧ p.slices &&& e.m ≠ 0) ∧ (e.b.slotOf e.pc).kind = 2 :=
  ⟨⟨_, rfl, And.intro rfl rfl, ⟨_, rfl, rfl⟩, rfl, rfl, rfl, by decide, by decide, by decide, by decide, rfl⟩,
   ⟨_, rfl, And.intro rfl rfl, rfl, by decide, rfl⟩, ⟨_, rfl, And.intro rfl rfl, by decide, rfl⟩⟩

/-- Registers 120 and 125, and a run with both its FMA words; faults whose record enters the queue and whose does not. -/
theorem test_witness_FaultedWordsPark : tS.env? = some tEnv ∧ (∃ f, IntTwo (.iadd (reg3 120 0 0)) (reg3 120 0 0) f) ∧
    ¬((120 : BitVec 7).toNat < tEnv.b.shape.n ∨ (120 : BitVec 7) = 126) ∧ (119 : BitVec 7).toNat < tEnv.b.shape.n ∧
    ¬((125 : BitVec 7).toNat < tEnv.b.shape.n ∨ (125 : BitVec 7) = 126 ∨ (125 : BitVec 7) = 127) ∧
    (∃ e, (tOf { tGang with groups := [{ Group.start 0xFF 0 0 with run := some ⟨2, false, false, false, false⟩ }] }).env? = some e ∧
      ∃ r, e.grp.run = some r ∧ 2 ≤ r.fma) ∧
    gS.thread? = some (0, 0, gBlock) ∧ (0xFFFF : Nat) < 2 ^ 16 ∧ tEnv.b.ctx < 2 ^ 12 ∧ tEnv.gang < 16 ∧
    (∀ q ∈ tEnv.b.th.queue, q.loc.toNat % 16 ≠ tEnv.gang) ∧
    (∃ e, (tState { tBlock tGang with th := { (tBlock tGang).th with queue := [Record.zero] } }).env? = some e ∧
      ∃ q ∈ e.b.th.queue, q.loc.toNat % 16 = e.gang) :=
  ⟨rfl, ⟨_, .iadd _⟩, by decide, by decide, by decide, ⟨_, rfl, _, rfl, by decide⟩, rfl, by decide, by decide, by decide, nofun,
   ⟨_, rfl, by decide⟩⟩

/-- Well-formed words of the largest field values: with a trailing word, without one, of a generator, and a row of none. -/
theorem test_witness_DecodeInvertsEncode :
    (Instr.ldx { mem0 with s := true, c := false, d := 127, voff := 127, bnd := 15, ord := 1, scope := 7, size := 4, off := 0xFF }).wf = true ∧
    (Instr.brUnz true true 15 0x1FFFF).wf = true ∧ (Instr.gsrd 31 0x12).wf = true ∧ (Instr.harbourEntry).wf = true ∧
    (∃ i, decodeWide 0x34000000 0 = .ok i) ∧ ∃ i, decodeGen false 0x04E70001 = .ok i :=
  ⟨by decide, by decide, by decide, by decide, ⟨_, rfl⟩, ⟨_, rfl⟩⟩

/-- A fetched instruction, an undecodable word, a stale slot and a trailing one. -/
def tIllegal : Block := { tBlock tGang with flume := [(0, { Slot.zero with word := 0x3C000000 })] }
def placed (w : Nat) : State := State.reset.withFetchWord 32 w

/-- Group in hand with an open chained run. -/
def tInRun : State := tState (tNops 0 tRun)

/-- The turn of core 0 with the block `b`. -/
def tTurn (b : Block) : State := { tState b with cur := .none, turns := [.wide 0] }

/-- What the next issue of core 0 finds there: a candidate, its group, and no breakpoint. -/
def issues (s : State) (f : Fetch) : Bool :=
  match s.pick 0 with
  | some a =>
    match a.group with
    | some x =>
      (s.core 0).stopDue.isNone && ((s.setCore 0 (s.pickCore 0)).bpsAt a.b x).isEmpty && a.b.fetchFor x == f &&
        ({ s.setCore 0 (s.pickCore 0) with cur := .wide 0 a.slot a.gang x.mask }).env?.isSome
    | none => false
  | none => false

def genIssues (s : State) (core : Nat) : Bool :=
  match s.genPick core with
  | some (slot, b) =>
    b.faultReady.isNone && (match ({ s.setCore core { s.core core with genrr := slot } with cur := .gen core slot }.genFetch core b).2 with
      | .instr _ => true
      | _ => false)
  | none => false

theorem test_witness_StepRunsDecodedInstruction :
    ((0 : Word).toNat < (tNops 0 tGang).s.toNat ∧ (tNops 0 tGang).f.toNat ≤ (0 : Word).toNat ∧ ((tNops 0 tGang).slotOf 0).kind ≠ 1 ∧
      needsTrail ((tNops 0 tGang).slotOf 0).word = false ∧
      decodeWide ((tNops 0 tGang).slotOf 0).word ((tNops 0 tGang).slotOf 1).word = .ok (.nop false false)) ∧
    (∃ t pa, gS.translate 0 0 gBlock.th.pc false 4 = (t, .ok pa)) ∧
    (match tInRun.inRun with
      | some (_, _, _, b, x) => (tInRun.bpsAt b x).isEmpty && b.fetchFor x == .instr (.nop false false)
      | none => false) = true ∧
    (let x : Group := { Group.start 0xFF 7 0 with wait := .tagwait, held := some ({ Slot.zero with word := 0x34000000 }, 0) }
     x.wait ≠ .none ∧ decodeWide 0x34000000 0 = .ok (.nop false false) ∧ (tBlock tGang).fetchFor x = .instr (.nop false false)) ∧
    ((tTurn (tNops 0 tGang)).inRun = none ∧ (tTurn (tNops 0 tGang)).turns = [.wide 0] ∧
      issues { tTurn (tNops 0 tGang) with turns := [] } (.instr (.nop false false)) = true ∧
      issues { tTurn tIllegal with turns := [] } (.illegal 0x3C000000) = true ∧
      issues { tTurn { tNops 0 tGang with f := 1 } with turns := [] } .stale = true ∧
      issues { tTurn (tNops 1 tGang) with turns := [] } .trailing = true) ∧
    ((placed 0xC8200012).inRun = none ∧ (placed 0xC8200012).turns = [.gen 0] ∧
      genIssues { placed 0xC8200012 with turns := [] } 0 = true) ∧
    ({ State.reset with turns := [.event .harbourEntry] } : State).inRun = none ∧ RowOf .packetConsume .packetConsume :=
  ⟨⟨by decide, by decide, by decide, rfl, rfl⟩, isOk_exists (by decide +kernel), by decide +kernel, ⟨by decide, rfl, by decide +kernel⟩,
   ⟨rfl, rfl, by decide +kernel, by decide +kernel, by decide +kernel, by decide +kernel⟩,
   ⟨rfl, rfl, by decide +kernel⟩, rfl, .packetConsume⟩

theorem test_witness_StepsKeepMemoryCanonical : gS.memOk ∧ ∃ t, step { gS with turns := [.tick] } = .next t :=
  ⟨by unfold State.memOk; decide +kernel, _, rfl⟩

/-! Steps of a core, of the engines and of the cube. -/

/-- A pending result of the gang: a special function, a posted read, a load that failed beside another open one. -/
def tOpen (p : Pend) : Gang := { tGang with pend := [p] }
def pSpec : Pend := Pend.new 0xFF 0 (.spec 119 0xFFFFFFFF (Vector.replicate 32 1) (Vector.replicate 8 ageless)) 1
def pMail : Pend := Pend.new 0xFF 0 (.mail 15 15) 0
def pFail : Pend := { Pend.new 0xFF 0 (.uni 0 SVal.zero 0) 0 with fail := some .poison }
def tFails : Gang := { tGang with pend := [pFail, { pSpec with id := 1 }] }

/-- A block whose mailbox 15 is full, with the gang's posted read first there. -/
def tMail : Block :=
  { tBlock (tOpen pMail) with mbs := vput (tBlock tGang).mbs 15 ⟨⟨7, ageless⟩, true, [.read 0 0], []⟩ }

/-- A fault record of gang 0 waits in the queue of the thread. -/
def tQueued (trap : Nat) : Block := { tBlock tGang with trap := trap, th := { (tBlock tGang).th with queue := [Record.zero] } }

/-- A gang asked to stop: at a site, beyond S, and where every group waits. -/
def tAsked (r : StopReq) (w : WWait) : Gang := { tGang with req := r, groups := [{ Group.start 0xFF 0 0 with wait := w }] }
def tSite (r : StopReq) : Block := tNops 2 (tAsked r .none)
def tDry (r : StopReq) : Block := { tNops 0 (tAsked r .none) with e := 0, s := 0 }
def tHeld (r : StopReq) : Block := tNops 0 (tAsked r .tagwait)

/-- The first site of the block, with breakpoint 15 of its context on its record. -/
def breaks (act : BitVec 2) (s : State) : State :=
  s.setCtx 0 { s.ctx 0 with bps := [(15, ⟨0, true, false, act, 0⟩)] }

/-- A timer at its limit, of a gang that waits in BAR, and of one that waits to write a full mailbox. -/
def tTimer (w : WWait) (k : TimerKey) (n : Nat) : Block := { tBlock (tAsked .none w) with timers := [(k, n, 0, 0xFF)] }

theorem test_witness_ResultsReturn :
    ((tOf (tOpen pSpec)).block? 0 0 = some (tBlock (tOpen pSpec)) ∧ (tBlock (tOpen pSpec)).gangs[0]? = some (tOpen pSpec) ∧
      (tOpen pSpec).late = none ∧ (tOpen pSpec).pend.Pairwise (fun x y => x.id ≠ y.id) ∧ pSpec ∈ (tOpen pSpec).pend ∧
      pSpec.returned = false ∧ pSpec.fail = none ∧ pSpec.acq = none ∧ pSpec.bnd = 0 ∧ (∀ w m, pSpec.val ≠ .mail w m) ∧
      (tOpen pSpec).pend = [pSpec] ∧ pSpec.tr = false ∧ pSpec.dead.all (· == 0) = true ∧ (119 : Nat) < 126) ∧
    ((tOf tFails).block? 0 0 = some (tBlock tFails) ∧ tFails.pend.Pairwise (fun x y => x.id ≠ y.id) ∧ pFail ∈ tFails.pend ∧
      pFail.fail = some .poison ∧ ∃ q ∈ tFails.pend, q.id ≠ pFail.id ∧ q.returned = false) ∧
    { pSpec with returned := true } ∈ (tOpen { pSpec with returned := true }).pend :=
  ⟨⟨rfl, rfl, rfl, by decide, by decide, rfl, rfl, rfl, rfl, nofun, rfl, rfl, by decide, by decide⟩,
   ⟨rfl, by decide, by decide, rfl, by decide⟩, by decide⟩

theorem test_witness_PostedReadsAreServed : (tState tMail).block? 0 0 = some tMail ∧ tMail.gangs[0]? = some (tOpen pMail) ∧
    (tOpen pMail).late = none ∧ (tOpen pMail).pend.find? (fun q => q.id == pMail.id && !q.returned) = some pMail ∧
    pMail.val = .mail 15 15 ∧ (vat tMail.mbs Mailbox.empty 15).full = true ∧
    (vat tMail.mbs Mailbox.empty 15).readers.head? = some (.read 0 pMail.id) ∧
    (tOpen pMail).pend.takeWhile (fun q => q.id != pMail.id) = [] ∧
    (vat (tBlock (tOpen pMail)).mbs Mailbox.empty 15).full = false :=
  ⟨rfl, rfl, rfl, rfl, rfl, rfl, rfl, rfl, rfl⟩

theorem test_witness_HandlerIsEntered : (tState (tQueued 0)).block? 0 0 = some (tQueued 0) ∧
    (tState (tQueued 8)).block? 0 0 = some (tQueued 8) ∧ (tQueued 8).th.handler = false ∧ (tQueued 8).th.halted = false ∧
    (∀ c n, (tQueued 8).th.wait ≠ .peer c n) ∧ (tQueued 8).th.queue = [Record.zero] ∧ (tQueued 8).trap ≠ 0 ∧
    (tQueued 8).gangs[Record.zero.loc.toNat % 16]? = some tGang ∧ tGang.pend = [] :=
  ⟨rfl, rfl, rfl, rfl, nofun, rfl, by decide, rfl, rfl⟩

theorem test_witness_StopsTakeEffect : (tState (tSite .halt)).block? 0 0 = some (tSite .halt) ∧
    (tSite .halt).gangs[0]? = some (tAsked .halt .none) ∧ (tAsked .halt .none).st = .running ∧
    (tAsked .halt .none).evicted = false ∧ (tAsked .halt .none).late = none ∧ (tAsked .halt .none).pend = [] ∧
    (tAsked .halt .none).refireOn = none ∧ (tAsked .halt .none).heldOn = none ∧ (tAsked .halt .none).req ≠ .none ∧
    (∃ x ∈ (tAsked .halt .none).groups, x.wait = .none ∧ x.parked = false ∧ (tSite .halt).fetchStalled x.pc = false ∧
      (tSite .halt).f.toNat ≤ x.pc.toNat ∧ 2 ≤ ((tSite .halt).slotOf x.pc).kind.toNat ∧ x.passed = false) ∧
    (∃ x ∈ (tAsked .cut .none).groups, x.wait = .none ∧ x.parked = false ∧ (tDry .cut).fetchStalled x.pc = true) ∧
    (∀ x ∈ (tAsked .evict .tagwait).groups, x.wait ≠ .none ∧ x.wait ≠ .exit ∧ x.wait ≠ .base ∧ x.wait ≠ .fence ∧ x.wait ≠ .release) ∧
    (tState (tHeld .evict)).block? 0 0 = some (tHeld .evict) ∧ tGang.req = .none :=
  ⟨rfl, rfl, rfl, rfl, rfl, rfl, rfl, rfl, by decide, by decide, by decide, by decide, rfl, rfl⟩

theorem test_witness_BreakpointsAct : (breaks 0 (tState (tSite .none))).block? 0 0 = some (tSite .none) ∧
    (tSite .none).gangs[0]? = some (tAsked .none .none) ∧ (tAsked .none .none).st = .running ∧
    (tAsked .none .none).evicted = false ∧ (tAsked .none .none).groups.find? (·.mask == 0xFF) = some (Group.start 0xFF 0 0) ∧
    (∀ act : BitVec 2, (breaks act (tState (tSite .none))).bpsAt (tSite .none) (Group.start 0xFF 0 0) = [15]) ∧
    ((breaks 0 (tState (tSite .none))).ctx 0).dbgring.full = false :=
  ⟨rfl, rfl, rfl, rfl, rfl, by decide +kernel, by decide⟩

theorem test_witness_PausesEnd : (tOf { tGang with pause := 1 }).block? 0 0 = some (tBlock { tGang with pause := 1 }) ∧
    (tBlock { tGang with pause := 1 }).gangs[0]? = some { tGang with pause := 1 } ∧
    ({ (tBlock tGang).th with pause := 1 } : Thread).pause = 1 := ⟨rfl, rfl, rfl⟩

/-- Losses of 15, 16, 64 and 65 fall under different cases. -/
theorem test_witness_MemorySetIsRecomputed : ((tS.setCore 0 { tS.core 0 with due := true }).core 0).due = true ∧
    ((tS.core 0).blocks.map fun e => (e.2.gangs.map (·.loss)).sum).sum = 0 := ⟨rfl, rfl⟩

theorem test_witness_WatchdogsFire :
    (let b := tTimer (.barDone 15) (.block 15 false) (2 ^ 28)
     (tState b).block? 0 0 = some b ∧ (b.timers.find? fun y => y.1 == .block 15 false) = some (.block 15 false, 2 ^ 28, 0, 0xFF) ∧
       ((tState b).timersOf 0 0 b).any (fun y => y.1 == .block 15 false) = true ∧ ((tState b).ctx 0).ben = true ∧
       2 ^ ((tState b).ctx 0).blog.toNat ≤ 2 ^ 28) ∧
    (let b := { tTimer (.mbwr 15) (.gangProgress 0) (2 ^ 32 - 1) with mbs := tFull.mbs }
     (tState b).block? 0 0 = some b ∧ ((tState b).timersOf 0 0 b).any (fun y => y.1 == .gangProgress 0) = true ∧
       2 ^ 32 - 1 < 2 ^ ((tState b).ctx 0).plog.toNat) :=
  ⟨⟨rfl, by decide +kernel, by decide +kernel, rfl, by decide⟩, ⟨rfl, by decide +kernel, by decide⟩⟩

/-- A command of one element to offset 0 of the scratchpad from address 0. -/
def fCmd : FerryCmd :=
  { id := 0, slot := 0, gang := 0, mask := 0xFF, kind := .g2s, tag := 63, bnd := 0, acq := none, rel := none, shape := 0
    pitch := 0, src := .global 0, dst := .plain 0, srcWheel := none, dstWheel := none, stage := none, handle := 0, born := 0, begun := true, ord := 0, prov := 0, waits := none
    tail := [], status := none, done := false, flits := [] }

/-- A core with held and admitted commands, at a cycle. -/
def tFerry (held : List (Nat × Nat × BitVec 8 × FerryCmd)) (l : List FerryCmd) (cycle : DWord) : State :=
  tS.setCore 0 { tS.core 0 with ferryWait := held, ferry := l, cycle := cycle }

theorem test_witness_FerryIsAdmitted : (tFerry [(0, 0, 0xFF, fCmd)] [] 0).block? 0 0 = some (tBlock tGang) ∧
    (tBlock tGang).gangs[0]? = some tGang ∧ tGang.st = .running ∧ tGang.evicted = false ∧
    ((tFerry [(0, 0, 0xFF, fCmd)] [] 0).core 0).ferryWait = [(0, 0, 0xFF, fCmd)] ∧ fCmd.srcWheel = none ∧ fCmd.dstWheel = none ∧
    (∃ x, (tBlock tGang).fixSides fCmd = some x) ∧ (tBlock tGang).fixSides { fCmd with dstWheel := some 0x20000000 } = none ∧
    64 ≤ ((tFerry [(0, 0, 0xFF, fCmd)] (List.replicate 64 fCmd) 0).core 0).ferry.length ∧ fCmd.waits = none ∧
    (¬∃ y ∈ ((tFerry [(0, 0, 0xFF, fCmd)] [] 0).core 0).ferryWait, (tFerry [(0, 0, 0xFF, fCmd)] [] 0).ferryFirst 0 none y = true) ∧
    (let l := [(0, 0, 0xFF, fCmd), (0, 0, 0x0F, { fCmd with waits := some 1 })]
     ∃ y ∈ ((tFerry l [] 0).core 0).ferryWait, (tFerry l [] 0).ferryFirst 0 fCmd.waits y = true) ∧
    ({ fCmd with waits := some 1 } : FerryCmd).waits ≠ none ∧
    ({ fCmd with waits := some 1 } : FerryCmd).srcWheel = none :=
  ⟨rfl, rfl, rfl, rfl, rfl, rfl, rfl, ⟨_, rfl⟩, rfl, by decide, rfl, by decide +kernel, by decide +kernel, nofun, rfl⟩

theorem test_witness_ScratchTransferCompletes : ((tFerry [] [fCmd] 0).core 0).ferryAt 0 = some fCmd ∧
    ((tFerry [] [fCmd] 0).core 0).ferry.Pairwise (fun x y => x.id ≠ y.id) ∧ (tFerry [] [fCmd] 0).block? 0 0 = some (tBlock tGang) ∧
    (tBlock tGang).sp.wf = true ∧ fCmd.kind = .g2s ∧ fCmd.done = false ∧ fCmd.tail = [] ∧ fCmd.rel = none ∧ fCmd.flits = [] ∧
    (fCmd.pairs.map (·.1)).Nodup ∧
    (let s := tFerry [] [fCmd] 0
     let P := s.plan 0 0 (s.now 0) fCmd fCmd.pairs (sectorsOf (fCmd.pairs.map (·.1))).reverse
     (planWaits P.2.1).isNone = true ∧ (planStop P.2.1).isNone = true) ∧
    (let c := { fCmd with src := .global 0x100000000 }
     let s := tFerry [] [c] 0
     let P := s.plan 0 0 (s.now 0) c c.pairs (sectorsOf (c.pairs.map (·.1))).reverse
     (planWaits P.2.1).isNone = true ∧ (match planStop P.2.1 with
       | some .translation => true
       | _ => false) = true) :=
  ⟨rfl, by decide, rfl, by decide, rfl, rfl, rfl, rfl, rfl, by decide +kernel, by decide +kernel, by decide +kernel⟩

theorem test_witness_StalledFerryEnds : ((tFerry [] [fCmd] 0x1000000).core 0).ferry.find? (·.id == fCmd.id) = some fCmd ∧
    (tFerry [] [fCmd] 0x1000000).block? 0 0 = some (tBlock tGang) ∧
    fCmd.born + 2 ^ 24 ≤ ((tFerry [] [fCmd] 0x1000000).core 0).cycle.toNat ∧
    ((tFerry [] [fCmd] 0xFFFFFF).core 0).cycle.toNat < fCmd.born + 2 ^ 24 := ⟨rfl, rfl, by decide, by decide⟩

def tEng (e : EngCmd) (g : Gang) : State := (tFeed g).setCore 0 { (tFeed g).core 0 with eng := [e] }
def eFeed : EngCmd :=
  .feed 7 0 0 0xFF 0 none false (Vector.replicate 32 1) (List.replicate 4 ageless) 0xFFF80 4 0 none none []
def eDrain (arr : Bool) : EngCmd := .drain 7 0 0 0xFF none arr

theorem test_witness_FeedWritesOperandBuffer : ((tEng eFeed tGang).core 0).eng.find? (·.id == 7) = some eFeed ∧
    (∃ b, (tEng eFeed tGang).block? 0 0 = some b) ∧ ((tEng eFeed tGang).cube (clusterOf 0)).obuf.wf = true ∧ 0xFFF80 % 32 = 0 :=
  ⟨rfl, ⟨_, rfl⟩, by decide, by decide⟩

/-- The first drain arrival of two, and the last; writes that are acknowledged for the package and for the core alone. -/
theorem test_witness_DrainEnds : ((tEng (eDrain true) tGang).core 0).eng.find? (·.id == 7) = some (eDrain true) ∧
    (tEng (eDrain true) tGang).gang? 0 0 0 = some tGang ∧ (∀ p ∈ tGang.outst, p.1 = 7 + 1 → 2 ≤ p.2) ∧
    (∃ p ∈ ({ tGang with outst := [(8, 1)] } : Gang).outst, p.1 = 7 + 1 ∧ p.2 < 2) ∧
    (let c := (tEng (eDrain true) tGang).cube (clusterOf 0)
     (c.bank c.dp).dcount + 1 ≠ (c.bank c.dp).xc) ∧
    (let c := Cube.reset.setBank false { Bank.empty with st := .full, xc := 1 }
     (c.bank c.dp).dcount + 1 = (c.bank c.dp).xc) := ⟨rfl, rfl, by decide, by decide, by decide, by decide⟩

/-- The cube of cluster 0, whose control thread stands on core 4. -/
def kS (c : Cube) : State := cS.setCube 0 c
def kLdb : CubeOp := .ldb false false 1 0 0 none 0
def kMul : CubeOp := .mul 2 0 0 1 none 0
def kExec (o : CubeOp) : CubeExec := ⟨o, 0, ⟨0⟩, ⟨0⟩, false, false⟩
def kRun (o : CubeOp) : Cube := { Cube.reset with m := 1, n := 1, k := 32, exec := some (kExec o) }

theorem test_witness_SequencerStarts : (kS { Cube.reset with queue := [kMul] }).controlBlock? 0 = some cBlock ∧
    (kS { Cube.reset with queue := [kMul] }).cube 0 = { Cube.reset with queue := [kMul] } ∧
    ((Cube.reset.bank false).st = .empty ∨ (Cube.reset.bank false).st = .active) ∧ (tFullCube.bank tFullCube.act).st = .full :=
  ⟨rfl, rfl, .inl rfl, rfl⟩

/-- A load of one byte that succeeds, and one from beyond what is mapped. -/
theorem test_witness_CubeLoadsComplete : (kS (kRun kLdb)).controlBlock? 0 = some cBlock ∧ (kS (kRun kLdb)).cube 0 = kRun kLdb ∧
    (kRun kLdb).exec = some (kExec kLdb) ∧ (kRun kLdb).stratum.wf = true ∧ (kRun kLdb).scale.wf = true ∧
    (let L := ((kS (kRun kLdb)).loadSources (0 * 8 + 4) 0 (sortNat (((kExec kLdb).op.pairs 1 1).map fun p => p.2 / 32))).2
     L.2.isNone && (L.1.all fun g => !g.2.bad)) = true ∧
    (((kExec kLdb).op.pairs 1 1).map (·.1)).Nodup ∧
    (match ((kS (kRun kLdb)).loadSources (0 * 8 + 4) 0 [0x8000000]).2.2 with
      | some (.fault _ _) => true
      | _ => false) = true :=
  ⟨rfl, rfl, rfl, by decide, by decide, by decide +kernel,
   by decide +kernel, by decide +kernel⟩

theorem none_true {α : Type} {l : List (α × Bool)} (h : (l.all fun p => !p.2) = true) : ∀ p ∈ l, p.2 = false :=
  fun p hp => by simpa using List.all_eq_true.mp h p hp

/-- One step of CUBE.MUL over 1 × 1, its last k-block; a poisoned operand sector. -/
theorem test_witness_CubeMulSteps : (kS (kRun kMul)).controlBlock? 0 = some cBlock ∧ (kS (kRun kMul)).cube 0 = kRun kMul ∧
    (kExec kMul).op = .mul 2 0 0 1 none 0 ∧ (kRun kMul).n.toNat ≤ 128 ∧ modeOp (kRun kMul).mode < 2 ∧ winEn (kRun kMul).win = false ∧
    srcWheel 0 = false ∧ ((kRun kMul).bank (kRun kMul).act).st = .empty ∧
    (let sc : StepCtx := ⟨kRun kMul, 0, min 32 ((kRun kMul).k.toNat - 32 * 0), srcOff 0 + 0 * panelSize true (cubeSize (modeFmtA (kRun kMul).mode)), 0⟩
     ∀ p ∈ sc.sectors, p.2 = false) ∧
    (let c := { kRun kMul with obuf := { Store.empty with poison := [(0, ())] } }
     let sc : StepCtx := ⟨c, 0, min 32 (c.k.toNat - 32 * 0), srcOff 0 + 0 * panelSize true (cubeSize (modeFmtA c.mode)), 0⟩
     ∃ p ∈ sc.sectors, p.2 = true) ∧
    ((kS (kRun kMul)).ctx 0).suspact = 0 :=
  ⟨rfl, rfl, rfl, by decide, by decide, rfl, rfl, rfl, none_true (by decide +kernel), by decide +kernel, rfl⟩

/-- An image of one cell, not written yet, and written with its writes acknowledged or not. -/
def kImage (w : Bool) : Cube := { Cube.reset with image := [{ bank := false, va := 0, m := 1, n := 1, rel := none, written := w }] }

theorem test_witness_ImagesDrain : (kS (kImage false)).controlBlock? 0 = some cBlock ∧
    (kS (kImage true)).cube 0 = kImage true ∧ ((kS (kImage false)).reachSectors 4 0 [0]).2.isNone = true ∧
    (∀ p ∈ cBlock.th.outst, p.1 = 1 → relClass none ≤ p.2) ∧ relClass none = 2 ∧ 2 < relClass (some 7) ∧
    ∃ p ∈ [((1, 0) : Nat × Nat)], p.1 = 1 ∧ p.2 < relClass none :=
  ⟨rfl, rfl, by decide +kernel, by decide, by decide, by decide, by decide⟩

/-! The graph engine; pre-emption and contexts. -/

/-- A record of one block of one gang of 8 slices and 8 registers, on any isle; a cube node of one feeding block. -/
def rec0 : Vector DWord 32 := vec 32 fun i => if i = 6 then 0x0E20040000000000 else if i = 16 then 0xC0000000 else 0
def recC : Vector DWord 32 := vec 32 fun i => if i = 0 then 0x4040000000000000 else lane64 i
where lane64 (i : Nat) : DWord := vat rec0 0 i

def inst0 : Instance :=
  { ctx := 0, node := 0, record := 0, group := 0, hasKey := true, count := 1, phase := .pending, tmpl := rec0, prio := 1
    povr := none, kovr := 0, doneva := 0, doneval := 0, podhome := 0, harbour := false, order := 0, lstamp := ageless
    isleOf := [0], dispatched := [], ended := [], controlEnded := false, producer := none, stored := false }

/-- The package with context 0 live and no block, the record at address 0, queue 63 holding a packet of zeros, and `l` its
instances. -/
def nS (l : List Instance) : State :=
  { gS with
    cores := []
    cur := .none
    mem := (gS.mem.setBytes 0x30 (leBytes 0x0E20040000000000 8)).setBytes 0x80 (leBytes 0xC0000000 8)
    ctxs := [(0, { gS.ctx 0 with lqd := [(63, { Ring.reset with base := 0x300, tail := 1 })] })]
    insts := l }

def flit0 : Flit :=
  { kind := .launch, seq := 0, src := 1, dst := 0, ctx := 0, addr := 63, count := 128, body := [], stamps := [], poison := 0 }

/-- Cape 3 is ready besides. -/
def linked (s : State) : State := { s with ready := s.ready ||| 0x8000000000 }

theorem test_witness_LaunchesEnterQueues : (nS []).ready.getLsbD 4 = true ∧ (63 : Nat) < 64 ∧ (3 : Nat) < 4 ∧
    (linked (nS [])).ready.getLsbD (36 + 3) = true ∧ flit0.seq = ((linked (nS [])).cape 3).recvSeq ∧
    ((nS []).ctx 0).st = .live ∧ ((nS []).lq 0 62).full = false ∧ ((nS []).ctx 1).st = .free ∧
    (let l : Tbl DWord := [(4095, 0xC01003FC00000000)]
     ∃ e ∈ l, e.2.getLsbD 63 = true ∧ e.2.getLsbD 62 = true ∧ e.2.toNat / 2 ^ 52 % 512 = flit0.src.toNat ∧
       e.2.toNat / 2 ^ 34 % 4096 = 255 ∧ e.2.toNat / 2 ^ 46 % 64 = 0) ∧
    (nS []).lqHeld 0 63 = false ∧ (linked (nS [])).lqHeld 0 (63 % 64) = false ∧ ({ nS [] with ready := 0x1F } : State).lqHeld 0 63 = true ∧
    (let r := (nS []).lq 0 63
     let pa := r.base.toNat * 256 + r.tail.toNat % r.entries * 128
     (nS []).mem.wf = true ∧ (∀ p ∈ (nS []).blocks, ∀ e ∈ p.2.2.stash, e.2.pa = pa → e.2.dirty = false) ∧
       backed pa 128 = true ∧ (nS []).offline pa = false ∧ (nS []).offline (pa + 32) = false ∧
       (nS []).offline (pa + 64) = false ∧ (nS []).offline (pa + 96) = false) :=
  ⟨rfl, by decide, by decide, by decide, rfl, rfl, by decide, rfl, by decide, by decide +kernel, by decide +kernel, by decide +kernel,
   by decide +kernel, fun _ h => absurd h List.not_mem_nil, by decide +kernel, by decide +kernel, by decide +kernel, by decide +kernel, by decide +kernel⟩

/-- The head packet is read with no effect on the state, and what it is. -/
def headIs (s : State) (p : Packet → Bool) : Bool := p (s.headPacket (0, 63)).2

def readsOk (s : State) : Bool :=
  match (s.readRecord 0 0).2 with
  | .ok r => r.podn == 0 && r.length == 32
  | _ => false

theorem test_witness_PacketsAreConsumed : (nS [inst0]).ready.getLsbD 4 = true ∧ (nS [inst0]).completionReady = false ∧
    (nS [inst0]).nextQueue = some (0, 63) ∧ headIs (nS [inst0]) (fun p => p.record == 0 && p.group == 0 && p.decOk) = true ∧
    ((nS [inst0]).headPacket (0, 63)).1.pending? 0 0 0 = some inst0 ∧
    ((nS [inst0]).headPacket (0, 63)).1.inst? inst0.node = some inst0 ∧ inst0.phase = .pending ∧
    (nS []).nextQueue = some (0, 63) ∧ ((nS []).headPacket (0, 63)).1.pending? 0 0 0 = none ∧
    headIs (nS []) (fun p => p.fieldsOk && p.kovr == 0 && p.podhome == 0) = true ∧
    readsOk ((nS []).headPacket (0, 63)).1 = true :=
  ⟨rfl, by decide, by decide +kernel, by decide +kernel, by decide +kernel, by decide +kernel, rfl, by decide +kernel,
   by decide +kernel, by decide +kernel, by decide +kernel⟩

def ready0 : Instance := { inst0 with count := 0, phase := .ready }
def inside0 : Instance := { ready0 with harbour := true }

theorem test_witness_HarbourIsEntered : (nS [ready0]).waitingHarbour = some ready0 ∧ (nS [ready0]).inst? ready0.node = some ready0 ∧
    ((nS [ready0]).insts.filter (·.harbour)).length < 4096 ∧ (nS [ready0]).ready.getLsbD 4 = true :=
  ⟨by decide +kernel, by decide +kernel, by decide +kernel, rfl⟩

theorem found_exists {α : Type} {x : State × Option α} {v : α} (h : x.2 = some v) : ∃ t, x = (t, some v) := ⟨x.1, by rw [← h]⟩

theorem test_witness_BlocksAreDispatched : (nS [inside0]).ready.getLsbD (28 + 0) = true ∧
    (nS [inside0]).headInst 0 = some inside0 ∧ (nS [inside0]).inst? 0 = some inside0 ∧ inside0.recd.isCube = false ∧
    (nS [inside0]).restoresFirst 0 inside0.prio = false ∧ inside0.recd.cor = false ∧ inside0.recd.podn = 0 ∧
    inside0.nextOn 0 = some 0 ∧ inside0.isleAt 0 = 0 ∧
    (∃ t, (nS [inside0]).findCore 0 inside0.recd.shape (isleCores 0) = (t, some (0, ⟨0, 0, 0, [0]⟩))) ∧
    ([0] : List Nat).length ≤ 16 :=
  ⟨by decide, by decide +kernel, by decide +kernel, by decide +kernel, by decide +kernel, by decide +kernel, by decide +kernel,
   by decide +kernel, by decide +kernel, found_exists (by decide +kernel), by decide⟩

def cube0 : Instance := { inside0 with tmpl := recC }

theorem test_witness_CubeNodesAreDispatched : (nS [cube0]).headInst 0 = some cube0 ∧ (nS [cube0]).inst? 0 = some cube0 ∧
    cube0.recd.isCube = true ∧ (nS [cube0]).restoresFirst 0 cube0.prio = false ∧ cube0.recd.podn = 0 ∧
    ∃ t, (nS [cube0]).findCluster 0 ((List.range cube0.recd.feeders).map fun k => (k, cube0.recd.shape)) (List.range 24) =
      (t, some (0, [⟨0, 0, 0, [0]⟩])) :=
  ⟨by decide +kernel, by decide +kernel, by decide +kernel, by decide +kernel, by decide +kernel, found_exists (by decide +kernel)⟩

/-- A block whose thread has ended, of an instance of one block. -/
def tEnded : Block := { tBlock (Gang.fresh 0) with th := { (tBlock tGang).th with ended := true } }
def last0 : Instance := { inside0 with hasKey := false, phase := .running, harbour := false }
def endS (x : Instance) : State := { tState tEnded with insts := [x] }

theorem test_witness_BlocksEnd : (endS last0).block? 0 0 = some tEnded ∧ (endS last0).inst? tEnded.node = some last0 ∧
    rising ((endS last0).core 0).blocks = true ∧ tEnded.control = false ∧ tEnded.th.ended = true ∧
    ((endS last0).core 0).ferry = [] ∧ ((endS last0).core 0).ferryWait = [] ∧ ((endS last0).core 0).eng = [] ∧
    last0.doneva = 0 ∧ last0.ended.length + 1 = last0.recd.blocks ∧ last0.recd.isCube = false ∧ last0.hasKey = false ∧
    (let x := { last0 with tmpl := vput rec0 5 1 }
     x.ended.length + 1 ≠ x.recd.blocks ∧ x.phase = .running) :=
  ⟨rfl, by decide +kernel, by decide, rfl, rfl, rfl, rfl, rfl, rfl, by decide +kernel, by decide +kernel, rfl, by decide +kernel⟩

def compl0 : Completion := ⟨0, 0, 0, none, 0⟩

theorem test_witness_CompletionsAreDelivered :
    let s := { nS [inst0] with compl := [compl0] }
    s.ready.getLsbD 4 = true ∧ s.insts.find? (·.phase == .completing) = none ∧
      s.compl.find? (fun d => (s.pending? d.ctx d.record d.group).isSome || decide (s.insts.length < 16384)) = some compl0 ∧
      s.pending? 0 0 0 = some inst0 ∧ s.inst? inst0.node = some inst0 ∧ inst0.phase = .pending :=
  ⟨rfl, rfl, by decide +kernel, by decide +kernel, by decide +kernel, rfl⟩

/-! Two blocks of 16 gangs hold every gang slot of core 0, below a waiting block of higher priority; their context's save
area has the largest size. -/

def full16 (g : Gang) : Block := { tBlock g with shape := { (tBlock g).shape with gangs := 16 }, gangs := List.replicate 16 g }
def crowd (g : Gang) : State :=
  { nS [inside0] with
    cores := [(0, { Core.reset with blocks := [(0, full16 g), (1, full16 g)] })]
    ctxs := [(0, { gS.ctx 0 with saveSize := 0xFFFFFFFF })] }

theorem saveDue_idle {s : State} {x : Nat} (h : (s.blocks.all fun e =>
    !e.2.2.stopping && (e.2.2.gangs.filter fun g => g.req == .evict && !g.evicted).isEmpty) = true) : s.saveDue x = 0 := by
  rw [List.all_eq_true] at h
  rw [State.saveDue]
  generalize s.blocks = l at h
  induction l with
  | nil => rfl
  | cons e r ih =>
    have a := h e (List.mem_cons_self ..)
    rw [Bool.and_eq_true, Bool.not_eq_true', List.isEmpty_iff] at a
    rw [List.foldl_cons, a.1, a.2]
    simpa using ih fun y hy => h y (List.mem_cons_of_mem _ hy)

theorem crowd_plan (g : Gang) (h1 : (crowd g).headInst 0 = some inside0)
    (h2 : ∃ l, ((crowd g).core 0).gangVictims 1 = (0, 15, full16 g, g) :: l) (h6 : (crowd g).saveDue 0 = 0) (h3 : (((crowd g).core 0).room inside0.recd.shape).isSome = true)
    (h4 : (((crowd g).core 0).place inside0.recd.shape).isSome = false)
    (h5 : ((((crowd g).core 0).without 0 15).place inside0.recd.shape).isSome = true) :
    (crowd g).plan? 0 = (crowd g, [.gang 0 0 15]) := by
  obtain ⟨l, hl⟩ := h2
  have room : (crowd g).saveRoom [] 0 (full16 g).gangSize = true := by
    have : (Config.saveUnits 1 (full16 g).shape.n 0 0).toNat < 2 ^ 20 := BitVec.isLt _
    have a : ((crowd g).ctx 0).saveUsed = 0 := rfl
    have b : ((crowd g).ctx 0).saveSize.toNat = 0xFFFFFFFF := rfl
    apply decide_eq_true
    rw [a, b, h6, List.foldl_nil, Block.gangSize]
    omega
  have cube : inside0.recd.isCube = false := by decide +kernel
  have cor : inside0.recd.cor = false := by decide +kernel
  have first : ∃ r, isleCores 0 = 0 :: r := ⟨_, rfl⟩
  obtain ⟨r, hr⟩ := first
  have gangs : (crowd g).planGangs ((crowd g).core 0) 0 inside0.recd.shape [] ((0, 15, full16 g, g) :: l) =
      (crowd g, some [.gang 0 0 15]) := by
    rw [State.planGangs]
    simp only [h4, Bool.false_eq_true, ↓reduceIte, room, Bool.not_true, show (full16 g).ctx = 0 from rfl]
    cases l with
    | nil => rw [State.planGangs]; simp [h5]
    | cons v w => rw [State.planGangs]; simp [h5]
  have need : (crowd g).needed 0 inside0.recd.shape [] [] [.gang 0 0 15] = [.gang 0 0 15] := by
    simp [State.needed, State.coreLess, h4]
  have core : (crowd g).planCore [] 0 1 inside0.recd.shape = (crowd g, some [.gang 0 0 15]) := by
    simp only [State.planCore, State.coreLess, List.foldl_nil, h3, if_true, hl, gangs, Option.map_some, List.length_nil,
      List.drop_zero, List.reverse_singleton, need, List.nil_append]
  simp only [State.plan?, h1, cube, cor, Bool.false_eq_true, if_false, hr, State.planIsle, show inside0.prio = 1 from rfl, core]

/-- Gangs that run, and gangs that do not. -/
theorem test_witness_GangsAreEvicted : (crowd tGang).ready.getLsbD 4 = true ∧ (crowd tGang).ready.getLsbD (28 + 0) = true ∧
    (crowd tGang).evicting 0 = false ∧ (crowd tGang).plan? 0 = (crowd tGang, [.gang 0 0 15]) ∧
    (crowd tGang).block? 0 0 = some (full16 tGang) ∧ (full16 tGang).gangs[15]? = some tGang ∧ tGang.st = .running ∧
    (crowd tParked).plan? 0 = (crowd tParked, [.gang 0 0 15]) ∧ (crowd tParked).evicting 0 = false ∧ tParked.st ≠ .running :=
  ⟨rfl, by decide, by decide +kernel,
   crowd_plan _ (by decide +kernel) ⟨(((crowd tGang).core 0).gangVictims 1).tail, by decide +kernel⟩ (saveDue_idle (by decide +kernel)) (by decide +kernel) (by decide +kernel)
     (by decide +kernel), rfl, rfl, rfl,
   crowd_plan _ (by decide +kernel) ⟨(((crowd tParked).core 0).gangVictims 1).tail, by decide +kernel⟩ (saveDue_idle (by decide +kernel)) (by decide +kernel)
     (by decide +kernel) (by decide +kernel), by decide +kernel, by decide⟩

/-- A block asked to leave whose gang stands still. -/
def tLeaves : Block := { tBlock { tGang with evicted := true } with stopping := true }

theorem test_witness_BlocksAreEvicted : (tState tLeaves).ready.getLsbD 4 = true ∧ (tState tLeaves).ready.getLsbD (28 + 0) = true ∧
    (tState tLeaves).readyVictim 0 = some (.block 0 0) ∧ (tState tLeaves).block? 0 0 = some tLeaves ∧
    rising ((tState tLeaves).core 0).blocks = true := ⟨by decide, by decide, by decide +kernel, rfl, by decide⟩

def tGone : Gang := { tGang with evicted := true }

theorem test_witness_GangsAreRestored : (tOf tGone).evictedGangs 0 = [(0, 0, tBlock tGone, tGone)] ∧
    (tOf tGone).gang? 0 0 0 = some tGone ∧ (tOf tGone).headOver (isleOf 0) (tBlock tGone).prio = false ∧
    ((tOf tGone).core 0).gangRoom (tBlock tGone).shape.n = some 0 ∧
    ((crowd tGang).core 0).gangRoom 8 = none :=
  ⟨by decide +kernel, rfl, by decide +kernel, by decide +kernel, by decide +kernel⟩

/-- Saved work of one unit. -/
def savedS : State := { nS [] with saved := [.block 0 (tBlock tGone) 1] }

theorem test_witness_BlocksAreRestored : savedS.ready.getLsbD 4 = true ∧ savedS.ready.getLsbD (28 + 0) = true ∧
    savedS.nextSaved 0 = some (.block 0 (tBlock tGone) 1) ∧ savedS.headOver 0 (tBlock tGone).prio = false ∧
    (∃ t, savedS.findCore 0 (tBlock tGone).shape (isleCores 0) = (t, some (0, ⟨0, 0, 0, [0]⟩))) :=
  ⟨by decide, by decide, by decide +kernel, by decide +kernel, found_exists (by decide +kernel)⟩

/-- A context that is being cut at step count 9: with no block of it left to stop, and with one that runs. -/
def cutting (s : State) : State := s.setCtx 0 { s.ctx 0 with st := .stopping, cut := some 9 }

theorem test_witness_CutsComplete : ((cutting (nS [])).ctx 0).st = .stopping ∧ ((cutting (nS [])).ctx 0).cut = some 9 ∧
    (cutting (nS [])).cutReady 0 9 = true ∧ (cutting tS).cutReady 0 9 = false ∧
    (let b := { tDry .none with sc := 9 }
     let s := cutting (tState b)
     s.cutReady 0 9 = false ∧ (0, 0, b) ∈ s.blocks ∧ b.gangs[0]? = some (tAsked .none .none) ∧ b.ctx = 0 ∧ b.control = false ∧
       (9 : BitVec 16).toNat ≤ b.sc.toNat ∧ b.stopAt (tAsked .none .none) = some (true, false) ∧ (tAsked .none .none).req = .none) :=
  ⟨rfl, rfl, by decide +kernel, by decide +kernel, by decide +kernel, by decide +kernel, rfl, rfl, rfl, by decide, by decide +kernel, rfl⟩

/-- Contexts in every state that a command names. -/
theorem test_witness_ContextCommands : (nS []).ready.getLsbD 4 = true ∧ ((nS []).ctx 0).st = .live ∧ ((nS []).ctx 4095).st = .free ∧
    ((cutting (nS [])).ctx 0).st = .stopping ∧
    ∀ st : CtxSt, (((nS []).setCtx 7 { Ctx.reset with st := st }).ctx 7).st = st :=
  ⟨rfl, rfl, rfl, rfl, by intro st; cases st <;> rfl⟩

theorem test_witness_IslesGo : (7 : Nat) < 8 ∧ (∃ e ∈ tS.blocks, isleOf e.1 = 0 ∧ e.2.2.ctx = 0) ∧
    (∃ w ∈ savedS.saved, w.isle = 0 ∧ w.ctx = 0) := ⟨by decide, by decide, by decide⟩

/-! Tides, memory units, bring-up, the debugger, the link. -/

/-- Context 0 with debugging on, held or not. -/
def debugging (hold : Bool) (s : State) : State := s.setCtx 0 { s.ctx 0 with debug := true, hold := hold }

theorem test_witness_TideRegistersAct : tS.ready.getLsbD 4 = true ∧ ((debugging false tS).ctx 0).debug = true ∧
    ((debugging false tS).ctx 0).hold = false ∧ ((debugging true tS).ctx 0).hold = true ∧ (tS.ctx 0).debug = false ∧
    (¬∀ e ∈ tS.blocks, e.2.2.ctx ≠ 0) ∧ (∀ e ∈ tS.blocks, e.2.2.ctx ≠ 5) ∧ (∀ i ∈ tS.insts, i.ctx = 5 → i.producer = none) :=
  ⟨rfl, rfl, rfl, rfl, rfl, by decide, by decide, nofun⟩

theorem test_witness_FrameOwnersAreSet : tS.ready.getLsbD 2 = true ∧ (0xC000000000000FFF : DWord).getLsbD 63 = true ∧
    (0xC000000000000FFF : DWord).getLsbD 62 = true ∧ (0x8000000000000000 : DWord).getLsbD 62 = false ∧ rising tS.fown = true :=
  ⟨rfl, by decide, by decide, by decide, rfl⟩

/-- A stamp of age 2^23 − 1 is left, one of age 2^23 is swept: every bound admits at most 0x7FFFFF. -/
def aged (st : Stamp) : State := { nS [] with mem := (nS []).mem.setStamp 9 st, tide := 0x801000 }

theorem test_witness_SweepersAgeStamps : (aged 0x001001).placeStamp? (.memory 9) = some (0x001001, 0x801000, baseCtr 0 9) ∧
    age (stampOf 0x801000) 0x001001 = some 0x7FFFFF ∧ age (stampOf 0x801000) 0x001000 = some 0x800000 ∧ (aged 0x001000).mem.wf = true ∧
    ((aged 0x001000).cube 0).obuf.wf = true ∧ (tBlock tGang).stashAt 0 = none ∧ (tBlock tGang).sp.wf = true :=
  ⟨by decide +kernel, by decide, by decide, by decide +kernel, by decide, rfl, by decide⟩

theorem test_witness_ShootdownsDropTranslations : tS.ready.getLsbD 2 = true ∧ tS.shooting = none ∧
    (0x6000000000000FFF : DWord).getLsbD 62 = true ∧ (0x6000000000000FFF : DWord).getLsbD 61 = true ∧
    ({ tS with shooting := some (4095, 0, none) } : State).shooting = some (4095, 0, none) := ⟨rfl, rfl, by decide, by decide, rfl⟩

/-- What a walk from address 0 of context 0 ends in. -/
def walksTo (s : State) (p : Walk → Bool) : Bool := p (s.walk 0 s.clock (s.rootOf 0) 4).2

/-- An ordinary leaf, a walk that faults, and a root that is not ready. -/
theorem test_witness_PagesMigrate : (nS []).ready.getLsbD 2 = true ∧
    walksTo (nS []) (fun w => match w with
      | .leaf e _ _ => pteTier e == 0
      | _ => false) = true ∧
    walksTo { nS [] with mem := (nS []).mem.setBytes 0x120000 (leBytes (2 ^ 63 + 0x124000) 8) } (fun w => match w with
      | .fault _ => true
      | _ => false) = true ∧
    walksTo { nS [] with ready := 0x1F } (fun w => match w with
      | .wait => true
      | _ => false) = true :=
  ⟨rfl, by decide +kernel, by decide +kernel, by decide +kernel⟩

/-- The first page of 64 KiB of context 0 migrated, and a frame in FREE64: the tables of every level. -/
def farTables (m : Store) : Store :=
  ((((m.setBytes 0x100000 (leBytes (2 ^ 63 + 0x120000) 8)).setBytes 0x120000 (leBytes (2 ^ 63 + 0x140000) 8)).setBytes 0x140000
    (leBytes (2 ^ 63 + 0x140200) 8)).setBytes 0x140200 (leBytes (2 ^ 63 + 0x140300) 8)).setBytes 0x140300
    (leBytes (2 ^ 63 + 2 ^ 62 + 2 ^ 61 + 2 ^ 59 + 2 ^ 41) 8)
def farPage : State :=
  { nS [] with mem := farTables Store.empty, free64 := { Ring.reset with base := 0x2000, tail := 1 } }

theorem test_witness_PagesMigrateFarPage :
    walksTo farPage (fun w => match w with
      | .leaf e level _ => level == 0 && pteTier e == 2
      | _ => false) = true ∧
    (farPage.takeFree 16 1).2 = .got 0 ∧ (farPage.takeFree 16 0).2 = .none ∧ (farPage.takeVictim 0 16 0).2 = .none ∧
    (({ farPage with ready := 4 } : State).takeFree 16 1).2 = .wait ∧ farPage.doneReady = true ∧ farPage.spanReady (2 ^ 41) (2 ^ 16) = true :=
  by decide +kernel

theorem test_witness_DirectoryAnswers : tS.ready.getLsbD 2 = true ∧ (7 : Nat) < 8 ∧ backed 0x10C388CFFFF 1 = true ∧
    (tS.region 0).st = 0 ∧ (tS.region 0).owner = none ∧
    (let s := { tS with dir := [(0, { Region.reset with owner := some 3 })] }
     (s.region 0).st = 0 ∧ (s.region 0).owner = some 3 ∧ 3 ≠ 7) := ⟨rfl, by decide, by decide, rfl, rfl, by decide⟩

/-- The aperture ready, with no block: the last byte of a sector, and a whole one. -/
def hosted : State := { nS [] with ready := (nS []).ready ||| 0x20 }

theorem test_witness_ApertureActs : hosted.ready.getLsbD 5 = true ∧ 31 % 32 + [(1 : Byte)].length ≤ 32 ∧
    32 % 32 + (List.replicate 32 (1 : Byte)).length ≤ 32 ∧ 31 + 1 ≤ 0x10C388D0000 ∧ hosted.memReady 31 = true ∧
    hosted.offline (31 / 32 * 32) = false ∧ hosted.mem.wf = true ∧ hosted.blocks = [] ∧ hosted.olds = [] ∧ hosted.mem.bad (31 / 32) = false ∧
    (∀ i, i < 8 → hosted.memReady (31 + i) = true) ∧ (nS []).ready.getLsbD 5 = false :=
  ⟨by decide, by decide, by decide, by decide, by decide, by decide +kernel, by decide +kernel, rfl, rfl, by decide +kernel, by decide,
   by decide⟩

theorem test_witness_GatherPacketsAreServed : (nS []).ready.getLsbD 2 = true ∧ (List.range 31).length < 32 ∧ (nS []).blocks = [] ∧
    (∀ x ∈ 93 :: (List.range 31).map (· + 94), backed (0 + x) 1 = true ∧ (nS []).memReady (0 + x) = true) ∧
    (∀ x ∈ (List.range 31).map (· + 94), 93 ≤ x) := ⟨rfl, by decide, rfl, by decide, by decide⟩

/-- The power-up state, with the firmware of every unit in order. -/
def verified : State := { State.reset with fwOk := (List.range 37).map fun u => (u, true) }

theorem test_witness_BaseDiesInitialise : State.reset.ready.getLsbD (40 + 23) = false ∧ State.reset.fwPassed (9 + 23) = false ∧
    verified.ready.getLsbD (40 + 23) = false ∧ verified.fwPassed (9 + 23) = true := ⟨by decide, by decide, by decide, by decide⟩

theorem test_witness_FunctionsBecomeReady : (∀ u, u < 37 → verified.fwPassed u = true) ∧
    (∀ bit ∈ [0, 1, 2, 3, 4, 5, 28, 35], verified.ready.getLsbD bit = false) ∧
    ({ verified with ready := 0xC } : State).ready.getLsbD 2 = true ∧ ({ verified with ready := 0xC } : State).ready.getLsbD 3 = true ∧
    State.reset.fwPassed 0 = false ∧ ({ verified with ready := 1 } : State).ready.getLsbD 0 = true :=
  ⟨by decide, by decide, by decide, by decide, by decide, by decide⟩

theorem test_witness_FirmwareReportClock : tS.ready.getLsbD 0 = true ∧ tS.ready.getLsbD 2 = true ∧ tS.hostMem.wf = true ∧
    450 ≤ State.reset.pwr.toNat / 2 ^ 37 % 2 ^ 13 ∧ State.reset.pwr.toNat / 2 ^ 37 % 2 ^ 13 ≤ 1800 ∧
    pcap State.reset.pwr < (0x3FFF : BitVec 14).toNat ∧ ¬(pcap State.reset.pwr < (0 : BitVec 14).toNat ∨ 100 ≤ (99 : BitVec 8).toNat) :=
  ⟨rfl, rfl, rfl, by decide, by decide, by decide, by decide⟩

theorem test_witness_ResetsRestart : (Instr.powerUp = .powerUp ∨ Instr.powerUp = .managementResetRequest .package) ∧ (23 : Nat) < 24 :=
  ⟨.inl rfl, by decide⟩

theorem test_witness_GuardedRegisters : (179 : Nat) < 1536 ∧ 179 % 8 < 4 ∧ (nS []).ready.getLsbD (28 + isleOf 179) = true ∧
    ((nS []).core 179).blocks = [] ∧ (tS.core 0).blocks ≠ [] ∧ tS.ready.getLsbD (28 + isleOf 0) = true ∧
    ((nS []).ctx 1).st = .free ∧ ((nS []).ctx 0).st ≠ .free ∧ ((nS []).ctx 0).st ≠ .stopped :=
  ⟨by decide, by decide, by decide, rfl, nofun, by decide, rfl, by decide, by decide⟩

theorem test_witness_RegistersReadBack : State.reset.ready.getLsbD (MReg.owner (.acl 0)) = false ∧ tS.ready.getLsbD 4 = true ∧
    tS.ready.getLsbD 2 = true ∧ (tS.ctx 4095).st = .free ∧ tS.ctxStill 4095 = true ∧ (2 ^ 56 : BitVec 256).toNat / 2 ^ 56 % 8 = 1 ∧
    tS.ready.getLsbD 0 = true ∧ ((nS []).core 179).blocks = [] ∧ (nS []).ready.getLsbD (28 + isleOf 179) = true :=
  ⟨by decide, rfl, rfl, rfl, by decide, by decide, rfl, rfl, by decide⟩

theorem test_witness_WritesAreAcknowledged : (tOf tWrites).block? 0 0 = some (tBlock tWrites) ∧
    (tBlock tWrites).gangs[0]? = some tWrites ∧ tWrites.outst = [] ++ (0, 0) :: [] ∧ gWrites.th.outst = [] ++ (0, 0) :: [] ∧
    (gState gWrites).block? 0 0 = some gWrites ∧
    (let p : Nat × Nat := (8, 2)
     let f := { fCmd with kind := .egh, id := 7, flits := [(3, 0xFFF)] }
     (∃ y ∈ ((tFerry [] [f] 0).core 0).ferry, y.slot = 0 ∧ y.gang = 0 ∧ y.id + 1 = p.1 ∧ y.flits ≠ []) ∧
       ¬∃ y ∈ ((tFerry [] [fCmd] 0).core 0).ferry, y.slot = 0 ∧ y.gang = 0 ∧ y.id + 1 = p.1 ∧ y.flits ≠ []) :=
  ⟨rfl, rfl, rfl, rfl, rfl, by decide, by decide⟩

/-- DBGCMD names isle 0, cluster 0, core 0, block 0, gang 0, register 119, lane 31, and GO; another names cluster 24, and
one register 120. -/
def dbgV : DWord := BitVec.ofNat 64 (2 ^ 63 + 119 * 2 ^ 29 + 31 * 2 ^ 24)
def dbgNone : DWord := BitVec.ofNat 64 (2 ^ 63 + 24 * 2 ^ 46)
def dbgHigh : DWord := BitVec.ofNat 64 (2 ^ 63 + 120 * 2 ^ 29)
def tHalted : Gang := { tGang with st := .parked, halted := true }

theorem test_witness_CommandsAreRefused : tS.graphUp = true ∧ dbgV.getLsbD 63 = true ∧ GangCommand 0 dbgV (.readv 0 dbgV) ∧
    ThreadCommand 0 dbgV (.gresume 0 dbgV) ∧ (tS.ctx 0).debug = false ∧ ((debugging false tS).ctx 0).debug = true ∧
    ¬(dbgNone.toNat / 2 ^ 46 % 32 < 24) ∧ dbgV.toNat / 2 ^ 46 % 32 < 24 ∧
    (debugging false tS).block? (dbgTarget dbgV) (dbgV.toNat / 2 ^ 40 % 16) = some (tBlock tGang) ∧
    (debugging false tS).gang? 0 0 1 = none ∧ (tBlock tGang).th.halted = false ∧ tGang.halted = false ∧
    (tBlock tHalted).gangs[0]? = some tHalted ∧ (tBlock tHalted).shape.n ≤ dbgHigh.toNat / 2 ^ 29 % 128 :=
  ⟨rfl, by decide, .readv, .resume, rfl, rfl, by decide, by decide, by decide +kernel, rfl, rfl, rfl, rfl, by decide⟩

theorem test_witness_CommandsAct : (debugging false tS).graphUp = true ∧ dbgV.getLsbD 63 = true ∧
    (debugging false (tOf tHalted)).block? (dbgTarget dbgV) (dbgV.toNat / 2 ^ 40 % 16) = some (tBlock tHalted) ∧
    (tBlock tHalted).control = false ∧ (tBlock tHalted).gangs[dbgV.toNat / 2 ^ 36 % 16]? = some tHalted ∧ tHalted.halted = true ∧
    dbgV.toNat / 2 ^ 29 % 128 < (tBlock tHalted).shape.n ∧ tHalted.groups ≠ [] ∧ tHalted.faultParked = false ∧
    tParked.st = .parked ∧ tParked.halted = false ∧ tGang.st = .running ∧ (Gang.fresh 0).st = .idle ∧
    ({ gBlock.th with halted := true } : Thread).halted = true ∧ dbgV.toNat / 2 ^ 24 % 32 / 4 < (tBlock tHalted).shape.slices ∧
    ({ (tBlock tHalted).shape with slices := 7 } : Shape).slices ≤ dbgV.toNat / 2 ^ 24 % 32 / 4 :=
  ⟨rfl, by decide, by decide +kernel, rfl, by decide +kernel, rfl, by decide, by decide, rfl, rfl, rfl, rfl, rfl, rfl, by decide,
   by decide⟩

/-- A data flit of the 192 bytes at address 0, and the entry of the access-control table that admits it. -/
def dataFlit : Flit := { flit0 with kind := .data, addr := 0, count := 192 }
def admits (s : State) : State := { linked s with acl := [(4095, BitVec.ofNat 64 (2 ^ 63 + 2 ^ 61 + 1 * 2 ^ 52))] }

def placesOk (s : State) (f : Flit) (p : List (Nat × Nat) → Bool) : Bool :=
  match (s.flitPlace f.ctx.toNat f f.sectors).2 with
  | .ok l => p l
  | .wait _ => false

theorem test_witness_DataFlitsWrite : tS.inSeq 0 dataFlit = false ∧ (linked (nS [])).inSeq 3 dataFlit = true ∧
    (linked (nS [])).aclAllows false 1 0 none = false ∧ (admits (nS [])).inSeq 3 dataFlit = true ∧
    (admits (nS [])).aclAllows false 1 0 none = true ∧
    placesOk (admits (nS [])) dataFlit (fun l => l == [(0, 0), (1, 1), (2, 2), (3, 3), (4, 4), (5, 5)]) = true ∧
    (admits (nS [])).blocks = [] ∧ (admits (nS [])).mem.wf = true ∧ (admits (nS [])).offline 0 = false :=
  ⟨by decide, by decide, by decide +kernel, by decide, by decide +kernel, by decide +kernel, rfl, by decide +kernel,
   by decide +kernel⟩

/-- Flits sent and not acknowledged on cape 3; a command of core 0 that waits for the second, and a thread. -/
def sent (n : Nat) (k : FlitKind) : List (BitVec 12 × Flit × Nat) := [(0, { flit0 with kind := k }, n), (0xFFF, flit0, 0)]
def sends (n : Nat) (k : FlitKind) : State :=
  let b := { tBlock tGang with th := { (tBlock tGang).th with wait := .peer 3 0xFFF } }
  let s := linked (tState b)
  { s.setCore 0 { s.core 0 with ferry := [{ fCmd with kind := .egh, done := true, flits := [(3, 0xFFF)] }] } with
    capes := [(3, { Cape.reset with replay := sent n k })] }

theorem test_witness_AcknowledgementsRetire : (∀ e ∈ ((sends 0 .data).cape 3).replay, e.1 ≠ 5) ∧
    ((sends 0 .data).cape 3).replay = [(0, { flit0 with kind := .data }, 0)] ++ (0xFFF, flit0, 0) :: [] ∧
    (∀ y ∈ [((0 : BitVec 12), ({ flit0 with kind := .data } : Flit), 0)], y.1 ≠ 0xFFF) ∧
    (∃ c ∈ ((sends 0 .data).core 0).ferry, (3, (0xFFF : BitVec 12)) ∈ c.flits ∧ c.status.getD 0 = 0) ∧
    ((sends 0 .data).blocks.map fun p => (p.1, p.2.1)).Nodup ∧
    (∃ b, (sends 0 .data).block? 0 0 = some b ∧ b.th.wait = .peer 3 0xFFF) ∧ (sends 0 .data).ready.getLsbD (36 + 3) = true :=
  ⟨by decide, rfl, by decide, by decide, by decide, ⟨_, rfl, rfl⟩, by decide⟩

theorem test_witness_FlitsAreDropped : ((sends 8 .data).cape 3).replay = (0, { flit0 with kind := .data }, 8) :: [(0xFFF, flit0, 0)] ∧
    ((sends 7 .data).cape 3).replay = (0, { flit0 with kind := .data }, 7) :: [(0xFFF, flit0, 0)] ∧ (tS.cape 3).replay = [] ∧
    (linked (nS [])).inSeq 3 { dataFlit with body := [1] } = true ∧ ([1] : List Byte).headD 0 = 1 ∧
    (linked (nS [])).inSeq 3 dataFlit = true ∧ dataFlit.body.headD 0 = 0 ∧
    placesOk (linked (nS [])) dataFlit (fun l => l.length == 6) = true ∧ tS.inSeq 3 dataFlit = false :=
  ⟨rfl, rfl, rfl, by decide, rfl, by decide, rfl, by decide +kernel, by decide⟩

theorem test_witness_TidesAlign : (linked tS).ready.getLsbD (36 + 3) = true ∧ tS.ready.getLsbD (36 + 3) = false ∧
    (0 + ((linked tS).cape 3).delay).toNat ≤ (linked tS).tide.toNat ∧
    (linked tS).tide.toNat < (1 + ((linked tS).cape 3).delay).toNat ∧
    ((linked tS).tide - ((linked tS).cape 3).lastTide).toNat < 65536 ∧
    65536 ≤ (({ linked tS with tide := 65536 } : State).tide - ((linked tS).cape 3).lastTide).toNat ∧
    ({ verified with ready := 8 } : State).ready.getLsbD 3 = true ∧ verified.fwPassed (33 + 3) = true ∧
    ({ verified with ready := 8 } : State).ready.getLsbD (36 + 3) = false :=
  ⟨by decide, by decide, by decide, by decide, by decide, by decide, by decide, by decide, by decide⟩

/-- A member of a pod of two packages, dispatched; a flit of barrier 15 of its group. -/
def member : Instance := { inst0 with phase := .running, dispatched := [0], tmpl := vput rec0 0 (BitVec.ofNat 64 (2 * 2 ^ 40)) }
def barFlit : Flit := { flit0 with kind := .barrierArrival, addr := 15, body := List.replicate 16 0 }
def pods (l : List Instance) : State :=
  { linked (nS l) with acl := [(0, BitVec.ofNat 64 (2 ^ 63 + 2 ^ 62 + 1 * 2 ^ 52))] }

theorem test_witness_PodBarrierFlits : tS.inSeq 3 barFlit = false ∧ (pods []).inSeq 3 barFlit = true ∧
    (pods []).podMember? (flitHome barFlit) (flitGroup barFlit) = none ∧ (pods []).early.length < 1024 ∧
    (pods [member]).podMember? (flitHome barFlit) (flitGroup barFlit) = some member ∧ member.dispatched ≠ [] ∧
    (∃ e ∈ (pods [member]).acl, e.2.getLsbD 63 = true ∧ e.2.getLsbD 62 = true ∧ e.2.toNat / 2 ^ 52 % 512 = barFlit.src.toNat ∧
      e.2.toNat / 2 ^ 34 % 4096 = member.ctx) ∧
    (∀ p ∈ (pods [member]).pods, ¬(p.home = flitHome barFlit ∧ p.group = flitGroup barFlit ∧ p.b = flitBar barFlit)) ∧
    1 < member.recd.podn ∧ ({ linked (nS []) with acl := [] } : State).acl = [] ∧ (pods [member]).netExpect 0 3 0 = 1 ∧
    ((pods [member]).net 0 3 0 15).count = 0 ∧
    (({ pods [member] with nets := [⟨0, 3, 0, 15, 1, false, []⟩] } : State).net 0 3 0 15).count = 1 :=
  ⟨by decide, by decide, by decide +kernel, by decide, by decide +kernel, by decide, by decide, nofun, by decide +kernel, rfl,
   by decide +kernel, rfl, rfl⟩

/-! ### Single steps: results worked out by hand from the rules -/

/-- A register of 32 equal lanes, stamped AGELESS. -/
def same (x : Word) : VReg := ⟨Vector.replicate 32 x, Vector.replicate 8 ageless⟩

/-- The gang with v1 = x and v2 = y in every lane. -/
def xy (x y : Word) : Gang := { tGang with v := [(1, same x), (2, same y)] }

/-- Lane `L` of register `r` of gang 0 after one instruction. -/
def after (i : Instr) (s : State) (r L : Nat) : Option Word :=
  match exec i s with
  | .next t => (t.gang? 0 0 0).map fun g => lane (g.bank r).lanes L
  | _ => none

/-- Mask register `k` after one instruction. -/
def maskAfter (i : Instr) (s : State) (k : Nat) : Option Word :=
  match exec i s with
  | .next t => (t.gang? 0 0 0).map fun g => g.kreg k
  | _ => none

/-- Register `r` of the thread of core 0 after one instruction. -/
def gAfter (i : Instr) (s : State) (r : Nat) : Option DWord :=
  match exec i s with
  | .next t => (t.block? 0 0).map fun b => (b.th.reg r).val
  | _ => none

/-- Byte `a` of device memory after one instruction. -/
def byteAfter (i : Instr) (s : State) (a : Nat) : Option Byte :=
  match exec i s with
  | .next t => some (t.mem.byte a)
  | _ => none

/-- The cause and detail of the W-level fault that one instruction leaves in the thread's queue. -/
def wFaultOf (i : Instr) (s : State) : Option Nat :=
  match exec i s with
  | .next t => ((t.block? 0 0).bind fun b => b.th.queue.head?).map fun r => r.cause.toNat % 2 ^ 32
  | _ => none

/-- R142: a wrap; a signed high product; a shift amount modulo 32; a signed maximum. -/
theorem test_iadd_wraps : after (.iadd (reg3 3 1 2)) (tOf (xy 0xFFFFFFFF 2)) 3 31 = some 1 := by decide +kernel
theorem test_imulh_signed : after (.imulh (reg3 3 1 2)) (tOf (xy 0x80000000 0x80000000)) 3 0 = some 0x40000000 := by decide +kernel
theorem test_ishl_modulo : after (.ishl (reg3 3 1 2)) (tOf (xy 1 33)) 3 0 = some 2 := by decide +kernel
theorem test_imax_signed : after (.imax (reg3 3 1 2)) (tOf (xy 0xFFFFFFFF 1)) 3 0 = some 1 := by decide +kernel

/-- R45, R116: a write to vz is discarded; a source that is also the destination. -/
theorem test_vz_discards : after (.iadd (reg3 126 1 2)) (tOf (xy 1 2)) 126 0 = some 0 := by decide +kernel
theorem test_source_is_destination : after (.isub (reg3 1 1 1)) (tOf (xy 7 0)) 1 5 = some 0 := by decide +kernel

/-- R137, R143: 1.0 + 2^−24 rounds to even; 1.5 × −2.0; 4.0 − 1.0 × 1.0. -/
theorem test_fadd_ties_to_even : after (.fadd (reg3 3 1 2)) (tOf (xy 0x3F800000 0x33800000)) 3 0 = some 0x3F800000 := by
  decide +kernel
theorem test_fmul_sign : after (.fmul (reg3 3 1 2)) (tOf (xy 0x3FC00000 0xC0000000)) 3 0 = some 0xC0400000 := by decide +kernel
theorem test_fnma : after (.fnma (reg3 1 2 2)) (tOf (xy 0x40800000 0x3F800000)) 1 0 = some 0x40400000 := by decide +kernel

/-- R146: the halves do not carry into one another. -/
theorem test_hadd_halves : after (.hadd (reg3 3 1 2)) (tOf (xy 0x3C003C00 0x3C004000)) 3 0 = some 0x40004200 := by decide +kernel

/-- R148: truncation toward zero and saturation; an FP32 code narrowed to the upper half. -/
theorem test_cvtfi : after (.cvtfi { cvt0 with d := 3, a := 1 }) (tOf (xy 0xC0200000 0)) 3 0 = some 0xFFFFFFFE := by decide +kernel
theorem test_cvtfb_upper : after (.cvtfb { cvt0 with d := 3, a := 1, p := 1 }) (tOf (xy 0x3F800000 0)) 3 0 = some 0x3F800000 := by
  decide +kernel

/-- R154, R155: an unsigned compare of a value that is negative as a signed one; mask logic. -/
theorem test_icmpltu : maskAfter (.icmpltu { s := false, c := false, d := 7, a := 1, b := 2, lit := 0 }) (tOf (xy 1 0xFFFFFFFF)) 7 =
    some 0xFFFFFFFF := by decide +kernel
theorem test_kandn : maskAfter (.kandn { s := false, c := false, d := 2, a := 0, b := 1 })
    (tOf { tGang with k := vput (vput tGang.k 0 0xFF) 1 0x0F }) 2 = some 0xF0 := by decide +kernel

/-- R153: lane L takes lane L xor 1. -/
theorem test_lxor : after (.lxor (reg3 3 1 2)) (tOf { xy 0 1 with v := [(1, ⟨vec 32 fun i => BitVec.ofNat 32 i, Vector.replicate 8 ageless⟩), (2, same 1)] })
    3 30 = some 31 := by decide +kernel

/-- R40, R338: an illegal register faults with 0x02 and its number; R133: BOWAIT of a misaligned offset with 0x20. -/
theorem test_illegal_register : wFaultOf (.iadd (reg3 120 0 0)) tS = some (120 * 65536 + 0x02) := by decide +kernel
theorem test_bowait_misaligned : wFaultOf (.bowait false false 2) (tOf tObj) = some 0x20 := by decide +kernel
theorem test_trap : wFaultOf (.trap false false 0x1234) tS = some 0x12340070 := by decide +kernel

/-- R94: a high product; a division by 0; an arithmetic shift by 63. -/
def gTwo (x y : DWord) : State := gState { gBlock with th := { gBlock.th with g := vput (vput gBlock.th.g 1 ⟨x, ageless⟩) 2 ⟨y, ageless⟩ } }
theorem test_mulhu : gAfter (.mulhu (gr 3 1 2)) (gTwo 0xFFFFFFFFFFFFFFFF 2) 3 = some 1 := by decide +kernel
theorem test_divu_zero : gAfter (.divu (gr 3 1 2)) (gTwo 5 0) 3 = some 0xFFFFFFFFFFFFFFFF := by decide +kernel
theorem test_sari_63 : gAfter (.sari 3 1 63) (gTwo 0x8000000000000000 0) 3 = some 0xFFFFFFFFFFFFFFFF := by decide +kernel

/-- R72: register 0 reads 0 whatever is written to it. -/
theorem test_g0_zero : gAfter (.addi (gi 0 1 1)) (gTwo 5 0) 0 = some 0 := by decide +kernel

/-- R95 to R97: a store of one byte, a load that zero-extends, an addition that wraps in 32 bits. -/
theorem test_gst_byte : byteAfter (.gst { gmem0 with d := 2, a := 1, b := 0, size := 0 }) (gTwo 0x1003 0x1FF) 0x1003 = some 0xFF ∧
    byteAfter (.gst { gmem0 with d := 2, a := 1, b := 0, size := 0 }) (gTwo 0x1003 0x1FF) 0x1004 = some 0 := by decide +kernel
theorem test_gld_zero_extends : gAfter (.gld { gmem0 with d := 3, a := 1, b := 0, size := 1 })
    { gTwo 0x1000 0 with mem := gS.mem.setBytes 0x1000 [0xFF, 0xFF, 0xFF] } 3 = some 0xFFFF := by decide +kernel
theorem test_gatom_wraps : byteAfter (.gatom { gatom0 with d := 3, a := 1, b := 2, size := false, aop := 2 })
    { gTwo 0x1000 1 with mem := gS.mem.setBytes 0x1000 [0xFF, 0xFF, 0xFF, 0xFF, 9] } 0x1003 = some 0 ∧
    byteAfter (.gatom { gatom0 with d := 3, a := 1, b := 2, size := false, aop := 2 })
    { gTwo 0x1000 1 with mem := gS.mem.setBytes 0x1000 [0xFF, 0xFF, 0xFF, 0xFF, 9] } 0x1004 = some 9 := by decide +kernel

/-- R104, R105: GTRAP enters the handler: h28 holds number and code, h30 the next word's address. -/
theorem test_gtrap : gAfter (.gtrap 0x1234) gS 28 = some 0x12340070 ∧ gAfter (.gtrap 0x1234) gS 30 = some 0x200004 := by decide +kernel

/-- R86: RECLAIM beyond S faults (0x12). -/
theorem test_reclaim_beyond : gAfter (.reclaim 1 0) (gTwo 1 0) 28 = some 0x12 := by decide +kernel

/-! Branches of the statements above: boundary cases and conditions that the theorems before do not reach. -/

/-- `tTwo` where slices 1 to 7 have issued a QBAR that slice 0 has not; writes that are not acknowledged besides. -/
def tLeft (l : List (Nat × Nat)) : Gang :=
  { tTwo with arr := [(32, vec 8 fun j => if j = 0 then 0 else 1)], outst := l }
def tLeftS (l : List (Nat × Nat)) (m : BitVec 8) : State := { tOf (tLeft l) with cur := .wide 0 0 0 m }

/-- EXIT of slice 0 with which the gang arrives at a quad barrier, its writes acknowledged or not; of the others, with which it
does not. -/
theorem test_witness_ControlWordsComplete :
    (∃ e, (tLeftS [] 1).env? = some e ∧ e.accepts (ctlHow false false) ∧ e.g.awaits e.m = false ∧ e.g.leftLevel e.m = some 0 ∧
      ∃ g, ((tLeftS [] 1).scopeBack 0 0 0 3).gang? 0 0 0 = some g ∧
        (g.pend.any (fun p => p.isLoad && !p.returned) || !(ackedFor g.outst 3)) = false) ∧
    (∃ e, (tLeftS [(0, 0)] 1).env? = some e ∧ e.accepts (ctlHow false false) ∧ e.g.awaits e.m = false ∧ e.g.leftLevel e.m = some 0 ∧
      ∃ g, ((tLeftS [(0, 0)] 1).scopeBack 0 0 0 3).gang? 0 0 0 = some g ∧
        (g.pend.any (fun p => p.isLoad && !p.returned) || !(ackedFor g.outst 3)) = true) ∧
    ∃ e, (tLeftS [] 0xFE).env? = some e ∧ e.accepts (ctlHow false false) ∧ e.g.awaits e.m = false ∧ e.g.leftLevel e.m = none :=
  ⟨⟨_, rfl, And.intro rfl rfl, rfl, by decide, _, rfl, by decide⟩, ⟨_, rfl, And.intro rfl rfl, rfl, by decide, _, rfl, by decide⟩,
   ⟨_, rfl, And.intro rfl rfl, rfl, by decide⟩⟩

/-- All of a gang waits at its rendezvous; one of two groups waits there, for the other. -/
def tMeets : Gang := { tGang with groups := [{ Group.start 0xFF 0 0 with wait := .regang 0xFF }] }
def tHalf : Gang := { tTwo with groups := [Group.start 0x01 0 0, { Group.start 0xFE 0 0 with wait := .regang 0xFF }] }

theorem test_witness_RendezvousMerges :
    ((∃ x ∈ tMeets.groups, ∃ j, waitsAt 0 0xFF x j) ∧
      ∀ j, (0xFF : BitVec 8).getLsbD j = true → (∃ x ∈ tMeets.groups, x.mask.getLsbD j = true) → ∃ x ∈ tMeets.groups, waitsAt 0 0xFF x j) ∧
    ¬∀ j, (0xFF : BitVec 8).getLsbD j = true → (∃ x ∈ tHalf.groups, x.mask.getLsbD j = true) → ∃ x ∈ tHalf.groups, waitsAt 0 0xFF x j :=
  ⟨⟨⟨_, List.mem_singleton_self _, 0, rfl, rfl, rfl⟩, fun _ h _ => ⟨_, List.mem_singleton_self _, rfl, rfl, h⟩⟩, by
     intro h
     obtain ⟨x, hx, _, hw, hm⟩ := h 0 (by decide) ⟨Group.start 0x01 0 0, by decide, by decide⟩
     simp only [tHalf, List.mem_cons, List.not_mem_nil, or_false] at hx
     rcases hx with rfl | rfl
     · exact nomatch hw
     · exact absurd hm (by decide)⟩

/-- Slice 0 leaves a gang of two groups: with nothing that waits for it, with an arrival that is complete without it, with a
rendezvous; and slices leave with which the arrival is not complete. -/
theorem test_witness_OtherGroupsStay : tTwoS.gang? 0 0 0 = some tTwo ∧ (∃ x ∈ tTwo.groups, x.mask ≠ 0x01) ∧
    (∀ x ∈ (withoutSlices tTwo 0x01 5).groups, ∀ k, x.wait ≠ .regang k) ∧ (∀ a ∈ tTwo.arr, 132 ≤ a.1) ∧
    (tLeftS [] 1).gang? 0 0 0 = some (tLeft []) ∧ (tLeft []).arr = [(32, vec 8 fun j => if j = 0 then 0 else 1)] ∧
    (withoutSlices (tLeft []) 0x01 5).live ≠ 0 ∧
    (∀ j, j < 8 → (withoutSlices (tLeft []) 0x01 5).live.getLsbD j = true → vat (vec 8 fun j => if j = 0 then 0 else 1) 0 j ≠ 0) ∧
    ¬(∀ j, j < 8 → (withoutSlices (tLeft []) 0xFE 5).live.getLsbD j = true → vat (vec 8 fun j => if j = 0 then 0 else 1) 0 j ≠ 0) ∧
    (∃ x, (withoutSlices tHalf 0x01 5).groups = [x] ∧ x.mask ≠ 0 ∧ x.wait = .regang 0xFF) :=
  ⟨rfl, by decide, by
     have h : (withoutSlices tTwo 0x01 5).groups = [Group.start 0xFE 0 0] := by decide
     rw [h]
     intro x hx k
     rw [List.mem_singleton.mp hx]
     exact nofun, by decide, rfl, rfl, by decide, by decide, by decide, ⟨_, rfl, by decide, rfl⟩⟩

/-- A load that ended: of device memory and of the scratchpad; a lane whose address does not translate. -/
def readsOkAt (x : State × Except Stop Got) : Bool :=
  match x.2 with
  | .ok _ => true
  | .error _ => false

theorem readsOkAt_exists {x : State × Except Stop Got} (h : readsOkAt x = true) : ∃ t g, x = (t, .ok g) := by
  rcases x with ⟨t, e | g⟩
  · exact nomatch h
  · exact ⟨t, g, rfl⟩

theorem readsOkAt_error {x : State × Except Stop Got} (h : readsOkAt x = false) : ∃ t e, x = (t, .error e) := by
  rcases x with ⟨t, e | g⟩
  · exact ⟨t, e, rfl⟩
  · exact nomatch h

theorem test_witness_MemoryTestsComeInOrder :
    ([(0, .scratch 0), (31, .extent)] : List (Nat × LaneAddr)) = [(0, .scratch 0)] ++ (31, .extent) :: [] ∧
    ([(0, .badVa 1), (31, .extent)] : List (Nat × LaneAddr)) = [] ++ (0, .badVa 1) :: [(31, .extent)] ∧
    ∀ q ∈ ([(0, .scratch 0)] : List (Nat × LaneAddr)), q.2 ≠ .extent ∧ ∀ va, q.2 ≠ .badVa va :=
  ⟨rfl, rfl, by simp⟩

/-- A wheel address: its wheel valid, with both stages held: the last drain stage, the stage beyond it, a fill stage that is not
free, an access beyond a stage; wheel 0 has no stages. -/
theorem test_witness_LaneAddressesAreFormed : ({ mem0 with wsel := 15 } : MemOp).wsel = 15 ∧
    ∃ e, (tState (tSync 2)).env? = some e ∧
      [0xC1000000, 0xC2000000, 0xE0000000, 0xC000001D, 0x00000000].map (e.address { mem0 with wsel := 15 }) =
        [.scratch 32, .extent, .stall, .extent, .extent] :=
  ⟨rfl, _, rfl, by decide +kernel⟩

/-- Global reads: through the L1, filling it; at an address that does not translate; of a line that the L1 holds. -/
def cached (s : State) : State :=
  s.setCore 0 { s.core 0 with l1 := [(0, ⟨List.replicate 128 1, List.replicate 4 ageless, List.replicate 4 false, 0, 0, [0, 0, 0, 0]⟩)] }

theorem test_witness_LanesReadInOrder :
    (∃ t g, tS.globalRead (.slice 0 0 0 (31 / 4)) 0 0 0 0 0 (2 ^ 2) true true true = (t, .ok g)) ∧
    (∃ t e, tS.globalRead (.slice 0 0 0 (31 / 4)) 0 0 0 0 0x100000000 (2 ^ 2) true true true = (t, .error e)) ∧
    ∃ t g, tS.spLoad (.slice 0 0 0 (31 / 4)) 0 0 4092 4 false = (t, g) :=
  ⟨readsOkAt_exists (by decide +kernel), readsOkAt_error (by decide +kernel), ⟨_, _, rfl⟩⟩

theorem test_witness_GlobalReadsGiveMemory : quiet tS ∧ 28 % 32 + 4 ≤ 32 ∧
    (tS.block? 0 0).bind (fun b => b.stashMap? 28) = none ∧ (∃ t pa, tS.translate 0 0 28 false 4 = (t, .ok pa)) ∧
    Tbl.get? ((tS.translate 0 0 28 false 4).1.core 0).l1 0 = none ∧ quiet (cached tS) ∧
    (∃ t pa, (cached tS).translate 0 0 28 false 4 = (t, .ok pa)) ∧
    (Tbl.get? (((cached tS).translate 0 0 28 false 4).1.core 0).l1 0).isSome = true :=
  ⟨by unfold quiet; decide +kernel, by decide, by decide +kernel, isOk_exists (by decide +kernel), by decide +kernel,
   by unfold quiet; decide +kernel, isOk_exists (by decide +kernel), by decide +kernel⟩

/-- v1 gives every lane its own word of four sectors. -/
def tLadder : Gang := { tGang with v := [(1, ⟨vec 32 fun i => BitVec.ofNat 32 (4 * i), Vector.replicate 8 ageless⟩)] }
def poisoned (l : List Nat) (s : State) : State := { s with mem := { s.mem with poison := l.map fun i => (i, ()) } }

/-- Stores of device memory: sector 0 not written whole, clean and poisoned; every byte of sector 3 written. -/
theorem test_witness_DeviceStoresWriteTheirBytes : gmem.wsel.toNat < 14 ∧ (∀ q ∈ tEnv.lanes gmem, ∃ va, q.2 = .global va) ∧
    (tS.block? 0 0).bind (fun b => b.stashMap? 0) = none ∧ tS.memOk ∧ (∀ p ∈ tS.blocks, ∀ l ∈ p.2.2.stash, l.2.dirty = false) ∧
    (∃ t pa, tS.translate 0 0 (BitVec.ofNat 64 (32 * 0)) true 32 = (t, .ok pa)) ∧ tS.offline 0 = false ∧ tS.mem.bad 0 = false ∧
    ((poisoned [0] tS).mem.bad 0 = true ∧ (poisoned [0] tS).memOk) ∧
    (¬∀ k, k < 32 → ∃ p ∈ tEnv.storeBytes gmem (tEnv.lanes gmem), p.2.1 = 32 * 0 + k) ∧
    ∃ e, (tOf tLadder).env? = some e ∧
      ∀ k, k < 32 → ∃ p ∈ e.storeBytes { gmem with voff := 1 } (e.lanes { gmem with voff := 1 }), p.2.1 = 32 * 3 + k :=
  ⟨by decide, by
     have h : (tEnv.lanes gmem).all (fun q => q.2 == .global 0) = true := by decide +kernel
     intro q hq
     exact ⟨0, by simpa using List.all_eq_true.mp h q hq⟩, by decide +kernel, by unfold State.memOk; decide +kernel, by decide,
   isOk_exists (by decide +kernel), by decide +kernel, by decide +kernel, ⟨by decide +kernel, by unfold State.memOk; decide +kernel⟩,
   by decide +kernel, ⟨_, rfl, by decide +kernel⟩⟩

/-- Operands whose stamps are ANCIENT, under bound 15, which admits ages to 0. -/
def tOldData : Gang := { tGang with v := [(0, ⟨Vector.replicate 32 0, Vector.replicate 8 ancient⟩)] }
def amem : MemOp := { mem0 with bnd := 15 }

/-- An ATOM that issues, one that waits as a release, one with no active lane, and one whose operands are too old under TRAP. -/
theorem test_witness_AtomsArePosted : tS.env? = some tEnv ∧ tEnv.accepts (memHow mem0 [.group mem0.d mem0.atomGroup, .v mem0.voff]) ∧
    tEnv.act ≠ 0 ∧ tEnv.memTests mem0 (tEnv.lanes mem0) (tEnv.misaligned mem0 (tEnv.lanes mem0)) = none ∧
    tEnv.releaseWait mem0 = (tS, false) ∧ tEnv.storeBound 0 tS (tEnv.storeFails 0 fun j => tEnv.groupStamp mem0.operandReg mem0.regs j) = (tS, none) ∧
    (∃ e, (tOf tNone).env? = some e ∧ e.act = 0) ∧
    (∃ e t, (tOf tWrites).env? = some e ∧ e.accepts (memHow rmem [.group rmem.d rmem.atomGroup, .v rmem.voff]) ∧ e.act ≠ 0 ∧
      e.memTests rmem (e.lanes rmem) (e.misaligned rmem (e.lanes rmem)) = none ∧ e.releaseWait rmem = (t, true)) ∧
    ∃ e, (bounded 0x40000000 (tOf tOldData)).env? = some e ∧ e.act ≠ 0 ∧
      e.memTests amem (e.lanes amem) (e.misaligned amem (e.lanes amem)) = none ∧
      (e.storeBound 15 e.s (e.storeFails 15 fun j => e.groupStamp amem.operandReg amem.regs j)).2 = some (.freshness 31) :=
  ⟨rfl, test_accepts _ rfl, by decide, rfl, rfl, by decide +kernel, ⟨_, rfl, by decide⟩,
   ⟨_, _, rfl, And.intro rfl rfl, by decide, rfl, rfl⟩, ⟨_, rfl, by decide, rfl, by decide +kernel⟩⟩

/-- A lane of an addition at the last word of the scratchpad, one that fails to swap, and a poisoned sector. -/
def lane0 (a : LaneAddr) (c : Nat) : AtomLane := ⟨31, a, 5, c, ageless⟩

theorem test_witness_ScratchLanesPerform : (lane0 (.scratch 4092) 0).adr = .scratch 4092 ∧ tS.block? 0 0 = some (tBlock tGang) ∧
    (tBlock tGang).sp.bad (4092 / 32) = false ∧ atomSpec 2 4 ((tBlock tGang).sp.nat 4092 4) 5 0 = some 5 ∧
    atomSpec 1 4 ((tBlock tGang).sp.nat 4092 4) 5 1 = none ∧ (tBlock tGang).sp.wf = true ∧ 4092 % 4 = 0 ∧
    ({ Store.empty with poison := [(127, ())] } : Store).bad (4092 / 32) = true :=
  ⟨rfl, rfl, by decide, by decide, by decide, by decide, by decide, by decide⟩

theorem test_witness_DeviceLanesPerform : (lane0 (.global 28) 0).adr = .global 28 ∧ mem0.scope.toNat ≤ 2 ∧
    (tS.block? 0 0).bind (fun b => b.stashMap? 28) = none ∧ (∃ t pa, tS.translate 0 0 28 true 4 = (t, .ok pa)) ∧ 28 % 4 = 0 ∧ tS.memOk ∧
    (∀ p ∈ tS.blocks, ∀ l ∈ p.2.2.stash, l.2.dirty = false) ∧ tS.homeBad (28 / 32) = false ∧ (poisoned [0] tS).homeBad 0 = true ∧
    atomSpec 1 4 (tS.mem.nat 28 4) 5 1 = none ∧ atomSpec 0 4 (tS.mem.nat 28 4) 5 1 = some 5 :=
  ⟨rfl, by decide, by decide +kernel, isOk_exists (by decide +kernel), by decide, by unfold State.memOk; decide +kernel, by decide,
   by decide +kernel, by decide +kernel, by decide +kernel, by decide⟩

/-- A pending ATOM of lane 31 in the scratchpad, in device memory, and at an address that does not translate. -/
def pAtom (a : LaneAddr) : Pend :=
  { Pend.new 0xFF 0 (.lanes 0 0x80000000 [] (Vector.replicate 32 ancient) (Vector.replicate 32 0)) 0 with
    atom := some { o := { mem0 with aop := 2 }, lanes := [lane0 a 0], rels := [] } }

theorem test_witness_PendingAtomsPerform : (pAtom (.scratch 0)).atom = some ⟨{ mem0 with aop := 2 }, [lane0 (.scratch 0) 0], []⟩ ∧
    (∃ t, tS.reach 0 0 0 (.result 0) 0 true 4 true [(31, .scratch 0)] = (t, none, false)) ∧
    (let A := tS.acquiring (groupWho 0 0 0 0xFF) none fun u => u.atomLanes 0 0 0 0 (u.now 0) { mem0 with aop := 2 } [] [lane0 (.scratch 0) 0]
     A.2.2 = none ∧ A.2.1.any (·.2.bad) = false) ∧
    (∃ t, tS.reach 0 0 0 (.result 0) 0 true 4 true [(31, .global 0)] = (t, none, false)) ∧
    (let s := poisoned [0] tS
     let A := s.acquiring (groupWho 0 0 0 0xFF) none fun u => u.atomLanes 0 0 0 0 (u.now 0) { mem0 with aop := 2 } [] [lane0 (.global 0) 0]
     A.2.2 = none ∧ A.2.1.any (·.2.bad) = true) ∧
    (tS.reach 0 0 0 (.result 0) 0 true 4 true [(31, .global 0x100000000)]).2.1.isSome = true ∧
    (tS.reach 0 0 0 (.result 0) 0 true 4 true [(31, .global 0x100000000)]).2.2 = false ∧
    (({ tS with ready := 0x1F } : State).reach 0 0 0 (.result 0) 0 true 4 true [(31, .global 0)]).2.2 = true :=
  ⟨rfl, reach_exists (by decide +kernel), by decide +kernel, reach_exists (by decide +kernel), by decide +kernel, by decide +kernel,
   by decide +kernel, by decide +kernel⟩

/-- A stash of one line, mapped at 128 with its line at 0x80 in it, dirty or clean. -/
def sLine (d : Bool) : StashLine := ⟨128, List.replicate 128 7, List.replicate 4 ageless, List.replicate 4 false, d, d, 0⟩
def tStash (d : Bool) : Block :=
  { tBlock tGang with
    shape := { (tBlock tGang).shape with stash := 128 }
    maps := [(128, 128, 0)]
    stash := [(1, sLine d)] }
def sEnv (d : Bool) : Env := ⟨tState (tStash d), 0, 0, 0, tStash d, tGang, Group.start 0xFF 0 0, (tState (tStash d)).now 0⟩

theorem test_witness_StashLinesGoBack : (∀ d, (tState (tStash d)).env? = some (sEnv d)) ∧
    (∀ d, (tState (tStash d)).block? 0 0 = some (tStash d) ∧ (tStash d).gangs[0]? = some tGang ∧
      ((tStash d).stashMap? 255).isSome = true ∧ (tState (tStash d)).memOk ∧ rising (tStash d).stash = true ∧
      Tbl.get? (tStash d).stash ((255 : DWord).toNat % 2 ^ 57 / 128) = some (sLine d)) ∧
    (∀ d, (sLine d).pa % 128 = 0 ∧ (sLine d).bytes.length = 128 ∧ (sLine d).dirty = d) ∧
    (tState (tStash true)).memReady 128 = true ∧ (tState (tStash true)).offline 128 = false :=
  ⟨fun d => by cases d <;> rfl, fun d => by cases d <;> exact ⟨rfl, rfl, by decide, by unfold State.memOk; decide +kernel, by decide, by decide⟩,
   fun d => by cases d <;> exact ⟨rfl, List.length_replicate, rfl⟩, by decide +kernel, by decide +kernel⟩

/-- FERRY.S2G of 4 bytes: beyond the scratchpad (W1 gives offset 4,096 under voff), from an odd offset, to an odd address and to
the range that the stash maps. -/
def s2g (d s : BitVec 7) : FerryOp := { ferry0 with dsel := 0, ssel := 14, vdst := d, vsrc := s }
def tSides : Gang := { tGang with v := [(0, same 4094), (1, same 2), (2, same 252), (3, same 256)] }
def fBlock : Block := { tStash false with gangs := [tSides] }

theorem test_witness_FerryTestsComeInOrder : ∃ e, (tState fBlock).env? = some e ∧ e.act ≠ 0 ∧
    e.accepts ⟨false, false, .mem, 2, false, [.v 0, .v 0]⟩ ∧
    (let c := e.ferryCmd (s2g 126 0) .s2g
     c.shapeOk = true ∧ e.b.sideFits c.src c.srcWheel c.size = false) ∧
    (let c := e.ferryCmd (s2g 1 1) .s2g
     c.shapeOk = true ∧ e.b.sideFits c.src c.srcWheel c.size = true ∧ e.b.sideFits c.dst c.dstWheel c.size = true) ∧
    sideAligned (e.ferryCmd (s2g 1 1) .s2g).src none 4 = false ∧
    (let c := e.ferryCmd (s2g 2 126) .s2g
     c.shapeOk = true ∧ e.b.sideFits c.src c.srcWheel c.size = true ∧ e.b.sideFits c.dst c.dstWheel c.size = true ∧
       sideAligned c.src c.srcWheel c.esize = true ∧ sideAligned c.dst c.dstWheel c.esize = true ∧ e.b.tagpend.getLsbD 0 = false ∧
       e.b.meetsStash c c.src = false ∧ e.b.meetsStash c c.dst = true) ∧
    (let c := e.ferryCmd (s2g 3 126) .s2g
     e.b.meetsStash c c.dst = false) ∧ e.b.shape.stash ≠ 0 :=
  ⟨_, rfl, by decide, And.intro rfl rfl, by decide +kernel, by decide +kernel, by decide +kernel, by decide +kernel,
   by decide +kernel, by decide⟩

/-- The last word at which MBWR comes first though another waits behind it; a mailbox whose first writer is another group. -/
def tQueueBox (w : List Waiter) : Block := { tBlock tGang with mbs := vput (tBlock tGang).mbs 15 ⟨SVal.zero, false, [], w⟩ }

theorem test_witness_MailboxQueues :
    (vat (tQueueBox [.group 0 0xFF, .thread]).mbs Mailbox.empty 15).writers.head? = some (.group 0 0xFF) ∧
    ¬((vat (tQueueBox [.thread]).mbs Mailbox.empty 15).writers = [] ∨
      (vat (tQueueBox [.thread]).mbs Mailbox.empty 15).writers.head? = some (.group 0 0xFF)) :=
  ⟨by decide, by decide⟩

/-- QBAR and NBAR of a feeding cooperative block: the first arrival of a slice, a second one, and a gang whose writes are not
acknowledged; an NBAR over the pod where the record has no pod; neither in a block that is not cooperative. -/
theorem test_witness_NetworkWordsIssue :
    (∃ e g, (tState (tSync 2)).env? = some e ∧ e.b.feeding = true ∧ e.b.cor = true ∧ Tbl.get? e.g.arr (132 + 16 * 0 + 15) = none ∧
      ((tState (tSync 2)).stashBackAll 0 0 0).gang? 0 0 0 = some g ∧
      (g.pend.any (fun p => p.isLoad && !p.returned) || !(ackedFor g.outst (BitVec.ofNat 3 (3 + 1)))) = false ∧
      (((tState (tSync 2)).inst? e.b.node).map fun x => x.recd.podn).getD 0 = 0) ∧
    (∃ g, (tState { tSync 2 with gangs := [tWrites] }).gang? 0 0 0 = some g ∧ (!(ackedFor g.outst (BitVec.ofNat 3 (3 + 0)))) = true) ∧
    (Tbl.get? ({ tGang with arr := [(132 + 16 * 2 + 15, Vector.replicate 8 1)] } : Gang).arr (132 + 16 * 2 + 15)).isSome = true ∧
    tEnv.b.cor = false :=
  ⟨⟨_, _, rfl, rfl, rfl, rfl, rfl, rfl, rfl⟩, ⟨_, rfl, rfl⟩, rfl, rfl⟩

/-- A wheel of 2 stages, 2 fills and 2 drains a phase (its fields hold one less): before the last arrival, at it, and after it at a
stage that is not the pointer's; a drain phase that may not pass F. -/
def tPhases (fc dc : Tbl Nat) (f : Word) : Wheel := { tWheel f with fillc := fc, drainc := dc }

theorem test_witness_WheelPhasesComplete :
    (∀ fc dc : Tbl Nat, (fc = [] ∨ fc = [(0, 1)] ∨ fc = [(1, 2)]) → (dc = [] ∨ dc = [(0, 1)]) →
      rising (tPhases fc dc 0).fillc = true ∧ rising (tPhases fc dc 0).drainc = true ∧ 1 ≤ (tPhases fc dc 0).desc.count) ∧
    (let w := tPhases [] [] 0
     Tbl.getD w.fillc 0 0 ≠ w.desc.fills + 1 ∧ (∀ j, j ≠ 0 → Tbl.getD w.fillc j 0 ≠ w.desc.fills + 1) ∧
       ¬(Tbl.getD w.fillc 0 0 = w.desc.fills ∧ 0 = w.fs)) ∧
    (let w := tPhases [(0, 1)] [(0, 1)] 1
     Tbl.getD w.fillc 0 0 = w.desc.fills ∧ 0 = w.fs ∧ Tbl.getD w.drainc 0 0 = w.desc.drains ∧ 0 = w.ps ∧ w.f ≠ w.p) ∧
    (let w := tPhases [(0, 1)] [(0, 1)] 0
     ¬(Tbl.getD w.drainc 0 0 = w.desc.drains ∧ 0 = w.ps ∧ w.f ≠ w.p)) ∧
    (let w := tPhases [(1, 2)] [] 0
     Tbl.getD w.fillc 1 0 = w.desc.fills + 1) :=
  ⟨by
     rintro fc dc (rfl | rfl | rfl) (rfl | rfl) <;> decide,
   ⟨by decide, by intro j _; show (0 : Nat) ≠ 2; decide, by decide⟩, by decide, by decide, by decide⟩

theorem test_witness_ArrivalsAct : (tState (tSync 0)).block? 0 0 = some (tSync 0) ∧ (3 : Nat) < 4 ∧ (15 : Nat) < 16 ∧
    (∃ x, (tPhases [] [] 0).fillArrive (tPhases [] [] 0).fs = some x) ∧ (tPhases [(0, 2)] [] 0).fillArrive 0 = none ∧
    (∃ x, (tPhases [] [(0, 1)] 1).drainArrive (tPhases [] [(0, 1)] 1).ps = some x) ∧ (tPhases [] [(0, 2)] 0).drainArrive 0 = none :=
  ⟨rfl, by decide, by decide, ⟨_, rfl⟩, rfl, ⟨_, rfl⟩, rfl⟩

/-- The last slice of a gang, and one that is not the last. -/
theorem test_witness_GangsArrive : (tLeftS [] 1).gang? 0 0 0 = some (tLeft []) ∧ (tLeft []).live ≠ 0 ∧
    (let n (m : BitVec 8) (j : Nat) : Nat := vat ((Tbl.get? (tLeft []).arr 32).getD (Vector.replicate 8 0)) 0 j + if m.getLsbD j then 1 else 0
     (∀ j, j < 8 → (tLeft []).live.getLsbD j = true → n 0x01 j ≠ 0) ∧
       ¬∀ j, j < 8 → (tLeft []).live.getLsbD j = true → n 0x80 j ≠ 0) := ⟨rfl, by decide, by decide⟩

/-- A quad barrier of a block, a package barrier of an instance of two blocks: the last arrival and an earlier one; a gang whose block has another that
has not arrived. -/
def netS (blocks : Nat) : State :=
  { tState (tSync 2) with insts := [{ inst0 with tmpl := vput rec0 5 (BitVec.ofNat 64 (blocks - 1)) }] }

theorem test_witness_NetworkBarriersComplete : (netS 1).block? 0 0 = some (tSync 2) ∧ (tSync 2).gangs[0]? = some tGang ∧
    (∀ i h, i ≠ 0 → (tSync 2).gangs[i]? = some h → (Tbl.get? h.arr (132 + 16 * 0 + 15)).isSome = true) ∧
    (∃ i h, i ≠ 0 ∧ (tPair 0).gangs[i]? = some h ∧ Tbl.get? h.arr (132 + 16 * 0 + 15) = none) ∧
    (netS 1).netExpect 0 0 0 ≤ ((netS 1).net 0 0 0 15).count + 1 ∧ ((netS 2).net 0 2 0 15).count + 1 < (netS 2).netExpect 0 2 0 ∧
    ((netS 1).blocks.map fun p => (p.1, p.2.1)).Nodup :=
  ⟨rfl, rfl, by
     intro i h hi hg
     rcases i with _ | i
     · exact absurd rfl hi
     · simp [tSync, tBlock] at hg,
   ⟨1, _, by decide, rfl, rfl⟩, by decide +kernel, by decide +kernel, by decide⟩

/-- STEP in a context that is cut at 9: below the cut, to it after a site, and to it before any. -/
def tStepB (sc : BitVec 16) (k : BitVec 2) : Block := { tCutB with sc := sc, flume := [(0, { Slot.zero with kind := k })] }

theorem test_witness_ContainAndStepComplete :
    (∃ e, (cutting (tState (tStepB 8 2))).env? = some e ∧ e.accepts (sysHow false false .sf []) ∧
      ((cutting (tState (tStepB 8 2))).ctx e.b.ctx).cut = some 9 ∧ max e.b.sc.toNat 8 < 9 ∧ 9 ≤ max e.b.sc.toNat 9 ∧ e.b.sc.toNat < 9 ∧
      e.b.afterSite e.g e.pc = true) ∧
    ∃ e, (cutting (tState (tStepB 8 0))).env? = some e ∧ e.b.afterSite e.g e.pc = false :=
  ⟨⟨_, rfl, And.intro rfl rfl, rfl, by decide, by decide, by decide, by decide⟩, ⟨_, rfl, by decide⟩⟩

/-- FENCE of kind 3 with nothing under way; a load not returned; a copy in the queue; a FEED of the gang. -/
theorem test_witness_FenceConditions :
    (∃ e, (tFeed tGang).env? = some e ∧ e.b.feeding = true ∧ (3 : BitVec 2).getLsbD 0 = true ∧ (3 : BitVec 2).getLsbD 1 = true ∧
      (e.s.core e.core).engIdle e.slot e.gang = true ∧ ((e.s.core e.core).ferry.any fun f => f.slot == e.slot && f.gang == e.gang) = false) ∧
    (∃ g, (tOf tWaits).gang? 0 0 0 = some g ∧ (g.pend.any fun p => (p.isLoad || p.acq.isSome) && !p.returned) = true) ∧
    ((tFerry [] [fCmd] 0).core 0).ferry.any (fun f => f.slot == 0 && f.gang == 0) = true ∧
    ((tEng eFeed tGang).core 0).engIdle 0 0 = false :=
  ⟨⟨_, rfl, rfl, rfl, rfl, rfl, rfl⟩, ⟨_, rfl, rfl⟩, by decide, by decide⟩

/-- FEED that has waited for room; DRAIN whose tile fits, and a full slot table. -/
theorem test_witness_FeedRoom :
    (∃ e, (tFeed { tGang with groups := [{ Group.start 0xFF 0 0 with wait := .feedRoom }] }).env? = some e ∧ e.grp.wait = .feedRoom ∧ e.act ≠ 0 ∧
      (e.s.core e.core).eng.length < 8) ∧
    ∃ e, (tFeed tGang).env? = some e ∧
      (let k := e.s.cube (clusterOf e.core)
       let b := k.bank k.dp
       b.st = .full ∧ b.suspect = false ∧
         0 + (7 : BitVec 7).toNat * ((e.wreg 15).val.toNat / 2 ^ 10 % 2 ^ 24) + b.nb * drainSize 0 ≤ e.b.shape.plain ∧ 0 % drainSize 0 = 0) :=
  ⟨⟨_, rfl, rfl, by decide, by decide⟩, ⟨_, rfl, rfl, rfl, by decide, by decide⟩⟩

/-- Reads of a thread that succeed, as an acquire at SYSTEM scope and plain; that fault; that wait for a page or a stack. -/
def readFails (x : State × Except Stop Got) (p : Stop → Bool) : Bool :=
  match x.2 with
  | .ok _ => false
  | .error e => p e

theorem test_witness_ThreadReads :
    (∃ t g, threadRead gS 0 0 0 0 8 none true = (t, .ok g)) ∧ (∃ t g, threadRead gS 0 0 0 0 8 (some 7) false = (t, .ok g)) ∧
    readFails (threadRead gS 0 0 0 0x100000000 8 none true) (fun e => match e with
      | .fault _ => true
      | _ => false) = true ∧
    readFails (threadRead { gS with mem := farTables Store.empty } 0 0 0 0 8 none true) (· == .migrate) = true ∧
    readFails (threadRead { gS with ready := 0x1F } 0 0 0 0 8 none true) (· == .wait) = true :=
  ⟨readsOkAt_exists (by decide +kernel), readsOkAt_exists (by decide +kernel), by decide +kernel, by decide +kernel, by decide +kernel⟩

/-- A producer in entry 255, of the addresses below 4,096, whose record at address 0 may be re-fired for those below 128. -/
def fires (budget : BitVec 3) (l : List Instance) : State :=
  let m := ((nS []).mem.setBytes 0xA0 (leBytes (2 ^ 59 + 2 ^ 58 + 2 ^ 5) 8)).setBytes 0xE0 (leBytes 1 8)
  let s := { nS l with mem := m }
  s.setCtx 0 { s.ctx 0 with prod := [(255, ⟨0, 0x1000, 0, true, budget⟩)] }
def refired : Instance := { inst0 with producer := some 255, hasKey := false }
def okRecord (s : State) (p : Rec → Bool) : Bool :=
  match (s.readRecord 0 0).2 with
  | .ok r => p r
  | _ => false

/-- No entry covers 4,096; a budget used up at 7 refires; an instance that stands; a template, which names 127 and not 128. -/
theorem test_witness_RefiresFindTheirProducer : ((fires 7 []).ctx 0).covering 0x1000 = none ∧ ((fires 7 []).ctx 0).covering 0xFFF = some 255 ∧
    (((fires 7 []).ctx 0).producer 255).budget.toNat ≤ 7 ∧ 6 < (((fires 7 []).ctx 0).producer 255).budget.toNat ∧
    (fires 7 [refired]).insts.find? (fun x => x.ctx == 0 && x.producer == some 255) = some refired ∧
    (fires 7 []).insts.find? (fun x => x.ctx == 0 && x.producer == some 255) = none ∧
    okRecord (fires 7 []) (fun r => r.refires 127 && !r.refires 128) = true ∧ (fires 7 []).insts.length < 16384 :=
  ⟨by decide +kernel, by decide +kernel, by decide, by decide, by decide, by decide, by decide +kernel, by decide⟩

/-- The three outcomes of the refire of a load under entry 15: on an instance, refused, held by a base die that is not ready. -/
theorem test_witness_LoadRefires : ((bounded 0x80000000 (fires 7 [])).ctx 0).boundAct 15 = .refire ∧
    ((fires 7 []).refire 0 127 0 0).2 = .on 0 ∧ ((fires 7 []).refire 0 128 0 0).2 = .escalate 1 ∧
    (({ fires 7 [] with ready := 0x1F } : State).refire 0 127 0 0).2 = .wait := by decide +kernel

/-- Stores whose data is older than entry 15 admits, under TRAP and REFIRE; a poisoned sector and an offline channel. -/
theorem test_witness_StoreBoundActs : (bounded 0x40000000 gS).boundFails 0 15 ancient = true ∧
    ((bounded 0x40000000 gS).ctx 0).boundAct 15 = .trap ∧ ((bounded 0x80000000 gS).ctx 0).boundAct 15 = .refire ∧
    ((bounded 0 gS).ctx 0).boundAct 15 = .mark ∧ (bounded 0 gS).boundFails 0 15 ancient = true ∧
    (relAt gS 0 0 (some 7)).memOk ∧ (∃ t pa, (relAt gS 0 0 (some 7)).translate 0 0 0 true 32 = (t, .ok pa)) ∧ (poisoned [0] gS).mem.bad 0 = true :=
  ⟨by decide +kernel, by decide +kernel, by decide +kernel, by decide +kernel, by decide +kernel, by unfold State.memOk; decide +kernel,
   isOk_exists (by decide +kernel), by decide +kernel⟩

/-- Every gang waits for words that are not sealed; a gang with a word to issue; the ordinals below S. -/
theorem test_witness_EmissionStallsWhileGangsRun :
    (∀ g ∈ (tDry .none).gangs, g.st = .idle ∨ (g.st = .running ∧ g.groups ≠ [] ∧
      ∀ x ∈ g.groups, x.wait = .none ∧ x.parked = false ∧ (tDry .none).s.toNat ≤ x.pc.toNat)) ∧
    (∃ g ∈ (tNops 0 tGang).gangs, g.st = .running ∧ ∃ x ∈ g.groups, x.wait = .none ∧ x.parked = false ∧
      (tNops 0 tGang).fetchStalled x.pc = false) ∧
    (0 : Word).toNat + 1 < (tNops 0 tGang).s.toNat :=
  ⟨by decide, by decide, by decide⟩

/-- A scalar mailbox with the thread first, and with another before it. -/
theorem test_witness_GeneratorMailboxQueues :
    (vat (tQueueBox [.thread, .group 0 0xFF]).mbs Mailbox.empty 15).writers.head? = some .thread ∧
    ¬((vat (tQueueBox [.group 0 0xFF]).mbs Mailbox.empty 15).writers = [] ∨
      (vat (tQueueBox [.group 0 0xFF]).mbs Mailbox.empty 15).writers.head? = some .thread) := ⟨by decide, by decide⟩

/-- A thread that waits with its packet; rings that take it and do not; this package's own launch, admitted, with the stack of the
ring's entry ready or not; no trained cape, and cape 3 alone. -/
def gHolds : Block := { gBlock with th := { gBlock.th with wait := .launch [] } }
def self (s : State) : State := { s with acl := [(0, BitVec.ofNat 64 (2 ^ 63 + 2 ^ 62))] }

theorem test_witness_LaunchWordsComplete : (gState gHolds).thread? = some (0, 0, gHolds) ∧ gHolds.th.wait = .launch [] ∧
    (let r := gS.lq 0 0
     r.full = false ∧ gS.memReady (r.slot r.tail 128) = true) ∧
    ((fullQueue gS).lq 0 63).full = true ∧ (gS.peerHeld gS.pkg.toNat (0 / 65536 % 4096) 0) = false ∧
    ({ self gS with ready := 0x1F } : State).peerHeld 0 0 0 = true ∧ 1 % 512 ≠ gS.pkg.toNat ∧
    (∀ c, c < 4 → gS.ready.getLsbD (36 + c) = false) ∧
    (linked gS).ready.getLsbD (36 + 3) = true ∧ ∀ k, k < 3 → (linked gS).ready.getLsbD (36 + k) = false :=
  ⟨rfl, rfl, by decide +kernel, by decide, by decide +kernel, by decide +kernel, by decide, by decide, by decide, by decide⟩

/-! Steps of a core. -/

/-- The result of lane 31 of a load, whose sector is ANCIENT, under entry 15; another result is open beside it. -/
def pOld : Pend :=
  { Pend.new 0xFF 0 (.lanes 0 0x80000000 [Vector.replicate 32 1] (Vector.replicate 32 ancient) (Vector.replicate 32 0)) 0 with bnd := 15 }
def tOlds : Gang := { tGang with pend := [pOld, { pSpec with id := 1 }] }

theorem test_witness_LateChecksAct : ∀ act ∈ [(0 : Word), 0x40000000, 0x80000000],
    (bounded act (tOf tOlds)).block? 0 0 = some (tBlock tOlds) ∧ (tBlock tOlds).gangs[0]? = some tOlds ∧ tOlds.late = none ∧
      tOlds.pend.Pairwise (fun x y => x.id ≠ y.id) ∧ pOld ∈ tOlds.pend ∧ pOld.returned = false ∧ pOld.fail = none ∧ pOld.acq = none ∧
      pOld.atom = none ∧ (pOld.checks ((bounded act (tOf tOlds)).now 0)).find?
        (fun x => (bounded act (tOf tOlds)).boundFails 0 pOld.bnd.toNat x.1) = some (ancient, 0) ∧
      (∃ q ∈ tOlds.pend, q.id ≠ pOld.id ∧ q.returned = false) ∧ 15 ∉ pOld.counted ∧
      ((bounded act (tOf tOlds)).ctx 0).boundAct 15 = (if act = 0 then .mark else if act = 0x40000000 then .trap else .refire) := by
  intro act h
  simp only [List.mem_cons, List.not_mem_nil, or_false] at h
  rcases h with rfl | rfl | rfl <;>
    exact ⟨rfl, rfl, rfl, by decide, by decide, rfl, rfl, rfl, rfl, by decide +kernel, by decide, by decide, by decide +kernel⟩

/-- The last open result of a gang, failed: with a region entry, inside containments; each kind of cause. -/
def tLast1 (c : LateCause) (stack : List Word) : Gang :=
  { tGang with pend := [{ pSpec with fail := some c }], stack := stack }

theorem test_witness_LateFaultsAct : ∀ c ∈ [LateCause.translation 0xC, .poison, .pipeline 3, .freshness 15, .refire 15 none, .refire 15 (some 0), .migrate 0],
    ∀ stack ∈ [([] : List Word), [5, 6]], let g := tLast1 c stack
      (tOf g).block? 0 0 = some (tBlock g) ∧ (tBlock g).gangs[0]? = some g ∧ g.late = none ∧ g.faultParked = false ∧
        (tBlock g).queued 0 = false ∧ g.pend = [{ pSpec with fail := some c }] ∧ g.snap.isSome = true ∧ g.stack = stack ∧ g.window = [] := by
  intro c hc stack hs
  refine ⟨rfl, rfl, rfl, rfl, rfl, rfl, rfl, rfl, rfl⟩

theorem test_witness_LateCauses : lateCode .poison = some (0x23, 0) ∧ lateCode (.pipeline 3) = some (0x80, 3) ∧
    lateCode (.translation 0xC) = some (0x22, 0xC) ∧ lateCode (.freshness 15) = some (0x30, 15) ∧
    (∃ s : State, ∃ x, (s.refire 0 128 0 0).2 = .escalate x) ∧ (∃ s : State, ∃ x, (s.refire 0 127 0 0).2 = .on x) ∧
    ∃ s : State, (s.refire 0 127 0 0).2 = .wait :=
  ⟨rfl, rfl, rfl, rfl, ⟨fires 7 [], 1, by decide +kernel⟩, ⟨fires 7 [], 0, by decide +kernel⟩, ⟨{ fires 7 [] with ready := 0x1F }, by decide +kernel⟩⟩

/-- A gang that a fault has parked, asked to halt and to leave. -/
def tStands (r : StopReq) : Gang := { tParked with faultParked := true, req := r }

theorem test_witness_ParkedGangsStop : (tOf (tStands .halt)).block? 0 0 = some (tBlock (tStands .halt)) ∧
    (tBlock (tStands .halt)).gangs[0]? = some (tStands .halt) ∧ (tStands .halt).st = .parked ∧ (tStands .halt).req = .halt ∧
    (tStands .evict).req = .evict ∧ (tBlock (tStands .evict)).stopping = false ∧
    (¬(tStands .halt).st = .running) := ⟨rfl, rfl, rfl, rfl, rfl, rfl, nofun⟩

/-- A breakpoint that halts the block, with a gang that runs and one that a fault has parked. -/
def tThree : Block :=
  { tNops 2 (tAsked .none .none) with gangs := [tAsked .none .none, tGang, tStands .none], shape := { (tBlock tGang).shape with gangs := 3 } }

theorem test_witness_BreakpointsHaltBlocks : (breaks 1 (tState tThree)).bpsAt tThree (Group.start 0xFF 0 0) = [15] ∧
    tThree.gangs[1]? = some tGang ∧ tGang.st = .running ∧ tGang.req ≠ .step ∧ tThree.gangs[2]? = some (tStands .none) ∧
    (tStands .none).st = .parked ∧ (tStands .none).req ≠ .halt ∧ (tStands .none).req ≠ .step :=
  ⟨by decide +kernel, rfl, rfl, nofun, rfl, rfl, nofun, nofun⟩

/-! Engines. -/

/-- A command whose transfer has not begun, first and behind another; of kind S2S, with its target (the block itself) and without. -/
def fNew : FerryCmd := { fCmd with id := 1, begun := false }
def fS2s : FerryCmd := { fNew with kind := .s2s, src := .plain 0, dst := .plain 64, pitch := 128 }
def fFar : FerryCmd := { fS2s with handle := 0x500000000 }

def aims (x : Except Nat (Nat × Nat)) (k : Nat × Nat) : Bool :=
  match x with
  | .ok y => y == k
  | .error _ => false

theorem aims_ok {x : Except Nat (Nat × Nat)} {k : Nat × Nat} (h : aims x k = true) : x = .ok k := by
  rcases x with n | y
  · exact nomatch h
  · rw [show y = k by simpa [aims] using h]

def misses (x : Except Nat (Nat × Nat)) : Bool :=
  match x with
  | .ok _ => false
  | .error _ => true

theorem misses_error {x : Except Nat (Nat × Nat)} (h : misses x = true) : ∃ n, x = .error n := by
  rcases x with n | y
  · exact ⟨n, rfl⟩
  · exact nomatch h

theorem test_witness_FerryBegins : ((tFerry [] [fCmd, fNew] 0).core 0).ferryAt 1 = some fNew ∧ fNew.begun = false ∧
    ((tFerry [] [fCmd, fNew] 0).core 0).ferry.Pairwise (fun x y => x.id ≠ y.id) ∧ fNew.done = false ∧ fNew.status = none ∧
    (∀ y ∈ ((tFerry [] [fCmd, fNew] 0).core 0).ferry.takeWhile (·.id != 1), y.begun = true) ∧
    (∃ y ∈ ((tFerry [] [{ fNew with id := 0 }, fNew] 0).core 0).ferry.takeWhile (·.id != 1), y.begun = false) ∧
    (tFerry [] [fS2s] 0).target 0 (tBlock tGang) fS2s = .ok (0, 0) ∧ (∃ k, (tFerry [] [fFar] 0).target 0 (tBlock tGang) fFar = .error k) ∧
    ((tFerry [] [fS2s] 0).core 0).ferryAt 1 = some fS2s :=
  ⟨by decide, rfl, by decide, rfl, rfl, by decide, by decide, aims_ok (by decide +kernel), misses_error (by decide +kernel), by decide⟩

/-- A command that is over: with nothing open, with a flit out, with a write of an egress not acknowledged. -/
def fDone : FerryCmd := { fCmd with done := true, status := some 3 }

theorem test_witness_FerryEnds : ((tFerry [] [fDone] 0).core 0).ferryAt 0 = some fDone ∧ fDone.begun = true ∧ fDone.done = true ∧
    (tFerry [] [fDone] 0).block? 0 0 = some (tBlock tGang) ∧ fDone.rel = none ∧ fDone.flits = [] ∧ fDone.egress = false ∧
    ({ fDone with flits := [(3, 0)] } : FerryCmd).flits ≠ [] ∧
    (let f := { fDone with kind := .egh }
     f.egress = true ∧ ∃ g, (tOf { tGang with outst := [(1, 0)] }).gang? 0 f.slot f.gang = some g ∧ ∃ p ∈ g.outst, p.1 = f.id + 1) :=
  ⟨by decide, rfl, rfl, rfl, rfl, rfl, rfl, nofun, ⟨rfl, _, rfl, by decide⟩⟩

/-- Translations of each kind for an engine. -/
theorem test_witness_EngineReadsGive : (∃ u pa, tS.translate 0 0 (BitVec.ofNat 64 (32 * 0)) false 32 = (u, .ok pa)) ∧
    quiet (tS.translate 0 0 (BitVec.ofNat 64 (32 * 0)) false 32).1 ∧
    (∃ u d, tS.translate 0 0 (BitVec.ofNat 64 (32 * 0x8000000)) false 32 = (u, .fault d)) ∧
    (({ tS with mem := farTables Store.empty } : State).translate 0 0 (BitVec.ofNat 64 (32 * 0)) false 32).2 = .migrate ∧
    (({ tS with ready := 0x1F } : State).translate 0 0 (BitVec.ofNat 64 (32 * 0)) false 32).2 = .wait ∧
    tS.block? 0 0 = some (tBlock tGang) ∧ Tbl.get? (tBlock tGang).spOld 127 = none :=
  ⟨isOk_exists (by decide +kernel), by unfold quiet; decide +kernel, isFault_exists (by decide +kernel), by decide +kernel,
   by decide +kernel, rfl, rfl⟩

/-- A write of sector 1, of four bytes and of all, clean and poisoned. -/
theorem test_witness_EngineWritesBytes : (∃ u pa, tS.translate 0 0 (BitVec.ofNat 64 (32 * 1)) true 32 = (u, .ok pa)) ∧
    (let u := (tS.translate 0 0 (BitVec.ofNat 64 (32 * 1)) true 32).1
     u.mem.wf = true ∧ u.offline 32 = false ∧ (∀ p ∈ u.blocks, ∀ e ∈ p.2.2.stash, e.2.dirty = false) ∧ u.mem.bad 1 = false) ∧
    (let l : List (Nat × Byte) := [(32, 1), (33, 2), (34, 3), (35, 4)]
     (l.map (·.1)).Nodup ∧ (∀ p ∈ l, p.1 / 32 = 1) ∧ coversSector l 1 = false) ∧
    (let l : List (Nat × Byte) := (List.range 32).map fun i => (32 + i, 0)
     (l.map (·.1)).Nodup ∧ (∀ p ∈ l, p.1 / 32 = 1) ∧ coversSector l 1 = true) :=
  ⟨isOk_exists (by decide +kernel), by decide +kernel, by decide +kernel, by decide +kernel⟩

/-- The plan of a command alone in the queue: whether it waits, and the status it gives. -/
def planOf (f : FerryCmd) (s : State) : State × List (Nat × Except CopyStop CopyData) × Bool := ferryPlan s 0 (tBlock tGang) f
def plans (f : FerryCmd) (s : State) (k : Nat) : Bool :=
  (planWaits (planOf f s).2.1).isNone && planStatus (planOf f s).2.1 == k

theorem ferryGoes_alone (f : FerryCmd) (h : f.slot = 0 ∧ f.gang = 0 ∧ f.begun = true ∧ f.done = false ∧ f.tail = [] ∧ f.rel = none ∧ f.flits = []) :
    ferryGoes (tFerry [] [f] 0) 0 (tBlock tGang) tGang f := by
  refine ⟨?_, List.pairwise_singleton _ _, ?_, ?_, ?_, h.2.2⟩
  · show List.find? (fun x => x.id == f.id) [f] = some f
    simp
  · rw [h.1]
    rfl
  · rw [h.1, h.2.1]
    rfl
  · exact nofun

/-- Transfers of every kind that go on; one from beyond what is mapped, one of a page that moves, one that is too old. -/
def fOut (k : FerryKind) : FerryCmd := { fCmd with kind := k, src := .plain 0, dst := .global 0x1000 }

theorem test_witness_TransfersGo :
    (∀ f ∈ [fCmd, { fS2s with begun := true }, fOut .s2g, { fOut .g2g with src := .global 64 }, fOut .egh, fOut .egp],
      ferryGoes (tFerry [] [f] 0) 0 (tBlock tGang) tGang f ∧ (f.pairs.map (·.1)).Nodup ∧ plans f (tFerry [] [f] 0) 0 = true) ∧
    (tBlock tGang).sp.wf = true ∧
    ((planOf { fS2s with begun := true } (tFerry [] [{ fS2s with begun := true }] 0)).1.target 0 (tBlock tGang) fS2s) = .ok (0, 0) ∧
    (let f := { fCmd with src := .global 0x100000000 }
     plans f (tFerry [] [f] 0) 3 = true) ∧
    (let f := { fCmd with bnd := 15 }
     plans f (bounded 0x40000000 (tFerry [] [f] 0)) 4 = true) ∧
    (let f := fCmd
     planWaits (planOf f { tFerry [] [f] 0 with mem := farTables Store.empty }).2.1 = some (some 0)) := by
  refine ⟨?_, by decide, aims_ok (by decide +kernel), by decide +kernel, by decide +kernel, by decide +kernel⟩
  intro f hf
  have h : ∀ f ∈ [fCmd, { fS2s with begun := true }, fOut .s2g, { fOut .g2g with src := .global 64 }, fOut .egh, fOut .egp],
      (f.pairs.map (·.1)).Nodup ∧ plans f (tFerry [] [f] 0) 0 = true ∧ f.slot = 0 ∧ f.gang = 0 ∧ f.begun = true ∧ f.done = false ∧
        f.tail = [] ∧ f.rel = none ∧ f.flits = [] := by decide +kernel
  exact ⟨ferryGoes_alone f (h f hf).2.2, (h f hf).1, (h f hf).2.1⟩

/-- An egress whose source is poisoned, one whose source is too old; a host egress; a peer egress with no cape and with cape 3. -/
theorem test_witness_EgressTransferCompletes :
    (let s := tFerry [] [fOut .egh] 0
     let s := s.onBlock 0 0 fun b => { b with sp := { b.sp with poison := [(0, ())] } }
     let P := ferryPlan s 0 (tBlock tGang) (fOut .egh)
     planStop P.2.1 = none ∧ planBad P.2.1 = true) ∧
    (let f := { fOut .egh with bnd := 15, src := .global 0 }
     let s := bounded 0x40000000 (tFerry [] [f] 0)
     let P := ferryPlan s 0 (tBlock tGang) f
     planStop P.2.1 = none ∧ planBad P.2.1 = false ∧ P.2.2 = true ∧ (s.ctx 0).boundAct 15 ≠ .mark) ∧
    (let P := planOf (fOut .egp) (tFerry [] [fOut .egp] 0)
     P.2.2 = false ∧ P.1.hostMem.wf = true ∧ P.1.outCape? = none ∧ planBad P.2.1 = false) ∧
    (planOf (fOut .egp) (linked (tFerry [] [fOut .egp] 0))).1.outCape? = some 3 ∧ (fOut .egp).dst = .global 0x1000 ∧
    (0x1000 : DWord).toNat + (fOut .egp).size ≤ 2 ^ 57 :=
  ⟨by decide +kernel, by decide +kernel, by decide +kernel, by decide +kernel, rfl, by decide⟩

/-- A memory-form FEED of two sectors: read, beyond what is mapped, too old, of a page that moves. -/
def eFeedM (va : DWord) (bnd : BitVec 4) : EngCmd :=
  .feed 7 0 0 0xFF 0 (some (.global va)) false (Vector.replicate 32 0) [] 0 2 bnd none none []
def feedStops (s : State) (va : DWord) (bnd : Nat) (p : Option FeedStop → Bool) : Bool :=
  p (s.feedReads (.before 0 0 0 true) 0 0 0 bnd true false ((Side.global va).sectors 2)).2.2.1

theorem test_witness_FeedCopiesSectors : ((tEng (eFeedM 0 0) tGang).core 0).eng.find? (·.id == 7) = some (eFeedM 0 0) ∧
    (tEng (eFeedM 0 0) tGang).block? 0 0 = some (tFeeder tGang) ∧ ((tEng (eFeedM 0 0) tGang).cube (clusterOf 0)).obuf.wf = true ∧
    feedStops (tEng (eFeedM 0 0) tGang) 0 0 (·.isNone) = true ∧
    ((tEng (eFeedM 0 0) tGang).feedReads (.before 0 0 0 true) 0 0 0 0 true false ((Side.global 0).sectors 2)).2.1.all (·.bytes.length == 32) = true ∧
    feedStops (tEng (eFeedM 0x100000000 0) tGang) 0x100000000 0 (fun x => match x with
      | some (.late (.translation _)) => true
      | _ => false) = true ∧
    feedStops (bounded 0x40000000 (tEng (eFeedM 0 15) tGang)) 0 15 (fun x => match x with
      | some (.late (.freshness _)) => true
      | _ => false) = true ∧
    feedStops { tEng (eFeedM 0 0) tGang with mem := farTables Store.empty } 0 0 (fun x => match x with
      | some (.wait (some _)) => true
      | _ => false) = true :=
  ⟨rfl, rfl, by decide, by decide +kernel, by decide +kernel, by decide +kernel, by decide +kernel, by decide +kernel⟩

/-! The graph engine, pre-emption, units, the link. -/

/-- A packet with a reserved bit set, for a key that is pending and for one that is not; a record that is refused, one that is held,
and the LERR register valid already. -/
def badPacket (s : State) : State := { s with mem := s.mem.setBytes 0x30010 (leBytes (2 ^ 12) 8) }
def recordIs (s : State) (p : RecRead → Bool) : Bool := p ((s.headPacket (0, 63)).1.readRecord 0 0).2

theorem test_witness_PacketsRefused : (badPacket (nS [inst0])).nextQueue = some (0, 63) ∧
    headIs (badPacket (nS [inst0])) (fun p => !p.decOk && p.record == 0) = true ∧
    ((badPacket (nS [inst0])).headPacket (0, 63)).1.pending? 0 0 0 = some inst0 ∧
    ((badPacket (nS [])).headPacket (0, 63)).1.pending? 0 0 0 = none ∧ headIs (badPacket (nS [])) (fun p => !p.fieldsOk) = true ∧
    (let s := { nS [] with mem := (nS []).mem.setBytes 0x80 (leBytes 0xC0000001 8) }
     headIs s (·.fieldsOk) = true ∧ recordIs s (fun r => match r with
       | .bad k => k == 3
       | _ => false) = true) ∧
    (let s := { nS [] with mem := (nS []).mem.setBytes 0x120000 (leBytes 0 8) }
     recordIs s (fun r => match r with
       | .bad k => k == 2
       | _ => false) = true) ∧
    (let s := { nS [] with mem := farTables Store.empty }
     headIs s (·.fieldsOk) = true ∧ recordIs s (fun r => match r with
       | .wait => true
       | _ => false) = true) ∧
    (((nS []).setCtx 0 { (nS []).ctx 0 with lerr := 0x8000000000000000 }).ctx 0).lerr.getLsbD 63 = true := by decide +kernel

/-- A gang that a fault parked with a halt still asked of it, as a victim. -/
theorem test_witness_VictimsHalted : (tStands .halt).haltLeft = true ∧ (tStands .halt).st ≠ .running ∧ (tStands .none).haltLeft = false :=
  ⟨rfl, by decide, rfl⟩

/-- A block below the cut whose thread waits, has ended or is halted. -/
theorem test_witness_CutThreads : let b := { tDry .none with th := { (tDry .none).th with wait := .join } }
    ((0, 0, b) ∈ (cutting (tState b)).blocks ∧ b.gangs[0]? = some (tAsked .none .none) ∧ b.th.wait ≠ .none ∧
      b.stopAt (tAsked .none .none) = some (true, false) ∧ ¬(9 : BitVec 16).toNat ≤ b.sc.toNat ∧ (cutting (tState b)).cutReady 0 9 = false) := by
  refine ⟨by decide +kernel, rfl, nofun, by decide +kernel, by decide, by decide +kernel⟩

/-- The move of the far page: the bytes and the entry, with room in the DONE ring for the pair and apart from both. -/
def farDone : State := { farPage with done := { Ring.reset with base := 0x3000 } }

theorem test_witness_PagesMigrateMoves : let F := (farDone.takeFree 16 1).1
    let D := farDone.done.slot farDone.done.tail 16
    walksTo farDone (fun w => match w with
      | .leaf e level pte => level == 0 && pteTier e == 2 && pte == 0x140300 && pteAddr e == 2 ^ 41
      | _ => false) = true ∧
    F.mem.wf = true ∧ clean F ∧ F.mem.bad (0x140300 / 32) = false ∧ F.offline 0x140300 = false ∧ 0x140300 % 8 = 0 ∧
      farDone.done.full = false ∧ apart D 16 0x140300 8 ∧ apart 0 (2 ^ 16) 0x140300 8 ∧ apart 0 (2 ^ 16) D 16 ∧
      farDone.doneReady = true ∧ farDone.spanReady (2 ^ 41) (2 ^ 16) = true :=
  ⟨by decide +kernel, by decide +kernel, by unfold clean; decide +kernel, by decide +kernel, by decide +kernel, by decide,
   by decide, by unfold apart; decide +kernel, by unfold apart; decide, by unfold apart; decide +kernel, by decide +kernel, by decide +kernel⟩

/-- Isle 0 owns region 0 and holds a dirty line of it; isle 7 asks to read it. -/
def owned : State := { tState (tStash true) with dir := [(0, { Region.reset with owner := some 0 })] }

theorem test_witness_DirectoryAnswersFromOwner : owned.ready.getLsbD 2 = true ∧ (owned.region 0).st = 0 ∧ (owned.region 0).owner = some 0 ∧
    isleOf 0 = 0 ∧ owned.blocks = [(0, 0, tStash true)] ∧ (tStash true).stash = [(1, sLine true)] ∧ (sLine true).dirty = true ∧
    (sLine true).pa / 2 ^ 21 = 0 ∧ (sLine true).pa % 128 = 0 ∧ owned.mem.wf = true ∧
    ∀ k, k < 4 → owned.memReady (128 + 32 * k) = true ∧ owned.offline (128 + 32 * k) = false :=
  ⟨rfl, rfl, rfl, rfl, rfl, rfl, rfl, by decide, by decide, by decide +kernel, by decide +kernel⟩

/-- A shootdown of 64 KiB with a translation in the range, one beyond it and one of another context. -/
def shoots : State :=
  { tS.setCore 0 { tS.core 0 with tlb := [(0, 0, 16), (0, 1, 16), (5, 0, 16)] } with shooting := some (0, 0, some 16) }

theorem test_witness_ShootdownRange : shoots.shooting = some (0, 0, some 16) ∧ clean shoots ∧ (5, 0, 16) ∈ (shoots.core 0).tlb :=
  ⟨rfl, by unfold clean; decide +kernel, by decide⟩

/-- A write held for base die 23. -/
def heldLine : State := { verified with heldPuts := [.line 0x4210E000 (List.replicate 32 1) ageless false] }

theorem test_witness_BaseDieTakesHeldWrites : heldLine.heldPuts = [.line 0x4210E000 (List.replicate 32 1) ageless false] ∧
    (List.replicate 32 (1 : Byte)).length = 32 ∧ heldLine.mem.wf = true ∧ heldLine.offline (32 * 0x4210E000) = false ∧
    heldLine.ready.getLsbD (40 + baseOf (32 * 0x4210E000)) = false ∧ baseOf (32 * 0x4210E000) < 24 ∧
    heldLine.fwPassed (9 + baseOf (32 * 0x4210E000)) = true := by
  refine ⟨rfl, by decide, by decide, by decide +kernel, by decide +kernel, by decide +kernel, by decide +kernel⟩

/-- A report in progress at the end of a page of host memory. -/
def reports : State := { tS with attReport := some (4095, [1, 2]) }

theorem test_witness_ReportGoesOut : reports.attReport = some (4095, [1, 2]) ∧ reports.hostMem.wf = true ∧ tS.attReport = none :=
  ⟨rfl, by decide, rfl⟩

/-- Offset 0 of management space names a register, offset 2^40 − 8 none. -/
theorem test_witness_ManagementSpace : barReg 0 = some (.ready, 0) ∧ barReg 0xFFFFFFFFF8 = none := by decide +kernel

/-- Tide flits of cape 3 in sequence and not, whose tide is behind and ahead; a launch flit that carries an acknowledgement of the
replay buffer's first flit. -/
def tideFlit (w : Nat) : Flit := { flit0 with kind := .tide, body := leBytes w 8 }
def tideS : State := { linked (nS []) with tide := 5 }

theorem test_witness_TideFlitsAreTaken : tideS.inSeq 3 (tideFlit 5) = true ∧ tideS.inSeq 3 { tideFlit 5 with seq := 1 } = false ∧
    (Flit.tide (tideFlit 5) + (tideS.cape 3).delay).toNat ≤ tideS.tide.toNat ∧
    tideS.tide.toNat < (Flit.tide (tideFlit 6) + (tideS.cape 3).delay).toNat ∧ (afterAck tideS 3 (tideFlit 6)).mem.wf = true ∧
    ({ flit0 with ack := some 0 } : Flit).ack = some 0 ∧ ((sends 0 .data).cape 3).replay.any (fun e => e.1 == 0) = true :=
  ⟨by decide, by decide, by decide +kernel, by decide +kernel, by decide +kernel, rfl, by decide⟩

/-- A command of which the flit that is refused, or dropped, is the only one out. -/
theorem test_witness_LastFlitFails : (∃ c ∈ ((sends 8 .data).core 0).ferry, c.flits = [(3, (0xFFF : BitVec 12))] ∧
      ∃ g, (sends 8 .data).gang? 0 c.slot c.gang = some g) ∧
    (let s := sends 8 .data
     let t := { s.setCore 0 { s.core 0 with ferry := [{ fCmd with kind := .egh, done := true, flits := [(3, 0)] }] } with capes := s.capes }
     ∃ c ∈ (t.core 0).ferry, c.flits = [(3, (0 : BitVec 12))] ∧ c.status.getD 0 = 0 ∧ (∃ g, t.gang? 0 c.slot c.gang = some g)) ∧
    (∃ f n z, ((sends 8 .data).cape 3).replay = (0, f, n) :: z ∧ 8 ≤ n ∧ f.kind = .data) :=
  ⟨⟨_, List.mem_singleton_self _, rfl, _, rfl⟩, ⟨_, List.mem_singleton_self _, rfl, rfl, _, rfl⟩, ⟨_, 8, _, rfl, by decide, rfl⟩⟩

end Sys2Proof.Tests
end

section
/-! The machine right after power-up: what is read of its empty memory and of its empty tables. -/

namespace Sys2Proof

@[simp] theorem Tbl.getD_nil {α : Type} (k : Nat) (d : α) : Tbl.getD ([] : Tbl α) k d = d := rfl

namespace Machine

/-! ### The empty store -/

@[simp] theorem Store.byte_empty (a : Nat) : Store.empty.byte a = 0 := Tbl.getD_nil a 0

@[simp] theorem Store.stamp_empty (i : Nat) : Store.empty.stamp i = ancient := Tbl.getD_nil i ancient

@[simp] theorem Store.bad_empty (i : Nat) : Store.empty.bad i = false := rfl

/-! ### The reset state -/

@[simp] theorem State.reset_mem : State.reset.mem = Store.empty := rfl

/-- No context has an entry of its own yet, so each reads as R316's reset block. -/
@[simp] theorem State.reset_ctx (x : Nat) : State.reset.ctx x = Ctx.reset := Tbl.getD_nil x Ctx.reset

/-- No core has run; its CYCLE is that of the machine, which is 0 (R103), as in `Core.reset`. -/
@[simp] theorem State.reset_core (c : Nat) : State.reset.core c = Core.reset :=
  Tbl.getD_nil c Core.reset

/-- R22, R164, R203: every byte of memory is 0, and its sector ANCIENT and not poisoned. -/
theorem State.reset_mem_reads (a : Nat) : State.reset.mem.byte a = 0 ∧ State.reset.mem.stamp (a / 32) = ancient ∧
    State.reset.mem.bad (a / 32) = false := by
  simp

/-- R251, R317, R352: the registers of a context that no one has created. -/
theorem Ctx.reset_registers : Ctx.reset.st = .free ∧ Ctx.reset.plog = 32 ∧ Ctx.reset.blog = 28 ∧ Ctx.reset.ben = true ∧
    Ctx.reset.pen = true ∧ Ctx.reset.hold = false ∧ Ctx.reset.shift = 0 ∧ Ctx.reset.offset = 0 :=
  ⟨rfl, rfl, rfl, rfl, rfl, rfl, rfl, rfl⟩

/-- Settles O51: memory reads as the empty store, and every context and core as its own reset value, since no table has an entry. -/
theorem resetValues : Obligations.ResetValues := by
  unfold Obligations.ResetValues
  refine ⟨reset_memOk, rfl, rfl, rfl, rfl, rfl, State.reset_mem_reads, fun x => ?ctx, fun c => ?core, rfl, rfl, rfl⟩
  case ctx => rw [State.reset_ctx]; exact Ctx.reset_registers
  case core => rw [State.reset_core]; exact ⟨rfl, rfl, rfl⟩

end Machine

end Sys2Proof
end

section
/-! How a word that completes issues: what its run, its switch and its slot leave in the gang, and what of the machine stays. -/

namespace Sys2Proof.Machine

/-! ### The switch: results closed (R30, R121) -/

/-- Closing results touches the banks, the uniform registers, the window and the list of results alone. -/
theorem Gang.closeAll_frame (g : Gang) (m : BitVec 8) (l : List Pend) :
    g.closeAll m l = { g with v := (g.closeAll m l).v, w := (g.closeAll m l).w, window := (g.closeAll m l).window
                              pend := (g.closeAll m l).pend } := by
  induction l generalizing g with
  | nil => rfl
  | cons p r ih =>
    simp only [Gang.closeAll]
    split
    · rw [ih]
    · split
      · split <;> · rw [ih]; rfl
      · rw [ih]; rfl

theorem Gang.close_frame (g : Gang) (m : BitVec 8) :
    g.close m = { g with v := (g.close m).v, w := (g.close m).w, window := (g.close m).window, pend := (g.close m).pend } := by
  unfold Gang.close
  rw [Gang.closeAll_frame]

/-- What stays open when the slices `m` close results is held by other slices. -/
theorem Gang.pend_closeAll (g : Gang) (m : BitVec 8) (l : List Pend) (h : ∀ p ∈ g.pend, p.slices &&& m = 0) :
    ∀ p ∈ (g.closeAll m l).pend, p.slices &&& m = 0 := by
  induction l generalizing g with
  | nil => exact h
  | cons q r ih =>
    have added (x : Pend) (hx : x.slices &&& m = 0) : ∀ p ∈ g.pend ++ [x], p.slices &&& m = 0 := by
      intro p hp
      rcases List.mem_append.1 hp with hp | hp
      · exact h p hp
      · rw [List.mem_singleton.1 hp]; exact hx
    simp only [Gang.closeAll]
    split
    next others => exact ih _ (added q others.1)
    next =>
      split
      next =>
        split
        · refine ih _ fun p hp => ?_
          obtain ⟨x, hx, rfl⟩ := List.mem_map.1 hp
          have hs := h x hx
          split <;> exact hs
        · exact ih _ h
      next => exact ih _ (added _ (by simp [BitVec.and_assoc]))

theorem Gang.pend_close (g : Gang) (m : BitVec 8) : ∀ p ∈ (g.close m).pend, p.slices &&& m = 0 :=
  Gang.pend_closeAll _ m g.pend (by simp)

/-! ### Changes of a group -/

theorem Gang.onGroup_onGroup (g : Gang) (m : BitVec 8) {f : Group → Group} (hf : ∀ y, (f y).mask = y.mask) (k : Group → Group) :
    (g.onGroup m f).onGroup m k = g.onGroup m fun y => k (f y) := by
  unfold Gang.onGroup
  simp only [List.map_map]
  congr 1
  refine List.map_congr_left fun y _ => ?_
  by_cases hy : y.mask = m <;> simp [hy, hf]

@[simp] theorem Gang.awaits_onGroup (g : Gang) (m : BitVec 8) (f : Group → Group) : (g.onGroup m f).awaits m = g.awaits m := rfl

/-- The gang with its results of the slices `m` closed where `c` says so. -/
def Gang.closeIf (g : Gang) (m : BitVec 8) (c : Bool) : Gang := if c then g.close m else g

theorem Gang.closeIf_frame (g : Gang) (m : BitVec 8) (c : Bool) :
    g.closeIf m c = { g with v := (g.closeIf m c).v, w := (g.closeIf m c).w, window := (g.closeIf m c).window
                             pend := (g.closeIf m c).pend } := by
  cases c with
  | false => rfl
  | true => exact Gang.close_frame g m

/-- R30, R121: a switch of a group parks it or closes results, by whether results are open. -/
theorem Gang.switch_onGroup (g : Gang) (m : BitVec 8) {f : Group → Group} (hf : ∀ y, (f y).mask = y.mask) :
    (g.onGroup m f).switch m =
      (g.onGroup m fun y => { f y with parked := (f y).parked || g.awaits m }).closeIf m !(g.awaits m) := by
  unfold Gang.switch
  rw [Gang.awaits_onGroup]
  cases g.awaits m with
  | true =>
    simp only [if_true, Gang.closeIf, Bool.not_true, Bool.false_eq_true, if_false, Bool.or_true]
    exact Gang.onGroup_onGroup g m hf fun y => { y with parked := true }
  | false => simp [Gang.closeIf]

/-- R31: the end of a run that a change of the group has left it with. -/
theorem Gang.endRun_onGroup (g : Gang) (m : BitVec 8) {f : Group → Group} {r : Run} (hg : ∃ y ∈ g.groups, y.mask = m)
    (hf : ∀ y, (f y).mask = y.mask) (hr : ∀ y, (f y).run = some r) :
    (g.onGroup m f).endRun m =
      (g.onGroup m fun y => { f y with run := none, parked := (f y).parked || (r.s && g.awaits m) }).closeIf m
        (r.s && !(g.awaits m)) := by
  have found : ∃ x, (g.onGroup m f).groups.find? (·.mask == m) = some x ∧ x.run = some r := by
    obtain ⟨y, hy, hm⟩ := hg
    have hmem : f y ∈ (g.onGroup m f).groups := List.mem_map.2 ⟨y, hy, by simp [hm]⟩
    obtain ⟨x, hx⟩ := Option.isSome_iff_exists.1 (List.find?_isSome (p := (·.mask == m)).2 ⟨f y, hmem, by simp [hf, hm]⟩)
    refine ⟨x, hx, ?_⟩
    have hxm : x.mask = m := by simpa using List.find?_some hx
    obtain ⟨z, -, rfl⟩ := List.mem_map.1 (List.mem_of_find?_eq_some hx)
    by_cases hz : z.mask = m
    · simp [hz, hr]
    · simp [hz] at hxm
  obtain ⟨x, hx, hxr⟩ := found
  simp only [Gang.endRun, hx, hxr]
  rw [Gang.onGroup_onGroup g m hf]
  cases r.s with
  | true => simpa using Gang.switch_onGroup g m (f := fun y => { f y with run := none }) hf
  | false => simp [Gang.closeIf]

/-! ### The slot of the word, the window and the record -/

theorem Gang.passSlot_noSite (g old : Gang) (o : Word) (x : Slot) (h : x.kind.toNat < 2) :
    (g.passSlot old o x).site = g.site ∧ (g.passSlot old o x).siteOrd = g.siteOrd := by
  simp [Gang.passSlot, h]

/-- R344: a stop site. -/
theorem Gang.passSlot_site (g old : Gang) (o : Word) (x : Slot) (h : 2 ≤ x.kind.toNat) :
    (g.passSlot old o x).site = some x.spord ∧ (g.passSlot old o x).siteOrd = o := by
  unfold Gang.passSlot
  rw [if_neg (by omega)]
  split
  · exact ⟨rfl, rfl⟩
  · exact ⟨rfl, rfl⟩

theorem Gang.passSlot_noEntry (g old : Gang) (o : Word) (x : Slot) (h : x.kind ≠ 3) :
    (g.passSlot old o x).snap = g.snap ∧ (g.passSlot old o x).refires = g.refires ∧ (g.passSlot old o x).afterRb = g.afterRb := by
  unfold Gang.passSlot
  split
  · exact ⟨rfl, rfl, rfl⟩
  · exact ⟨rfl, rfl, rfl⟩

/-- R254: a region entry. -/
theorem Gang.passSlot_entry (g old : Gang) (o : Word) (x : Slot) (h : x.kind = 3) :
    (g.passSlot old o x).snap = some (old.snapshot o (some x.spord)) ∧ (g.passSlot old o x).afterRb = false ∧
      (g.passSlot old o x).refires = if g.afterRb then g.refires else 0 := by
  simp [Gang.passSlot, h]

theorem Gang.passSlot_frame (g old : Gang) (o : Word) (x : Slot) :
    g.passSlot old o x = { g with
      site := (g.passSlot old o x).site, siteOrd := (g.passSlot old o x).siteOrd, snap := (g.passSlot old o x).snap
      refires := (g.passSlot old o x).refires, afterRb := (g.passSlot old o x).afterRb } := by
  unfold Gang.passSlot
  split
  · rfl
  · dsimp only; split <;> rfl

/-- What noting the issue of a word changes in its gang. -/
theorem Gang.note_eq (g old : Gang) (o : Word) (m : BitVec 8) (x : Slot) (cycle : DWord) (tr : Option Transient) :
    g.note old o m x cycle tr = { g with
      site := (g.passSlot old o x).site, siteOrd := (g.passSlot old o x).siteOrd, snap := (g.passSlot old o x).snap
      refires := (g.passSlot old o x).refires, afterRb := (g.passSlot old o x).afterRb
      window := (⟨g.wnum, tr⟩ :: g.window).take 8, wnum := g.wnum + 1
      issues := (issueRec o m x cycle :: g.issues).take 64 } := by
  unfold Gang.note Gang.pushWindow
  rw [Gang.passSlot_frame g]

/-! ### The word in hand completes -/

/-- The lane-cycle record of an issue (R357). -/
def Env.countIssue (e : Env) (s : State) : State :=
  if e.grp.newCycle then
    if fld (s.core e.core).lccfg 11 0 == e.ctx then s.laneCount e.core e.b e.g e.m e.grp.site else s.laneIdle e.core
  else s

/-- The run as it stands once the word in hand has issued in it. -/
def Env.openRun (e : Env) (h : How) : Run :=
  let r := (e.nextRun h).getD Run.start
  { r with s := r.s || h.s, late := false }

/-- The group in hand with its word issued in the run `r`; `n` is the number of the window's next entry. -/
def Env.issuedGroup (e : Env) (n : Nat) (r : Run) (y : Group) : Group :=
  let x := (e.b.slotFor e.grp).1
  { y with
    wait := .none, run := some r, last := n, passed := false, matched := false
    site := if x.kind.toNat < 2 then y.site else some x.spord
    held := none, counted := [] }

/-- The gang in hand once the issue of its word is noted. -/
def Env.noted (e : Env) (tr : Option Transient) (g : Gang) : Gang :=
  g.note e.g e.pc e.m (e.b.slotFor e.grp).1 (e.s.core e.core).cycle tr

/-- The run ends with the word in hand, and a word of it carried S. -/
def Env.marks (e : Env) (h : How) : Bool := !e.b.chains e.pc h && (e.openRun h).s

/-- The run that the word in hand leaves its group with. -/
def Env.runLeft (e : Env) (h : How) : Option Run := if e.b.chains e.pc h then some (e.openRun h) else none

/-- The group in hand with its word issued and, where the run ends, its S mark acted on. -/
def Env.leftGroup (e : Env) (h : How) (g : Gang) (y : Group) : Group :=
  { e.issuedGroup (g.wnum + 1) (e.openRun h) y with run := e.runLeft h, parked := y.parked || (e.marks h && g.awaits e.m) }

/-- The gang in hand with its word issued: the issue noted, and the marks of a run that ends acted on. -/
def Env.issued (e : Env) (h : How) (tr : Option Transient) (g : Gang) : Gang :=
  ((e.noted tr g).onGroup e.m (e.leftGroup h g)).closeIf e.m (e.marks h && !(g.awaits e.m))

theorem Env.noted_groups (e : Env) (tr : Option Transient) (g : Gang) : (e.noted tr g).groups = g.groups := by
  simp [Env.noted, Gang.note_eq]

theorem Env.noted_awaits (e : Env) (tr : Option Transient) (g : Gang) (m : BitVec 8) : (e.noted tr g).awaits m = g.awaits m := by
  simp [Env.noted, Gang.note_eq, Gang.awaits]

theorem Env.noted_wnum (e : Env) (tr : Option Transient) (g : Gang) : (e.noted tr g).wnum = g.wnum + 1 := by
  simp [Env.noted, Gang.note_eq]

/-- What issuing a word does to a gang that has the group in hand. -/
theorem Env.issued_eq {e : Env} {h : How} {tr : Option Transient} {g : Gang} (hg : ∃ y ∈ g.groups, y.mask = e.m) :
    (let n := (e.noted tr g).onGroup e.m (e.issuedGroup (e.noted tr g).wnum (e.openRun h))
     if e.b.chains e.pc h then n else n.endRun e.m) = e.issued h tr g := by
  rw [Env.noted_wnum]
  dsimp only
  cases hc : e.b.chains e.pc h with
  | true =>
    have hl : e.leftGroup h g = e.issuedGroup (g.wnum + 1) (e.openRun h) := by
      funext y
      simp [Env.leftGroup, Env.issuedGroup, Env.runLeft, Env.marks, hc]
    simp [Env.issued, Env.marks, hc, hl, Gang.closeIf]
  | false =>
    rw [← Env.noted_groups e tr g] at hg
    rw [if_neg Bool.false_ne_true,
      Gang.endRun_onGroup _ _ (f := e.issuedGroup (g.wnum + 1) (e.openRun h)) hg (fun _ => rfl) (fun _ => rfl), Env.noted_awaits]
    have hl : e.leftGroup h g = fun y => { e.issuedGroup (g.wnum + 1) (e.openRun h) y with
        run := none, parked := y.parked || ((e.openRun h).s && g.awaits e.m) } := by
      funext y
      simp [Env.leftGroup, Env.runLeft, Env.marks, hc]
    simp only [Env.issued, Env.marks, hc, hl, Bool.not_false, Bool.true_and]
    rfl

/-- The issue of a word, as its state and its gang have it. -/
theorem Env.commit_eq {e : Env} {h : How} {t : State} {tr : Option Transient} {g : Gang}
    (ht : (e.countIssue t).gang? e.core e.slot e.gang = some g) (hg : ∃ y ∈ g.groups, y.mask = e.m) :
    e.commit t h (e.nextRun h) tr = (e.countIssue t).onGang e.core e.slot e.gang fun _ => e.issued h tr g :=
  State.onGang_congr _ _ _ _ _ _ ht (Env.issued_eq hg)

/-- R31, R48: when the C mark of the word in hand has effect. -/
theorem Block.chains_iff (b : Block) (o : Word) (h : How) :
    b.chains o h = true ↔ h.c = true ∧ h.ctl = false ∧ h.size = 1 ∧ o.toNat % 3 ≠ 2 ∧ o.toNat + 1 < b.s.toNat ∧
      (b.slotOf (o + 1)).kind ≠ 1 ∧ (needsTrail (b.slotOf (o + 1)).word = true → o.toNat + 2 < b.s.toNat) := by
  simp [Block.chains, and_assoc, imp_iff_not_or]

theorem Gang.awaits_iff (g : Gang) (m : BitVec 8) :
    g.awaits m = true ↔ ∃ p ∈ g.pend, p.returned = false ∧ p.slices &&& m ≠ 0 := by
  simp [Gang.awaits]

/-- A word put in a run does not change the run's S marks. -/
theorem Run.add_s {r r' : Run} {p : Pipe} (h : r.add p = some r') : r'.s = r.s := by
  cases p with
  | fma => obtain ⟨-, ⟨⟩⟩ := Option.ite_none_right_eq_some.1 h; rfl
  | mem => obtain ⟨-, ⟨⟩⟩ := Option.ite_none_left_eq_some.1 h; rfl
  | sf => obtain ⟨-, ⟨⟩⟩ := Option.ite_none_left_eq_some.1 h; rfl

/-- The marks of the run with an accepted word: the word's own, and those of the run before it. -/
theorem Env.openRun_s {e : Env} {h : How} (ha : e.accepts h) :
    (e.openRun h).s = true ↔ h.s = true ∨ ∃ r, e.grp.run = some r ∧ r.s = true := by
  obtain ⟨r, hr⟩ := Option.isSome_iff_exists.1 ha.2
  have hs : (e.openRun h).s = ((e.grp.run.getD Run.start).s || h.s) := by
    simp [Env.openRun, Env.nextRun, hr, Run.add_s hr]
  rw [hs]
  cases e.grp.run with
  | none => simp [Run.start]
  | some r => simp [or_comm]

end Sys2Proof.Machine

namespace Sys2Proof.Claims

open Sys2Proof.Machine

/-! ### The machine elsewhere -/

variable {s t : State} {e : Env} {b : Block}

/-- The state of the word itself. -/
theorem Elsewhere1.refl (he : s.env? = some e) : Elsewhere1 e s s e.b :=
  ⟨rfl, fun _ _ => rfl, rfl, fun _ _ => rfl, (State.env?_some he).2.2.1⟩

/-- The lane-cycle counts of the core move on. -/
theorem Elsewhere1.setLanes (h : Elsewhere1 e s t b) (l : Tbl DWord) (i : DWord) :
    Elsewhere1 e s (t.setCore e.core { t.core e.core with lccnt := l, lcidle := i }) b where
  frame := by rw [h.frame]; rfl
  cores c hc := by rw [State.core_setCore, if_neg hc, h.cores c hc]
  core := by rw [State.core_setCore_same, h.core]
  others k hk := by rw [← h.others k hk]; simp [State.block?]
  block := by rw [← h.block]; simp [State.block?]

/-- The block of the word changes. -/
theorem Elsewhere1.setBlock (h : Elsewhere1 e s t b) (b' : Block) : Elsewhere1 e s (t.setBlock e.core e.slot b') b' where
  frame := by rw [h.frame]; rfl
  cores c hc := by rw [State.setBlock, State.core_setCore, if_neg hc, h.cores c hc]
  core := by rw [State.setBlock, State.core_setCore_same, h.core]
  others k hk := by rw [State.block?_setBlock, if_neg (fun x => hk x.2), h.others k hk]
  block := State.block?_setBlock_same _ _ _ _

theorem Elsewhere1.onGang (h : Elsewhere1 e s t b) (f : Gang → Gang) :
    Elsewhere1 e s (t.onGang e.core e.slot e.gang f) (b.onGang e.gang f) := by
  unfold State.onGang
  rw [State.onBlock_eq _ _ _ _ h.block]
  exact h.setBlock _

theorem Elsewhere1.laneCount (h : Elsewhere1 e s t b) (b' : Block) (g : Gang) (m : BitVec 8) (site : Option (BitVec 16)) :
    Elsewhere1 e s (t.laneCount e.core b' g m site) b := by
  unfold State.laneCount
  dsimp only
  split
  · exact h
  · exact h.setLanes _ (t.core e.core).lcidle

theorem Elsewhere1.laneIdle (h : Elsewhere1 e s t b) : Elsewhere1 e s (t.laneIdle e.core) b := by
  unfold State.laneIdle
  dsimp only
  split
  · exact h
  · exact h.setLanes (t.core e.core).lccnt _

theorem Elsewhere1.countIssue (h : Elsewhere1 e s t b) : Elsewhere1 e s (e.countIssue t) b := by
  unfold Env.countIssue
  split
  · split
    · exact h.laneCount _ _ _ _
    · exact h.laneIdle
  · exact h

theorem Elsewhere1.gang? (h : Elsewhere1 e s t b) : t.gang? e.core e.slot e.gang = b.gangs[e.gang]? := by
  simp [State.gang?, h.block]

end Sys2Proof.Claims

namespace Sys2Proof.Machine

open Sys2Proof.Claims

/-! ### A word that is done -/

/-- The word's group moves past it. -/
def Env.past (e : Env) (h : How) (g : Gang) : Gang := g.onGroup e.m fun y => { y with pc := y.pc + BitVec.ofNat 32 h.size }

/-- R30, R31, R121: the gang of a word that is done, whose result has left the gang as `g`, and the machine elsewhere. -/
theorem Env.completes_done {s : State} {e : Env} {h : How} {tr : Option Transient} {g : Gang} (he : s.env? = some e)
    (hg : g.groups = e.g.groups) :
    Elsewhere1 e s (e.completes h (.done (s.onGang e.core e.slot e.gang fun _ => g) tr))
      { e.b with gangs := modAt e.b.gangs e.gang fun _ => e.past h (e.issued h tr g) } := by
  obtain ⟨-, -, -, hgang, hgrp, -⟩ := State.env?_some he
  have hin : ∃ y ∈ g.groups, y.mask = e.m := ⟨e.grp, hg ▸ List.mem_of_find?_eq_some hgrp, rfl⟩
  have hw := ((Elsewhere1.refl he).onGang fun _ => g).countIssue
  have hc : (e.countIssue (s.onGang e.core e.slot e.gang fun _ => g)).gang? e.core e.slot e.gang = some g := by
    rw [hw.gang?]
    simp [Block.onGang, getElem?_modAt, hgang]
  have hd := (hw.onGang fun _ => e.issued h tr g).onGang (e.past h)
  rw [← Env.commit_eq (h := h) (tr := tr) hc hin] at hd
  simp only [Block.onGang, modAt_modAt] at hd
  exact hd

theorem Gang.closeIf_false (g : Gang) (m : BitVec 8) : g.closeIf m false = g := rfl

/-- Every field of the gang of a word that is done: what the closing of results touches is left to `Env.issued`. -/
theorem Env.past_issued (e : Env) (h : How) (tr : Option Transient) (g : Gang) :
    let x := (e.b.slotFor e.grp).1
    let i := e.issued h tr g
    let p := g.passSlot e.g e.pc x
    e.past h i = { g with
      groups := g.groups.map fun y =>
        if y.mask = e.m then { e.leftGroup h g y with pc := y.pc + BitVec.ofNat 32 h.size } else y
      v := i.v, w := i.w, pend := i.pend, window := i.window, wnum := g.wnum + 1, site := p.site, siteOrd := p.siteOrd
      snap := p.snap, refires := p.refires, afterRb := p.afterRb
      issues := (issueRec e.pc e.m x (e.s.core e.core).cycle :: g.issues).take 64 } := by
  dsimp only
  have hi : e.issued h tr g = { (e.noted tr g).onGroup e.m (e.leftGroup h g) with
      v := (e.issued h tr g).v, w := (e.issued h tr g).w, window := (e.issued h tr g).window
      pend := (e.issued h tr g).pend } := Gang.closeIf_frame _ _ _
  have hl (y : Group) : (e.leftGroup h g y).mask = y.mask := rfl
  conv_lhs => rw [hi]
  simp only [Env.past, Gang.onGroup, Env.noted, Gang.note_eq, List.map_map]
  congr 1
  refine List.map_congr_left fun y _ => ?_
  by_cases hy : y.mask = e.m
  · simp only [Function.comp_apply, hy, hl, if_true]
    rfl
  · simp [hy]

theorem Env.issued_open {e : Env} {h : How} {tr : Option Transient} {g : Gang} (hc : (e.marks h && !(g.awaits e.m)) = false) :
    (e.issued h tr g).v = g.v ∧ (e.issued h tr g).w = g.w ∧ (e.issued h tr g).pend = g.pend ∧
      (e.issued h tr g).window = (⟨g.wnum, tr⟩ :: g.window).take 8 := by
  rw [Env.issued, hc, Gang.closeIf_false, Env.noted, Gang.note_eq]
  exact ⟨rfl, rfl, rfl, rfl⟩

/-- R121: the marks of a run that ends close the results of the group, none of them being open. -/
theorem Env.issued_closes {e : Env} {h : How} {tr : Option Transient} {g : Gang} (hc : (e.marks h && !(g.awaits e.m)) = true) :
    ∀ p ∈ (e.issued h tr g).pend, p.slices &&& e.m = 0 := by
  rw [Env.issued, hc]
  exact Gang.pend_close _ _

/-- Settles O46: the word is done in the gang that `Env.past` and `Env.issued` give; `Env.past_issued` names its fields. -/
theorem issuedWordCompletes : Obligations.IssuedWordCompletes := by
  unfold Obligations.IssuedWordCompletes
  intro s e h g1 tr he ha hg x next goes marked open' t
  have hgoes : e.b.chains e.pc h = true ↔ goes := Block.chains_iff _ _ _
  have hopen : g1.awaits e.m = true ↔ open' := Gang.awaits_iff _ _
  have hmarks : e.marks h = true ↔ ¬goes ∧ marked := by
    rw [Env.marks, Bool.and_eq_true, Bool.not_eq_true', ← Bool.not_eq_true, hgoes, Env.openRun_s ha]
  have hclose : (e.marks h && !(g1.awaits e.m)) = true ↔ ¬goes ∧ marked ∧ ¬open' := by
    rw [Bool.and_eq_true, Bool.not_eq_true', ← Bool.not_eq_true, hmarks, hopen, and_assoc]
  refine ⟨e.past h (e.issued h tr g1), e.runLeft h, e.marks h && g1.awaits e.m, Env.completes_done he hg, ?run, ?park, ?rest⟩
  case run => rw [← hgoes, Env.runLeft]; cases e.b.chains e.pc h <;> simp
  case park => rw [Bool.and_eq_true, hmarks, hopen, and_assoc]
  case rest =>
    rw [Env.past_issued]
    refine ⟨?groups, ?frame, ?kept, ?closed, Gang.passSlot_noSite _ _ _ _, Gang.passSlot_site _ _ _ _,
      Gang.passSlot_noEntry _ _ _ _, Gang.passSlot_entry _ _ _ _⟩
    case groups => rw [hg]; rfl
    case frame => rw [(State.env?_some he).1]; rfl
    case kept =>
      intro hk
      refine Env.issued_open (Bool.eq_false_iff.2 fun hc => ?_)
      obtain ⟨hng, hm, hno⟩ := hclose.1 hc
      exact hk.elim hng (·.elim (· hm) hno)
    case closed => exact fun hc => Env.issued_closes (hclose.2 hc)

end Sys2Proof.Machine
end

section
/-! The step of the machine: what the fetch of each agent gives, and the act that follows from it. -/

namespace Sys2Proof.Machine

open Sys2Proof.Claims

/-! ### Fetch (R67, R77, R101) -/

theorem Block.fetchStalled_eq_false {b : Block} {pc : Word} (hs : pc.toNat < b.s.toNat)
    (ht : needsTrail (b.slotOf pc).word = true → pc.toNat + 1 < b.s.toNat) : b.fetchStalled pc = false := by
  unfold Block.fetchStalled
  rw [Bool.or_eq_false_iff]
  constructor
  · simp only [BitVec.ule, decide_eq_false_iff_not]
    omega
  · cases hn : needsTrail (b.slotOf pc).word with
    | false => rfl
    | true => simp [ht hn]

/-- R67: a word that passes the tests is what it decodes to. -/
theorem Block.fetch_instr {b : Block} {pc : Word} {i : Instr} (hs : pc.toNat < b.s.toNat) (hf : b.f.toNat ≤ pc.toNat)
    (hk : (b.slotOf pc).kind ≠ 1)
    (ht : needsTrail (b.slotOf pc).word = true → (b.slotOf (pc + 1)).kind = 1 ∧ pc.toNat + 1 < b.s.toNat)
    (hd : decodeWide (b.slotOf pc).word (b.slotOf (pc + 1)).word = .ok i) : b.fetch pc = .instr i := by
  have hst := Block.fetchStalled_eq_false hs fun h => (ht h).2
  have hstale : pc.ult b.f = false := by
    simp only [BitVec.ult, decide_eq_false_iff_not]
    omega
  have htrail : (needsTrail (b.slotOf pc).word && (b.slotOf (pc + 1)).kind != 1) = false := by
    cases hn : needsTrail (b.slotOf pc).word with
    | false => rfl
    | true => rw [(ht hn).1]; rfl
  simp only [Block.fetch, hst, hstale, hk, htrail, hd, Bool.false_eq_true, if_false]

/-- A group that waits for nothing, or has fetched nothing, fetches the word at its PC. -/
theorem Block.fetchFor_eq_fetch (b : Block) {x : Group} (h : x.wait = .none ∨ x.held = none) : b.fetchFor x = b.fetch x.pc := by
  unfold Block.fetchFor
  rcases h with h | h
  · rw [h]
  · rw [h]; cases x.wait <;> rfl

/-- R77: a group that waits fetches its word no more. -/
theorem Block.fetchFor_held (b : Block) {x : Group} {w : Slot} {t : Word} {i : Instr} (hw : x.wait ≠ .none)
    (hh : x.held = some (w, t)) (hd : decodeWide w.word t = .ok i) : b.fetchFor x = .instr i := by
  unfold Block.fetchFor
  rw [hh]
  split
  · contradiction
  · contradiction
  · next heq _ =>
    cases heq
    simp only [hd]

/-- R101: the word at the thread's PC, as it decodes for its processor. -/
theorem State.genFetch_instr {s t u : State} {core pa : Nat} {b : Block} {w : Word} {i : Instr}
    (ht : s.translate core b.ctx b.th.pc false 4 = (t, .ok pa)) (hw : t.codeWord core pa b.born = (u, w))
    (hb : u.homeBad (pa / 32) = false) (hd : decodeGen b.control w = .ok i) : s.genFetch core b = (u, .instr i) := by
  simp [State.genFetch, ht, hw, hb, hd]

/-! ### The act that follows from a fetch -/

/-- The state in which the word of a group runs. -/
def State.inHand (s : State) (core slot gang : Nat) (x : Group) : State := { s with cur := .wide core slot gang x.mask }

section
variable {s : State} {core slot gang : Nat} {b : Block} {x : Group}

theorem State.wideAct_instr {i : Instr} (h : b.fetchFor x = .instr i) :
    s.wideAct core slot gang b x = .run (s.inHand core slot gang x) i := by
  simp [State.wideAct, h, State.inHand]

theorem State.wideAct_illegal {w : Word} (h : b.fetchFor x = .illegal w) :
    s.wideAct core slot gang b x = .run (s.inHand core slot gang x) (.illegalWord w) := by
  simp [State.wideAct, h, State.inHand]

/-- R67: tests 2 and 3 fault the word. -/
theorem State.wideAct_faults {e : Env} (he : (s.inHand core slot gang x).env? = some e) :
    (b.fetchFor x = .stale →
      s.wideAct core slot gang b x = .done (e.finish noFields none (.fault (s.inHand core slot gang x) 0x04 0))) ∧
    (b.fetchFor x = .trailing →
      s.wideAct core slot gang b x = .done (e.finish noFields none (.fault (s.inHand core slot gang x) 0x03 0))) := by
  have hs := (State.env?_some he).1
  unfold State.inHand at he hs ⊢
  constructor <;>
    · intro h
      simp only [State.wideAct, h, he, hs]
      rfl

theorem State.genAct_instr {t : State} {i : Instr} (h : ({ s with cur := .gen core slot } : State).genFetch core b = (t, .instr i)) :
    s.genAct core slot b = .run t i := by
  simp [State.genAct, h]

theorem State.genAct_illegal {t : State} {w : Word}
    (h : ({ s with cur := .gen core slot } : State).genFetch core b = (t, .illegal w)) :
    s.genAct core slot b = .run t (.illegalWord w) := by
  simp [State.genAct, h]

end

/-! ### The act whose turn it is -/

theorem step_eq (s : State) : step s = s.sched.go := by
  unfold step Act.go
  cases s.sched <;> rfl

/-- R31: a chained run goes on, unless a breakpoint matches. -/
theorem State.sched_inRun {s : State} {core slot gang : Nat} {b : Block} {x : Group}
    (hr : s.inRun = some (core, slot, gang, b, x)) (hb : s.bpsAt b x = []) : s.sched = s.wideAct core slot gang b x := by
  simp [State.sched, hr, hb]

/-- Log 1: with no run in hand the first turn of the agenda is taken. -/
theorem State.sched_turn {s : State} {t : Turn} {r : List Turn} (hr : s.inRun = none) (ht : s.turns = t :: r) :
    s.sched = ({ s with turns := r } : State).turn t := by
  simp [State.sched, hr, ht]

/-- R125 to R127: the group that issues in a core's turn. -/
theorem State.wideTurn_issue {s : State} {core : Nat} {a : Cand} {x : Group} (hs : (s.core core).stopDue = none)
    (hp : s.pick core = some a) (hx : a.group = some x) (hb : (s.setCore core (s.pickCore core)).bpsAt a.b x = []) :
    s.wideTurn core = (s.setCore core (s.pickCore core)).wideAct core a.slot a.gang a.b x := by
  simp [State.wideTurn, hs, hp, hx, hb]

/-- R73: the thread whose turn it is, with no fault to handle. -/
theorem State.genTurn_thread {s : State} {core slot : Nat} {b : Block} (hp : s.genPick core = some (slot, b))
    (hf : b.faultReady = none) :
    s.genTurn core = (s.setCore core { s.core core with genrr := slot }).genAct core slot b := by
  simp [State.genTurn, hp, hf]

/-- A step of a unit is the meaning of its row. -/
theorem runJob_eq_exec {j : Job} {i : Instr} (h : RowOf j i) (s : State) : runJob j s = exec i s := by
  cases h <;> rfl

/-- Settles O50: the act that `sched` names for each agent runs what the agent's fetch gives. -/
theorem stepRunsDecodedInstruction : Obligations.StepRunsDecodedInstruction := by
  unfold Obligations.StepRunsDecodedInstruction
  refine ⟨?fetch, ?held, ?gen, ?run, ?wide, ?thread, ?unit⟩
  case fetch =>
    rintro b pc i hs hf hk ht hd x rfl hx
    rw [Block.fetchFor_eq_fetch b hx]
    exact Block.fetch_instr hs hf hk ht hd
  case held => exact fun b x w t i hw hh hd => Block.fetchFor_held b hw hh hd
  case gen => exact fun s t u core pa b w i ht hw hb hd => State.genFetch_instr ht hw hb hd
  case run =>
    intro s core slot gang b x hr hb
    rw [step_eq, State.sched_inRun hr hb]
    refine ⟨fun i hi => ?_, fun w hw => ?_⟩
    · rw [State.wideAct_instr hi]; rfl
    · rw [State.wideAct_illegal hw]; rfl
  case wide =>
    intro s core r a x hr ht q hs hp hx u hb t
    have hstep : step s = (u.wideAct core a.slot a.gang a.b x).go := by
      rw [step_eq, State.sched_turn hr ht]
      exact congrArg Act.go (State.wideTurn_issue hs hp hx hb)
    rw [hstep]
    refine ⟨fun i hi => ?_, fun w hw => ?_, fun e he => ⟨fun h => ?_, fun h => ?_⟩⟩
    · rw [State.wideAct_instr hi]; rfl
    · rw [State.wideAct_illegal hw]; rfl
    · rw [(State.wideAct_faults he).1 h]; rfl
    · rw [(State.wideAct_faults he).2 h]; rfl
  case thread =>
    intro s core slot r b hr ht q hp hf u
    have hstep : step s = ((q.setCore core { q.core core with genrr := slot }).genAct core slot b).go := by
      rw [step_eq, State.sched_turn hr ht]
      exact congrArg Act.go (State.genTurn_thread hp hf)
    rw [hstep]
    refine ⟨fun t i hi => ?_, fun t w hw => ?_⟩
    · rw [State.genAct_instr hi]; rfl
    · rw [State.genAct_illegal hw]; rfl
  case unit =>
    refine fun s r hr => ⟨fun i ht => ?_, fun j i hj ht => ?_⟩
    · rw [step_eq, State.sched_turn hr ht]; rfl
    · rw [step_eq, State.sched_turn hr ht, ← runJob_eq_exec hj]; rfl

end Sys2Proof.Machine
end

section
/-! How a generator word ends: the rules by which what its meaning answers becomes what the claims say of it (R72, R104). -/

namespace Sys2Proof.Machine

open Sys2Proof.Claims

/-- The block in a slot of the core has the thread of `b`. -/
def State.hasThread (t : State) (core slot : Nat) (b : Block) : Prop := (t.block? core slot).map (·.th) = some b.th

theorem State.hasThread_of_block? {t : State} {core slot : Nat} {b : Block} (h : t.block? core slot = some b) :
    t.hasThread core slot b := by simp [State.hasThread, h]

theorem State.hasThread_of_thread? {s : State} {core slot : Nat} {b : Block} (h : s.thread? = some (core, slot, b)) :
    s.hasThread core slot b := State.hasThread_of_block? (State.thread?_some h).2

/-- A change of the block that keeps its thread. -/
theorem State.hasThread_onBlock {t : State} {core slot : Nat} {b : Block} {f : Block → Block} (h : t.hasThread core slot b)
    (hf : ∀ x, (f x).th = x.th) : (t.onBlock core slot f).hasThread core slot b := by
  unfold State.hasThread at h ⊢
  rw [State.block?_onBlock_same, Option.map_map, ← h]
  congr 1
  funext x
  exact hf x

theorem onAt_eq_complete (o : Thread) (pc : DWord) : onAt o pc = o.complete pc := (Thread.complete_eq o pc).symm

/-- R72: the thread after a word that writes one register. -/
theorem wrote_setReg (o : Thread) (pc : DWord) (d : BitVec 5) (x : SVal) :
    Wrote o pc d x ((o.setReg d.toNat x).complete pc) := by
  have hreg (r : Nat) : ((o.setReg d.toNat x).complete pc).reg r = (o.setReg d.toNat x).reg r := by
    rw [Thread.complete_eq]; rfl
  have hzero : d = 0 → o.setReg d.toNat x = o := fun h => by subst h; rfl
  refine ⟨?frame, fun hd => ?written, fun r hr => ?kept, fun hd => ?zero, ?other⟩
  case frame =>
    rw [Thread.complete_eq]
    unfold Thread.setReg onAt
    split
    · rfl
    · split <;> rfl
  case written =>
    have hne : d.toNat ≠ 0 := fun h => hd (BitVec.eq_of_toNat_eq h)
    rw [hreg, Thread.reg_setReg _ _ _ _ d.isLt, if_neg hne, if_pos rfl]
  case kept =>
    rw [hreg, Thread.reg_setReg _ _ _ _ d.isLt, if_neg hr]
    split
    · next h => simp [Thread.reg, h]
    · rfl
  case zero => rw [hzero hd, Thread.complete_eq]; exact ⟨rfl, rfl⟩
  case other =>
    rw [Thread.complete_eq]
    unfold Thread.setReg
    cases o.handler <;> simp only [Bool.false_eq_true, if_false, if_true] <;> split <;> rfl

section
variable {s t : State} {core slot : Nat} {b : Block} {body : GEnv → GRes}

/-- The word writes a register and completes. -/
theorem gen_gives {d : BitVec 5} {x : SVal} (h : s.thread? = some (core, slot, b)) (ht : t.hasThread core slot b)
    (hb : body (s.genEnv core slot b) = (s.genEnv core slot b).put t d x) : gives t core slot b d x (gen s body) := by
  refine ⟨_, wrote_setReg b.th (b.th.pc + 4) d x, ?_⟩
  rw [gen_of h, hb]
  exact congrArg _ (finish_thread _ ht)

/-- The word completes, having changed its thread by `f`. -/
theorem gen_done_thread {f : Thread → Thread} (h : s.thread? = some (core, slot, b)) (ht : t.hasThread core slot b)
    (hb : body (s.genEnv core slot b) = .done (t.onThread core slot f)) :
    gen s body = .next (t.genDone core slot b ((f b.th).complete (b.th.pc + 4))) := by
  rw [gen_of h, hb]
  exact congrArg _ (finish_thread f ht)

/-- The word completes and the thread goes on at the next one. -/
theorem gen_goesOn (h : s.thread? = some (core, slot, b)) (ht : t.hasThread core slot b)
    (hb : body (s.genEnv core slot b) = .done t) : goesOn t core slot b (gen s body) := by
  unfold goesOn
  rw [gen_of h, hb, onAt_eq_complete]
  exact congrArg _ (finish_done ht)

/-- The word completes and the thread goes on at `pc`, having changed by `f`. -/
theorem gen_jump_thread {f : Thread → Thread} {pc : DWord} (h : s.thread? = some (core, slot, b))
    (ht : t.hasThread core slot b) (hb : body (s.genEnv core slot b) = .jump (t.onThread core slot f) pc) :
    gen s body = .next (t.genDone core slot b ((f b.th).complete pc)) := by
  rw [gen_of h, hb]
  exact congrArg _ (finish_jump f pc ht)

/-- The word completes and the thread goes on at `pc`. -/
theorem gen_jump {pc : DWord} (h : s.thread? = some (core, slot, b)) (ht : t.hasThread core slot b)
    (hb : body (s.genEnv core slot b) = .jump t pc) : gen s body = .next (t.genDone core slot b (onAt b.th pc)) := by
  have he : (s.genEnv core slot b).finish (.jump t pc) = t.genDone core slot b (b.th.complete pc) := by
    show (if b.th.stepOne then (t.onThread core slot fun x => x.complete pc).threadEvent core slot
      else t.onThread core slot fun x => x.complete pc) = _
    rw [State.onThread_const _ ht]
    rfl
  rw [gen_of h, hb, onAt_eq_complete, he]

/-- The word takes a G-level fault. -/
theorem gen_traps {code detail : Nat} {addr : DWord} (h : s.thread? = some (core, slot, b))
    (hb : body (s.genEnv core slot b) = .fault t code detail addr) : traps t core slot code detail addr (gen s body) := by
  unfold traps
  rw [gen_of h, hb]
  rfl

/-- The thread waits at the word. -/
theorem gen_waits {w : GWait} (h : s.thread? = some (core, slot, b)) (hb : body (s.genEnv core slot b) = .wait t w) :
    waits t core slot w (gen s body) := by
  unfold waits
  rw [gen_of h, hb]
  rfl

end

/-! ### Arithmetic (R94): the manual's values over numbers and the model's over words -/

theorem ofInt_toInt_sub {n : Nat} (a b : BitVec n) : BitVec.ofInt n (a.toInt - b.toInt) = a - b := by
  rw [sub_eq_add_neg, BitVec.ofInt_add, BitVec.ofInt_neg, BitVec.ofInt_toInt, BitVec.ofInt_toInt, BitVec.sub_eq_add_neg]

theorem ofNat_toNat_add {n : Nat} (a b : BitVec n) : BitVec.ofNat n (a.toNat + b.toNat) = a + b := by
  rw [BitVec.ofNat_add]; simp

theorem ofNat_toNat_mul {n : Nat} (a b : BitVec n) : BitVec.ofNat n (a.toNat * b.toNat) = a * b := by
  rw [BitVec.ofNat_mul]; simp

theorem shiftLeft_eq_ofNat {n : Nat} (a : BitVec n) (k : Nat) : a <<< k = BitVec.ofNat n (a.toNat * 2 ^ k) := by
  apply BitVec.eq_of_toNat_eq
  simp [Nat.shiftLeft_eq]

theorem ushiftRight_eq_ofNat {n : Nat} (a : BitVec n) (k : Nat) : a >>> k = BitVec.ofNat n (a.toNat / 2 ^ k) := by
  apply BitVec.eq_of_toNat_eq
  have h : a.toNat / 2 ^ k < 2 ^ n := lt_of_le_of_lt (Nat.div_le_self _ _) a.isLt
  simp [Nat.shiftRight_eq_div_pow, Nat.mod_eq_of_lt h]

theorem sshiftRight_eq_ofInt {n : Nat} (a : BitVec n) (k : Nat) : a.sshiftRight k = BitVec.ofInt n (a.toInt / 2 ^ k) := by
  rw [BitVec.sshiftRight, Int.shiftRight_eq_div_pow]
  norm_num

theorem flagWord_slt (a b : DWord) : flagWord (a.slt b) = if a.toInt < b.toInt then 1 else 0 := by
  simp [flagWord, BitVec.slt]

theorem flagWord_ult (a b : DWord) : flagWord (a.ult b) = if a.toNat < b.toNat then 1 else 0 := by
  simp [flagWord, BitVec.ult]

theorem toInt_sext64 {n : Nat} (i : BitVec n) (h : n ≤ 64) : (sext64 i).toInt = i.toInt := BitVec.toInt_signExtend_of_le h

/-- R94: the register forms. -/
theorem exec_genTwo {i : Instr} {o : GrOp} {f : DWord → DWord → DWord} (hi : GenTwo i o f) :
    ∃ g : DWord → DWord → DWord, (∀ x y, g x y = f x y) ∧ ∀ s, exec i s = galu o g s := by
  cases hi with
  | add => exact ⟨_, fun x y => (ofNat_toNat_add x y).symm, fun _ => rfl⟩
  | sub => exact ⟨(· - ·), fun x y => (ofInt_toInt_sub x y).symm, fun _ => rfl⟩
  | mul => exact ⟨(· * ·), fun x y => (ofNat_toNat_mul x y).symm, fun _ => rfl⟩
  | mulhu => exact ⟨_, fun _ _ => rfl, fun _ => rfl⟩
  | divu => exact ⟨_, fun _ _ => rfl, fun _ => rfl⟩
  | remu => exact ⟨_, fun _ _ => rfl, fun _ => rfl⟩
  | and => exact ⟨_, fun _ _ => rfl, fun _ => rfl⟩
  | or => exact ⟨_, fun _ _ => rfl, fun _ => rfl⟩
  | xor => exact ⟨_, fun _ _ => rfl, fun _ => rfl⟩
  | shl => exact ⟨fun x y => x <<< (y.toNat % 64), fun x y => shiftLeft_eq_ofNat x _, fun _ => rfl⟩
  | shr => exact ⟨fun x y => x >>> (y.toNat % 64), fun x y => ushiftRight_eq_ofNat x _, fun _ => rfl⟩
  | sar => exact ⟨fun x y => x.sshiftRight (y.toNat % 64), fun x y => sshiftRight_eq_ofInt x _, fun _ => rfl⟩
  | slt => exact ⟨fun x y => flagWord (x.slt y), flagWord_slt, fun _ => rfl⟩
  | sltu => exact ⟨fun x y => flagWord (x.ult y), flagWord_ult, fun _ => rfl⟩

/-- R94: the immediate forms. -/
theorem exec_genImm {i : Instr} {d a : BitVec 5} {f : DWord → DWord} (hi : GenImm i d a f) :
    ∃ (x : DWord) (g : DWord → DWord → DWord), (∀ y, g y x = f y) ∧ ∀ s, exec i s = galui d a x g s := by
  have imm (i : BitVec 16) : i.setWidth 64 = BitVec.ofNat 64 i.toNat := BitVec.eq_of_toNat_eq (by simp)
  have amount (n : BitVec 6) : (n.setWidth 64).toNat = n.toNat := by
    rw [BitVec.toNat_setWidth]; exact Nat.mod_eq_of_lt (by omega)
  cases hi with
  | addi o => exact ⟨sext64 o.i, (· + ·), fun _ => rfl, fun _ => rfl⟩
  | andi o => exact ⟨o.i.setWidth 64, (· &&& ·), fun y => congrArg (y &&& ·) (imm _), fun _ => rfl⟩
  | ori o => exact ⟨o.i.setWidth 64, (· ||| ·), fun y => congrArg (y ||| ·) (imm _), fun _ => rfl⟩
  | xori o => exact ⟨o.i.setWidth 64, (· ^^^ ·), fun y => congrArg (y ^^^ ·) (imm _), fun _ => rfl⟩
  | shli d a n =>
    exact ⟨n.setWidth 64, fun y x => y <<< x.toNat, fun y => amount n ▸ shiftLeft_eq_ofNat y _, fun _ => rfl⟩
  | shri d a n =>
    exact ⟨n.setWidth 64, fun y x => y >>> x.toNat, fun y => amount n ▸ ushiftRight_eq_ofNat y _, fun _ => rfl⟩
  | sari d a n =>
    exact ⟨n.setWidth 64, fun y x => y.sshiftRight x.toNat, fun y => amount n ▸ sshiftRight_eq_ofInt y _, fun _ => rfl⟩
  | slti o =>
    refine ⟨sext64 o.i, fun y x => flagWord (y.slt x), fun y => ?_, fun _ => rfl⟩
    simp only [flagWord_slt, toInt_sext64 o.i (by omega)]

/-- R94: the value of LUI. -/
theorem lui_value (i : BitVec 16) : (i ++ (0 : BitVec 16)).signExtend 64 = BitVec.ofInt 64 (i.toInt * 65536) := by
  rw [BitVec.signExtend]
  congr 1
  rw [BitVec.toInt_append]
  simp [Int.mul_comm]

/-- Settles O30: a register form is one function of both sources (`exec_genTwo`), an immediate form one of its source and its
immediate (`exec_genImm`). -/
theorem generatorArithmeticComputes : Obligations.GeneratorArithmeticComputes := by
  unfold Obligations.GeneratorArithmeticComputes
  intro s core slot b h
  have ht := State.hasThread_of_thread? h
  refine ⟨fun i o f hi => ?two, fun i d a f hi => ?imm, fun d i => ?lui⟩
  case two =>
    obtain ⟨g, hg, he⟩ := exec_genTwo hi
    rw [he, ← hg]
    exact gen_gives h ht rfl
  case imm =>
    obtain ⟨x, g, hg, he⟩ := exec_genImm hi
    rw [he, ← hg]
    exact gen_gives h ht rfl
  case lui =>
    rw [← lui_value]
    exact gen_gives (body := fun e => e.put e.s d ⟨(i ++ (0 : BitVec 16)).signExtend 64, ageless⟩) h ht rfl

/-! ### Branches and jumps (R101, R58) -/

/-- R58: the target of a branch. -/
theorem GEnv.target_eq {n : Nat} (e : GEnv) (j : BitVec n) : e.target j = e.pc + BitVec.ofInt 64 (4 * j.toInt) := by
  rw [BitVec.ofInt_mul]
  rfl

/-- R101: the conditional branches. -/
theorem exec_genBranch {i : Instr} {o : GbOp} {q : DWord → DWord → Prop} (hi : GenBranch i o q) :
    ∃ p : DWord → DWord → Bool, (∀ x y, p x y = true ↔ q x y) ∧ ∀ s, exec i s = gbranch o p s := by
  cases hi with
  | beq => exact ⟨(· == ·), fun x y => beq_iff_eq, fun _ => rfl⟩
  | bne => exact ⟨(· != ·), fun x y => bne_iff_ne, fun _ => rfl⟩
  | blt => exact ⟨fun x y => x.slt y, fun x y => by simp [BitVec.slt], fun _ => rfl⟩
  | bge => exact ⟨fun x y => !x.slt y, fun x y => by simp [BitVec.slt], fun _ => rfl⟩
  | bltu => exact ⟨fun x y => x.ult y, fun x y => by simp [BitVec.ult], fun _ => rfl⟩
  | bgeu => exact ⟨fun x y => !x.ult y, fun x y => by simp [BitVec.ult], fun _ => rfl⟩

theorem exec_j (j : BitVec 26) (s : State) : exec (.j j) s = gen s fun e => .jump e.s (e.target j) := rfl

theorem exec_jal (j : BitVec 26) (s : State) : exec (.jal j) s = gen s fun e =>
    .jump (e.s.onThread e.core e.slot fun t => t.setReg 31 ⟨e.pc + 4, ageless⟩) (e.target j) := rfl

theorem exec_jr (a : BitVec 5) (s : State) : exec (.jr a) s = gen s fun e =>
    if (e.reg a).val.toNat % 4 = 0 then .jump e.s (e.reg a).val else .fault e.s 0x21 0 0 := rfl

/-- Settles O31: a branch that is taken and a jump go on at `GEnv.target`. -/
theorem generatorBranchesGo : Obligations.GeneratorBranchesGo := by
  unfold Obligations.GeneratorBranchesGo
  intro s core slot b h
  have ht := State.hasThread_of_thread? h
  have target {n : Nat} (j : BitVec n) : b.th.pc + BitVec.ofInt 64 (4 * j.toInt) = (s.genEnv core slot b).target j :=
    (GEnv.target_eq (s.genEnv core slot b) j).symm
  refine ⟨fun i o q hi => ?branch, fun j => ⟨?j, ?jal⟩, fun a => ⟨fun hx => ?jr, fun hx => ?odd⟩⟩
  case branch =>
    obtain ⟨p, hp, he⟩ := exec_genBranch hi
    rw [he, target]
    exact ⟨fun hq => gen_jump h ht (if_pos ((hp _ _).2 hq)), fun hq => gen_goesOn h ht (if_neg fun hc => hq ((hp _ _).1 hc))⟩
  case j =>
    rw [exec_j, target]
    exact gen_jump h ht rfl
  case jal =>
    rw [exec_jal, target]
    exact ⟨_, wrote_setReg b.th _ 31 ⟨b.th.pc + 4, ageless⟩,
      gen_jump_thread (f := fun t => t.setReg 31 ⟨b.th.pc + 4, ageless⟩) h ht rfl⟩
  case jr =>
    rw [exec_jr]
    exact gen_jump h ht (if_pos hx)
  case odd =>
    rw [exec_jr]
    exact gen_traps h (if_neg hx)

end Sys2Proof.Machine
end

section
/-! A G-level fault of a thread (R104 to R106): what the trap bank takes, what stays, and the end of a context without a
handler (R316). -/

namespace Sys2Proof.Machine

open Sys2Proof.Claims

/-! ### The record of a fault -/

/-- The record of a G-level fault with its cause word. -/
def State.gRecord (s : State) (core slot : Nat) (b : Block) (cause addr h30 : DWord) : Record :=
  { cause := cause, loc := 1 <<< 63, addr := addr, pc := h30, site := 0, prov := 0, node := b.node
    place := s.placeWord b.ctx core slot }

/-- R104, R105: a fault outside the handler, with a handler. -/
theorem State.gFault_enters {s : State} {core slot code detail : Nat} {addr h30 : DWord} {d : Bool} {b : Block}
    (hb : s.block? core slot = some b) (hh : b.th.handler = false) (ht : b.trap ≠ 0) :
    s.gFault core slot code detail addr h30 d = s.enterHandler core slot
      (s.gRecord core slot b (causeWord b.ctx true d false false detail code) addr h30) h30 := by
  simp only [State.gFault, hb, hh, ht, State.gRecord, Bool.false_eq_true, if_false]

/-- R105, R348: a fault inside the handler, or without one. -/
theorem State.gFault_ends {s : State} {core slot code detail : Nat} {addr h30 : DWord} {d : Bool} {b : Block}
    (hb : s.block? core slot = some b) (h : b.th.handler = true ∨ b.trap = 0) :
    ∃ r, s.gFault core slot code detail addr h30 d = s.fatal b.ctx none r (if b.th.handler then 0x15 else code) := by
  cases hh : b.th.handler with
  | true => exact ⟨_, by simp only [State.gFault, hb, hh, if_true]; rfl⟩
  | false =>
    have ht : b.trap = 0 := by simpa [hh] using h
    exact ⟨_, by simp only [State.gFault, hb, hh, ht, if_true, Bool.false_eq_true, if_false]; rfl⟩

/-- R337: the half of the cause word that h28 takes. -/
theorem causeWord_low (ctx detail code : Nat) (g d ss ws : Bool) (hc : code < 2 ^ 16) (hd : detail < 2 ^ 16) :
    causeWord ctx g d ss ws detail code &&& 0xFFFFFFFF = BitVec.ofNat 64 (detail * 65536 + code) := by
  apply BitVec.eq_of_toNat_eq
  have low (x : DWord) : (x &&& 0xFFFFFFFF).toNat = x.toNat % 2 ^ 32 := by
    rw [BitVec.toNat_and]
    exact Nat.and_two_pow_sub_one_eq_mod _ 32
  rw [low, causeWord, BitVec.toNat_ofNat, BitVec.toNat_ofNat]
  omega

/-! ### The handler entered (R105) -/

/-- The trap bank, register by register. -/
theorem vat_trapBank (h : Vector SVal 32) (x : Record) (h30 : DWord) (r : Nat) (hr : r < 32) :
    vat (trapBank h x h30) SVal.zero r =
      if r = 30 then ⟨h30, ageless⟩ else if r = 29 then ⟨x.addr, ageless⟩
      else if r = 28 then ⟨x.cause &&& 0xFFFFFFFF, ageless⟩ else if r = 27 then ⟨x.loc, ageless⟩
      else if r = 26 then ⟨x.prov, ageless⟩ else if r = 25 then ⟨x.site, ageless⟩ else vat h SVal.zero r := by
  simp only [trapBank, vat_vput _ _ _ _ _ hr]

/-- The block of a thread that has entered its handler. -/
def Block.entered (b : Block) (x : Record) (h30 : DWord) : Block :=
  { b.threadLeaves with th := { b.th with
      h := trapBank b.th.h x h30, handler := true, wait := .none, pc := b.image + BitVec.ofNat 64 b.trap } }

theorem State.enterHandler_eq (s : State) (core slot : Nat) (x : Record) (h30 : DWord) :
    s.enterHandler core slot x h30 = s.onBlock core slot fun b => b.entered x h30 := rfl

/-- R104, R105: the handler entered, and what stays. -/
theorem generatorFaultEntersHandler : Claims.GeneratorFaultEntersHandler := by
  intro s core slot code detail addr h30 d b hb hh ht hc hd
  rw [State.gFault_enters hb hh ht, State.enterHandler_eq]
  refine ⟨b.entered _ h30, by rw [State.block?_onBlock_same, hb]; rfl, rfl, fun r hr => ?bank, ?mem, ?ctxs, fun c sl hne => ?others⟩
  case bank =>
    rw [show (b.entered _ h30).th.h = trapBank b.th.h _ h30 from rfl, vat_trapBank _ _ _ _ hr]
    simp only [State.gRecord, causeWord_low _ _ _ _ _ _ _ hc hd]
    grind
  case mem => exact State.onBlock_mem ..
  case ctxs => rw [State.onBlock_frame]
  case others => rw [State.block?_onBlock, if_neg fun h => hne (Prod.ext h.1 h.2)]

/-! ### The end of a context (R316) -/

theorem State.fatal_eq (s : State) (ctx : Nat) (who : Option (Nat × Nat × Nat)) (r : Record) (code : Nat) :
    ∃ t : State, s.fatal ctx who r code = (t.discard ctx).setCtx ctx
      { (t.discard ctx).ctx ctx with st := .terminated, cause := BitVec.ofNat 16 code } := ⟨_, rfl⟩

theorem State.discard_insts (s : State) (ctx : Nat) : (s.discard ctx).insts.all (fun x => x.ctx != ctx) = true :=
  List.all_eq_true.2 fun _ hx => (List.mem_filter.1 hx).2

theorem State.discard_saved (s : State) (ctx : Nat) : (s.discard ctx).saved.all (fun x => x.ctx != ctx) = true :=
  List.all_eq_true.2 fun _ hx => (List.mem_filter.1 hx).2

/-- R105, R316, R348: without a handler the context ends. -/
theorem faultWithoutHandlerEndsContext : Claims.FaultWithoutHandlerEndsContext := by
  intro s core slot code detail addr h30 d b hb h
  obtain ⟨r, hr⟩ := State.gFault_ends (code := code) (detail := detail) (addr := addr) (h30 := h30) (d := d) hb h
  obtain ⟨t, ht⟩ := State.fatal_eq s b.ctx none r (if b.th.handler then 0x15 else code)
  rw [hr, ht]
  refine ⟨by rw [State.ctx_setCtx_same], ?cause, t.discard_insts b.ctx, t.discard_saved b.ctx⟩
  case cause =>
    rw [State.ctx_setCtx_same]
    cases b.th.handler <;> rfl

/-- Settles O36: the handler is entered by one change of the thread's block (`State.enterHandler_eq`); the end of a context
discards first, then sets its state (`State.fatal_eq`). -/
theorem generatorFaults : Obligations.GeneratorFaults :=
  ⟨generatorFaultEntersHandler, faultWithoutHandlerEndsContext⟩

end Sys2Proof.Machine
end

section
/-! Gang control (R87 to R89): the checks on the gangs that a word names, and what GSTART, GSTEER and GWSET make of a gang. -/

namespace Sys2Proof.Machine

open Sys2Proof.Claims

/-! ### The checks (R88) -/

theorem mem_namedGangs {m : BitVec 16} {i : Nat} : i ∈ namedGangs m ↔ i < 16 ∧ m.getLsbD i = true := by
  simp [namedGangs]

theorem nodup_namedGangs (m : BitVec 16) : (namedGangs m).Nodup := List.nodup_range.filter _

section
variable {e : GEnv} {l : List Nat} {p : Gang → Bool} {r : GRes}

/-- R88: the checks in their order (log 15). -/
theorem GEnv.gangs_eq (e : GEnv) (l : List Nat) (p : Gang → Bool) (r : GRes) :
    e.gangs l p r = if e.b.control then e.illegal
      else if l.any fun i => e.b.shape.gangs ≤ i then .fault e.s 0x13 0 0
      else if l.any fun i => !(e.b.gangs[i]?.any p) then .fault e.s 0x14 0 0 else r := by
  have test (i : Nat) : (match e.b.gangs[i]? with
      | some g => p g
      | none => false) = e.b.gangs[i]?.any p := by
    cases e.b.gangs[i]? <;> rfl
  simp only [← test]
  rfl

theorem GEnv.gangs_control (hc : e.b.control = true) : e.gangs l p r = .fault e.s 0x01 0 0 := by
  rw [GEnv.gangs_eq, if_pos hc]
  rfl

theorem GEnv.gangs_noGang (hc : e.b.control = false) {i : Nat} (hi : i ∈ l) (hg : e.b.shape.gangs ≤ i) :
    e.gangs l p r = .fault e.s 0x13 0 0 := by
  rw [GEnv.gangs_eq, hc, if_neg Bool.false_ne_true, if_pos (List.any_eq_true.2 ⟨i, hi, by simpa using hg⟩)]

/-- What follows the test of the indexes. -/
theorem GEnv.gangs_exist (hc : e.b.control = false) (hl : ∀ i ∈ l, i < e.b.shape.gangs) :
    e.gangs l p r = if l.any fun i => !(e.b.gangs[i]?.any p) then .fault e.s 0x14 0 0 else r := by
  have hindex : ¬(l.any fun i => e.b.shape.gangs ≤ i) = true := by
    simp only [List.any_eq_true, decide_eq_true_eq, not_exists, not_and, not_le]
    exact hl
  rw [GEnv.gangs_eq, hc, if_neg Bool.false_ne_true, if_neg hindex]

theorem GEnv.gangs_badState (hc : e.b.control = false) (hl : ∀ i ∈ l, i < e.b.shape.gangs) {i : Nat} {g : Gang} (hi : i ∈ l)
    (hg : e.b.gangs[i]? = some g) (hp : p g = false) : e.gangs l p r = .fault e.s 0x14 0 0 := by
  rw [GEnv.gangs_exist hc hl, if_pos (List.any_eq_true.2 ⟨i, hi, by simp [hg, hp]⟩)]

/-- The words of gang control pass their checks where every gang named exists with the state asked for. -/
theorem GEnv.gangs_pass (hc : e.b.control = false)
    (hl : ∀ i ∈ l, i < e.b.shape.gangs ∧ ∃ g, e.b.gangs[i]? = some g ∧ p g = true) : e.gangs l p r = r := by
  have hstate : ¬(l.any fun i => !(e.b.gangs[i]?.any p)) = true := by
    simp only [List.any_eq_true, not_exists, not_and]
    intro i hi
    obtain ⟨-, g, hg, hp⟩ := hl i hi
    simp [hg, hp]
  rw [GEnv.gangs_exist hc fun i hi => (hl i hi).1, if_neg hstate]

end

/-! ### The words -/

theorem exec_gstart (a : BitVec 5) (m : BitVec 16) (s : State) : exec (.gstart a m) s = execGstart a m s := rfl
theorem exec_gsteer (a : BitVec 5) (k : BitVec 4) (sl : BitVec 8) (s : State) : exec (.gsteer a k sl) s = execGsteer a k sl s := rfl
theorem exec_gjoin (m : BitVec 16) (s : State) : exec (.gjoin m) s = execGjoin m s := rfl
theorem exec_gend (s : State) : exec .gend s = execGend s := rfl
theorem exec_gwset (a : BitVec 5) (k w : BitVec 4) (s : State) : exec (.gwset a k w) s = execGwset a k w s := rfl

/-! ### GSTART (R88, R254) -/

/-- R110: the present slices of a shape. -/
theorem Shape.getLsbD_present (x : Shape) (j : Nat) (h : j < 8) : x.present.getLsbD j = decide (j < x.slices) := by
  rw [Shape.present, BitVec.getLsbD_ofNat, Nat.testBit_two_pow_sub_one]
  simp [h]

/-- R110: the lanes of the present slices. -/
theorem Shape.getLsbD_laneMask_present (x : Shape) (i : Nat) (h : i < 32) :
    (laneMask x.present).getLsbD i = decide (i < 4 * x.slices) := by
  rw [getLsbD_laneMask _ _ h, Shape.getLsbD_present _ _ (by omega)]
  congr 1
  exact propext (by omega)

/-- Gangs changed one after another, each by a function of the gang and the block's shape. -/
theorem Block.foldl_onGang (l : List Nat) (f : Shape → Gang → Gang) (b : Block) :
    l.foldl (fun b i => b.onGang i (f b.shape)) b =
      { b with gangs := l.foldl (fun gs i => modAt gs i (f b.shape)) b.gangs } := by
  induction l generalizing b with
  | nil => rfl
  | cons i r ih => rw [List.foldl_cons, ih]; rfl

theorem length_foldl_modAt {α : Type} (l : List Nat) (f : α → α) (gs : List α) :
    (l.foldl (fun gs i => modAt gs i f) gs).length = gs.length := by
  induction l generalizing gs with
  | nil => rfl
  | cons i r ih => rw [List.foldl_cons, ih, length_modAt]

theorem getElem?_foldl_modAt {α : Type} {l : List Nat} (hl : l.Nodup) (f : α → α) (gs : List α) (j : Nat) :
    (l.foldl (fun gs i => modAt gs i f) gs)[j]? = if j ∈ l then gs[j]?.map f else gs[j]? := by
  induction l generalizing gs with
  | nil => simp
  | cons i r ih =>
    obtain ⟨hi, hr⟩ := List.nodup_cons.1 hl
    rw [List.foldl_cons, ih hr, getElem?_modAt]
    by_cases hj : j = i
    · subst hj; simp [hi]
    · simp [hj]

/-- The gangs of a block as GSTART leaves them. -/
def Block.startGangs (b : Block) (m : BitVec 16) (pc : Word) (cycle : DWord) : List Gang :=
  (namedGangs m).foldl (fun gs i => modAt gs i fun g => g.start b.shape.present pc cycle) b.gangs

theorem Block.startGangs_named {b : Block} {m : BitVec 16} {i : Nat} {g : Gang} (pc : Word) (cycle : DWord) (hi : i < 16)
    (hm : m.getLsbD i = true) (hg : b.gangs[i]? = some g) :
    (b.startGangs m pc cycle)[i]? = some (g.start b.shape.present pc cycle) := by
  rw [Block.startGangs, getElem?_foldl_modAt (nodup_namedGangs m), if_pos (mem_namedGangs.2 ⟨hi, hm⟩), hg]
  rfl

theorem Block.startGangs_other (b : Block) {m : BitVec 16} {i : Nat} (pc : Word) (cycle : DWord) (hm : m.getLsbD i = false) :
    (b.startGangs m pc cycle)[i]? = b.gangs[i]? := by
  rw [Block.startGangs, getElem?_foldl_modAt (nodup_namedGangs m), if_neg]
  exact fun h => by simp [(mem_namedGangs.1 h).2] at hm

section
variable {s : State} {core slot : Nat} {b : Block}

theorem State.block?_join (s : State) (ws : List Who) (p : Who → Bool) (c sl : Nat) : (s.join ws p).block? c sl = s.block? c sl := rfl

/-- A change of one block depends on that block alone. -/
theorem State.onBlock_congr {t : State} {c sl : Nat} {f g : Block → Block} {x : Block} (h : t.block? c sl = some x)
    (e : f x = g x) : t.onBlock c sl f = t.onBlock c sl g := by
  rw [State.onBlock_eq _ _ _ _ h, State.onBlock_eq _ _ _ _ h, e]

/-- R88, R254: GSTART where every gang named is IDLE. -/
theorem gstart_goesOn (h : s.thread? = some (core, slot, b)) (hc : b.control = false) {a : BitVec 5} {m : BitVec 16}
    (hn : named b m (fun g => g.st = .idle)) :
    goesOn ((s.join ((namedGangs m).map fun i => .gang core slot i) (·.covers (.thread core slot))).onBlock core slot fun x =>
      { x with gangs := b.startGangs m (BitVec.ofNat 32 (b.th.reg a.toNat).val.toNat) (s.core core).cycle }) core slot b
      (execGstart a m s) := by
  have hb := (State.thread?_some h).2
  refine gen_goesOn h (State.hasThread_onBlock (State.hasThread_of_block? hb) fun _ => rfl) ?_
  refine (GEnv.gangs_pass hc fun i hi => ?_).trans ?_
  · obtain ⟨hi, g, hg, hst⟩ := hn i (mem_namedGangs.1 hi).1 (mem_namedGangs.1 hi).2
    exact ⟨hi, g, hg, by simp [hst]⟩
  · refine congrArg GRes.done ?_
    rw [BitVec.ofNat_toNat]
    refine State.onBlock_congr (x := b) ((State.block?_join ..).trans hb) ?_
    exact Block.foldl_onGang _ (fun sh g => g.start sh.present ((b.th.reg a.toNat).val.setWidth 32) (s.core core).cycle) b

/-- On a control core the words of gang control are illegal (R88). -/
theorem gangWord_control (h : s.thread? = some (core, slot, b)) (hc : b.control = true) (a : BitVec 5) (m : BitVec 16)
    (k : BitVec 4) (sl : BitVec 8) (w : BitVec 4) :
    ∀ i ∈ [Instr.gstart a m, .gsteer a k sl, .gjoin m, .gend, .gwset a k w], traps s core slot 0x01 0 0 (exec i s) := by
  simp only [List.mem_cons, List.not_mem_nil, or_false, forall_eq_or_imp, forall_eq, exec_gstart, exec_gsteer, exec_gjoin,
    exec_gend, exec_gwset]
  refine ⟨gen_traps h (GEnv.gangs_control hc), gen_traps h (GEnv.gangs_control hc), gen_traps h ?_, gen_traps h ?_,
    gen_traps h (GEnv.gangs_control hc)⟩
  · exact ite_eq_left_iff.2 fun _ => GEnv.gangs_control hc
  · exact ite_eq_left_iff.2 fun _ => GEnv.gangs_control hc

/-- Settles O39: a gang named is as `Gang.start` makes it (`Block.startGangs_named`), another one as it was. -/
theorem gangsStart : Obligations.GangsStart := by
  unfold Obligations.GangsStart
  intro s core slot b a m h
  refine ⟨fun hc k sl w => gangWord_control h hc a m k sl w, fun hc => ⟨?noGang, ?notIdle, fun hn => ?starts⟩⟩
  case noGang =>
    rintro ⟨i, hi, hm, hg⟩
    rw [exec_gstart]
    exact gen_traps h (GEnv.gangs_noGang hc (mem_namedGangs.2 ⟨hi, hm⟩) hg)
  case notIdle =>
    rintro hall ⟨i, g, hi, hm, hg, hst⟩
    rw [exec_gstart]
    exact gen_traps h (GEnv.gangs_badState hc (fun j hj => hall j (mem_namedGangs.1 hj).1 (mem_namedGangs.1 hj).2)
      (mem_namedGangs.2 ⟨hi, hm⟩) hg (by simpa using hst))
  case starts =>
    refine ⟨_, length_foldl_modAt _ _ _, gstart_goesOn h hc hn, fun i hm => Block.startGangs_other b _ _ hm, ?_⟩
    intro i g hi hm hg
    refine ⟨_, Block.startGangs_named _ _ hi hm hg, rfl, rfl, rfl, rfl, rfl, rfl, rfl, fun L hL => ?_, rfl, rfl, rfl, rfl, rfl⟩
    exact ⟨Shape.getLsbD_laneMask_present _ _ hL, rfl⟩

/-! ### GSTEER (R88) -/

theorem Gang.steer_frame (g : Gang) (m : BitVec 8) (pc : Word) : g.steer m pc = { g with groups := (g.steer m pc).groups } := by
  simp only [Gang.steer]
  split <;> rfl

theorem Gang.steer_none {g : Gang} {m : BitVec 8} (pc : Word) (h : m &&& g.live = 0) : g.steer m pc = g := by
  simp [Gang.steer, h]

/-- R88: the slices steered form the first group, the others keep their PCs. -/
theorem Gang.steer_some {g : Gang} {m : BitVec 8} (pc : Word) (h : m &&& g.live ≠ 0) :
    ∃ r, (g.steer m pc).groups = Group.start (m &&& g.live) pc g.wnum :: r ∧
      r.map (fun x => (x.mask, x.pc)) = g.groups.filterMap fun x =>
        if x.mask &&& ~~~(m &&& g.live) = 0 then none else some (x.mask &&& ~~~(m &&& g.live), x.pc) := by
  simp only [Gang.steer, h, if_false]
  refine ⟨_, rfl, ?_⟩
  rw [List.map_filterMap]
  congr 1
  funext x
  split <;> rfl

/-- The state after GSTEER: the FERRY commands of the slices given up, the mailbox queues left, the gang steered. -/
def State.steered (s : State) (core slot k : Nat) (sl : BitVec 8) (pc : Word) : State :=
  (s.unhold core slot k fun m => m &&& sl != 0).onBlock core slot fun b => (b.gangLeaves k false).onGang k (·.steer sl pc)

theorem State.unhold_frame (s : State) (core slot k : Nat) (p : BitVec 8 → Bool) :
    s.unhold core slot k p = { s with cores := (s.unhold core slot k p).cores } := by
  unfold State.unhold
  rw [State.onBlock_frame]
  rfl

theorem State.block?_unhold {s : State} {core slot : Nat} {b : Block} (k : Nat) (p : BitVec 8 → Bool)
    (hb : s.block? core slot = some b) :
    ∃ x, (s.unhold core slot k p).block? core slot = some { b with tagpend := x } := by
  have hb' (c : List (Nat × Nat × BitVec 8 × FerryCmd)) :
      (s.setCore core { s.core core with ferryWait := c }).block? core slot = some b := by
    rw [← hb]
    simp [State.block?]
  exact ⟨_, by unfold State.unhold; rw [State.block?_onBlock_same, hb']; rfl⟩

theorem State.steered_frame (s : State) (core slot k : Nat) (sl : BitVec 8) (pc : Word) :
    s.steered core slot k sl pc = { s with cores := (s.steered core slot k sl pc).cores } := by
  unfold State.steered
  rw [State.onBlock_frame, State.unhold_frame]

theorem State.gang?_steered {k : Nat} {g : Gang} (hb : s.block? core slot = some b) (hg : b.gangs[k]? = some g) (sl : BitVec 8)
    (pc : Word) : (s.steered core slot k sl pc).gang? core slot k = some (g.steer sl pc) := by
  obtain ⟨x, hx⟩ := State.block?_unhold k (fun m => m &&& sl != 0) hb
  unfold State.steered State.gang?
  rw [State.block?_onBlock_same, hx]
  simp [Block.onGang, Block.gangLeaves, getElem?_modAt, hg]

theorem State.hasThread_steered (hb : s.block? core slot = some b) (k : Nat) (sl : BitVec 8) (pc : Word) :
    (s.steered core slot k sl pc).hasThread core slot b := by
  obtain ⟨x, hx⟩ := State.block?_unhold k (fun m => m &&& sl != 0) hb
  exact State.hasThread_onBlock (by rw [State.hasThread, hx]; rfl) fun _ => rfl

/-! ### GJOIN and GEND (R88) -/

/-- R88: GJOIN outside the handler, where every gang named exists. -/
theorem execGjoin_body {e : GEnv} {m : BitVec 16} (hh : e.th.handler = false) (hc : e.b.control = false)
    (hn : named e.b m (fun _ => True)) (x y : GRes) :
    (if e.th.handler then e.illegal else e.gangs (namedGangs m) (fun _ => true) <|
      if (namedGangs m).all fun i => (match e.b.gangs[i]? with
        | some g => g.st == .idle
        | none => true) then x else y) =
      if (namedGangs m).all fun i => e.b.gangs[i]?.all (·.st == .idle) then x else y := by
  have exist : ∀ i ∈ namedGangs m, i < e.b.shape.gangs ∧ ∃ g, e.b.gangs[i]? = some g ∧ true = true := by
    intro i hi
    obtain ⟨hlt, g, hg, -⟩ := hn i (mem_namedGangs.1 hi).1 (mem_namedGangs.1 hi).2
    exact ⟨hlt, g, hg, rfl⟩
  have test (i : Nat) : (match e.b.gangs[i]? with
      | some g => g.st == .idle
      | none => true) = e.b.gangs[i]?.all (·.st == .idle) := by
    cases e.b.gangs[i]? <;> rfl
  rw [hh, if_neg Bool.false_ne_true, GEnv.gangs_pass hc exist]
  simp only [test]

/-- The condition of GJOIN. -/
theorem all_idle_iff {b : Block} {m : BitVec 16} (hn : named b m (fun _ => True)) :
    ((namedGangs m).all fun i => b.gangs[i]?.all (·.st == .idle)) = true ↔ named b m (fun g => g.st = .idle) := by
  simp only [List.all_eq_true, mem_namedGangs, and_imp]
  constructor
  · intro hall i hi hm
    obtain ⟨hlt, g, hg, -⟩ := hn i hi hm
    exact ⟨hlt, g, hg, by simpa [hg] using hall i hi hm⟩
  · intro hall i hi hm
    obtain ⟨-, g, hg, hst⟩ := hall i hi hm
    simp [hg, hst]

theorem gjoin_goesOn (h : s.thread? = some (core, slot, b)) (hc : b.control = false) (hh : b.th.handler = false)
    {m : BitVec 16} (hn : named b m (fun g => g.st = .idle)) :
    goesOn (s.join [.thread core slot] fun w => (namedGangs m).any fun i => w.ofGang core slot i) core slot b
      (execGjoin m s) := by
  have hex : named b m (fun _ => True) := fun i hi hm => (hn i hi hm).imp_right fun ⟨g, hg, _⟩ => ⟨g, hg, trivial⟩
  exact gen_goesOn h (State.hasThread_of_thread? h)
    ((execGjoin_body (e := s.genEnv core slot b) hh hc hex _ _).trans (if_pos ((all_idle_iff hex).2 hn)))

theorem gjoin_waits (h : s.thread? = some (core, slot, b)) (hc : b.control = false) (hh : b.th.handler = false)
    {m : BitVec 16} (hex : named b m (fun _ => True)) (hn : ¬named b m (fun g => g.st = .idle)) :
    waits s core slot .join (execGjoin m s) :=
  gen_waits h ((execGjoin_body (e := s.genEnv core slot b) hh hc hex _ _).trans (if_neg fun hall => hn ((all_idle_iff hex).1 hall)))

/-- R88: GEND outside the handler. -/
theorem execGend_body {e : GEnv} (hh : e.th.handler = false) (hc : e.b.control = false) (x y : GRes) :
    (if e.th.handler then e.illegal else e.gangs [] (fun _ => true) <| if e.b.gangs.all fun g => g.st == .idle then x else y) =
      if e.b.gangs.all fun g => g.st == .idle then x else y := by
  rw [hh, if_neg Bool.false_ne_true, GEnv.gangs_pass hc fun i hi => absurd hi List.not_mem_nil]

theorem gend_ends (h : s.thread? = some (core, slot, b)) (hc : b.control = false) (hh : b.th.handler = false)
    (hg : ∀ g ∈ b.gangs, g.st = .idle) :
    execGend s = .next (s.genDone core slot b { onAt b.th (b.th.pc + 4) with ended := true }) := by
  have hall : (b.gangs.all fun g => g.st == .idle) = true := List.all_eq_true.2 fun g hm => by simp [hg g hm]
  rw [onAt]
  refine (gen_done_thread (f := fun t => { t with ended := true }) h (State.hasThread_of_thread? h)
    ((execGend_body (e := s.genEnv core slot b) hh hc _ _).trans (if_pos hall))).trans ?_
  rw [Thread.complete_eq]

theorem gend_waits (h : s.thread? = some (core, slot, b)) (hc : b.control = false) (hh : b.th.handler = false)
    (hg : ∃ g ∈ b.gangs, g.st ≠ .idle) : waits s core slot .gend (execGend s) := by
  obtain ⟨g, hm, hst⟩ := hg
  refine gen_waits h ((execGend_body (e := s.genEnv core slot b) hh hc _ _).trans (if_neg fun hall => hst ?_))
  simpa using List.all_eq_true.1 hall g hm

/-! ### GWSET (R88) -/

/-- A result that the write leaves seen from outside the gang does not write the register. -/
theorem Gang.onUni_of_seen_writeW (g : Gang) (w : Nat) (x y : SVal) {p : Pend} (hp : p ∈ (g.writeW 0 w x).seen) :
    p.onUni w y = y := by
  obtain ⟨hm, hr⟩ := List.mem_filter.1 hp
  obtain ⟨q, -, rfl⟩ := List.mem_map.1 hm
  by_cases hu : q.uniReg = some w
  · have hq : q.returned = true := by
      split at hr
      · exact hr
      · exact hr
    rw [if_pos ⟨hu, .inl hq⟩]
    unfold Pend.onUni
    split
    · exact if_neg (by simp)
    · rfl
  · rw [if_neg fun hc => hu hc.1]
    unfold Pend.onUni
    split
    · next d v _ hv =>
      have hd : d.toNat ≠ w := fun hd => hu (by simp [Pend.uniReg, hv, hd])
      simp [hd]
    · rfl

theorem Gang.viewW_writeW (g : Gang) (w : Nat) (x : SVal) (hw : w < 16) : (g.writeW 0 w x).viewW 0 w = x := by
  have kept (l : List Pend) (hl : ∀ p ∈ l, ∀ y, p.onUni w y = y) (y : SVal) :
      l.foldl (fun y p => if p.slices &&& 0 = 0 then p.onUni w y else y) y = y := by
    induction l with
    | nil => rfl
    | cons p r ih =>
      rw [List.foldl_cons, hl p (by simp), ite_self]
      exact ih fun q hq => hl q (List.mem_cons_of_mem _ hq)
  unfold Gang.viewW
  rw [kept _ fun p hp y => Gang.onUni_of_seen_writeW g w x y hp, Gang.wreg, Gang.writeW, vat_vput _ _ _ _ _ hw, if_pos rfl]

/-- Settles O40: GSTEER leaves the gang as `Gang.steer` makes it, GWSET as `Gang.writeW` does. -/
theorem gangControlWords : Obligations.GangControlWords := by
  unfold Obligations.GangControlWords
  intro s core slot b h hc
  have hb := (State.thread?_some h).2
  refine ⟨fun a k w sl hk => ?noGang, fun a k sl g hk hg => ⟨fun hst => ?notParked, fun hst => ?steers⟩,
    fun m hh => ⟨fun hn => gjoin_goesOn h hc hh hn, fun hex hn => gjoin_waits h hc hh hex hn⟩, fun m hh => ?handler,
    fun hh => ⟨fun hg => gend_ends h hc hh hg, fun hg => gend_waits h hc hh hg⟩,
    fun a k w g hk hg => ⟨fun hst => ?running, fun hst => ?sets⟩⟩
  case noGang =>
    simp only [List.mem_cons, List.not_mem_nil, or_false, forall_eq_or_imp, forall_eq, exec_gsteer, exec_gwset]
    exact ⟨gen_traps h (GEnv.gangs_noGang hc (List.mem_singleton_self _) hk),
      gen_traps h (GEnv.gangs_noGang hc (List.mem_singleton_self _) hk)⟩
  case notParked =>
    rw [exec_gsteer]
    exact gen_traps h (GEnv.gangs_badState hc (List.forall_mem_singleton.2 hk) (List.mem_singleton_self _) hg (by simpa using hst))
  case steers =>
    rw [exec_gsteer]
    refine ⟨s.steered core slot k.toNat sl (BitVec.ofNat 32 (b.th.reg a.toNat).val.toNat), ?goes, ?_, ?_, _,
      State.gang?_steered hb hg sl _, Gang.steer_frame _ _ _, fun h0 => by rw [Gang.steer_none _ h0],
      fun h0 => Gang.steer_some _ h0⟩
    case goes =>
      rw [BitVec.ofNat_toNat]
      refine gen_goesOn h (State.hasThread_steered hb _ _ _) (GEnv.gangs_pass hc fun i hi => ?_)
      rw [List.mem_singleton.1 hi]
      exact ⟨hk, g, hg, by simp [hst]⟩
    · rw [State.steered_frame]
    · rw [State.steered_frame]
  case handler =>
    simp only [List.mem_cons, List.not_mem_nil, or_false, forall_eq_or_imp, forall_eq, exec_gjoin, exec_gend]
    exact ⟨gen_traps h (if_pos hh), gen_traps h (if_pos hh)⟩
  case running =>
    rw [exec_gwset]
    exact gen_traps h (GEnv.gangs_badState hc (List.forall_mem_singleton.2 hk) (List.mem_singleton_self _) hg (by simp [hst]))
  case sets =>
    refine ⟨g.writeW 0 w.toNat (b.th.reg a.toNat), ?_, rfl, fun r hr => vat_vput _ _ _ _ _ hr,
      Gang.viewW_writeW _ _ _ w.isLt⟩
    rw [exec_gwset, gangIs, ← State.onGang_congr s core slot k.toNat (·.writeW 0 w.toNat (b.th.reg a.toNat)) _
      (x := g) (by simp [State.gang?, hb, hg]) rfl]
    refine gen_goesOn h (State.hasThread_onBlock (State.hasThread_of_block? hb) fun _ => rfl)
      (GEnv.gangs_pass hc fun i hi => ?_)
    rw [List.mem_singleton.1 hi]
    refine ⟨hk, g, hg, ?_⟩
    cases hx : g.st with
    | running => exact absurd hx hst
    | idle => rfl
    | parked => rfl

end

end Sys2Proof.Machine
end

section
/-! What an access to memory changes beside memory (R174, R193 to R201, R207 to R212): no thread, no gang, no context; and, where no
stash line is dirty, not memory itself. -/

namespace Sys2Proof

theorem Tbl.mem_of_get? {α : Type} {t : Tbl α} {k : Nat} {x : α} (h : Tbl.get? t k = some x) : (k, x) ∈ t := by
  induction t with
  | nil => exact absurd h (by simp [Tbl.get?])
  | cons e r ih =>
    obtain ⟨j, y⟩ := e
    simp only [Tbl.get?] at h
    split at h
    · next hj => cases h; subst hj; exact List.mem_cons_self
    · exact List.mem_cons_of_mem _ (ih h)

namespace Machine

open Sys2Proof.Claims

/-! ### Stashes without a dirty line (R174) -/

/-- No line of the stash is dirty. -/
def cleanStash (l : Tbl StashLine) : Prop := ∀ e ∈ l, e.2.dirty = false

/-- No stash line of the package is dirty. -/
def State.clean (s : State) : Prop := ∀ p ∈ s.blocks, cleanStash p.2.2.stash

theorem cleanStash_set {l : Tbl StashLine} {k : Nat} {x : StashLine} (h : cleanStash l) (hx : x.dirty = false) :
    cleanStash (Tbl.set l k x) := by
  intro e he
  rcases Tbl.mem_set he with rfl | he
  · exact hx
  · exact h e he

theorem cleanStash_erase {l : Tbl StashLine} {k : Nat} (h : cleanStash l) : cleanStash (Tbl.erase l k) :=
  fun e he => h e ((Tbl.erase_sublist l k).subset he)

/-- The same, core by core. -/
def Core.clean (c : Core) : Prop := ∀ q ∈ c.blocks, cleanStash q.2.stash

theorem State.clean_iff {s : State} : s.clean ↔ ∀ p ∈ s.cores, p.2.clean := by
  simp only [State.clean, State.blocks, List.mem_flatMap, List.mem_map, Core.clean]
  constructor
  · intro h p hp q hq
    exact h (p.1, q.1, q.2) ⟨p, hp, q, hq, rfl⟩
  · rintro h x ⟨p, hp, q, hq, rfl⟩
    exact h p hp q hq

theorem State.clean_core {s : State} (h : s.clean) (c : Nat) : (s.core c).clean := by
  unfold State.core Tbl.getD
  cases hc : Tbl.get? s.cores c with
  | none => exact fun q hq => absurd hq List.not_mem_nil
  | some x => exact State.clean_iff.1 h _ (Tbl.mem_of_get? hc)

theorem State.clean_block {s : State} (h : s.clean) {c sl : Nat} {b : Block} (hb : s.block? c sl = some b) :
    cleanStash b.stash := State.clean_core h c _ (Tbl.mem_of_get? hb)

theorem State.clean_setCore {s : State} (h : s.clean) (c : Nat) {x : Core} (hx : x.clean) : (s.setCore c x).clean := by
  refine State.clean_iff.2 fun p hp => ?_
  rcases Tbl.mem_set hp with rfl | hp
  · exact hx
  · exact State.clean_iff.1 h p hp

theorem State.clean_onBlock {s : State} (h : s.clean) (c sl : Nat) {f : Block → Block}
    (hf : ∀ x, cleanStash x.stash → cleanStash (f x).stash) : (s.onBlock c sl f).clean := by
  unfold State.onBlock
  split
  · next x hx =>
    refine State.clean_setCore h c fun q hq => ?_
    rcases Tbl.mem_set hq with rfl | hq
    · exact hf x (State.clean_block h hx)
    · exact State.clean_core h c q hq
  · exact h

/-! ### The relations -/

theorem elsewhere_refl (s : State) : Elsewhere s s := ⟨fun _ _ _ _ => rfl, fun _ _ => rfl, rfl, rfl⟩

theorem elsewhere_trans {s t u : State} (h : Elsewhere s t) (k : Elsewhere t u) : Elsewhere s u :=
  ⟨fun c sl g hg => (k.gangs c sl g hg).trans (h.gangs c sl g hg), fun c sl => (k.threads c sl).trans (h.threads c sl),
   k.ctxs.trans h.ctxs, k.cubes.trans h.cubes⟩

/-- Nothing has changed beside memory: no thread, gang, context or cube, no tide and no base die; no stash line has become dirty;
and, where `l` asks for it, the L1s hold what they held. -/
structure Beside (l : Prop) (s u : State) : Prop extends Elsewhere s u where
  tide : u.tide = s.tide
  bases : u.bases = s.bases
  clean : s.clean → u.clean
  l1 : l → ∀ c, (u.core c).l1 = (s.core c).l1

/-- The same, and where no stash line is dirty memory holds what it held, and no write is to be missed that was not. -/
structure Still (l : Prop) (s u : State) : Prop extends Beside l s u where
  mem : s.clean → u.mem = s.mem
  olds : s.clean → s.olds = [] → u.olds = []

section
variable {l : Prop} {s t u : State}

theorem Beside.refl (l : Prop) (s : State) : Beside l s s := ⟨elsewhere_refl s, rfl, rfl, id, fun _ _ => rfl⟩

theorem Beside.trans (h : Beside l s t) (k : Beside l t u) : Beside l s u :=
  ⟨elsewhere_trans h.toElsewhere k.toElsewhere, k.tide.trans h.tide, k.bases.trans h.bases, fun c => k.clean (h.clean c),
   fun hl c => (k.l1 hl c).trans (h.l1 hl c)⟩

theorem Beside.weaken (h : Beside True s u) : Beside l s u :=
  ⟨h.toElsewhere, h.tide, h.bases, h.clean, fun _ => h.l1 trivial⟩

theorem Beside.hasThread (h : Beside l s u) {core slot : Nat} {b : Block} (hb : s.hasThread core slot b) :
    u.hasThread core slot b := (h.threads core slot).trans hb

theorem Beside.ctx (h : Beside l s u) (x : Nat) : u.ctx x = s.ctx x := by simp [State.ctx, h.ctxs]

theorem Beside.now (h : Beside l s u) (x : Nat) : u.now x = s.now x := by
  simp [State.now, State.ctide, h.ctx, h.tide]

theorem Beside.boundFails (h : Beside l s u) (x n : Nat) (st : Stamp) : u.boundFails x n st = s.boundFails x n st := by
  simp [State.boundFails, h.ctx, h.now]

theorem Beside.offline (h : Beside l s u) (pa : Nat) : u.offline pa = s.offline pa := by
  simp [State.offline, State.base, h.bases]

theorem Still.refl (l : Prop) (s : State) : Still l s s := ⟨Beside.refl l s, fun _ => rfl, fun _ => id⟩

theorem Still.trans (h : Still l s t) (k : Still l t u) : Still l s u :=
  ⟨h.toBeside.trans k.toBeside, fun c => (k.mem (h.clean c)).trans (h.mem c), fun c e => k.olds (h.clean c) (h.olds c e)⟩

theorem Still.weaken (h : Still True s u) : Still l s u := ⟨h.toBeside.weaken, h.mem, h.olds⟩

theorem Still.quiet (h : Still l s u) (hq : quiet s) : quiet u := ⟨h.olds hq.2 hq.1, h.clean hq.2⟩

/-- A change of fields that none of this is about. -/
theorem Beside.of_fields (hcores : u.cores = s.cores) (hcyc : u.cycles = s.cycles) (hctxs : u.ctxs = s.ctxs)
    (hcubes : u.cubes = s.cubes) (htide : u.tide = s.tide) (hbases : u.bases = s.bases) : Beside l s u := by
  have hcore (c : Nat) : u.core c = s.core c := by simp [State.core, hcores, hcyc]
  have hblock (c sl : Nat) : u.block? c sl = s.block? c sl := by simp [State.block?, hcore]
  exact ⟨⟨fun c sl g _ => by simp [State.gang?, hblock], fun c sl => by rw [hblock], hctxs, hcubes⟩, htide, hbases,
    fun h => by simpa [State.clean_iff, hcores] using h, fun _ c => by rw [hcore]⟩

theorem Still.of_fields (hcores : u.cores = s.cores) (hcyc : u.cycles = s.cycles) (hctxs : u.ctxs = s.ctxs)
    (hcubes : u.cubes = s.cubes) (htide : u.tide = s.tide) (hbases : u.bases = s.bases) (hmem : u.mem = s.mem)
    (holds : s.olds = [] → u.olds = []) : Still l s u :=
  ⟨Beside.of_fields hcores hcyc hctxs hcubes htide hbases, fun _ => hmem, fun _ => holds⟩

/-- A change of a core that keeps its blocks. -/
theorem Still.setCore (s : State) (c : Nat) {x : Core} (hb : x.blocks = (s.core c).blocks)
    (hl : l → x.l1 = (s.core c).l1) : Still l s (s.setCore c x) := by
  have hblock (d sl : Nat) : (s.setCore c x).block? d sl = s.block? d sl := by
    rw [State.block?, State.core_setCore]
    split
    · next h => rw [h, hb]; rfl
    · rfl
  refine ⟨⟨⟨fun d sl g _ => by simp [State.gang?, hblock], fun d sl => by rw [hblock], rfl, rfl⟩, rfl, rfl, fun h => ?_,
    fun h d => ?_⟩, fun _ => rfl, fun _ => id⟩
  · exact State.clean_setCore h c (by unfold Core.clean; rw [hb]; exact State.clean_core h c)
  · rw [State.core_setCore]
    split
    · next e => rw [e, hl h]
    · rfl

/-- A change of a block that keeps its thread and its gangs, and makes no stash line dirty. -/
theorem Still.onBlock (s : State) (c sl : Nat) {f : Block → Block} (hth : ∀ x, (f x).th = x.th)
    (hg : ∀ x g, g < 16 → (f x).gangs[g]? = x.gangs[g]?) (hs : ∀ x, cleanStash x.stash → cleanStash (f x).stash) :
    Still l s (s.onBlock c sl f) := by
  refine ⟨⟨⟨fun d e g hlt => ?_, fun d e => ?_, by rw [State.onBlock_frame], by rw [State.onBlock_frame]⟩,
    by rw [State.onBlock_frame], by rw [State.onBlock_frame], fun h => State.clean_onBlock h c sl hs, fun _ d => ?_⟩,
    fun _ => State.onBlock_mem .., fun _ h => by rw [State.onBlock_frame]; exact h⟩
  · unfold State.gang?
    rw [State.block?_onBlock]
    split
    · cases s.block? d e with
      | none => rfl
      | some x => exact hg x g hlt
    · rfl
  · rw [State.block?_onBlock]
    split
    · cases s.block? d e with
      | none => rfl
      | some x => exact congrArg some (hth x)
    · rfl
  · by_cases hd : d = c
    · subst hd
      unfold State.onBlock
      split
      · rw [State.setBlock, State.core_setCore_same]
      · rfl
    · rw [State.core_onBlock_other _ _ _ hd]

/-- A stash line leaves, or stays without being dirty. -/
theorem Still.lineOut (s : State) (c sl key : Nat) (x : StashLine) (drop : Bool) : Still l s (s.onBlock c sl fun b =>
    { b with stash := if drop then Tbl.erase b.stash key else Tbl.set b.stash key { x with dirty := false, excl := false } }) := by
  refine Still.onBlock s c sl (fun _ => rfl) (fun _ _ _ => rfl) fun b hb => ?_
  cases drop with
  | true => exact cleanStash_erase hb
  | false => exact cleanStash_set hb rfl

theorem Still.setRegion (s : State) (r : Nat) (x : Region) : Still l s (s.setRegion r x) :=
  Still.of_fields rfl rfl rfl rfl rfl rfl rfl id

theorem Still.count (s : State) (off n : Nat) : Still l s (s.count off n) :=
  Still.of_fields rfl rfl rfl rfl rfl rfl rfl id

theorem Still.choose {α : Type} (s : State) (cur : α) (olds : List α) : Still l s (s.choose cur olds).1 := by
  rw [(s.choose_spec cur olds).1]
  exact Still.of_fields rfl rfl rfl rfl rfl rfl rfl id

theorem Still.see (s : State) (ws : List Who) (v : List Nat) : Still l s (s.see ws v) :=
  Still.of_fields rfl rfl rfl rfl rfl rfl rfl fun h => by simp [State.see, h]

theorem Still.seeUpto (s : State) (ws : List Who) (sec n : Nat) : Still l s (s.seeUpto ws sec n) := Still.see ..

theorem Still.join (s : State) (ws : List Who) (p : Who → Bool) : Still l s (s.join ws p) := Still.see ..

theorem Still.observe (s : State) (w : Who) (hs : List Head) (a n : Nat) : Still l s (s.observe w hs a n) :=
  Still.of_fields rfl rfl rfl rfl rfl rfl rfl id

theorem Still.foldl {α : Type} {f : State → α → State} (hf : ∀ s a, Still l s (f s a)) (s : State) (as : List α) :
    Still l s (as.foldl f s) := by
  induction as generalizing s with
  | nil => exact Still.refl l s
  | cons a r ih => exact (hf s a).trans (ih _)

theorem Beside.foldl {α : Type} {f : State → α → State} (hf : ∀ s a, Beside l s (f s a)) (s : State) (as : List α) :
    Beside l s (as.foldl f s) := by
  induction as generalizing s with
  | nil => exact Beside.refl l s
  | cons a r ih => exact (hf s a).trans (ih _)

theorem Still.sync (s : State) (ws : List Who) (p : Who → Bool) (scope : BitVec 3) : Still l s (s.sync ws p scope) := by
  refine Still.foldl (fun s a => ?_) s s.tails
  split
  · exact Still.see ..
  · exact Still.refl ..

theorem Still.system (s : State) (p : Who → Bool) (scope : BitVec 3) : Still l s (s.system p scope) := by
  unfold State.system
  split
  · exact Still.of_fields rfl rfl rfl rfl rfl rfl rfl fun h => by simp [h]
  · exact Still.refl ..

theorem Still.versionFor (s : State) (w : Who) (sec : Nat) : Still l s (s.versionFor w sec).1 := Still.choose ..

/-! ### Lines written back (R174, R175) -/

theorem Beside.homeSet (s : State) (sec : Nat) (data : List Byte) (st : Stamp) (bad : Bool) :
    Beside l s (s.homeSet sec data st bad) := by
  unfold State.homeSet
  split
  · exact (Still.count ..).toBeside
  · exact Beside.of_fields rfl rfl rfl rfl rfl rfl

theorem Beside.homeLine (s : State) (x : StashLine) : Beside l s (s.homeLine x) := by
  refine Beside.foldl (fun s k => ?_) s _
  dsimp only
  split
  · exact Beside.homeSet ..
  · exact Beside.of_fields rfl rfl rfl rfl rfl rfl

/-- Steps through the stash lines of all blocks, each of which may write its line back, then change stashes. -/
theorem Still.foldl_stashes {f : State → Nat × Nat × Block → Nat × StashLine → State}
    (hb : ∀ s p e, Beside l s (f s p e)) (hs : ∀ s p e, e.2.dirty = false → Still l s (f s p e)) (s : State) :
    Still l s (s.blocks.foldl (fun s p => p.2.2.stash.foldl (fun s e => f s p e) s) s) := by
  have lines (p : Nat × Nat × Block) (hp : cleanStash p.2.2.stash) (s : State) :
      Still l s (p.2.2.stash.foldl (fun s e => f s p e) s) := by
    refine List.foldlRecOn (motive := fun t => Still l s t) _ _ (Still.refl l s) fun t ht e he => ht.trans (hs t p e (hp e he))
  refine ⟨Beside.foldl (fun s p => Beside.foldl (fun s e => hb s p e) s _) s _, fun hc => ?_, fun hc => ?_⟩ <;>
    have all : Still l s (s.blocks.foldl (fun s p => p.2.2.stash.foldl (fun s e => f s p e) s) s) :=
      List.foldlRecOn (motive := fun t => Still l s t) _ _ (Still.refl l s) fun t ht p hp => ht.trans (lines p (hc p hp) t)
  · exact all.mem hc
  · exact all.olds hc

theorem Beside.lineBack (s : State) (x : StashLine) : Beside l s (if x.dirty then s.homeLine x else s) := by
  split
  · exact Beside.homeLine ..
  · exact Beside.refl ..

/-- A line chosen is written back if dirty, then leaves or stays. -/
theorem Still.foldl_linesOut (p : Nat × Nat × Block → Nat × StashLine → Bool) (drop : Bool) (s : State) :
    Still l s (s.blocks.foldl (fun s q => q.2.2.stash.foldl (fun s e =>
      if p q e then
        let s := if e.2.dirty then s.homeLine e.2 else s
        s.onBlock q.1 q.2.1 fun b =>
          { b with
            stash := if drop then Tbl.erase b.stash e.1 else Tbl.set b.stash e.1 { e.2 with dirty := false, excl := false } }
      else s) s) s) := by
  refine Still.foldl_stashes (fun s q e => ?_) (fun s q e hd => ?_) s
  · split
    · exact (Beside.lineBack s e.2).trans (Still.lineOut ..).toBeside
    · exact Beside.refl ..
  · split
    · simp only [hd, Bool.false_eq_true, if_false]
      exact Still.lineOut ..
    · exact Still.refl ..

theorem Still.snoopBut (s : State) (own : Option (Nat × Nat)) (key : Option Nat) (line : Nat) (wr : Bool) :
    Still l s (s.snoopBut own key line wr) := by
  unfold State.snoopBut
  simpa only [decide_eq_true_eq, Bool.and_eq_true] using Still.foldl_linesOut (l := l) (fun q e =>
    decide (e.2.pa = 128 * line) && !(own == some (q.1, q.2.1) && (key == none || key == some e.1))) wr s

theorem Still.snoop (s : State) (own : Option (Nat × Nat)) (line : Nat) (wr : Bool) : Still l s (s.snoop own line wr) :=
  Still.snoopBut ..

theorem Still.copiesBack (s : State) (p isle : Nat → Bool) (drop : Bool) : Still l s (s.copiesBack p isle drop) :=
  Still.foldl_linesOut (fun q e => isle (isleOf q.1) && p e.2.pa) drop s

/-! ### The directory (R197 to R201) -/

theorem Still.regionBack (s : State) (r : Nat) (isle : Nat → Bool) (drop : Bool) : Still l s (s.regionBack r isle drop) :=
  Still.copiesBack ..

theorem Still.fine (s : State) (x : List Nat) : Still l s { s with fine := x } :=
  Still.of_fields rfl rfl rfl rfl rfl rfl rfl id

theorem Still.fineRoom (s : State) : Still l s s.fineRoom := by
  unfold State.fineRoom
  split
  · exact Still.refl ..
  · split
    · exact Still.refl ..
    · exact (((Still.regionBack s _ _ _).trans (Still.fine _ _)).trans (Still.setRegion ..)).trans (Still.count ..)

theorem Still.dirRequest (s : State) (i pa : Nat) (wr : Bool) : Still l s (s.dirRequest i pa wr) := by
  have tracked (r : Nat) (x : Region) : Still l s
      ({ ((s.regionBack r (fun _ => true) true).fineRoom) with
        fine := (s.regionBack r (fun _ => true) true).fineRoom.fine ++ [r] }.setRegion r x) :=
    (((Still.regionBack ..).trans (Still.fineRoom _)).trans (Still.fine ..)).trans (Still.setRegion ..)
  unfold State.dirRequest
  dsimp only
  split
  · exact ((Still.regionBack ..).trans (Still.fine ..)).trans (Still.setRegion ..)
  · split
    · split
      · exact Still.setRegion ..
      · split
        · exact Still.setRegion ..
        · split
          · exact tracked ..
          · exact (Still.regionBack ..).trans (Still.setRegion ..)
    · split
      · exact tracked ..
      · exact Still.setRegion ..
    · split
      · exact (Still.copiesBack ..).trans (Still.setRegion ..)
      · split
        · split
          · exact Still.setRegion ..
          · exact (Still.copiesBack ..).trans (Still.setRegion ..)
        · exact Still.setRegion ..

theorem Still.dirAccess (s : State) (i pa : Nat) (wr : Bool) : Still l s (s.dirAccess i pa wr) := by
  unfold State.dirAccess
  split
  · exact Still.dirRequest ..
  · exact Still.refl ..

theorem Still.dirAtomic (s : State) (i pa : Nat) : Still l s (s.dirAtomic i pa) := by
  unfold State.dirAtomic
  dsimp only
  split
  · split <;> split <;> exact Still.setRegion ..
  · exact (Still.dirAccess ..).trans (Still.setRegion ..)

/-! ### Translation (R207 to R212) -/

theorem Still.readPte (s : State) (pa since : Nat) : Still l s (s.readPte pa since).1 := by
  unfold State.readPte
  dsimp only
  split
  · exact Still.snoop ..
  · exact (Still.snoop ..).trans (Still.choose ..)

theorem Still.walk (s : State) (va since table level : Nat) : Still l s (s.walk va since table level).1 := by
  induction level generalizing s table with
  | zero =>
    unfold State.walk
    dsimp only
    split
    · exact Still.refl ..
    · split
      · exact Still.refl ..
      · have hr := Still.readPte (l := l) s (table + 8 * tableIdx 0 va) since
        split
        · exact hr
        · split
          · exact hr
          · split
            · exact hr
            · exact hr
  | succ n ih =>
    unfold State.walk
    dsimp only
    split
    · exact Still.refl ..
    · split
      · exact Still.refl ..
      · have hr := Still.readPte (l := l) s (table + 8 * tableIdx (n + 1) va) since
        split
        · exact hr
        · split
          · exact hr
          · split
            · exact hr
            · exact hr.trans (ih ..)

theorem Still.walkBegun (s : State) (ctx va : Nat) : Still l s (s.walkBegun ctx va) := by
  unfold State.walkBegun
  split
  · exact Still.count ..
  · exact Still.of_fields rfl rfl rfl rfl rfl rfl rfl id

theorem Still.tlbTouch (s : State) (core ctx va level : Nat) : Still l s (s.tlbTouch core ctx va level) := by
  unfold State.tlbTouch
  dsimp only
  split
  · exact Still.refl ..
  · have hc := Still.setCore (l := l) s core
      (x := { s.core core with tlb := (ctx, va / 2 ^ pageLog level, pageLog level) :: (s.core core).tlb }) rfl fun _ => rfl
    exact hc.trans (Still.walkBegun ..)

theorem Still.translate (s : State) (core ctx : Nat) (va : DWord) (wr : Bool) (n : Nat) :
    Still l s (s.translate core ctx va wr n).1 := by
  unfold State.translate
  split
  · exact Still.refl ..
  · have hw := Still.walk (l := l) s (vaBits va) (s.lastShot ctx (vaBits va)) (s.rootOf ctx) 4
    dsimp only
    split
    · exact hw
    · exact hw.trans (Still.walkBegun ..)
    · next e level _ _ =>
      have ht := hw.trans (Still.tlbTouch _ core ctx (vaBits va) level)
      split
      · exact ht
      · split
        · exact ht
        · split
          · exact ht
          · split
            · exact ht
            · exact ht

theorem Still.codeWord (s : State) (core pa since : Nat) : Still l s (s.codeWord core pa since).1 :=
  ((Still.snoop ..).trans (Still.dirAccess ..)).trans (Still.choose ..)

theorem Still.kword (s : State) (core : Nat) (b : Block) (i : Nat) : Still l s (s.kword core b i).1 := by
  have ht := Still.translate (l := l) s core b.ctx (b.kbank + BitVec.ofNat 64 (4 * (i % 16384))) false 4
  unfold State.kword
  dsimp only
  split
  · next hx => rw [hx] at ht; exact ht.trans (Still.codeWord ..)
  · next hx => rw [hx] at ht; exact ht
  · next hx => rw [hx] at ht; exact ht
  · next hx => rw [hx] at ht; exact ht

/-! ### L1s (R193, R194) -/

theorem Still.l1Drop (s : State) (core line : Nat) : Still False s (s.l1Drop core line) := by
  unfold State.l1Drop
  dsimp only
  split
  · exact Still.setCore s core rfl False.elim
  · exact Still.refl ..

theorem Still.l1Fill (s : State) (core line : Nat) (x : L1Line) : Still False s (s.l1Fill core line x) := by
  unfold State.l1Fill
  dsimp only
  refine Still.trans ?_ (Still.setCore _ core rfl False.elim)
  split
  · exact Still.refl ..
  · split
    · exact Still.refl ..
    · exact (Still.choose ..).trans (Still.l1Drop ..)

/-- A miss of a thread counts at no gang. -/
theorem Still.l1Miss (s : State) (core slot line : Nat) : Still l s (s.l1Miss core slot 16 line) := by
  unfold State.l1Miss
  split
  · refine Still.onBlock s core slot (fun _ => rfl) (fun x g hg => ?_) fun _ h => h
    simp only [Block.onGang, getElem?_modAt, if_neg (Nat.ne_of_lt hg)]
  · exact Still.refl ..

theorem Still.l1Flush (s : State) (core : Nat) : Still False s (s.l1Flush core) := Still.setCore s core rfl False.elim

theorem Still.acquireL1 (s : State) (core : Nat) (scope : BitVec 3) : Still False s (s.acquireL1 core scope) := by
  unfold State.acquireL1
  split
  · exact Still.l1Flush ..
  · exact Still.refl ..

theorem Still.pickLine (s : State) (w : Who) (line : Nat) (got : Nat × Version) (ks : List Nat) :
    Still l s (s.pickLine w line got ks).1 := by
  induction ks generalizing s with
  | nil => exact Still.refl ..
  | cons k r ih =>
    unfold State.pickLine
    dsimp only
    split
    · exact ih s
    · exact (Still.versionFor s w (4 * line + k)).trans (ih _)

/-! ### Reads (R95, R96, R193) -/

/-- The line is not in the L1, or its copy may not serve the read. -/
def State.l1Misses (s : State) (w : Who) (core pa : Nat) (useL1 : Bool) : Prop :=
  (if useL1 then (Tbl.get? (s.core core).l1 (pa / 128)).filter fun x => !s.copyOld w (pa / 32) (x.upto.getD (pa / 32 % 4) 0)
    else none) = none

/-- The state in which a read that the L1 does not serve is performed. -/
def State.readFrom (s : State) (core slot gang pa : Nat) (useL1 : Bool) : State :=
  let s := (s.snoop (ownBlock core slot gang) (pa / 128) false).dirAccess (isleOf core) pa false
  if useL1 then s.l1Miss core slot gang (pa / 128)
  else s.setCore core { s.core core with l1 := Tbl.erase (s.core core).l1 (pa / 128) }

/-- The read of a sector's version `v` by agent `w`, with the order it makes. -/
def State.readAs (s : State) (w : Who) (v : Version) (pa n : Nat) : State :=
  (s.observe w v.heads pa n).seeUpto [w] (pa / 32) v.upto

/-- The L1 filled after a read of version `v`, where the read fills it. -/
def State.filled (s : State) (w : Who) (v : Version) (core slot gang pa : Nat) (fill : Bool) : State :=
  let p := s.pickLine w (pa / 128) (pa / 32, v) [0, 1, 2, 3]
  if fill then p.1.l1Fill core (pa / 128) (lineFrom p.2 slot gang) else s

theorem State.readSector_miss {s : State} {w : Who} {core pa : Nat} {useL1 : Bool} (h : s.l1Misses w core pa useL1)
    (slot gang n : Nat) (fill : Bool) :
    s.readSector w core slot gang pa n useL1 fill =
      let x := (s.readFrom core slot gang pa useL1).versionFor w (pa / 32)
      ((x.1.readAs w x.2 pa n).filled w x.2 core slot gang pa fill, (x.2.bytes.drop (pa % 32)).take n, x.2.stamp, x.2.bad) := by
  unfold State.l1Misses at h
  simp only [State.readSector, h]
  cases fill <;> rfl

theorem Still.readFrom (s : State) (core slot pa : Nat) (useL1 : Bool) : Still False s (s.readFrom core slot 16 pa useL1) := by
  have hd : Still False s ((s.snoop (ownBlock core slot 16) (pa / 128) false).dirAccess (isleOf core) pa false) :=
    (Still.snoop ..).trans (Still.dirAccess ..)
  unfold State.readFrom
  dsimp only
  split
  · exact hd.trans (Still.l1Miss ..)
  · exact hd.trans (Still.setCore _ core rfl False.elim)

theorem Still.readAs (s : State) (w : Who) (v : Version) (pa n : Nat) : Still l s (s.readAs w v pa n) :=
  (Still.observe ..).trans (Still.seeUpto ..)

theorem Still.filled (s : State) (w : Who) (v : Version) (core slot gang pa : Nat) (fill : Bool) :
    Still False s (s.filled w v core slot gang pa fill) := by
  unfold State.filled
  dsimp only
  split
  · exact (Still.pickLine ..).trans (Still.l1Fill ..)
  · exact Still.refl ..

theorem Still.readSector (s : State) (w : Who) (core slot pa n : Nat) (useL1 fill : Bool) :
    Still False s (s.readSector w core slot 16 pa n useL1 fill).1 := by
  by_cases h : s.l1Misses w core pa useL1
  · rw [State.readSector_miss h]
    exact (((Still.readFrom ..).trans (Still.versionFor ..)).trans (Still.readAs ..)).trans (Still.filled ..)
  · unfold State.l1Misses at h
    obtain ⟨x, hx⟩ := Option.ne_none_iff_exists'.1 h
    simp only [State.readSector, hx]
    exact (Still.observe ..).trans (Still.seeUpto ..)

/-- What a read of a thread does with the translation of its address. -/
theorem State.globalRead_eq (s : State) (w : Who) (core slot gang ctx : Nat) (va : DWord) (n : Nat) (useL1 fill : Bool) :
    s.globalRead w core slot gang ctx va n false useL1 fill =
      match s.translate core ctx va false n with
      | (s, .ok pa) =>
        let r := s.readSector w core slot gang pa n useL1 fill
        (r.1, .ok ⟨r.2.1, r.2.2.1, r.2.2.2⟩)
      | (s, .fault d) => (s, .error (.fault d))
      | (s, .migrate) => (s, .error .migrate)
      | (s, .wait) => (s, .error .wait) := rfl

theorem Still.globalRead (s : State) (w : Who) (core slot ctx : Nat) (va : DWord) (n : Nat) (useL1 fill : Bool) :
    Still False s (s.globalRead w core slot 16 ctx va n false useL1 fill).1 := by
  have ht := Still.translate (l := False) s core ctx va false n
  rw [State.globalRead_eq]
  split
  · next hx => rw [hx] at ht; exact ht.trans (Still.readSector ..)
  · next hx => rw [hx] at ht; exact ht
  · next hx => rw [hx] at ht; exact ht
  · next hx => rw [hx] at ht; exact ht

/-- An access whose reads acquire changes what they change and the order of events. -/
theorem Beside.acquiring {α : Type} (s : State) (ws : List Who) (acq : Option (BitVec 3)) {f : State → State × α}
    (hf : ∀ t, Beside l t (f t).1) : Beside l s (s.acquiring ws acq f).1 := by
  have h0 : Beside l s { s with tails := [] } := Beside.of_fields rfl rfl rfl rfl rfl rfl
  have hs (t : State) (sc : BitVec 3) (x : List (Who × Release)) : Beside l t { t.sync ws (fun _ => true) sc with tails := x } :=
    (Still.sync t ws _ sc).toBeside.trans (Beside.of_fields rfl rfl rfl rfl rfl rfl)
  cases acq with
  | none => exact (h0.trans (hf _)).trans (Beside.of_fields rfl rfl rfl rfl rfl rfl)
  | some sc => exact (h0.trans (hf _)).trans (hs _ sc _)

end

end Machine

end Sys2Proof
end

section
/-! A translation looks at no release observed (R228): with other ones in `tails` it gives the same, and leaves them. -/

namespace Sys2Proof.Machine

/-- The machine with other releases observed. -/
def State.withTails (s : State) (l : List (Who × Release)) : State := { s with tails := l }

section
variable (s : State) (l : List (Who × Release))

theorem State.setCore_withTails (c : Nat) (x : Core) : (s.withTails l).setCore c x = (s.setCore c x).withTails l := rfl

theorem State.onBlock_withTails (c sl : Nat) (f : Block → Block) :
    (s.withTails l).onBlock c sl f = (s.onBlock c sl f).withTails l := by
  have hb : (s.withTails l).block? c sl = s.block? c sl := rfl
  unfold State.onBlock
  rw [hb]
  split <;> rfl

theorem State.choose_withTails {α : Type} (cur : α) (olds : List α) :
    (s.withTails l).choose cur olds = ((s.choose cur olds).1.withTails l, (s.choose cur olds).2) := by
  induction olds generalizing s cur with
  | nil => rfl
  | cons o r ih => exact ih { s with fresh := s.fresh + 1 } _

theorem State.foldl_withTails {α : Type} {f : State → α → State} (hf : ∀ s a, f (s.withTails l) a = (f s a).withTails l)
    (as : List α) : as.foldl f (s.withTails l) = (as.foldl f s).withTails l := by
  induction as generalizing s with
  | nil => rfl
  | cons a r ih => rw [List.foldl_cons, hf, ih]; rfl

theorem State.homeSet_withTails (sec : Nat) (data : List Byte) (st : Stamp) (bad : Bool) :
    (s.withTails l).homeSet sec data st bad = (s.homeSet sec data st bad).withTails l := by
  have ho : (s.withTails l).offline (32 * sec) = s.offline (32 * sec) := rfl
  unfold State.homeSet
  rw [ho]
  split <;> rfl

theorem State.homeLine_withTails (x : StashLine) : (s.withTails l).homeLine x = (s.homeLine x).withTails l := by
  refine State.foldl_withTails s l (fun s k => ?_) _
  have hr : (s.withTails l).memReady (32 * (x.pa / 32 + k)) = s.memReady (32 * (x.pa / 32 + k)) := rfl
  dsimp only
  rw [hr]
  split
  · exact State.homeSet_withTails ..
  · rfl

theorem State.snoopBut_withTails (own : Option (Nat × Nat)) (key : Option Nat) (line : Nat) (wr : Bool) :
    (s.withTails l).snoopBut own key line wr = (s.snoopBut own key line wr).withTails l := by
  refine (State.foldl_withTails s l (fun s p => ?_) s.blocks :)
  refine State.foldl_withTails s l (fun s e => ?_) _
  split
  · cases e.2.dirty with
    | true =>
      simp only [if_true]
      rw [State.homeLine_withTails, State.onBlock_withTails]
    | false => exact State.onBlock_withTails ..
  · rfl

/-- What a step answers, with other releases observed in the state it leaves. -/
def keepTails {α : Type} (l : List (Who × Release)) (r : State × α) : State × α := (r.1.withTails l, r.2)

theorem State.readPte_withTails (pa since : Nat) : (s.withTails l).readPte pa since = keepTails l (s.readPte pa since) := by
  have hs : (s.withTails l).snoop none (pa / 128) false = (s.snoop none (pa / 128) false).withTails l :=
    State.snoopBut_withTails ..
  unfold State.readPte
  rw [hs]
  generalize s.snoop none (pa / 128) false = t
  have hb : (t.withTails l).homeBad (pa / 32) = t.homeBad (pa / 32) := rfl
  dsimp only
  rw [hb]
  split
  · rfl
  · exact congrArg (fun x : State × List Word => (x.1, some ((x.2.getD 1 0) ++ (x.2.getD 0 0))))
      (State.choose_withTails t l [t.memWord (pa / 4), t.memWord (pa / 4 + 1)] (t.oldWords (pa / 4) 2 since))

theorem State.walk_withTails (va since table level : Nat) :
    (s.withTails l).walk va since table level = keepTails l (s.walk va since table level) := by
  induction level generalizing s table with
  | zero =>
    unfold State.walk
    dsimp only
    have hr : (s.withTails l).memReady (table + 8 * tableIdx 0 va) = s.memReady (table + 8 * tableIdx 0 va) := rfl
    rw [hr, State.readPte_withTails]
    rcases s.readPte (table + 8 * tableIdx 0 va) since with ⟨t, _ | e⟩
    · split
      · rfl
      · split <;> rfl
    · split
      · rfl
      · split
        · rfl
        · dsimp only [keepTails]
          cases pteFault 0 e with
          | some d => rfl
          | none => dsimp only; split <;> rfl
  | succ n ih =>
    unfold State.walk
    dsimp only
    have hr : (s.withTails l).memReady (table + 8 * tableIdx (n + 1) va) = s.memReady (table + 8 * tableIdx (n + 1) va) := rfl
    rw [hr, State.readPte_withTails]
    rcases s.readPte (table + 8 * tableIdx (n + 1) va) since with ⟨t, _ | e⟩
    · split
      · rfl
      · split <;> rfl
    · split
      · rfl
      · split
        · rfl
        · dsimp only [keepTails]
          cases pteFault (n + 1) e with
          | some d => rfl
          | none =>
            dsimp only
            split
            · rfl
            · exact ih t (pteAddr e)

theorem State.walkBegun_withTails (ctx va : Nat) : (s.withTails l).walkBegun ctx va = (s.walkBegun ctx va).withTails l := by
  have hw : (s.withTails l).walks = s.walks := rfl
  unfold State.walkBegun
  rw [hw]
  split <;> rfl

theorem State.tlbTouch_withTails (core ctx va level : Nat) :
    (s.withTails l).tlbTouch core ctx va level = (s.tlbTouch core ctx va level).withTails l := by
  have hc : (s.withTails l).core core = s.core core := rfl
  unfold State.tlbTouch
  dsimp only
  rw [hc]
  split
  · rfl
  · rw [State.setCore_withTails, State.walkBegun_withTails]

theorem State.translate_withTails (core ctx : Nat) (va : DWord) (wr : Bool) (n : Nat) :
    (s.withTails l).translate core ctx va wr n = keepTails l (s.translate core ctx va wr n) := by
  have hl : (s.withTails l).lastShot ctx (vaBits va) = s.lastShot ctx (vaBits va) := rfl
  have hr : (s.withTails l).rootOf ctx = s.rootOf ctx := rfl
  unfold State.translate
  split
  · rfl
  · dsimp only
    rw [hl, hr, State.walk_withTails]
    generalize s.walk (vaBits va) (s.lastShot ctx (vaBits va)) (s.rootOf ctx) 4 = x
    obtain ⟨t, w⟩ := x
    cases w with
    | fault d => exact congrArg (fun x => (x, Trans.fault d)) (State.walkBegun_withTails ..)
    | wait => rfl
    | leaf e level pte =>
      simp only [keepTails, State.tlbTouch_withTails]
      generalize t.tlbTouch core ctx (vaBits va) level = u
      have hm (pa : Nat) : (u.withTails l).memReady pa = u.memReady pa := rfl
      rw [hm]
      split
      · rfl
      · split
        · rfl
        · split
          · rfl
          · split <;> rfl

end

end Sys2Proof.Machine
end

section
/-! Loads of a generator (R95, R96, R98, R99, R259): the address tests, what a read of a thread finds, and the bound checked. -/

namespace Sys2Proof.Machine

open Sys2Proof.Claims

/-! ### Bytes of a store -/

theorem Store.getElem?_bytesAt (m : Store) (a n k : Nat) : (m.bytesAt a n)[k]? = if k < n then some (m.byte (a + k)) else none := by
  induction n generalizing a k with
  | zero => rfl
  | succ n ih =>
    cases k with
    | zero => rfl
    | succ k => simp [Store.bytesAt, ih, Nat.add_assoc, Nat.add_comm 1 k]

/-- Bytes from within a longer read. -/
theorem Store.take_drop_bytesAt (m : Store) (a n i j : Nat) (h : i + j ≤ n) :
    ((m.bytesAt a n).drop i).take j = m.bytesAt (a + i) j := by
  refine List.ext_getElem? fun k => ?_
  simp only [List.getElem?_take, List.getElem?_drop, Store.getElem?_bytesAt]
  split
  · rw [if_pos (by omega), Nat.add_assoc]
  · rfl

/-! ### The address tests (R95) -/

/-- R165: the canonical form, as the bits of the address and as its number. -/
theorem canonical_iff (va : DWord) : canonical va = true ↔ canon va := by
  have hx : (va.extractLsb' 56 8).toNat = va.toNat / 2 ^ 56 := by
    rw [BitVec.extractLsb'_toNat, Nat.shiftRight_eq_div_pow]
    exact Nat.mod_eq_of_lt (by omega)
  have h0 : va.extractLsb' 56 8 = 0 ↔ va.toNat / 2 ^ 56 = 0 := by rw [← hx, BitVec.toNat_eq]; rfl
  have h1 : va.extractLsb' 56 8 = 0xFF ↔ va.toNat / 2 ^ 56 = 255 := by rw [← hx, BitVec.toNat_eq]; rfl
  simp only [canonical, Bool.or_eq_true, beq_iff_eq, h0, h1, canon]
  omega

section
variable {e : GEnv} {ea : DWord} {n : Nat}

theorem GEnv.addrTest_notCanon (h : ¬canon ea) : e.addrTest ea n = some (.fault e.s 0x22 0xC ea) := by
  have hc : canonical ea = false := by simpa [← canonical_iff] using h
  simp [GEnv.addrTest, hc]

theorem GEnv.addrTest_misaligned (h : canon ea) (ha : ea.toNat % n ≠ 0) : e.addrTest ea n = some (.fault e.s 0x20 0 ea) := by
  have hc : canonical ea = true := (canonical_iff ea).2 h
  simp [GEnv.addrTest, hc, ha]

theorem GEnv.addrTest_none (h : canon ea) (ha : ea.toNat % n = 0) : e.addrTest ea n = none := by
  have hc : canonical ea = true := (canonical_iff ea).2 h
  simp [GEnv.addrTest, hc, ha]

end

/-! ### The meaning of a load -/

section
variable {s : State} {core slot : Nat} {b : Block}

/-- R96, R98: the loads, as their shared meaning says them. -/
theorem exec_genLoad {i : Instr} {d : BitVec 5} {ea : DWord} {n : Nat} {acq : Option (BitVec 3)} {bnd : BitVec 4}
    (hi : GenAccess b false i d ea n acq bnd) (s : State) (core slot : Nat) : ∃ body, exec i s = gen s body ∧
      body (s.genEnv core slot b) = (s.genEnv core slot b).load d ea n acq bnd := by
  cases hi with
  | gld o => exact ⟨fun e => e.load o.d ((e.reg o.a).val + (e.reg o.b).val) (2 ^ o.size.toNat)
      (if o.ord.getLsbD 0 then some o.scope else none) o.bnd, rfl, rfl⟩
  | gldi o => exact ⟨fun e => e.load o.d ((e.reg o.a).val + sext64 o.i) 8 none 0, rfl, rfl⟩

/-- An acquire at QUAD scope or wider reads past the L1 (R194). -/
def wideAcq (acq : Option (BitVec 3)) : Bool := acq.any fun sc => 3 ≤ sc.toNat

/-- The register takes what was read, in the state after the acquire's work on the L1. -/
def GEnv.take (e : GEnv) (d : BitVec 5) (wide : Bool) (t : State) (g : Got) : GRes :=
  e.put (if wide then t.l1Flush e.core else t) d ⟨BitVec.ofNat 64 (leVal g.bytes), g.stamp⟩

/-- What a load makes of its read. -/
def GEnv.loaded (e : GEnv) (d : BitVec 5) (ea : DWord) (wide : Bool) (bnd : BitVec 4) (t : State) (r : Except Stop Got) : GRes :=
  match r with
  | .error x => x.gres t ea
  | .ok g =>
    if g.bad then .fault t 0x23 0 ea
    else if t.boundFails e.ctx bnd.toNat g.stamp then e.stale t bnd.toNat ea (e.take d wide t g) else e.take d wide t g

/-- An address that fails a test ends the load. -/
theorem GEnv.load_of_test {e : GEnv} {ea : DWord} {n : Nat} {r : GRes} (h : e.addrTest ea n = some r) (d : BitVec 5)
    (acq : Option (BitVec 3)) (bnd : BitVec 4) : e.load d ea n acq bnd = r := by
  unfold GEnv.load
  rw [h]

/-- R96: a load whose address passes the tests. -/
theorem GEnv.load_eq {e : GEnv} {ea : DWord} {n : Nat} (h : canon ea) (ha : ea.toNat % n = 0) (d : BitVec 5)
    (acq : Option (BitVec 3)) (bnd : BitVec 4) :
    e.load d ea n acq bnd =
      let A := threadRead e.s e.core e.slot e.ctx ea n acq (!wideAcq acq)
      e.loaded d ea (wideAcq acq) bnd A.1 A.2 := by
  unfold GEnv.load
  rw [GEnv.addrTest_none h ha]
  have read (A : State × Except Stop Got) : (match A with
    | (t, .error x) => x.gres t ea
    | (t, .ok g) =>
      if g.bad then .fault t 0x23 0 ea
      else if t.boundFails e.ctx bnd.toNat g.stamp then e.stale t bnd.toNat ea (e.take d (wideAcq acq) t g)
      else e.take d (wideAcq acq) t g) = e.loaded d ea (wideAcq acq) bnd A.1 A.2 := by
    rcases A with ⟨t, _ | g⟩ <;> rfl
  rw [← read]
  cases acq <;> rfl

/-! ### The read (R96, R193, R228) -/

theorem State.acquiring_snd {α : Type} (s : State) (ws : List Who) (acq : Option (BitVec 3)) (f : State → State × α) :
    (s.acquiring ws acq f).2 = (f (s.withTails [])).2 := by cases acq <;> rfl

theorem State.acquiring_mem {α : Type} (s : State) (ws : List Who) (acq : Option (BitVec 3)) (f : State → State × α) :
    (s.acquiring ws acq f).1.mem = (f (s.withTails [])).1.mem := by
  cases acq with
  | none => rfl
  | some sc =>
    show ((f (s.withTails [])).1.sync ws (fun _ => true) sc).mem = _
    rw [State.sync_frame]

theorem Beside.threadRead (s : State) (core slot ctx : Nat) (ea : DWord) (n : Nat) (acq : Option (BitVec 3)) (l1 : Bool) :
    Beside False s (threadRead s core slot ctx ea n acq l1).1 :=
  Beside.acquiring s _ acq fun t => (Still.globalRead t _ core slot ctx ea n l1 l1).toBeside

/-- A read that the L1 does not serve, with no write to be missed and no stash line dirty, finds what the home holds (R193, R231). -/
theorem State.readSector_quiet {s : State} {core pa n : Nat} {useL1 : Bool} (hq : quiet s)
    (hl : useL1 = true → Tbl.get? (s.core core).l1 (pa / 128) = none) (hn : pa % 32 + n ≤ 32) (w : Who) (slot : Nat)
    (fill : Bool) : (s.readSector w core slot 16 pa n useL1 fill).2 =
      (s.mem.bytesAt pa n, s.mem.stamp (pa / 32), s.homeBad (pa / 32)) := by
  have hm : s.l1Misses w core pa useL1 := by
    unfold State.l1Misses
    cases useL1 with
    | false => rfl
    | true => rw [hl rfl]; rfl
  have hf := Still.readFrom s core slot pa useL1
  have hv := State.versionFor_current (s.readFrom core slot 16 pa useL1) w (pa / 32)
    fun o ho => absurd (hf.quiet hq).1 (List.ne_nil_of_mem ho)
  rw [State.readSector_miss hm]
  dsimp only
  rw [hv]
  simp only [State.current, hf.mem hq.2, hf.offline, State.homeBad]
  rw [Store.take_drop_bytesAt _ _ _ _ _ hn, Nat.div_add_mod]

/-- What a thread's read answers, and the memory it leaves, are those of its access to global memory. -/
theorem threadRead_of {s u : State} {core slot ctx n : Nat} {ea : DWord} {l1 : Bool} {r : Except Stop Got}
    (acq : Option (BitVec 3))
    (hg : (s.withTails []).globalRead (.thread core slot) core slot 16 ctx ea n false l1 l1 = (u, r)) :
    ∃ t, threadRead s core slot ctx ea n acq l1 = (t, r) ∧ t.mem = u.mem := by
  have hr := State.acquiring_snd s [.thread core slot] acq fun t => t.globalRead (.thread core slot) core slot 16 ctx ea n false l1 l1
  have hm := State.acquiring_mem s [.thread core slot] acq fun t => t.globalRead (.thread core slot) core slot 16 ctx ea n false l1 l1
  rw [hg] at hr hm
  exact ⟨_, Prod.ext rfl hr, hm⟩

/-- What the translation stops, the read does not perform. -/
theorem threadRead_stopped {s s1 : State} {core slot ctx n : Nat} {ea : DWord} {x : Trans} {y : Stop} (acq : Option (BitVec 3))
    (l1 : Bool) (hs : s.translate core ctx ea false n = (s1, x)) (hx : (x = .migrate ∧ y = .migrate) ∨ ∃ d, x = .fault d ∧ y = .fault d) :
    ∃ t, threadRead s core slot ctx ea n acq l1 = (t, .error y) ∧ t.mem = s1.mem := by
  have hg : (s.withTails []).globalRead (.thread core slot) core slot 16 ctx ea n false l1 l1 = (s1.withTails [], .error y) := by
    rw [State.globalRead_eq, State.translate_withTails, hs]
    rcases hx with ⟨rfl, rfl⟩ | ⟨d, rfl, rfl⟩ <;> rfl
  obtain ⟨t, ht, hm⟩ := threadRead_of acq hg
  exact ⟨t, ht, hm⟩

/-- R96: a load of the home, read past the L1 or missing it. -/
theorem threadRead_quiet {s s1 : State} {core ctx n pa : Nat} {ea : DWord} {l1 : Bool} (slot : Nat) (acq : Option (BitVec 3))
    (hs : s.translate core ctx ea false n = (s1, .ok pa)) (hq : quiet s) (hn : pa % 32 + n ≤ 32)
    (hl : l1 = true → Tbl.get? (s1.core core).l1 (pa / 128) = none) :
    ∃ t g, threadRead s core slot ctx ea n acq l1 = (t, .ok g) ∧ t.mem = s.mem ∧ g.bytes = s.mem.bytesAt pa n ∧
      g.stamp = s.mem.stamp (pa / 32) ∧ g.bad = s.homeBad (pa / 32) := by
  have ht : Still True s s1 := by
    have := Still.translate (l := True) s core ctx ea false n
    rwa [hs] at this
  have hz : Still True s (s1.withTails []) := ht.trans (Still.of_fields rfl rfl rfl rfl rfl rfl rfl id)
  have hr := State.readSector_quiet (hz.quiet hq) (core := core) (pa := pa) (useL1 := l1)
    hl hn (.thread core slot) slot l1
  have hk := hz.weaken.trans (Still.readSector (s1.withTails []) (.thread core slot) core slot pa n l1 l1)
  have hg : (s.withTails []).globalRead (.thread core slot) core slot 16 ctx ea n false l1 l1 =
      (((s1.withTails []).readSector (.thread core slot) core slot 16 pa n l1 l1).1,
        .ok ⟨s.mem.bytesAt pa n, s.mem.stamp (pa / 32), s.homeBad (pa / 32)⟩) := by
    rw [State.globalRead_eq, State.translate_withTails, hs]
    simp only [keepTails, hr, hz.mem hq.2, State.homeBad, hz.offline]
  obtain ⟨t, ht, hm⟩ := threadRead_of acq hg
  exact ⟨t, _, ht, hm.trans (hk.mem hq.2), rfl, rfl, rfl⟩

/-! ### The bound (R99, R252, R259) -/

/-- A failing check leaves what the bound asks for. -/
theorem State.boundAct_boundHit (s : State) (ctx n k : Nat) :
    ((s.boundHit ctx n).ctx ctx).boundAct k = (s.ctx ctx).boundAct k := by
  rw [State.boundHit, State.ctx_setCtx_same]
  rfl

theorem State.hasThread_boundHit {t : State} (ht : t.hasThread core slot b) (ctx n : Nat) :
    (t.boundHit ctx n).hasThread core slot b := ht

/-- The state in which a load's register takes what was read. -/
def takenIn (core : Nat) (wide : Bool) (t : State) : State := if wide then t.l1Flush core else t

theorem Still.takenIn (core : Nat) (wide : Bool) (t : State) : Still False t (takenIn core wide t) := by
  unfold Machine.takenIn
  split
  · exact Still.l1Flush ..
  · exact Still.refl ..

theorem takenIn_mem (core : Nat) (wide : Bool) (t : State) : (takenIn core wide t).mem = t.mem := by
  cases wide <;> rfl

theorem State.onThread_withCtxs (t : State) (x : Tbl Ctx) (f : Thread → Thread) :
    ({ t with ctxs := x } : State).onThread core slot f = { t.onThread core slot f with ctxs := x } := by
  have hb : ({ t with ctxs := x } : State).block? core slot = t.block? core slot := rfl
  unfold State.onThread State.onBlock
  rw [hb]
  split <;> rfl

/-- R252: a load that goes on under MARK: the failure counted, the register written. -/
theorem stale_mark {e : GEnv} {d : BitVec 5} {wide : Bool} {t : State} {n : Nat} {ea : DWord} {g : Got}
    (hm : (t.ctx e.ctx).boundAct n = .mark) :
    e.stale t n ea (e.take d wide t g) =
      e.put ((takenIn e.core wide t).boundHit e.ctx n) d ⟨BitVec.ofNat 64 (leVal g.bytes), g.stamp⟩ := by
  have ha := (State.boundAct_boundHit t e.ctx n n).trans hm
  have hx : (takenIn e.core wide t).ctxs = t.ctxs := by cases wide <;> rfl
  have hc : (takenIn e.core wide t).boundHit e.ctx n = { takenIn e.core wide t with ctxs := (t.boundHit e.ctx n).ctxs } := by
    simp only [State.boundHit, State.setCtx, State.ctx, hx]
  unfold GEnv.stale
  dsimp only
  rw [ha, hc]
  exact congrArg GRes.done (State.onThread_withCtxs ..).symm

theorem stale_trap {e : GEnv} {t : State} {n : Nat} {ea : DWord} {good : GRes} (hm : (t.ctx e.ctx).boundAct n = .trap) :
    e.stale t n ea good = .fault (t.boundHit e.ctx n) 0x30 n ea := by
  have ha := (State.boundAct_boundHit t e.ctx n n).trans hm
  unfold GEnv.stale
  dsimp only
  rw [ha]
  simp [freshDetail]

/-- R259: what a load under REFIRE makes of the answer. -/
def GEnv.refired (e : GEnv) (n : Nat) (ea : DWord) (t : State) (r : Refire) : GRes :=
  match r with
  | .wait => .wait { t with ctxs := e.s.ctxs } .base
  | .escalate x => .fault t 0x30 (freshDetail x false n) ea
  | .on node => .wait (t.onThread e.core e.slot fun t => { t with refires := t.refires + 1 }) (.refire node)

theorem stale_refire {e : GEnv} {t : State} {n : Nat} {ea : DWord} {good : GRes} (hm : (t.ctx e.ctx).boundAct n = .refire) :
    e.stale t n ea good =
      let v := t.boundHit e.ctx n
      let R := v.refire e.ctx ea e.th.refires (v.prioOf e.b.node)
      e.refired n ea R.1 R.2 := by
  have ha := (State.boundAct_boundHit t e.ctx n n).trans hm
  unfold GEnv.stale
  dsimp only
  rw [ha]
  dsimp only
  generalize (t.boundHit e.ctx n).refire e.ctx ea e.th.refires ((t.boundHit e.ctx n).prioOf e.b.node) = R
  obtain ⟨u, r⟩ := R
  cases r <;> rfl

/-- R259: a load under REFIRE waits, faults, or waits for its producer to run again. -/
theorem gen_refired {t : State} {body : GEnv → GRes} {n : Nat} {ea : DWord} {r : Refire} (h : s.thread? = some (core, slot, b))
    (hb : body (s.genEnv core slot b) = (s.genEnv core slot b).refired n ea t r) :
    (r = .wait → waits { t with ctxs := s.ctxs } core slot .base (gen s body)) ∧
    (∀ x, r = .escalate x → traps t core slot 0x30 (32 * x + n) ea (gen s body)) ∧
    (∀ x, r = .on x → gen s body = .next (t.onThread core slot fun y => { y with refires := y.refires + 1, wait := .refire x })) := by
  refine ⟨fun hr => ?_, fun x hr => ?_, fun x hr => ?_⟩ <;> subst hr
  · exact gen_waits h hb
  · have hd : freshDetail x false n = 32 * x + n := by simp [freshDetail, Nat.mul_comm]
    rw [← hd]
    exact gen_traps h hb
  · exact Eq.trans (gen_waits h hb) (congrArg _ (State.onThread_onThread t core slot _ _))

/-- Settles O32: the load is `GEnv.loaded` of what `threadRead` answers (`GEnv.load_eq`). -/
theorem generatorLoadsRead : Obligations.GeneratorLoadsRead := by
  unfold Obligations.GeneratorLoadsRead
  intro s core slot b h i d ea n acq bnd hi
  obtain ⟨body, he, hbody⟩ := exec_genLoad hi s core slot
  rw [he]
  refine ⟨fun hc => ?notCanon, fun hc ha => ?misaligned, fun hc ha => ?_⟩
  case notCanon => exact gen_traps h (hbody.trans (GEnv.load_of_test (GEnv.addrTest_notCanon hc) ..))
  case misaligned => exact gen_traps h (hbody.trans (GEnv.load_of_test (GEnv.addrTest_misaligned hc ha) ..))
  rw [GEnv.load_eq (e := s.genEnv core slot b) hc ha] at hbody
  intro l1 A
  have hA (t : State) (r : Except Stop Got) (hr : A = (t, r)) :
      body (s.genEnv core slot b) = (s.genEnv core slot b).loaded d ea (wideAcq acq) bnd t r := by
    have hf := congrArg Prod.fst hr
    have hs := congrArg Prod.snd hr
    rw [hbody]
    exact congrArg₂ (fun t r => (s.genEnv core slot b).loaded d ea (wideAcq acq) bnd t r) hf hs
  refine ⟨fun t x hx => gen_traps h (hA _ _ hx), fun t hx => gen_waits h (hA _ _ hx), fun t hx => gen_waits h (hA _ _ hx),
    fun t g hx => ?read, fun s1 x hx => ?fault, fun s1 hx => ?migrate, fun s1 pa hx hq hn hl => ?value⟩
  case fault => exact threadRead_stopped acq l1 hx (.inr ⟨x, rfl, rfl⟩)
  case migrate => exact threadRead_stopped acq l1 hx (.inl ⟨rfl, rfl⟩)
  case value => exact threadRead_quiet slot acq hx hq hn hl
  case read =>
    have hbes : Beside False s t := by
      have := Beside.threadRead s core slot b.ctx ea n acq l1
      rwa [show threadRead s core slot b.ctx ea n acq l1 = (t, .ok g) from hx] at this
    refine ⟨hbes.toElsewhere, fun hb => gen_traps h ((hA _ _ hx).trans (if_pos hb)), fun hb => ?_⟩
    have hread := (hA _ _ hx).trans (if_neg (by rw [hb]; exact Bool.false_ne_true))
    intro good
    have hu := hbes.trans (Still.takenIn core (wideAcq acq) t).toBeside
    refine ⟨fun hf => ⟨takenIn core (wideAcq acq) t, hu.toElsewhere, takenIn_mem .., ?_⟩, fun hf => ?_⟩
    · refine gen_gives h (hu.hasThread (State.hasThread_of_thread? h)) (hread.trans (if_neg ?_))
      rw [hbes.boundFails]
      exact ne_true_of_eq_false hf
    intro v
    have hstale := hread.trans (if_pos ((hbes.boundFails ..).trans hf))
    have act {x : BoundAct} (hx : (s.ctx b.ctx).boundAct bnd.toNat = x) : (t.ctx b.ctx).boundAct bnd.toNat = x := by
      rw [hbes.ctx, hx]
    refine ⟨fun hm => gen_traps h (hstale.trans (stale_trap (act hm))), fun hm => ?mark, fun hm => ?refire⟩
    case mark =>
      refine ⟨takenIn core (wideAcq acq) t, hu.toElsewhere, takenIn_mem .., gen_gives h ?_ (hstale.trans (stale_mark (act hm)))⟩
      exact State.hasThread_boundHit (hu.hasThread (State.hasThread_of_thread? h)) ..
    case refire => exact gen_refired h (hstale.trans (stale_refire (act hm)))

end

end Sys2Proof.Machine
end

section
/-! Stores and atomics of a generator (R95 to R99, R233): the write performed at its home, and what of memory it leaves. -/

namespace Sys2Proof.Machine

open Sys2Proof.Claims

/-! ### Bytes laid at consecutive addresses -/

@[simp] theorem length_leBytes (x n : Nat) : (leBytes x n).length = n := by
  induction n generalizing x with
  | zero => rfl
  | succ n ih => simp [leBytes, ih]

theorem getElem?_leBytes (x n k : Nat) : (leBytes x n)[k]? = if k < n then some (BitVec.ofNat 8 (x / 256 ^ k)) else none := by
  induction n generalizing x k with
  | zero => rfl
  | succ n ih =>
    cases k with
    | zero => simp [leBytes]
    | succ k => simp [leBytes, ih, Nat.div_div_eq_div_mul, Nat.pow_succ, Nat.mul_comm]

/-- R4: the number that its low bytes give. -/
theorem leVal_leBytes (x n : Nat) : leVal (leBytes x n) = x % 2 ^ (8 * n) := by
  induction n generalizing x with
  | zero => simp [leBytes, leVal, Nat.mod_one]
  | succ n ih =>
    have hp : 2 ^ (8 * (n + 1)) = 256 * 2 ^ (8 * n) := by rw [Nat.mul_add, Nat.pow_add, Nat.mul_comm]
    rw [leBytes, leVal, ih, hp, Nat.mod_mul, BitVec.toNat_ofNat]

theorem mem_atAddr {a : Nat} {l : List Byte} {p : Nat × Byte} (h : p ∈ atAddr a l) : a ≤ p.1 ∧ p.1 < a + l.length := by
  induction l generalizing a with
  | nil => exact absurd h List.not_mem_nil
  | cons b r ih =>
    rw [List.length_cons]
    rcases List.mem_cons.1 h with rfl | h
    · exact ⟨le_rfl, by omega⟩
    · have := ih h
      omega

theorem Store.writes_atAddr (m : Store) (a : Nat) (l : List Byte) : m.writes (atAddr a l) = m.setBytes a l := by
  induction l generalizing m a with
  | nil => rfl
  | cons b r ih => exact ih _ _

theorem Store.byte_setBytes_in {m : Store} (h : m.wf = true) (a k : Nat) (l : List Byte) {x : Byte} (hk : l[k]? = some x) :
    (m.setBytes a l).byte (a + k) = x := by
  induction l generalizing m a k with
  | nil => simp at hk
  | cons b r ih =>
    cases k with
    | zero =>
      rw [Store.setBytes, Store.byte_setBytes_out _ _ _ _ (.inl (by omega))]
      exact (Store.byte_setByte_same a b h).trans (by simpa using hk)
    | succ k =>
      rw [show a + (k + 1) = a + 1 + k by omega]
      exact ih (Store.wf_setByte a b h) (a + 1) k (by simpa using hk)

/-- Fewer bytes than a sector has do not cover one. -/
theorem coversSector_atAddr (a i : Nat) {l : List Byte} (h : l.length < 32) : coversSector (atAddr a l) i = false := by
  by_contra hc
  rw [Bool.not_eq_false, coversSector, List.all_eq_true] at hc
  have byte (k : Nat) (hk : k < 32) : a ≤ 32 * i + k ∧ 32 * i + k < a + l.length := by
    obtain ⟨p, hp, he⟩ := List.any_eq_true.1 (hc k (List.mem_range.2 hk))
    have := mem_atAddr hp
    rwa [beq_iff_eq.1 he] at this
  have := byte 0 (by omega)
  have := byte 31 (by omega)
  omega

/-! ### A write of fewer bytes than a sector has, performed -/

section
variable {m : Store} {now : Stamp} {i a : Nat} {l : List Byte} {r : StampRule}

/-- R184: the bytes written, then the stamp. -/
theorem Store.putSector_part (hb : m.bad i = false) (hl : l.length < 32) : m.putSector now i (atAddr a l) r =
    ((m.setBytes a l).setStamp i (r.apply now (m.stamp i) false)).setBad i false := by
  simp [Store.putSector, hb, coversSector_atAddr a i hl, Store.writes_atAddr]

theorem Store.byte_putSector_part_out (x : Nat) (h : x < a ∨ a + l.length ≤ x) :
    (m.putSector now i (atAddr a l) r).byte x = m.byte x :=
  Store.byte_putSector_out _ _ _ _ _ _ fun e he hx => by have := mem_atAddr he; omega

theorem Store.byte_putSector_part_in (hw : m.wf = true) (hb : m.bad i = false) (hl : l.length < 32) {k : Nat} {x : Byte}
    (hk : l[k]? = some x) : (m.putSector now i (atAddr a l) r).byte (a + k) = x := by
  rw [Store.putSector_part hb hl, Store.byte_setBad, Store.byte_setStamp]
  exact Store.byte_setBytes_in hw a k l hk

theorem Store.stamp_putSector_part (hw : m.wf = true) (hb : m.bad i = false) (hl : l.length < 32) :
    (m.putSector now i (atAddr a l) r).stamp i = r.apply now (m.stamp i) false := by
  rw [Store.putSector_part hb hl, Store.stamp_setBad, Store.stamp_setStamp _ _ _ (Store.wf_setBytes a l hw), if_pos rfl]

theorem Store.bytesAt_putSector_part (hw : m.wf = true) (hb : m.bad i = false) (hl : l.length < 32) :
    (m.putSector now i (atAddr a l) r).bytesAt a l.length = l := by
  refine List.ext_getElem? fun k => ?_
  rw [Store.getElem?_bytesAt]
  split
  · next hk =>
    rw [List.getElem?_eq_getElem hk]
    exact congrArg some (Store.byte_putSector_part_in hw hb hl (List.getElem?_eq_getElem hk))
  · next hk => exact (List.getElem?_eq_none (by omega)).symm

end

/-! ### The home, the L1, and the write of an agent (R184, R194, R217, R219, R231) -/

section
variable {l : Prop}

theorem Beside.homePut (s : State) (now : Stamp) (sec : Nat) (w : List (Nat × Byte)) (r : StampRule) :
    Beside l s (s.homePut now sec w r) := by
  unfold State.homePut
  split
  · exact (Still.count ..).toBeside
  · split
    · exact (Still.count ..).toBeside
    · exact Beside.of_fields rfl rfl rfl rfl rfl rfl

theorem Beside.homeWrite (s : State) (ws : List Who) (rels : List Release) (rmw : Bool) (now : Stamp) (sec : Nat)
    (w : List (Nat × Byte)) (r : StampRule) : Beside l s (s.homeWrite ws rels rmw now sec w r) := by
  unfold State.homeWrite
  split
  · exact (Beside.homePut s now sec w r).trans (Beside.of_fields rfl rfl rfl rfl rfl rfl)
  · exact Beside.homePut ..

theorem State.homePut_mem (s : State) (now : Stamp) (sec : Nat) (w : List (Nat × Byte)) (r : StampRule) :
    (s.homePut now sec w r).mem = if s.lands sec w then s.mem.putSector now sec w r else s.mem := by
  unfold State.homePut State.lands
  cases s.offline (32 * sec) with
  | true => simp
  | false => cases h : (s.mem.bad sec && !coversSector w sec) <;> simp

theorem State.homeWrite_mem (s : State) (ws : List Who) (rels : List Release) (rmw : Bool) (now : Stamp) (sec : Nat)
    (w : List (Nat × Byte)) (r : StampRule) :
    (s.homeWrite ws rels rmw now sec w r).mem = if s.lands sec w then s.mem.putSector now sec w r else s.mem := by
  rw [← State.homePut_mem]
  unfold State.homeWrite
  split <;> rfl

theorem Still.l1Store (s : State) (core sec : Nat) : Still False s (s.l1Store core sec) := by
  unfold State.l1Store
  dsimp only
  split
  · exact Still.refl ..
  · exact Still.setCore s core rfl False.elim

theorem State.l1Store_mem (s : State) (core sec : Nat) : (s.l1Store core sec).mem = s.mem := by
  unfold State.l1Store
  dsimp only
  split <;> rfl

theorem Beside.lands {s u : State} (h : Beside l s u) (hm : u.mem = s.mem) (sec : Nat) (w : List (Nat × Byte)) :
    u.lands sec w = s.lands sec w := by
  simp [State.lands, h.offline, hm]

theorem Beside.writeSector (s : State) (ws : List Who) (rels : List Release) (core slot gang : Nat) (now : Stamp) (sec : Nat)
    (w : List (Nat × Byte)) (r : StampRule) : Beside False s (s.writeSector ws rels core slot gang now sec w r) :=
  ((((Still.snoop ..).trans (Still.dirAccess ..)).toBeside).trans (Beside.homeWrite ..)).trans (Still.l1Store ..).toBeside

/-- Where no stash line is dirty, a write changes memory as its home takes it, and not otherwise. -/
theorem State.writeSector_mem {s : State} (hc : s.clean) (ws : List Who) (rels : List Release) (core slot gang : Nat)
    (now : Stamp) (sec : Nat) (w : List (Nat × Byte)) (r : StampRule) :
    (s.writeSector ws rels core slot gang now sec w r).mem =
      if s.lands sec w then s.mem.putSector now sec w r else s.mem := by
  have hv : Still True s ((s.snoop (ownBlock core slot gang) (sec / 4) true).dirAccess (isleOf core) (32 * sec) true) :=
    (Still.snoop ..).trans (Still.dirAccess ..)
  unfold State.writeSector
  dsimp only
  rw [State.l1Store_mem, State.homeWrite_mem, hv.toBeside.lands (hv.mem hc), hv.mem hc]

end

/-! ### Stores -/

section
variable {s : State} {core slot : Nat} {b : Block}

/-- R96, R98: the stores, as their shared meaning says them. -/
theorem exec_genStore {i : Instr} {d : BitVec 5} {ea : DWord} {n : Nat} {rel : Option (BitVec 3)} {bnd : BitVec 4}
    (hi : GenAccess b true i d ea n rel bnd) (s : State) (core slot : Nat) : ∃ body, exec i s = gen s body ∧
      body (s.genEnv core slot b) = (s.genEnv core slot b).store (b.th.reg d.toNat) ea n rel bnd := by
  cases hi with
  | gst o => exact ⟨fun e => e.store (e.reg o.d) ((e.reg o.a).val + (e.reg o.b).val) (2 ^ o.size.toNat)
      (if o.ord.getLsbD 1 then some o.scope else none) o.bnd, rfl, rfl⟩
  | gsti o => exact ⟨fun e => e.store (e.reg o.d) ((e.reg o.a).val + sext64 o.i) 8 none 0, rfl, rfl⟩

/-- The widths of the accesses of R96 and R98. -/
theorem genAccess_width {st : Bool} {i : Instr} {d : BitVec 5} {ea : DWord} {n : Nat} {ord : Option (BitVec 3)} {bnd : BitVec 4}
    (hi : GenAccess b st i d ea n ord bnd) : n ≤ 8 ∧ n ∣ 32 := by
  have width (x : BitVec 2) : 2 ^ x.toNat ≤ 8 ∧ 2 ^ x.toNat ∣ 32 :=
    ⟨Nat.pow_le_pow_right (by omega) (by omega : x.toNat ≤ 3), Nat.pow_dvd_pow 2 (by omega : x.toNat ≤ 5)⟩
  cases hi with
  | gld o => exact width o.size
  | gst o => exact width o.size
  | gldi o => exact ⟨le_rfl, by decide⟩
  | gsti o => exact ⟨le_rfl, by decide⟩

/-- An aligned access stays within a sector. -/
theorem aligned_in_sector {x n : Nat} (hn : n ∣ 32) (h : x % n = 0) : x % 32 + n ≤ 32 := by
  obtain ⟨c, hc⟩ := hn
  obtain ⟨d, rfl⟩ := Nat.dvd_of_mod_eq_zero h
  rw [hc, Nat.mul_mod_mul_left]
  have hpos : 0 < c := Nat.pos_of_ne_zero fun h0 => by simp [h0] at hc
  have := Nat.mod_lt d hpos
  calc n * (d % c) + n = n * (d % c + 1) := by ring
    _ ≤ n * c := Nat.mul_le_mul_left n this

/-- The failing check is counted (R252). -/
def countIf (fails : Bool) (ctx n : Nat) (t : State) : State := if fails then t.boundHit ctx n else t

/-- What a store makes of its write. -/
def GEnv.written (e : GEnv) (ea : DWord) (fails : Bool) (n : Nat) (t : State) (r : Except Stop Unit) : GRes :=
  match r with
  | .error x => x.gres t ea
  | .ok () => .done (countIf fails e.ctx n (t.noteThread e.core e.slot))

/-- A store that has not to wait: its bound, then its write. -/
def GEnv.stored (e : GEnv) (x : SVal) (ea : DWord) (n : Nat) (rel : Option (BitVec 3)) (bnd : BitVec 4) : GRes :=
  let w := Who.thread e.core e.slot
  let fails := e.s.boundFails e.ctx bnd.toNat x.stamp
  let act := (e.s.ctx e.ctx).boundAct bnd.toNat
  let s0 := relAt e.s e.core e.slot rel
  let A := s0.globalWrite [w] (e.s.releases [w] rel (·.covers w)) e.core e.slot noGang e.ctx e.now (ea.toNat / 32)
    (atAddr ea.toNat (leBytes x.val.toNat n)) (.normal x.stamp) false
  if fails && act != .mark then
    .fault (countIf fails e.ctx bnd.toNat s0) 0x30 (freshDetail (if act = .refire then 3 else 0) true bnd.toNat) ea
  else e.written ea fails bnd.toNat A.1 A.2

/-- An address that fails a test ends the store. -/
theorem GEnv.store_of_test {e : GEnv} {ea : DWord} {n : Nat} {r : GRes} (h : e.addrTest ea n = some r) (x : SVal)
    (rel : Option (BitVec 3)) (bnd : BitVec 4) : e.store x ea n rel bnd = r := by
  unfold GEnv.store
  rw [h]

/-- R96, R233: a store whose address passes the tests. -/
theorem GEnv.store_eq {e : GEnv} {ea : DWord} {n : Nat} (h : canon ea) (ha : ea.toNat % n = 0) (x : SVal)
    (rel : Option (BitVec 3)) (bnd : BitVec 4) :
    e.store x ea n rel bnd = if rel.any e.relWait then .wait e.s .ack else e.stored x ea n rel bnd := by
  have written (fails : Bool) (A : State × Except Stop Unit) : (match A with
      | (t, .error x) => x.gres t ea
      | (t, .ok ()) => .done (countIf fails e.ctx bnd.toNat (t.noteThread e.core e.slot))) =
      e.written ea fails bnd.toNat A.1 A.2 := by
    rcases A with ⟨t, _ | g⟩ <;> rfl
  unfold GEnv.store GEnv.stored
  rw [GEnv.addrTest_none h ha]
  dsimp only
  rw [← written]
  cases rel <;> rfl

theorem State.globalWrite_ok {s1 : State} {ctx sec base : Nat} (hs : s.translate core ctx (BitVec.ofNat 64 (32 * sec)) true 32 =
    (s1, .ok base)) (ws : List Who) (rels : List Release) (gang : Nat) (now : Stamp) (w : List (Nat × Byte)) (r : StampRule) :
    s.globalWrite ws rels core slot gang ctx now sec w r false =
      (s1.writeSector ws rels core slot gang now (base / 32) (w.map fun p => (base + p.1 % 32, p.2)) r, .ok ()) := by
  unfold State.globalWrite
  dsimp only
  rw [hs]
  rfl

/-- Bytes of one sector, at the place of that sector in device memory. -/
theorem map_atAddr (base a : Nat) (l : List Byte) (h : a % 32 + l.length ≤ 32) :
    (atAddr a l).map (fun p => (base + p.1 % 32, p.2)) = atAddr (base + a % 32) l := by
  induction l generalizing a with
  | nil => rfl
  | cons b r ih =>
    rw [List.length_cons] at h
    cases r with
    | nil => rfl
    | cons c r =>
      have ha : (a + 1) % 32 = a % 32 + 1 := by rw [List.length_cons] at h; omega
      rw [atAddr, List.map_cons, ih (a + 1) (by omega), ha]
      rfl

theorem countIf_onThread (fails : Bool) (ctx n : Nat) (t : State) (f : Thread → Thread) :
    countIf fails ctx n (t.onThread core slot f) = (countIf fails ctx n t).onThread core slot f := by
  cases fails with
  | false => rfl
  | true =>
    have hb : (t.boundHit ctx n).block? core slot = t.block? core slot := rfl
    show (t.onThread core slot f).boundHit ctx n = (t.boundHit ctx n).onThread core slot f
    unfold State.onThread State.onBlock
    rw [hb]
    split <;> rfl

theorem Still.relAt (s : State) (core slot : Nat) (rel : Option (BitVec 3)) : Still True s (relAt s core slot rel) := by
  cases rel with
  | none => exact Still.refl ..
  | some sc => exact Still.system ..

/-- R233: a release waits for the writes that are to be acknowledged. -/
theorem GEnv.relWait_any {rel : Option (BitVec 3)} :
    (rel.any (s.genEnv core slot b).relWait = true ↔ ∃ sc, rel = some sc ∧ ackedFor b.th.outst sc = false) ∧
    ((∀ sc, rel = some sc → ackedFor b.th.outst sc = true) → rel.any (s.genEnv core slot b).relWait = false) := by
  cases rel with
  | none => simp
  | some sc => simp [GEnv.relWait, State.genEnv, GEnv.th]

/-- What a write leaves of memory where no stash line is dirty (R184, R217, R219). -/
theorem generatorStore_mem {u : State} {base n x : Nat} {a : DWord} {r : StampRule} {now : Stamp} (hn : n ≤ 8)
    (hu : u.mem = if s.lands (base / 32) (atAddr (base + a.toNat % 32) (leBytes x n)) then
      s.mem.putSector now (base / 32) (atAddr (base + a.toNat % 32) (leBytes x n)) r else s.mem) :
    (s.memOk → s.offline (32 * (base / 32)) = false → s.mem.bad (base / 32) = false →
      (∀ y, y < base + a.toNat % 32 ∨ base + a.toNat % 32 + n ≤ y → u.mem.byte y = s.mem.byte y) ∧
      (∀ k, k < n → u.mem.byte (base + a.toNat % 32 + k) = BitVec.ofNat 8 (x / 256 ^ k)) ∧
      u.mem.stamp (base / 32) = r.apply now (s.mem.stamp (base / 32)) false) ∧
    ((s.offline (32 * (base / 32)) = true ∨ s.mem.bad (base / 32) = true) → u.mem = s.mem) := by
  have hlen : (leBytes x n).length < 32 := by rw [length_leBytes]; omega
  refine ⟨fun hw ho hbad => ?_, fun hno => ?_⟩
  · rw [if_pos (by simp [State.lands, ho, hbad])] at hu
    rw [hu]
    refine ⟨fun y hy => Store.byte_putSector_part_out y (by rwa [length_leBytes]), fun k hk => ?_,
      Store.stamp_putSector_part hw hbad hlen⟩
    exact Store.byte_putSector_part_in hw hbad hlen (by rw [getElem?_leBytes, if_pos hk])
  · rw [hu, if_neg]
    rcases hno with ho | hbad
    · simp [State.lands, ho]
    · simp [State.lands, hbad, coversSector_atAddr _ _ hlen]

/-- Settles O33: the store is `GEnv.stored` (`GEnv.store_eq`), whose write is `State.writeSector` at the translated sector. -/
theorem generatorStoresWrite : Obligations.GeneratorStoresWrite := by
  unfold Obligations.GeneratorStoresWrite
  intro s core slot b h i d ea n rel bnd hi x fails
  obtain ⟨body, he, hbody⟩ := exec_genStore hi s core slot
  obtain ⟨hn, hdvd⟩ := genAccess_width hi
  rw [he]
  refine ⟨fun hc => ?notCanon, fun hc ha => ?misaligned, fun hc ha => ⟨fun hw => ?wait, fun hw => ?_⟩⟩
  case notCanon => exact gen_traps h (hbody.trans (GEnv.store_of_test (GEnv.addrTest_notCanon hc) ..))
  case misaligned => exact gen_traps h (hbody.trans (GEnv.store_of_test (GEnv.addrTest_misaligned hc ha) ..))
  all_goals rw [GEnv.store_eq (e := s.genEnv core slot b) hc ha] at hbody
  case wait => exact gen_waits h (hbody.trans (if_pos (GEnv.relWait_any.1.2 hw)))
  intro s0
  have hstored := hbody.trans (if_neg (ne_true_of_eq_false (GEnv.relWait_any.2 hw)))
  have hfault (hf : fails = true) (hm : (s.ctx b.ctx).boundAct bnd.toNat ≠ .mark) : body (s.genEnv core slot b) =
      .fault (countIf fails b.ctx bnd.toNat s0) 0x30
        (freshDetail (if (s.ctx b.ctx).boundAct bnd.toNat = .refire then 3 else 0) true bnd.toNat) ea :=
    hstored.trans (if_pos (by simpa using ⟨hf, hm⟩))
  refine ⟨fun hf hact => ?trap, fun hf hact => ?refire, fun hgo s1 base hs hb => ?write⟩
  case trap =>
    have := hfault hf (by simp [hact])
    rw [hf] at this
    simp only [hact, freshDetail] at this
    exact gen_traps h this
  case refire =>
    have := hfault hf (by simp [hact])
    rw [hf] at this
    simp only [hact, freshDetail] at this
    exact gen_traps h this
  case write =>
    intro pa
    have hsec : ea.toNat % 32 + n ≤ 32 := aligned_in_sector hdvd ha
    have h1 : Still True s s1 := by
      have := (Still.relAt s core slot rel).trans (Still.translate s0 core b.ctx (BitVec.ofNat 64 (32 * (ea.toNat / 32))) true 32)
      rwa [hs] at this
    have hgoes : ¬(fails && (s.ctx b.ctx).boundAct bnd.toNat != .mark) = true := by
      rcases hgo with hf | hm
      · simp [hf]
      · simp [hm]
    have hwrite := State.globalWrite_ok (slot := slot) hs [.thread core slot] (s.releases [.thread core slot] rel (·.covers (.thread core slot)))
      noGang (s.now b.ctx) (atAddr ea.toNat (leBytes x.val.toNat n)) (.normal x.stamp)
    rw [map_atAddr base ea.toNat _ (by rwa [length_leBytes])] at hwrite
    generalize hu : s1.writeSector _ _ _ _ _ _ _ _ _ = u at hwrite
    have hbes : Beside False s u := hu ▸ h1.weaken.toBeside.trans (Beside.writeSector ..)
    have hmem (hq : quiet s) : u.mem = if s.lands (base / 32) (atAddr pa (leBytes x.val.toNat n)) then
        s.mem.putSector (s.now b.ctx) (base / 32) (atAddr pa (leBytes x.val.toNat n)) (.normal x.stamp) else s.mem := by
      rw [← hu, State.writeSector_mem (h1.clean hq.2), h1.toBeside.lands (h1.mem hq.2), h1.mem hq.2]
    have hrun : body (s.genEnv core slot b) = .done ((countIf fails b.ctx bnd.toNat u).onThread core slot
        fun t => { t with outst := t.outst ++ [(0, 0)] }) := by
      rw [← countIf_onThread]
      refine hstored.trans ((if_neg hgoes).trans ?_)
      exact congrArg (fun A => (s.genEnv core slot b).written ea fails bnd.toNat A.1 A.2) hwrite
    have ht : (countIf fails b.ctx bnd.toNat u).hasThread core slot b := by
      have := hbes.hasThread (State.hasThread_of_thread? h)
      cases fails <;> exact this
    refine ⟨u, hbes.toElsewhere, ?_, fun hq => (generatorStore_mem hn (hmem hq)).1, fun hq => (generatorStore_mem hn (hmem hq)).2⟩
    rw [gen_done_thread h ht hrun, Thread.complete_eq]
    rfl

end

end Sys2Proof.Machine
end

section
/-! Atomics of a generator (R97): the old value read and the new one written at the home in one step. -/

namespace Sys2Proof.Machine

open Sys2Proof.Claims

/-! ### One atomic step at the home (R185, R194, R201) -/

/-- The state in which an atomic of agent `w` is performed. -/
def State.atomFrom (s : State) (w : Who) (core slot gang pa n : Nat) : State :=
  let s := (s.snoop (ownBlock core slot gang) (pa / 128) true).dirAtomic (isleOf core) pa
  let s := s.setCore core { s.core core with l1 := Tbl.erase (s.core core).l1 (pa / 128) }
  (s.observe w s.heads pa n).seeUpto [w] (pa / 32) s.clock

/-- What an atomic writes, if it writes. -/
def State.atomPut (s : State) (w : Who) (rels : List Release) (now : Stamp) (pa : Nat) (x : Option (List Byte × StampRule)) : State :=
  match x with
  | some (bs, r) => s.homeWrite [w] rels true now (pa / 32) (atAddr pa bs) r
  | none => s

/-- What an atomic reads. -/
def State.atomGot (s : State) (pa n : Nat) : Got := ⟨s.mem.bytesAt pa n, s.mem.stamp (pa / 32), s.homeBad (pa / 32)⟩

theorem State.globalAtomic_eq (s : State) (w : Who) (rels : List Release) (core slot gang ctx : Nat) (now : Stamp) (va : DWord)
    (n : Nat) (f : List Byte → Option (List Byte × StampRule)) :
    s.globalAtomic w rels core slot gang ctx now va n false f =
      match s.translate core ctx va true n with
      | (s, .ok pa) =>
        let t := s.atomFrom w core slot gang pa n
        let g := t.atomGot pa n
        (if g.bad then t else t.atomPut w rels now pa (f g.bytes), .ok g)
      | (s, .fault d) => (s, .error (.fault d))
      | (s, .migrate) => (s, .error .migrate)
      | (s, .wait) => (s, .error .wait) := by
  have put (t : State) (g : Got) (pa : Nat) (x : Option (List Byte × StampRule)) :
      (if g.bad then (t, .ok g) else match x with
        | some (bs, r) => (t.homeWrite [w] rels true now (pa / 32) (atAddr pa bs) r, .ok g)
        | none => (t, .ok g) : State × Except Stop Got) = (if g.bad then t else t.atomPut w rels now pa x, .ok g) := by
    rcases g.bad <;> rcases x with _ | ⟨bs, r⟩ <;> rfl
  unfold State.globalAtomic
  rcases s.translate core ctx va true n with ⟨t, pa | d | _ | _⟩
  · let u := t.atomFrom w core slot gang pa n
    exact put u (u.atomGot pa n) pa (f (u.atomGot pa n).bytes)
  all_goals rfl

section
variable {l : Prop}

theorem Still.atomFrom (s : State) (w : Who) (core slot gang pa n : Nat) : Still False s (s.atomFrom w core slot gang pa n) := by
  have hd : Still False s ((s.snoop (ownBlock core slot gang) (pa / 128) true).dirAtomic (isleOf core) pa) :=
    (Still.snoop ..).trans (Still.dirAtomic ..)
  unfold State.atomFrom
  refine Still.trans ?_ (Still.seeUpto ..)
  refine Still.trans ?_ (Still.observe ..)
  exact hd.trans (Still.setCore _ core rfl False.elim)

theorem Beside.atomPut (s : State) (w : Who) (rels : List Release) (now : Stamp) (pa : Nat) (x : Option (List Byte × StampRule)) :
    Beside l s (s.atomPut w rels now pa x) := by
  rcases x with _ | ⟨bs, r⟩
  · exact Beside.refl ..
  · exact Beside.homeWrite ..

theorem Beside.globalAtomic (s : State) (w : Who) (rels : List Release) (core slot gang ctx : Nat) (now : Stamp) (va : DWord)
    (n : Nat) (f : List Byte → Option (List Byte × StampRule)) :
    Beside False s (s.globalAtomic w rels core slot gang ctx now va n false f).1 := by
  have ht := (Still.translate (l := False) s core ctx va true n).toBeside
  rw [State.globalAtomic_eq]
  split
  · next t pa hx =>
    rw [hx] at ht
    have hf := ht.trans (Still.atomFrom t w core slot gang pa n).toBeside
    dsimp only
    split
    · exact hf
    · exact hf.trans (Beside.atomPut ..)
  · next hx => rw [hx] at ht; exact ht
  · next hx => rw [hx] at ht; exact ht
  · next hx => rw [hx] at ht; exact ht

end

/-- Memory after an atomic of the home: what is written, if something is. -/
def atomMem (m : Store) (now : Stamp) (pa : Nat) (x : Option (List Byte × StampRule)) : Store :=
  match x with
  | some (bs, r) => m.putSector now (pa / 32) (atAddr pa bs) r
  | none => m

theorem State.lands_of_homeBad {s : State} {sec : Nat} (h : s.homeBad sec = false) (w : List (Nat × Byte)) :
    s.lands sec w = true := by
  obtain ⟨hb, ho⟩ := Bool.or_eq_false_iff.1 h
  simp [State.lands, hb, ho]

theorem State.atomPut_mem {s : State} {pa : Nat} (h : s.homeBad (pa / 32) = false) (w : Who) (rels : List Release) (now : Stamp)
    (x : Option (List Byte × StampRule)) : (s.atomPut w rels now pa x).mem = atomMem s.mem now pa x := by
  rcases x with _ | ⟨bs, r⟩
  · rfl
  · exact (State.homeWrite_mem ..).trans (if_pos (State.lands_of_homeBad h _))

/-- R97, R185: where no stash line is dirty, an atomic reads and writes what the home holds. -/
theorem atomic_quiet {s s1 : State} {core ctx n pa : Nat} {va : DWord} (slot : Nat) (acq : Option (BitVec 3)) (rels : List Release)
    (now : Stamp) (f : List Byte → Option (List Byte × StampRule)) (hs : s.translate core ctx va true n = (s1, .ok pa))
    (hc : s.clean) (hb : s.homeBad (pa / 32) = false) :
    ∃ u, (s.acquiring [.thread core slot] acq fun t => t.globalAtomic (.thread core slot) rels core slot 16 ctx now va n false f) =
        (u, .ok (s.atomGot pa n)) ∧
      Beside False s u ∧ u.mem = atomMem s.mem now pa (f (s.mem.bytesAt pa n)) := by
  have ht : Still False s (s1.withTails []) := by
    have := Still.translate (l := False) s core ctx va true n
    rw [hs] at this
    exact this.trans (Still.of_fields rfl rfl rfl rfl rfl rfl rfl id)
  have hf := ht.trans (Still.atomFrom (s1.withTails []) (.thread core slot) core slot 16 pa n)
  have hgot : ((s1.withTails []).atomFrom (.thread core slot) core slot 16 pa n).atomGot pa n = s.atomGot pa n := by
    simp only [State.atomGot, State.homeBad, hf.mem hc, hf.offline]
  have hbad : ((s1.withTails []).atomFrom (.thread core slot) core slot 16 pa n).homeBad (pa / 32) = false := by
    rw [← hb, State.homeBad, State.homeBad, hf.mem hc, hf.offline]
  have hg : (s.withTails []).globalAtomic (.thread core slot) rels core slot 16 ctx now va n false f =
      (((s1.withTails []).atomFrom (.thread core slot) core slot 16 pa n).atomPut (.thread core slot) rels now pa
        (f (s.mem.bytesAt pa n)), .ok (s.atomGot pa n)) := by
    rw [State.globalAtomic_eq, State.translate_withTails, hs]
    dsimp only [keepTails]
    rw [hgot, if_neg (by rw [State.atomGot, hb]; exact Bool.false_ne_true)]
    rfl
  refine ⟨_, Prod.ext rfl ?_, Beside.acquiring s _ acq fun t => Beside.globalAtomic .., ?_⟩
  · rw [State.acquiring_snd, hg]
  · rw [State.acquiring_mem, hg]
    dsimp only
    rw [State.atomPut_mem hbad, hf.mem hc]

/-! ### The value written (R97, R185) -/

/-- The value of an atomic as the manual states it. -/
theorem atomNew_eq (op : BitVec 4) (n old b cmp : Nat) : atomNew op n old b cmp = atomSpec op.toNat n old b cmp := by
  have signed (x : Nat) : (if 2 ^ (8 * n - 1) ≤ x then (x : Int) - 2 ^ (8 * n) else x) =
      if x < 2 ^ (8 * n - 1) then (x : Int) else x - 2 ^ (8 * n) := by
    by_cases h : x < 2 ^ (8 * n - 1)
    · rw [if_pos h, if_neg (by omega)]
    · rw [if_neg h, if_pos (by omega)]
  have pick (x y : Int) (u v : Nat) : (if x < y then u else v) = if y ≤ x then v else u := by
    by_cases h : x < y
    · rw [if_pos h, if_neg (by omega)]
    · rw [if_neg h, if_pos (by omega)]
  unfold atomNew atomSpec
  simp only [signed]
  match op.toNat with
  | 0 | 1 | 2 | 3 | 4 | 5 | 6 => rfl
  | 7 => exact congrArg some (pick ..)
  | 8 => exact congrArg some (pick ..)
  | 9 => exact congrArg some Nat.min_def
  | k + 10 => exact congrArg some ((Nat.max_comm ..).trans Nat.max_def)

/-! ### GATOM -/

section
variable {s : State} {core slot : Nat} {b : Block}

/-- What GATOM writes in place of the bytes it finds, and how it stamps them. -/
def GEnv.atomWrites (e : GEnv) (o : GAtomOp) (n : Nat) (old : List Byte) : Option (List Byte × StampRule) :=
  (atomNew o.aop n (leVal old) ((e.reg o.b).val.toNat % 2 ^ (8 * n)) ((e.reg o.d).val.toNat % 2 ^ (8 * n))).map fun x =>
    (leBytes x n, if o.adopt then .exact (e.reg o.b).stamp else .join (e.reg o.b).stamp)

theorem GEnv.atomWrites_eq (o : GAtomOp) (n : Nat) (old : List Byte) : (s.genEnv core slot b).atomWrites o n old =
    (atomSpec o.aop.toNat n (leVal old) ((b.th.reg o.b.toNat).val.toNat % 2 ^ (8 * n))
      ((b.th.reg o.d.toNat).val.toNat % 2 ^ (8 * n))).map fun x =>
        (leBytes x n, if o.adopt then .exact (b.th.reg o.b.toNat).stamp else .join (b.th.reg o.b.toNat).stamp) := by
  rw [← atomNew_eq]
  rfl

/-- The L1 after an acquire, where the word is one. -/
def swapAcquired (o : GAtomOp) (core : Nat) (t : State) : State := if o.ord.getLsbD 0 then t.acquireL1 core o.scope else t

/-- What GATOM makes of its atomic step. -/
def GEnv.swapped (e : GEnv) (o : GAtomOp) (ea : DWord) (t : State) (r : Except Stop Got) : GRes :=
  match r with
  | .error x => x.gres t ea
  | .ok g =>
    if g.bad then .fault t 0x23 0 ea
    else e.put (swapAcquired o e.core (t.noteThread e.core e.slot)) o.d ⟨BitVec.ofNat 64 (leVal g.bytes), g.stamp⟩

/-- The scope of the release that GATOM is, if it is one. -/
def swapRel (o : GAtomOp) : Option (BitVec 3) := if o.ord.getLsbD 1 then some o.scope else none

/-- R97: GATOM at an address that passes the tests. -/
def GEnv.swap (e : GEnv) (o : GAtomOp) (ea : DWord) (n : Nat) : GRes :=
  if o.ord.getLsbD 1 && e.relWait o.scope then .wait e.s .ack
  else
    let w := Who.thread e.core e.slot
    let A := (relAt e.s e.core e.slot (swapRel o)).acquiring [w] (if o.ord.getLsbD 0 then some o.scope else none) fun t =>
      t.globalAtomic w (e.s.releases [w] (swapRel o) (·.covers w)) e.core e.slot noGang e.ctx e.now ea n false (e.atomWrites o n)
    e.swapped o ea A.1 A.2

theorem exec_gatom (o : GAtomOp) (s : State) (e : GEnv) : ∃ body, exec (.gatom o) s = gen s body ∧
    body e = match e.addrTest (e.reg o.a).val (if o.size then 8 else 4) with
      | some r => r
      | none => e.swap o (e.reg o.a).val (if o.size then 8 else 4) := by
  have swapped (A : State × Except Stop Got) : (match A with
      | (t, .error x) => x.gres t (e.reg o.a).val
      | (t, .ok g) =>
        if g.bad then .fault t 0x23 0 (e.reg o.a).val
        else e.put (swapAcquired o e.core (t.noteThread e.core e.slot)) o.d ⟨BitVec.ofNat 64 (leVal g.bytes), g.stamp⟩) =
      e.swapped o (e.reg o.a).val A.1 A.2 := by
    rcases A with ⟨t, _ | g⟩ <;> rfl
  have hrel : relAt e.s e.core e.slot (swapRel o) =
      if o.ord.getLsbD 1 then e.s.system (·.covers (.thread e.core e.slot)) o.scope else e.s := by
    unfold swapRel
    cases o.ord.getLsbD 1 <;> rfl
  have hexec : exec (.gatom o) s = execGatom o s := rfl
  unfold execGatom at hexec
  refine ⟨_, hexec, ?_⟩
  unfold GEnv.swap
  rw [← swapped, hrel]
  rfl

theorem State.l1Flush_onThread (t : State) (f : Thread → Thread) :
    (t.onThread core slot f).l1Flush core = (t.l1Flush core).onThread core slot f := by
  have hb : (t.l1Flush core).block? core slot = t.block? core slot := by
    rw [State.l1Flush, State.block?, State.core_setCore_same]
    rfl
  unfold State.onThread State.onBlock
  rw [hb]
  cases t.block? core slot with
  | none => rfl
  | some x => simp [State.l1Flush, State.setBlock]

theorem swapAcquired_noteThread (o : GAtomOp) (t : State) :
    swapAcquired o core (t.noteThread core slot) =
      (swapAcquired o core t).onThread core slot fun x => { x with outst := x.outst ++ [(0, 0)] } := by
  unfold swapAcquired State.acquireL1
  cases o.ord.getLsbD 0 with
  | false => rfl
  | true =>
    by_cases h : 3 ≤ o.scope.toNat
    · simp only [if_true, if_pos h]
      exact State.l1Flush_onThread ..
    · simp only [if_true, if_neg h]
      rfl

theorem Still.swapAcquired (o : GAtomOp) (core : Nat) (t : State) : Still False t (swapAcquired o core t) := by
  unfold Machine.swapAcquired
  split
  · exact Still.acquireL1 ..
  · exact Still.refl ..

theorem swapAcquired_mem (o : GAtomOp) (core : Nat) (t : State) : (swapAcquired o core t).mem = t.mem := by
  unfold swapAcquired State.acquireL1
  split
  · split <;> rfl
  · rfl

/-- R97: memory after an atomic that finds the value `y` to write, or none. -/
theorem atomMem_written {m u : Store} {now : Stamp} {pa n : Nat} {y : Option Nat} {r : StampRule} (hw : m.wf = true)
    (hb : m.bad (pa / 32) = false) (hn : n < 32) (hu : u = atomMem m now pa (y.map fun x => (leBytes x n, r))) :
    (∀ a, a < pa ∨ pa + n ≤ a → u.byte a = m.byte a) ∧ (y = none → u = m) ∧
      ∀ x, y = some x → u.nat pa n = x % 2 ^ (8 * n) ∧ u.stamp (pa / 32) = r.apply now (m.stamp (pa / 32)) false := by
  subst hu
  cases y with
  | none => exact ⟨fun a _ => rfl, fun _ => rfl, fun x hx => absurd hx (by simp)⟩
  | some y =>
    have hl : (leBytes y n).length < 32 := by rwa [length_leBytes]
    refine ⟨fun a ha => Store.byte_putSector_part_out a (by rwa [length_leBytes]), fun h => absurd h (by simp), fun x hx => ?_⟩
    cases hx
    have hbytes := Store.bytesAt_putSector_part (now := now) (a := pa) (r := r) hw hb hl
    rw [length_leBytes] at hbytes
    exact ⟨(congrArg leVal hbytes).trans (leVal_leBytes y n), Store.stamp_putSector_part hw hb hl⟩

/-- Settles O34: the word is `GEnv.swap` (`exec_gatom`), whose step at the home is that of `atomic_quiet`. -/
theorem generatorAtomicsPerform : Obligations.GeneratorAtomicsPerform := by
  unfold Obligations.GeneratorAtomicsPerform
  intro s core slot b o h ea n
  obtain ⟨body, he, hbody⟩ := exec_gatom o s (s.genEnv core slot b)
  rw [he]
  have htest {r : GRes} (ht : (s.genEnv core slot b).addrTest ea n = some r) : body (s.genEnv core slot b) = r := by
    rw [hbody]
    change (match (s.genEnv core slot b).addrTest ea n with
      | some r => r
      | none => _) = r
    rw [ht]
  have hswap (hc : canon ea) (ha : ea.toNat % n = 0) :
      body (s.genEnv core slot b) = (s.genEnv core slot b).swap o ea n := by
    rw [hbody]
    change (match (s.genEnv core slot b).addrTest ea n with
      | some r => r
      | none => (s.genEnv core slot b).swap o ea n) = _
    rw [GEnv.addrTest_none hc ha]
  refine ⟨fun hc => ?notCanon, fun hc ha => ?misaligned, fun hc ha hord hack => ?wait,
    fun hc ha hgo s1 pa hs _ hq hw hb => ?swap⟩
  case notCanon => exact gen_traps h (htest (GEnv.addrTest_notCanon hc))
  case misaligned => exact gen_traps h (htest (GEnv.addrTest_misaligned hc ha))
  case wait =>
    refine gen_waits h ((hswap hc ha).trans (if_pos ?_))
    rw [hord, GEnv.relWait, Bool.true_and, Bool.not_eq_true']
    exact hack
  case swap =>
    intro new bst
    change (relAt s core slot (swapRel o)).translate core b.ctx ea true n = (s1, .ok pa) at hs
    have hn : n < 32 := by show (if o.size then 8 else 4) < 32; split <;> omega
    have h0 : Still True s (relAt s core slot (swapRel o)) := Still.relAt ..
    have hmem0 := h0.mem hq.2
    have hb0 : (relAt s core slot (swapRel o)).homeBad (pa / 32) = false := by
      rw [State.homeBad, hmem0, h0.offline]
      exact hb
    obtain ⟨u, hA, hbes, hmem⟩ := atomic_quiet slot (if o.ord.getLsbD 0 then some o.scope else none)
      (s.releases [.thread core slot] (swapRel o) (·.covers (.thread core slot))) (s.now b.ctx)
      ((s.genEnv core slot b).atomWrites o n) hs (h0.clean hq.2) hb0
    have hgot : (relAt s core slot (swapRel o)).atomGot pa n = ⟨s.mem.bytesAt pa n, s.mem.stamp (pa / 32), false⟩ := by
      rw [State.atomGot, hmem0, hb0]
    have hrun : body (s.genEnv core slot b) = .done ((swapAcquired o core u).onThread core slot fun t =>
        { t with outst := t.outst ++ [(0, 0)] }.setReg o.d.toNat ⟨BitVec.ofNat 64 (s.mem.nat pa n), s.mem.stamp (pa / 32)⟩) := by
      refine (hswap hc ha).trans ((if_neg ?_).trans ?_)
      · have hgo' : o.ord.getLsbD 1 = false ∨ ackedFor (s.genEnv core slot b).th.outst o.scope = true := hgo
        rcases hgo' with hord | hack
        · rw [hord, Bool.false_and]
          exact Bool.false_ne_true
        · simp [GEnv.relWait, hack]
      · rw [hgot] at hA
        refine (congrArg (fun A => (s.genEnv core slot b).swapped o ea A.1 A.2) hA).trans ?_
        refine congrArg GRes.done (?_ : (swapAcquired o core (u.noteThread core slot)).onThread core slot _ = _)
        rw [swapAcquired_noteThread, State.onThread_onThread]
        rfl
    have hall := (h0.toBeside.weaken.trans hbes).trans (Still.swapAcquired o core u).toBeside
    have hput : (swapAcquired o core u).mem = atomMem s.mem (s.now b.ctx) pa (new.map fun x =>
        (leBytes x n, if o.adopt then .exact bst else .join bst)) := by
      rw [swapAcquired_mem, hmem, hmem0]
      exact congrArg (atomMem s.mem (s.now b.ctx) pa) (GEnv.atomWrites_eq ..)
    obtain ⟨hout, hnone, hsome⟩ := atomMem_written hw (Bool.or_eq_false_iff.1 hb).1 hn hput
    have hdone := gen_done_thread h (hall.hasThread (State.hasThread_of_thread? h)) hrun
    refine ⟨_, _, hall.toElsewhere, wrote_setReg _ _ _ _, hdone, ?_⟩
    refine ⟨hout, hnone, fun x hx => ?_⟩
    obtain ⟨hval, hst⟩ := hsome x hx
    refine ⟨hval, hst.trans ?_⟩
    cases o.adopt <;> rfl

end

end Sys2Proof.Machine
end

section
/-! The system words of a generator, GFENCE and LDKC (R74, R94, R100, R102, R103, R307). -/

namespace Sys2Proof.Machine

open Sys2Proof.Claims

/-! ### Events of the device (R348, R373) -/

section
variable {l : Prop}

theorem Beside.putHeld (s : State) (h : HeldPut) : Beside l s (s.putHeld h) := by
  cases h with
  | unit sec w => exact (Still.snoop ..).toBeside.trans (Beside.homePut ..)
  | line sec data st bad => exact Beside.homeSet ..

theorem Beside.devWrite (s : State) (pa : Nat) (w : List Byte) : Beside l s (s.devWrite pa w) := by
  unfold State.devWrite
  split
  · exact Beside.refl ..
  · refine Beside.foldl (fun s i => ?_) s _
    dsimp only
    split
    · exact Beside.putHeld ..
    · exact Beside.of_fields rfl rfl rfl rfl rfl rfl

end

/-- An event posted leaves every thread. -/
theorem State.threads_postEvent (s : State) (ctx : Nat) (r : Record) (c sl : Nat) :
    ((s.postEvent ctx r).block? c sl).map (·.th) = (s.block? c sl).map (·.th) := by
  unfold State.postEvent
  dsimp only
  split
  · rfl
  · exact (Beside.devWrite (l := True) s _ _).threads c sl

theorem State.threads_threadEvent (s : State) (core slot c sl : Nat) :
    ((s.threadEvent core slot).block? c sl).map (·.th) = (s.block? c sl).map (·.th) := by
  unfold State.threadEvent
  split
  · rfl
  · exact State.threads_postEvent ..

/-! ### The system words (R102, R103) -/

section
variable {s : State} {core slot : Nat} {b : Block}

theorem exec_gstget (d a : BitVec 5) (s : State) : exec (.gstget d a) s = gen s fun e =>
    e.put e.s d ⟨(e.reg a).stamp.setWidth 64, ageless⟩ := rfl

theorem exec_gstset (d a : BitVec 5) (s : State) : exec (.gstset d a) s = gen s fun e =>
    if !e.s.restamp e.ctx then .fault e.s 0x31 0 0 else e.put e.s d ⟨(e.reg d).val, (e.reg a).val.setWidth 24⟩ := rfl

theorem exec_gsrd (d : BitVec 5) (r : BitVec 6) (s : State) : exec (.gsrd d r) s = gen s fun e =>
    if 0x12 < r.toNat then e.illegal else e.put e.s d ⟨e.special r, ageless⟩ := rfl

theorem exec_gtrap (n : BitVec 16) (s : State) : exec (.gtrap n) s = gen s fun e =>
    .leave (e.s.gFault e.core e.slot 0x70 n.toNat 0 (e.pc + 4) false) := rfl

theorem exec_gpause (n : BitVec 12) (s : State) : exec (.gpause n) s = gen s fun e =>
    .done (e.s.onThread e.core e.slot fun t => { t with pause := n }) := rfl

/-- R103: the special registers by number. -/
theorem special_eq (r : BitVec 6) {v : DWord} (h : (specials s core slot b)[r.toNat]? = some v) :
    (s.genEnv core slot b).special r = v := by
  have hb : (s.genEnv core slot b).b.control = b.control := rfl
  cases hc : b.control
  all_goals
    rw [hc] at hb
    simp only [specials, hc, if_true, if_false, Bool.false_eq_true] at h
    simp only [GEnv.special, hb, if_true, if_false, Bool.false_eq_true]
    generalize r.toNat = k at h ⊢
    match k, h with
    | 0, h | 1, h | 2, h | 3, h | 4, h | 5, h | 6, h | 7, h | 8, h | 9, h | 10, h | 11, h | 12, h | 13, h | 14, h | 15, h
    | 16, h | 17, h | 18, h => exact Option.some.inj h
    | k + 19, h => exact absurd h (by simp)

/-- A word that leaves: its thread, where the state it gives has one. -/
theorem finish_leave {t : State} {x : Block} (h : t.block? core slot = some x) :
    ∃ y, ((s.genEnv core slot b).finish (.leave t)).block? core slot = some y ∧
      y.th = { x.th with wait := .none, refires := 0 }.stepped := by
  have ht : ((t.onThread core slot fun t => { t with wait := .none, refires := 0 }.stepped).block? core slot).map (·.th) =
      some { x.th with wait := .none, refires := 0 }.stepped := by
    rw [State.block?_onThread_same, h]
    rfl
  have hf : (((s.genEnv core slot b).finish (.leave t)).block? core slot).map (·.th) =
      some { x.th with wait := .none, refires := 0 }.stepped := by
    show ((if b.th.stepOne then _ else _ : State).block? core slot).map _ = _
    split
    · exact (State.threads_threadEvent ..).trans ht
    · exact ht
  exact Option.map_eq_some_iff.1 hf

theorem Thread.stepped_eq (t : Thread) : t.stepped = { t with stepOne := t.stepped.stepOne, halted := t.stepped.halted } := by
  unfold Thread.stepped
  split <;> rfl

/-- R102 to R104. -/
theorem generatorSystemWords : Claims.GeneratorSystemWords := by
  intro s core slot b h
  have ht := State.hasThread_of_thread? h
  refine ⟨fun d a => ⟨?gstget, fun hr => ?noRight, fun hr => ?gstset⟩, fun d r => ⟨fun hr => ?illegal, fun v hv => ?gsrd⟩,
    fun n => ?gpause, fun n hh htrap => ?gtrap⟩
  case gstget =>
    rw [exec_gstget, BitVec.ofNat_toNat]
    exact gen_gives h ht rfl
  case noRight =>
    rw [exec_gstset]
    exact gen_traps h (if_pos (by rw [Bool.not_eq_true']; exact hr))
  case gstset =>
    rw [exec_gstset, BitVec.ofNat_toNat]
    exact gen_gives h ht (if_neg (by rw [Bool.not_eq_true, Bool.not_eq_false']; exact hr))
  case illegal =>
    rw [exec_gsrd]
    exact gen_traps h (if_pos hr)
  case gsrd =>
    have hlt : ¬0x12 < r.toNat := fun hr => by
      rw [List.getElem?_eq_none (by simp only [specials, List.length_cons, List.length_nil]; omega)] at hv
      exact absurd hv (by simp)
    rw [exec_gsrd, ← special_eq r hv]
    exact gen_gives h ht (if_neg hlt)
  case gpause =>
    rw [exec_gpause, onAt_eq_complete]
    exact (gen_done_thread (f := fun t => { t with pause := n }) h ht rfl).trans (by rw [Thread.complete_eq, Thread.complete_eq])
  case gtrap =>
    obtain ⟨x, hx, hframe, hbank, _, _, _⟩ := generatorFaultEntersHandler s core slot 0x70 n.toNat 0 (b.th.pc + 4) false b
      (State.thread?_some h).2 hh htrap (by omega) n.isLt
    obtain ⟨y, hy, hth⟩ := finish_leave (s := s) (b := b) hx
    rw [exec_gtrap, gen_of h]
    refine ⟨_, rfl, y, hy, ?_, ?_, ?_, ?_⟩
    all_goals rw [hth, Thread.stepped_eq]
    · rw [hframe]
    · rw [hframe]
    · exact congrArg SVal.val (hbank 30 (by omega))
    · exact congrArg SVal.val (hbank 28 (by omega))

/-! ### GFENCE (R100, R228, R238, R307) -/

theorem Still.fence {l : Prop} (s : State) (ws : List Who) (p : Who → Bool) (scope : BitVec 3) :
    Still l s (s.fence ws p scope) :=
  (Still.sync s ws p scope).trans (Still.of_fields rfl rfl rfl rfl rfl rfl rfl id)

/-- What a fence of the thread does before the next word, where no write is to be acknowledged. -/
def State.fenceDone (s : State) (core slot : Nat) (scope : BitVec 3) : State :=
  let w := Who.thread core slot
  ((s.fence [w] (·.covers w) scope).system (·.covers w) scope).acquireL1 core scope

theorem Still.fenceDone (s : State) (core slot : Nat) (scope : BitVec 3) : Still False s (s.fenceDone core slot scope) :=
  ((Still.fence ..).trans (Still.system ..)).trans (Still.acquireL1 ..)

/-- R238: for kinds 2 and 3 of a control core, the cube in order with the thread. -/
def State.cubeFenced (s : State) (core slot : Nat) : State :=
  let w := Who.thread core slot
  ((s.join [w] (·.covers (.seq core))).join [.seq core] (·.covers w)).setCube (core / 8)
    { s.cube (core / 8) with obufOld := [] }

theorem State.hasThread_setCube {t : State} (h : t.hasThread core slot b) (c : Nat) (x : Cube) :
    (t.setCube c x).hasThread core slot b := h

theorem State.hasThread_cubeFenced (h : s.hasThread core slot b) : (s.cubeFenced core slot).hasThread core slot b :=
  State.hasThread_setCube ((Still.join (l := True) ..).hasThread ((Still.join (l := True) ..).hasThread h)) ..

theorem exec_gfence (k : BitVec 2) (sc : BitVec 3) (s : State) : exec (.gfence k sc) s = gen s fun e =>
    if k = 1 || (k = 2 && !e.b.control) then e.illegal
    else if gfenceReady e.s e.core e.b k sc then
      .done ((if k.toNat < 2 || !e.b.control then e.s else e.s.cubeFenced e.core e.slot).fenceDone e.core e.slot sc)
    else .wait e.s .ack := rfl

theorem gfenceReady_iff {k : BitVec 2} {sc : BitVec 3} : gfenceReady s core b k sc = true ↔
    ackedFor b.th.outst sc = true ∧ (b.control = false ∨ k.toNat < 2 ∨ ((s.cube (core / 8)).queue = [] ∧
      (s.cube (core / 8)).exec = none ∧ (s.cube (core / 8)).image = [])) := by
  simp [gfenceReady, Cube.idle, clusterOf, or_assoc, and_assoc]

/-! ### LDKC (R74, R94) -/

/-- R94: the index of LDKC is a sum in 64 bits, of which 14 count. -/
theorem ldkc_index (x : DWord) (i : BitVec 16) : (x + i.setWidth 64).toNat % 16384 = (x.toNat + i.toNat) % 16384 := by
  rw [BitVec.toNat_add, BitVec.toNat_setWidth]
  omega

/-- What LDKC makes of its read of word `i` of the bank. -/
def GEnv.banked (e : GEnv) (d : BitVec 5) (i : Nat) (t : State) (r : Except Stop (Word × Bool)) : GRes :=
  match r with
  | .ok (_, true) => .fault t 0x23 0 (e.b.kbank + BitVec.ofNat 64 (4 * i))
  | .ok (w, false) => e.put t d ⟨w.setWidth 64, e.b.kstamp⟩
  | .error x => x.gres t (e.b.kbank + BitVec.ofNat 64 (4 * i))

theorem exec_ldkc (o : GiOp) (s : State) : ∃ body, exec (.ldkc o) s = gen s body ∧
    ∀ core slot b, body (s.genEnv core slot b) =
      let i := ((b.th.reg o.a.toNat).val.toNat + o.i.toNat) % 16384
      (s.genEnv core slot b).banked o.d i (s.kword core b i).1 (s.kword core b i).2 := by
  have banked (e : GEnv) (i : Nat) (A : State × Except Stop (Word × Bool)) : (match A with
      | (t, .ok (_, true)) => .fault t 0x23 0 (e.b.kbank + BitVec.ofNat 64 (4 * i))
      | (t, .ok (w, false)) => e.put t o.d ⟨w.setWidth 64, e.b.kstamp⟩
      | (t, .error x) => x.gres t (e.b.kbank + BitVec.ofNat 64 (4 * i))) = e.banked o.d i A.1 A.2 := by
    rcases A with ⟨t, x | ⟨w, _ | _⟩⟩ <;> rfl
  have hexec : exec (.ldkc o) s = execLdkc o s := rfl
  unfold execLdkc at hexec
  refine ⟨_, hexec, fun core slot b => ?_⟩
  dsimp only
  rw [← banked, ← ldkc_index]
  rfl

/-- R100, R307: GFENCE. -/
theorem gfence_completes (h : s.thread? = some (core, slot, b)) (k : BitVec 2) (sc : BitVec 3)
    (hk : ¬(k = 1 || (k = 2 && !b.control)) = true) (hr : gfenceReady s core b k sc = true) :
    goesOn ((if k.toNat < 2 ∨ b.control = false then s else s.cubeFenced core slot).fenceDone core slot sc) core slot b
      (exec (.gfence k sc) s) := by
  have ht := State.hasThread_of_thread? h
  have hfirst : (if k.toNat < 2 ∨ b.control = false then s else s.cubeFenced core slot) =
      if k.toNat < 2 || !b.control then s else s.cubeFenced core slot := if_congr (by simp) rfl rfl
  rw [exec_gfence]
  refine gen_goesOn h ((Still.fenceDone ..).hasThread ?_) ?_
  · split
    · exact ht
    · exact State.hasThread_cubeFenced ht
  · rw [hfirst]
    exact (if_neg hk).trans (if_pos hr)

/-- R100, R307, R94, R74. -/
theorem generatorFenceAndBank : Claims.GeneratorFenceAndBank := by
  intro s core slot b h
  refine ⟨fun k sc => ?fence, fun o => ?ldkc⟩
  case fence =>
    intro q ready
    have illegal : (k = 1 || (k = 2 && !b.control)) = true ↔ k = 1 ∨ (k = 2 ∧ b.control = false) := by simp
    refine ⟨fun hk => ?_, fun hk hr => gfence_completes h k sc (fun hc => hk (illegal.1 hc)) (gfenceReady_iff.2 hr),
      fun hk hr => ?_⟩
    · rw [exec_gfence]
      exact gen_traps h (if_pos (illegal.2 hk))
    · rw [exec_gfence]
      exact gen_waits h ((if_neg fun hc => hk (illegal.1 hc)).trans (if_neg fun hc => hr (gfenceReady_iff.1 hc)))
  case ldkc =>
    intro i s1
    obtain ⟨body, he, hbody⟩ := exec_ldkc o s
    have hread {r : Except Stop (Word × Bool)} (hx : s.kword core b i = (s1, r)) :
        body (s.genEnv core slot b) = (s.genEnv core slot b).banked o.d i s1 r :=
      (hbody core slot b).trans (congrArg (fun A => (s.genEnv core slot b).banked o.d i A.1 A.2) hx)
    rw [he]
    refine ⟨fun w hx => ?_, fun w hx => gen_traps h (hread hx), fun d hx => gen_traps h (hread hx)⟩
    have hk := Still.kword (l := True) s core b i
    rw [hx] at hk
    exact gen_gives h (hk.hasThread (State.hasThread_of_thread? h)) (hread hx)

/-- Settles O35: each word is its arm (`exec_gstget` to `exec_ldkc`); the fence's state is `State.fenceDone` after, on a control core,
`State.cubeFenced`. -/
theorem generatorSystemAndFence : Obligations.GeneratorSystemAndFence := ⟨generatorSystemWords, generatorFenceAndBank⟩

end

end Sys2Proof.Machine
end

section
/-! Scalar mailboxes and launches of a generator (R90 to R93, R323). -/

namespace Sys2Proof.Machine

open Sys2Proof.Claims

/-! ### Mailboxes (R90, R91) -/

section
variable {s : State} {core slot : Nat} {b : Block}

theorem GEnv.simt_control {e : GEnv} (h : e.b.control = true) (r : GRes) : e.simt r = .fault e.s 0x01 0 0 := if_pos h

theorem GEnv.simt_simt {e : GEnv} (h : e.b.control = false) (r : GRes) : e.simt r = r := if_neg (ne_true_of_eq_false h)

theorem exec_gmbwr (a : BitVec 5) (m : BitVec 4) (s : State) : exec (.gmbwr a m) s = gen s fun e => e.simt <|
    if (e.b.mb m).canWrite .thread then
      .done (e.s.onBlock e.core e.slot (·.onMb m.toNat (·.write .thread (e.reg a))))
    else .wait (e.s.onBlock e.core e.slot (·.onMb m.toNat (·.queueW .thread))) (.mbwr m) := rfl

theorem exec_gmbrd (d : BitVec 5) (m : BitVec 4) (s : State) : exec (.gmbrd d m) s = gen s fun e => e.simt <|
    if (e.b.mb m).canRead .thread then
      e.put ((e.s.meetBlock e.core e.slot [.thread e.core e.slot]).onBlock e.core e.slot (·.onMb m.toNat (·.read .thread))) d (e.b.mb m).v
    else .wait (e.s.onBlock e.core e.slot (·.onMb m.toNat (·.queueR .thread))) (.mbrd m) := rfl

theorem exec_gmbpeek (d : BitVec 5) (m : BitVec 4) (s : State) : exec (.gmbpeek d m) s = gen s fun e => e.simt <|
    e.put e.s d ⟨flagWord (e.b.mb m).full, ageless⟩ := rfl

/-- R91: a waiter that no other waits before. -/
theorem first_iff {l : List Waiter} : (l.isEmpty || l.head? == some .thread) = true ↔ l = [] ∨ l.head? = some .thread := by
  simp

theorem Mailbox.canWrite_iff {x : Mailbox} : x.canWrite .thread = true ↔
    x.full = false ∧ (x.writers = [] ∨ x.writers.head? = some .thread) := by
  rw [Mailbox.canWrite, Bool.and_eq_true, first_iff, Bool.not_eq_true']

theorem Mailbox.canRead_iff {x : Mailbox} : x.canRead .thread = true ↔
    x.full = true ∧ (x.readers = [] ∨ x.readers.head? = some .thread) := by
  rw [Mailbox.canRead, Bool.and_eq_true, first_iff]

theorem Mailbox.queueW_eq (x : Mailbox) (w : Waiter) :
    x.queueW w = { x with writers := if w ∈ x.writers then x.writers else x.writers ++ [w] } := by
  unfold Mailbox.queueW
  by_cases h : w ∈ x.writers <;> simp [h]

theorem Mailbox.queueR_eq (x : Mailbox) (w : Waiter) :
    x.queueR w = { x with readers := if w ∈ x.readers then x.readers else x.readers ++ [w] } := by
  unfold Mailbox.queueR
  by_cases h : w ∈ x.readers <;> simp [h]

/-- A mailbox of a block changed, in a state that still has the block. -/
theorem State.onMb_eq {t : State} (hb : t.block? core slot = some b) {i : Nat} {f : Mailbox → Mailbox} {y : Mailbox}
    (hf : f (vat b.mbs Mailbox.empty i) = y) :
    t.onBlock core slot (·.onMb i f) = t.onBlock core slot fun z => { z with mbs := vput z.mbs i y } :=
  State.onBlock_congr hb (by rw [← hf]; rfl)

/-- R90, R91. -/
theorem generatorMailboxWords : Claims.GeneratorMailboxWords := by
  intro s core slot b a m h x put first queue
  have hb := (State.thread?_some h).2
  have ht := State.hasThread_of_block? hb
  refine ⟨fun hc => ?control, fun hc => ⟨fun hf hw => ?write, fun hno => ?queueW, fun hf hr => ?read, fun hno => ?queueR, ?peek⟩⟩
  case control =>
    simp only [List.mem_cons, List.not_mem_nil, or_false, forall_eq_or_imp, forall_eq, exec_gmbwr, exec_gmbrd, exec_gmbpeek]
    exact ⟨gen_traps h (GEnv.simt_control hc _), gen_traps h (GEnv.simt_control hc _), gen_traps h (GEnv.simt_control hc _)⟩
  case write =>
    rw [exec_gmbwr]
    refine gen_goesOn h (State.hasThread_onBlock ht fun _ => rfl) ((GEnv.simt_simt hc _).trans ?_)
    exact (if_pos (Mailbox.canWrite_iff.2 ⟨hf, hw⟩)).trans (congrArg GRes.done (State.onMb_eq hb rfl))
  case queueW =>
    rw [exec_gmbwr]
    refine gen_waits h ((GEnv.simt_simt hc _).trans ((if_neg fun hcan => ?_).trans
      (congrArg (GRes.wait · _) (State.onMb_eq hb (Mailbox.queueW_eq ..)))))
    obtain ⟨hf, hw⟩ := Mailbox.canWrite_iff.1 hcan
    exact hno.elim (fun hx => Bool.false_ne_true (hf.symm.trans hx)) fun hx => hx hw
  case read =>
    rw [exec_gmbrd]
    refine gen_gives h (State.hasThread_onBlock ht fun _ => rfl) ((GEnv.simt_simt hc _).trans ?_)
    refine (if_pos (Mailbox.canRead_iff.2 ⟨hf, hr⟩)).trans ?_
    exact congrArg ((s.genEnv core slot b).put · a x.v) (State.onMb_eq ((State.block?_join ..).trans hb) rfl)
  case queueR =>
    rw [exec_gmbrd]
    refine gen_waits h ((GEnv.simt_simt hc _).trans ((if_neg fun hcan => ?_).trans
      (congrArg (GRes.wait · _) (State.onMb_eq hb (Mailbox.queueR_eq ..)))))
    obtain ⟨hf, hr⟩ := Mailbox.canRead_iff.1 hcan
    exact hno.elim (fun hx => Bool.false_ne_true (hx.symm.trans hf)) fun hx => hx hr
  case peek =>
    rw [exec_gmbpeek]
    exact gen_gives h ht (GEnv.simt_simt hc _)

/-! ### The packet of a launch word (R92, R93) -/

theorem Still.packet (e : GEnv) (s : State) (va : DWord) (n : Nat) : Still False s (e.packet s va n).1 := by
  induction n generalizing s va with
  | zero => exact Still.refl ..
  | succ n ih =>
    have hr : Still False s (s.globalRead (.thread e.core e.slot) e.core e.slot noGang e.ctx va 32 false true true).1 :=
      Still.globalRead ..
    unfold GEnv.packet
    split
    · next hx => rw [hx] at hr; exact hr
    · next t g hx =>
      rw [hx] at hr
      have hn := hr.trans (ih t (va + 32))
      split
      · exact hr
      · split
        · next hy => rw [hy] at hn; exact hn
        · next hy => rw [hy] at hn; exact hn

section
variable {e : GEnv} {a : BitVec 5} {sc : BitVec 3} {k : State → List Byte → GRes}

/-- A thread that waits with its packet goes on with it. -/
theorem GEnv.launch_held {l : List Byte} (hw : e.th.wait = .launch l) : e.launch a sc k = k e.s l := by
  unfold GEnv.launch
  rw [hw]

/-- What a launch word makes of its packet's read. -/
def GEnv.launched (k : State → List Byte → GRes) (t : State) (r : Except (Option Stop × DWord) (List Byte)) : GRes :=
  match r with
  | .error (none, va) => .fault t 0x23 0 va
  | .error (some x, va) => x.gres t va
  | .ok l => k t l

/-- R92: a launch word that has no packet yet. -/
theorem GEnv.launch_eq (hw : ∀ l, e.th.wait ≠ .launch l) : e.launch a sc k =
    if (e.reg a).val.toNat % 128 ≠ 0 then .fault e.s 0x20 0 (e.reg a).val
    else if e.relWait sc then .wait e.s .ack
    else GEnv.launched k (e.packet e.s (e.reg a).val 4).1 (e.packet e.s (e.reg a).val 4).2 := by
  have launched (A : State × Except (Option Stop × DWord) (List Byte)) : (match A with
      | (s, .error (none, va)) => .fault s 0x23 0 va
      | (s, .error (some x, va)) => x.gres s va
      | (s, .ok l) => k s l) = GEnv.launched k A.1 A.2 := by
    rcases A with ⟨t, ⟨_ | x, va⟩ | l⟩ <;> rfl
  unfold GEnv.launch
  split
  · next l hl => exact absurd hl (hw l)
  · rw [← launched] <;> rfl

end

/-- R92, R233: a launch word waits for the thread's writes. -/
theorem launch_waits {a : BitVec 5} {sc : BitVec 3} (hw : ∀ l, b.th.wait ≠ .launch l)
    (ha : (b.th.reg a.toNat).val.toNat % 128 = 0) (hack : ackedFor b.th.outst sc = false) (k : State → List Byte → GRes) :
    (s.genEnv core slot b).launch a sc k = .wait s .ack := by
  refine (GEnv.launch_eq (e := s.genEnv core slot b) hw).trans ((if_neg (not_not_intro ha)).trans (if_pos ?_))
  rw [GEnv.relWait, Bool.not_eq_true']
  exact hack

/-- R92, R93: a launch word that has its packet `l`, in the state `t`. -/
theorem launch_runs {t : State} {a : BitVec 5} {sc : BitVec 3} {l : List Byte} (h : s.thread? = some (core, slot, b))
    (hs : (b.th.wait = .launch l ∧ t = s) ∨ ((∀ l, b.th.wait ≠ .launch l) ∧ (b.th.reg a.toNat).val.toNat % 128 = 0 ∧
      ackedFor b.th.outst sc = true ∧ (s.genEnv core slot b).packet s (b.th.reg a.toNat).val 4 = (t, .ok l)))
    (k : State → List Byte → GRes) : (s.genEnv core slot b).launch a sc k = k t l ∧ t.hasThread core slot b := by
  have ht := State.hasThread_of_thread? h
  rcases hs with ⟨hw, rfl⟩ | ⟨hw, ha, hack, hp⟩
  · exact ⟨GEnv.launch_held hw, ht⟩
  · have hk := Still.packet (s.genEnv core slot b) s (b.th.reg a.toNat).val 4
    rw [hp] at hk
    refine ⟨(GEnv.launch_eq (e := s.genEnv core slot b) hw).trans ((if_neg (not_not_intro ha)).trans ((if_neg ?_).trans ?_)), hk.hasThread ht⟩
    · rw [GEnv.relWait, Bool.not_eq_true', Bool.not_eq_false]
      exact hack
    · exact congrArg (fun A => GEnv.launched k A.1 A.2) hp

/-! ### Queues and capes (R323, R325, R370) -/

theorem State.hasThread_setCtx {t : State} (h : t.hasThread core slot b) (x : Nat) (c : Ctx) :
    (t.setCtx x c).hasThread core slot b := h

theorem State.hasThread_lqPut {t : State} (h : t.hasThread core slot b) (x q : Nat) (l : List Byte) :
    (t.lqPut x q l).hasThread core slot b :=
  State.hasThread_setCtx ((Beside.devWrite (l := True) ..).hasThread h) ..

theorem State.hasThread_peerLaunch {t : State} (h : t.hasThread core slot b) (src x q : Nat) (l : List Byte) :
    (t.peerLaunch src x q l).hasThread core slot b := by
  unfold State.peerLaunch State.lqAppend
  split
  · split
    · exact State.hasThread_lqPut h ..
    · exact h
  · exact h

theorem State.lqTakes_iff {t : State} {x q : Nat} : t.lqTakes x q = true ↔
    (t.lq x q).full = false ∧ t.memReady ((t.lq x q).slot (t.lq x q).tail 128) = true := by
  rw [State.lqTakes, Bool.and_eq_true, Bool.not_eq_true']

theorem State.outCape?_none {t : State} (h : ∀ c, c < 4 → t.ready.getLsbD (36 + c) = false) : t.outCape? = none :=
  List.find?_eq_none.2 fun c hc => ne_true_of_eq_false (h c (List.mem_range.1 hc))

/-- The trained cape of lowest number. -/
theorem State.outCape?_some {t : State} {c : Nat} (hc : c < 4) (h : t.ready.getLsbD (36 + c) = true)
    (hk : ∀ k, k < c → t.ready.getLsbD (36 + k) = false) : t.outCape? = some c :=
  List.find?_range_eq_some.2 ⟨h, List.mem_range.2 hc, fun k hlt => by rw [hk k hlt]; rfl⟩

/-! ### Launch words -/

theorem exec_glaunch (a : BitVec 5) (q : BitVec 6) (s : State) : exec (.glaunch a q) s = gen s fun e =>
    e.launch a 5 fun s l => if s.lqTakes e.ctx q.toNat then .done (s.lqPut e.ctx q.toNat l) else .wait s (.launch l) := rfl

/-- R93: what GLAUNCH.peer does with its packet. -/
def GEnv.peerWith (e : GEnv) (d : BitVec 5) (q : BitVec 6) (s : State) (l : List Byte) : GRes :=
  let dst : BitVec 9 := (e.reg d).val.setWidth 9
  let ctx := fld (e.reg d).val 27 16
  if dst = s.pkg then
    if s.peerHeld s.pkg.toNat ctx q.toNat then .wait s (.launch l) else .done (s.peerLaunch s.pkg.toNat ctx q.toNat l)
  else match s.outCape? with
    | none => .wait s (.launch l)
    | some c => .wait (s.sendBy c (launchFlitOf s.pkg dst ctx q l)) (.peer c (s.cape c).sendSeq)

theorem exec_glaunchPeer (d a : BitVec 5) (q : BitVec 6) (s : State) : exec (.glaunchPeer d a q) s = gen s fun e =>
    e.launch a 7 (e.peerWith d q) := rfl

/-- R93: the fields of the target word of GLAUNCH.peer. -/
theorem peerTarget (x : DWord) : fld x 27 16 = x.toNat / 65536 % 4096 := rfl

theorem peerTarget_pkg (x : DWord) (p : BitVec 9) : x.setWidth 9 = p ↔ x.toNat % 512 = p.toNat := by
  rw [← BitVec.toNat_inj, BitVec.toNat_setWidth]

/-- R93, R325, R366: GLAUNCH.peer to this package. -/
theorem GEnv.peerWith_here {e : GEnv} {d : BitVec 5} {q : BitVec 6} {t : State} {l : List Byte}
    (hp : (e.reg d).val.toNat % 512 = t.pkg.toNat) : e.peerWith d q t l =
      if t.peerHeld t.pkg.toNat ((e.reg d).val.toNat / 65536 % 4096) q.toNat then .wait t (.launch l)
      else .done (t.peerLaunch t.pkg.toNat ((e.reg d).val.toNat / 65536 % 4096) q.toNat l) :=
  if_pos ((peerTarget_pkg ..).2 hp)

/-- R93: GLAUNCH.peer to another package while no cape is trained. -/
theorem GEnv.peerWith_stuck {e : GEnv} {d : BitVec 5} {q : BitVec 6} {t : State} {l : List Byte}
    (hp : (e.reg d).val.toNat % 512 ≠ t.pkg.toNat) (hc : t.outCape? = none) : e.peerWith d q t l = .wait t (.launch l) := by
  refine (if_neg (mt (peerTarget_pkg _ _).1 hp)).trans ?_
  simp only [hc]

/-- R93, R370: GLAUNCH.peer to another package by a cape. -/
theorem GEnv.peerWith_sent {e : GEnv} {d : BitVec 5} {q : BitVec 6} {t : State} {l : List Byte} {c : Nat}
    (hp : (e.reg d).val.toNat % 512 ≠ t.pkg.toNat) (hc : t.outCape? = some c) : e.peerWith d q t l =
      .wait (t.sendBy c (launchFlitOf t.pkg (BitVec.ofNat 9 (e.reg d).val.toNat)
        ((e.reg d).val.toNat / 65536 % 4096) q l)) (.peer c (t.cape c).sendSeq) := by
  refine (if_neg (mt (peerTarget_pkg _ _).1 hp)).trans ?_
  simp only [hc, peerTarget, BitVec.ofNat_toNat]

/-- R92, R93, R323. -/
theorem launchWordsComplete : Claims.LaunchWordsComplete := by
  intro s core slot b a q h va has hasPeer
  refine ⟨fun hw ha d => ?misaligned, fun hw ha => ⟨fun hack => ?ack, fun hack d => ?peerAck⟩, fun s1 l hs => ?launch,
    fun d s1 l => ?peer⟩
  case misaligned =>
    have run {sc : BitVec 3} {k : State → List Byte → GRes} :=
      (GEnv.launch_eq (e := s.genEnv core slot b) (a := a) (sc := sc) (k := k) hw).trans (if_pos ha)
    simp only [List.mem_cons, List.not_mem_nil, or_false, forall_eq_or_imp, forall_eq, exec_glaunch, exec_glaunchPeer]
    exact ⟨gen_traps h run, gen_traps h run⟩
  case ack =>
    rw [exec_glaunch]
    exact gen_waits h (launch_waits hw ha hack _)
  case peerAck =>
    rw [exec_glaunchPeer]
    exact gen_waits h (launch_waits hw ha hack _)
  case launch =>
    rw [exec_glaunch]
    obtain ⟨hrun, ht⟩ := launch_runs h hs fun s l =>
      if s.lqTakes b.ctx q.toNat then .done (s.lqPut b.ctx q.toNat l) else .wait s (.launch l)
    exact ⟨fun hno => gen_waits h (hrun.trans (if_neg fun hc => hno (State.lqTakes_iff.1 hc))),
      fun hyes => gen_goesOn h (State.hasThread_lqPut ht ..) (hrun.trans (if_pos (State.lqTakes_iff.2 hyes)))⟩
  case peer =>
    intro x hs
    rw [exec_glaunchPeer]
    obtain ⟨hrun, ht⟩ := launch_runs h hs ((s.genEnv core slot b).peerWith d q)
    refine ⟨fun hp => ⟨fun hh => ?_, fun hh => ?_⟩, fun hp => ⟨fun hno => ?_, fun c hc hr hk => ?_⟩⟩
    · exact gen_waits h (hrun.trans ((GEnv.peerWith_here (e := s.genEnv core slot b) hp).trans (if_pos hh)))
    · exact gen_goesOn h (State.hasThread_peerLaunch ht ..)
        (hrun.trans ((GEnv.peerWith_here (e := s.genEnv core slot b) hp).trans (if_neg (ne_true_of_eq_false hh))))
    · exact gen_waits h (hrun.trans (GEnv.peerWith_stuck (e := s.genEnv core slot b) hp (State.outCape?_none hno)))
    · exact gen_waits h (hrun.trans (GEnv.peerWith_sent (e := s.genEnv core slot b) hp (State.outCape?_some hc hr hk)))

/-- Settles O41: a mailbox word changes its mailbox alone (`State.onMb_eq`); a launch word goes on with its packet (`launch_runs`). -/
theorem generatorQueueWords : Obligations.GeneratorQueueWords := ⟨generatorMailboxWords, launchWordsComplete⟩

end

end Sys2Proof.Machine
end

section
/-! Mailbox words of a gang (R91, R124): who may write a mailbox, and what a word that writes a uniform register leaves (R117, R120). -/

namespace Sys2Proof.Machine

open Sys2Proof.Claims

section
variable {s : State} {e : Env} {h : How}

/-- A word that is accepted completes with what its meaning answers. -/
theorem wide_gives (he : s.env? = some e) (ha : e.accepts h) {body : Env → Res} {r : Res} (hb : body e = r) :
    wide s h body = .next (e.completes h r) := by
  rw [wide_completes he ha, hb]

/-! ### A uniform register written by a group (R117, R120) -/

/-- A pending result once the slices `m` have written uniform register `w`. -/
def Pend.overwritten (m : BitVec 8) (w : Nat) (p : Pend) : Pend :=
  if p.uniReg = some w ∧ (p.returned = true ∨ p.slices &&& m ≠ 0) then { p with deadUni := true } else p

theorem Pend.returned_overwritten (m : BitVec 8) (w : Nat) (p : Pend) : (p.overwritten m w).returned = p.returned := by
  unfold Pend.overwritten
  split <;> rfl

theorem Pend.slices_overwritten (m : BitVec 8) (w : Nat) (p : Pend) : (p.overwritten m w).slices = p.slices := by
  unfold Pend.overwritten
  split <;> rfl

/-- A result that has returned no longer writes the register. -/
theorem Pend.onUni_overwritten_same (m : BitVec 8) (w : Nat) {p : Pend} (hp : p.returned = true) (y : SVal) :
    (p.overwritten m w).onUni w y = y := by
  unfold Pend.overwritten
  cases hv : p.val with
  | uni d v a => by_cases hd : d.toNat = w <;> simp [Pend.onUni, Pend.uniReg, hv, hd, hp]
  | _ => split <;> simp [Pend.onUni, hv]

theorem Pend.onUni_overwritten_ne (m : BitVec 8) {w i : Nat} (hi : i ≠ w) (p : Pend) (y : SVal) :
    (p.overwritten m w).onUni i y = p.onUni i y := by
  unfold Pend.overwritten
  cases hv : p.val with
  | uni d v a =>
    by_cases hd : d.toNat = w
    · split <;> simp [Pend.onUni, hv, hd, Ne.symm hi]
    · simp [Pend.uniReg, hv, hd]
  | _ => split <;> simp [Pend.onUni, hv]

theorem Gang.seen_writeW (g : Gang) (m : BitVec 8) (w : Nat) (x : SVal) :
    (g.writeW m w x).seen = g.seen.map (Pend.overwritten m w) := by
  have hr : (Pend.returned ∘ Pend.overwritten m w) = Pend.returned := funext (Pend.returned_overwritten m w)
  calc (g.writeW m w x).seen = (g.pend.map (Pend.overwritten m w)).filter Pend.returned := rfl
    _ = g.seen.map (Pend.overwritten m w) := by rw [List.filter_map, hr]; rfl

theorem Gang.viewW_writeW_same (g : Gang) (k m : BitVec 8) {w : Nat} (x : SVal) (hw : w < 16) :
    (g.writeW k w x).viewW m w = x := by
  have hreg : (g.writeW k w x).wreg w = x := (vat_vput _ _ _ _ _ hw).trans (if_pos rfl)
  rw [Gang.viewW, hreg, Gang.seen_writeW]
  refine List.foldlRecOn (motive := fun y => y = x) _ _ rfl fun y hy p hp => ?_
  obtain ⟨q, hq, rfl⟩ := List.mem_map.1 hp
  rw [Pend.onUni_overwritten_same k w (List.mem_filter.1 hq).2, ite_self, hy]

theorem Gang.viewW_writeW_ne (g : Gang) (k m : BitVec 8) {w i : Nat} (x : SVal) (hlt : i < 16) (hi : i ≠ w) :
    (g.writeW k w x).viewW m i = g.viewW m i := by
  have hreg : (g.writeW k w x).wreg i = g.wreg i := (vat_vput _ _ _ _ _ hlt).trans (if_neg hi)
  rw [Gang.viewW, hreg, Gang.seen_writeW, List.foldl_map]
  simp only [Pend.slices_overwritten, Pend.onUni_overwritten_ne k hi]
  rfl

/-- A word whose meaning writes a uniform register. -/
theorem wide_setsUniform (he : s.env? = some e) (ha : e.accepts h) {d : BitVec 4} {x : SVal} {body : Env → Res}
    (hb : body e = e.resultW d x) : setsUniform e h d x (wide s h body) :=
  ⟨e.g.writeW e.m d.toNat x, rfl, fun m => Gang.viewW_writeW_same _ _ m x d.isLt,
    fun _ hlt hi m => Gang.viewW_writeW_ne _ _ m x hlt hi, wide_gang (f := (·.writeW e.m d.toNat x)) he ha hb⟩

/-! ### Mailboxes (R91, R124) -/

theorem exec_mbwr (sb c : Bool) (m w : BitVec 4) (s : State) : exec (.mbwr sb c m w) s = wide s (engHow sb c) fun e =>
    if (e.b.mb m).canWrite (.group e.gang e.m) then
      .done (e.s.onBlock e.core e.slot (·.onMb m.toNat (·.write (.group e.gang e.m) (e.wreg w)))) none
    else .wait (e.s.onBlock e.core e.slot (·.onMb m.toNat (·.queueW (.group e.gang e.m)))) (.mbwr m) := rfl

theorem exec_mbrd (sb c : Bool) (m d : BitVec 4) (s : State) : exec (.mbrd sb c m d) s = wide s (engHow sb c) fun e =>
    .done (e.pend (e.s.onBlock e.core e.slot (·.onMb m.toNat (·.queueR (.read e.gang e.g.pid))))
      { Pend.new e.m e.pc (.mail d m) 0 with acq := some 2 }) none := rfl

theorem exec_mbpeek (sb c : Bool) (m d : BitVec 4) (s : State) : exec (.mbpeek sb c m d) s = wide s (engHow sb c) fun e =>
    e.resultW d ⟨if (e.b.mb m).full then 1 else 0, ageless⟩ := rfl

/-- R91: a mailbox takes a write when it is empty and no other writer waits before this one. -/
theorem Mailbox.canWrite_iff_first {x : Mailbox} {w : Waiter} :
    x.canWrite w = true ↔ x.full = false ∧ (x.writers = [] ∨ x.writers.head? = some w) := by
  simp [Mailbox.canWrite]

end

/-- Settles O24: MBWR writes or queues by `Mailbox.canWrite`; MBRD queues its read and posts it; MBPEEK writes a uniform register. -/
theorem mailboxWordsComplete : Obligations.MailboxWordsComplete := by
  intro s e sb c m w x he ha hx me read first put
  obtain ⟨hs, -, hb, -⟩ := State.env?_some he
  subst hs hx
  refine ⟨fun hf hw => ?write, fun hno => ?queueW, ?read, ?peek⟩
  case write =>
    rw [exec_mbwr]
    refine wide_gives he ha ((if_pos (Mailbox.canWrite_iff_first.2 ⟨hf, hw⟩)).trans ?_)
    exact congrArg (Res.done · none) (State.onMb_eq hb rfl)
  case queueW =>
    rw [exec_mbwr]
    refine wide_gives he ha ((if_neg fun hcan => ?_).trans (congrArg (Res.wait · _) (State.onMb_eq hb (Mailbox.queueW_eq ..))))
    obtain ⟨hf, hw⟩ := Mailbox.canWrite_iff_first.1 hcan
    exact hno.elim (fun hfull => Bool.false_ne_true (hf.symm.trans hfull)) fun hnot => hnot hw
  case read =>
    rw [exec_mbrd]
    exact wide_gives he ha (congrArg (fun t => Res.done (e.pend t _) none) (State.onMb_eq hb (Mailbox.queueR_eq ..)))
  case peek =>
    rw [exec_mbpeek]
    exact wide_setsUniform he ha rfl

end Sys2Proof.Machine
end

section
/-! Block barriers, wheels, quad and network barriers and barrier objects: the words (R130, R131, R133, R171) and what an arrival of a
gang does by its key (R129, R169). -/

namespace Sys2Proof.Machine

open Sys2Proof.Claims

section
variable {s t : State} {core slot gang : Nat} {b : Block} {g : Gang}

/-! ### Releases of a gang at a network barrier (R129, R175, R182) -/

/-- R182: a load or ATOM of the gang has not returned, or a write is not acknowledged for the scope. -/
def Gang.unreleased (g : Gang) (scope : BitVec 3) : Bool :=
  g.pend.any (fun p => p.isLoad && !p.returned) || !(ackedFor g.outst scope)

theorem State.gang_released (hg : t.gang? core slot gang = some g) (scope : BitVec 3) :
    (t.gang? core slot gang).all (·.released scope) = !(g.unreleased scope) := by
  simp [hg, Gang.released, Gang.unreleased]

/-- R175: a quad barrier orders within a quad, which holds one stash; the wider ones write the stash back. -/
theorem State.scopeBack_net (s : State) (core slot gang : Nat) {level : Nat} (h : level ≤ 4) :
    s.scopeBack core slot gang (netScope level) = if level = 0 then s else s.stashBackAll core slot gang := by
  have hscope : (netScope level).toNat = 3 + level := by
    rw [netScope, BitVec.toNat_ofNat]
    exact Nat.mod_eq_of_lt (by omega)
  rw [State.scopeBack, hscope]
  by_cases h0 : level = 0
  · rw [if_pos h0, if_neg (by omega)]
  · rw [if_neg h0, if_pos (by omega)]

/-! ### The words -/

theorem exec_bar (sb c : Bool) (n : BitVec 4) (s : State) : exec (.bar sb c n) s = wide s (engHow sb c) fun e =>
    if e.b.arrivedAt e.gang n then .fault e.s 0x40 n.toNat
    else .hold e.s (.barArr n) fun s => s.issueArrival e.core e.slot e.gang n.toNat e.m := rfl

theorem exec_bara (sb c : Bool) (n : BitVec 4) (s : State) : exec (.bara sb c n) s = wide s (engHow sb c) fun e =>
    if e.b.arrivedAt e.gang n then .fault e.s 0x40 n.toNat
    else .leave e.s fun s => s.issueArrival e.core e.slot e.gang n.toNat e.m := rfl

theorem exec_barw (sb c : Bool) (n : BitVec 4) (s : State) : exec (.barw sb c n) s = wide s (engHow sb c) fun e =>
    if e.b.arrivedAt e.gang n then .hold e.s (.barDone n) fun t => t else .done e.s none := rfl

theorem exec_fill (sb c : Bool) (n : BitVec 2) (s : State) : exec (.fill sb c n) s = wide s (engHow sb c) fun e =>
    if !(e.b.wheel n.toNat).desc.valid then .fault e.s 0x42 n.toNat
    else if (e.b.wheel n.toNat).held = (e.b.wheel n.toNat).desc.count then .wait e.s .fillDrain
    else .leave e.s fun s => s.issueArrival e.core e.slot e.gang (16 + n.toNat) e.m := rfl

theorem exec_drain (sb c : Bool) (n : BitVec 2) (s : State) : exec (.drain sb c n) s = wide s (engHow sb c) fun e =>
    if !(e.b.wheel n.toNat).desc.valid then .fault e.s 0x42 n.toNat
    else if (e.b.wheel n.toNat).held = 0 then .wait e.s .fillDrain
    else .leave e.s fun s => s.issueArrival e.core e.slot e.gang (20 + n.toNat) e.m := rfl

theorem exec_qbar (sb c : Bool) (n : BitVec 4) (s : State) : exec (.qbar sb c n) s = wide s (engHow sb c) fun e =>
    e.netBar 0 n e.b.feeding := rfl

/-- R131, R132: the scopes at which a block may name a network barrier. -/
def Env.netAllowed (e : Env) (l : BitVec 2) : Bool :=
  e.b.cor && (l != 2 || ((e.s.inst? e.b.node).map fun x => x.recd.podn).getD 0 != 0)

theorem exec_nbar (sb c : Bool) (l : BitVec 2) (n : BitVec 4) (s : State) :
    exec (.nbar sb c l n) s = wide s (engHow sb c) fun e => e.netBar (l.toNat + 1) n (e.netAllowed l) := rfl

theorem exec_bowait (sb c : Bool) (w : BitVec 4) (s : State) : exec (.bowait sb c w) s = wide s (engHow sb c) fun e =>
    if fld (e.wreg w).val 31 0 % 16 ≠ 0 then .fault e.s 0x20 0
    else if e.b.shape.plain < fld (e.wreg w).val 31 0 + 16 then .fault e.s 0x24 0
    else if objReached (BitVec.ofNat 32 (e.b.sp.nat (fld (e.wreg w).val 31 0 + 8) 4)) (BitVec.ofNat 32 (fld (e.wreg w).val 63 32)) then
      .done ((e.s.meetBlock e.core e.slot e.ws).landed e.core e.slot) none
    else .wait e.s (.bowait (fld (e.wreg w).val 31 0)) := rfl

theorem Wheel.held_zero (w : Wheel) : w.held = 0 ↔ w.f = w.p :=
  ⟨fun h => sub_eq_zero.1 (BitVec.eq_of_toNat_eq h), fun h => by simp [Wheel.held, h]⟩

theorem fld_low (x : DWord) : fld x 31 0 = x.toNat % 2 ^ 32 := by simp [fld, bits]

theorem fld_high (x : DWord) : BitVec.ofNat 32 (fld x 63 32) = x.extractLsb' 32 32 := by
  apply BitVec.eq_of_toNat_eq
  simp [fld, bits, BitVec.extractLsb'_toNat, Nat.shiftRight_eq_div_pow]

theorem objReached_iff (x y : Word) : objReached x y = true ↔ (x - y).toNat < 2 ^ 31 := decide_eq_true_iff

section
variable {e : Env} {sb c : Bool}

/-- R130: the words of a block barrier. -/
theorem barWords_complete (he : s.env? = some e) (ha : e.accepts (engHow sb c)) (n : BitVec 4) :
    (e.b.arrivedAt e.gang n = true →
      (∀ i, i = Instr.bar sb c n ∨ i = Instr.bara sb c n →
        exec i s = .next (e.completes (engHow sb c) (.fault e.s 0x40 n.toNat))) ∧
      exec (.barw sb c n) s = .next (e.completes (engHow sb c) (.hold e.s (.barDone n) fun t => t))) ∧
    (e.b.arrivedAt e.gang n = false →
      exec (.bar sb c n) s = .next (e.completes (engHow sb c)
        (.hold e.s (.barArr n) fun t => t.issueArrival e.core e.slot e.gang n.toNat e.m)) ∧
      exec (.bara sb c n) s = .next (e.completes (engHow sb c)
        (.leave e.s fun t => t.issueArrival e.core e.slot e.gang n.toNat e.m)) ∧
      exec (.barw sb c n) s = .next (e.completes (engHow sb c) (.done e.s none))) := by
  refine ⟨fun h => ⟨?_, ?_⟩, fun h => ⟨?_, ?_, ?_⟩⟩
  · rintro i (rfl | rfl)
    · rw [exec_bar]; exact wide_gives he ha (if_pos h)
    · rw [exec_bara]; exact wide_gives he ha (if_pos h)
  · rw [exec_barw]; exact wide_gives he ha (if_pos h)
  · rw [exec_bar]; exact wide_gives he ha (if_neg (ne_true_of_eq_false h))
  · rw [exec_bara]; exact wide_gives he ha (if_neg (ne_true_of_eq_false h))
  · rw [exec_barw]; exact wide_gives he ha (if_neg (ne_true_of_eq_false h))

end

/-! ### Quad and network barrier words (R131, R182) -/

theorem Env.netBar_refused (e : Env) (level : Nat) (n : BitVec 4) : e.netBar level n false = .fault e.s 0x41 0 := rfl

theorem Env.netBar_twice {e : Env} {level : Nat} {n : BitVec 4} (h : (Tbl.get? e.g.arr (132 + 16 * level + n.toNat)).isSome = true) :
    e.netBar level n true = .fault e.s 0x40 n.toNat := if_pos h

/-- The first arrival word: a release, at which the group waits or which it passes. -/
theorem Env.netBar_first {e : Env} {level : Nat} {n : BitVec 4} (hn : Tbl.get? e.g.arr (132 + 16 * level + n.toNat) = none)
    (ht : e.s.scopeBack e.core e.slot e.gang (netScope level) = t) (hg : t.gang? e.core e.slot e.gang = some g) :
    e.netBar level n true = if g.unreleased (netScope level) then .wait t .release
      else .hold t (netArr level n.toNat) fun u => u.issueArrival e.core e.slot e.gang (32 + 16 * level + n.toNat) e.m := by
  have hno : (Tbl.get? e.g.arr (arrDone level n.toNat)).isSome ≠ true := by
    rw [arrDone, hn]
    exact Bool.false_ne_true
  refine (if_neg hno).trans ?_
  rw [ht, State.gang_released hg]
  cases g.unreleased (netScope level) <;> rfl

/-! ### The words complete (R130, R131, R133, R171) -/

section
variable {e : Env} {sb c : Bool}

/-- R171: the words of a wheel. -/
theorem wheelWords_complete (he : s.env? = some e) (ha : e.accepts (engHow sb c)) (n : BitVec 2) {w : Wheel}
    (hw : e.b.wheel n.toNat = w) :
    (w.desc.valid = false → ∀ i, i = Instr.fill sb c n ∨ i = Instr.drain sb c n →
      exec i s = .next (e.completes (engHow sb c) (.fault e.s 0x42 n.toNat))) ∧
    (w.desc.valid = true →
      (w.held = w.desc.count → exec (.fill sb c n) s = .next (e.completes (engHow sb c) (.wait e.s .fillDrain))) ∧
      (w.held ≠ w.desc.count → exec (.fill sb c n) s = .next (e.completes (engHow sb c)
        (.leave e.s fun t => t.issueArrival e.core e.slot e.gang (16 + n.toNat) e.m))) ∧
      (w.f = w.p → exec (.drain sb c n) s = .next (e.completes (engHow sb c) (.wait e.s .fillDrain))) ∧
      (w.f ≠ w.p → exec (.drain sb c n) s = .next (e.completes (engHow sb c)
        (.leave e.s fun t => t.issueArrival e.core e.slot e.gang (20 + n.toNat) e.m)))) := by
  subst hw
  refine ⟨fun hv => ?_, fun hv => ?_⟩
  · have hbad : (!(e.b.wheel n.toNat).desc.valid) = true := by rw [hv]; rfl
    rintro i (rfl | rfl)
    · rw [exec_fill]; exact wide_gives he ha (if_pos hbad)
    · rw [exec_drain]; exact wide_gives he ha (if_pos hbad)
  · have hok : ¬(!(e.b.wheel n.toNat).desc.valid) = true := by rw [hv]; exact Bool.false_ne_true
    rw [exec_fill, exec_drain, ne_eq (e.b.wheel n.toNat).f, ← Wheel.held_zero]
    exact ⟨fun h => wide_gives he ha ((if_neg hok).trans (if_pos h)), fun h => wide_gives he ha ((if_neg hok).trans (if_neg h)),
      fun h => wide_gives he ha ((if_neg hok).trans (if_pos h)), fun h => wide_gives he ha ((if_neg hok).trans (if_neg h))⟩

/-- R131, R132: the words of quad and network barriers that the block may name, with their levels. -/
inductive NetWord (e : Env) (sb c : Bool) : Instr → Nat → BitVec 4 → Prop
  | qbar (n : BitVec 4) (h : e.b.feeding = true) : NetWord e sb c (.qbar sb c n) 0 n
  | nbar (l : BitVec 2) (n : BitVec 4) (h : e.netAllowed l = true) : NetWord e sb c (.nbar sb c l n) (l.toNat + 1) n

theorem NetWord.level_le {i : Instr} {level : Nat} {n : BitVec 4} (h : NetWord e sb c i level n) : level ≤ 4 := by
  cases h with
  | qbar => exact Nat.zero_le 4
  | nbar l => exact l.isLt

theorem NetWord.runs {i : Instr} {level : Nat} {n : BitVec 4} (h : NetWord e sb c i level n) (he : s.env? = some e)
    (ha : e.accepts (engHow sb c)) : exec i s = .next (e.completes (engHow sb c) (e.netBar level n true)) := by
  cases h with
  | qbar _ hf => rw [exec_qbar]; exact wide_gives he ha (by rw [hf])
  | nbar l _ hl => rw [exec_nbar]; exact wide_gives he ha (by rw [hl])

theorem Env.netAllowed_iff (e : Env) (l : BitVec 2) : e.netAllowed l = true ↔
    e.b.cor = true ∧ (l = 2 → ((e.s.inst? e.b.node).map fun x => x.recd.podn).getD 0 ≠ 0) := by
  simp [Env.netAllowed, imp_iff_not_or]

/-- R133, R229: BOWAIT. -/
theorem bowait_completes (he : s.env? = some e) (ha : e.accepts (engHow sb c)) (w : BitVec 4) {off : Nat}
    (hoff : (e.wreg w).val.toNat % 2 ^ 32 = off) :
    (off % 16 ≠ 0 → exec (.bowait sb c w) s = .next (e.completes (engHow sb c) (.fault e.s 0x20 0))) ∧
    (off % 16 = 0 → e.b.shape.plain < off + 16 →
      exec (.bowait sb c w) s = .next (e.completes (engHow sb c) (.fault e.s 0x24 0))) ∧
    (off % 16 = 0 → off + 16 ≤ e.b.shape.plain →
      let d := BitVec.ofNat 32 (e.b.sp.nat (off + 8) 4) - (e.wreg w).val.extractLsb' 32 32
      (d.toNat < 2 ^ 31 → exec (.bowait sb c w) s = .next (e.completes (engHow sb c)
        (.done ((e.s.meetBlock e.core e.slot e.ws).landed e.core e.slot) none))) ∧
      (2 ^ 31 ≤ d.toNat → exec (.bowait sb c w) s = .next (e.completes (engHow sb c) (.wait e.s (.bowait off))))) := by
  subst hoff
  rw [exec_bowait, ← fld_low, ← fld_high]
  refine ⟨fun h => ?_, fun h hout => ?_, fun h hin => ⟨fun hd => ?_, fun hd => ?_⟩⟩
  · exact wide_gives he ha (if_pos h)
  · exact wide_gives he ha ((if_neg (not_not_intro h)).trans (if_pos hout))
  · exact wide_gives he ha ((if_neg (not_not_intro h)).trans ((if_neg (Nat.not_lt.2 hin)).trans (if_pos ((objReached_iff ..).2 hd))))
  · exact wide_gives he ha ((if_neg (not_not_intro h)).trans ((if_neg (Nat.not_lt.2 hin)).trans
      (if_neg (mt (objReached_iff ..).1 (Nat.not_lt.2 hd)))))

end

/-- R130, R131, R133, R171. -/
theorem barrierWordsIssue : Claims.BarrierWordsIssue := by
  intro s e sb c he ha
  obtain ⟨hs, -⟩ := State.env?_some he
  subst hs
  refine ⟨fun n => ?bar, fun n => wheelWords_complete he ha n rfl, ⟨?net, fun n hf => ?quad, fun l n hno => ?scope⟩,
    fun w => bowait_completes he ha w rfl⟩
  case bar =>
    obtain ⟨hset, hclear⟩ := barWords_complete he ha n
    exact ⟨fun h => (hset h).1, fun h => (hclear h).1, fun h => (hclear h).2.1, fun h => (hset h).2, fun h => (hclear h).2.2⟩
  case net =>
    intro i level n hi
    have hword : NetWord e sb c i level n := by
      rcases hi with ⟨rfl, rfl, hf⟩ | ⟨l, rfl, rfl, hc, hp⟩
      · exact .qbar n hf
      · exact .nbar l n ((e.netAllowed_iff l).2 ⟨hc, hp⟩)
    rw [hword.runs he ha]
    refine ⟨fun h => by rw [Env.netBar_twice h], fun h => ?_⟩
    intro t g hg
    rw [Env.netBar_first h (State.scopeBack_net _ _ _ _ hword.level_le) hg]
    exact ⟨fun (ho : g.unreleased (netScope level) = true) => by rw [if_pos ho],
      fun (ho : g.unreleased (netScope level) = false) => by rw [if_neg (ne_true_of_eq_false ho)]⟩
  case quad =>
    rw [exec_qbar]
    exact wide_gives he ha (by rw [hf, Env.netBar_refused])
  case scope =>
    have hl : e.netAllowed l = false := by
      refine Bool.eq_false_iff.2 fun h => ?_
      obtain ⟨hc, hp⟩ := (e.netAllowed_iff l).1 h
      exact hno.elim (fun h0 => Bool.false_ne_true (h0.symm.trans hc)) fun h2 => hp h2.1 h2.2
    rw [exec_nbar]
    exact wide_gives he ha (by rw [hl, Env.netBar_refused])

/-! ### Arrivals at the stages of a wheel (R169) -/

theorem Tbl.getD_erase_same {α : Type} {t : Tbl α} (k : Nat) (d : α) (h : rising t = true) : Tbl.getD (Tbl.erase t k) k d = d := by
  rw [Tbl.getD, get?_erase_same k h]

/-- No stage has its phase complete once the one that took the last arrival is cleared. -/
theorem getD_cleared_ne {t : Tbl Nat} (h : rising t = true) {st n x : Nat}
    (ho : ∀ j, j ≠ st → Tbl.getD t j 0 ≠ n + 1) (j : Nat) :
    Tbl.getD (Tbl.erase (Tbl.set t st x) st) j 0 ≠ n + 1 := by
  by_cases hj : j = st
  · rw [hj, Tbl.getD_erase_same _ _ (rising_set st x h)]
    exact (Nat.succ_ne_zero n).symm
  · rw [Tbl.getD_erase_ne _ _ hj, Tbl.getD_set, if_neg hj]
    exact ho j hj

/-- The fill pointer moves on over the stage it is at. -/
def Wheel.fillNext (w : Wheel) : Wheel :=
  { w with fillc := Tbl.erase w.fillc w.fs, f := w.f + 1, fs := (w.fs + 1) % w.desc.count }

theorem Wheel.fillGo_next {w : Wheel} (h : Tbl.getD w.fillc w.fs 0 = w.desc.fills + 1) (n : Nat) :
    w.fillGo (n + 1) = w.fillNext.fillGo n := if_pos h

theorem Wheel.fillGo_stays {w : Wheel} (h : Tbl.getD w.fillc w.fs 0 ≠ w.desc.fills + 1) (n : Nat) : w.fillGo n = w := by
  cases n with
  | zero => rfl
  | succ n => exact if_neg h

/-- The drain pointer moves on over the stage it is at. -/
def Wheel.drainNext (w : Wheel) : Wheel :=
  { w with drainc := Tbl.erase w.drainc w.ps, p := w.p + 1, ps := (w.ps + 1) % w.desc.count }

theorem Wheel.drainGo_next {w : Wheel} (h : Tbl.getD w.drainc w.ps 0 = w.desc.drains + 1) (hf : w.f ≠ w.p) (n : Nat) :
    w.drainGo (n + 1) = w.drainNext.drainGo n := if_pos ⟨h, hf⟩

theorem Wheel.drainGo_stays {w : Wheel} (h : ¬(Tbl.getD w.drainc w.ps 0 = w.desc.drains + 1 ∧ w.f ≠ w.p)) (n : Nat) :
    w.drainGo n = w := by
  cases n with
  | zero => rfl
  | succ n => exact if_neg h

section
variable {w : Wheel} {st : Nat}

/-- A wheel with the count of fill arrivals at stage `st` raised. -/
def Wheel.filled (w : Wheel) (st : Nat) : Wheel := { w with fillc := Tbl.set w.fillc st (Tbl.getD w.fillc st 0 + 1) }

/-- A wheel with the count of drain arrivals at stage `st` raised. -/
def Wheel.drained (w : Wheel) (st : Nat) : Wheel := { w with drainc := Tbl.set w.drainc st (Tbl.getD w.drainc st 0 + 1) }

theorem Wheel.fillArrive_full (h : Tbl.getD w.fillc st 0 = w.desc.fills + 1) : w.fillArrive st = none := if_pos h

theorem Wheel.drainArrive_full (h : Tbl.getD w.drainc st 0 = w.desc.drains + 1) : w.drainArrive st = none := if_pos h

/-- R169: the last fill arrival at the stage of the fill pointer. -/
theorem Wheel.fillArrive_last (hr : rising w.fillc = true) (hn : 1 ≤ w.desc.count) (hc : Tbl.getD w.fillc w.fs 0 = w.desc.fills)
    (ho : ∀ j, j ≠ w.fs → Tbl.getD w.fillc j 0 ≠ w.desc.fills + 1) :
    w.fillArrive w.fs = some (w.filled w.fs).fillNext := by
  obtain ⟨n, hn⟩ := Nat.exists_eq_add_of_le' hn
  refine (if_neg (by omega)).trans (congrArg some ?_)
  rw [hn]
  refine (Wheel.fillGo_next (w := w.filled w.fs) ?_ n).trans (Wheel.fillGo_stays ?_ n)
  · simp [Wheel.filled, hc]
  · exact getD_cleared_ne hr ho _

/-- R169: a fill arrival that does not complete the phase of the stage of the fill pointer. -/
theorem Wheel.fillArrive_counts (hc : Tbl.getD w.fillc st 0 ≠ w.desc.fills + 1)
    (hno : ¬(Tbl.getD w.fillc st 0 = w.desc.fills ∧ st = w.fs))
    (ho : ∀ j, j ≠ st → Tbl.getD w.fillc j 0 ≠ w.desc.fills + 1) : w.fillArrive st = some (w.filled st) := by
  refine (if_neg hc).trans (congrArg some (Wheel.fillGo_stays (w := w.filled st) ?_ _))
  simp only [Wheel.filled, Tbl.getD_set]
  by_cases hs : w.fs = st
  · rw [if_pos hs]
    exact fun h => hno ⟨Nat.succ.inj h, hs.symm⟩
  · rw [if_neg hs]
    exact ho _ hs

/-- R169: the last drain arrival at the stage of the drain pointer, while a stage is filled. -/
theorem Wheel.drainArrive_last (hr : rising w.drainc = true) (hn : 1 ≤ w.desc.count) (hc : Tbl.getD w.drainc w.ps 0 = w.desc.drains)
    (hf : w.f ≠ w.p) (ho : ∀ j, j ≠ w.ps → Tbl.getD w.drainc j 0 ≠ w.desc.drains + 1) :
    w.drainArrive w.ps = some (w.drained w.ps).drainNext := by
  obtain ⟨n, hn⟩ := Nat.exists_eq_add_of_le' hn
  refine (if_neg (by omega)).trans (congrArg some ?_)
  rw [hn]
  refine (Wheel.drainGo_next (w := w.drained w.ps) ?_ hf n).trans (Wheel.drainGo_stays (fun h => ?_) n)
  · simp [Wheel.drained, hc]
  · exact getD_cleared_ne hr ho _ h.1

/-- R169: a drain arrival that does not complete the phase of the stage of the drain pointer, or may not since P is F. -/
theorem Wheel.drainArrive_counts (hc : Tbl.getD w.drainc st 0 ≠ w.desc.drains + 1)
    (hno : ¬(Tbl.getD w.drainc st 0 = w.desc.drains ∧ st = w.ps ∧ w.f ≠ w.p))
    (ho : ∀ j, j ≠ st → Tbl.getD w.drainc j 0 ≠ w.desc.drains + 1) : w.drainArrive st = some (w.drained st) := by
  refine (if_neg hc).trans (congrArg some (Wheel.drainGo_stays (w := w.drained st) (fun h => ?_) _))
  obtain ⟨hfull, hf⟩ := h
  simp only [Wheel.drained, Tbl.getD_set] at hfull
  by_cases hs : w.ps = st
  · rw [if_pos hs] at hfull
    exact hno ⟨Nat.succ.inj hfull, hs.symm, hf⟩
  · rw [if_neg hs] at hfull
    exact ho _ hs hfull

theorem getD_set_ne {t : Tbl Nat} {j : Nat} (x : Nat) (hj : j ≠ st) : Tbl.getD (Tbl.set t st x) j 0 = Tbl.getD t j 0 := by
  rw [Tbl.getD_set, if_neg hj]

theorem getD_cleared_other {t : Tbl Nat} {j : Nat} (x : Nat) (hj : j ≠ st) :
    Tbl.getD (Tbl.erase (Tbl.set t st x) st) j 0 = Tbl.getD t j 0 := by
  rw [Tbl.getD_erase_ne _ _ hj, getD_set_ne x hj]

end

/-- R169, R171. -/
theorem wheelPhasesComplete : Claims.WheelPhasesComplete := by
  intro w st hfr hdr hn
  refine ⟨⟨Wheel.fillArrive_full, fun hc ho => ?fill⟩, ⟨Wheel.drainArrive_full, fun hc ho => ?drain⟩⟩
  case fill =>
    by_cases hlast : Tbl.getD w.fillc st 0 = w.desc.fills ∧ st = w.fs
    · obtain ⟨hcount, rfl⟩ := hlast
      exact ⟨_, Wheel.fillArrive_last hfr hn hcount ho, rfl, fun j hj => getD_cleared_other _ hj,
        fun _ => ⟨rfl, rfl, Tbl.getD_erase_same _ _ (rising_set _ _ hfr)⟩, fun hno => absurd ⟨hcount, rfl⟩ hno⟩
    · exact ⟨_, Wheel.fillArrive_counts hc hlast ho, rfl, fun j hj => getD_set_ne _ hj, fun h => absurd h hlast,
        fun _ => ⟨rfl, rfl, Tbl.getD_set_same ..⟩⟩
  case drain =>
    by_cases hlast : Tbl.getD w.drainc st 0 = w.desc.drains ∧ st = w.ps ∧ w.f ≠ w.p
    · obtain ⟨hcount, rfl, hf⟩ := hlast
      exact ⟨_, Wheel.drainArrive_last hdr hn hcount hf ho, rfl, fun j hj => getD_cleared_other _ hj,
        fun _ => ⟨rfl, rfl, Tbl.getD_erase_same _ _ (rising_set _ _ hdr)⟩, fun hno => absurd ⟨hcount, rfl, hf⟩ hno⟩
    · exact ⟨_, Wheel.drainArrive_counts hc hlast ho, rfl, fun j hj => getD_set_ne _ hj, fun h => absurd h hlast,
        fun _ => ⟨rfl, rfl, Tbl.getD_set_same ..⟩⟩

/-! ### An arrival by its key (R129) -/

theorem State.fillArrive_takes {i st : Nat} {x : Wheel} (hb : s.block? core slot = some b) (hx : (b.wheel i).fillArrive st = some x) :
    s.fillArrive core slot i st = s.setBlock core slot (b.setWheel i x) := by
  simp [State.fillArrive, hb, hx]

theorem State.fillArrive_discards {i st : Nat} (hb : s.block? core slot = some b) (hx : (b.wheel i).fillArrive st = none) :
    s.fillArrive core slot i st = s.wheelDiscard core b.ctx := by
  simp [State.fillArrive, hb, hx]

theorem State.drainArrive_takes {i st : Nat} {x : Wheel} (hb : s.block? core slot = some b) (hx : (b.wheel i).drainArrive st = some x) :
    s.drainArrive core slot i st = s.setBlock core slot (b.setWheel i x) := by
  simp [State.drainArrive, hb, hx]

theorem State.drainArrive_discards {i st : Nat} (hb : s.block? core slot = some b) (hx : (b.wheel i).drainArrive st = none) :
    s.drainArrive core slot i st = s.wheelDiscard core b.ctx := by
  simp [State.drainArrive, hb, hx]

theorem State.arrive_bar (s : State) (core slot gang : Nat) (n : BitVec 4) :
    s.arrive core slot gang n.toNat = s.barArrive core slot gang n := by
  rw [State.arrive, if_pos n.isLt, BitVec.ofNat_toNat, BitVec.setWidth_eq]

theorem State.arrive_fill (hb : s.block? core slot = some b) (gang : Nat) {n : Nat} (hn : n < 4) :
    s.arrive core slot gang (16 + n) = s.fillArrive core slot n (b.wheel n).fs := by
  rw [State.arrive, if_neg (by omega), if_pos (by omega), hb, Nat.add_sub_cancel_left]

theorem State.arrive_drain (hb : s.block? core slot = some b) (gang : Nat) {n : Nat} (hn : n < 4) :
    s.arrive core slot gang (20 + n) = s.drainArrive core slot n (b.wheel n).ps := by
  rw [State.arrive, if_neg (by omega), if_neg (by omega), if_pos (by omega), hb, Nat.add_sub_cancel_left]

theorem State.arrive_net (s : State) (core slot gang level : Nat) {n : Nat} (hn : n < 16) :
    s.arrive core slot gang (32 + 16 * level + n) = s.netGang core slot gang level n := by
  rw [State.arrive, if_neg (by omega), if_neg (by omega), if_neg (by omega),
    show (32 + 16 * level + n - 32) / 16 = level by omega, show (32 + 16 * level + n) % 16 = n by omega]

/-- R130: the block of a gang that has arrived at a block barrier; the acquires that follow change no block. -/
theorem State.block?_barArrive (hb : s.block? core slot = some b) (gang : Nat) (n : BitVec 4) :
    (s.barArrive core slot gang n).block? core slot = some (b.barArrive gang n) := by
  have ht : (s.onBlock core slot (·.barArrive gang n)).block? core slot = some (b.barArrive gang n) := by
    rw [State.block?_onBlock_same, hb, Option.map_some]
  unfold State.barArrive
  dsimp only
  split
  · exact ht
  · exact (State.block?_join ..).trans ht

/-- R129, R169, R171. -/
theorem arrivalsAct : Claims.ArrivalsAct := by
  intro s core slot gang b hb
  refine ⟨fun n => ?bar, fun n hn => ?wheel, fun level n _ hn => s.arrive_net core slot gang level hn⟩
  case bar => rw [State.arrive_bar, State.block?_barArrive hb]
  case wheel =>
    rw [State.arrive_fill hb gang hn, State.arrive_drain hb gang hn]
    exact ⟨fun x hx => State.fillArrive_takes hb hx, fun hx => State.fillArrive_discards hb hx,
      fun x hx => State.drainArrive_takes hb hx, fun hx => State.drainArrive_discards hb hx⟩

end

/-- Settles O25: the words by `wide_gives`; a wheel's pointer moves over the one stage whose phase an arrival completes
(`Wheel.fillArrive_last`, `Wheel.drainArrive_last`); an arrival acts by the range of its key. -/
theorem barrierWordsComplete : Obligations.BarrierWordsComplete := ⟨barrierWordsIssue, wheelPhasesComplete, arrivalsAct⟩

end Sys2Proof.Machine
end

section
/-! When a gang arrives at a barrier or wheel, and what the last arrival at a block, quad, die, package or pod barrier does (R129 to
R132). -/

namespace Sys2Proof.Machine

open Sys2Proof.Claims

section
variable {s : State} {core slot gang k : Nat} {g : Gang}

/-! ### A gang arrives (R129) -/

theorem Tbl.getD_eq {α : Type} (t : Tbl α) (k : Nat) (d : α) : Tbl.getD t k d = (Tbl.get? t k).getD d := by
  unfold Tbl.getD
  cases Tbl.get? t k <;> rfl

/-- No live slice of the gang has yet to issue the word of key `k`. -/
def Gang.allIssued (g : Gang) (k : Nat) : Prop :=
  g.live ≠ 0 ∧ ∀ j, j < 8 → g.live.getLsbD j = true → vat (arrVec g.arr k) 0 j ≠ 0

/-- The gang with one word of each live slice taken for an arrival. -/
def Gang.taken (g : Gang) (k : Nat) : Gang :=
  { g with arr := Tbl.set g.arr k (vec 8 fun j => if g.live.getLsbD j then vat (arrVec g.arr k) 0 j - 1 else 0) }

theorem Gang.allIssued_iff : g.allIssued k ↔
    g.live ≠ 0 ∧ ((List.range 8).all fun j => !g.live.getLsbD j || vat (arrVec g.arr k) 0 j != 0) = true := by
  simp [Gang.allIssued, imp_iff_not_or]

theorem Gang.arrived_of_all (h : g.allIssued k) : g.arrived k = some (g.taken k) := if_pos (Gang.allIssued_iff.1 h)

theorem Gang.arrived_of_missing (h : ¬g.allIssued k) : g.arrived k = none := if_neg (mt Gang.allIssued_iff.2 h)

theorem State.tryArrive_of_all (hg : s.gang? core slot gang = some g) (h : g.allIssued k) :
    s.tryArrive core slot gang k = (s.onGang core slot gang fun _ => g.taken k).arrive core slot gang k := by
  simp [State.tryArrive, hg, Gang.arrived_of_all h]

theorem State.tryArrive_of_missing (hg : s.gang? core slot gang = some g) (h : ¬g.allIssued k) :
    s.tryArrive core slot gang k = s := by
  simp [State.tryArrive, hg, Gang.arrived_of_missing h]

theorem State.gang?_onGang_const (hg : s.gang? core slot gang = some g) (g' : Gang) :
    (s.onGang core slot gang fun _ => g').gang? core slot gang = some g' := by
  rw [State.gang?_onGang_same, hg, Option.map_some]

/-- The words of a slice once the slices `m` have issued one more. -/
theorem Gang.vat_issued (g : Gang) (k : Nat) (m : BitVec 8) {j : Nat} (hj : j < 8) :
    vat (arrVec (g.issued k m).arr k) 0 j =
      vat ((Tbl.get? g.arr k).getD (Vector.replicate 8 0)) 0 j + if m.getLsbD j then 1 else 0 := by
  rw [arrVec, Gang.issued, Tbl.getD_set_same, vat_vec _ _ _ _ hj, arrVec, Tbl.getD_eq]

theorem Gang.get?_issued_ne (g : Gang) {k i : Nat} (m : BitVec 8) (hi : i ≠ k) :
    Tbl.get? (g.issued k m).arr i = Tbl.get? g.arr i := Tbl.get?_set_ne _ _ hi

theorem Gang.get?_issued (g : Gang) (k : Nat) (m : BitVec 8) :
    Tbl.get? (g.issued k m).arr k = some (arrVec (g.issued k m).arr k) := by
  rw [arrVec, Gang.issued, Tbl.getD_set_same, Tbl.get?_set_same]

/-- R129. -/
theorem gangsArrive : Claims.GangsArrive := by
  intro s core slot gang k g m hg n all
  have hall : (g.issued k m).allIssued k ↔ all := by
    refine and_congr Iff.rfl (forall_congr' fun j => forall_congr' fun hj => ?_)
    rw [Gang.vat_issued g k m hj]
    rfl
  have hconst : s.onGang core slot gang (·.issued k m) = s.onGang core slot gang fun _ => g.issued k m :=
    State.onGang_congr _ _ _ _ _ _ hg rfl
  have hg' := State.gang?_onGang_const hg (g.issued k m)
  by_cases ha : all
  · refine ⟨((g.issued k m).taken k).arr, fun i hi => ?_, ⟨_, Tbl.get?_set_same .., fun _ j hj => ?_, fun hno => absurd ha hno⟩,
      fun _ => ?_, fun hno => absurd ha hno⟩
    · rw [Gang.taken, Tbl.get?_set_ne _ _ hi, Gang.get?_issued_ne g m hi]
    · rw [vat_vec _ _ _ _ hj, Gang.vat_issued g k m hj]
      rfl
    · rw [State.issueArrival, hconst, State.tryArrive_of_all hg' (hall.2 ha), State.onGang_onGang]
      rfl
  · refine ⟨(g.issued k m).arr, fun i hi => Gang.get?_issued_ne g m hi,
      ⟨_, Gang.get?_issued g k m, fun h => absurd h ha, fun _ j hj => Gang.vat_issued g k m hj⟩,
      fun h => absurd h ha, fun _ => ?_⟩
    rw [State.issueArrival, hconst, State.tryArrive_of_missing hg' (mt hall.1 ha)]
    rfl

/-! ### A block barrier (R130) -/

/-- A group goes on after the word that it waits at. -/
def Group.goOn (y : Group) : Group := { y with wait := .none, pc := y.pc + 1, held := none }

theorem Gang.rewait_eq (g : Gang) (a d : WWait) : g.rewait (· == a) d =
    { g with groups := g.groups.map fun y => if y.wait = a then { y with wait := d } else y } := by
  simp [Gang.rewait]

theorem Gang.release_eq (g : Gang) (d : WWait) : g.release (· == d) =
    { g with groups := g.groups.map fun y => if y.wait = d then y.goOn else y } := by
  simp [Gang.release, Group.goOn]

/-- Groups that have arrived and groups that wait for the completion go on alike. -/
theorem Gang.release_rewait (g : Gang) (a d : WWait) : (g.rewait (· == a) d).release (· == d) =
    { g with groups := g.groups.map fun y => if y.wait = d ∨ y.wait = a then y.goOn else y } := by
  rw [Gang.release_eq, Gang.rewait_eq, List.map_map]
  congr 1
  refine List.map_congr_left fun y _ => ?_
  by_cases ha : y.wait = a
  · simp [ha, Group.goOn]
  · simp [ha]

section
variable {x : Block} {i : Nat} {b : BitVec 4}

/-- The arrival mask of a barrier with the bit of gang `i`. -/
def Block.barMask (x : Block) (i : Nat) (b : BitVec 4) : BitVec 16 :=
  (vat x.bars ⟨0, false⟩ b.toNat).mask ||| BitVec.ofNat 16 (2 ^ i)

theorem Block.barArrive_waits (h : x.barMask i b ≠ x.shape.allGangs) : x.barArrive i b =
    { x with
      gangs := modAt x.gangs i (·.rewait (· == .barArr b) (.barDone b))
      bars := vput x.bars b.toNat ⟨x.barMask i b, (vat x.bars ⟨0, false⟩ b.toNat).phase⟩ } := if_neg h

theorem Block.barArrive_completes (h : x.barMask i b = x.shape.allGangs) : x.barArrive i b =
    { x with
      gangs := (modAt x.gangs i (·.rewait (· == .barArr b) (.barDone b))).map (·.release (· == .barDone b))
      bars := vput x.bars b.toNat ⟨0, !(vat x.bars ⟨0, false⟩ b.toNat).phase⟩ } := if_pos h

end

/-- R130. -/
theorem lastArrivalCompletes : Claims.LastArrivalCompletes := by
  intro x i b hi old mask
  have hbar (z : Bar) : vat (vput x.bars b.toNat z) ⟨0, false⟩ b.toNat = z := (vat_vput _ _ _ _ _ b.isLt).trans (if_pos rfl)
  refine ⟨fun hm => ?waits, fun hm => ?completes⟩
  case waits =>
    rw [Block.barArrive_waits hm]
    refine ⟨hbar _, fun k g hk hg => ?_, fun g hg => ?_⟩
    · rw [getElem?_modAt, if_neg hk, hg]
    · rw [getElem?_modAt, if_pos rfl, hg, Option.map_some, Gang.rewait_eq]
  case completes =>
    rw [Block.barArrive_completes hm]
    refine ⟨hbar _, fun k g hg => ?_⟩
    intro go l
    rw [List.getElem?_map, getElem?_modAt, hg]
    by_cases hk : k = i
    · rw [if_pos hk, Option.map_some, Option.map_some, Gang.release_rewait]
      simp [l, hk, go, Group.goOn]
    · rw [if_neg hk, Option.map_some, Gang.release_eq]
      simp [l, hk, go, Group.goOn]

/-! ### Quad and network barriers: the gangs of a block (R129) -/

/-- A gang that has arrived at a quad or network barrier. -/
def Gang.netArrived (g : Gang) (level b : Nat) : Gang :=
  { g with
    groups := g.groups.map fun y => if y.wait = netArr level b then { y with wait := netDone level b } else y
    arr := Tbl.set g.arr (132 + 16 * level + b) (Vector.replicate 8 1) }

/-- A gang has arrived at a quad or network barrier. -/
def Gang.atNet (level b : Nat) (g : Gang) : Bool := (Tbl.get? g.arr (132 + 16 * level + b)).isSome

theorem Gang.atNet_netArrived (g : Gang) (level b : Nat) : (g.netArrived level b).atNet level b = true := by
  rw [Gang.atNet, Gang.netArrived, Tbl.get?_set_same, Option.isSome_some]

theorem State.netGang_eq {x : Block} (hb : s.block? core slot = some x) (hg : x.gangs[gang]? = some g) (level b : Nat) :
    s.netGang core slot gang level b =
      let t := s.onGang core slot gang fun _ => g.netArrived level b
      if (modAt x.gangs gang fun _ => g.netArrived level b).all (Gang.atNet level b) then t.netArrive core x.node x.lin level b
      else t := by
  have hgang : s.gang? core slot gang = some g := by simp [State.gang?, hb, hg]
  have hf : ({ g.rewait (· == netArr level b) (netDone level b) with
      arr := Tbl.set g.arr (arrDone level b) (Vector.replicate 8 1) } : Gang) = g.netArrived level b := by
    rw [Gang.rewait_eq]
    rfl
  have hblock : (s.onGang core slot gang fun _ => g.netArrived level b).block? core slot =
      some (x.onGang gang fun _ => g.netArrived level b) := by
    rw [State.block?_onGang_same, hb, Option.map_some]
  unfold State.netGang
  dsimp only
  rw [State.onGang_congr s core slot gang _ (fun _ => g.netArrived level b) hgang hf, hblock]
  rfl

/-- The gangs of a block with one more arrived: all of them have, if all others had. -/
theorem all_atNet_modAt {l : List Gang} (hg : l[gang]? = some g) (level b : Nat) :
    (modAt l gang fun _ => g.netArrived level b).all (Gang.atNet level b) = true ↔
      ∀ i h, i ≠ gang → l[i]? = some h → Gang.atNet level b h = true := by
  rw [List.all_eq_true]
  constructor
  · intro hall i h hi hl
    refine hall h (List.mem_of_getElem? (i := i) ?_)
    rw [getElem?_modAt, if_neg hi, hl]
  · intro hoth z hz
    obtain ⟨i, hi⟩ := List.getElem?_of_mem hz
    rw [getElem?_modAt] at hi
    by_cases h : i = gang
    · rw [if_pos h, h, hg, Option.map_some, Option.some.injEq] at hi
      rw [← hi, Gang.atNet_netArrived]
    · rw [if_neg h] at hi
      exact hoth i z h hi

/-! ### Quad and network barriers: the blocks of a node (R129, R131) -/

/-- The block in a slot is `y`, and no table of cores lists another in that place. -/
structure State.HoldsOnly (s : State) (c sl : Nat) (y : Block) : Prop where
  block : s.block? c sl = some y
  only : ∀ z, (c, sl, z) ∈ s.blocks → z = y

theorem State.mem_blocks {c sl : Nat} {y : Block} : (c, sl, y) ∈ s.blocks ↔ ∃ x, (c, x) ∈ s.cores ∧ (sl, y) ∈ x.blocks := by
  simp only [State.blocks, List.mem_flatMap, List.mem_map, Prod.mk.injEq]
  constructor
  · rintro ⟨⟨_, x⟩, hx, ⟨_, _⟩, hq, rfl, rfl, rfl⟩
    exact ⟨x, hx, hq⟩
  · rintro ⟨x, hx, hq⟩
    exact ⟨(c, x), hx, (sl, y), hq, rfl, rfl, rfl⟩

/-- The blocks that a core reads are listed. -/
theorem State.mem_blocks_of_core {c sl : Nat} {y : Block} (h : (sl, y) ∈ (s.core c).blocks) : (c, sl, y) ∈ s.blocks := by
  unfold State.core Tbl.getD at h
  cases hc : Tbl.get? s.cores c with
  | none => rw [hc] at h; exact absurd h List.not_mem_nil
  | some x => rw [hc] at h; exact State.mem_blocks.2 ⟨x, Tbl.mem_of_get? hc, h⟩

theorem State.mem_blocks_of_block? {c sl : Nat} {y : Block} (h : s.block? c sl = some y) : (c, sl, y) ∈ s.blocks :=
  State.mem_blocks_of_core (Tbl.mem_of_get? h)

theorem State.holdsOnly_of_nodup (hn : (s.blocks.map fun p => (p.1, p.2.1)).Nodup) {c sl : Nat} {y : Block}
    (h : s.block? c sl = some y) : s.HoldsOnly c sl y := by
  refine ⟨h, fun z hz => ?_⟩
  have heq := List.inj_on_of_nodup_map hn hz (State.mem_blocks_of_block? h) rfl
  simpa using heq

/-- An emptied L1 leaves the blocks. -/
theorem State.HoldsOnly.l1Flush {c sl : Nat} {y : Block} (h : s.HoldsOnly c sl y) (d : Nat) : (s.l1Flush d).HoldsOnly c sl y := by
  refine ⟨?_, fun z hz => h.only z ?_⟩
  · rw [← h.block, State.block?, State.l1Flush, State.core_setCore]
    by_cases hd : c = d
    · rw [if_pos hd, hd]; rfl
    · rw [if_neg hd]; rfl
  · obtain ⟨x, hx, hq⟩ := State.mem_blocks.1 hz
    rcases Tbl.mem_set hx with hx | hx
    · obtain ⟨rfl, rfl⟩ := Prod.mk.inj hx
      exact State.mem_blocks_of_core hq
    · exact State.mem_blocks.2 ⟨x, hx, hq⟩

theorem State.HoldsOnly.nodeFlush {c sl : Nat} {y : Block} (h : s.HoldsOnly c sl y) (node : DWord) (p : Nat → Bool) :
    (s.nodeFlush node p).HoldsOnly c sl y := by
  refine List.foldlRecOn (motive := fun t => State.HoldsOnly t c sl y) _ _ h fun t ht e _ => ?_
  split
  · exact ht.l1Flush _
  · exact ht

theorem State.HoldsOnly.join {c sl : Nat} {y : Block} (h : s.HoldsOnly c sl y) (ws : List Who) (p : Who → Bool) :
    (s.join ws p).HoldsOnly c sl y := ⟨h.block, h.only⟩

/-- A change of the blocks of a list that are chosen by `q`, the list giving a place one block. -/
theorem block?_foldl_setBlock (q : Nat × Nat × Block → Prop) [DecidablePred q] (f : Block → Block) {c sl : Nat} {y : Block}
    (l : List (Nat × Nat × Block)) (hl : ∀ z, (c, sl, z) ∈ l → z = y) (s : State) :
    (l.foldl (fun s e => if q e then s.setBlock e.1 e.2.1 (f e.2.2) else s) s).block? c sl =
      if q (c, sl, y) ∧ (c, sl, y) ∈ l then some (f y) else s.block? c sl := by
  induction l generalizing s with
  | nil => simp
  | cons e r ih =>
    rw [List.foldl_cons, ih (fun z hz => hl z (List.mem_cons_of_mem _ hz))]
    by_cases hr : q (c, sl, y) ∧ (c, sl, y) ∈ r
    · rw [if_pos hr, if_pos ⟨hr.1, List.mem_cons_of_mem _ hr.2⟩]
    · rw [if_neg hr]
      by_cases hp : c = e.1 ∧ sl = e.2.1
      · have he : e = (c, sl, y) := by
          obtain ⟨d, k, z⟩ := e
          obtain ⟨rfl, rfl⟩ := hp
          rw [hl z List.mem_cons_self]
        subst he
        by_cases hq : q (c, sl, y)
        · rw [if_pos hq, if_pos ⟨hq, List.mem_cons_self⟩, State.block?_setBlock_same]
        · rw [if_neg hq, if_neg fun h => hq h.1]
      · have hne : (c, sl, y) ≠ e := fun h => hp (by rw [← h]; exact ⟨rfl, rfl⟩)
        have hmem : ¬(q (c, sl, y) ∧ (c, sl, y) ∈ e :: r) := fun hx => hr ⟨hx.1, (List.mem_cons.1 hx.2).resolve_left hne⟩
        rw [if_neg hmem]
        by_cases hq : q e
        · rw [if_pos hq, State.block?_setBlock, if_neg hp]
        · rw [if_neg hq]

/-- What a change of the blocks of a node makes of one block. -/
theorem State.HoldsOnly.block?_onNode {c sl : Nat} {y : Block} (h : s.HoldsOnly c sl y) (node : DWord) (p : Nat → Bool)
    (f : Block → Block) : (s.onNode node p f).block? c sl = some (if y.node = node ∧ p (isleOf c) = true then f y else y) := by
  refine (block?_foldl_setBlock (fun e => e.2.2.node = node ∧ p (isleOf e.1) = true) f s.blocks h.only s).trans ?_
  rw [h.block]
  by_cases hq : y.node = node ∧ p (isleOf c) = true
  · rw [if_pos ⟨hq, State.mem_blocks_of_block? h.block⟩, if_pos hq]
  · rw [if_neg fun hx => hq hx.1, if_neg hq]

/-- A fold of steps each of which changes `cores` alone changes `cores` alone. -/
theorem foldl_cores_frame {α : Type} (l : List α) (f : State → α → State)
    (h : ∀ s a, f s a = { s with cores := (f s a).cores }) (s : State) :
    l.foldl f s = { s with cores := (l.foldl f s).cores } := by
  induction l generalizing s with
  | nil => rfl
  | cons a r ih =>
    rw [List.foldl_cons, ih (f s a), h s a]

theorem State.nodeFlush_frame (s : State) (node : DWord) (p : Nat → Bool) :
    s.nodeFlush node p = { s with cores := (s.nodeFlush node p).cores } :=
  foldl_cores_frame _ _ (fun s e => by split <;> rfl) s

theorem State.onNode_frame (s : State) (node : DWord) (p : Nat → Bool) (f : Block → Block) :
    s.onNode node p f = { s with cores := (s.onNode node p f).cores, saved := (s.onNode node p f).saved } := by
  unfold State.onNode
  rw [foldl_cores_frame s.blocks _ (fun s e => by split <;> rfl) s]

/-! ### Quad and network barriers: the counts (R131) -/

theorem State.net_keys (s : State) (node : DWord) (level isle b : Nat) :
    (s.net node level isle b).node = node ∧ (s.net node level isle b).level = level ∧
      (s.net node level isle b).isle = isle ∧ (s.net node level isle b).b = b := by
  unfold State.net
  cases hf : s.nets.find? fun n => n.node == node && n.level == level && n.isle == isle && n.b == b with
  | none => exact ⟨rfl, rfl, rfl, rfl⟩
  | some n => simpa [and_assoc] using List.find?_some hf

/-- A barrier completed (R131). -/
def Net.completed (n : Net) : Net := { n with count := 0, phase := !n.phase, arrived := [] }

/-- The completed barrier, where it stands first in its table. -/
theorem State.net_netComplete {n : Net} {r : List Net} (h : s.nets = n :: r) :
    (s.netComplete n.node n.level n.isle n.b).net n.node n.level n.isle n.b = n.completed := by
  have hnets : (s.netComplete n.node n.level n.isle n.b).nets = n.completed :: r.map fun x =>
      if x.node = n.node ∧ x.level = n.level ∧ x.isle = n.isle ∧ x.b = n.b then x.completed else x := by
    rw [State.netComplete, State.onNode_frame]
    dsimp only
    rw [State.join_frame, State.nodeFlush_frame]
    simp [h, Net.completed]
  rw [State.net, hnets, List.find?_cons_of_pos (by simp [Net.completed]), Option.getD_some]

theorem State.netComplete_mem (s : State) (node : DWord) (level isle b : Nat) : (s.netComplete node level isle b).mem = s.mem := by
  rw [State.netComplete, State.onNode_frame]
  dsimp only
  rw [State.join_frame, State.nodeFlush_frame]

/-- A gang after the completion of a quad or network barrier. -/
theorem Gang.netRelease_eq (g : Gang) (level b : Nat) : g.netRelease level b = { g with
    groups := g.groups.map fun y => if y.wait = netDone level b then y.goOn else y
    arr := Tbl.erase g.arr (132 + 16 * level + b) } := by
  rw [Gang.netRelease, Gang.release_eq]
  rfl

/-- R131: the blocks of the node, on the barrier's die for a die barrier, go on. -/
theorem State.block?_netComplete {c sl : Nat} {y : Block} (h : s.HoldsOnly c sl y) (node : DWord) (level isle b : Nat) :
    (s.netComplete node level isle b).block? c sl = some (
      if y.node = node ∧ (level = 1 → isleOf c = isle) then y.mapGangs (·.netRelease level b) else y) := by
  have hnets (l : List Net) : ({ s with nets := l } : State).HoldsOnly c sl y := ⟨h.block, h.only⟩
  refine ((((hnets _).nodeFlush node _).join _ _).block?_onNode node _ _).trans ?_
  simp [imp_iff_not_or]

end

/-! ### The arrival of a block (R131, R132) -/

section
variable {s : State} {core : Nat} {node : DWord} {lin level b : Nat}

/-- The isle by which a barrier of a level is told apart: a die barrier's own. -/
def netIsle (level core : Nat) : Nat := if level = 1 then isleOf core else 0

/-- A barrier with one block more. -/
def Net.arrive (n : Net) (lin : Nat) : Net := { n with count := n.count + 1, arrived := n.arrived ++ [lin] }

theorem State.netArrive_eq (s : State) (core : Nat) (node : DWord) (lin level b : Nat) : s.netArrive core node lin level b =
    let n := s.net node level (netIsle level core) b
    let u := s.setNet (n.arrive lin)
    if n.count + 1 < s.netExpect node level (netIsle level core) then u
    else if level = 3 then u.podArrive node b n.phase
    else u.netComplete node level (netIsle level core) b := rfl

end

/-- R129, R131, R132. -/
theorem networkBarriersComplete : Claims.NetworkBarriersComplete := by
  intro s level b
  refine ⟨fun core slot gang x g hb hg => ?gang, fun core node lin => ?block⟩
  case gang =>
    intro t
    have hrun := State.netGang_eq hb hg level b
    refine ⟨fun hmiss => hrun.trans (if_neg fun hall => ?_), fun hall => hrun.trans (if_pos ((all_atNet_modAt hg level b).2 hall))⟩
    obtain ⟨i, h, hi, hl, hno⟩ := hmiss
    have hat := (all_atNet_modAt hg level b).1 hall i h hi hl
    rw [Gang.atNet, hno] at hat
    exact Bool.false_ne_true hat
  case block =>
    intro isle n t u
    have hrun : t = _ := State.netArrive_eq s core node lin level b
    refine ⟨fun hlt => hrun.trans (if_pos hlt),
      fun hge h3 => hrun.trans ((if_neg (Nat.not_lt.2 hge)).trans (if_pos h3)), fun hge h3 => ?_⟩
    have ht : t = u.netComplete node level isle b := hrun.trans ((if_neg (Nat.not_lt.2 hge)).trans (if_neg h3))
    obtain ⟨hnode, hlevel, hisle, hbar⟩ := s.net_keys node level isle b
    rw [ht]
    refine ⟨?net, State.netComplete_mem .., fun hn c sl y hy => ?blocks⟩
    case net =>
      have hnet := State.net_netComplete (s := u) (n := n.arrive lin) rfl
      simp only [Net.arrive, n, hnode, hlevel, hisle, hbar] at hnet
      rw [hnet]
      simp [Net.completed, n, hnode, hlevel, hisle, hbar]
    case blocks =>
      have hold : u.HoldsOnly c sl y := ⟨hy, (State.holdsOnly_of_nodup hn hy).only⟩
      rw [State.block?_netComplete hold]
      refine ⟨fun hin hdie => ?_, fun hout => ?_⟩
      · rw [if_pos ⟨hin, hdie⟩, Block.mapGangs]
        simp only [Gang.netRelease_eq]
        rfl
      · rw [if_neg]
        rintro ⟨hin, hdie⟩
        exact hout.elim (fun h => h hin) fun h => h.2 (hdie h.1)

/-- Settles O26: a gang arrives when no live slice is missing (`Gang.allIssued`); the last arrival releases every gang that waits at the
barrier, and the blocks of the node once each (`State.HoldsOnly`). -/
theorem blockBarrierCompletes : Obligations.BlockBarrierCompletes := ⟨gangsArrive, lastArrivalCompletes, networkBarriersComplete⟩

end Sys2Proof.Machine
end

section
/-! Control words (R158 to R160), the rendezvous (R111), and what is left of a gang that some of its slices leave (R112, R129). -/

namespace Sys2Proof.Machine

open Sys2Proof.Claims

section
variable {s : State} {core slot gang : Nat} {g : Gang} {m : BitVec 8} {o : Word}

/-! ### The words -/

theorem exec_nop (sb c : Bool) (s : State) : exec (.nop sb c) s = wide s (ctlHow sb c) fun e => .done e.s none := rfl

theorem exec_regang (sb c : Bool) (k : BitVec 8) (s : State) : exec (.regang sb c k) s = wide s (ctlHow sb c) fun e =>
    .hold e.s (.regang k) fun t => t.onGang e.core e.slot e.gang fun g => g.regangTry e.pc k := rfl

theorem exec_pause (sb c : Bool) (n : BitVec 12) (s : State) : exec (.pause sb c n) s = wide s (ctlHow sb c) fun e =>
    .done (e.onGang fun g => { g with pause := if g.pause.ult n then n else g.pause }) none := rfl

/-- The group in hand leaves its gang, with the results of its slices closed. -/
def Env.exits (e : Env) (t : State) : Res :=
  .leave (t.onGang e.core e.slot e.gang fun g => g.close e.m) fun u => u.exitSlices e.core e.slot e.gang e.m e.pc

/-- R129, R182: an EXIT with which the gang arrives at a barrier of a level is a release. -/
def Env.exitsAt (e : Env) (level : Nat) : Res :=
  let t := e.s.scopeBack e.core e.slot e.gang (netScope level)
  if (t.gang? e.core e.slot e.gang).all (·.released (netScope level)) then e.exits t else .wait t .release

/-- The meaning of EXIT. -/
def Env.exit (e : Env) : Res :=
  if e.g.awaits e.m then .wait e.s .exit
  else match e.g.leftLevel e.m with
    | none => e.exits e.s
    | some level => e.exitsAt level

theorem exec_exit (sb c : Bool) (s : State) : exec (.exit sb c) s = wide s (ctlHow sb c) Env.exit := rfl

theorem Env.exit_awaits {e : Env} (h : e.g.awaits e.m = true) : e.exit = .wait e.s .exit := if_pos h

theorem Env.exit_arrivesNot {e : Env} (h : e.g.awaits e.m = false) (hl : e.g.leftLevel e.m = none) : e.exit = e.exits e.s := by
  rw [Env.exit, if_neg (ne_true_of_eq_false h), hl]

theorem Env.exit_arrives {e : Env} {level : Nat} (h : e.g.awaits e.m = false) (hl : e.g.leftLevel e.m = some level) :
    e.exit = e.exitsAt level := by
  rw [Env.exit, if_neg (ne_true_of_eq_false h), hl]

theorem Env.exitsAt_eq {e : Env} {level : Nat} {t : State} (ht : e.s.scopeBack e.core e.slot e.gang (netScope level) = t)
    (hg : t.gang? e.core e.slot e.gang = some g) :
    e.exitsAt level = if g.unreleased (netScope level) then .wait t .release else e.exits t := by
  rw [Env.exitsAt, ht, State.gang_released hg]
  cases g.unreleased (netScope level) <;> rfl

/-- R128: the larger count. -/
theorem pause_max (a b : BitVec 12) : (if a.ult b then b else a) = BitVec.ofNat 12 (max a.toNat b.toNat) := by
  have hult : a.ult b = true ↔ a.toNat < b.toNat := decide_eq_true_iff
  by_cases h : a.toNat < b.toNat
  · rw [if_pos (hult.2 h), max_eq_right h.le, BitVec.ofNat_toNat, BitVec.setWidth_eq]
  · rw [if_neg (mt hult.1 h), max_eq_left (Nat.not_lt.1 h), BitVec.ofNat_toNat, BitVec.setWidth_eq]

/-- R158 to R160, R111, R128, R129. -/
theorem controlWordsComplete : Claims.ControlWordsComplete := by
  intro s e sb c he ha
  obtain ⟨hs, -⟩ := State.env?_some he
  subst hs
  refine ⟨?nop, fun k => ?regang, fun n => ?pause, fun hw => ?waits, fun hw => ⟨fun hl => ?leaves, fun level hl => ?arrives⟩⟩
  case nop => rw [exec_nop]; exact wide_gives he ha rfl
  case regang => rw [exec_regang]; exact wide_gives he ha rfl
  case pause =>
    rw [exec_pause, gangDone, ← pause_max]
    exact wide_gang (f := fun g => { g with pause := if g.pause.ult n then n else g.pause }) he ha rfl
  case waits => rw [exec_exit]; exact wide_gives he ha (Env.exit_awaits hw)
  case leaves =>
    rw [exec_exit, Env.onGang_congr he]
    refine wide_gives he ha ((Env.exit_arrivesNot hw hl).trans ?_)
    exact congrArg (Res.leave · _) (Env.onGang_congr he (·.close e.m))
  case arrives =>
    intro t g hg
    have hrun := (Env.exit_arrives hw hl).trans (Env.exitsAt_eq (t := t) rfl hg)
    rw [exec_exit]
    exact ⟨fun (ho : g.unreleased (netScope level) = true) => wide_gives he ha (hrun.trans (if_pos ho)),
      fun (ho : g.unreleased (netScope level) = false) => wide_gives he ha (hrun.trans (if_neg (ne_true_of_eq_false ho)))⟩

/-! ### The rendezvous (R111) -/

theorem getLsbD_foldl_masks (l : List Group) (a : BitVec 8) (j : Nat) :
    (l.foldl (fun a x => a ||| x.mask) a).getLsbD j = true ↔ a.getLsbD j = true ∨ ∃ x ∈ l, x.mask.getLsbD j = true := by
  induction l generalizing a with
  | nil => simp
  | cons x r ih => simp [ih, or_assoc]

/-- R110: a slice is live when some group holds it. -/
theorem Gang.getLsbD_live (g : Gang) (j : Nat) : g.live.getLsbD j = true ↔ ∃ x ∈ g.groups, x.mask.getLsbD j = true := by
  simp [Gang.live, getLsbD_foldl_masks]

theorem ne_zero_iff_getLsbD {n : Nat} (x : BitVec n) : x ≠ 0 ↔ ∃ j, x.getLsbD j = true := by
  constructor
  · intro h
    by_contra hno
    exact h (BitVec.eq_of_getLsbD_eq fun j _ => by simpa using fun hj => hno ⟨j, hj⟩)
  · rintro ⟨j, hj⟩ rfl
    simp at hj

theorem and_not_eq_zero_iff {n : Nat} (a b : BitVec n) : a &&& ~~~b = 0 ↔ ∀ j, a.getLsbD j = true → b.getLsbD j = true := by
  rw [← not_iff_not, ← ne_eq, ne_zero_iff_getLsbD]
  push Not
  refine exists_congr fun j => ?_
  rw [BitVec.getLsbD_and, BitVec.getLsbD_not, Bool.and_eq_true, Bool.and_eq_true]
  exact ⟨fun ⟨ha, _, hb⟩ => ⟨ha, by simpa using hb⟩,
    fun ⟨ha, hb⟩ => ⟨ha, by simpa using BitVec.lt_of_getLsbD ha, by simpa using hb⟩⟩

/-- The groups that wait at the REGANG at `p` with mask `m`. -/
def Gang.waiting (g : Gang) (p : Word) (m : BitVec 8) : List Group := g.groups.filter fun x => x.pc == p && x.wait == .regang m

/-- The slices that wait there. -/
def Gang.here (g : Gang) (p : Word) (m : BitVec 8) : BitVec 8 := (g.waiting p m).foldl (fun a x => a ||| x.mask) 0

/-- The group that the rendezvous makes of those that wait there. -/
def Gang.merged (g : Gang) (p : Word) (m : BitVec 8) : Group :=
  { Group.start (g.here p m) (p + 1) g.wnum with
    parked := (g.waiting p m).any (·.parked)
    passed := (g.waiting p m).all (·.passed)
    site := ((g.waiting p m).head?).bind (·.site) }

/-- Every live slice of the mask waits there, and some slice does. -/
def Gang.met (g : Gang) (p : Word) (m : BitVec 8) : Prop := g.here p m ≠ 0 ∧ (m &&& g.live) &&& ~~~(g.here p m) = 0

theorem Gang.regangTry_met {p : Word} (h : g.met p m) : g.regangTry p m =
    { g with groups := g.merged p m :: g.groups.filter fun x => !(x.pc == p && x.wait == .regang m) } := if_pos h

theorem Gang.regangTry_unmet {p : Word} (h : ¬g.met p m) : g.regangTry p m = g := if_neg h

theorem Gang.getLsbD_here (g : Gang) (p : Word) (m : BitVec 8) (j : Nat) :
    (g.here p m).getLsbD j = true ↔ ∃ x ∈ g.groups, waitsAt p m x j := by
  simp [Gang.here, getLsbD_foldl_masks, Gang.waiting, waitsAt, and_assoc]

theorem Gang.met_iff (g : Gang) (p : Word) (m : BitVec 8) : g.met p m ↔
    (∃ x ∈ g.groups, ∃ j, waitsAt p m x j) ∧
      ∀ j, m.getLsbD j = true → (∃ x ∈ g.groups, x.mask.getLsbD j = true) → ∃ x ∈ g.groups, waitsAt p m x j := by
  refine and_congr ?_ ?_
  · rw [ne_zero_iff_getLsbD]
    simp only [Gang.getLsbD_here]
    exact ⟨fun ⟨j, x, hx, hw⟩ => ⟨x, hx, j, hw⟩, fun ⟨x, hx, j, hw⟩ => ⟨j, x, hx, hw⟩⟩
  · rw [and_not_eq_zero_iff]
    refine forall_congr' fun j => ?_
    rw [BitVec.getLsbD_and, Bool.and_eq_true, Gang.getLsbD_live, Gang.getLsbD_here, and_imp]

/-- R33, R111. -/
theorem rendezvousMerges : Claims.RendezvousMerges := by
  intro g p m met
  have hmet : g.met p m ↔ met := g.met_iff p m
  refine ⟨fun h => ⟨g.merged p m, ?_, rfl, rfl, rfl, g.getLsbD_here p m, fun y hy => ?_⟩, fun h => ?_,
    fun h => Gang.regangTry_unmet (mt hmet.1 h)⟩
  · rw [Gang.regangTry_met (hmet.2 h)]
    exact List.mem_cons_self
  · rw [Gang.regangTry_met (hmet.2 h)]
    simp [hy, imp_iff_not_or]
  · rw [Gang.regangTry_met (hmet.2 h)]

/-! ### Slices that leave (R112) -/

/-- The gang with its last slices gone. -/
def Gang.emptied (g : Gang) (m : BitVec 8) (o : Word) : Gang :=
  { withoutSlices g m o with st := .idle, arr := g.arr.filter fun e => 132 ≤ e.1, halted := false, req := .none }

/-- A group that waits at a REGANG tries its rendezvous. -/
def Group.retry (x : Group) (g : Gang) : Gang :=
  match x.wait with
  | .regang k => g.regangTry x.pc k
  | _ => g

/-- Every group that waits at a REGANG tries its rendezvous. -/
def Gang.retried (g : Gang) : Gang := g.groups.foldl (fun g x => x.retry g) g

/-- Arrivals at the keys `ks` are tried. -/
def State.tryArrivals (s : State) (core slot gang : Nat) (ks : List Nat) : State :=
  ks.foldl (fun s k => if k < 132 then s.tryArrive core slot gang k else s) s

theorem State.exitSlices_eq (hg : s.gang? core slot gang = some g) (m : BitVec 8) (o : Word) :
    s.exitSlices core slot gang m o =
      if (withoutSlices g m o).groups.isEmpty then s.onGang core slot gang fun _ => g.emptied m o
      else (s.onGang core slot gang fun _ => (withoutSlices g m o).retried).tryArrivals core slot gang
        ((withoutSlices g m o).retried.arr.map (·.1)) := by
  unfold State.exitSlices
  rw [hg]
  rfl

theorem Group.retry_other {x : Group} (h : ∀ k, x.wait ≠ .regang k) (g : Gang) : x.retry g = g := by
  unfold Group.retry
  split
  · next k hk => exact absurd hk (h k)
  · rfl

theorem Group.retry_regang {x : Group} {k : BitVec 8} (h : x.wait = .regang k) (g : Gang) : x.retry g = g.regangTry x.pc k := by
  rw [Group.retry, h]

theorem Gang.retried_other (h : ∀ x ∈ g.groups, ∀ k, x.wait ≠ .regang k) : g.retried = g :=
  List.foldlRecOn (motive := fun t => t = g) _ _ rfl fun t ht x hx => by rw [Group.retry_other (h x hx), ht]

theorem State.tryArrivals_done (s : State) {ks : List Nat} (h : ∀ k ∈ ks, 132 ≤ k) : s.tryArrivals core slot gang ks = s :=
  List.foldlRecOn (motive := fun t => t = s) _ _ rfl fun t ht k hk => by rw [if_neg (Nat.not_lt.2 (h k hk)), ht]

theorem State.tryArrivals_single (s : State) {k : Nat} (h : k < 132) :
    s.tryArrivals core slot gang [k] = s.tryArrive core slot gang k := if_pos h

/-- R112. -/
theorem exitedSlicesLeave : Claims.ExitedSlicesLeave := by
  intro s core slot gang g m o hg hall
  have hempty : (withoutSlices g m o).groups = [] := List.filter_eq_nil_iff.2 fun x hx => by simp [hall x hx]
  have hout := (State.exitSlices_eq hg m o).trans (if_pos (List.isEmpty_iff.2 hempty))
  rw [hout]
  refine ⟨g.emptied m o, State.gang?_onGang_const hg _, rfl, hempty, rfl, rfl, rfl, rfl, fun j hj hm => ?_, fun j hj hm => ?_,
    State.onGang_mem ..⟩
  · exact (vat_vec _ _ _ _ hj).trans (if_pos hm)
  · exact (vat_vec _ _ _ _ hj).trans (if_neg (ne_true_of_eq_false hm))

/-- R112: what EXIT does where other groups are left. -/
theorem State.exitSlices_others (hg : s.gang? core slot gang = some g) (hex : ∃ x ∈ g.groups, x.mask ≠ m) {r : Gang}
    (hr : (withoutSlices g m o).retried = r) :
    s.exitSlices core slot gang m o = (s.onGang core slot gang fun _ => r).tryArrivals core slot gang (r.arr.map (·.1)) := by
  subst hr
  obtain ⟨x, hx, hm⟩ := hex
  have hmem : x ∈ (withoutSlices g m o).groups := List.mem_filter.2 ⟨hx, by simpa using hm⟩
  refine (State.exitSlices_eq hg m o).trans (if_neg fun he => ?_)
  rw [List.isEmpty_iff.1 he] at hmem
  exact List.not_mem_nil hmem

/-- R111: a group alone in its gang that waits at a REGANG goes on. -/
theorem Gang.retried_alone {x : Group} {k : BitVec 8} (hl : g.groups = [x]) (hm : x.mask ≠ 0) (hw : x.wait = .regang k) :
    g.retried = { g with groups := [g.merged x.pc k] } ∧ (g.merged x.pc k).mask = x.mask := by
  have hwait : g.waiting x.pc k = [x] := by simp [Gang.waiting, hl, hw]
  have hhere : g.here x.pc k = x.mask := by simp [Gang.here, hwait]
  have hmet : g.met x.pc k := by
    have hlive : g.live = x.mask := by simp [Gang.live, hl]
    refine ⟨hhere ▸ hm, (and_not_eq_zero_iff ..).2 fun j hj => ?_⟩
    rw [BitVec.getLsbD_and, Bool.and_eq_true, hlive] at hj
    rw [hhere, hj.2]
  have hrest : (g.groups.filter fun y => !(y.pc == x.pc && y.wait == .regang k)) = [] := by simp [hl, hw]
  refine ⟨?_, hhere⟩
  have hstep : g.retried = g.regangTry x.pc k := by
    rw [Gang.retried, hl]
    exact Group.retry_regang hw g
  rw [hstep, Gang.regangTry_met hmet, hrest]

/-- R112, R111, R129. -/
theorem otherGroupsStay : Claims.OtherGroupsStay := by
  intro s core slot gang g m o hg hex r out
  have keys {t : Gang} (ha : t.arr = g.arr) (hk : ∀ a ∈ g.arr, 132 ≤ a.1) : ∀ k ∈ t.arr.map (·.1), 132 ≤ k := by
    intro k hk'
    obtain ⟨a, ha', rfl⟩ := List.mem_map.1 hk'
    exact hk a (ha ▸ ha')
  refine ⟨fun hw hk => ?stay, fun hw k v hk hlt => ?arrival, fun x k hl hm hw hk => ?alone⟩
  case stay =>
    exact (State.exitSlices_others hg hex (Gang.retried_other hw)).trans (State.tryArrivals_done _ (keys rfl hk))
  case arrival =>
    intro done
    have hkeys : r.arr.map (·.1) = [k] := by simp [r, withoutSlices, hk]
    have hvec : arrVec r.arr k = v := by simp [r, withoutSlices, hk, arrVec, Tbl.getD, Tbl.get?]
    have hr := State.gang?_onGang_const hg r
    have hout : out = (s.onGang core slot gang fun _ => r).tryArrive core slot gang k := by
      refine (State.exitSlices_others hg hex (Gang.retried_other hw)).trans ?_
      rw [hkeys]
      exact State.tryArrivals_single _ hlt
    have hall : r.allIssued k ↔ done := by rw [Gang.allIssued, hvec]
    refine ⟨fun h => hout.trans (State.tryArrive_of_missing hr (mt hall.1 h)),
      fun h => hout.trans ((State.tryArrive_of_all hr (hall.2 h)).trans ?_)⟩
    have htaken : r.taken k = { r with arr := [(k, vec 8 fun j => if r.live.getLsbD j then vat v 0 j - 1 else 0)] } := by
      rw [Gang.taken, hvec]
      simp [r, withoutSlices, hk, Tbl.set]
    rw [State.onGang_onGang, htaken]
    rfl
  case alone =>
    obtain ⟨hr, hmask⟩ := Gang.retried_alone hl hm hw
    refine ⟨r.merged x.pc k, ?_, hmask, rfl, rfl⟩
    exact (State.exitSlices_others hg hex hr).trans (State.tryArrivals_done _ (keys rfl hk))

end

/-- Settles O12: the words by `wide_gives`; the rendezvous is `Gang.met`; slices that leave empty the gang, or leave the others as they
are, with their rendezvous (`Gang.retried`) and arrivals tried again. -/
theorem controlWordsAndExit : Obligations.ControlWordsAndExit :=
  ⟨controlWordsComplete, rendezvousMerges, exitedSlicesLeave, otherGroupsStay⟩

end Sys2Proof.Machine
end

section
/-! A word of the constant bank read (R42, R74): whatever the walk and the directory do, every gang of every block stays as it is. -/

namespace Sys2Proof.Machine

/-- The gangs of a block, where there is one. -/
def State.gangsAt (s : State) (c sl : Nat) : Option (List Gang) := (s.block? c sl).map (·.gangs)

section
variable {s u : State} {c sl : Nat}

theorem State.gang?_of_gangsAt (h : u.gangsAt c sl = s.gangsAt c sl) (g : Nat) : u.gang? c sl g = s.gang? c sl g := by
  have hg (t : State) : t.gang? c sl g = (t.gangsAt c sl).bind (·[g]?) := by
    simp only [State.gang?, State.gangsAt, Option.bind_map]; rfl
  rw [hg, hg, h]

theorem State.gangsAt_of_cores (hc : u.cores = s.cores) (hy : u.cycles = s.cycles) : u.gangsAt c sl = s.gangsAt c sl := by
  simp [State.gangsAt, State.block?, State.core, hc, hy]

theorem State.gangsAt_onBlock (d e : Nat) {f : Block → Block} (hf : ∀ x, (f x).gangs = x.gangs) :
    (s.onBlock d e f).gangsAt c sl = s.gangsAt c sl := by
  unfold State.gangsAt
  rw [State.block?_onBlock]
  split
  · cases s.block? c sl with
    | none => rfl
    | some x => exact congrArg some (hf x)
  · rfl

theorem State.gangsAt_setCore (d : Nat) {x : Core} (hx : x.blocks = (s.core d).blocks) :
    (s.setCore d x).gangsAt c sl = s.gangsAt c sl := by
  unfold State.gangsAt State.block?
  rw [State.core_setCore]
  split
  · next h => rw [h, hx]
  · rfl

theorem State.gangsAt_foldl {α : Type} {f : State → α → State} (hf : ∀ s a, (f s a).gangsAt c sl = s.gangsAt c sl)
    (s : State) (l : List α) : (l.foldl f s).gangsAt c sl = s.gangsAt c sl :=
  List.foldlRecOn (motive := fun t => t.gangsAt c sl = s.gangsAt c sl) l f rfl fun t ht a _ => (hf t a).trans ht

@[simp] theorem State.gangsAt_setRegion (s : State) (r : Nat) (x : Region) : (s.setRegion r x).gangsAt c sl = s.gangsAt c sl := rfl

@[simp] theorem State.gangsAt_count (s : State) (off n : Nat) : (s.count off n).gangsAt c sl = s.gangsAt c sl := rfl

@[simp] theorem State.gangsAt_fine (s : State) (l : List Nat) : ({ s with fine := l } : State).gangsAt c sl = s.gangsAt c sl := rfl

/-! ### Stash lines written back (R174, R175) -/

theorem State.gangsAt_homeLine (s : State) (x : StashLine) : (s.homeLine x).gangsAt c sl = s.gangsAt c sl := by
  refine State.gangsAt_foldl (fun t k => ?_) s _
  dsimp only [State.homeSet]
  split
  · split <;> rfl
  · rfl

/-- A line written back if it is dirty, then changed in its stash. -/
theorem State.gangsAt_lineOut (s : State) (x : StashLine) (d e : Nat) {f : Block → Block} (hf : ∀ b, (f b).gangs = b.gangs) :
    ((if x.dirty then s.homeLine x else s).onBlock d e f).gangsAt c sl = s.gangsAt c sl := by
  rw [State.gangsAt_onBlock d e hf]
  split
  · exact State.gangsAt_homeLine ..
  · rfl

@[simp] theorem State.gangsAt_snoop (s : State) (own : Option (Nat × Nat)) (line : Nat) (wr : Bool) :
    (s.snoop own line wr).gangsAt c sl = s.gangsAt c sl := by
  refine State.gangsAt_foldl (fun t p => State.gangsAt_foldl (fun t e => ?_) t _) s _
  split
  · exact State.gangsAt_lineOut t _ _ _ fun _ => rfl
  · rfl

@[simp] theorem State.gangsAt_copiesBack (s : State) (p isle : Nat → Bool) (drop : Bool) :
    (s.copiesBack p isle drop).gangsAt c sl = s.gangsAt c sl := by
  refine State.gangsAt_foldl (fun t q => State.gangsAt_foldl (fun t e => ?_) t _) s _
  split
  · exact State.gangsAt_lineOut t _ _ _ fun _ => rfl
  · rfl

/-! ### The directory (R197 to R200) -/

@[simp] theorem State.gangsAt_regionBack (s : State) (r : Nat) (isle : Nat → Bool) (drop : Bool) :
    (s.regionBack r isle drop).gangsAt c sl = s.gangsAt c sl := State.gangsAt_copiesBack ..

@[simp] theorem State.gangsAt_fineRoom (s : State) : s.fineRoom.gangsAt c sl = s.gangsAt c sl := by
  unfold State.fineRoom
  split
  · rfl
  · split <;> simp

theorem State.gangsAt_dirRequest (s : State) (i pa : Nat) (wr : Bool) : (s.dirRequest i pa wr).gangsAt c sl = s.gangsAt c sl := by
  unfold State.dirRequest
  dsimp only
  repeat' split
  all_goals simp

@[simp] theorem State.gangsAt_dirAccess (s : State) (i pa : Nat) (wr : Bool) :
    (s.dirAccess i pa wr).gangsAt c sl = s.gangsAt c sl := by
  unfold State.dirAccess
  split
  · exact State.gangsAt_dirRequest ..
  · rfl

/-! ### Translation (R207 to R212) -/

@[simp] theorem State.gangsAt_choose {α : Type} (s : State) (cur : α) (olds : List α) :
    (s.choose cur olds).1.gangsAt c sl = s.gangsAt c sl := by
  rw [(s.choose_spec cur olds).1]
  rfl

@[simp] theorem State.gangsAt_readPte (s : State) (pa since : Nat) : (s.readPte pa since).1.gangsAt c sl = s.gangsAt c sl := by
  unfold State.readPte
  dsimp only
  split <;> simp

theorem State.gangsAt_walk (s : State) (va since table level : Nat) :
    (s.walk va since table level).1.gangsAt c sl = s.gangsAt c sl := by
  induction level generalizing s table with
  | zero =>
    unfold State.walk
    dsimp only
    repeat' split
    all_goals simp
  | succ n ih =>
    unfold State.walk
    dsimp only
    repeat' split
    all_goals simp [ih]

@[simp] theorem State.gangsAt_walkBegun (s : State) (ctx va : Nat) : (s.walkBegun ctx va).gangsAt c sl = s.gangsAt c sl := by
  unfold State.walkBegun
  split <;> rfl

@[simp] theorem State.gangsAt_tlbTouch (s : State) (core ctx va level : Nat) :
    (s.tlbTouch core ctx va level).gangsAt c sl = s.gangsAt c sl := by
  unfold State.tlbTouch
  dsimp only
  split
  · rfl
  · exact (State.gangsAt_walkBegun ..).trans (State.gangsAt_setCore core rfl)

theorem State.gangsAt_translate (s : State) (core ctx : Nat) (va : DWord) (wr : Bool) (n : Nat) :
    (s.translate core ctx va wr n).1.gangsAt c sl = s.gangsAt c sl := by
  unfold State.translate
  dsimp only
  repeat' split
  all_goals simp [State.gangsAt_walk]

/-! ### The constant bank (R74) -/

theorem State.gangsAt_kword (s : State) (core : Nat) (b : Block) (i : Nat) :
    (s.kword core b i).1.gangsAt c sl = s.gangsAt c sl := by
  have ht := State.gangsAt_translate (c := c) (sl := sl) s core b.ctx (b.kbank + BitVec.ofNat 64 (4 * (i % 16384))) false 4
  unfold State.kword
  dsimp only
  split
  all_goals
    next hx =>
      rw [hx] at ht
      simp [← ht, State.codeWord, State.staleWord]

/-- A constant-bank read leaves the gang in hand as it was. -/
theorem State.gang?_kword {t : State} {core : Nat} {b : Block} {i : Nat} {r : Except Stop (Word × Bool)}
    (h : s.kword core b i = (t, r)) (c sl g : Nat) : t.gang? c sl g = s.gang? c sl g := by
  have hk := State.gangsAt_kword (c := c) (sl := sl) s core b i
  rw [h] at hk
  exact State.gang?_of_gangsAt hk g

end

end Sys2Proof.Machine
end

section
/-! Arithmetic words (R138 to R143, R146): one rule for each shape of word, and the values of the tables as the model computes them. -/

namespace Sys2Proof.Machine

open Sys2Proof.Claims

section
variable {s : State} {e : Env}

/-! ### Operands (R138) -/

@[simp] theorem lane_splat (x : Word) (st : Stamp) {i : Nat} (h : i < 32) : lane (splat x st).lanes i = x := vat_replicate 32 x 0 i h

@[simp] theorem stampAt_splat (x : Word) (st : Stamp) {j : Nat} (h : j < 8) : stampAt (splat x st).stamps j = st :=
  vat_replicate 8 st ancient j h

theorem Env.lane_bop (e : Env) (b : BitVec 7) (lit : Word) {i : Nat} (h : i < 32) :
    lane (e.bop b lit).lanes i = if b = 127 then lit else src e b i := by
  unfold Env.bop
  split
  · exact lane_splat lit ageless h
  · rfl

theorem Env.stampAt_bop (e : Env) (b : BitVec 7) (lit : Word) {j : Nat} (h : j < 8) :
    stampAt (e.bop b lit).stamps j = if b = 127 then ageless else srcSt e b j := by
  unfold Env.bop
  split
  · exact stampAt_splat lit ageless h
  · rfl

/-! ### One rule for each shape of word (R139, R140) -/

theorem alu2_writes {o : RegOp} {f g : Word → Word → Word} (he : s.env? = some e) (ha : e.accepts (regHow o))
    (hg : ∀ x y, g x y = f x y) :
    e.writes s (regHow o) o.d.toNat o.t (fun L => f (src e o.a L) (bsrc e o L))
      (fun j => older e.now (srcSt e o.a j) (bsrcSt e o j)) (alu2 o g s) := by
  refine wide_result' he ha rfl (fun i hi => ?lane) (fun j hj => ?stamp)
  case lane => rw [lane_lanes2 _ _ _ i hi, hg, Env.lane_bop e o.b o.lit hi]; rfl
  case stamp => rw [stampAt_olderOf2 _ _ _ j hj, Env.stampAt_bop e o.b o.lit hj]; rfl

theorem alu3_writes {o : RegOp} {f g : Word → Word → Word → Word} (he : s.env? = some e) (ha : e.accepts (regHow o))
    (hg : ∀ d x y, g d x y = f d x y) :
    e.writes s (regHow o) o.d.toNat o.t (fun L => f (src e o.d L) (src e o.a L) (bsrc e o L))
      (fun j => older e.now (older e.now (srcSt e o.d j) (srcSt e o.a j)) (bsrcSt e o j)) (alu3 o g s) := by
  refine wide_result' he ha rfl (fun i hi => ?lane) (fun j hj => ?stamp)
  case lane => rw [lane_lanes3 _ _ _ _ i hi, hg, Env.lane_bop e o.b o.lit hi]; rfl
  case stamp => rw [stampAt_olderOf3 _ _ _ _ j hj, Env.stampAt_bop e o.b o.lit hj]; rfl

theorem aluImm_writes {o : ImmOp} {b : Word} {f : Word → Word} {g : Word → Word → Word} (he : s.env? = some e)
    (ha : e.accepts (immHow o)) (hg : ∀ x, g x b = f x) :
    e.writes s (immHow o) o.d.toNat false (fun L => f (src e o.a L)) (fun j => older e.now (srcSt e o.a j) ageless)
      (aluImm o b g s) := by
  refine wide_result' he ha rfl (fun i hi => ?lane) (fun j hj => ?stamp)
  case lane => rw [lane_lanes2 _ _ _ i hi, lane_splat b ageless hi, hg]; rfl
  case stamp => rw [stampAt_olderOf2 _ _ _ j hj, stampAt_splat b ageless hj]; rfl

theorem aluAdopt_writes {o : AdoptOp} {f g : Word → Word → Word → Word} (he : s.env? = some e)
    (ha : e.accepts ⟨o.s, o.c, .fma, 1, false, [.v o.d, .v o.a, .v o.b]⟩) (hg : ∀ d x y, g d x y = f d x y) :
    e.writes s ⟨o.s, o.c, .fma, 1, false, [.v o.d, .v o.a, .v o.b]⟩ o.d.toNat false
      (fun L => f (src e o.d L) (src e o.a L) (src e o.b L)) (srcSt e o.b) (aluAdopt o g s) :=
  wide_result' he ha rfl (fun i hi => (lane_lanes3 _ _ _ _ i hi).trans (hg ..)) fun _ _ => rfl

/-- A word whose operand of the constant bank can be read (R42, R74) goes on in the state of that read. -/
theorem Env.withKc_read {t : State} {i : Nat} {w : Word} (hk : e.s.kword e.core e.b i = (t, .ok (w, false)))
    (k : Env → VReg → Res) : e.withKc i k = k { e with s := t } (splat w e.b.kstamp) := by
  unfold Env.withKc
  rw [hk]

/-- The result of a word that reads the constant bank. -/
theorem wide_kcResult {t : State} {h : How} {i : Nat} {w : Word} {k : Env → VReg → Res} {d : Nat} {lanes : Vector Word 32}
    {st : Vector Stamp 8} (he : s.env? = some e) (ha : e.accepts h) (hk : s.kword e.core e.b i = (t, .ok (w, false)))
    (hr : k { e with s := t } (splat w e.b.kstamp) = Env.result { e with s := t } d false lanes st) :
    e.writes t h d false (lane lanes) (stampAt st) (wide s h fun e => e.withKc i k) := by
  have hs := (State.env?_some he).1
  have hg : t.gang? e.core e.slot e.gang = some e.g := (State.gang?_kword hk ..).trans (Env.gang?_of he)
  exact wide_result he ha hg ((Env.withKc_read (by rw [hs]; exact hk) k).trans hr)

theorem aluKc_writes {t : State} {o : ImmOp} {w : Word} (he : s.env? = some e) (ha : e.accepts (immHow o))
    (hk : s.kword e.core e.b o.i.toNat = (t, .ok (w, false))) (f : Word → Word → Word) :
    e.writes t (immHow o) o.d.toNat false (fun L => f (src e o.a L) w)
      (fun j => older e.now (srcSt e o.a j) (e.b.lstamp.getD ageless)) (aluKc o f s) := by
  refine Env.writes_congr (fun i hi => ?lane) (fun j hj => ?stamp) (wide_kcResult he ha hk rfl)
  case lane => rw [lane_lanes2 _ _ _ i hi, lane_splat _ _ hi]; rfl
  case stamp => rw [stampAt_olderOf2 _ _ _ j hj, stampAt_splat _ _ hj]; rfl

theorem aluKc3_writes {t : State} {o : ImmOp} {w : Word} (he : s.env? = some e) (ha : e.accepts (immHow o))
    (hk : s.kword e.core e.b o.i.toNat = (t, .ok (w, false))) (f : Word → Word → Word → Word) :
    e.writes t (immHow o) o.d.toNat false (fun L => f (src e o.d L) (src e o.a L) w)
      (fun j => older e.now (older e.now (srcSt e o.d j) (srcSt e o.a j)) (e.b.lstamp.getD ageless)) (aluKc3 o f s) := by
  refine Env.writes_congr (fun i hi => ?lane) (fun j hj => ?stamp) (wide_kcResult he ha hk rfl)
  case lane => rw [lane_lanes3 _ _ _ _ i hi, lane_splat _ _ hi]; rfl
  case stamp => rw [stampAt_olderOf3 _ _ _ _ j hj, stampAt_splat _ _ hj]; rfl

end

/-! ### Integers (R142): the manual's values over numbers and the model's over words -/

/-- The bits of an integer from bit `k` on. -/
theorem high_ofInt (z : Int) : ((BitVec.ofInt 64 z) >>> 32).setWidth 32 = BitVec.ofInt 32 (z / 2 ^ 32) := by
  apply BitVec.eq_of_toNat_eq
  rw [BitVec.toNat_setWidth, BitVec.toNat_ushiftRight, BitVec.toNat_ofInt, BitVec.toNat_ofInt, Nat.shiftRight_eq_div_pow]
  norm_num
  omega

/-- IMULH: the high half of the signed product. -/
theorem mulHigh_eq (a b : Word) : mulHigh a b = BitVec.ofInt 32 (a.toInt * b.toInt / 2 ^ 32) := by
  have h : a.signExtend 64 * b.signExtend 64 = BitVec.ofInt 64 (a.toInt * b.toInt) := by rw [BitVec.ofInt_mul]; rfl
  rw [mulHigh, h, high_ofInt]

theorem slt_iff (a b : Word) : a.slt b = true ↔ a.toInt < b.toInt := decide_eq_true_iff

theorem ult_iff (a b : Word) : a.ult b = true ↔ a.toNat < b.toNat := decide_eq_true_iff

theorem sminW_eq (a b : Word) : sminW a b = if a.toInt ≤ b.toInt then a else b := by
  simp only [sminW, slt_iff, ← Int.not_le, ite_not]

theorem smaxW_eq (a b : Word) : smaxW a b = if b.toInt ≤ a.toInt then a else b := by
  simp only [smaxW, slt_iff, ← Int.not_le, ite_not]

theorem uminW_eq (a b : Word) : uminW a b = if a.toNat ≤ b.toNat then a else b := by
  simp only [uminW, ult_iff, ← Nat.not_le, ite_not]

theorem umaxW_eq (a b : Word) : umaxW a b = if b.toNat ≤ a.toNat then a else b := by
  simp only [umaxW, ult_iff, ← Nat.not_le, ite_not]

/-- R142: the register and literal forms. -/
theorem exec_intTwo {i : Instr} {o : RegOp} {f : Word → Word → Word} (hi : IntTwo i o f) :
    ∃ g : Word → Word → Word, (∀ x y, g x y = f x y) ∧ ∀ s, exec i s = alu2 o g s := by
  cases hi with
  | iadd | isub | iand | ior | ixor => exact ⟨_, fun _ _ => rfl, fun _ => rfl⟩
  | imul => exact ⟨(· * ·), fun x y => (ofNat_toNat_mul x y).symm, fun _ => rfl⟩
  | imulh => exact ⟨mulHigh, mulHigh_eq, fun _ => rfl⟩
  | imin => exact ⟨sminW, sminW_eq, fun _ => rfl⟩
  | imax => exact ⟨smaxW, smaxW_eq, fun _ => rfl⟩
  | umin => exact ⟨uminW, uminW_eq, fun _ => rfl⟩
  | umax => exact ⟨umaxW, umaxW_eq, fun _ => rfl⟩
  | ishl => exact ⟨shlW, fun x _ => shiftLeft_eq_ofNat x _, fun _ => rfl⟩
  | ishr => exact ⟨shrW, fun x _ => ushiftRight_eq_ofNat x _, fun _ => rfl⟩
  | isar => exact ⟨sarW, fun x _ => sshiftRight_eq_ofInt x _, fun _ => rfl⟩

theorem toInt_sext9 (i : BitVec 9) : (sext9 i).toInt = i.toInt := BitVec.toInt_signExtend_of_le (by omega)

/-- The amount of a shift by an immediate. -/
theorem shiftAmount {i : BitVec 9} (h : i.toNat < 32) : (i.setWidth 32 : Word).toNat % 32 = i.toNat := by
  rw [BitVec.toNat_setWidth]; omega

/-- R142: the immediate forms. -/
theorem exec_intImm {i : Instr} {o : ImmOp} {f : Word → Word} (hi : IntImm i o f) :
    ∃ (b : Word) (g : Word → Word → Word), (∀ x, g x b = f x) ∧ ∀ s, exec i s = aluImm o b g s := by
  cases hi with
  | iadd | imul | iand | ior | ixor => exact ⟨sext9 o.i, _, fun _ => rfl, fun _ => rfl⟩
  | imin => exact ⟨sext9 o.i, sminW, fun x => by rw [sminW_eq, toInt_sext9]; rfl, fun _ => rfl⟩
  | imax => exact ⟨sext9 o.i, smaxW, fun x => by rw [smaxW_eq, toInt_sext9]; rfl, fun _ => rfl⟩
  | ishl _ h => exact ⟨o.i.setWidth 32, shlW, fun x => by rw [shlW, shiftAmount h, shiftLeft_eq_ofNat], fun _ => rfl⟩
  | ishr _ h => exact ⟨o.i.setWidth 32, shrW, fun x => by rw [shrW, shiftAmount h, ushiftRight_eq_ofNat], fun _ => rfl⟩
  | isar _ h => exact ⟨o.i.setWidth 32, sarW, fun x => by rw [sarW, shiftAmount h, sshiftRight_eq_ofInt], fun _ => rfl⟩

/-- Settles O1: the two-source forms by `alu2_writes`, IMAD by `alu3_writes`, the immediate forms by `aluImm_writes`, each with the
function that the table gives (`exec_intTwo`, `exec_intImm`). -/
theorem integerWordsCompute : Obligations.IntegerWordsCompute := by
  unfold Obligations.IntegerWordsCompute
  intro s e he
  refine ⟨fun i o f hi ha => ?two, fun o ha => ?imad, fun i o f hi ha => ?imm⟩
  case two =>
    obtain ⟨g, hg, hx⟩ := exec_intTwo hi
    rw [hx]
    exact alu2_writes he ha hg
  case imad => exact alu3_writes (f := fun d x y => x * y + d) he ha fun _ _ _ => rfl
  case imm =>
    obtain ⟨b, g, hg, hx⟩ := exec_intImm hi
    rw [hx]
    exact aluImm_writes he ha hg

/-! ### FP32 (R143) -/

/-- R143: the words of two sources. -/
theorem exec_floatTwo {i : Instr} {o : RegOp} {f : Nat → Nat → Nat} (hi : FloatTwo i o f) (s : State) :
    exec i s = alu2 o (fun a b => BitVec.ofNat 32 (f a.toNat b.toNat)) s := by
  cases hi <;> rfl

/-- R143: the words that read vd. -/
theorem exec_floatThree {i : Instr} {o : RegOp} {f : Nat → Nat → Nat → Nat} (hi : FloatThree i o f) (s : State) :
    exec i s = alu3 o (fun d a b => BitVec.ofNat 32 (f d.toNat a.toNat b.toNat)) s := by
  cases hi <;> rfl

/-- A word of one source, with the stamp of that source. -/
theorem alu1_writes {s : State} {e : Env} {o : UnOp} (he : s.env? = some e)
    (ha : e.accepts ⟨o.s, o.c, .fma, 1, false, [.v o.d, .v o.a]⟩) (f : Word → Word) :
    e.writes s ⟨o.s, o.c, .fma, 1, false, [.v o.d, .v o.a]⟩ o.d.toNat o.t (fun L => f (src e o.a L)) (srcSt e o.a)
      (alu1 o f s) :=
  wide_result' he ha rfl (fun i hi => lane_lanes1 _ _ i hi) fun _ _ => rfl

/-- Settles O2: each word is `alu2`, `alu3` or `alu1` of the one-rounding operation itself. -/
theorem floatWordsCompute : Obligations.FloatWordsCompute := by
  unfold Obligations.FloatWordsCompute
  intro s e he
  refine ⟨fun i o f hi ha => ?two, fun i o f hi ha => ?three, fun o ha => alu1_writes he ha fabsW⟩
  case two =>
    rw [exec_floatTwo hi]
    exact alu2_writes (f := fun x y => BitVec.ofNat 32 (f x.toNat y.toNat)) he ha fun _ _ => rfl
  case three =>
    rw [exec_floatThree hi]
    exact alu3_writes (f := fun d x y => BitVec.ofNat 32 (f d.toNat x.toNat y.toNat)) he ha fun _ _ _ => rfl

/-! ### Packed halves (R146) -/

theorem half_low (x : Word) : half x 0 = x.toNat % 65536 := by simp [half]

theorem half_high (x : Word) : half x 1 = x.toNat / 65536 := by
  have := x.isLt
  rw [half, Nat.pow_one]
  omega

theorem halves2_eq (f : Nat → Nat → Nat) (a b : Word) :
    halves2 f a b = BitVec.ofNat 32 (f (half a 0) (half b 0) + 65536 * f (half a 1) (half b 1)) := by
  rw [half_low, half_low, half_high, half_high]; rfl

theorem halves3_eq (f : Nat → Nat → Nat → Nat) (d a b : Word) : halves3 f d a b =
    BitVec.ofNat 32 (f (half d 0) (half a 0) (half b 0) + 65536 * f (half d 1) (half a 1) (half b 1)) := by
  rw [half_low, half_low, half_low, half_high, half_high, half_high]; rfl

/-- R146: the words of two sources. -/
theorem exec_packedTwo {i : Instr} {o : RegOp} {fmt : Fmt} {f : Nat → Nat → Nat} (hi : PackedTwo i o fmt f) (s : State) :
    exec i s = alu2 o (halves2 f) s := by
  cases hi <;> rfl

/-- R146: the words that read vd. -/
theorem exec_packedThree {i : Instr} {o : RegOp} {f : Nat → Nat → Nat → Nat} (hi : PackedThree i o f) (s : State) :
    exec i s = alu3 o (halves3 f) s := by
  cases hi <;> rfl

/-- Settles O3: an operation on both halves (`halves2_eq`, `halves3_eq`) in each lane of `alu2` or `alu3`. -/
theorem packedWordsCompute : Obligations.PackedWordsCompute := by
  unfold Obligations.PackedWordsCompute
  intro s e he
  refine ⟨fun i o fmt f hi ha => ?two, fun i o f hi ha => ?three⟩
  case two => rw [exec_packedTwo hi]; exact alu2_writes he ha (halves2_eq f)
  case three => rw [exec_packedThree hi]; exact alu3_writes he ha (halves3_eq f)

/-! ### Adopt words, float immediates, constant-bank words (R42, R43, R140) -/

/-- R140: the adopt words. -/
theorem exec_adopt {i : Instr} {o : AdoptOp} {f : Word → Word → Word → Word} (hi : Adopt i o f) :
    ∃ g : Word → Word → Word → Word, (∀ d x y, g d x y = f d x y) ∧ ∀ s, exec i s = aluAdopt o g s := by
  cases hi with
  | fadd | fsub | fmul | ffma | fnma | iadd => exact ⟨_, fun _ _ _ => rfl, fun _ => rfl⟩
  | hfma => exact ⟨halves3 fp16.ffma, halves3_eq _, fun _ => rfl⟩
  | bfma => exact ⟨halves3 bf16.ffma, halves3_eq _, fun _ => rfl⟩

/-- R42, R142, R143: the constant-bank words of two sources. -/
theorem exec_kcTwo {i : Instr} {o : ImmOp} {f : Word → Word → Word} (hi : KcTwo i o f) (s : State) : exec i s = aluKc o f s := by
  cases hi <;> rfl

/-- R43: the value of a float immediate. -/
theorem toNat_fimm (i : BitVec 20) : (fimm i).toNat = i.toNat * 2 ^ 12 :=
  (BitVec.toNat_append i (0 : BitVec 12)).trans (by simp [Nat.shiftLeft_eq])

theorem fimm_eq (i : BitVec 20) : fimm i = BitVec.ofNat 32 (i.toNat * 2 ^ 12) := by
  rw [← toNat_fimm]; simp

theorem exec_faddf (o : FltOp) (s : State) : exec (.faddf o) s = wide s ⟨o.s, o.c, .fma, 1, false, [.v o.d]⟩ fun e =>
    e.result o.d.toNat false (lanes1 (fun x => faddW x (fimm o.i)) (e.reg o.d.toNat)) (e.reg o.d.toNat).stamps := rfl

theorem exec_fmovf (o : FltOp) (s : State) : exec (.fmovf o) s = wide s ⟨o.s, o.c, .fma, 1, false, [.v o.d]⟩ fun e =>
    e.result o.d.toNat false (splat (fimm o.i) ageless).lanes (splat (fimm o.i) ageless).stamps := rfl

/-- R140, R43. -/
theorem adoptAndFloatImmediateWords : Claims.AdoptAndFloatImmediateWords := by
  intro s e he
  refine ⟨fun i o f hi ha => ?adopt, fun o ha => ?faddf, fun o ha => ?fmovf⟩
  case adopt =>
    obtain ⟨g, hg, hx⟩ := exec_adopt hi
    rw [hx]
    exact aluAdopt_writes he ha hg
  case faddf =>
    rw [exec_faddf, ← toNat_fimm]
    exact wide_result' he ha rfl (fun i hi => lane_lanes1 _ _ i hi) fun _ _ => rfl
  case fmovf =>
    rw [exec_fmovf, ← fimm_eq]
    exact wide_result' he ha rfl (fun _ hi => lane_splat _ _ hi) fun _ hj => stampAt_splat _ _ hj

/-- R42, R74. -/
theorem constantBankWordsCompute : Claims.ConstantBankWordsCompute := by
  intro s t e o w he ha hk
  exact ⟨fun i f hi => by rw [exec_kcTwo hi]; exact aluKc_writes he ha hk f, aluKc3_writes he ha hk ffmaW⟩

/-- Settles O4: the adopt words by `aluAdopt_writes`, the immediates by their value `fimm_eq`, the constant-bank words by `aluKc_writes`
and `aluKc3_writes`. -/
theorem adoptAndBankWordsCompute : Obligations.AdoptAndBankWordsCompute := ⟨adoptAndFloatImmediateWords, constantBankWordsCompute⟩

end Sys2Proof.Machine
end

section
/-! Conversions and VDOT8 (R147 to R151): fields of a lane, and the ranges of the codes that take their place. -/

namespace Sys2Proof.Machine

open Sys2Proof.Claims

/-! ### Fields of a lane (R147, R148) -/

/-- The bits of a lane with a field replaced: those below the field, in it, and above it. -/
theorem getLsbD_withPart (x : Word) {w p v i : Nat} (hv : v < 2 ^ w) (hi : i < 32) : (withPart x w p v).getLsbD i =
    if i < w * p then x.getLsbD i else if i - w * p < w then v.testBit (i - w * p) else x.getLsbD i := by
  have hsum : x.toNat / 2 ^ (w * (p + 1)) * 2 ^ (w * (p + 1)) + v * 2 ^ (w * p) + x.toNat % 2 ^ (w * p) =
      2 ^ (w * p) * (2 ^ w * (x.toNat / 2 ^ (w * (p + 1))) + v) + x.toNat % 2 ^ (w * p) := by
    rw [Nat.mul_add w p 1, Nat.mul_one, Nat.pow_add]; ring
  rw [withPart, hsum, BitVec.getLsbD_ofNat, Nat.testBit_two_pow_mul_add _ (Nat.mod_lt _ (Nat.two_pow_pos _)),
    Nat.testBit_two_pow_mul_add _ hv, Nat.testBit_mod_two_pow, Nat.testBit_div_two_pow]
  simp only [hi, decide_true, Bool.true_and]
  split
  next hlow => simp [hlow, BitVec.testBit_toNat]
  next hlow =>
    split
    next => rfl
    next hmid =>
      have hpos : i - w * p - w + w * (p + 1) = i := by rw [Nat.mul_add, Nat.mul_one]; omega
      rw [hpos, BitVec.testBit_toNat]

/-- The field cleared by its mask and the new value put in its place. -/
theorem withPart_eq (x : Word) {w p v : Nat} (hv : v < 2 ^ w) :
    x &&& ~~~(BitVec.ofNat 32 ((2 ^ w - 1) * 2 ^ (w * p))) ||| BitVec.ofNat 32 (v * 2 ^ (w * p)) = withPart x w p v := by
  apply BitVec.eq_of_getLsbD_eq
  intro i hi
  rw [getLsbD_withPart x hv hi]
  simp only [BitVec.getLsbD_or, BitVec.getLsbD_and, BitVec.getLsbD_not, BitVec.getLsbD_ofNat, Nat.testBit_mul_two_pow,
    Nat.testBit_two_pow_sub_one, hi, decide_true, Bool.true_and]
  by_cases hlow : i < w * p
  · simp [hlow, Nat.not_le.2 hlow]
  · by_cases hmid : i - w * p < w
    · simp [hlow, hmid, Nat.not_lt.1 hlow]
    · have hv' : v.testBit (i - w * p) = false :=
        Nat.testBit_lt_two_pow (hv.trans_le (Nat.pow_le_pow_right (by omega) (Nat.not_lt.1 hmid)))
      simp [hlow, hmid, hv']

/-! ### Codes of a narrow format (R149) -/

/-- The codes that a format names lie below its sign bit. -/
structure Fmt.Fits (f : Fmt) : Prop where
  maxFin : f.maxFin < 2 ^ (f.eb + f.fb)
  inf : ∀ i, f.inf = some i → i < 2 ^ (f.eb + f.fb)
  nan : f.nan < 2 ^ (f.eb + f.fb)

theorem Fmt.signed_lt (f : Fmt) (neg : Bool) {mag : Nat} (h : mag < 2 ^ (f.eb + f.fb)) :
    f.signed neg mag < 2 ^ (f.eb + f.fb + 1) := by
  rw [Nat.pow_succ]
  unfold Fmt.signed
  split <;> omega

theorem Fmt.overflow_lt {f : Fmt} (h : f.Fits) (sat neg : Bool) : f.overflow sat neg < 2 ^ (f.eb + f.fb + 1) := by
  unfold Fmt.overflow
  split
  · exact f.signed_lt neg h.maxFin
  · split
    · next i hx => exact f.signed_lt neg (h.inf i hx)
    · exact h.nan.trans (Nat.pow_lt_pow_succ (by omega))

theorem Fmt.round_lt {f : Fmt} (h : f.Fits) (sat : Bool) (v : FVal) : f.round sat v < 2 ^ (f.eb + f.fb + 1) := by
  cases v with
  | nan => exact h.nan.trans (Nat.pow_lt_pow_succ (by omega))
  | inf neg => exact Fmt.overflow_lt h false neg
  | fin neg m e =>
    unfold Fmt.round
    dsimp only
    split
    · exact Fmt.overflow_lt h sat neg
    · next hle => exact f.signed_lt neg (lt_of_le_of_lt (Nat.not_lt.1 hle) h.maxFin)

theorem Fmt.narrow_lt {f : Fmt} (h : f.Fits) (sat : Bool) (v : FVal) : f.narrow sat v < 2 ^ (f.eb + f.fb + 1) := by
  cases v with
  | inf neg => exact Fmt.overflow_lt h sat neg
  | nan => exact Fmt.round_lt h sat .nan
  | fin neg m e => exact Fmt.round_lt h sat (.fin neg m e)

theorem fp16_fits : fp16.Fits := ⟨by decide, by decide, by decide⟩

theorem bf16_fits : bf16.Fits := ⟨by decide, by decide, by decide⟩

theorem fp8_fits (b : Bool) : (fp8 b).Fits := by
  cases b with
  | false => exact ⟨by decide, by decide, by decide⟩
  | true => exact ⟨by decide, by decide, by decide⟩

theorem fp8_width (b : Bool) : (fp8 b).eb + (fp8 b).fb + 1 = 8 := by cases b <;> rfl

/-! ### The conversions (R148, R149) -/

section
variable {s : State} {e : Env}

theorem cvtWhole_writes {o : CvtOp} {f g : Word → Word} (he : s.env? = some e) (ha : e.accepts (cvtHow o))
    (hg : ∀ x, g x = f x) :
    e.writes s (cvtHow o) o.d.toNat o.t (fun L => f (src e o.a L)) (srcSt e o.a) (cvtWhole o g s) :=
  wide_result' he ha rfl (fun i hi => (lane_lanes1 _ _ i hi).trans (hg _)) fun _ _ => rfl

theorem cvtPart_writes {o : CvtOp} {w p : Nat} {f : Nat → Nat} (he : s.env? = some e) (ha : e.accepts (cvtHow o))
    (hf : ∀ x, f x < 2 ^ w) :
    e.writes s (cvtHow o) o.d.toNat o.t (fun L => withPart (src e o.d L) w p (f (src e o.a L).toNat))
      (fun j => older e.now (srcSt e o.d j) (srcSt e o.a j)) (cvtPart o w p (fun a => f a.toNat) s) :=
  wide_result' he ha rfl (fun i hi => (lane_lanes2 _ _ _ i hi).trans (withPart_eq _ (hf _)))
    fun j hj => stampAt_olderOf2 _ _ _ j hj

/-- R148: an integer to FP32. -/
theorem intToF_eq (u : Bool) (a : Word) : intToF u a =
    if u = true then fp32.round false (.fin false a.toNat 0)
    else fp32.round false (.fin (decide (a.toInt < 0)) a.toInt.natAbs 0) := by
  rw [intToF, BitVec.msb_eq_toInt]

/-- R148: the conversions that replace the lane. -/
theorem exec_cvtLane {i : Instr} {o : CvtOp} {f : Word → Word} (hi : CvtLane i o f) :
    ∃ g : Word → Word, (∀ x, g x = f x) ∧ ∀ s, exec i s = cvtWhole o g s := by
  cases hi with
  | cvtfi => exact ⟨_, fun _ => rfl, fun _ => rfl⟩
  | cvtif =>
    refine ⟨fun a => BitVec.ofNat 32 (intToF (o.p == 1) a), fun a => ?_, fun _ => rfl⟩
    simp only [intToF_eq, beq_iff_eq]
  | cvthf | cvtbf | cvt8f => exact ⟨_, fun _ => rfl, fun _ => rfl⟩

/-- R148: the conversions that replace a part of vd, with codes of that part's width. -/
theorem exec_cvtPart {i : Instr} {o : CvtOp} {w p : Nat} {f : Nat → Nat} (hi : CvtPart i o w p f) :
    (∀ x, f x < 2 ^ w) ∧ ∀ s, exec i s = cvtPart o w p (fun a => f a.toNat) s := by
  cases hi with
  | cvtfh => exact ⟨fun x => Fmt.narrow_lt fp16_fits .., fun _ => rfl⟩
  | cvtfb => exact ⟨fun x => Fmt.narrow_lt bf16_fits .., fun _ => rfl⟩
  | cvtf8 => exact ⟨fun x => fp8_width o.fmt ▸ Fmt.narrow_lt (fp8_fits o.fmt) .., fun _ => rfl⟩

/-- R148, R149. -/
theorem conversionsCompute : Claims.ConversionsCompute := by
  intro s e he
  refine ⟨fun i o f hi ha => ?whole, fun i o w p f hi ha => ?part⟩
  case whole =>
    obtain ⟨g, hg, hx⟩ := exec_cvtLane hi
    rw [hx]
    exact cvtWhole_writes he ha hg
  case part =>
    obtain ⟨hf, hx⟩ := exec_cvtPart hi
    rw [hx]
    exact cvtPart_writes he ha hf

/-! ### VDOT8 (R150, R151) -/

theorem dotSum_eq (f : Fmt) (a b : Word) :
    dotSum f a b = (((dotProd f a b 0).add (dotProd f a b 1)).add (dotProd f a b 2)).add (dotProd f a b 3) := rfl

theorem dotLane_eq (f : Fmt) (d a b : Word) (sa sb : Nat) : dotLane f d a b sa sb = dotValue f d a b sa sb := by
  rw [dotLane, dotSum_eq]; rfl

theorem exec_vdot8 (o : DotOp) (s : State) :
    exec (.vdot8 o) s = wide s ⟨o.s, o.c, .fma, 1, false, [.v o.d, .pair o.a, .pair o.b]⟩ fun e =>
      e.result o.d.toNat o.t
        (vec 32 fun L => dotLane (fp8 o.f) (src e o.d L) (src e o.a L) (src e o.b L)
          (part (lane (e.reg (o.a.toNat + 1)).lanes (8 * (L / 8))) 16 o.h.toNat)
          (part (lane (e.reg (o.b.toNat + 1)).lanes (8 * (L / 8))) 16 o.h.toNat))
        (vec 8 fun j => olderAll e.now [srcSt e o.d j, srcSt e o.a j, srcSt e o.b j,
          stampAt (e.reg (o.a.toNat + 1)).stamps (2 * (j / 2)), stampAt (e.reg (o.b.toNat + 1)).stamps (2 * (j / 2))]) := rfl

/-- R150, R151. -/
theorem dotProductComputes : Claims.DotProductComputes := by
  intro s e o he ha
  rw [exec_vdot8]
  refine wide_result' he ha rfl (fun i hi => ?lane) (fun j hj => ?stamp)
  case lane => rw [lane_vec _ i hi, dotLane_eq, Nat.mul_comm 8]
  case stamp => rw [stampAt_vec _ j hj, Nat.mul_comm 2]; rfl

end

/-- Settles O6: conversions of a lane and of a part of it (`withPart_eq`, for codes below the part's range by `Fmt.narrow_lt`), and
VDOT8 (`dotLane_eq`). -/
theorem conversionsAndDotProduct : Obligations.ConversionsAndDotProduct := ⟨conversionsCompute, dotProductComputes⟩

end Sys2Proof.Machine
end

section
/-! Lane movement (R152, R153): the lanes that LSHFL, LXOR and SEL take, and the slices that give the stamps. -/

namespace Sys2Proof.Machine

open Sys2Proof.Claims

/-! ### The active lanes of a slice -/

/-- The active lanes of slice `j`, in ascending order. -/
def sliceLanes (act : Word) (j : Nat) : List Nat := [4 * j, 4 * j + 1, 4 * j + 2, 4 * j + 3].filter fun L => act.getLsbD L

theorem sliceLanes_eq (act : Word) (j : Nat) :
    sliceLanes act j = ((List.range 4).map (4 * j + ·)).filter fun L => act.getLsbD L := rfl

theorem mem_sliceLanes {act : Word} {j L : Nat} : L ∈ sliceLanes act j ↔ ∃ k < 4, 4 * j + k = L ∧ act.getLsbD L = true := by
  rw [sliceLanes_eq, List.mem_filter, List.mem_map]
  exact ⟨fun ⟨⟨k, hk, h⟩, hb⟩ => ⟨k, List.mem_range.1 hk, h, hb⟩,
    fun ⟨k, hk, h, hb⟩ => ⟨⟨k, List.mem_range.2 hk, h⟩, hb⟩⟩

theorem map_sliceLanes {α : Type} (act : Word) (j : Nat) (f : Nat → α) : (sliceLanes act j).map f =
    (List.range 4).filterMap fun k => if act.getLsbD (4 * j + k) then some (f (4 * j + k)) else none := by
  rw [sliceLanes_eq, ← List.filterMap_eq_filter, List.map_filterMap, List.filterMap_map]
  congr 1
  funext k
  simp [Option.guard, apply_ite (Option.map f)]

theorem all_sliceLanes {act : Word} {j : Nat} {q : Nat → Bool} :
    (sliceLanes act j).all q = true ↔ ∀ k < 4, act.getLsbD (4 * j + k) = true → q (4 * j + k) = true := by
  rw [List.all_eq_true]
  exact ⟨fun h k hk hb => h _ (mem_sliceLanes.2 ⟨k, hk, rfl, hb⟩),
    fun h L hL => by obtain ⟨k, hk, rfl, hb⟩ := mem_sliceLanes.1 hL; exact h k hk hb⟩

section
variable {s : State} {e : Env}

/-! ### LSHFL and LXOR (R152) -/

theorem shuffle_writes {o : RegOp} {p : Pipe} {f : Nat → Word → Nat} {n : Nat → Nat} (he : s.env? = some e)
    (ha : e.accepts { regHow o with pipe := p }) (hn : ∀ L, n L = f L (bsrc e o L)) :
    e.writes s { regHow o with pipe := p } o.d.toNat o.t (fun L => src e o.a (n L))
      (fun j => olderAll e.now ((sliceLanes e.act j).map fun L => srcSt e o.a (n L / 4))) (shuffle o p f s) := by
  have from_eq (L : Nat) (hL : L < 32) : f L (lane (e.bop o.b o.lit).lanes L) = n L := by
    rw [hn, Env.lane_bop e o.b o.lit hL]; rfl
  refine wide_result' he ha rfl (fun i hi => ?lane) (fun j hj => ?stamp)
  case lane => exact (lane_vec _ i hi).trans (congrArg (lane (e.reg o.a.toNat).lanes) (from_eq i hi))
  case stamp =>
    rw [stampAt_vec _ j hj,
      ← map_sliceLanes e.act j fun L => stampAt (e.reg o.a.toNat).stamps (f L (lane (e.bop o.b o.lit).lanes L) / 4)]
    refine congrArg (olderAll e.now) (List.map_congr_left fun L hL => ?_)
    obtain ⟨k, hk, rfl, -⟩ := mem_sliceLanes.1 hL
    rw [from_eq _ (by omega)]; rfl

/-! ### SEL (R153) -/

/-- No active lane of the slice takes the other operand. -/
theorem nib_and_eq_zero_iff (act x : Word) {j : Nat} (hj : j < 8) :
    nib (act &&& ~~~x) j = 0 ↔ (sliceLanes act j).all (fun L => x.getLsbD L) = true := by
  rw [nib_zero_iff, all_sliceLanes]
  refine forall₂_congr fun k hk => ?_
  have h : 4 * j + k < 32 := by omega
  simp [h]

theorem sel_writes {o : RegOp} (he : s.env? = some e) (ha : e.accepts (regHow o)) :
    e.writes s (regHow o) o.d.toNat o.t (fun L => if (e.g.kreg 0).getLsbD L then src e o.a L else bsrc e o L)
      (fun j =>
        if (sliceLanes e.act j).all fun L => (e.g.kreg 0).getLsbD L then srcSt e o.a j
        else if (sliceLanes e.act j).all fun L => !(e.g.kreg 0).getLsbD L then bsrcSt e o j
        else older e.now (srcSt e o.a j) (bsrcSt e o j)) (execSel o s) := by
  refine wide_result' he ha rfl (fun i hi => ?lane) (fun j hj => ?stamp)
  case lane => rw [lane_vec _ i hi, Env.lane_bop e o.b o.lit hi]; rfl
  case stamp =>
    have hno : nib (e.act &&& e.g.kreg 0) j = 0 ↔ (sliceLanes e.act j).all (fun L => !(e.g.kreg 0).getLsbD L) = true := by
      rw [← BitVec.not_not (b := e.g.kreg 0), nib_and_eq_zero_iff _ _ hj, all_sliceLanes, all_sliceLanes]
      refine forall₂_congr fun k hk => ?_
      have h : 4 * j + k < 32 := by omega
      simp [h]
    simp only [stampAt_vec _ j hj, Env.stampAt_bop e o.b o.lit hj, nib_and_eq_zero_iff _ _ hj, hno]
    rfl

end

/-- Settles O7: the encodings are decoded; LSHFL and LXOR by `shuffle_writes`, SEL by `sel_writes`. -/
theorem laneMovementComputes : Obligations.LaneMovementComputes := by
  unfold Obligations.LaneMovementComputes
  refine ⟨⟨rfl, rfl, rfl⟩, fun s e o he => ⟨fun i h n hi ha => ?shuffle, sel_writes he⟩⟩
  case shuffle =>
    obtain ⟨rfl, rfl, rfl⟩ | ⟨rfl, rfl, rfl⟩ := hi
    · exact shuffle_writes (p := .sf) (f := fun _ b => b.toNat % 32) he ha fun _ => rfl
    · exact shuffle_writes (p := .fma) (f := fun i b => Nat.xor i (b.toNat % 32)) he ha fun _ => rfl

end Sys2Proof.Machine
end

section
/-! Mask registers, DMASK and PMASK (R113, R145, R154 to R156): the words that change them, bit by bit. -/

namespace Sys2Proof.Machine

open Sys2Proof.Claims

/-- A vector with another entry replaced. -/
theorem vat_vput_ne {α : Type} {n : Nat} (v : Vector α n) {i j : Nat} (x d : α) (h : j ≠ i) : vat (vput v i x) d j = vat v d j := by
  simp [vat, vput, Vector.toList, List.getD_eq_getElem?_getD, List.getElem?_set_ne (Ne.symm h)]

theorem Gang.kreg_put_same (g : Gang) {k : Nat} (hk : k < 8) (x : Word) : ({ g with k := vput g.k k x } : Gang).kreg k = x := by
  rw [Gang.kreg, vat_vput _ _ _ _ _ hk, if_pos rfl]

theorem Gang.kreg_put_ne (g : Gang) {k i : Nat} (hi : i ≠ k) (x : Word) : ({ g with k := vput g.k k x } : Gang).kreg i = g.kreg i :=
  vat_vput_ne _ _ _ hi

section
variable {s : State} {e : Env} {h : How}

/-! ### One mask register written -/

/-- R45: the mask registers that an accepted word names. -/
theorem Env.kreg_lt {k : BitVec 7} (ha : e.accepts h) (hk : .kreg k ∈ h.fields) : k.toNat < 8 :=
  of_decide_eq_true (List.all_eq_true.1 ha.1 _ hk)

/-- A word whose meaning puts `x` in mask register `k`. -/
theorem wide_setsMask {k : Nat} {x : Gang → Word} {m p : Nat → Bool} {body : Env → Res} (he : s.env? = some e)
    (ha : e.accepts h) (hk : k < 8)
    (hx : ∀ L < 32, (x e.g).getLsbD L = if m L then p L else (e.g.kreg k).getLsbD L)
    (hb : body e = .done (e.onGang fun g => { g with k := vput g.k k (x g) }) none) :
    setsMask e h k m p (wide s h body) := by
  refine ⟨{ e.g with k := vput e.g.k k (x e.g) }, rfl, fun i hi => Gang.kreg_put_ne _ hi _, fun L hL => ?_,
    wide_gang (f := fun g => { g with k := vput g.k k (x g) }) he ha hb⟩
  rw [Gang.kreg_put_same _ hk, hx L hL]

/-! ### Compares (R145, R154) -/

/-- A comparison in the active lanes. -/
theorem Env.compare_sets {k : BitVec 7} {a b : VReg} {p q : Word → Word → Bool} {r : Nat → Bool} {body : Env → Res}
    (he : s.env? = some e) (ha : e.accepts h) (hk : .kreg k ∈ h.fields) (hq : ∀ x y, q x y = p x y)
    (hr : ∀ L < 32, p (lane a.lanes L) (lane b.lanes L) = r L) (hb : body e = e.compare k.toNat a b q) :
    setsMask e h k.toNat (fun L => e.act.getLsbD L) r (wide s h body) := by
  refine wide_setsMask he ha (Env.kreg_lt ha hk) (fun L hL => ?_) hb
  rw [getLsbD_mergeMask _ _ _ L hL, getLsbD_lanesWhere _ _ L hL, hq, hr L hL]
  cases e.act.getLsbD L <;> rfl

theorem cmpReg_sets {o : CmpOp} {p q : Word → Word → Bool} (he : s.env? = some e)
    (ha : e.accepts ⟨o.s, o.c, .fma, if o.b = 127 then 2 else 1, false, [.kreg o.d, .v o.a, .b o.b]⟩)
    (hq : ∀ x y, q x y = p x y) :
    setsMask e ⟨o.s, o.c, .fma, if o.b = 127 then 2 else 1, false, [.kreg o.d, .v o.a, .b o.b]⟩ o.d.toNat
      (fun L => e.act.getLsbD L) (fun L => p (src e o.a L) (if o.b = 127 then o.lit else src e o.b L)) (cmpReg o q s) :=
  Env.compare_sets he ha List.mem_cons_self hq (fun _ hL => by rw [Env.lane_bop e o.b o.lit hL]; rfl) rfl

theorem cmpImm_sets {o : ImmOp} {p : Word → Bool} {q : Word → Word → Bool} (he : s.env? = some e)
    (ha : e.accepts ⟨o.s, o.c, .fma, 1, false, [.kreg o.d, .v o.a]⟩) (hq : ∀ x, q x (sext9 o.i) = p x) :
    setsMask e ⟨o.s, o.c, .fma, 1, false, [.kreg o.d, .v o.a]⟩ o.d.toNat
      (fun L => e.act.getLsbD L) (fun L => p (src e o.a L)) (cmpImm o q s) :=
  Env.compare_sets he ha List.mem_cons_self (fun _ _ => rfl) (fun _ hL => by rw [lane_splat _ _ hL, hq]; rfl) rfl

theorem exec_compare {i : Instr} {o : CmpOp} {p : Word → Word → Bool} (hi : Compare i o p) :
    ∃ q : Word → Word → Bool, (∀ x y, q x y = p x y) ∧ ∀ s, exec i s = cmpReg o q s := by
  cases hi with
  | fcmpeq | fcmplt | fcmple | icmpeq | icmplt | icmpltu => exact ⟨_, fun _ _ => rfl, fun _ => rfl⟩
  | icmpne => exact ⟨(· != ·), fun x y => Bool.eq_iff_iff.2 (by simp), fun _ => rfl⟩

theorem exec_compareImm {i : Instr} {o : ImmOp} {p : Word → Bool} (hi : CompareImm i o p) :
    ∃ q : Word → Word → Bool, (∀ x, q x (sext9 o.i) = p x) ∧ ∀ s, exec i s = cmpImm o q s := by
  cases hi with
  | icmpeq => exact ⟨(· == ·), fun x => by simp only [← toInt_sext9, BitVec.toInt_inj]; rfl, fun _ => rfl⟩
  | icmplt => exact ⟨fun x y => x.slt y, fun x => by rw [← toInt_sext9]; rfl, fun _ => rfl⟩

/-- Settles O8: the encodings are decoded; the compares by `cmpReg_sets` and `cmpImm_sets`. -/
theorem comparesSetMasks : Obligations.ComparesSetMasks := by
  unfold Obligations.ComparesSetMasks
  refine ⟨⟨rfl, rfl, rfl, rfl⟩, ⟨rfl, rfl⟩, fun s e he => ⟨fun i o p hi ha => ?reg, fun i o p hi ha => ?imm⟩⟩
  case reg =>
    obtain ⟨q, hq, hx⟩ := exec_compare hi
    rw [hx]
    exact cmpReg_sets he ha hq
  case imm =>
    obtain ⟨q, hq, hx⟩ := exec_compareImm hi
    rw [hx]
    exact cmpImm_sets he ha hq

/-! ### Mask logic (R155) -/

/-- The lanes of the slices of the group. -/
theorem Env.getLsbD_groupLanes (e : Env) {L : Nat} (hL : L < 32) : (laneMask e.m).getLsbD L = inGroup e L :=
  getLsbD_laneMask _ _ hL

theorem Env.getLsbD_present (e : Env) {L : Nat} (hL : L < 32) : e.present.getLsbD L = isPresent e L := getLsbD_laneMask _ _ hL

theorem maskLogic_sets {o : KOp} {f : Bool → Bool → Bool} {w : Word → Word → Word} (he : s.env? = some e)
    (ha : e.accepts ⟨o.s, o.c, .fma, 1, false, [.kreg o.d, .kreg o.a, .kreg o.b]⟩)
    (hw : ∀ x y, ∀ L < 32, (w x y).getLsbD L = f (x.getLsbD L) (y.getLsbD L)) :
    setsMask e ⟨o.s, o.c, .fma, 1, false, [.kreg o.d, .kreg o.a, .kreg o.b]⟩ o.d.toNat (inGroup e)
      (fun L => f ((e.g.kreg o.a.toNat).getLsbD L) ((e.g.kreg o.b.toNat).getLsbD L) && isPresent e L) (maskLogic o w s) := by
  refine wide_setsMask he ha (Env.kreg_lt ha List.mem_cons_self) (fun L hL => ?_) rfl
  rw [getLsbD_mergeMask _ _ _ L hL, e.getLsbD_groupLanes hL, BitVec.getLsbD_and, hw _ _ L hL, e.getLsbD_present hL]

theorem exec_maskOp {i : Instr} {o : KOp} {f : Bool → Bool → Bool} (hi : MaskOp i o f) : ∃ w : Word → Word → Word,
    (∀ x y, ∀ L < 32, (w x y).getLsbD L = f (x.getLsbD L) (y.getLsbD L)) ∧ ∀ s, exec i s = maskLogic o w s := by
  cases hi with
  | kand => exact ⟨(· &&& ·), fun x y L _ => BitVec.getLsbD_and, fun _ => rfl⟩
  | kor => exact ⟨(· ||| ·), fun x y L _ => BitVec.getLsbD_or, fun _ => rfl⟩
  | kxor => exact ⟨(· ^^^ ·), fun x y L _ => BitVec.getLsbD_xor, fun _ => rfl⟩
  | kandn => exact ⟨fun x y => x &&& ~~~y, fun x y L hL => by simp [hL], fun _ => rfl⟩

/-- Settles O9: the encodings are decoded; a bitwise operation on both registers by `maskLogic_sets`. -/
theorem maskLogicActsOnPresentLanes : Obligations.MaskLogicActsOnPresentLanes := by
  unfold Obligations.MaskLogicActsOnPresentLanes
  refine ⟨⟨rfl, rfl, rfl, rfl⟩, fun s e i o f he hi ha => ?_⟩
  obtain ⟨w, hw, hx⟩ := exec_maskOp hi
  rw [hx]
  exact maskLogic_sets he ha hw

/-! ### Divergence and predicate words (R156) -/

/-- The gang `g` has taken, at the present lanes of the group, the bits that `f` gives of register `k`, DMASK and PMASK. -/
structure Env.Diverged (e : Env) (k : BitVec 3) (f : Bool → Bool → Bool → Bool × Bool × Bool) (g : Gang) : Prop where
  frame : g = { e.g with k := g.k, dmask := g.dmask, pmask := g.pmask }
  others : ∀ j, j ≠ k.toNat → g.kreg j = e.g.kreg j
  bits : ∀ L, L < 32 → ((g.kreg k.toNat).getLsbD L, g.dmask.getLsbD L, g.pmask.getLsbD L) =
    if inGroup e L && isPresent e L then f ((e.g.kreg k.toNat).getLsbD L) (e.g.dmask.getLsbD L) (e.g.pmask.getLsbD L)
    else ((e.g.kreg k.toNat).getLsbD L, e.g.dmask.getLsbD L, e.g.pmask.getLsbD L)

/-- The lanes that divergence words change. -/
def Env.lanesHere (e : Env) : Word := laneMask e.m &&& e.present

theorem Env.getLsbD_merge_here (e : Env) (x y : Word) {L : Nat} (hL : L < 32) :
    (mergeMask e.lanesHere x y).getLsbD L = if inGroup e L && isPresent e L then x.getLsbD L else y.getLsbD L := by
  rw [getLsbD_mergeMask _ _ _ L hL, Env.lanesHere, BitVec.getLsbD_and, e.getLsbD_groupLanes hL, e.getLsbD_present hL]

variable {k : BitVec 3} {f : Bool → Bool → Bool → Bool × Bool × Bool} {x : Word}

/-- A mask register saved. -/
theorem Env.diverged_k (hx : ∀ L < 32, ∀ a, f a (e.g.dmask.getLsbD L) (e.g.pmask.getLsbD L) =
      (x.getLsbD L, e.g.dmask.getLsbD L, e.g.pmask.getLsbD L)) :
    e.Diverged k f { e.g with k := vput e.g.k k.toNat (mergeMask e.lanesHere x (e.g.kreg k.toNat)) } := by
  refine ⟨rfl, fun j hj => Gang.kreg_put_ne _ hj _, fun L hL => ?_⟩
  rw [Gang.kreg_put_same _ k.isLt, e.getLsbD_merge_here _ _ hL, hx L hL]
  split <;> rfl

/-- DMASK changed. -/
theorem Env.diverged_d (hx : ∀ L < 32, f ((e.g.kreg k.toNat).getLsbD L) (e.g.dmask.getLsbD L) (e.g.pmask.getLsbD L) =
      ((e.g.kreg k.toNat).getLsbD L, x.getLsbD L, e.g.pmask.getLsbD L)) :
    e.Diverged k f { e.g with dmask := mergeMask e.lanesHere x e.g.dmask } := by
  refine ⟨rfl, fun _ _ => rfl, fun L hL => ?_⟩
  rw [e.getLsbD_merge_here _ _ hL, hx L hL]
  split <;> rfl

/-- PMASK changed. -/
theorem Env.diverged_p (hx : ∀ L < 32, f ((e.g.kreg k.toNat).getLsbD L) (e.g.dmask.getLsbD L) (e.g.pmask.getLsbD L) =
      ((e.g.kreg k.toNat).getLsbD L, e.g.dmask.getLsbD L, x.getLsbD L)) :
    e.Diverged k f { e.g with pmask := mergeMask e.lanesHere x e.g.pmask } := by
  refine ⟨rfl, fun _ _ => rfl, fun L hL => ?_⟩
  rw [e.getLsbD_merge_here _ _ hL, hx L hL]
  split <;> rfl

theorem exec_diverge {i : Instr} {sb c : Bool} (hi : Diverge i sb c k f) : ∃ F : Gang → Word → Gang,
    (∀ e : Env, e.Diverged k f (F e.g e.lanesHere)) ∧ ∀ s, exec i s = maskWord sb c F s := by
  cases hi with
  | dmsave =>
    exact ⟨fun g l => { g with k := vput g.k k.toNat (mergeMask l g.dmask (g.kreg k.toNat)) },
      fun _ => Env.diverged_k fun _ _ _ => rfl, fun _ => rfl⟩
  | pmsave =>
    exact ⟨fun g l => { g with k := vput g.k k.toNat (mergeMask l g.pmask (g.kreg k.toNat)) },
      fun _ => Env.diverged_k fun _ _ _ => rfl, fun _ => rfl⟩
  | dmset =>
    exact ⟨fun g l => { g with dmask := mergeMask l (g.kreg k.toNat) g.dmask }, fun _ => Env.diverged_d fun _ _ => rfl, fun _ => rfl⟩
  | dmand =>
    exact ⟨fun g l => { g with dmask := mergeMask l (g.dmask &&& g.kreg k.toNat) g.dmask },
      fun _ => Env.diverged_d fun _ _ => by rw [BitVec.getLsbD_and], fun _ => rfl⟩
  | dmandn =>
    exact ⟨fun g l => { g with dmask := mergeMask l (g.dmask &&& ~~~(g.kreg k.toNat)) g.dmask },
      fun _ => Env.diverged_d fun L hL => by simp [hL], fun _ => rfl⟩
  | pmset =>
    exact ⟨fun g l => { g with pmask := mergeMask l (g.kreg k.toNat) g.pmask }, fun _ => Env.diverged_p fun _ _ => rfl, fun _ => rfl⟩
  | pmand =>
    exact ⟨fun g l => { g with pmask := mergeMask l (g.pmask &&& g.kreg k.toNat) g.pmask },
      fun _ => Env.diverged_p fun _ _ => by rw [BitVec.getLsbD_and], fun _ => rfl⟩

/-- Settles O10: each word changes one of the three masks, at the lanes that the group has there (`Env.Diverged`). -/
theorem divergenceWordsChangeMasks : Obligations.DivergenceWordsChangeMasks := by
  unfold Obligations.DivergenceWordsChangeMasks
  intro s e i sb c k f he hi ha
  obtain ⟨F, hF, hx⟩ := exec_diverge hi
  obtain ⟨frame, others, bits⟩ := hF e
  refine ⟨F e.g e.lanesHere, frame, others, bits, ?_⟩
  rw [hx]
  exact wide_gang (f := fun g => F g e.lanesHere) he ha rfl

end

end Sys2Proof.Machine
end

section
/-! Special functions (R144), uniform moves and SRD (R118, R162), spill frames (R123, R161). -/

namespace Sys2Proof.Machine

open Sys2Proof.Claims

section
variable {s : State} {e : Env}

/-! ### Special functions (R120, R144) -/

theorem exec_special {i : Instr} {o : UnOp} {f : Nat → Nat} (hi : Special i o f) (s : State) :
    exec i s = aluSpecial o (fun a => BitVec.ofNat 32 (f a.toNat)) s := by
  cases hi <;> rfl

/-- The result of a special function, as it is posted. -/
def Env.specialPend (e : Env) (o : UnOp) (v : Vector Word 32) : Pend :=
  { Pend.new e.m e.pc (.spec o.d.toNat e.act v (e.reg o.a.toNat).stamps) 1 with tr := o.t, at' := e.now }

theorem aluSpecial_eq (o : UnOp) (f : Word → Word) (s : State) :
    aluSpecial o f s = wide s ⟨o.s, o.c, .sf, 1, false, [.v o.d, .v o.a]⟩ fun e =>
      .done (e.onGang (·.pushPend (e.specialPend o (lanes1 f (e.reg o.a.toNat))))) none := rfl

/-- Settles O5: a special function posts its result (`Gang.pushPend`) and changes nothing else of its gang. -/
theorem specialFunctionsArePosted : Obligations.SpecialFunctionsArePosted := by
  unfold Obligations.SpecialFunctionsArePosted
  intro s e i o f he hi ha
  refine ⟨lanes1 (fun a => BitVec.ofNat 32 (f a.toNat)) (e.reg o.a.toNat), fun L hL => lane_lanes1 _ _ L hL, ?_⟩
  rw [exec_special hi, aluSpecial_eq]
  exact wide_gang (f := (·.pushPend (e.specialPend o (lanes1 _ (e.reg o.a.toNat))))) he ha rfl

/-! ### Uniform moves (R162) -/

theorem exec_wmov (sb c : Bool) (d : BitVec 4) (a : BitVec 7) (l : BitVec 5) (s : State) :
    exec (.wmov sb c d a l) s = wide s (sysHow sb c .fma [.v a]) fun e =>
      e.resultW d ⟨(src e a l.toNat).setWidth 64, srcSt e a (l.toNat / 4)⟩ := rfl

theorem exec_waddi (sb c : Bool) (d w : BitVec 4) (i : BitVec 12) (s : State) :
    exec (.waddi sb c d w i) s = wide s (sysHow sb c .fma []) fun e =>
      e.resultW d ⟨(e.wreg w).val + BitVec.ofInt 64 i.toInt, (e.wreg w).stamp⟩ := rfl

theorem exec_vbcast (sb c : Bool) (d : BitVec 7) (h : Bool) (w : BitVec 4) (s : State) :
    exec (.vbcast sb c d h w) s = wide s (sysHow sb c .fma [.v d]) fun e =>
      let y := splat ((if h then (e.wreg w).val >>> 32 else (e.wreg w).val).setWidth 32) (e.wreg w).stamp
      e.result d.toNat false y.lanes y.stamps := rfl

theorem exec_srd (sb c : Bool) (d : BitVec 7) (r : BitVec 6) (s : State) :
    exec (.srd sb c d r) s = wide s (sysHow sb c .fma [.v d]) fun e =>
      e.result d.toNat false (vec 32 (e.special r)) (Vector.replicate 8 ageless) := rfl

theorem setWidth_eq_ofNat (x : Word) : x.setWidth 64 = BitVec.ofNat 64 x.toNat := (BitVec.ofNat_toNat 64 x).symm

/-- The low half of a doubleword. -/
theorem lowHalf_eq (x : DWord) : x.setWidth 32 = x.extractLsb' 0 32 := BitVec.setWidth_eq_extractLsb' (by omega)

/-- The high half of a doubleword. -/
theorem highHalf_eq (x : DWord) : (x >>> 32).setWidth 32 = x.extractLsb' 32 32 := by
  apply BitVec.eq_of_toNat_eq
  simp

/-- The half that VBCAST takes. -/
theorem dwordHalf_eq (x : DWord) (h : Bool) :
    (if h then x >>> 32 else x).setWidth 32 = x.extractLsb' (if h then 32 else 0) 32 := by
  cases h with
  | false => exact lowHalf_eq x
  | true => exact highHalf_eq x

/-- R118: the special registers. -/
theorem Env.special_eq_srd (e : Env) (r : BitVec 6) (L : Nat) : e.special r L = srd e L r.toNat := by
  unfold Env.special
  simp only [lowHalf_eq]
  rfl

/-- Settles O13: WMOV and WADDI write a uniform register, VBCAST and SRD every active lane (`dwordHalf_eq`, `Env.special_eq_srd`). -/
theorem uniformMovesAndSpecialRegisters : Obligations.UniformMovesAndSpecialRegisters := by
  unfold Obligations.UniformMovesAndSpecialRegisters
  intro s e sb c he
  refine ⟨fun d a l ha => ?wmov, fun d w i ha => ?waddi, fun d h w ha => ?vbcast, fun d r ha => ?srd⟩
  case wmov => rw [exec_wmov, ← setWidth_eq_ofNat]; exact wide_setsUniform he ha rfl
  case waddi => rw [exec_waddi]; exact wide_setsUniform he ha rfl
  case vbcast =>
    rw [exec_vbcast, ← dwordHalf_eq]
    exact wide_result' he ha rfl (fun _ hi => lane_splat _ _ hi) fun _ hj => stampAt_splat _ _ hj
  case srd =>
    rw [exec_srd]
    exact wide_result' he ha rfl (fun i hi => (lane_vec _ i hi).trans (e.special_eq_srd r i)) fun j hj => vat_replicate 8 _ _ j hj

/-! ### Spill frames (R123, R161) -/

/-- A spill region once the registers `r 0` to `r (k − 1)` stand in the frames from `base` on. -/
def putFrames (t : Tbl VReg) (base : Nat) (r : Nat → VReg) (k : Nat) : Tbl VReg :=
  (List.range k).foldl (fun t i => Tbl.set t (base + 160 * i) (r i)) t

theorem putFrames_succ (t : Tbl VReg) (base : Nat) (r : Nat → VReg) (k : Nat) :
    putFrames t base r (k + 1) = Tbl.set (putFrames t base r k) (base + 160 * k) (r k) := by
  rw [putFrames, List.range_succ, List.foldl_append]
  rfl

theorem get?_putFrames_same (t : Tbl VReg) (base : Nat) (r : Nat → VReg) {k i : Nat} (h : i < k) :
    Tbl.get? (putFrames t base r k) (base + 160 * i) = some (r i) := by
  induction k with
  | zero => omega
  | succ k ih =>
    rw [putFrames_succ, Tbl.get?_set]
    split
    · next he => rw [show i = k by omega]
    · exact ih (by omega)

theorem get?_putFrames_other (t : Tbl VReg) (base : Nat) (r : Nat → VReg) {k x : Nat} (h : ∀ i < k, x ≠ base + 160 * i) :
    Tbl.get? (putFrames t base r k) x = Tbl.get? t x := by
  induction k with
  | zero => rfl
  | succ k ih => rw [putFrames_succ, Tbl.get?_set_ne _ _ (h k (by omega)), ih fun i hi => h i (by omega)]

/-- The registers that the frames from `base` on hold. -/
def takeFrames (t : Tbl VReg) (base k : Nat) : List VReg :=
  (List.range k).map fun i => Tbl.getD t (base + 160 * i) ⟨Vector.replicate 32 0, Vector.replicate 8 ancient⟩

theorem getElem?_takeFrames {t : Tbl VReg} {base k i : Nat} {x : VReg} (h : i < k) (hx : Tbl.get? t (base + 160 * i) = some x) :
    (takeFrames t base k)[i]? = some x := by
  simp [takeFrames, h, Tbl.getD, hx]

/-- The gang once it has stored `k` registers from `a` on. -/
def Env.pushed (e : Env) (a k : Nat) (g : Gang) : Gang :=
  { g with spill := putFrames g.spill g.spp (fun i => e.reg (a + i)) k, spp := g.spp + 160 * k }

/-- The meaning of PUSHM. -/
def Env.pushm (e : Env) (a k : Nat) : Res :=
  if e.b.shape.spill < e.g.spp + 160 * k then .fault e.s 0x26 0 else .done (e.onGang (e.pushed a k)) none

theorem exec_pushm (sb c : Bool) (a b : BitVec 7) (s : State) : exec (.pushm sb c a b) s =
    wide s (sysHow sb c .mem [.strict a.toNat, .strict b.toNat]) fun e => e.pushm a.toNat (b.toNat + 1 - a.toNat) := rfl

/-- The result that POPM posts. -/
def Env.framesPend (e : Env) (a k : Nat) : Pend :=
  Pend.new e.m e.pc (.frames a (takeFrames e.g.spill (e.g.spp - 160 * k) k)) k

/-- The gang once it has given up `k` frames for the registers from `a` on. -/
def Env.popped (e : Env) (a k : Nat) (g : Gang) : Gang := { g with spp := e.g.spp - 160 * k }.pushPend (e.framesPend a k)

/-- The meaning of POPM. -/
def Env.popm (e : Env) (a k : Nat) : Res :=
  if e.g.spp < 160 * k then .fault e.s 0x26 1
  else .done (e.pend (e.onGang fun g => { g with spp := e.g.spp - 160 * k }) (e.framesPend a k)) none

theorem exec_popm (sb c : Bool) (a b : BitVec 7) (s : State) : exec (.popm sb c a b) s =
    wide s (sysHow sb c .mem [.strict a.toNat, .strict b.toNat]) fun e => e.popm a.toNat (b.toNat + 1 - a.toNat) := rfl

theorem Env.popm_held {e : Env} {a k : Nat} (h : 160 * k ≤ e.g.spp) : e.popm a k = .done (e.onGang (e.popped a k)) none :=
  (if_neg (Nat.not_lt.2 h)).trans (congrArg (Res.done · none) (State.onGang_onGang ..))

/-- Settles O14: PUSHM stores frames (`putFrames`) where there is room, POPM posts those it takes (`takeFrames`) where there are enough. -/
theorem spillMovesFrames : Obligations.SpillMovesFrames := by
  unfold Obligations.SpillMovesFrames
  intro s e sb c a b he _ ha h k
  have hs := (State.env?_some he).1
  subst hs
  refine ⟨fun hroom => ?push, fun hfull => ?full, fun hheld => ?pop, fun hlow => ?low⟩
  case push =>
    refine ⟨e.pushed a.toNat k e.g, rfl, fun i hi => get?_putFrames_same _ _ (fun i => e.reg (a.toNat + i)) hi,
      fun x hx => get?_putFrames_other _ _ _ hx, ?_⟩
    rw [exec_pushm]
    exact wide_gang (f := e.pushed a.toNat k) he ha (if_neg (Nat.not_lt.2 hroom))
  case full => rw [exec_pushm]; exact wide_gives he ha (if_pos hfull)
  case pop =>
    refine ⟨takeFrames e.g.spill (e.g.spp - 160 * k) k, by simp [takeFrames], fun i x hi hx => getElem?_takeFrames hi hx, ?_⟩
    rw [exec_popm]
    exact wide_gang (f := e.popped a.toNat k) he ha (Env.popm_held hheld)
  case low => rw [exec_popm]; exact wide_gives he ha (if_pos hlow)

end

end Sys2Proof.Machine
end

section
/-! Stamp words (R263, R264): STGET, STAGE and STNOW write data read from stamps, STSET, STAGELESS and STOLD the stamps alone. -/

namespace Sys2Proof.Machine

open Sys2Proof.Claims

section
variable {s : State} {e : Env}

/-! ### The words -/

theorem exec_stget (sb c : Bool) (d a : BitVec 7) (s : State) : exec (.stget sb c d a) s =
    stampData sb c d [.v a] (fun e i => (stampAt (e.reg a.toNat).stamps (i / 4)).setWidth 32) s := rfl

theorem exec_stage (sb c : Bool) (d a : BitVec 7) (s : State) : exec (.stage sb c d a) s =
    stampData sb c d [.v a] (fun e i => ageWord e.now (stampAt (e.reg a.toNat).stamps (i / 4))) s := rfl

theorem exec_stnow (sb c : Bool) (d : BitVec 7) (s : State) : exec (.stnow sb c d) s =
    stampData sb c d [] (fun e _ => e.now.setWidth 32) s := rfl

theorem exec_stset (sb c : Bool) (d a : BitVec 7) (s : State) : exec (.stset sb c d a) s =
    stampOnly sb c d [.v a] true (fun e j => (lane (e.reg a.toNat).lanes (lowLane e.act j)).setWidth 24) s := rfl

theorem exec_stageless (sb c : Bool) (d : BitVec 7) (s : State) : exec (.stageless sb c d) s =
    stampOnly sb c d [] true (fun _ _ => ageless) s := rfl

theorem exec_stold (sb c : Bool) (d a : BitVec 7) (b : BitVec 6) (s : State) : exec (.stold sb c d a b) s =
    stampOnly sb c d [.v a, .strict b.toNat] false
      (fun e j => older e.now (stampAt (e.reg a.toNat).stamps j) (stampAt (e.reg b.toNat).stamps j)) s := rfl

/-- A stamp as a word. -/
theorem stampWord_eq (x : Stamp) : x.setWidth 32 = BitVec.ofNat 32 x.toNat := (BitVec.ofNat_toNat 32 x).symm

/-- The stamp in a word. -/
theorem wordStamp_eq (x : Word) : x.setWidth 24 = x.extractLsb' 0 24 := BitVec.setWidth_eq_extractLsb' (by omega)

theorem ageWord_eq (now st : Stamp) : ageWord now st = match age now st with
    | some n => BitVec.ofNat 32 n
    | none => 0xFFFFFFFF := by
  unfold ageWord
  cases age now st <;> rfl

/-! ### Data from stamps (R263) -/

/-- A word that writes lane data from a stamp gives them the stamp AGELESS. -/
theorem stampData_writes {sb c : Bool} {d : BitVec 7} {l : List RegField} {f : Env → Nat → Word} {x : Nat → Word}
    (he : s.env? = some e) (ha : e.accepts (sysHow sb c .fma (.v d :: l))) (hx : ∀ i < 32, f e i = x i) :
    e.writes s (sysHow sb c .fma (.v d :: l)) d.toNat false x (fun _ => ageless) (stampData sb c d l f s) :=
  wide_result' he ha rfl (fun i hi => (lane_vec _ i hi).trans (hx i hi)) fun j hj => vat_replicate 8 _ _ j hj

/-! ### Stamps alone (R263, R264) -/

/-- A stamp-only write changes the bank, the transients and the open results of a gang. -/
theorem Gang.writeStamps_frame (g : Gang) (r : Nat) (m : BitVec 8) (st : Vector Stamp 8) :
    g.writeStamps r m st = { g with
      v := (g.writeStamps r m st).v, window := (g.writeStamps r m st).window, pend := (g.writeStamps r m st).pend } := by
  unfold Gang.writeStamps
  split <;> rfl

theorem Gang.writeStamps_vz (g : Gang) (m : BitVec 8) (st : Vector Stamp 8) : g.writeStamps 126 m st = g := if_pos rfl

theorem Gang.bank_writeStamps (g : Gang) {d : Nat} (hd : d ≠ 126) (m : BitVec 8) (st : Vector Stamp 8) (r : Nat) :
    (g.writeStamps d m st).bank r = if r = d then ⟨(g.bank d).lanes, vec 8 fun j =>
      if m.getLsbD j then stampAt st j else stampAt (g.bank d).stamps j⟩ else g.bank r := by
  rw [Gang.writeStamps, if_neg hd]
  exact Tbl.getD_set ..

theorem Gang.lanes_bank_writeStamps (g : Gang) (d : Nat) (m : BitVec 8) (st : Vector Stamp 8) (r : Nat) :
    ((g.writeStamps d m st).bank r).lanes = (g.bank r).lanes := by
  by_cases hd : d = 126
  · rw [hd, Gang.writeStamps_vz]
  · rw [Gang.bank_writeStamps g hd]
    split
    · next h => rw [h]
    · rfl

theorem Gang.bank_writeStamps_ne (g : Gang) {d r : Nat} (h : r ≠ d) (m : BitVec 8) (st : Vector Stamp 8) :
    (g.writeStamps d m st).bank r = g.bank r := by
  by_cases hd : d = 126
  · rw [hd, Gang.writeStamps_vz]
  · rw [Gang.bank_writeStamps g hd, if_neg h]

/-- The slices with an active lane take the stamps written (R263). -/
theorem Env.stampAt_writeStamps (e : Env) {d : Nat} (hd : d ≠ 126) (f : Nat → Stamp) {j : Nat} (hj : j < 8) :
    stampAt ((e.g.writeStamps d e.touched (vec 8 f)).bank d).stamps j =
      if nib e.act j = 0 then stampAt (e.g.bank d).stamps j else f j := by
  rw [Gang.bank_writeStamps _ hd, if_pos rfl, stampAt_vec _ j hj, stampAt_vec _ j hj, Env.touched, getLsbD_slicesOf _ j hj]
  by_cases h : nib e.act j = 0 <;> simp [h]

/-- What a stamp-only word that may write leaves of its gang: no lane, no other register, no slice without an active lane. -/
def Env.stamped (e : Env) (d : BitVec 7) (f : Nat → Stamp) (g : Gang) : Prop :=
  g = { e.g with v := g.v, window := g.window, pend := g.pend } ∧ (d = 126 → g = e.g) ∧
    (∀ r, (g.bank r).lanes = (e.g.bank r).lanes) ∧ (∀ r, r ≠ d.toNat → g.bank r = e.g.bank r) ∧
    (d ≠ 126 → ∀ j, j < 8 → stampAt (g.bank d.toNat).stamps j =
      if nib e.act j = 0 then stampAt (e.g.bank d.toNat).stamps j else f j)

theorem Env.stamped_writeStamps (e : Env) (d : BitVec 7) (f : Nat → Stamp) :
    e.stamped d f (e.g.writeStamps d.toNat e.touched (vec 8 f)) := by
  have hz : d.toNat = 126 ↔ d = 126 := by rw [← BitVec.toNat_inj]; rfl
  exact ⟨Gang.writeStamps_frame .., fun h => by rw [hz.2 h, Gang.writeStamps_vz], Gang.lanes_bank_writeStamps _ _ _ _,
    fun _ h => Gang.bank_writeStamps_ne _ h _ _, fun hd _ hj => e.stampAt_writeStamps (hz.not.2 hd) f hj⟩

/-- A stamp-only word that needs the restamp right faults without it. -/
theorem stampOnly_fault {sb c : Bool} {d : BitVec 7} {l : List RegField} {f : Env → Nat → Stamp} (he : s.env? = some e)
    (ha : e.accepts (sysHow sb c .fma (.v d :: l))) (hr : e.s.restamp e.ctx = false) :
    stampOnly sb c d l true f s = .next (e.completes (sysHow sb c .fma (.v d :: l)) (.fault s 0x31 0)) := by
  rw [← (State.env?_some he).1]
  refine (wide_completes (by rw [(State.env?_some he).1]; exact he) ha _).trans ?_
  simp [hr]

/-- One that has it, or needs none, writes the stamps of the slices with an active lane. -/
theorem stampOnly_gang {sb c : Bool} {d : BitVec 7} {l : List RegField} {right : Bool} {f : Env → Nat → Stamp}
    (he : s.env? = some e) (ha : e.accepts (sysHow sb c .fma (.v d :: l))) (hr : right = true → e.s.restamp e.ctx = true) :
    gangDone e (sysHow sb c .fma (.v d :: l)) (e.g.writeStamps d.toNat e.touched (vec 8 (f e))) (stampOnly sb c d l right f s) := by
  refine wide_gang (f := fun g => g.writeStamps d.toNat e.touched (vec 8 (f e))) he ha ?_
  cases right with
  | false => rfl
  | true => simp [hr rfl]

end

/-- Settles O23: STGET, STAGE and STNOW by `stampData_writes`; STSET, STAGELESS and STOLD by `stampOnly_fault` and `stampOnly_gang`. -/
theorem stampWordsComplete : Obligations.StampWordsComplete := by
  unfold Obligations.StampWordsComplete
  intro s e sb c d a b he
  refine ⟨fun ha => ⟨?stget, ?stage⟩, fun ha => ?stnow, fun i l f hi ha => ⟨fun hr hn => ?fault, fun hr => ?stamps⟩⟩
  case stget => exact stampData_writes he ha fun _ _ => stampWord_eq _
  case stage => exact stampData_writes he ha fun _ _ => ageWord_eq _ _
  case stnow => exact stampData_writes he ha fun _ _ => stampWord_eq _
  case fault =>
    obtain ⟨rfl, rfl, rfl⟩ | ⟨rfl, rfl, rfl⟩ | ⟨rfl, rfl, rfl⟩ := hi
    · rw [exec_stset]; exact stampOnly_fault he ha hr
    · rw [exec_stageless]; exact stampOnly_fault he ha hr
    · exact absurd rfl hn
  case stamps =>
    have done {right : Bool} {l : List RegField} {h : Env → Nat → Stamp} (ha : e.accepts (sysHow sb c .fma (.v d :: l)))
        (hf : h e = f) (hr : right = true → e.s.restamp e.ctx = true) :
        ∃ g, gangDone e (sysHow sb c .fma (.v d :: l)) g (stampOnly sb c d l right h s) ∧ e.stamped d f g :=
      ⟨_, stampOnly_gang he ha hr, by rw [hf]; exact e.stamped_writeStamps d f⟩
    obtain ⟨rfl, rfl, rfl⟩ | ⟨rfl, rfl, rfl⟩ | ⟨rfl, rfl, rfl⟩ := hi
    · rw [exec_stset]
      exact done ha (funext fun j => wordStamp_eq _) fun _ => hr.resolve_right nofun
    · rw [exec_stageless]
      exact done ha rfl fun _ => hr.resolve_right nofun
    · rw [exec_stold]
      exact done ha rfl nofun

end Sys2Proof.Machine
end

section
/-! What the units of the lagoon and the base dies change of the machine as they write memory (R175, R184, R366, R373): memory and what
agents may still read of it, the clock of writes, two counters of a base die, the writes that are held, and the stashes and L1s. -/

namespace Sys2Proof

/-! ### Tables changed entry by entry -/

theorem Tbl.get?_map {α β : Type} (t : Tbl α) (f : α → β) (k : Nat) :
    Tbl.get? (t.map fun e => (e.1, f e.2)) k = (Tbl.get? t k).map f := by
  induction t with
  | nil => rfl
  | cons e r ih =>
    simp only [List.map_cons, Tbl.get?]
    split
    · rfl
    · exact ih

theorem Tbl.get?_filter_key {α : Type} (t : Tbl α) (p : Nat → Bool) (k : Nat) :
    Tbl.get? (t.filter fun e => p e.1) k = if p k then Tbl.get? t k else none := by
  induction t with
  | nil => simp [Tbl.get?]
  | cons e r ih =>
    obtain ⟨j, x⟩ := e
    by_cases hj : j = k
    · subst hj
      by_cases hp : p j = true <;> simp [hp, Tbl.get?, ih]
    · by_cases hp : p j = true <;> simp [hp, hj, Tbl.get?, ih]

namespace Machine

open Sys2Proof.Claims

/-! ### The frame -/

theorem baseOf_lt (pa : Nat) : baseOf pa < 24 := by
  unfold baseOf
  omega

/-- The base die, the stack and the channel of an address are those of its sector. -/
theorem baseOf_sector (pa : Nat) : baseOf (32 * (pa / 32)) = baseOf pa := by
  unfold baseOf tierOff
  omega

theorem offline_sector (s : State) (pa : Nat) : s.offline (32 * (pa / 32)) = s.offline pa := by
  unfold State.offline
  rw [baseOf_sector, show channelOf (32 * (pa / 32)) = channelOf pa by unfold channelOf stackOff tierOff; omega]

theorem memReady_sector (s : State) (pa : Nat) : s.memReady (32 * (pa / 32)) = s.memReady pa := by
  unfold State.memReady
  rw [baseOf_sector]

/-- `t` is `s` but for what writes to memory change: no field beside these, no TLB, no counter beside two of the base dies. -/
structure Homes (s t : State) : Prop where
  frame : t = { s with
    mem := t.mem, hist := t.hist, olds := t.olds, heads := t.heads, clock := t.clock, counters := t.counters
    heldPuts := t.heldPuts, cores := t.cores }
  tlb : ∀ c, (t.core c).tlb = (s.core c).tlb
  counters : ∀ k, (∀ d < 24, k ≠ baseCtr d 6 ∧ k ≠ baseCtr d 7) → Tbl.getD t.counters k 0 = Tbl.getD s.counters k 0

section
variable {s t u : State}

theorem Homes.refl (s : State) : Homes s s := ⟨rfl, fun _ => rfl, fun _ _ => rfl⟩

theorem Homes.trans (h : Homes s t) (k : Homes t u) : Homes s u := by
  refine ⟨?_, fun c => (k.tlb c).trans (h.tlb c), fun n hn => (k.counters n hn).trans (h.counters n hn)⟩
  exact k.frame.trans (congrArg (fun x : State => { x with
    mem := u.mem, hist := u.hist, olds := u.olds, heads := u.heads, clock := u.clock, counters := u.counters
    heldPuts := u.heldPuts, cores := u.cores }) h.frame)

theorem Homes.ready (h : Homes s t) : t.ready = s.ready := (congrArg State.ready h.frame :)
theorem Homes.bases (h : Homes s t) : t.bases = s.bases := (congrArg State.bases h.frame :)
theorem Homes.done (h : Homes s t) : t.done = s.done := (congrArg State.done h.frame :)
theorem Homes.dir (h : Homes s t) : t.dir = s.dir := (congrArg State.dir h.frame :)
theorem Homes.shooting (h : Homes s t) : t.shooting = s.shooting := (congrArg State.shooting h.frame :)
theorem Homes.cycles (h : Homes s t) : t.cycles = s.cycles := (congrArg State.cycles h.frame :)

theorem Homes.memReady (h : Homes s t) (pa : Nat) : t.memReady pa = s.memReady pa := by simp [State.memReady, h.ready]

theorem Homes.offline (h : Homes s t) (pa : Nat) : t.offline pa = s.offline pa := by simp [State.offline, State.base, h.bases]

theorem Homes.region (h : Homes s t) (r : Nat) : t.region r = s.region r := by simp [State.region, h.dir]

theorem Homes.foldl {α : Type} {f : State → α → State} (hf : ∀ s a, Homes s (f s a)) (s : State) (l : List α) :
    Homes s (l.foldl f s) :=
  List.foldlRecOn (motive := fun t => Homes s t) l f (Homes.refl s) fun t ht a _ => ht.trans (hf t a)

/-- A change that keeps the cores and the counters. -/
theorem Homes.of_fields (hf : t = { s with
    mem := t.mem, hist := t.hist, olds := t.olds, heads := t.heads, clock := t.clock, counters := t.counters
    heldPuts := t.heldPuts, cores := t.cores }) (hc : t.cores = s.cores) (hn : t.counters = s.counters) : Homes s t :=
  ⟨hf, fun c => by rw [State.core, State.core, hc, congrArg State.cycles hf], fun k _ => by rw [hn]⟩

/-- A write that its home does not take is counted (R217, R219). -/
theorem Homes.count (s : State) {d k : Nat} (hd : d < 24) (hk : k = 6 ∨ k = 7) (n : Nat) : Homes s (s.count (baseCtr d k) n) := by
  refine ⟨rfl, fun _ => rfl, fun x hx => ?_⟩
  have := hx d hd
  rw [State.count, Tbl.getD_set, if_neg]
  obtain rfl | rfl := hk
  · exact this.1
  · exact this.2

theorem Homes.setCore (s : State) (c : Nat) {x : Core} (hx : x.tlb = (s.core c).tlb) : Homes s (s.setCore c x) := by
  refine ⟨rfl, fun d => ?_, fun _ _ => rfl⟩
  rw [State.core_setCore]
  split
  · next h => rw [h, hx]
  · rfl

theorem Homes.onBlock (s : State) (c b : Nat) (f : Block → Block) : Homes s (s.onBlock c b f) := by
  unfold State.onBlock
  split
  · exact Homes.setCore s c rfl
  · exact Homes.refl s

/-! ### Writes to memory -/

theorem Homes.homePut (s : State) (now : Stamp) (sec : Nat) (w : List (Nat × Byte)) (r : StampRule) :
    Homes s (s.homePut now sec w r) := by
  unfold State.homePut
  split
  · exact Homes.count s (baseOf_lt _) (.inl rfl) 1
  · split
    · exact Homes.count s (baseOf_lt _) (.inr rfl) 1
    · exact Homes.of_fields rfl rfl rfl

theorem Homes.homeSet (s : State) (sec : Nat) (data : List Byte) (st : Stamp) (bad : Bool) :
    Homes s (s.homeSet sec data st bad) := by
  unfold State.homeSet
  split
  · exact Homes.count s (baseOf_lt _) (.inl rfl) 1
  · exact Homes.of_fields rfl rfl rfl

theorem Homes.homeLine (s : State) (x : StashLine) : Homes s (s.homeLine x) := by
  refine Homes.foldl (fun s k => ?_) s _
  dsimp only
  split
  · exact Homes.homeSet ..
  · exact Homes.of_fields rfl rfl rfl

theorem Homes.lineBack (s : State) (x : StashLine) : Homes s (if x.dirty then s.homeLine x else s) := by
  split
  · exact Homes.homeLine ..
  · exact Homes.refl s

theorem Homes.snoop (s : State) (own : Option (Nat × Nat)) (line : Nat) (wr : Bool) : Homes s (s.snoop own line wr) := by
  refine Homes.foldl (fun s p => Homes.foldl (fun s e => ?_) s _) s _
  dsimp only
  split
  · exact (Homes.lineBack s e.2).trans (Homes.onBlock ..)
  · exact Homes.refl s

theorem Homes.copiesBack (s : State) (p isle : Nat → Bool) (drop : Bool) : Homes s (s.copiesBack p isle drop) := by
  refine Homes.foldl (fun s q => Homes.foldl (fun s e => ?_) s _) s _
  dsimp only
  split
  · exact (Homes.lineBack s e.2).trans (Homes.onBlock ..)
  · exact Homes.refl s

theorem Homes.putHeld (s : State) (h : HeldPut) : Homes s (s.putHeld h) := by
  cases h with
  | unit sec l => exact (Homes.snoop ..).trans (Homes.homePut ..)
  | line sec bytes st bad => exact Homes.homeSet ..

theorem Homes.unitWrite (s : State) (now : Stamp) (pa : Nat) (l : List Byte) (r : StampRule) :
    Homes s (s.unitWrite now pa l r) :=
  Homes.foldl (fun _ _ => (Homes.snoop ..).trans (Homes.homePut ..)) s _

theorem Homes.devWrite (s : State) (pa : Nat) (l : List Byte) : Homes s (s.devWrite pa l) := by
  unfold State.devWrite
  split
  · exact Homes.refl s
  · refine Homes.foldl (fun s i => ?_) s _
    dsimp only
    split
    · exact Homes.putHeld ..
    · exact Homes.of_fields rfl rfl rfl

theorem State.homeSet_mem (s : State) (sec : Nat) (data : List Byte) (st : Stamp) (bad : Bool) :
    (s.homeSet sec data st bad).mem = if s.offline (32 * sec) then s.mem
      else ((s.mem.setBytes (32 * sec) data).setStamp sec st).setBad sec bad := by
  unfold State.homeSet
  split <;> rfl

/-- A sector set whole at a home that takes it. -/
theorem State.homeSet_mem_online (s : State) {sec : Nat} (h : s.offline (32 * sec) = false) (data : List Byte) (st : Stamp) (bad : Bool) :
    (s.homeSet sec data st bad).mem = ((s.mem.setBytes (32 * sec) data).setStamp sec st).setBad sec bad := by
  rw [State.homeSet_mem, if_neg (by simp [h])]

theorem State.homePut_byte_out (s : State) (now : Stamp) (sec : Nat) (w : List (Nat × Byte)) (r : StampRule) {x : Nat}
    (h : ∀ e ∈ w, e.1 ≠ x) : (s.homePut now sec w r).mem.byte x = s.mem.byte x := by
  rw [State.homePut_mem]
  split
  · exact Store.byte_putSector_out _ _ _ _ _ _ h
  · rfl

/-! ### A machine without a dirty stash line (R174) -/

/-- The writes of a unit to one sector write no byte beside those they name. -/
theorem State.unitPut_byte_out (hc : s.clean) (now : Stamp) (i pa : Nat) (l : List Byte) (r : StampRule) {x : Nat}
    (h : x < pa ∨ pa + l.length ≤ x) :
    let t := (s.snoop none (i / 4) true).homePut now i ((atAddr pa l).filter fun p => p.1 / 32 == i) r
    t.clean ∧ t.mem.byte x = s.mem.byte x := by
  have hs : Still True s (s.snoop none (i / 4) true) := Still.snoop ..
  refine ⟨(Beside.homePut (l := True) ..).clean (hs.clean hc), ?_⟩
  rw [State.homePut_byte_out, hs.mem hc]
  intro e he
  have := mem_atAddr (List.mem_filter.1 he).1
  omega

theorem State.unitWrite_byte_out (hc : s.clean) (now : Stamp) (pa : Nat) (l : List Byte) (r : StampRule) {x : Nat}
    (h : x < pa ∨ pa + l.length ≤ x) : (s.unitWrite now pa l r).mem.byte x = s.mem.byte x := by
  refine (List.foldlRecOn (motive := fun t : State => t.clean ∧ t.mem.byte x = s.mem.byte x) _ _ ⟨hc, rfl⟩ fun t ht i _ => ?_).2
  obtain ⟨h1, h2⟩ := State.unitPut_byte_out ht.1 now i pa l r h
  exact ⟨h1, h2.trans ht.2⟩

theorem State.devWrite_byte_out (hc : s.clean) (pa : Nat) (l : List Byte) {x : Nat} (h : x < pa ∨ pa + l.length ≤ x) :
    (s.devWrite pa l).mem.byte x = s.mem.byte x := by
  unfold State.devWrite
  split
  · rfl
  · refine (List.foldlRecOn (motive := fun t : State => t.clean ∧ t.mem.byte x = s.mem.byte x) _ _ ⟨hc, rfl⟩ fun t ht i _ => ?_).2
    dsimp only
    split
    · obtain ⟨h1, h2⟩ := State.unitPut_byte_out ht.1 ageless i pa l (.normal ageless) h
      exact ⟨h1, h2.trans ht.2⟩
    · exact ht

/-- A write of a few bytes within a sector whose home takes it: what stands there then. -/
theorem State.unitWrite_bytes (hc : s.clean) (hw : s.mem.wf = true) (now : Stamp) {pa : Nat} {l : List Byte} (r : StampRule)
    (hl : 0 < l.length ∧ l.length < 32) (hs : pa % 32 + l.length ≤ 32) (hb : s.mem.bad (pa / 32) = false)
    (ho : s.offline pa = false) : (s.unitWrite now pa l r).mem.bytesAt pa l.length = l := by
  have one : sectorsIn pa l.length = [pa / 32] := by
    have : (pa + l.length - 1) / 32 = pa / 32 := by omega
    rw [sectorsIn, if_neg (by omega), this, Nat.sub_self]
    simp
  have all : ((atAddr pa l).filter fun p => p.1 / 32 == pa / 32) = atAddr pa l := by
    refine List.filter_eq_self.2 fun p hp => ?_
    have := mem_atAddr hp
    rw [beq_iff_eq]
    omega
  have hn : Still True s (s.snoop none (pa / 32 / 4) true) := Still.snoop ..
  simp only [State.unitWrite, one, List.foldl_cons, List.foldl_nil, all]
  rw [State.homePut_mem, if_pos, hn.mem hc]
  · exact Store.bytesAt_putSector_part hw hb hl.2
  · simp [State.lands, hn.mem hc, hb, hn.toBeside.offline, offline_sector, ho]

end

end Machine

end Sys2Proof
end

section
/-! TCFG and TOFFSET of a context (R246 to R248), and the owners of frames (R261). -/

namespace Sys2Proof.Machine

open Sys2Proof.Claims

section
variable {s : State}

/-! ### The words of a context's tide -/

theorem exec_holdSet (x : Nat) (h : s.ready.getLsbD 4 = true) : exec (.holdSet x) s = .next (s.holdSet x) :=
  congrArg Host.Outcome.next (if_pos h)

theorem exec_holdClear (x : Nat) (h : s.ready.getLsbD 4 = true) : exec (.holdClear x) s = .next (s.holdClear x) :=
  congrArg Host.Outcome.next (if_pos h)

theorem exec_tideStep (x : Nat) (h : s.ready.getLsbD 4 = true) : exec (.tideStep x) s = .next (s.tideStep x) :=
  congrArg Host.Outcome.next (if_pos h)

theorem exec_shiftWrite (x : Nat) (v : BitVec 5) (h : s.ready.getLsbD 4 = true) :
    exec (.shiftWrite x v) s = .next (if s.ctxStill x then s.setCtx x { s.ctx x with shift := v } else s) :=
  congrArg Host.Outcome.next (if_pos h)

theorem exec_toffsetWrite (x : Nat) (v : DWord) (h : s.ready.getLsbD 4 = true) :
    exec (.toffsetWrite x v) s = .next (if s.ctxStill x then s.setCtx x { s.ctx x with offset := v } else s) := by
  have hg : s.graphUp = true := h
  show Host.Outcome.next (if s.graphUp && s.ctxStill x then _ else _) = _
  rw [hg, Bool.true_and]

/-- R248: what keeps a context's SHIFT and OFFSET as they are. -/
theorem State.ctxStill_iff (s : State) (x : Nat) : s.ctxStill x = true ↔ (∀ e ∈ s.blocks, e.2.2.ctx ≠ x) ∧
    (∀ i ∈ s.insts, i.ctx = x → i.producer = none) ∧ ∀ y ∈ s.saved, y.ctx = x → y.queued = false := by
  simp only [State.ctxStill, Bool.and_eq_true, List.all_eq_true, bne_iff_ne, Bool.or_eq_true, Option.isNone_iff_eq_none,
    Bool.not_eq_true', and_assoc, ne_eq, Decidable.imp_iff_not_or]

theorem Saved.queued_block (i : Nat) (b : Block) (z : Nat) : (Saved.block i b z).queued = false ↔ b.th.queue = [] := by
  simp [Saved.queued]

theorem Saved.queued_node (i : Nat) (c : Block) (q : Cube) (fs : List Block) (z : Nat) :
    (Saved.node i c q fs z).queued = false ↔ c.th.queue = [] ∧ ∀ b ∈ fs, b.th.queue = [] := by
  simp [Saved.queued]

/-- R246: a held tide stands still. -/
theorem Ctx.tideAt_hold {c : Ctx} (h : c.hold = true) (t : DWord) : c.tideAt t = c.hval := if_pos h

/-- R246: the offset that HOLD_CLEAR sets gives the held value now. -/
theorem Ctx.tideAt_resume (c : Ctx) (t : DWord) :
    ({ c with hold := false, offset := ({ c with hold := false, offset := 0 } : Ctx).tideAt t - c.hval } : Ctx).tideAt t =
      c.hval := by
  simp [Ctx.tideAt]

theorem State.ctide_setCtx (s : State) (x : Nat) (c : Ctx) : (s.setCtx x c).ctide x = c.tideAt s.tide := by
  rw [State.ctide, State.ctx_setCtx_same]
  rfl

theorem State.holdSet_of {x : Nat} (hd : (s.ctx x).debug = true) (hh : (s.ctx x).hold = false) :
    s.holdSet x = s.setCtx x { s.ctx x with hval := (s.ctx x).tideAt s.tide, hold := true } := by
  simp [State.holdSet, hd, hh]

theorem State.holdClear_of {x : Nat} (hd : (s.ctx x).debug = true) (hh : (s.ctx x).hold = true) :
    s.holdClear x = s.setCtx x { s.ctx x with
      hold := false, offset := ({ s.ctx x with hold := false, offset := 0 } : Ctx).tideAt s.tide - (s.ctx x).hval } := by
  simp [State.holdClear, hd, hh]

/-- R246 to R248. -/
theorem tideRegistersAct : Claims.TideRegistersAct := by
  intro s x hg
  have quiet : s.ctxStill x = true ↔ (∀ e ∈ s.blocks, e.2.2.ctx ≠ x) ∧ (∀ i ∈ s.insts, i.ctx = x → i.producer = none) ∧
      ∀ y ∈ s.saved, y.ctx = x → (match y with
        | .block _ b _ => b.th.queue = []
        | .node _ c _ fs _ => c.th.queue = [] ∧ ∀ b ∈ fs, b.th.queue = []) := by
    rw [State.ctxStill_iff]
    refine and_congr_right fun _ => and_congr_right fun _ => forall₂_congr fun y _ => imp_congr_right fun _ => ?_
    cases y with
    | block i b z => exact Saved.queued_block i b z
    | node i c q fs z => exact Saved.queued_node i c q fs z
  refine ⟨fun hd hh => ?set, fun hd hh => ?clear, fun hd => ⟨?unset, ?uncleared⟩, fun hh => ?step, fun hh => ?unstepped,
    fun hs v w => ?written, fun hs v w => ?kept⟩
  case set =>
    refine ⟨_, exec_holdSet x hg, ?_⟩
    rw [State.holdSet_of hd hh]
    refine ⟨by rw [State.ctx_setCtx_same], ?_, fun v => ?_⟩
    · rw [State.ctide_setCtx, Ctx.tideAt_hold rfl]; rfl
    · rw [State.ctide, State.ctide]
      show (State.ctx (s.setCtx x _) x).tideAt v = _
      rw [State.ctx_setCtx_same, Ctx.tideAt_hold rfl]
  case clear =>
    refine ⟨_, exec_holdClear x hg, ?_⟩
    rw [State.holdClear_of hd hh]
    exact ⟨by rw [State.ctx_setCtx_same], by rw [State.ctide_setCtx, Ctx.tideAt_resume]⟩
  case unset => rw [exec_holdSet x hg]; simp [State.holdSet, hd]
  case uncleared => rw [exec_holdClear x hg]; simp [State.holdClear, hd]
  case step => rw [exec_tideStep x hg]; simp [State.tideStep, hh]
  case unstepped => rw [exec_tideStep x hg]; simp [State.tideStep, hh]
  case written => rw [exec_shiftWrite x v hg, exec_toffsetWrite x w hg, if_pos (quiet.2 hs), if_pos (quiet.2 hs)]; exact ⟨rfl, rfl⟩
  case kept => rw [exec_shiftWrite x v hg, exec_toffsetWrite x w hg, if_neg (quiet.not.2 hs), if_neg (quiet.not.2 hs)]; exact ⟨rfl, rfl⟩

/-! ### Owners of frames -/

/-- FOWNSET once the lagoon is ready: its fields, and with GO the owner of the frame (R261). -/
theorem exec_fownsetGo (v : DWord) (h : s.ready.getLsbD 2 = true) : exec (.fownsetGo v) s = .next { s with
    fownset := v &&& 0x400003FFFFFF0FFF
    fown := if v.getLsbD 63 then
      if v.getLsbD 62 then Tbl.set s.fown (v.toNat / 2 ^ 16 % 2 ^ 26) (v.toNat % 4096)
      else Tbl.erase s.fown (v.toNat / 2 ^ 16 % 2 ^ 26)
    else s.fown } := by
  have hl : s.lagoonUp = true := h
  show execFownsetGo v s = _
  unfold execFownsetGo
  simp only [hl, fownMask, fld, bits]
  cases v.getLsbD 63 <;> simp

/-- R261. -/
theorem frameOwnersAreSet : Claims.FrameOwnersAreSet := by
  intro s v hl
  refine ⟨_, exec_fownsetGo v hl, fun h => ?held, fun h h2 => ?owned, fun h h2 hr => ?cleared, fun k hk => ?others⟩
  case held => rw [h]; rfl
  case owned => rw [if_pos h, if_pos h2, Tbl.get?_set_same]
  case cleared => rw [if_pos h, if_neg (ne_true_of_eq_false h2), get?_erase_same _ hr]
  case others =>
    split
    · split
      · exact Tbl.get?_set_ne _ _ hk
      · exact Tbl.get?_erase_ne _ hk
    · rfl

end

end Sys2Proof.Machine
end

section
/-! Sweepers and scrubbers (R27): the stamp at a place is replaced by ANCIENT, and the place is measured in the tide it was. -/

namespace Sys2Proof.Machine

open Sys2Proof.Claims

/-! ### The places of a block, of a gang, of a cube -/

/-- The stamp at a place of a block, with the block's tide and its core's counter. -/
def State.blockStamp? (s : State) (core slot : Nat) (f : Block → Option Stamp) : Option (Stamp × DWord × Nat) :=
  (s.block? core slot).bind fun b => (f b).map fun st => (st, s.ctide b.ctx, coreCtr core (if core % 8 = 4 then 2 else 5))

/-- The counter of the unit that sweeps a gang: its core's, or while it is evicted that of the base die of its save area. -/
def State.gangCtr (s : State) (core : Nat) (b : Block) (g : Gang) : Nat :=
  if g.evicted then baseCtr (baseOf ((s.ctx b.ctx).saveBase.toNat * 4096)) 9 else coreCtr core 5

def State.gangStamp? (s : State) (core slot gang : Nat) (f : Gang → Option Stamp) : Option (Stamp × DWord × Nat) :=
  (s.block? core slot).bind fun b => (b.gangs[gang]?).bind fun g => (f g).map fun st => (st, s.gangTide b g, s.gangCtr core b g)

def State.cubeStamp? (s : State) (cl : Nat) (f : Cube → Stamp) : Option (Stamp × DWord × Nat) :=
  (s.controlBlock? cl).map fun b => (f (s.cube cl), s.ctide b.ctx, coreCtr (controlCore cl) 2)

section
variable {s : State} {tide : DWord} {st : Stamp} {ctr : Nat}

theorem State.ctide_onBlock (s : State) (c b : Nat) (f : Block → Block) (x : Nat) : (s.onBlock c b f).ctide x = s.ctide x := by
  rw [State.onBlock_frame]; rfl

theorem State.gangTide_onGang (s : State) (c b i : Nat) (f : Gang → Gang) (x : Block) (g : Gang) :
    (s.onGang c b i f).gangTide x g = s.gangTide x g := by
  rw [State.onGang, State.onBlock_frame]; rfl

theorem State.gangCtr_onGang (s : State) (c b i : Nat) (f : Gang → Gang) (d : Nat) (x : Block) (g : Gang) :
    (s.onGang c b i f).gangCtr d x g = s.gangCtr d x g := by
  rw [State.onGang, State.onBlock_frame]; rfl

/-- A change of a block that makes the stamp at a place ANCIENT. -/
theorem State.blockStamp?_onBlock {c sl : Nat} {f : Block → Option Stamp} {k : Block → Block} (hk : ∀ b, (k b).ctx = b.ctx)
    (hf : ∀ b x, s.block? c sl = some b → f b = some x → f (k b) = some ancient)
    (h : s.blockStamp? c sl f = some (st, tide, ctr)) :
    (s.onBlock c sl k).blockStamp? c sl f = some (ancient, tide, ctr) := by
  obtain ⟨b, hb, h⟩ := Option.bind_eq_some_iff.1 h
  obtain ⟨x, hx, h⟩ := Option.map_eq_some_iff.1 h
  rw [State.blockStamp?, State.block?_onBlock_same, hb, Option.map_some, Option.bind_some, hf b x hb hx, Option.map_some,
    State.ctide_onBlock, hk]
  cases h
  rfl

/-- A change of a gang that makes the stamp at a place ANCIENT. -/
theorem State.gangStamp?_onGang {c sl i : Nat} {f : Gang → Option Stamp} {k : Gang → Gang} (hk : ∀ g, (k g).evicted = g.evicted)
    (hf : ∀ g x, f g = some x → f (k g) = some ancient) (h : s.gangStamp? c sl i f = some (st, tide, ctr)) :
    (s.onGang c sl i k).gangStamp? c sl i f = some (ancient, tide, ctr) := by
  obtain ⟨b, hb, h⟩ := Option.bind_eq_some_iff.1 h
  obtain ⟨g, hg, h⟩ := Option.bind_eq_some_iff.1 h
  obtain ⟨x, hx, h⟩ := Option.map_eq_some_iff.1 h
  have ht : s.gangTide (b.onGang i k) (k g) = s.gangTide b g := by simp [State.gangTide, hk, Block.onGang]
  have hc : s.gangCtr c (b.onGang i k) (k g) = s.gangCtr c b g := by unfold State.gangCtr; rw [hk]; rfl
  have hi : (b.onGang i k).gangs[i]? = some (k g) := by rw [Block.onGang, getElem?_modAt, if_pos rfl, hg]; rfl
  rw [State.gangStamp?, State.block?_onGang_same, hb, Option.map_some, Option.bind_some, hi, Option.bind_some, hf g x hx,
    Option.map_some, State.gangTide_onGang, State.gangCtr_onGang, ht, hc]
  cases h
  rfl

/-- A change of a cube that makes the stamp at a place ANCIENT. -/
theorem State.cubeStamp?_onCube {cl : Nat} {f : Cube → Stamp} {k : Cube → Cube} (hf : f (k (s.cube cl)) = ancient)
    (h : s.cubeStamp? cl f = some (st, tide, ctr)) : (s.onCube cl k).cubeStamp? cl f = some (ancient, tide, ctr) := by
  obtain ⟨b, hb, h⟩ := Option.map_eq_some_iff.1 h
  have hc : (s.onCube cl k).cube cl = k (s.cube cl) := Tbl.getD_set_same ..
  rw [State.cubeStamp?, show (s.onCube cl k).controlBlock? cl = some b from hb, Option.map_some, hc, hf]
  cases h
  rfl

/-! ### The stamps of a result -/

theorem toList_mapAt {α : Type} {n : Nat} (f : Nat → α → α) (v : Vector α n) :
    (mapAt f v).toList = v.toList.zipIdx.map fun e => f e.2 e.1 := rfl

/-- The stamps of spill frames numbered through, eight of each. -/
theorem frames_mapAt (f : Nat → Stamp → Stamp) (regs : List VReg) (k : Nat) :
    ((regs.zipIdx k).map fun e => { e.1 with stamps := mapAt (fun j => f (8 * e.2 + j)) e.1.stamps }).flatMap (·.stamps.toList) =
      ((regs.flatMap (·.stamps.toList)).zipIdx (8 * k)).map fun e => f e.2 e.1 := by
  induction regs generalizing k with
  | nil => rfl
  | cons r rs ih =>
    have first : (mapAt (fun j => f (8 * k + j)) r.stamps).toList = (r.stamps.toList.zipIdx (8 * k)).map fun e => f e.2 e.1 := by
      rw [toList_mapAt, List.zipIdx_eq_map_add (i := 8 * k), List.map_map]
      refine List.map_congr_left fun e _ => ?_
      simp [Nat.add_comm]
    rw [List.zipIdx_cons, List.map_cons, List.flatMap_cons, ih, List.flatMap_cons, List.zipIdx_append, List.map_append, first,
      Vector.length_toList, Nat.mul_add, Nat.mul_one]

/-- Each stamp of a result is replaced by its place. -/
theorem PendVal.stamps_onStamps (f : Nat → Stamp → Stamp) (v : PendVal) :
    (v.onStamps f).stamps = v.stamps.zipIdx.map fun e => f e.2 e.1 := by
  cases v with
  | lanes r m vals secs adr => rfl
  | spec r m vals st => rfl
  | frames r regs => exact frames_mapAt f regs 0
  | uni w x adr => rfl
  | mail w mb => rfl

theorem PendVal.getElem?_onStamps (f : Nat → Stamp → Stamp) (v : PendVal) (i : Nat) :
    (v.onStamps f).stamps[i]? = v.stamps[i]?.map (f i) := by
  rw [PendVal.stamps_onStamps, List.getElem?_map, List.getElem?_zipIdx, Option.map_map]
  simp [Function.comp_def]

/-- The entry that a key finds, after a change of the entries of that key that keeps it. -/
theorem find?_map_key {α : Type} (l : List α) (key : α → Nat) (k : Nat) (f : α → α) (hf : ∀ x, key (f x) = key x) :
    ((l.map fun x => if key x = k then f x else x).find? fun x => key x == k) = (l.find? fun x => key x == k).map f := by
  induction l with
  | nil => rfl
  | cons x r ih =>
    by_cases h : key x = k
    · simp [h, hf]
    · simp [h, ih]

/-! ### Every place -/

theorem setAt_getD {α : Type} (l : List α) (i : Nat) (d : α) : (setAt l i d).getD i d = d := by
  induction l generalizing i with
  | nil => rfl
  | cons x r ih =>
    cases i with
    | zero => rfl
    | succ i => exact ih i

/-- A scrubber changes no byte of memory. -/
theorem State.makeAncient_bytes (s : State) (p : StampPlace) : (s.makeAncient p).mem.bytes = s.mem.bytes := by
  cases p with
  | memory sec => rfl
  | obuf | stratum | scale | bank => rfl
  | l1 core line k =>
    simp only [State.makeAncient]
    split <;> rfl
  | _ => simp [State.makeAncient]

theorem stamp_setStamp_ancient {m : Store} (h : m.wf = true) (i : Nat) : (m.setStamp i ancient).stamp i = ancient := by
  rw [Store.stamp_setStamp i i ancient h, if_pos rfl]

/-- The stores in which stamps are replaced are in their form, and a sector of the scratchpad is none of the stash. -/
structure Scrubbable (s : State) (p : StampPlace) : Prop where
  mem : s.mem.wf = true
  cubes : ∀ c, (s.cube c).obuf.wf = true ∧ (s.cube c).stratum.wf = true ∧ (s.cube c).scale.wf = true
  scratch : ∀ c b n, p = .scratch c b n → ∃ k, s.block? c b = some k ∧ k.stashAt n = none ∧ k.sp.wf = true

theorem Scrubbable.scratchStamp {c sl n : Nat} (hw : Scrubbable s (.scratch c sl n))
    (h : s.placeStamp? (.scratch c sl n) = some (st, tide, ctr)) :
    (s.makeAncient (.scratch c sl n)).placeStamp? (.scratch c sl n) = some (ancient, tide, ctr) := by
  obtain ⟨k, hk, hn, hsp⟩ := hw.scratch c sl n rfl
  refine State.blockStamp?_onBlock (fun b => ?_) (fun b x hb _ => ?_) h
  · split <;> rfl
  · obtain rfl : k = b := Option.some.inj (hk.symm.trans hb)
    have hn' : ({ k with sp := k.sp.setStamp n ancient } : Block).stashAt n = none := hn
    simp only [hn, hn', stamp_setStamp_ancient hsp]

/-- R27: the place holds ANCIENT once it is scrubbed, in the same tide. -/
theorem State.placeStamp?_makeAncient {p : StampPlace} (hw : Scrubbable s p) (h : s.placeStamp? p = some (st, tide, ctr)) :
    (s.makeAncient p).placeStamp? p = some (ancient, tide, ctr) := by
  cases p with
  | memory sec =>
    cases h
    show some ((s.mem.setStamp sec ancient).stamp sec, _, _) = _
    rw [stamp_setStamp_ancient hw.mem]
    rfl
  | scratch c sl n => exact hw.scratchStamp h
  | greg c sl hd r =>
    refine State.blockStamp?_onBlock (fun _ => rfl) (fun b _ _ _ => ?_) h
    cases hd <;> simp [vat_vput _ _ _ _ _ r.isLt]
  | mailbox c sl m =>
    refine State.blockStamp?_onBlock (fun _ => rfl) (fun b _ _ _ => ?_) h
    simp [Block.onMb, vat_vput _ _ _ _ _ m.isLt]
  | oldSector c sl n =>
    refine State.blockStamp?_onBlock (fun b => ?_) (fun b x _ hx => ?_) h
    · split <;> rfl
    · obtain ⟨y, hy, -⟩ := Option.map_eq_some_iff.1 hx
      simp [hy]
  | wreg c sl i r =>
    refine State.gangStamp?_onGang (fun _ => rfl) (fun g _ _ => ?_) h
    simp [Gang.wreg, vat_vput _ _ _ _ _ r.isLt]
  | vreg c sl i reg j =>
    refine State.gangStamp?_onGang (fun _ => rfl) (fun g _ _ => ?_) h
    simp [Gang.bank, Gang.setBank, stampAt, vat_vput _ _ _ _ _ j.isLt]
  | spill c sl i k j =>
    refine State.gangStamp?_onGang (fun g => ?_) (fun g x hx => ?_) h
    · split <;> rfl
    · obtain ⟨y, hy, -⟩ := Option.map_eq_some_iff.1 hx
      simp [hy, stampAt, vat_vput _ _ _ _ _ j.isLt]
  | transient c sl i n j =>
    refine State.gangStamp?_onGang (fun _ => rfl) (fun g x hx => ?_) h
    obtain ⟨y, hy, -⟩ := Option.map_eq_some_iff.1 hx
    obtain ⟨e, he, hy⟩ := Option.bind_eq_some_iff.1 hy
    simp only [find?_map_key g.window (·.num) n (fun e => { e with tr := e.tr.map fun t =>
      { t with stamps := vput t.stamps j.toNat ancient } }) fun _ => rfl, he, Option.map_some, Option.bind_some, hy, stampAt,
      vat_vput _ _ _ _ _ j.isLt, if_true]
  | result c sl i n k =>
    refine State.gangStamp?_onGang (fun _ => rfl) (fun g x hx => ?_) h
    obtain ⟨q, hq, hx⟩ := Option.bind_eq_some_iff.1 hx
    simp only [find?_map_key g.pend (·.id) n (fun q => { q with val := q.val.onStamps fun j x => if j = k then ancient else x })
      fun _ => rfl, hq, Option.map_some, Option.bind_some, PendVal.getElem?_onStamps, hx, if_true]
  | l1 core line k =>
    obtain ⟨l, hl, h⟩ := Option.map_eq_some_iff.1 h
    cases h
    show (State.placeStamp? (match Tbl.get? (s.core core).l1 line with
      | some l => s.setCore core { s.core core with l1 := Tbl.set (s.core core).l1 line { l with stamps := setAt l.stamps k.toNat ancient } }
      | none => s) (.l1 core line k)) = _
    simp only [hl, State.placeStamp?, State.core_setCore_same, Tbl.get?_set_same, Option.map_some, setAt_getD, State.lineAging]
    rfl
  | obuf cl n =>
    exact State.cubeStamp?_onCube (f := (·.obuf.stamp n)) (k := fun c => { c with obuf := c.obuf.setStamp n ancient })
      (stamp_setStamp_ancient (hw.cubes cl).1 n) h
  | stratum cl n =>
    exact State.cubeStamp?_onCube (f := (·.stratum.stamp n)) (k := fun c => { c with stratum := c.stratum.setStamp n ancient })
      (stamp_setStamp_ancient (hw.cubes cl).2.1 n) h
  | scale cl n =>
    exact State.cubeStamp?_onCube (f := (·.scale.stamp n)) (k := fun c => { c with scale := c.scale.setStamp n ancient })
      (stamp_setStamp_ancient (hw.cubes cl).2.2 n) h
  | bank cl i =>
    refine State.cubeStamp?_onCube (f := fun c => (c.bank i).stamp) (k := fun c => c.setBank i { c.bank i with stamp := ancient }) ?_ h
    have hi : i.toNat < 2 := by cases i <;> decide
    simp [Cube.bank, Cube.setBank, vat_vput _ _ _ _ _ hi]

theorem overage_iff (t : DWord) (st : Stamp) : overage t st = true ↔ ∃ a, age (stampOf t) st = some a ∧ 0x7FFFFF < a := by
  unfold overage
  cases age (stampOf t) st <;> simp

/-- SCRUB of a place that holds a stamp. -/
theorem exec_scrub {p : StampPlace} (h : s.placeStamp? p = some (st, tide, ctr)) :
    exec (.scrub p) s = .next (if overage tide st then (s.makeAncient p).count ctr 1 else s) := by
  show execScrub p s = _
  unfold execScrub
  rw [h]

/-- R27. -/
theorem sweepersAgeStamps : Claims.SweepersAgeStamps := by
  intro s p st tide ctr h
  rw [exec_scrub h, ← overage_iff]
  refine ⟨fun hn => by rw [if_neg hn], fun ho => ⟨(s.makeAncient p).count ctr 1, by rw [if_pos ho], s.makeAncient_bytes p, fun hm hc hs => ?_⟩⟩
  have hp : ((s.makeAncient p).count ctr 1).placeStamp? p = (s.makeAncient p).placeStamp? p := by cases p <;> rfl
  rw [hp]
  exact State.placeStamp?_makeAncient ⟨hm, hc, hs⟩ h

end

end Sys2Proof.Machine
end

section
/-! Stash lines written back (R175, R198): every line chosen is clean then; and shootdowns (R210). -/

namespace Sys2Proof.Machine

open Sys2Proof.Claims

section
variable {s t : State}

/-! ### Cores and blocks -/

/-- A change of every core that is listed. -/
theorem State.core_mapCores (s : State) (f : Core → Core) (c : Nat) :
    ({ s with cores := s.cores.map fun e => (e.1, f e.2) } : State).core c =
      if (Tbl.get? s.cores c).isSome then f (s.core c) else s.core c := by
  simp only [State.core, Tbl.getD, Tbl.get?_map]
  cases Tbl.get? s.cores c <;> rfl

theorem State.block?_mapCores (s : State) {f : Core → Core} (hf : ∀ x, (f x).blocks = x.blocks) (c b : Nat) :
    ({ s with cores := s.cores.map fun e => (e.1, f e.2) } : State).block? c b = s.block? c b := by
  rw [State.block?, State.core_mapCores]
  split
  · rw [hf]; rfl
  · rfl

theorem State.homeSet_cores (s : State) (sec : Nat) (data : List Byte) (st : Stamp) (bad : Bool) :
    (s.homeSet sec data st bad).cores = s.cores := by
  unfold State.homeSet
  split <;> rfl

theorem State.homeLine_cores (s : State) (x : StashLine) : (s.homeLine x).cores = s.cores := by
  refine List.foldlRecOn (motive := fun t : State => t.cores = s.cores) _ _ rfl fun t ht k _ => ?_
  dsimp only
  split
  · exact (State.homeSet_cores ..).trans ht
  · exact ht

theorem State.block?_lineBack (s : State) (x : StashLine) (c b : Nat) :
    (if x.dirty then s.homeLine x else s).block? c b = s.block? c b := by
  split
  · rw [State.block?, State.block?, State.core, State.core, State.homeLine_cores, (Homes.homeLine s x).cycles]
  · rfl

/-! ### Lines written back -/

/-- The line of a key in the stash of a block. -/
def State.line? (s : State) (c b k : Nat) : Option StashLine := (s.block? c b).bind fun x => Tbl.get? x.stash k

/-- The line with its key, its core and its slot, written back and kept. -/
def State.keepBack (s : State) (q : Nat × Nat × Block) (e : Nat × StashLine) : State :=
  (if e.2.dirty then s.homeLine e.2 else s).onBlock q.1 q.2.1 fun b =>
    { b with stash := Tbl.set b.stash e.1 { e.2 with dirty := false, excl := false } }

/-- R198: the lines that `copiesBack` passes, in its order. -/
def State.lines (s : State) : List ((Nat × Nat × Block) × Nat × StashLine) :=
  s.blocks.flatMap fun q => q.2.2.stash.map fun e => (q, e)

/-- A line is among the chosen ones. -/
def chosen (p isle : Nat → Bool) (x : (Nat × Nat × Block) × Nat × StashLine) : Bool := isle (isleOf x.1.1) && p x.2.2.pa

/-- What becomes of a line that `copiesBack` passes. -/
def State.backStep (p isle : Nat → Bool) (s : State) (x : (Nat × Nat × Block) × Nat × StashLine) : State :=
  if chosen p isle x then s.keepBack x.1 x.2 else s

theorem State.copiesBack_eq (s : State) (p isle : Nat → Bool) :
    s.copiesBack p isle false = s.lines.foldl (State.backStep p isle) s := by
  rw [State.lines, List.foldl_flatMap]
  simp only [List.foldl_map]
  rfl

theorem State.line?_keepBack_same (s : State) (q : Nat × Nat × Block) (e : Nat × StashLine) {l : StashLine}
    (h : (s.keepBack q e).line? q.1 q.2.1 e.1 = some l) : l.dirty = false ∧ l.excl = false := by
  obtain ⟨b, hb, h⟩ := Option.bind_eq_some_iff.1 h
  rw [State.keepBack, State.block?_onBlock_same] at hb
  obtain ⟨y, -, rfl⟩ := Option.map_eq_some_iff.1 hb
  rw [Tbl.get?_set_same] at h
  cases h
  exact ⟨rfl, rfl⟩

theorem State.line?_keepBack_ne (s : State) (q : Nat × Nat × Block) (e : Nat × StashLine) {c b k : Nat}
    (h : ¬(q.1 = c ∧ q.2.1 = b ∧ e.1 = k)) : (s.keepBack q e).line? c b k = s.line? c b k := by
  rw [State.line?, State.keepBack, State.block?_onBlock, State.block?_lineBack]
  split
  · next hq =>
    have hk : k ≠ e.1 := fun hk => h ⟨hq.1.symm, hq.2.symm, hk.symm⟩
    rw [State.line?]
    cases s.block? c b with
    | none => rfl
    | some y => exact Tbl.get?_set_ne _ _ hk
  · rfl

/-- The line of a key, if there is one, is neither dirty nor exclusive. -/
def State.backAt (s : State) (c b k : Nat) : Prop := ∀ l, s.line? c b k = some l → l.dirty = false ∧ l.excl = false

/-- A chosen line of the stash of a block with its key. -/
def hitsAt (p isle : Nat → Bool) (c b k : Nat) (x : (Nat × Nat × Block) × Nat × StashLine) : Prop :=
  chosen p isle x = true ∧ x.1.1 = c ∧ x.1.2.1 = b ∧ x.2.1 = k

section
variable {p isle : Nat → Bool} {c b k : Nat} {x : (Nat × Nat × Block) × Nat × StashLine}

theorem State.backAt_of_hit (s : State) (h : hitsAt p isle c b k x) : (s.backStep p isle x).backAt c b k := by
  obtain ⟨hc, rfl, rfl, rfl⟩ := h
  intro l hl
  rw [State.backStep, if_pos hc] at hl
  exact s.line?_keepBack_same x.1 x.2 hl

theorem State.line?_of_miss (s : State) (h : ¬hitsAt p isle c b k x) :
    (s.backStep p isle x).line? c b k = s.line? c b k := by
  unfold State.backStep
  split
  · next hc => exact s.line?_keepBack_ne x.1 x.2 fun hk => h ⟨hc, hk⟩
  · rfl

theorem State.backAt_backStep (h : s.backAt c b k) (x) : (s.backStep p isle x).backAt c b k := by
  by_cases hx : hitsAt p isle c b k x
  · exact s.backAt_of_hit hx
  · intro l hl
    rw [s.line?_of_miss hx] at hl
    exact h l hl

/-- After the lines of a list either one has hit the key, and what stands there is back, or none has, and it stands as it stood. -/
theorem State.foldl_backStep (L : List ((Nat × Nat × Block) × Nat × StashLine)) (s : State) :
    (L.foldl (State.backStep p isle) s).backAt c b k ∨
      (L.foldl (State.backStep p isle) s).line? c b k = s.line? c b k ∧ ∀ x ∈ L, ¬hitsAt p isle c b k x := by
  induction L generalizing s with
  | nil => exact .inr ⟨rfl, fun _ h => absurd h List.not_mem_nil⟩
  | cons x r ih =>
    rw [List.foldl_cons]
    by_cases hx : hitsAt p isle c b k x
    · left
      exact List.foldlRecOn (motive := fun t : State => t.backAt c b k) r (State.backStep p isle) (s.backAt_of_hit hx)
        fun t ht y _ => State.backAt_backStep ht y
    · obtain hg | ⟨he, hn⟩ := ih (s.backStep p isle x)
      · exact .inl hg
      · exact .inr ⟨he.trans (s.line?_of_miss hx), List.forall_mem_cons.2 ⟨hx, hn⟩⟩

/-- R198, R200: once the lines chosen are written back, none that is chosen is dirty or exclusive. -/
theorem State.copiesBack_line {l : StashLine} (h : (s.copiesBack p isle false).line? c b k = some l)
    (hi : isle (isleOf c) = true) (hp : p l.pa = true) : l.dirty = false ∧ l.excl = false := by
  rw [State.copiesBack_eq] at h
  obtain hg | ⟨he, hn⟩ := s.foldl_backStep (p := p) (isle := isle) (c := c) (b := b) (k := k) s.lines
  · exact hg l h
  · rw [he, State.line?] at h
    obtain ⟨y, hy, hl⟩ := Option.bind_eq_some_iff.1 h
    have hm : ((c, b, y), k, l) ∈ s.lines :=
      List.mem_flatMap.2 ⟨_, State.mem_blocks_of_core (Tbl.mem_of_get? hy), List.mem_map.2 ⟨_, Tbl.mem_of_get? hl, rfl⟩⟩
    exact absurd ⟨by simp [chosen, hi, hp], rfl, rfl, rfl⟩ (hn _ hm)

end

/-! ### Shootdowns (R210) -/

/-- A TLB entry of a context that a shootdown of a range leaves (R210): of no page in the range, and of none that holds it. -/
def beyond (va : DWord) (k : Nat) (y : Nat × Nat × Nat) : Prop :=
  (y.2.2 ≤ k → y.2.1 / 2 ^ (k - y.2.2) ≠ va.toNat / 2 ^ k) ∧ (k < y.2.2 → y.2.1 ≠ va.toNat / 2 ^ y.2.2)

/-- What a shootdown keeps in a TLB. -/
def shotKeeps (ctx : Nat) (base : DWord) (span : Option Nat) (e : Nat × Nat × Nat) : Bool :=
  e.1 != ctx || (match span with
    | none => false
    | some k => !(if e.2.2 ≤ k then e.2.1 / 2 ^ (k - e.2.2) == base.toNat / 2 ^ k else e.2.1 == base.toNat / 2 ^ e.2.2))

theorem shotKeeps_other {ctx : Nat} {y : Nat × Nat × Nat} (h : y.1 ≠ ctx) (base : DWord) (span : Option Nat) :
    shotKeeps ctx base span y = true := by
  simp [shotKeeps, h]

theorem ne_of_shotKeeps_all {ctx : Nat} {base : DWord} {y : Nat × Nat × Nat} (h : shotKeeps ctx base none y = true) : y.1 ≠ ctx := by
  simpa [shotKeeps] using h

theorem beyond_of_shotKeeps {ctx k : Nat} {base : DWord} {y : Nat × Nat × Nat} (h : shotKeeps ctx base (some k) y = true)
    (hy : y.1 = ctx) : beyond base k y := by
  simp only [shotKeeps, hy, bne_self_eq_false, Bool.false_or, Bool.not_eq_true'] at h
  constructor
  · intro hk
    rw [if_pos hk] at h
    exact beq_eq_false_iff_ne.1 h
  · intro hk
    rw [if_neg (by omega)] at h
    exact beq_eq_false_iff_ne.1 h

/-- A core after a shootdown. -/
def Core.shot (ctx : Nat) (base : DWord) (span : Option Nat) (c : Core) : Core :=
  { c with tlb := c.tlb.filter (shotKeeps ctx base span) }

/-- R210: stash lines are written back, and the entries of the range leave the TLBs. -/
theorem State.shoot_eq (s : State) (ctx : Nat) (base : DWord) (span : Option Nat) : s.shoot ctx base span =
    let t := s.copiesBack (fun _ => true) (fun _ => true) false
    { t with
      clock := t.clock + 1, shots := (ctx, base, span, t.clock) :: t.shots
      cores := t.cores.map fun e => (e.1, e.2.shot ctx base span) } := rfl

theorem State.block?_shoot (s : State) (ctx : Nat) (base : DWord) (span : Option Nat) (c b : Nat) :
    (s.shoot ctx base span).block? c b = (s.copiesBack (fun _ => true) (fun _ => true) false).block? c b :=
  State.block?_mapCores _ (f := Core.shot ctx base span) (fun _ => rfl) c b

/-- A shootdown leaves no dirty stash line. -/
theorem State.shoot_line (s : State) (ctx : Nat) (base : DWord) (span : Option Nat) {c b k : Nat} {x : Block} {l : StashLine}
    (hb : (s.shoot ctx base span).block? c b = some x) (hl : Tbl.get? x.stash k = some l) : l.dirty = false := by
  rw [State.block?_shoot] at hb
  exact (State.copiesBack_line (Option.bind_eq_some_iff.2 ⟨x, hb, hl⟩) rfl rfl).1

theorem State.shoot_mem (hc : s.clean) (ctx : Nat) (base : DWord) (span : Option Nat) :
    (s.shoot ctx base span).mem = s.mem := (Still.copiesBack (l := True) s _ _ false).mem hc

theorem State.mem_tlb_shoot (s : State) (ctx : Nat) (base : DWord) (span : Option Nat) {e : Nat × Core} {y : Nat × Nat × Nat}
    (he : e ∈ (s.shoot ctx base span).cores) (hy : y ∈ e.2.tlb) : shotKeeps ctx base span y = true := by
  rw [State.shoot_eq] at he
  obtain ⟨d, -, rfl⟩ := List.mem_map.1 he
  exact (List.mem_filter.1 hy).2

theorem State.tlb_shoot (s : State) (ctx : Nat) (base : DWord) (span : Option Nat) (c : Nat) {y : Nat × Nat × Nat}
    (hy : y ∈ (s.core c).tlb) (hx : y.1 ≠ ctx) : y ∈ ((s.shoot ctx base span).core c).tlb := by
  have hm := State.core_mapCores (s.copiesBack (fun _ => true) (fun _ => true) false) (Core.shot ctx base span) c
  rw [← (Homes.copiesBack s (fun _ => true) (fun _ => true) false).tlb c] at hy
  rw [show (s.shoot ctx base span).core c = _ from hm]
  split
  · exact List.mem_filter.2 ⟨hy, shotKeeps_other hx base span⟩
  · exact hy

/-- SHOOTDOWN once the lagoon is ready: INVCTL, and the range where GO starts one. -/
theorem exec_shootdown (v : DWord) (h : s.ready.getLsbD 2 = true) : exec (.shootdown v) s = .next { s with
    invctl := v &&& 0x3F80000000000FFF
    shooting := if v.getLsbD 62 && s.shooting.isNone then
      some (v.toNat % 4096, s.invva, if v.getLsbD 61 then none else some (invSpan v)) else s.shooting } := by
  have hl : s.lagoonUp = true := h
  show execShootdown v s = _
  unfold execShootdown
  simp only [hl, Bool.not_true, Bool.false_eq_true, if_false, invMask, fld, bits]
  split <;> simp

theorem exec_shootdownCompletion {x : Nat} {va : DWord} {n : Option Nat} (h : s.shooting = some (x, va, n)) :
    exec .shootdownCompletion s = .next ({ s with shooting := none }.shoot x va n) := by
  show execShootdownCompletion s = _
  unfold execShootdownCompletion
  rw [h]

/-- R210. -/
theorem shootdownsDropTranslations : Claims.ShootdownsDropTranslations := by
  refine ⟨fun s v hl => ⟨_, exec_shootdown v hl, fun h => ?idle, fun hg hn => ?starts⟩, fun s x va n h => ?ended, fun s h => ?none⟩
  case idle =>
    refine if_neg fun hc => ?_
    obtain ⟨hg, hn⟩ := Bool.and_eq_true_iff.1 hc
    rcases h with h | h
    · exact absurd (hg.symm.trans h) (by decide)
    · exact h (Option.isNone_iff_eq_none.1 hn)
  case starts =>
    refine ⟨_, if_pos (by rw [hg, hn]; rfl), ?_⟩
    cases v.getLsbD 61 <;> simp
  case ended =>
    refine ⟨_, exec_shootdownCompletion h, ?_, fun hc => ?_, fun c b y k l hb hl => State.shoot_line _ x va n hb hl,
      fun hn e he y hy => ?_, fun k hn e he y hy hx => ?_, fun c y hy hx => State.tlb_shoot _ x va n c hy hx⟩
    · exact (Homes.copiesBack _ (fun _ => true) (fun _ => true) false).shooting
    · exact State.shoot_mem (s := { s with shooting := none }) hc x va n
    · subst hn
      exact ne_of_shotKeeps_all (State.mem_tlb_shoot _ x va none he hy)
    · subst hn
      exact beyond_of_shotKeeps (State.mem_tlb_shoot _ x va (some k) he hy) hx
  case none =>
    show execShootdownCompletion s = _
    unfold execShootdownCompletion
    rw [h]

end

end Sys2Proof.Machine
end

section
/-! The directory, as a read request for a private region finds it (R198), and what the write-back of a line leaves in memory. -/

namespace Sys2Proof.Machine

open Sys2Proof.Claims

section
variable {s t : State}

/-! ### The bytes of a line written back (R175) -/

/-- One sector of a dirty line, written to its home or held for it. -/
def State.homeSector (x : StashLine) (s : State) (k : Nat) : State :=
  let sec := x.pa / 32 + k
  let bytes := (x.bytes.drop (32 * k)).take 32
  if s.memReady (32 * sec) then s.homeSet sec bytes (x.stamps.getD k ancient) (x.poison.getD k false)
  else { s with heldPuts := s.heldPuts ++ [.line sec bytes (x.stamps.getD k ancient) (x.poison.getD k false)] }

theorem State.homeLine_eq (s : State) (x : StashLine) : s.homeLine x = (List.range 4).foldl (State.homeSector x) s := rfl

theorem Homes.homeSector (x : StashLine) (s : State) (k : Nat) : Homes s (s.homeSector x k) := by
  unfold State.homeSector
  dsimp only
  split
  · exact Homes.homeSet ..
  · exact Homes.of_fields rfl rfl rfl

/-- The bytes of a sector of the line, at a home that takes it. -/
theorem State.homeSector_mem {x : StashLine} {k : Nat} (hp : x.pa % 32 = 0) (hr : s.memReady (x.pa + 32 * k) = true)
    (ho : s.offline (x.pa + 32 * k) = false) : (s.homeSector x k).mem =
      ((s.mem.setBytes (x.pa + 32 * k) ((x.bytes.drop (32 * k)).take 32)).setStamp (x.pa / 32 + k) (x.stamps.getD k ancient)).setBad
        (x.pa / 32 + k) (x.poison.getD k false) := by
  have ha : 32 * (x.pa / 32 + k) = x.pa + 32 * k := by omega
  unfold State.homeSector
  dsimp only
  rw [ha, if_pos hr, State.homeSet_mem_online s (by rw [ha]; exact ho), ha]

theorem getElem?_slice {α : Type} (l : List α) (a n k : Nat) (h : k < n) : ((l.drop a).take n)[k]? = l[a + k]? := by
  rw [List.getElem?_take_of_lt h, List.getElem?_drop]

/-- R175: a line written back stands at its physical address. -/
theorem State.homeLine_byte {x : StashLine} (hw : s.mem.wf = true) (hp : x.pa % 32 = 0) (hl : x.bytes.length = 128)
    (h : ∀ k, k < 4 → s.memReady (x.pa + 32 * k) = true ∧ s.offline (x.pa + 32 * k) = false) {i : Nat} (hi : i < 128) :
    (s.homeLine x).mem.byte (x.pa + i) = x.bytes.getD i 0 := by
  have sectors (n : Nat) (hn : n ≤ 4) : Homes s ((List.range n).foldl (State.homeSector x) s) ∧
      ((List.range n).foldl (State.homeSector x) s).mem.wf = true ∧
      ∀ i, i < 32 * n → ((List.range n).foldl (State.homeSector x) s).mem.byte (x.pa + i) = x.bytes.getD i 0 := by
    induction n with
    | zero => exact ⟨Homes.refl s, hw, fun i hi => absurd hi (by omega)⟩
    | succ n ih =>
      obtain ⟨hh, hwf, hb⟩ := ih (by omega)
      obtain ⟨hr, ho⟩ := h n (by omega)
      rw [List.range_succ, List.foldl_append, List.foldl_cons, List.foldl_nil]
      rw [← hh.memReady] at hr
      rw [← hh.offline] at ho
      refine ⟨hh.trans (Homes.homeSector ..), ?_, fun i hi => ?_⟩ <;> rw [State.homeSector_mem hp hr ho]
      · exact Store.wf_setBad _ _ (Store.wf_setStamp _ _ (Store.wf_setBytes _ _ hwf))
      · rw [Store.byte_setBad, Store.byte_setStamp]
        by_cases hin : i < 32 * n
        · rw [Store.byte_setBytes_out _ _ _ _ (.inl (by omega)), hb i hin]
        · obtain ⟨k, rfl⟩ : ∃ k, i = 32 * n + k := ⟨i - 32 * n, by omega⟩
          have hk : x.bytes[32 * n + k]? = some (x.bytes.getD (32 * n + k) 0) := by
            rw [List.getElem?_eq_getElem (by omega), List.getD_eq_getElem _ _ (by omega)]
          rw [← Nat.add_assoc]
          exact Store.byte_setBytes_in hwf _ k _ ((getElem?_slice _ _ _ _ (by omega)).trans hk)
  exact (sectors 4 le_rfl).2.2 i (by omega)

/-! ### A read request for a private region (R198) -/

section
variable {i j pa : Nat}

theorem State.region_setRegion (s : State) (r k : Nat) (x : Region) :
    (s.setRegion r x).region k = if k = r then x else s.region k := Tbl.getD_set ..

theorem Region.solo_st (x : Region) (i : Nat) : (x.solo i).st = x.st := by
  unfold Region.solo
  split <;> rfl

theorem Region.solo_owner (x : Region) (i : Nat) : (x.solo i).owner = x.owner := by
  unfold Region.solo
  split <;> rfl

/-- The isle that asks first owns the region. -/
theorem State.dirRequest_first (h : (s.region (regionOf pa)).st = 0) (ho : (s.region (regionOf pa)).owner = none) :
    s.dirRequest i pa false = s.setRegion (regionOf pa) { (s.region (regionOf pa)).solo i with owner := some i } := by
  simp [State.dirRequest, Region.solo_st, Region.solo_owner, h, ho]

theorem State.dirRequest_own (h : (s.region (regionOf pa)).st = 0) (ho : (s.region (regionOf pa)).owner = some i) :
    s.dirRequest i pa false = s.setRegion (regionOf pa) ((s.region (regionOf pa)).solo i) := by
  simp [State.dirRequest, Region.solo_st, Region.solo_owner, h, ho]

/-- Another isle's request makes it read-shared, once the owner's lines in it are written back. -/
theorem State.dirRequest_shared (h : (s.region (regionOf pa)).st = 0) (ho : (s.region (regionOf pa)).owner = some j) (hj : j ≠ i) :
    s.dirRequest i pa false = (s.regionBack (regionOf pa) (· == j) false).setRegion (regionOf pa)
      { (s.region (regionOf pa)).solo i with st := 1, owner := none } := by
  simp [State.dirRequest, Region.solo_st, Region.solo_owner, h, ho, hj]

/-- What the owner's lines in a region are once they are written back. -/
theorem State.regionBack_line (s : State) (r : Nat) {c b k : Nat} {x : Block} {l : StashLine} (hc : isleOf c = j)
    (hb : (s.regionBack r (· == j) false).block? c b = some x) (hl : Tbl.get? x.stash k = some l) (hr : l.pa / 2 ^ 21 = r) :
    l.dirty = false ∧ l.excl = false :=
  State.copiesBack_line (Option.bind_eq_some_iff.2 ⟨x, hb, hl⟩) (beq_iff_eq.2 hc) (beq_iff_eq.2 hr)

/-- Where the machine has one block with one line, what the write-back of its region does to memory. -/
theorem State.regionBack_one {c b k : Nat} {x : Block} {l : StashLine} (hs : s.blocks = [(c, b, x)]) (hx : x.stash = [(k, l)])
    (hd : l.dirty = true) (hc : isleOf c = j) : (s.regionBack (l.pa / 2 ^ 21) (· == j) false).mem = (s.homeLine l).mem := by
  have hl : s.lines = [((c, b, x), k, l)] := by simp [State.lines, hs, hx]
  have hch : chosen (fun pa => regionOf pa == l.pa / 2 ^ 21) (· == j) ((c, b, x), k, l) = true := by simp [chosen, hc, regionOf]
  rw [State.regionBack, State.copiesBack_eq, hl, List.foldl_cons, List.foldl_nil, State.backStep, if_pos hch, State.keepBack,
    if_pos hd, State.onBlock_mem]

theorem exec_directoryRead (hl : s.ready.getLsbD 2 = true) (hi : i < 8) (hb : backed pa 1 = true) :
    exec (.directoryRequest i pa .read) s = .next (s.dirRequest i pa false) := by
  have hg : (s.lagoonUp && decide (i < 8) && backed pa 1) = true := by
    rw [show s.lagoonUp = true from hl, hb, decide_eq_true hi]
    rfl
  exact congrArg Host.Outcome.next (if_pos hg)

/-- R198. -/
theorem directoryAnswers : Claims.DirectoryAnswers := by
  intro s i pa hl hi hb r hst
  have here : pa / 2 ^ 21 = regionOf pa := rfl
  have request : Still True s (s.dirRequest i pa false) := Still.dirRequest ..
  refine ⟨_, exec_directoryRead hl hi hb, request.mem, fun ho => ?kept, fun j ho hj => ?shared, fun j ho hj => ⟨?lines, ?bytes⟩,
    fun k hk => ?others⟩
  case kept =>
    obtain ho | ho := ho
    · rw [State.dirRequest_first hst ho, State.region_setRegion, if_pos here]
      exact ⟨rfl, (Region.solo_st ..).trans hst, rfl⟩
    · rw [State.dirRequest_own hst ho, State.region_setRegion, if_pos here]
      exact ⟨rfl, (Region.solo_st ..).trans hst, (Region.solo_owner ..).trans ho⟩
  case shared =>
    rw [State.dirRequest_shared hst ho hj, State.region_setRegion, if_pos here]
    exact ⟨rfl, rfl⟩
  case lines =>
    intro c b x n l hc hb hn hr
    rw [State.dirRequest_shared hst ho hj] at hb
    exact State.regionBack_line s _ hc hb hn hr
  case bytes =>
    intro c b x n l hc hs hx hd hr hp hlen hw hh k hk
    rw [State.dirRequest_shared hst ho hj, State.setRegion_mem, regionOf, ← hr, State.regionBack_one hs hx hd hc]
    exact State.homeLine_byte hw (by omega) hlen hh hk
  case others =>
    have hk' : ¬k = regionOf pa := hk
    rcases hown : (s.region (regionOf pa)).owner with _ | j
    · rw [State.dirRequest_first hst hown, State.region_setRegion, if_neg hk']
    · by_cases hj : j = i
      · rw [State.dirRequest_own hst (hj ▸ hown), State.region_setRegion, if_neg hk']
      · rw [State.dirRequest_shared hst hown hj, State.region_setRegion, if_neg hk']
        exact (Homes.copiesBack ..).region k

end

end

end Sys2Proof.Machine
end

section
/-! The host aperture (R196, R199, R217, R242, R364, R366): what a write within one sector leaves, and what a read finds. -/

namespace Sys2Proof.Machine

open Sys2Proof.Claims

/-! ### Rising lists without repeats -/

theorem mem_insNat (x y : Nat) (l : List Nat) : y ∈ insNat x l ↔ y = x ∨ y ∈ l := by
  induction l with
  | nil => simp [insNat]
  | cons z r ih =>
    unfold insNat
    split
    · simp
    · split
      · next h => simp [h]
      · rw [List.mem_cons, ih, List.mem_cons]
        exact or_left_comm

theorem mem_sortNat (y : Nat) (l : List Nat) : y ∈ sortNat l ↔ y ∈ l := by
  have all (l t : List Nat) : y ∈ l.foldl (fun t x => insNat x t) t ↔ y ∈ l ∨ y ∈ t := by
    induction l generalizing t with
    | nil => simp
    | cons x r ih => rw [List.foldl_cons, ih, mem_insNat, List.mem_cons, ← or_assoc, or_comm (a := y ∈ r)]
  exact (all l []).trans (or_iff_left List.not_mem_nil)

/-- The least number of a list comes first. -/
theorem sortNat_cons_of_le {a : Nat} {l : List Nat} (h : ∀ x ∈ l, a ≤ x) : ∃ r, sortNat (a :: l) = a :: r := by
  refine List.foldlRecOn (motive := fun t => ∃ r, t = a :: r) l (fun t x => insNat x t) ⟨[], rfl⟩ ?_
  rintro _ ⟨r, rfl⟩ x hx
  have := h x hx
  unfold insNat
  rw [if_neg (by omega)]
  split
  · exact ⟨r, rfl⟩
  · exact ⟨_, rfl⟩

theorem sortNat_const {a : Nat} {l : List Nat} (hl : l ≠ []) (h : ∀ x ∈ l, x = a) : sortNat l = [a] := by
  cases l with
  | nil => exact absurd rfl hl
  | cons x r =>
    obtain ⟨rfl, hr⟩ := List.forall_mem_cons.1 h
    refine List.foldlRecOn (motive := fun t => t = [x]) r (fun t x => insNat x t) rfl ?_
    rintro _ rfl y hy
    rw [hr y hy]
    simp [insNat]

/-! ### The bytes of a write (R364) -/

theorem getElem?_atAddr (a : Nat) (l : List Byte) (k : Nat) : (atAddr a l)[k]? = l[k]?.map fun b => (a + k, b) := by
  induction l generalizing a k with
  | nil => rfl
  | cons b r ih =>
    cases k with
    | zero => rfl
    | succ k =>
      rw [atAddr, List.getElem?_cons_succ, List.getElem?_cons_succ, ih]
      simp only [Nat.add_assoc, Nat.add_comm 1 k]

/-- A whole sector is covered. -/
theorem coversSector_whole {a : Nat} {l : List Byte} (ha : a % 32 = 0) (hl : l.length = 32) :
    coversSector (atAddr a l) (a / 32) = true := by
  refine List.all_eq_true.2 fun k hk => List.any_eq_true.2 ?_
  have hk' : k < 32 := List.mem_range.1 hk
  have hg : (atAddr a l)[k]? = some (a + k, l[k]) := by rw [getElem?_atAddr, List.getElem?_eq_getElem (by omega)]; rfl
  exact ⟨_, List.mem_of_getElem? hg, beq_iff_eq.2 (by omega)⟩

section
variable {s : State} {off n : Nat}

/-- R364: the near tier stands at the low offsets. -/
theorem apertureAddrs_near (h : off + n ≤ 0x10C388D0000) : apertureAddrs off n = (List.range n).map fun i => some (off + i) := by
  refine List.map_congr_left fun i hi => ?_
  have := List.mem_range.1 hi
  exact if_pos (by omega)

theorem apertureBytes_near {l : List Byte} (h : off + l.length ≤ 0x10C388D0000) : apertureBytes off l = atAddr off l := by
  rw [apertureBytes, apertureAddrs_near h, List.zip_map_left, List.filterMap_map]
  refine List.ext_getElem? fun k => ?_
  rw [getElem?_atAddr, show (((fun p : Option Nat × Byte => p.1.map fun a => (a, p.2)) ∘ Prod.map (fun i => some (off + i)) id) =
    fun p : Nat × Byte => some (off + p.1, p.2)) from rfl, List.filterMap_eq_map', List.getElem?_map]
  by_cases hk : k < l.length <;> simp [hk]

theorem State.apertureHeld_near (h : off + n ≤ 0x10C388D0000) (hr : ∀ i, i < n → s.memReady (off + i) = true) :
    s.apertureHeld (apertureAddrs off n) = false := by
  rw [apertureAddrs_near h, State.apertureHeld, List.any_map, List.any_eq_false]
  intro i hi
  simp [hr i (List.mem_range.1 hi)]

theorem apertureAddrs_all (h : off + n ≤ 0x10C388D0000) : (apertureAddrs off n).any (·.isNone) = false := by
  rw [apertureAddrs_near h, List.any_map, List.any_eq_false]
  exact fun _ _ => nofun

theorem exec_apertureWrite {l : List Byte} (h5 : s.ready.getLsbD 5 = true) (h : off + l.length ≤ 0x10C388D0000)
    (hr : ∀ i, i < l.length → s.memReady (off + i) = true) :
    exec (.apertureWrite off l) s = .next (s.aperturePut (atAddr off l)) := by
  show execApertureWrite off l s = _
  unfold execApertureWrite
  simp only [h5, Bool.not_true, Bool.false_eq_true, if_false, State.apertureHeld_near h hr, apertureAddrs_all h, apertureBytes_near h]

theorem State.snoop_noBlocks (h : s.blocks = []) (own : Option (Nat × Nat)) (line : Nat) (wr : Bool) : s.snoop own line wr = s := by
  rw [State.snoop, State.snoopBut, h]
  rfl

/-- A write within one sector of a machine without blocks. -/
theorem State.aperturePut_one {l : List Byte} (hb : s.blocks = []) (hl : l ≠ []) (hs : off % 32 + l.length ≤ 32) :
    s.aperturePut (atAddr off l) =
      (s.dirAperture (32 * (off / 32))).homePut ageless (off / 32) (atAddr off l) (.exact ageless) := by
  have sec {p : Nat × Byte} (hp : p ∈ atAddr off l) : p.1 / 32 = off / 32 := by
    have := mem_atAddr hp
    omega
  have one : sortNat ((atAddr off l).map fun p => p.1 / 32) = [off / 32] := by
    refine sortNat_const ?_ fun x hx => ?_
    · cases l with
      | nil => exact absurd rfl hl
      | cons b r => exact List.cons_ne_nil _ _
    · obtain ⟨p, hp, rfl⟩ := List.mem_map.1 hx
      exact sec hp
  have all : ((atAddr off l).filter fun p => p.1 / 32 == off / 32) = atAddr off l :=
    List.filter_eq_self.2 fun p hp => beq_iff_eq.2 (sec hp)
  rw [State.aperturePut, one, List.foldl_cons, List.foldl_nil, State.snoop_noBlocks hb, all]

/-- The poison of a sector reads as it was set. -/
theorem Store.bad_setBad {m : Store} (h : m.wf = true) (i : Nat) (b : Bool) : (m.setBad i b).bad i = b := by
  obtain ⟨-, -, hp⟩ := (Store.wf_iff m).1 h
  cases b with
  | false => simp [Store.bad, Store.setBad, get?_erase_same _ hp]
  | true => simp [Store.bad, Store.setBad]

/-- R196, R217: the memory after such a write, where the sector's home takes it. -/
theorem State.apertureWrite_mem {l : List Byte} (hb : s.blocks = []) (hl : l ≠ []) (hs : off % 32 + l.length ≤ 32)
    (ho : s.offline (32 * (off / 32)) = false) (hp : s.mem.bad (off / 32) = false ∨ l.length = 32) :
    (s.aperturePut (atAddr off l)).mem = ((s.mem.setBytes off l).setStamp (off / 32) ageless).setBad (off / 32) false := by
  have hf : (s.mem.bad (off / 32) && !coversSector (atAddr off l) (off / 32)) = false := by
    obtain hp | hp := hp
    · rw [hp, Bool.false_and]
    · rw [coversSector_whole (by omega) hp, Bool.not_true, Bool.and_false]
  have hland : (s.dirAperture (32 * (off / 32))).lands (off / 32) (atAddr off l) = true := by
    rw [State.lands]
    show (!s.offline (32 * (off / 32)) && !(s.mem.bad (off / 32) && !coversSector (atAddr off l) (off / 32))) = true
    rw [ho, hf]
    rfl
  rw [State.aperturePut_one hb hl hs, State.homePut_mem, if_pos hland]
  show Store.putSector s.mem ageless (off / 32) (atAddr off l) (.exact ageless) = _
  rw [Store.putSector, hf, Store.writes_atAddr]
  rfl

/-! ### A read (R196, R242) -/

/-- The regions whose sole-access counters a read starts anew (R198). -/
theorem State.dirHosts_frame (s : State) (L : List Nat) : L.foldl (fun (s : State) r => s.dirHost (r * 2 ^ 21)) s =
    { s with dir := (L.foldl (fun (s : State) r => s.dirHost (r * 2 ^ 21)) s).dir } :=
  List.foldlRecOn (motive := fun t : State => t = { s with dir := t.dir }) L _ rfl fun _ ht r _ =>
    (congrArg (fun x : State => x.dirHost (r * 2 ^ 21)) ht).trans rfl

theorem State.region_dirHost (s : State) (q r : Nat) : (s.dirHost (q * 2 ^ 21)).region r =
    if r = q then { s.region q with sole := 0, soleIsle := none } else s.region r := by
  have hq : regionOf (q * 2 ^ 21) = q := Nat.mul_div_cancel _ (by decide)
  rw [State.dirHost, hq, State.region_setRegion]

theorem State.dirHosts_sole (s : State) {L : List Nat} {r : Nat} (hr : r ∈ L) :
    ((L.foldl (fun (s : State) r => s.dirHost (r * 2 ^ 21)) s).region r).sole = 0 := by
  have keeps {t : State} (ht : (t.region r).sole = 0) (q : Nat) : ((t.dirHost (q * 2 ^ 21)).region r).sole = 0 := by
    rw [State.region_dirHost]
    split
    · rfl
    · exact ht
  induction L generalizing s with
  | nil => exact absurd hr List.not_mem_nil
  | cons q L ih =>
    rw [List.foldl_cons]
    rcases List.mem_cons.1 hr with rfl | hr
    · refine List.foldlRecOn (motive := fun t : State => (t.region r).sole = 0) L _ ?_ fun t ht q _ => keeps ht q
      rw [State.region_dirHost, if_pos rfl]
    · exact ih _ hr

theorem State.dirHosts_other (s : State) {L : List Nat} {r : Nat} (hr : r ∉ L) :
    (L.foldl (fun (s : State) r => s.dirHost (r * 2 ^ 21)) s).region r = s.region r := by
  refine List.foldlRecOn (motive := fun t : State => t.region r = s.region r) L _ rfl fun t ht q hq => ?_
  rw [State.region_dirHost, if_neg (fun h : r = q => hr (h ▸ hq))]
  exact ht

/-- With no write to be missed, the aperture finds every sector as its home holds it. -/
theorem State.aperturePicks_current (h : s.olds = []) (L : List Nat) :
    s.aperturePicks L = (s, L.map fun sec => (sec, s.current sec)) := by
  have pick (sec : Nat) : s.aperturePick sec = (s, s.current sec) := by rw [State.aperturePick, h]; rfl
  induction L with
  | nil => rfl
  | cons sec r ih =>
    rw [State.aperturePicks, pick]
    dsimp only
    rw [ih]
    rfl

theorem versionByte_current {L : List Nat} {pa : Nat} (h : pa / 32 ∈ L) :
    versionByte (L.map fun sec => (sec, s.current sec)) pa = (s.mem.byte pa, s.mem.bad (pa / 32) || s.offline (32 * (pa / 32))) := by
  have hf : (L.map fun sec => (sec, s.current sec)).find? (·.1 == pa / 32) = some (pa / 32, s.current (pa / 32)) := by
    rw [List.find?_map]
    have : L.find? (((·.1 == pa / 32) : Nat × Version → Bool) ∘ fun sec => (sec, s.current sec)) = some (pa / 32) := by
      induction L with
      | nil => exact absurd h List.not_mem_nil
      | cons x r ih =>
        by_cases hx : x = pa / 32
        · simp [hx]
        · rw [List.find?_cons_of_neg (by simpa using hx)]
          exact ih ((List.mem_cons.1 h).resolve_left (Ne.symm hx))
    rw [this]
    rfl
  have hb : (s.mem.bytesAt (32 * (pa / 32)) 32).getD (pa % 32) 0 = s.mem.byte pa := by
    have hlt : pa % 32 < 32 := Nat.mod_lt _ (by decide)
    rw [List.getD_eq_getElem?_getD, Store.getElem?_bytesAt, if_pos hlt, Option.getD_some, Nat.div_add_mod]
  rw [versionByte, hf]
  exact congrArg (·, _) hb

/-- The sectors of a read, and the regions it touches. -/
theorem filterMap_apertureAddrs (h : off + n ≤ 0x10C388D0000) (d : Nat) :
    ((apertureAddrs off n).filterMap id).map (· / d) = (List.range n).map fun i => (off + i) / d := by
  rw [apertureAddrs_near h, List.filterMap_map, Function.id_comp, List.filterMap_eq_map', List.map_map]
  rfl

theorem mem_apertureParts {d x : Nat} (h : off + n ≤ 0x10C388D0000) :
    x ∈ sortNat (((apertureAddrs off n).filterMap id).map (· / d)) ↔ ∃ i, i < n ∧ (off + i) / d = x := by
  rw [mem_sortNat, filterMap_apertureAddrs h, List.mem_map]
  simp only [List.mem_range]

/-- The state of a read, before its bytes are handed over. -/
def State.hosted (s : State) (off n : Nat) : State :=
  (sortNat (((apertureAddrs off n).filterMap id).map (· / 2 ^ 21))).foldl (fun (s : State) r => s.dirHost (r * 2 ^ 21)) s

theorem State.hosted_frame (s : State) (off n : Nat) : s.hosted off n = { s with dir := (s.hosted off n).dir } :=
  s.dirHosts_frame _

/-- A read of the near tier with no write to be missed (R196, R242). -/
theorem exec_apertureRead (h5 : s.ready.getLsbD 5 = true) (h : off + n ≤ 0x10C388D0000)
    (hr : ∀ i, i < n → s.memReady (off + i) = true) (ho : s.olds = []) :
    exec (.apertureRead off n) s = .next { s.hosted off n with hostRead := (List.range n).map fun i =>
      (s.mem.byte (off + i), s.mem.bad ((off + i) / 32) || s.offline (32 * ((off + i) / 32))) } := by
  have hold : (s.hosted off n).olds = [] := by rw [State.hosted_frame]; exact ho
  have found (i : Nat) (hi : i < n) : versionByte ((sortNat (((apertureAddrs off n).filterMap id).map (· / 32))).map fun sec =>
      (sec, (s.hosted off n).current sec)) (off + i) =
        (s.mem.byte (off + i), s.mem.bad ((off + i) / 32) || s.offline (32 * ((off + i) / 32))) := by
    rw [versionByte_current ((mem_apertureParts h).2 ⟨i, hi, rfl⟩), State.hosted_frame]
    rfl
  have handed : ((apertureAddrs off n).map fun a => match a with
      | some pa => versionByte ((sortNat (((apertureAddrs off n).filterMap id).map (· / 32))).map fun sec =>
          (sec, (s.hosted off n).current sec)) pa
      | none => (0, false)) = (List.range n).map fun i =>
        (s.mem.byte (off + i), s.mem.bad ((off + i) / 32) || s.offline (32 * ((off + i) / 32))) := by
    conv_lhs => enter [2]; rw [apertureAddrs_near h]
    rw [List.map_map]
    exact List.map_congr_left fun i hi => found i (List.mem_range.1 hi)
  show execApertureRead off n s = _
  unfold execApertureRead
  simp only [h5, Bool.not_true, Bool.false_eq_true, if_false, State.apertureHeld_near h hr, apertureAddrs_all h]
  rw [show List.foldl _ s _ = s.hosted off n from rfl, State.aperturePicks_current hold]
  exact congrArg (fun x => Host.Outcome.next { s.hosted off n with hostRead := x }) handed

/-- R196, R199, R217, R242, R364, R366. -/
theorem apertureActs : Claims.ApertureActs := by
  refine ⟨fun s off l h5 hl hs h hr ho hw hb hp => ⟨_, exec_apertureWrite h5 h fun i hi => ?ready, ?bytes, ?stamp, ?poison, ?others⟩,
    fun s off n h5 h hr ho => ⟨_, exec_apertureRead h5 h hr ho, ?mem, ?found, ?sole, ?regions⟩, fun s off n l h5 => ⟨?missed, ?read⟩⟩
  case ready =>
    rw [← memReady_sector, show (off + i) / 32 = off / 32 by omega, memReady_sector]
    exact hr
  case bytes =>
    intro i hi
    rw [State.apertureWrite_mem hb hl hs (by rw [Nat.mul_comm]; exact ho) hp, Store.byte_setBad, Store.byte_setStamp]
    exact Store.byte_setBytes_in hw off i l (by rw [List.getElem?_eq_getElem hi, List.getD_eq_getElem _ _ hi])
  case stamp =>
    rw [State.apertureWrite_mem hb hl hs (by rw [Nat.mul_comm]; exact ho) hp, Store.stamp_setBad,
      Store.stamp_setStamp _ _ _ (Store.wf_setBytes off l hw), if_pos rfl]
  case poison =>
    rw [State.apertureWrite_mem hb hl hs (by rw [Nat.mul_comm]; exact ho) hp,
      Store.bad_setBad (Store.wf_setStamp _ _ (Store.wf_setBytes off l hw))]
  case others =>
    intro a ha
    rw [State.apertureWrite_mem hb hl hs (by rw [Nat.mul_comm]; exact ho) hp, Store.byte_setBad, Store.byte_setStamp,
      Store.byte_setBytes_out _ _ _ _ ha]
  case mem =>
    rw [State.hosted_frame]
  case found =>
    simp only [Nat.mul_comm 32]
  case sole =>
    intro i hi
    exact s.dirHosts_sole ((mem_apertureParts h).2 ⟨i, hi, rfl⟩)
  case regions =>
    intro r hn
    refine s.dirHosts_other fun hr => ?_
    obtain ⟨i, hi, he⟩ := (mem_apertureParts h).1 hr
    exact hn i hi he
  case missed =>
    show execApertureWrite off l s = _
    unfold execApertureWrite
    simp only [h5, Bool.not_false, if_true]
  case read =>
    refine ⟨{ s.count (lagoonCtr 4) 1 with
      fresh := s.fresh + n, hostRead := (List.range n).map fun i => (Config.freeByte (s.fresh + i), true) }, ?_, rfl, ?_, ?_⟩
    · show execApertureRead off n s = _
      unfold execApertureRead
      simp only [h5, Bool.not_false, if_true]
      rfl
    · simp
    · intro p hp
      obtain ⟨i, -, rfl⟩ := List.mem_map.1 hp
      rfl

end

end Sys2Proof.Machine
end

section
/-! Gather packets and DRAM errors (R204 to R206, R216, R218), in a machine without blocks. -/

namespace Sys2Proof.Machine

open Sys2Proof.Claims

section
variable {s t u : State}

/-! ### What requests to the directory change where no stash has a line -/

/-- `t` is `s` but for the directory and the lagoon's counters. -/
structure Asked (s t : State) : Prop where
  frame : t = { s with dir := t.dir, fine := t.fine, counters := t.counters }
  counters : ∀ d k, Tbl.getD t.counters (baseCtr d k) 0 = Tbl.getD s.counters (baseCtr d k) 0

theorem Asked.refl (s : State) : Asked s s := ⟨rfl, fun _ _ => rfl⟩

theorem Asked.trans (h : Asked s t) (k : Asked t u) : Asked s u :=
  ⟨k.frame.trans (congrArg (fun x : State => { x with dir := u.dir, fine := u.fine, counters := u.counters }) h.frame),
    fun d n => (k.counters d n).trans (h.counters d n)⟩

theorem Asked.mem (h : Asked s t) : t.mem = s.mem := (congrArg State.mem h.frame :)

theorem Asked.blocks (h : Asked s t) : t.blocks = s.blocks := (congrArg State.blocks h.frame :)

theorem Asked.setRegion (s : State) (r : Nat) (x : Region) : Asked s (s.setRegion r x) := ⟨rfl, fun _ _ => rfl⟩

theorem Asked.fine (s : State) (l : List Nat) : Asked s { s with fine := l } := ⟨rfl, fun _ _ => rfl⟩

theorem baseCtr_ne_lagoonCtr (d k : Nat) {j : Nat} (hj : j < 100) : baseCtr d k ≠ lagoonCtr j := by
  unfold baseCtr lagoonCtr
  omega

theorem Asked.count (s : State) {j : Nat} (hj : j < 100) (n : Nat) : Asked s (s.count (lagoonCtr j) n) :=
  ⟨rfl, fun d k => by rw [State.count, Tbl.getD_set, if_neg (baseCtr_ne_lagoonCtr d k hj)]⟩

theorem State.copiesBack_noBlocks (h : s.blocks = []) (p isle : Nat → Bool) (drop : Bool) : s.copiesBack p isle drop = s := by
  rw [State.copiesBack, h]
  rfl

theorem State.regionBack_noBlocks (h : s.blocks = []) (r : Nat) (isle : Nat → Bool) (drop : Bool) : s.regionBack r isle drop = s :=
  State.copiesBack_noBlocks h ..

theorem Asked.fineRoom (h : s.blocks = []) : Asked s s.fineRoom := by
  unfold State.fineRoom
  split
  · exact Asked.refl s
  · split
    · exact Asked.refl s
    · dsimp only
      rw [State.regionBack_noBlocks h]
      exact ((Asked.fine ..).trans (Asked.setRegion ..)).trans (Asked.count _ (by decide) 1)

theorem Asked.dirRequest (h : s.blocks = []) (i pa : Nat) (wr : Bool) : Asked s (s.dirRequest i pa wr) := by
  have tracked (r : Nat) (x : Region) : Asked s ({ s.fineRoom with fine := s.fineRoom.fine ++ [r] }.setRegion r x) :=
    ((Asked.fineRoom h).trans (Asked.fine ..)).trans (Asked.setRegion ..)
  unfold State.dirRequest
  simp only [State.regionBack_noBlocks h, State.copiesBack_noBlocks h]
  split
  · exact (Asked.fine ..).trans (Asked.setRegion ..)
  · split
    · split
      · exact Asked.setRegion ..
      · split
        · exact Asked.setRegion ..
        · split
          · exact tracked ..
          · exact Asked.setRegion ..
    · split
      · exact tracked ..
      · exact Asked.setRegion ..
    · split
      · exact Asked.setRegion ..
      · split
        · split
          · exact Asked.setRegion ..
          · exact Asked.setRegion ..
        · exact Asked.setRegion ..

/-- The requests of a packet, word by word. -/
def State.gathered (s : State) (isle base : Nat) (offs : List Nat) : State :=
  offs.foldl (fun (s : State) o => (s.snoop none ((base + o) / 128) false).dirAccess isle (base + o) false) s

theorem Asked.gathered (h : s.blocks = []) (isle base : Nat) (offs : List Nat) : Asked s (s.gathered isle base offs) := by
  refine List.foldlRecOn (motive := fun t => Asked s t) offs _ (Asked.refl s) fun t ht o _ => ht.trans ?_
  have hb : t.blocks = [] := ht.blocks.trans h
  rw [State.snoop_noBlocks hb, State.dirAccess]
  split
  · exact Asked.dirRequest hb ..
  · exact Asked.refl t

/-! ### Poison and the logs -/

theorem Store.bad_setBad_true (m : Store) (i j : Nat) : (m.setBad i true).bad j = (j == i || m.bad j) := by
  rw [Store.bad, Store.setBad, if_pos rfl, Tbl.get?_set, Store.bad]
  by_cases h : j = i <;> simp [h]

theorem State.bad_poisonSec (s : State) (i j : Nat) : (s.poisonSec i).mem.bad j = (j == i || s.mem.bad j) :=
  Store.bad_setBad_true ..

theorem State.bytes_poisonSec (s : State) (i : Nat) : (s.poisonSec i).mem.bytes = s.mem.bytes := rfl

/-- The sectors poisoned, and no byte or counter changed. -/
theorem State.poisonSecs (s : State) (l : List Nat) : (l.foldl State.poisonSec s).mem.bytes = s.mem.bytes ∧
    (l.foldl State.poisonSec s).counters = s.counters ∧ ∀ j ∈ l, (l.foldl State.poisonSec s).mem.bad j = true := by
  refine ⟨List.foldlRecOn (motive := fun t : State => t.mem.bytes = s.mem.bytes) l State.poisonSec rfl fun _ ht _ _ => ht,
    List.foldlRecOn (motive := fun t : State => t.counters = s.counters) l State.poisonSec rfl fun _ ht _ _ => ht, ?_⟩
  induction l generalizing s with
  | nil => exact fun _ h => absurd h List.not_mem_nil
  | cons i r ih =>
    intro j hj
    rcases List.mem_cons.1 hj with rfl | hj
    · refine List.foldlRecOn (motive := fun t : State => t.mem.bad j = true) r State.poisonSec ?_ fun t ht i _ => ?_
      · simp [State.bad_poisonSec]
      · simp [State.bad_poisonSec, ht]
    · exact ih _ j hj

/-- An entry changes a log of its base die, or the counter of dropped entries (R220). -/
theorem State.logDram_or (s : State) (kind sec lane retries : Nat) :
    s.logDram kind sec lane retries = s.count (baseCtr (baseOf (32 * sec)) 8) 1 ∨
      ∃ b, s.logDram kind sec lane retries = s.setBase (baseOf (32 * sec)) b :=
  (ite_eq_or_eq ..).imp_right fun h => ⟨_, h⟩

theorem State.logDram_mem (s : State) (kind sec lane retries : Nat) : (s.logDram kind sec lane retries).mem = s.mem := by
  obtain h | ⟨b, h⟩ := s.logDram_or kind sec lane retries <;> rw [h] <;> rfl

theorem State.logDram_counters (s : State) (kind sec lane retries d : Nat) {k : Nat} (hk : k < 8) :
    Tbl.getD (s.logDram kind sec lane retries).counters (baseCtr d k) 0 = Tbl.getD s.counters (baseCtr d k) 0 := by
  obtain h | ⟨b, h⟩ := s.logDram_or kind sec lane retries
  · rw [h, State.count, Tbl.getD_set, if_neg]
    unfold baseCtr
    omega
  · rw [h]
    rfl

theorem State.getD_count_same (s : State) (off n : Nat) :
    Tbl.getD (s.count off n).counters off 0 = satAdd (Tbl.getD s.counters off 0) n := Tbl.getD_set_same ..

/-! ### The packet -/

/-- A packet that the lagoon serves. -/
theorem exec_gatherPacket {isle base : Nat} {offs : List Nat} (hl : s.ready.getLsbD 2 = true) (hi : isle < 8) (hn : offs.length ≤ 32)
    (hr : ∀ x ∈ offs, backed (base + x) 1 = true ∧ s.memReady (base + x) = true) (evs : List DramEvent) :
    exec (.gatherPacket isle base offs evs) s =
      (let secs := sortNat (offs.map fun o => (base + o) / 32)
       .next ((secs.zip evs).foldl (fun (s : State) p => s.dramEvent (secs.filter fun x => x / 4 == p.1 / 4) p.1 p.2)
        (s.gathered isle base offs))) := by
  have ha : (offs.any fun o => !(backed (base + o) 1 && s.memReady (base + o))) = false := by
    refine List.any_eq_false.2 fun x hx => ?_
    simp [hr x hx]
  have hg : (!s.lagoonUp || decide (8 ≤ isle) || decide (32 < offs.length) ||
      offs.any fun o => !(backed (base + o) 1 && s.memReady (base + o))) = false := by
    rw [ha, show s.lagoonUp = true from hl, decide_eq_false (by omega), decide_eq_false (by omega)]
    rfl
  show execGatherPacket isle base offs evs s = _
  unfold execGatherPacket
  rw [hg]
  rfl

theorem exec_gatherOne {isle base : Nat} {offs : List Nat} {a : Nat} {r : List Nat} (hl : s.ready.getLsbD 2 = true) (hi : isle < 8)
    (hn : offs.length ≤ 32) (hr : ∀ x ∈ offs, backed (base + x) 1 = true ∧ s.memReady (base + x) = true)
    (hs : sortNat (offs.map fun o => (base + o) / 32) = a :: r) (ev : DramEvent) :
    exec (.gatherPacket isle base offs [ev]) s =
      .next ((s.gathered isle base offs).dramEvent ((a :: r).filter fun x => x / 4 == a / 4) a ev) := by
  rw [exec_gatherPacket hl hi hn hr, hs]
  dsimp only
  rw [List.zip_cons_cons, List.zip_nil_right, List.foldl_cons, List.foldl_nil]

/-- R204 to R206, R216, R218. -/
theorem gatherPacketsAreServed : Claims.GatherPacketsAreServed := by
  intro s isle base o offs hl hi hn hb hr ho ctr
  have hlen : (o :: offs).length ≤ 32 := hn
  have asked : Asked s (s.gathered isle base (o :: offs)) := Asked.gathered hb ..
  obtain ⟨r, hs⟩ : ∃ r, sortNat ((o :: offs).map fun x => (base + x) / 32) = (base + o) / 32 :: r := by
    refine sortNat_cons_of_le fun x hx => ?_
    obtain ⟨y, hy, rfl⟩ := List.mem_map.1 hx
    exact Nat.div_le_div_right (Nat.add_le_add_left (ho y hy) base)
  refine ⟨⟨_, exec_gatherPacket hl hi hlen hr [], ?served⟩, ⟨_, exec_gatherOne hl hi hlen hr hs .uncorrectable, ?bytes, ?bad, ?counted⟩,
    fun ok => ⟨_, exec_gatherOne hl hi hlen hr hs (.allFailed none ok), ?parity⟩⟩
  case served =>
    rw [List.zip_nil_right]
    exact asked.mem
  case bytes =>
    simp only [State.dramEvent, State.logDram_mem, State.count_mem]
    exact (State.bytes_poisonSec ..).trans (congrArg Store.bytes asked.mem)
  case bad => simp [State.dramEvent, State.logDram_mem, State.bad_poisonSec]
  case counted =>
    simp only [State.dramEvent, ctr]
    rw [State.logDram_counters _ _ _ _ _ _ (by decide), baseOf_sector, State.getD_count_same]
    exact congrArg (satAdd · 1) (asked.counters _ 1)
  case parity =>
    have hf : ((base + o) / 32 :: r).filter (fun x => x / 4 == (base + o) / 32 / 4) =
        (base + o) / 32 :: r.filter (fun x => x / 4 == (base + o) / 32 / 4) := List.filter_cons_of_pos (by simp)
    obtain ⟨hbytes, hctr, hbad⟩ := (s.gathered isle base (o :: offs)).poisonSecs
      (((base + o) / 32 :: r).filter fun x => x / 4 == (base + o) / 32 / 4)
    have hd : ((base + o) / 32 :: r.filter (fun x => x / 4 == (base + o) / 32 / 4)).headD 0 = (base + o) / 32 := rfl
    simp only [State.dramEvent, State.parityPoison, State.count_mem, State.logDram_mem, ctr]
    refine ⟨hbytes.trans (congrArg Store.bytes asked.mem), fun x hx he => hbad _ ?_, ?_⟩
    · refine List.mem_filter.2 ⟨?_, ?_⟩
      · rw [← hs, mem_sortNat]
        exact List.mem_map_of_mem hx
      · rw [beq_iff_eq]
        omega
    · rw [hf, hd, baseOf_sector, State.getD_count_same, State.logDram_counters _ _ _ _ _ _ (by decide), ← hf, hctr]
      exact congrArg (satAdd · 1) (asked.counters _ 4)

end

end Sys2Proof.Machine
end

section
/-! Base dies (R203, R365, R366, R368): the stack zeroed, its bit of READY, and the writes that were held for it. -/

namespace Sys2Proof.Machine

open Sys2Proof.Claims

section
variable {s t : State} {d : Nat}

/-! ### A stack zeroed -/

theorem Store.byte_wipe (m : Store) (d a : Nat) : (m.wipe d).byte a = if baseOf a = d then 0 else m.byte a := by
  simp only [Store.byte, Store.wipe, Tbl.getD, Tbl.get?_filter_key m.bytes fun k => baseOf k != d]
  by_cases h : baseOf a = d <;> simp [h]

theorem Store.stamp_wipe (m : Store) (d i : Nat) :
    (m.wipe d).stamp i = if baseOf (32 * i) = d then ancient else m.stamp i := by
  simp only [Store.stamp, Store.wipe, Tbl.getD, Tbl.get?_filter_key m.stamps fun k => baseOf (32 * k) != d]
  by_cases h : baseOf (32 * i) = d <;> simp [h]

theorem Store.bad_wipe (m : Store) (d i : Nat) : (m.wipe d).bad i = if baseOf (32 * i) = d then false else m.bad i := by
  simp only [Store.bad, Store.wipe, Tbl.get?_filter_key m.poison fun k => baseOf (32 * k) != d]
  by_cases h : baseOf (32 * i) = d <;> simp [h]

/-! ### Writes performed at a stack that is ready are not held -/

/-- The sectors of a line lie in one stack. -/
theorem baseOf_line (sec : Nat) {k : Nat} (hk : k < 4) : baseOf (32 * (4 * (sec / 4) + k)) = baseOf (32 * sec) := by
  have page : 32 * (4 * (sec / 4) + k) / 4096 = 32 * sec / 4096 := by omega
  have byPage (pa : Nat) : baseOf pa = pa / 4096 / 2 ^ 29 % 2 * 12 + pa / 4096 % 2 ^ 29 % 12 := by
    unfold baseOf tierOff
    omega
  rw [byPage, byPage, page]

theorem State.heldPuts_homeSet (s : State) (sec : Nat) (data : List Byte) (st : Stamp) (bad : Bool) :
    (s.homeSet sec data st bad).heldPuts = s.heldPuts := by
  unfold State.homeSet
  split <;> rfl

theorem State.heldPuts_homePut (s : State) (now : Stamp) (sec : Nat) (w : List (Nat × Byte)) (r : StampRule) :
    (s.homePut now sec w r).heldPuts = s.heldPuts := by
  unfold State.homePut
  split
  · rfl
  · split <;> rfl

theorem State.heldPuts_homeLine {x : StashLine} (h : ∀ k, k < 4 → s.memReady (32 * (x.pa / 32 + k)) = true) :
    (s.homeLine x).heldPuts = s.heldPuts := by
  rw [State.homeLine_eq]
  refine (List.foldlRecOn (motive := fun t => Homes s t ∧ t.heldPuts = s.heldPuts) (List.range 4) (State.homeSector x)
    ⟨Homes.refl s, rfl⟩ fun t ht k hk => ⟨ht.1.trans (Homes.homeSector ..), ?_⟩).2
  rw [State.homeSector, if_pos ((ht.1.memReady _).trans (h k (List.mem_range.1 hk))), State.heldPuts_homeSet, ht.2]

theorem State.heldPuts_onBlock (s : State) (c b : Nat) (f : Block → Block) : (s.onBlock c b f).heldPuts = s.heldPuts := by
  rw [State.onBlock_frame]

/-- The dirty copies of a line whose stack is ready are written to it. -/
theorem State.heldPuts_snoop {line : Nat} (h : ∀ k, k < 4 → s.memReady (32 * (4 * line + k)) = true) (own : Option (Nat × Nat))
    (wr : Bool) : (s.snoop own line wr).heldPuts = s.heldPuts := by
  refine (List.foldlRecOn (motive := fun t => Homes s t ∧ t.heldPuts = s.heldPuts) s.blocks _ ⟨Homes.refl s, rfl⟩ fun t ht p _ =>
    List.foldlRecOn (motive := fun t => Homes s t ∧ t.heldPuts = s.heldPuts) p.2.2.stash _ ht fun t ht e _ => ?_).2
  dsimp only
  split
  · next hc =>
    refine ⟨(ht.1.trans (Homes.lineBack t e.2)).trans (Homes.onBlock ..), ?_⟩
    have hp : e.2.pa = 128 * line := by simpa using (Bool.and_eq_true_iff.1 hc).1
    rw [State.heldPuts_onBlock]
    split
    · rw [State.heldPuts_homeLine, ht.2]
      intro k hk
      rw [ht.1.memReady, show e.2.pa / 32 + k = 4 * line + k by omega]
      exact h k hk
    · exact ht.2
  · exact ht

theorem State.heldPuts_putHeld {h : HeldPut} (hr : s.memReady (32 * h.sec) = true) : (s.putHeld h).heldPuts = s.heldPuts := by
  cases h with
  | unit sec l =>
    rw [State.putHeld, State.heldPuts_homePut, State.heldPuts_snoop]
    intro k hk
    unfold State.memReady at hr ⊢
    rw [baseOf_line sec hk]
    exact hr
  | line sec bytes st bad => exact State.heldPuts_homeSet ..

/-! ### The writes that were held (R366) -/

/-- The writes held for a base die, and those for the others. -/
def State.heldFor (s : State) (d : Nat) : List HeldPut := s.heldPuts.filter fun h => baseOf (32 * h.sec) == d

def State.heldRest (s : State) (d : Nat) : List HeldPut := s.heldPuts.filter fun h => baseOf (32 * h.sec) != d

theorem State.releaseHeld_spec (hr : s.ready.getLsbD (40 + d) = true) :
    Homes s (s.releaseHeld d) ∧ (s.releaseHeld d).heldPuts = s.heldRest d := by
  have start : Homes s { s with heldPuts := s.heldRest d } := Homes.of_fields rfl rfl rfl
  refine List.foldlRecOn (motive := fun t => Homes s t ∧ t.heldPuts = s.heldRest d) (s.heldFor d) State.putHeld ⟨start, rfl⟩
    fun t ht h hh => ⟨ht.1.trans (Homes.putHeld ..), ?_⟩
  have hd : baseOf (32 * h.sec) = d := by simpa using (List.mem_filter.1 hh).2
  rw [State.heldPuts_putHeld, ht.2]
  rw [ht.1.memReady, State.memReady, hd]
  exact hr

/-- With none held for the die, nothing is written. -/
theorem State.releaseHeld_none (h : s.heldRest d = s.heldPuts) : (s.releaseHeld d).mem = s.mem := by
  have hn : s.heldFor d = [] := by
    refine List.filter_eq_nil_iff.2 fun x hx => ?_
    have := List.filter_eq_self.1 h x hx
    simpa using this
  show (List.foldl State.putHeld { s with heldPuts := s.heldRest d } (s.heldFor d)).mem = _
  rw [hn]
  rfl

/-- A line held alone is written whole. -/
theorem State.releaseHeld_line {sec : Nat} {bytes : List Byte} {st : Stamp} {bad : Bool}
    (h : s.heldPuts = [.line sec bytes st bad]) (hd : baseOf (32 * sec) = d) (ho : s.offline (32 * sec) = false) :
    (s.releaseHeld d).mem = ((s.mem.setBytes (32 * sec) bytes).setStamp sec st).setBad sec bad := by
  have hf : s.heldFor d = [.line sec bytes st bad] := by simp [State.heldFor, h, HeldPut.sec, hd]
  show (List.foldl State.putHeld { s with heldPuts := s.heldRest d } (s.heldFor d)).mem = _
  rw [hf, List.foldl_cons, List.foldl_nil]
  exact State.homeSet_mem_online { s with heldPuts := s.heldRest d } ho bytes st bad

/-! ### The initialisation -/

/-- The machine with the stack of a base die zeroed and its bit set, its held writes still to be performed. -/
def State.dieCleared (s : State) (d : Nat) : State :=
  { s.clearCounters (baseCtr d 0) (baseCtr d 512) with
    mem := s.mem.wipe d
    hist := s.hist.filter fun e => baseOf (4 * e.1) != d
    olds := s.olds.filter fun e => baseOf (32 * e.sec) != d
    ready := s.ready ||| ((1 : DWord) <<< (40 + d)) }

theorem State.dieCleared_ready (s : State) (hd : d < 24) (k : Nat) :
    (s.dieCleared d).ready.getLsbD k = (s.ready.getLsbD k || k == 40 + d) := by
  show (s.ready ||| BitVec.twoPow 64 (40 + d)).getLsbD k = _
  rw [BitVec.getLsbD_or, BitVec.getLsbD_twoPow, decide_eq_true (by omega), Bool.true_and, Bool.beq_comm]
  rfl

theorem exec_baseDieInitialisation (hd : d < 24) (hr : s.ready.getLsbD (40 + d) = false) : exec (.baseDieInitialisation d) s =
    .next (if s.fwPassed (9 + d) then (s.dieCleared d).releaseHeld d else s) := by
  show execBaseDieInitialisation d s = _
  unfold execBaseDieInitialisation
  rw [hr, decide_eq_false (by omega)]
  cases s.fwPassed (9 + d) <;> rfl

/-- R203, R365, R366, R368. -/
theorem baseDiesInitialise : Claims.BaseDiesInitialise := by
  intro s d hd hr
  have ready : (s.dieCleared d).ready.getLsbD (40 + d) = true := by rw [State.dieCleared_ready s hd, beq_self_eq_true, Bool.or_true]
  obtain ⟨homes, held⟩ := State.releaseHeld_spec ready
  rw [exec_baseDieInitialisation hd hr]
  refine ⟨fun hf => by rw [hf]; rfl, fun hf => ⟨_, by rw [hf]; rfl, fun k => ?ready, held, fun hn => ?zeroed, ?line⟩⟩
  case ready => exact (congrArg (·.getLsbD k) homes.ready).trans (State.dieCleared_ready s hd k)
  case zeroed =>
    have hm : ((s.dieCleared d).releaseHeld d).mem = s.mem.wipe d := State.releaseHeld_none (held.symm.trans hn)
    simp only [hm, Store.byte_wipe, Store.stamp_wipe, Store.bad_wipe]
    exact ⟨fun a h => if_pos h, fun a h => if_neg h, fun i h => ⟨if_pos h, if_pos h⟩, fun i h => ⟨if_neg h, if_neg h⟩⟩
  case line =>
    intro sec bytes st bad hs hb hl hw ho
    have hwf : ((s.mem.wipe d).setBytes (32 * sec) bytes).wf = true := Store.wf_setBytes _ _ (Store.wf_wipe d hw)
    have hm : ((s.dieCleared d).releaseHeld d).mem =
        (((s.mem.wipe d).setBytes (32 * sec) bytes).setStamp sec st).setBad sec bad :=
      State.releaseHeld_line (s := s.dieCleared d) hs hb ho
    rw [hm, Store.stamp_setBad, Store.stamp_setStamp _ _ _ hwf, if_pos rfl, Store.bad_setBad (Store.wf_setStamp _ _ hwf)]
    refine ⟨fun i hi => ?_, rfl, rfl⟩
    rw [Store.byte_setBad, Store.byte_setStamp]
    exact Store.byte_setBytes_in (Store.wf_wipe d hw) _ i _
      (by rw [List.getElem?_eq_getElem (by omega), List.getD_eq_getElem _ _ (by omega)])

end

end Sys2Proof.Machine
end

section
/-! The search of the fault unit for a near frame, and the frame that it copies (R212 to R214): what they leave of the machine, and
the bytes that stand in the new frame. -/

namespace Sys2Proof

theorem Tbl.get?_append {α : Type} (t u : Tbl α) (k : Nat) : Tbl.get? (t ++ u) k = (Tbl.get? t k).or (Tbl.get? u k) := by
  induction t with
  | nil => rfl
  | cons e r ih =>
    simp only [List.cons_append, Tbl.get?]
    split
    · rfl
    · exact ih

namespace Machine

open Sys2Proof.Claims

/-! ### A run of keys moved -/

/-- The run itself, at its new place. -/
theorem get?_movedRun {α : Type} (t : Tbl α) (a b n k : Nat) :
    Tbl.get? ((t.filter fun e => a ≤ e.1 && e.1 < a + n).map fun e => (e.1 - a + b, e.2)) k =
      if b ≤ k ∧ k < b + n then Tbl.get? t (k - b + a) else none := by
  induction t with
  | nil => simp [Tbl.get?]
  | cons e r ih =>
    obtain ⟨j, x⟩ := e
    by_cases hj : a ≤ j ∧ j < a + n
    · rw [List.filter_cons_of_pos (by simpa using hj), List.map_cons]
      simp only [Tbl.get?, ih]
      by_cases hk : j - a + b = k
      · rw [if_pos hk, if_pos (by omega), if_pos (by omega)]
      · rw [if_neg hk]
        split
        · rw [if_neg (by omega)]
        · rfl
    · rw [List.filter_cons_of_neg (by simpa using hj), ih]
      simp only [Tbl.get?]
      split
      · rw [if_neg (by omega)]
      · rfl

/-- What a table holds at a key once a run is moved: what the run held there, and else what it held. -/
theorem get?_moveRun {α : Type} (t : Tbl α) (a b n k : Nat) :
    Tbl.get? (moveRun t a b n) k = if b ≤ k ∧ k < b + n then Tbl.get? t (k - b + a) else Tbl.get? t k := by
  rw [moveRun, Tbl.get?_append, Tbl.get?_append, get?_movedRun, Tbl.get?_filter_key t (fun j => decide (j < b)),
    Tbl.get?_filter_key t (fun j => decide (b + n ≤ j))]
  by_cases h1 : k < b
  · simp [h1, show ¬b ≤ k by omega, show ¬b + n ≤ k by omega]
  · by_cases h2 : k < b + n
    · simp [h1, h2, show b ≤ k by omega, show ¬b + n ≤ k by omega]
    · simp [h1, h2, show b + n ≤ k by omega]

section
variable {s t u : State}

/-! ### What the fault unit leaves -/

/-- The DONE ring, the base dies and the two counters of moves are as they were. -/
structure Serves (s t : State) : Prop where
  done : t.done = s.done
  bases : t.bases = s.bases
  moves : ∀ k, k = 5 ∨ k = 6 → Tbl.getD t.counters (lagoonCtr k) 0 = Tbl.getD s.counters (lagoonCtr k) 0

theorem Serves.refl (s : State) : Serves s s := ⟨rfl, rfl, fun _ _ => rfl⟩

theorem Serves.trans (h : Serves s t) (k : Serves t u) : Serves s u :=
  ⟨k.done.trans h.done, k.bases.trans h.bases, fun n hn => (k.moves n hn).trans (h.moves n hn)⟩

theorem Serves.of_fields (hd : t.done = s.done) (hb : t.bases = s.bases) (hc : t.counters = s.counters) : Serves s t :=
  ⟨hd, hb, fun _ _ => by rw [hc]⟩

theorem Homes.serves (h : Homes s t) : Serves s t := by
  refine ⟨h.done, h.bases, fun k hk => h.counters _ fun d _ => ?_⟩
  have hj : k < 100 := by omega
  exact ⟨(baseCtr_ne_lagoonCtr d 6 hj).symm, (baseCtr_ne_lagoonCtr d 7 hj).symm⟩

theorem Serves.count (s : State) {j : Nat} (hj : j ≠ 5 ∧ j ≠ 6) (n : Nat) : Serves s (s.count (lagoonCtr j) n) := by
  refine ⟨rfl, rfl, fun k hk => ?_⟩
  rw [State.count, Tbl.getD_set, if_neg]
  unfold lagoonCtr
  omega

theorem Serves.foldl {α : Type} {f : State → α → State} (hf : ∀ s a, Serves s (f s a)) (s : State) (l : List α) :
    Serves s (l.foldl f s) :=
  List.foldlRecOn (motive := fun t => Serves s t) l f (Serves.refl s) fun t ht a _ => ht.trans (hf t a)

theorem Serves.offline (h : Serves s t) (pa : Nat) : t.offline pa = s.offline pa := by simp [State.offline, State.base, h.bases]

theorem Serves.shoot (s : State) (ctx : Nat) (base : DWord) (span : Option Nat) : Serves s (s.shoot ctx base span) :=
  (Homes.copiesBack s _ _ false).serves.trans (Serves.of_fields rfl rfl rfl)

theorem Serves.setPte (s : State) (pa : Nat) (e : DWord) : Serves s (s.setPte pa e) :=
  (Homes.unitWrite ..).serves.trans (Serves.of_fields rfl rfl rfl)

theorem Homes.devRead (s : State) (pa n : Nat) : Homes s (s.devRead pa n).1 :=
  Homes.foldl (fun _ _ => Homes.snoop ..) s _

/-! ### A frame copied (R213) -/

/-- The lines of a frame are recalled from the stashes. -/
def State.recallLines (s : State) (inside : Nat → Bool) : State :=
  s.blocks.foldl (fun (s : State) e =>
    if (e.2.2.stash.filter fun l => inside l.2.pa).isEmpty then s
    else ((e.2.2.stash.filter fun l => inside l.2.pa).foldl (fun (s : State) l => if l.2.dirty then s.homeLine l.2 else s) s).onBlock
      e.1 e.2.1 fun b => { b with stash := e.2.2.stash.filter fun l => !inside l.2.pa }) s

/-- The addresses of a frame. -/
def inFrame (pa n a : Nat) : Bool := pa ≤ a && a < pa + n

/-- A core whose L1 holds nothing of a frame. -/
def Core.dropped (pa n : Nat) (c : Core) : Core := { c with l1 := c.l1.filter fun l => !inFrame pa n (128 * l.1) }

theorem State.recall_eq (s : State) (pa n : Nat) : s.recall pa n =
    { s.recallLines (inFrame pa n) with cores := (s.recallLines (inFrame pa n)).cores.map fun e => (e.1, e.2.dropped pa n) } := by
  unfold State.recall State.recallLines
  simp only [List.partition_eq_filter_filter]
  rfl

theorem Homes.recall (s : State) (pa n : Nat) : Homes s (s.recall pa n) := by
  have hl : Homes s (s.recallLines (inFrame pa n)) := by
    refine Homes.foldl (fun t e => ?_) s _
    split
    · exact Homes.refl t
    · exact (Homes.foldl (fun u (l : Nat × StashLine) => Homes.lineBack u l.2) t _).trans (Homes.onBlock ..)
  rw [State.recall_eq]
  refine hl.trans ⟨rfl, fun c => ?_, fun _ _ => rfl⟩
  rw [State.core_mapCores]
  split <;> rfl

theorem State.clean_mapCores {f : Core → Core} (hf : ∀ x, (f x).blocks = x.blocks) (h : s.clean) :
    ({ s with cores := s.cores.map fun e => (e.1, f e.2) } : State).clean := by
  refine State.clean_iff.2 fun p hp => ?_
  obtain ⟨e, he, rfl⟩ := List.mem_map.1 hp
  unfold Core.clean
  rw [hf]
  exact State.clean_iff.1 h e he

/-- Where no line is dirty, a recall writes nothing. -/
theorem State.recall_clean (hc : s.clean) (pa n : Nat) : (s.recall pa n).clean ∧ (s.recall pa n).mem = s.mem := by
  have hl : (s.recallLines (inFrame pa n)).clean ∧ (s.recallLines (inFrame pa n)).mem = s.mem := by
    refine List.foldlRecOn (motive := fun t : State => t.clean ∧ t.mem = s.mem) s.blocks _ ⟨hc, rfl⟩ fun t ht e he => ?_
    have none : ((e.2.2.stash.filter fun l => inFrame pa n l.2.pa).foldl
        (fun (s : State) l => if l.2.dirty then s.homeLine l.2 else s) t) = t :=
      List.foldlRecOn (motive := fun u => u = t) _ _ rfl fun u hu l hl => by
        rw [hc e he l (List.mem_filter.1 hl).1]
        exact hu
    split
    · exact ht
    · rw [none]
      exact ⟨State.clean_onBlock ht.1 _ _ fun x _ l hl => hc e he l (List.mem_filter.1 hl).1, (State.onBlock_mem ..).trans ht.2⟩
  rw [State.recall_eq]
  exact ⟨State.clean_mapCores (fun _ => rfl) hl.1, hl.2⟩

/-- Data, stamps and poison of a frame at another. -/
def Store.moved (m : Store) (src dst n : Nat) : Store :=
  { bytes := moveRun m.bytes src dst n
    stamps := moveRun m.stamps (src / 32) (dst / 32) (n / 32)
    poison := moveRun m.poison (src / 32) (dst / 32) (n / 32) }

theorem Store.wf_moved {m : Store} (h : m.wf = true) (src dst n : Nat) : (m.moved src dst n).wf = true := by
  rw [Store.wf_iff, bytesWf_iff, Bool.and_eq_true] at h ⊢
  obtain ⟨⟨hb, hz⟩, ⟨hs, ha⟩, hp⟩ := h
  exact ⟨⟨rising_moveRun _ _ _ hb, all_moveRun _ _ _ (fun x => x != 0) hz⟩,
    ⟨rising_moveRun _ _ _ hs, all_moveRun _ _ _ (fun x => x != ancient) ha⟩, rising_moveRun _ _ _ hp⟩

theorem Store.byte_moved (m : Store) (src dst n a : Nat) :
    (m.moved src dst n).byte a = if dst ≤ a ∧ a < dst + n then m.byte (a - dst + src) else m.byte a := by
  by_cases h : dst ≤ a ∧ a < dst + n <;> simp [Store.byte, Store.moved, Tbl.getD, get?_moveRun, h]

theorem Store.bad_moved (m : Store) {src dst n i : Nat} (h : i < dst / 32 ∨ dst / 32 + n / 32 ≤ i) :
    (m.moved src dst n).bad i = m.bad i := by
  simp only [Store.bad, Store.moved, get?_moveRun]
  rw [if_neg (by omega)]

/-- The sectors of offline channels come poisoned (R219). -/
def Store.lost (m : Store) (l : List Nat) (src dst : Nat) : Store :=
  l.foldl (fun (m : Store) i => m.setBad (i - src / 32 + dst / 32) true) m

theorem Store.byte_lost (m : Store) (l : List Nat) (src dst a : Nat) : (m.lost l src dst).byte a = m.byte a :=
  List.foldlRecOn (motive := fun t : Store => t.byte a = m.byte a) l _ rfl fun _ ht _ _ => ht

theorem Store.wf_lost {m : Store} (h : m.wf = true) (l : List Nat) (src dst : Nat) : (m.lost l src dst).wf = true :=
  List.foldlRecOn (motive := fun t : Store => t.wf = true) l _ h fun _ ht _ _ => Store.wf_setBad _ _ ht

theorem Store.bad_lost (m : Store) {l : List Nat} {src dst j : Nat} (h : ∀ i ∈ l, j ≠ i - src / 32 + dst / 32) :
    (m.lost l src dst).bad j = m.bad j := by
  refine List.foldlRecOn (motive := fun t : Store => t.bad j = m.bad j) l _ rfl fun t ht i hi => ?_
  rw [Store.bad_setBad_true, beq_eq_false_iff_ne.2 (h i hi), Bool.false_or, ht]

theorem mem_sectorsIn {a n i : Nat} (h : i ∈ sectorsIn a n) : a / 32 ≤ i ∧ i ≤ (a + n - 1) / 32 ∧ 0 < n := by
  unfold sectorsIn at h
  split at h
  · exact absurd h List.not_mem_nil
  · obtain ⟨k, hk, rfl⟩ := List.mem_map.1 h
    have := List.mem_range.1 hk
    omega

theorem State.mem_offlineIn {pa n i : Nat} (h : i ∈ s.offlineIn pa n) : i ∈ sectorsIn pa n := by
  unfold State.offlineIn at h
  split at h
  · exact absurd h List.not_mem_nil
  · exact (List.mem_filter.1 h).1

/-- The machine with both frames recalled, which a copy begins from. -/
def State.recalled (s : State) (src dst n : Nat) : State := (s.recall src n).recall dst n

theorem State.copyFrame_mem (s : State) (src dst n : Nat) : (s.copyFrame src dst n).mem =
    ((s.recalled src dst n).mem.moved src dst n).lost ((s.recalled src dst n).offlineIn src n) src dst := rfl

theorem Homes.copyFrame (s : State) (src dst n : Nat) : Homes s (s.copyFrame src dst n) := by
  have hr : Homes s (s.recalled src dst n) := (Homes.recall ..).trans (Homes.recall ..)
  have hc : Homes (s.recalled src dst n) (((s.recalled src dst n).offlineIn dst n).foldl
      (fun (s : State) i => s.count (baseCtr (baseOf (32 * i)) 6) 1) (s.recalled src dst n)) :=
    Homes.foldl (fun u i => Homes.count u (baseOf_lt _) (.inl rfl) 1) _ _
  exact (hr.trans hc).trans (Homes.of_fields rfl rfl rfl)

theorem State.copyFrame_cores (s : State) (src dst n : Nat) : (s.copyFrame src dst n).cores = (s.recalled src dst n).cores :=
  List.foldlRecOn (motive := fun t : State => t.cores = (s.recalled src dst n).cores) ((s.recalled src dst n).offlineIn dst n)
    (fun (s : State) i => s.count (baseCtr (baseOf (32 * i)) 6) 1) rfl fun _ ht _ _ => ht

/-- A frame copied in a machine without a dirty stash line. -/
structure Copied (s : State) (src dst n : Nat) (t : State) : Prop where
  clean : t.clean
  wf : t.mem.wf = true
  byte : ∀ a, t.mem.byte a = if dst ≤ a ∧ a < dst + n then s.mem.byte (a - dst + src) else s.mem.byte a
  bad : ∀ i, i < dst / 32 ∨ dst / 32 + n / 32 ≤ i → t.mem.bad i = s.mem.bad i

theorem State.copyFrame_copied (hc : s.clean) (hw : s.mem.wf = true) {src n : Nat} (hs : src % 32 = 0) (hn : n % 32 = 0) (dst : Nat) :
    Copied s src dst n (s.copyFrame src dst n) := by
  obtain ⟨hc1, hm1⟩ := State.recall_clean hc src n
  obtain ⟨hc2, hm2⟩ := State.recall_clean hc1 dst n
  have hm : (s.recalled src dst n).mem = s.mem := hm2.trans hm1
  refine ⟨?_, ?_, fun a => ?_, fun i hi => ?_⟩
  · rw [State.clean_iff, State.copyFrame_cores]
    exact State.clean_iff.1 hc2
  · rw [State.copyFrame_mem, hm]
    exact Store.wf_lost (Store.wf_moved hw ..) ..
  · rw [State.copyFrame_mem, hm, Store.byte_lost, Store.byte_moved]
  · rw [State.copyFrame_mem, hm, Store.bad_lost, Store.bad_moved _ hi]
    intro k hk
    have := mem_sectorsIn (State.mem_offlineIn hk)
    omega

/-! ### The search for a near frame (R214) -/

/-- The ring of free frames of a size. -/
def State.freeRing (s : State) (log : Nat) : Ring := if log = 16 then s.free64 else s.free2m

/-- The machine with an entry of that ring taken. -/
def State.popFree (s : State) (log : Nat) : State :=
  let r := s.freeRing log
  let t := (s.devRead (r.slot r.head 8) 8).1
  if log = 16 then { t with free64 := { r with head := r.head + 1 } } else { t with free2m := { r with head := r.head + 1 } }

/-- The entry. -/
def State.freeEntry (s : State) (log : Nat) : Nat := leVal (s.devRead ((s.freeRing log).slot (s.freeRing log).head 8) 8).2

theorem State.takeFree_succ (s : State) (log n : Nat) : s.takeFree log (n + 1) =
    if (s.freeRing log).isEmpty then (s, .none)
    else if !s.spanReady ((s.freeRing log).slot (s.freeRing log).head 8) 8 then (s, .wait)
    else if frameOk (s.freeEntry log) log false then
      (s.popFree log, if (s.popFree log).spanReady (s.freeEntry log) (2 ^ log) then .got (s.freeEntry log) else .wait)
    else ((s.popFree log).count (lagoonCtr 8) 1).takeFree log n := rfl

theorem Serves.popFree (s : State) (log : Nat) : Serves s (s.popFree log) := by
  refine (Homes.devRead s ((s.freeRing log).slot (s.freeRing log).head 8) 8).serves.trans ?_
  unfold State.popFree
  dsimp only
  split <;> exact Serves.of_fields rfl rfl rfl

theorem Serves.takeFree (s : State) (log n : Nat) : Serves s (s.takeFree log n).1 := by
  induction n generalizing s with
  | zero => exact Serves.refl s
  | succ n ih =>
    rw [State.takeFree_succ]
    split
    · exact Serves.refl s
    · split
      · exact Serves.refl s
      · split
        · exact Serves.popFree s log
        · exact ((Serves.popFree s log).trans (Serves.count _ (by decide) 1)).trans (ih _)

theorem Frame.none_ne_got (f : Nat) : Frame.none ≠ .got f := nofun

theorem Frame.wait_ne_got (f : Nat) : Frame.wait ≠ .got f := nofun

/-- A frame found so is aligned to its size. -/
theorem State.takeFree_aligned {log n f : Nat} (h : (s.takeFree log n).2 = .got f) : f % 2 ^ log = 0 := by
  induction n generalizing s with
  | zero => exact absurd h (Frame.none_ne_got f)
  | succ n ih =>
    rw [State.takeFree_succ] at h
    split at h
    · exact absurd h (Frame.none_ne_got f)
    · split at h
      · exact absurd h (Frame.wait_ne_got f)
      · split at h
        · next hok =>
          split at h
          · simp only [frameOk, Bool.and_eq_true, beq_iff_eq] at hok
            exact Frame.got.inj h ▸ hok.1.1
          · exact absurd h (Frame.wait_ne_got f)
        · exact ih h

/-- The entry of the victim ring: the address of a page table entry, and a far frame. -/
def State.victimEntry (s : State) : List Byte := (s.devRead (s.victim.slot s.victim.head 16) 16).2

/-- The machine with that entry taken. -/
def State.victimTaken (s : State) : State :=
  { (s.devRead (s.victim.slot s.victim.head 16) 16).1 with victim := { s.victim with head := s.victim.head + 1 } }

/-- The address of the page table entry that it names. -/
def State.victimPte (s : State) : Nat := leVal (s.victimEntry.take 8)

/-- The far frame that it names. -/
def State.victimFar (s : State) : Nat := leVal (s.victimEntry.drop 8)

/-- Then the line of the page table entry read. -/
def State.popVictim (s : State) : State :=
  if backed s.victimPte 8 then s.victimTaken.snoop none (s.victimPte / 128) false else s.victimTaken

/-- The page table entry. -/
def State.victimLeaf (s : State) : DWord := BitVec.ofNat 64 (s.popVictim.mem.nat s.victimPte 8)

/-- The victim is a near page of the size that is asked for, with a far frame to go to. -/
def State.victimGood (s : State) (level log : Nat) : Bool :=
  s.victimPte % 8 == 0 && backed s.victimPte 8 && !s.popVictim.homeBad (s.victimPte / 32) && frameOk s.victimFar log true &&
    pteFault level s.victimLeaf == Option.none && pteLeaf s.victimLeaf && pteTier s.victimLeaf == 0

theorem Serves.victimTaken (s : State) : Serves s s.victimTaken :=
  (Homes.devRead s (s.victim.slot s.victim.head 16) 16).serves.trans (Serves.of_fields rfl rfl rfl)

theorem Serves.popVictim (s : State) : Serves s s.popVictim := by
  unfold State.popVictim
  split
  · exact (Serves.victimTaken s).trans (Homes.snoop ..).serves
  · exact Serves.victimTaken s

/-- A victim moved away to its far frame. -/
def State.evictPage (s : State) (log pte far : Nat) (e : DWord) : State :=
  ((s.shootPte pte).copyFrame (pteAddr e) far (2 ^ log)).setPte pte (movePte e 1 far)

theorem Serves.evictPage (s : State) (log pte far : Nat) (e : DWord) : Serves s (s.evictPage log pte far e) :=
  ((Serves.foldl (fun _ _ => Serves.shoot ..) s _).trans (Homes.copyFrame ..).serves).trans (Serves.setPte ..)

theorem State.takeVictim_succ (s : State) (level log n : Nat) : s.takeVictim level log (n + 1) =
    if s.victim.isEmpty then (s, .none)
    else if !s.spanReady (s.victim.slot s.victim.head 16) 16 then (s, .wait)
    else if backed s.victimPte 8 && !s.popVictim.memReady s.victimPte then (s.popVictim, .wait)
    else if s.victimGood level log then
      if !(s.popVictim.spanReady (pteAddr s.victimLeaf) (2 ^ log) && s.popVictim.spanReady s.victimFar (2 ^ log)) then
        (s.popVictim, .wait)
      else (s.popVictim.evictPage log s.victimPte s.victimFar s.victimLeaf, .got (pteAddr s.victimLeaf))
    else (s.popVictim.count (lagoonCtr 7) 1).takeVictim level log n := rfl

theorem Serves.takeVictim (s : State) (level log n : Nat) : Serves s (s.takeVictim level log n).1 := by
  induction n generalizing s with
  | zero => exact Serves.refl s
  | succ n ih =>
    rw [State.takeVictim_succ]
    split
    · exact Serves.refl s
    · split
      · exact Serves.refl s
      · split
        · dsimp only
          exact Serves.popVictim s
        · split
          · split
            · dsimp only
              exact Serves.popVictim s
            · dsimp only
              exact (Serves.popVictim s).trans (Serves.evictPage ..)
          · exact ((Serves.popVictim s).trans (Serves.count _ (by decide) 1)).trans (ih _)

theorem pteAddr_aligned (e : DWord) : pteAddr e % 32 = 0 := by
  unfold pteAddr
  omega

theorem State.takeVictim_aligned {level log n f : Nat} (h : (s.takeVictim level log n).2 = .got f) : f % 32 = 0 := by
  induction n generalizing s with
  | zero => exact absurd h (Frame.none_ne_got f)
  | succ n ih =>
    rw [State.takeVictim_succ] at h
    split at h
    · exact absurd h (Frame.none_ne_got f)
    · split at h
      · exact absurd h (Frame.wait_ne_got f)
      · split at h
        · exact absurd h (Frame.wait_ne_got f)
        · split at h
          · split at h
            · exact absurd h (Frame.wait_ne_got f)
            · exact Frame.got.inj h ▸ pteAddr_aligned _
          · exact ih h

theorem pageLog_dvd (level : Nat) : 32 ∣ 2 ^ pageLog level := by
  refine Nat.pow_dvd_pow 2 (m := 5) ?_
  unfold pageLog
  split <;> decide

/-- The entries that stand in the ring of free frames of a size. -/
def State.freeLeft (s : State) (log : Nat) : Nat :=
  (if log = 16 then s.free64.tail - s.free64.head else s.free2m.tail - s.free2m.head).toNat

/-- The entries that stand in the victim ring. -/
def State.victimsLeft (s : State) : Nat := (s.victim.tail - s.victim.head).toNat

/-- R214: a free frame, or that of a victim moved away. -/
def State.frameFor (s : State) (level : Nat) : State × Frame :=
  let F := s.takeFree (pageLog level) (s.freeLeft (pageLog level))
  if F.2 = .none then F.1.takeVictim level (pageLog level) F.1.victimsLeft else F

theorem Serves.frameFor (s : State) (level : Nat) : Serves s (s.frameFor level).1 := by
  have hf := Serves.takeFree s (pageLog level) (s.freeLeft (pageLog level))
  by_cases h : (s.takeFree (pageLog level) (s.freeLeft (pageLog level))).2 = .none
  · rw [State.frameFor, if_pos h]
    exact hf.trans (Serves.takeVictim ..)
  · rw [State.frameFor, if_neg h]
    exact hf

theorem State.frameFor_aligned {level f : Nat} (h : (s.frameFor level).2 = .got f) : f % 32 = 0 := by
  by_cases hn : (s.takeFree (pageLog level) (s.freeLeft (pageLog level))).2 = .none
  · rw [State.frameFor, if_pos hn] at h
    exact State.takeVictim_aligned h
  · rw [State.frameFor, if_neg hn] at h
    exact Nat.mod_eq_zero_of_dvd ((pageLog_dvd level).trans (Nat.dvd_of_mod_eq_zero (State.takeFree_aligned h)))

end

end Machine

end Sys2Proof
end

section
/-! A page with a migrated leaf taken up by the fault unit (R212 to R214, R366): what becomes of its entry, the DONE ring, the counters of
moves, memory, and the accesses held on the page. -/

namespace Sys2Proof.Machine

open Sys2Proof.Claims

section
variable {s t : State} {x v log : Nat}

/-! ### The accesses held on a page go on (R213) -/

/-- An address on the page of 2 to the `log` bytes that holds `v`. -/
def onPage (v log : Nat) (y : DWord) : Bool := vaBits y / 2 ^ log == v / 2 ^ log

/-- A gang that is not held on the page any longer. -/
def Gang.unheld (v log : Nat) (g : Gang) : Gang :=
  match g.heldOn with
  | some y => if onPage v log y then { g with heldOn := none } else g
  | none => g

/-- A block of the context whose thread and gangs are not held on the page any longer. -/
def Block.unheld (x v log : Nat) (b : Block) : Block :=
  if b.ctx ≠ x then b
  else
    { b.mapGangs (Gang.unheld v log) with
      th := match b.th.wait with
        | .migrate y => if onPage v log y then { b.th with wait := .none } else b.th
        | _ => b.th }

theorem State.unholdPage_moves (t : State) (x v log : Nat) :
    (t.unholdPage x v log).moves = t.moves.filter fun p => !(p.1 == x && onPage v log p.2) := rfl

theorem State.unholdPage_cores (t : State) (x v log : Nat) : (t.unholdPage x v log).cores =
    t.cores.map fun e => (e.1, { e.2 with blocks := e.2.blocks.map fun p => (p.1, p.2.unheld x v log) }) := rfl

theorem State.unholdPage_done (t : State) (x v log : Nat) : (t.unholdPage x v log).done = t.done := rfl

theorem State.unholdPage_mem (t : State) (x v log : Nat) : (t.unholdPage x v log).mem = t.mem := rfl

theorem State.unholdPage_counters (t : State) (x v log : Nat) : (t.unholdPage x v log).counters = t.counters := rfl

theorem Gang.unheld_heldOn {g : Gang} {y : DWord} (h : (g.unheld v log).heldOn = some y) : onPage v log y = false := by
  unfold Gang.unheld at h
  split at h
  · next z hz =>
    split at h
    · cases h
    · next hp =>
      cases hz.symm.trans h
      exact Bool.eq_false_iff.2 hp
  · next hz => cases hz.symm.trans h

theorem Block.unheld_ctx (x v log : Nat) (b : Block) : (b.unheld x v log).ctx = b.ctx := by
  unfold Block.unheld
  split <;> rfl

theorem Block.unheld_wait {b : Block} {y : DWord} (hx : b.ctx = x) (h : (b.unheld x v log).th.wait = .migrate y) :
    onPage v log y = false := by
  rw [Block.unheld, if_neg (not_not.2 hx)] at h
  dsimp only at h
  split at h
  · next z hz =>
    split at h
    · cases h
    · next hp =>
      cases hz.symm.trans h
      exact Bool.eq_false_iff.2 hp
  · next hz => exact absurd h (hz y)

theorem Block.unheld_gangs {b : Block} {g : Gang} (hx : b.ctx = x) (h : g ∈ (b.unheld x v log).gangs) :
    ∃ o, g = Gang.unheld v log o := by
  rw [Block.unheld, if_neg (not_not.2 hx)] at h
  obtain ⟨o, -, rfl⟩ := List.mem_map.1 h
  exact ⟨o, rfl⟩

theorem not_there_of_onPage {y : DWord} (h : onPage v log y = false) : ¬y.toNat % 2 ^ 57 / 2 ^ log = v / 2 ^ log :=
  beq_eq_false_iff_ne.1 h

theorem released_unholdPage (t : State) (x v log : Nat) : released (t.unholdPage x v log) x v log := by
  refine ⟨fun p hp h => ?_, fun c hc b hb hx => ?_⟩
  · rw [State.unholdPage_moves] at hp
    have := (List.mem_filter.1 hp).2
    simp only [beq_iff_eq.2 h.1, Bool.true_and, Bool.not_eq_true'] at this
    exact not_there_of_onPage this h.2
  · rw [State.unholdPage_cores] at hc
    obtain ⟨e, -, rfl⟩ := List.mem_map.1 hc
    obtain ⟨p, -, rfl⟩ := List.mem_map.1 hb
    have hp : p.2.ctx = x := (Block.unheld_ctx ..).symm.trans hx
    refine ⟨fun y hy => not_there_of_onPage (Block.unheld_wait hp hy), fun g hg y hy => ?_⟩
    obtain ⟨o, rfl⟩ := Block.unheld_gangs hp hg
    exact not_there_of_onPage (Gang.unheld_heldOn hy)

/-! ### The end of a move (R213) -/

/-- The entry set, and the page shot down. -/
def State.moveShot (t : State) (x v log pte : Nat) (e : DWord) : State :=
  (t.setPte pte e).shoot x (BitVec.ofNat 64 v) (some log)

/-- Then the move recorded and counted, and its accesses let go on. -/
def State.moveDone (t : State) (x v log pte : Nat) (e : DWord) (old : Nat) (kept : Bool) (k : Nat) : State :=
  (((t.moveShot x v log pte e).pushDone pte old kept).count (lagoonCtr k) 1).unholdPage x v log

theorem State.moveDone_done (t : State) (x v log pte : Nat) (e : DWord) (old : Nat) (kept : Bool) (k : Nat) :
    (t.moveDone x v log pte e old kept k).done = ((t.moveShot x v log pte e).pushDone pte old kept).done := by
  rw [State.moveDone, State.unholdPage_done, State.count_done]

theorem State.moveDone_mem (t : State) (x v log pte : Nat) (e : DWord) (old : Nat) (kept : Bool) (k : Nat) :
    (t.moveDone x v log pte e old kept k).mem = ((t.moveShot x v log pte e).pushDone pte old kept).mem := by
  rw [State.moveDone, State.unholdPage_mem, State.count_mem]

theorem State.moveDone_counters (t : State) (x v log pte : Nat) (e : DWord) (old : Nat) (kept : Bool) (k : Nat) :
    (t.moveDone x v log pte e old kept k).counters =
      (((t.moveShot x v log pte e).pushDone pte old kept).count (lagoonCtr k) 1).counters := by
  rw [State.moveDone, State.unholdPage_counters]

theorem Serves.moveShot (t : State) (x v log pte : Nat) (e : DWord) : Serves t (t.moveShot x v log pte e) :=
  (Serves.setPte ..).trans (Serves.shoot ..)

theorem State.pushDone_done (s : State) (pte old : Nat) (kept : Bool) : (s.pushDone pte old kept).done =
    if s.done.full then s.done else { s.done with tail := s.done.tail + 1 } := by
  unfold State.pushDone
  dsimp only
  split <;> rfl

theorem State.pushDone_moves (s : State) (pte old : Nat) (kept : Bool) {k : Nat} (hk : k = 5 ∨ k = 6) :
    Tbl.getD (s.pushDone pte old kept).counters (lagoonCtr k) 0 = Tbl.getD s.counters (lagoonCtr k) 0 := by
  unfold State.pushDone
  dsimp only
  split
  · exact (Serves.count s (by decide) 1).moves k hk
  · exact (Homes.devWrite s _ _).serves.moves k hk

/-- The record is all that is written, and only where the ring has room. -/
theorem State.pushDone_byte_out (hc : s.clean) (pte old : Nat) (kept : Bool) {a : Nat}
    (h : s.done.full = true ∨ a < s.done.slot s.done.tail 16 ∨ s.done.slot s.done.tail 16 + 16 ≤ a) :
    (s.pushDone pte old kept).mem.byte a = s.mem.byte a := by
  unfold State.pushDone
  dsimp only
  split
  · rfl
  · next hf => exact State.devWrite_byte_out hc _ _ (by simpa using h.resolve_left hf)

section
variable (h : Serves s t) (x v log pte : Nat) (e : DWord) (old : Nat) (kept : Bool) {k : Nat} (hk : k = 5 ∨ k = 6)
include h

theorem Serves.moveDone_done : (t.moveDone x v log pte e old kept k).done =
    if s.done.full then s.done else { s.done with tail := s.done.tail + 1 } := by
  rw [State.moveDone_done, State.pushDone_done, (h.trans (Serves.moveShot t x v log pte e)).done]

include hk

theorem Serves.moveDone_risen : Tbl.getD (t.moveDone x v log pte e old kept k).counters (lagoonCtr k) 0 =
    satAdd (Tbl.getD s.counters (lagoonCtr k) 0) 1 := by
  rw [State.moveDone_counters, State.getD_count_same, State.pushDone_moves _ _ _ _ hk,
    (h.trans (Serves.moveShot t x v log pte e)).moves k hk]

end

theorem State.clean_unitWrite (hc : s.clean) (now : Stamp) (pa : Nat) (l : List Byte) (r : StampRule) :
    (s.unitWrite now pa l r).clean :=
  List.foldlRecOn (motive := fun t : State => t.clean) _ _ hc fun t ht _ _ =>
    (Beside.homePut (l := True) ..).clean ((Still.snoop (l := True) t ..).clean ht)

theorem State.clean_setPte (hc : s.clean) (pa : Nat) (e : DWord) : (s.setPte pa e).clean :=
  State.clean_unitWrite hc ageless pa (leBytes e.toNat 8) (.normal ageless)

theorem State.clean_shoot (hc : s.clean) (ctx : Nat) (base : DWord) (span : Option Nat) : (s.shoot ctx base span).clean :=
  State.clean_mapCores (f := Core.shot ctx base span) (fun _ => rfl) ((Still.copiesBack (l := True) s _ _ false).clean hc)

section
variable (hc : t.clean) {pte : Nat} (e : DWord) (old : Nat) (kept : Bool) (k : Nat)
include hc

theorem State.moveDone_byte {a : Nat}
    (h : t.done.full = true ∨ a < t.done.slot t.done.tail 16 ∨ t.done.slot t.done.tail 16 + 16 ≤ a) :
    (t.moveDone x v log pte e old kept k).mem.byte a = (t.setPte pte e).mem.byte a := by
  have hs := State.clean_setPte hc pte e
  have hm : (t.moveShot x v log pte e).clean := State.clean_shoot hs x _ _
  rw [← (Serves.moveShot t x v log pte e).done] at h
  rw [State.moveDone_mem, State.pushDone_byte_out hm pte old kept h, State.moveShot, State.shoot_mem hs]

/-- Beside the entry and the record memory is as it was. -/
theorem State.moveDone_byte_out {a : Nat} (ha : a < pte ∨ pte + 8 ≤ a)
    (h : t.done.full = true ∨ a < t.done.slot t.done.tail 16 ∨ t.done.slot t.done.tail 16 + 16 ≤ a) :
    (t.moveDone x v log pte e old kept k).mem.byte a = t.mem.byte a :=
  (State.moveDone_byte hc e old kept k h).trans (State.unitWrite_byte_out hc _ _ _ _ (by simpa using ha))

end

theorem Store.nat_congr {m n : Store} {a k : Nat} (h : ∀ i, i < k → m.byte (a + i) = n.byte (a + i)) : m.nat a k = n.nat a k := by
  refine congrArg leVal (List.ext_getElem? fun i => ?_)
  rw [Store.getElem?_bytesAt, Store.getElem?_bytesAt]
  split
  · next hi => rw [h i hi]
  · rfl

theorem State.setPte_nat (hc : s.clean) (hw : s.mem.wf = true) {pte : Nat} (hb : s.mem.bad (pte / 32) = false)
    (ho : s.offline pte = false) (hp : pte % 8 = 0) (e : DWord) : (s.setPte pte e).mem.nat pte 8 = e.toNat := by
  have hl : (leBytes e.toNat 8).length = 8 := length_leBytes ..
  have := State.unitWrite_bytes hc hw ageless (.normal ageless) (l := leBytes e.toNat 8) (by rw [hl]; omega) (by rw [hl]; omega) hb ho
  rw [hl] at this
  exact (congrArg leVal this).trans ((leVal_leBytes ..).trans (Nat.mod_eq_of_lt e.isLt))

/-- The entry of a page once it has moved. -/
theorem State.moveDone_nat (hc : t.clean) (hw : t.mem.wf = true) {pte : Nat} (hb : t.mem.bad (pte / 32) = false)
    (ho : t.offline pte = false) (hp : pte % 8 = 0) (hd : t.done.full = true ∨ apart (t.done.slot t.done.tail 16) 16 pte 8)
    (e : DWord) (old : Nat) (kept : Bool) (k : Nat) : (t.moveDone x v log pte e old kept k).mem.nat pte 8 = e.toNat := by
  rw [← State.setPte_nat hc hw hb ho hp e]
  refine Store.nat_congr fun i hi => State.moveDone_byte hc e old kept k (hd.imp_right fun hd => ?_)
  rcases hd with hd | hd
  · exact .inr (by omega)
  · exact .inl (by omega)

/-! ### The move of a page (R213, R214) -/

/-- The DONE ring and both frames of a move can be reached (R366). -/
def State.moveReady (s : State) (level : Nat) (e : DWord) : Prop :=
  s.doneReady = true ∧ s.spanReady (pteAddr e) (2 ^ pageLog level) = true

section
variable (s) (x v pte : Nat) {level f : Nat} {e : DWord}

theorem State.movePage_eq : s.movePage x v level pte e =
    if !(s.doneReady && s.spanReady (pteAddr e) (2 ^ pageLog level)) then s
    else match s.frameFor level with
      | (t, .got f) => (t.copyFrame (pteAddr e) f (2 ^ pageLog level)).moveDone x v (pageLog level) pte (movePte e 0 f) (pteAddr e) false 5
      | (t, .none) => t.moveDone x v (pageLog level) pte (movePte e 1 (pteAddr e)) (pteAddr e) true 6
      | (_, .wait) => s := by
  have hn : ((s.freeRing (pageLog level)).tail - (s.freeRing (pageLog level)).head).toNat = s.freeLeft (pageLog level) := by
    unfold State.freeRing State.freeLeft
    split <;> rfl
  have hf : (match s.takeFree (pageLog level) ((s.freeRing (pageLog level)).tail - (s.freeRing (pageLog level)).head).toNat with
      | (t, .none) => t.takeVictim level (pageLog level) t.victimsLeft
      | y => y) = s.frameFor level := by
    rw [hn]
    unfold State.frameFor
    rcases s.takeFree (pageLog level) (s.freeLeft (pageLog level)) with ⟨t, _ | _ | _⟩ <;> rfl
  rw [← hf]
  rfl

theorem State.movePage_wait (h : ¬s.moveReady level e ∨ (s.frameFor level).2 = .wait) : s.movePage x v level pte e = s := by
  rw [State.movePage_eq]
  split
  · rfl
  · next hr =>
    have hw := h.resolve_left (not_not.2 (by simpa [State.moveReady] using hr))
    rw [show s.frameFor level = ((s.frameFor level).1, .wait) from Prod.ext rfl hw]

variable (hr : s.moveReady level e)
include hr

theorem State.movePage_got (h : (s.frameFor level).2 = .got f) : s.movePage x v level pte e =
    ((s.frameFor level).1.copyFrame (pteAddr e) f (2 ^ pageLog level)).moveDone x v (pageLog level) pte (movePte e 0 f)
      (pteAddr e) false 5 := by
  rw [State.movePage_eq, if_neg (by simp [hr.1, hr.2]),
    show s.frameFor level = ((s.frameFor level).1, .got f) from Prod.ext rfl h]

theorem State.movePage_none (h : (s.frameFor level).2 = .none) : s.movePage x v level pte e =
    (s.frameFor level).1.moveDone x v (pageLog level) pte (movePte e 1 (pteAddr e)) (pteAddr e) true 6 := by
  rw [State.movePage_eq, if_neg (by simp [hr.1, hr.2]),
    show s.frameFor level = ((s.frameFor level).1, .none) from Prod.ext rfl h]

end

/-! ### The act -/

section
variable (hl : s.ready.getLsbD 2 = true) (x : Nat) (va : DWord)
include hl

theorem exec_pageMigration : exec (.pageMigration x va) s =
    match (s.walk (vaBits va) s.clock (s.rootOf x) 4).2 with
    | .wait => .next s
    | .fault _ => .next (s.unholdPage x (vaBits va) 16)
    | .leaf e level pte => .next (if pteTier e = 2 then s.movePage x (vaBits va) level pte e
        else s.unholdPage x (vaBits va) (pageLog level)) := by
  have hu : s.lagoonUp = true := hl
  show execPageMigration x va s = _
  unfold execPageMigration
  simp only [hu, Bool.not_true, Bool.false_eq_true, if_false]
  generalize s.walk (vaBits va) s.clock (s.rootOf x) 4 = w
  rcases w with ⟨_, _ | _ | _⟩ <;> rfl

variable {x va} {level pte : Nat} {e : DWord}

theorem exec_pageMigration_wait (hw : (s.walk (vaBits va) s.clock (s.rootOf x) 4).2 = .wait) :
    exec (.pageMigration x va) s = .next s := by
  rw [exec_pageMigration hl, hw]

theorem exec_pageMigration_fault {d : Nat} (hw : (s.walk (vaBits va) s.clock (s.rootOf x) 4).2 = .fault d) :
    exec (.pageMigration x va) s = .next (s.unholdPage x (vaBits va) 16) := by
  rw [exec_pageMigration hl, hw]

variable (hw : (s.walk (vaBits va) s.clock (s.rootOf x) 4).2 = .leaf e level pte)
include hw

theorem exec_pageMigration_gone (ht : pteTier e ≠ 2) :
    exec (.pageMigration x va) s = .next (s.unholdPage x (vaBits va) (pageLog level)) := by
  simp only [exec_pageMigration hl, hw, if_neg ht]

theorem exec_pageMigration_leaf (ht : pteTier e = 2) :
    exec (.pageMigration x va) s = .next (s.movePage x (vaBits va) level pte e) := by
  simp only [exec_pageMigration hl, hw, if_pos ht]

end

/-- What the end of a move makes of the accesses on the page, the DONE ring and a counter of moves. -/
theorem Serves.moved (h : Serves s t) (x v log pte : Nat) (e : DWord) (old : Nat) (kept : Bool) {k : Nat} (hk : k = 5 ∨ k = 6) :
    let u := t.moveDone x v log pte e old kept k
    (released u x v log ∧
      (s.done.full = false → u.done = { s.done with tail := s.done.tail + 1 }) ∧ (s.done.full = true → u.done = s.done)) ∧
      Tbl.getD u.counters (lagoonCtr k) 0 = satAdd (Tbl.getD s.counters (lagoonCtr k) 0) 1 := by
  have hd := h.moveDone_done x v log pte e old kept (k := k)
  refine ⟨⟨released_unholdPage .., fun hf => ?_, fun hf => ?_⟩, h.moveDone_risen x v log pte e old kept hk⟩
  · rw [hd, hf]; rfl
  · rw [hd, if_pos hf]

/-- What a frame copied keeps of the sector of an entry that lies beside the frame. -/
theorem Copied.bad_pte {old f n pte : Nat} (h : Copied s old f n t) (hf : f % 32 = 0) (hn : n % 32 = 0) (hp : pte % 8 = 0)
    (ha : apart f n pte 8) : t.mem.bad (pte / 32) = s.mem.bad (pte / 32) := by
  refine h.bad _ ?_
  rcases ha with ha | ha
  · exact .inr (by omega)
  · exact .inl (by omega)

/-! Memory after a move from a machine `t` that found a frame for the page: `s` is the machine at the start, with the DONE ring. -/

section
variable (h : Serves s t) (hc : t.clean) (hw : t.mem.wf = true) {pte : Nat} (hb : t.mem.bad (pte / 32) = false)
  (ho : t.offline pte = false) (hp : pte % 8 = 0) (hd : s.done.full = true ∨ apart (s.done.slot s.done.tail 16) 16 pte 8)
  (x v log : Nat) (e : DWord) (old : Nat) (kept : Bool) (k : Nat)
include h hc hw hb ho hp hd

/-- With no frame free: the entry, and every byte beside it and the record. -/
theorem Serves.stayed_mem : (t.moveDone x v log pte e old kept k).mem.nat pte 8 = e.toNat ∧
    ∀ a, a < pte ∨ pte + 8 ≤ a → s.done.full = true ∨ a < s.done.slot s.done.tail 16 ∨ s.done.slot s.done.tail 16 + 16 ≤ a →
      (t.moveDone x v log pte e old kept k).mem.byte a = t.mem.byte a := by
  rw [← h.done] at hd ⊢
  exact ⟨State.moveDone_nat hc hw hb ho hp hd e old kept k, fun a ha hD => State.moveDone_byte_out hc e old kept k ha hD⟩

/-- With a frame: the entry, and the bytes of the page in the frame. -/
theorem Serves.moved_mem {f n : Nat} (hs : old % 32 = 0) (hf : f % 32 = 0) (hn : n % 32 = 0) (ha : apart f n pte 8)
    (hfd : s.done.full = true ∨ apart f n (s.done.slot s.done.tail 16) 16) :
    ((t.copyFrame old f n).moveDone x v log pte e old kept k).mem.nat pte 8 = e.toNat ∧
      ∀ i, i < n → ((t.copyFrame old f n).moveDone x v log pte e old kept k).mem.byte (f + i) = t.mem.byte (old + i) := by
  have hC := (Homes.copyFrame t old f n).serves
  have copied := State.copyFrame_copied hc hw hs hn f
  obtain ⟨hnat, hout⟩ := (h.trans hC).stayed_mem copied.clean copied.wf ((copied.bad_pte hf hn hp ha).trans hb)
    ((hC.offline pte).trans ho) hp hd x v log e old kept k
  refine ⟨hnat, fun i hi => ?_⟩
  rw [hout (f + i), copied.byte, if_pos (by omega), show f + i - f + old = old + i by omega]
  · rcases ha with ha | ha
    · exact .inl (by omega)
    · exact .inr (by omega)
  · refine hfd.imp_right fun hfd => ?_
    rcases hfd with hfd | hfd
    · exact .inl (by omega)
    · exact .inr (by omega)

end

/-- R212 to R214, R366. -/
theorem pagesMigrate : Claims.PagesMigrate := by
  intro s x va hl
  refine ⟨exec_pageMigration_wait hl, fun d hw => ⟨_, exec_pageMigration_fault hl hw, rfl, released_unholdPage ..⟩,
    fun e level pte hw => ⟨fun ht => ⟨_, exec_pageMigration_gone hl hw ht, rfl, released_unholdPage ..⟩,
      fun ht h => ?waits, fun ht hr f hf => ?got, fun ht hr hn => ?none⟩⟩
  case waits =>
    exact (exec_pageMigration_leaf hl hw ht).trans (congrArg _ (s.movePage_wait x _ pte h))
  case got =>
    have hF := Serves.frameFor s level
    have hC := (Homes.copyFrame (s.frameFor level).1 (pteAddr e) f (2 ^ pageLog level)).serves
    obtain ⟨hm, hr5⟩ := (hF.trans hC).moved x (vaBits va) (pageLog level) pte (movePte e 0 f) (pteAddr e) false (.inl rfl)
    refine ⟨_, (exec_pageMigration_leaf hl hw ht).trans (congrArg _ (s.movePage_got x _ pte hr hf)), hm, hr5, ?_⟩
    rintro ⟨hwf, hc, hb, ho, hp, hd⟩ ha hfd
    exact hF.moved_mem hc hwf hb ho hp hd x _ _ _ _ _ _ (pteAddr_aligned e) (State.frameFor_aligned hf)
      (Nat.mod_eq_zero_of_dvd (pageLog_dvd level)) ha hfd
  case none =>
    have hF := Serves.frameFor s level
    obtain ⟨hm, hr6⟩ := hF.moved x (vaBits va) (pageLog level) pte (movePte e 1 (pteAddr e)) (pteAddr e) true (.inr rfl)
    refine ⟨_, (exec_pageMigration_leaf hl hw ht).trans (congrArg _ (s.movePage_none x _ pte hr hn)), hm, hr6, ?_⟩
    rintro ⟨hwf, hc, hb, ho, hp, hd⟩
    exact hF.stayed_mem hc hwf hb ho hp hd x _ _ _ _ _ _

end

/-- Settles O58: the claims on tides, frames, sweepers, shootdowns, migration, the directory, the aperture, packets and base dies. -/
theorem tideAndMemoryUnits : Obligations.TideAndMemoryUnits :=
  ⟨tideRegistersAct, frameOwnersAreSet, sweepersAgeStamps, shootdownsDropTranslations, pagesMigrate, directoryAnswers, apertureActs,
    gatherPacketsAreServed, baseDiesInitialise⟩

end Sys2Proof.Machine
end
